-- ==== Sys2Proof/Word.lean ====
section
/-!
DEFINITION. The word types of the Stavnas GX2 and their plainest arithmetic (R30, R43).
-/

namespace Sys2Proof

/-- One byte of memory. -/
abbrev Byte := BitVec 8
/-- A 32-bit register or instruction word (R30). -/
abbrev Word := BitVec 32
/-- A 64-bit pair, low half in the even register (R43). -/
abbrev Dword := BitVec 64
/-- A 128-bit quadruple, lowest word first (R43). -/
abbrev Quad := BitVec 128
/-- A 56-bit virtual address (R4). -/
abbrev Addr := BitVec 56

/-- Low half of a pair. -/
abbrev Dword.lo (x : Dword) : Word := x.setWidth 32
/-- High half of a pair. -/
abbrev Dword.hi (x : Dword) : Word := x.extractLsb' 32 32
/-- A pair from its halves. -/
abbrev pairOf (hi lo : Word) : Dword := hi ++ lo
/-- A word as the low half of a zero-extended pair. -/
abbrev Word.zx (x : Word) : Dword := x.setWidth 64
/-- A truth value as a word: 1 or 0. -/
abbrev ofFlag (b : Bool) : Dword := if b then 1 else 0

end Sys2Proof
end

