-- ==== Sys2Proof/Config.lean ====
section
/-!
DEFINITION. What an FJ-GX2-A fixes outside its architecture, and the free values: constants with no
body, so that no proof can learn one (logs 2, 8, 9 and 10).
-/

namespace Sys2Proof.Config

/-- Which of several enabled moves comes next, and every other choice the manual leaves open (R204). -/
opaque freeChoice : Nat → Nat
/-- Nanoseconds that pass between two steps (R3, R236: the manual fixes no latency). -/
opaque freeTime : Nat → Nat
/-- A value of 32 bits that the manual leaves undefined. -/
opaque freeWord : Nat → BitVec 32
/-- A byte that the manual leaves undefined (R221, R278, R239). -/
opaque freeByte : Nat → BitVec 8
/-- The masks M0 to M7 of SliceHash, fixed in the device (R154, R427). -/
opaque sliceMask : Nat → BitVec 64
/-- The device's serial number (R433), 16 bytes. -/
opaque serial : Nat → BitVec 8
/-- Faljo's root key, an affine point of P-521 whose hash is fused (R431). -/
opaque rootKey : Nat × Nat
/-- The identity private key held in fuses (R432). -/
opaque identityKey : Nat
/-- The per-signature secret of ECDSA, drawn afresh for each report (R433). -/
opaque signNonce : Nat → Nat
/-- The fused anti-rollback counter at manufacture (R431). -/
opaque fusedCounter : Nat
/-- The version of the firmware image in force at the first reset (R431, R433). -/
opaque firmwareVersion : Nat
/-- That image: its header and body (R431, R432). -/
opaque firmwareImage : List (BitVec 8)
/-- The configuration that a firmware image extends MR1 with (R432). -/
opaque firmwareSettings : List (BitVec 8) → List (BitVec 8)
/-- The certificate of the identity key (R432). -/
opaque certificate : List (BitVec 8)
/-- Spares a source of errors has at first (R428, R430). -/
opaque spares : Nat → BitVec 8
/-- The version field of an entry of the capability list (R427). -/
opaque capVersion : Nat → BitVec 8
/-- The version field of an attestation report (R433). -/
opaque reportVersion : BitVec 32

/-- Whether an uncorrectable error of a sector is met again at a moment by a walk (R29). -/
opaque errorPersists : Nat → Nat → Bool
/-- The DRAM stack whose memory controller serves a line (R4, R425, log 10). -/
opaque dramStack : Nat → Nat
/-- What the routing and credits of a flit's header tell of the sender's link to a device: nothing, or that the link is
down, or up with so many credits outstanding (R395, R397, log 10). -/
opaque linkReport : Nat → Nat → Option (Option Nat)
/-- The burst-correction parity of a flit's first 252 bytes (R395, log 10). -/
opaque flitParity : List (BitVec 8) → Nat
/-- The routing and credits that a flit leaves with, by its destination and the moment (R395, log 10). -/
opaque flitRouting : Nat → Nat → Nat
/-- The set of a slice that a line lies in, of 4096 (R153, log 10). -/
opaque l2Set : Nat → Nat
/-- The output queue that a request to a home waits in at its n-th router, by its core, the home and n
(R181, log 10). -/
opaque routerPort : Nat → Nat → Nat → Nat
/-- The routers on the way of a request from a core to a home (log 10). -/
opaque routerCount : Nat → Nat → Nat
/-- The input port through which it reaches that router (log 10). -/
opaque routerInput : Nat → Nat → Nat → Nat
/-- The unit kind, index and byte of its content that a word of the readback apertures presents (R418, R426,
log 10). -/
opaque aperture : Nat → Nat × Nat × Nat

end Sys2Proof.Config
end

