-- ==== Sys2Proof/Syntax.lean ====
section
/-!
DEFINITION. The Qorzar instruction set as one inductive, a constructor for each row of
spec/opcode_table.json: 148 encoded instructions in seven classes (R53), then the 99 steps of the
machine that are not encoded (95_what_each_step_holds). An encoded constructor holds the fields its
chapter names; a step holds the numbers that say which operation, lane, core or unit it acts on.
-/

namespace Sys2Proof

/-- Engine classes (R33). -/
inductive Class where
  | I | F | M | C | X | K | G
  deriving DecidableEq, Repr

/-- A destination field D (R41). -/
inductive Dst where
  | v (n : BitVec 6) | s (n : BitVec 5) | push (ch : BitVec 5)
  deriving DecidableEq, Repr

/-- A source field S (R42): register, scalar, constant word, inline literal, literal in an extension
word, pop and peek. -/
inductive Src where
  | v (n : BitVec 6) | s (n : BitVec 5) | c (n : BitVec 6)
  | inl (x : BitVec 6) | ext (e : Word)
  | pop (ch : BitVec 5) | peek (ch : BitVec 5)
  deriving DecidableEq, Repr

/-- Access sizes of formats M and MS (R50). -/
inductive Size where
  | b8 | b16 | b32 | b64 | b128
  deriving DecidableEq, Repr

/-- Cache policies (R50, R173). -/
inductive Policy where
  | normal | stream | keep | nol1
  deriving DecidableEq, Repr

/-- Spaces a memory instruction names (R50, R150). -/
inductive Space where
  | global | scratch | const
  deriving DecidableEq, Repr

/-- Ordering scopes (R26). -/
inductive Scope where
  | group | team | cluster | device | system
  deriving DecidableEq, Repr

/-- Orders of an atomic (R50, R180). -/
inductive Order where
  | rlx | acq | rel | acqrel
  deriving DecidableEq, Repr

/-- Functions of an atomic (R50, R178). -/
inductive AtomFn where
  | add | min | max | minn | maxn | and | or | xor | exch | cas | fadd | kmax
  deriving DecidableEq, Repr

/-- Conditions of `WAITC` (R192). -/
inductive WaitCc where
  | eq | ne | lt | ge | ltn | gen | any | none
  deriving DecidableEq, Repr

/-- Rounding fields (R118). -/
inductive Rnd where
  | dyn | rne | rtz | rdn | rup
  deriving DecidableEq, Repr

/-- Rules of `IMAD` (R101). -/
inductive MadMode where
  | wrap | sat | satn
  deriving DecidableEq, Repr

/-- Functions of `PLOG` (R107). -/
inductive PlogFn where
  | and | or | xor | mov
  deriving DecidableEq, Repr

/-- Modes of `SHFL` (R110). -/
inductive ShflMode where
  | idx | up | down | xor
  deriving DecidableEq, Repr

/-- Segment widths of `SHFL` (R110). -/
inductive SegW where
  | w32 | w16 | w8 | w4 | w2
  deriving DecidableEq, Repr

/-- Integer types of `CVTI` (R105). -/
inductive IntTy where
  | i8 | i16 | i32 | i64 | n8 | n16 | n32 | n64
  deriving DecidableEq, Repr

/-- Results of `RAND` (R114). -/
inductive RandOut where
  | n32 | f32 | n64
  deriving DecidableEq, Repr

/-- Round counts of `RAND` (R114): two, four, six, eight. -/
inductive RandRounds where
  | r2 | r4 | r6 | r8
  deriving DecidableEq, Repr

/-- Kinds of `FENCE` (R191). -/
inductive FenceKind where
  | full | acq | rel
  deriving DecidableEq, Repr

/-- Operations of `CCTL` (R197). -/
inductive CctlOp where
  | l1line | l1all | cbank | icache | wb
  deriving DecidableEq, Repr

/-- Operand forms of the matrix engine (R294). -/
inductive MxForm where
  | k16 | k16x4 | k32 | ci8 | ci8x4 | ci16
  deriving DecidableEq, Repr

/-- Accumulator types (R294). -/
inductive MxAcc where
  | f32 | i32 | i64
  deriving DecidableEq, Repr

/-- Conversions of `MSTORE` (R303). -/
inductive MxConv where
  | raw | tf32 | bf16 | f16 | i8 | i16 | raw64
  deriving DecidableEq, Repr

/-- The sign field of a matrix instruction: none, or the convergence register it signs (R299). -/
abbrev SignCv := Option (BitVec 4)

/-- The instruction set: every row of spec/opcode_table.json. -/
inductive Instr where
  -- class I (R98-R114)
  | mov (d : Dst) (a : Src)
  | iadd (d : Dst) (a b : Src)
  | isub (d : Dst) (a b : Src)
  | imul (d : Dst) (a b : Src)
  | imulhs (d : Dst) (a b : Src)
  | imulhn (d : Dst) (a b : Src)
  | imad (d : Dst) (a b c : Src) (m : MadMode)
  | imin (d : Dst) (a b : Src)
  | imax (d : Dst) (a b : Src)
  | iminn (d : Dst) (a b : Src)
  | imaxn (d : Dst) (a b : Src)
  | iabs (d : Dst) (a : Src)
  | ineg (d : Dst) (a : Src)
  | andI (d : Dst) (a b : Src)
  | orI (d : Dst) (a b : Src)
  | xorI (d : Dst) (a b : Src)
  | andn (d : Dst) (a b : Src)
  | shl (d : Dst) (a b : Src)
  | shr (d : Dst) (a b : Src)
  | sar (d : Dst) (a b : Src)
  | rotl (d : Dst) (a b : Src)
  | popc (d : Dst) (a : Src)
  | clz (d : Dst) (a : Src)
  | brev (d : Dst) (a : Src)
  | bfx (d : Dst) (a pos width : Src) (sx : Bool)
  | bfi (d : Dst) (base value pos : Src) (width : BitVec 6)
  | isel (d : Dst) (a b : Src) (neg : Bool) (p : BitVec 6)
  | icmps (pd : BitVec 6) (cc : BitVec 2) (a b : Src)
  | icmpn (pd : BitVec 6) (cc : BitVec 2) (a b : Src)
  | plog (pd : BitVec 6) (fn : PlogFn) (pa : BitVec 6) (na : Bool) (pb : BitVec 6) (nb : Bool)
  | prd (d : Dst) (h : Bool)
  | pwr (a : Src) (h : Bool)
  | iadd64 (d : Dst) (a b : Src)
  | isub64 (d : Dst) (a b : Src)
  | shl64 (d : Dst) (a b : Src)
  | shr64 (d : Dst) (a b : Src)
  | lea (d : Dst) (base index offset : Src) (n : Bool) (sh : BitVec 3)
  | imulw (d : Dst) (a b : Src)
  | iaddw (d : Dst) (a b : Src)
  | icmp64 (pd : BitVec 6) (cc : BitVec 2) (a b : Src)
  | shfl (d : Dst) (a b c : Src) (w : SegW) (m : ShflMode)
  | vote (pd : BitVec 6) (cc : BitVec 2) (a : Src)
  | ballot (d : Dst) (a : Src)
  | elect (pd : BitVec 6) (hi : Bool)
  | cvti (d : Dst) (a sh : Src) (sat : Bool) (tt fr : IntTy)
  | rand (d : Dst) (key counter stream : Src) (out : RandOut) (rounds : RandRounds)
  -- class F (R116-R147)
  | fadd (d : Dst) (a b : Src) (rnd : Rnd)
  | fsub (d : Dst) (a b : Src) (rnd : Rnd)
  | fmul (d : Dst) (a b : Src) (rnd : Rnd)
  | ffma (d : Dst) (a b c : Src) (nb nc : Bool) (rnd : Rnd)
  | fmin (d : Dst) (a b : Src)
  | fmax (d : Dst) (a b : Src)
  | fabs (d : Dst) (a : Src)
  | fneg (d : Dst) (a : Src)
  | fcmp (pd : BitVec 6) (cc : BitVec 2) (a b : Src)
  | frcp (d : Dst) (a : Src) (rnd : Rnd)
  | frsq (d : Dst) (a : Src) (rnd : Rnd)
  | fsqrt (d : Dst) (a : Src) (rnd : Rnd)
  | fexp2 (d : Dst) (a : Src)
  | flog2 (d : Dst) (a : Src)
  | ftrig (d : Dst) (a : Src) (cos : Bool)
  | frnd (d : Dst) (a : Src) (rnd : Rnd)
  | fcvt (d : Dst) (a : Src) (conv : BitVec 4) (rnd : Rnd)
  | fclass (d : Dst) (a : Src)
  | fkey (d : Dst) (a : Src)
  | fscale (d : Dst) (a n : Src) (rnd : Rnd)
  | dadd (d : Dst) (a b : Src) (nb : Bool) (rnd : Rnd)
  | dmul (d : Dst) (a b : Src) (rnd : Rnd)
  | dfma (d : Dst) (a b c : Src) (nb nc : Bool) (rnd : Rnd)
  | dcmp (pd : BitVec 6) (cc : BitVec 2) (a b : Src)
  | tadd (d : Dst) (a b : Src)
  | tsub (d : Dst) (a b : Src)
  | tmul (d : Dst) (a b : Src)
  | tfma (d : Dst) (a b c : Src) (nb nc : Bool)
  | tcmp (pd : BitVec 6) (cc : BitVec 2) (a b : Src)
  | tneg (d : Dst) (a : Src)
  | trcp (d : Dst) (a : Src)
  | trsq (d : Dst) (a : Src)
  -- class M (R166-R203); a global or scratchpad address is SA plus the offset word when there is one
  | ld (d : Dst) (a : Src) (off : Option Word) (size : Size) (pol : Policy) (sp : Space) (sx : Bool)
  | st (data a : Src) (off : Option Word) (size : Size) (pol : Policy) (sp : Space)
  | lda (d : Dst) (a : Src) (off : Option Word) (size : Size) (pol : Policy) (scope : Scope)
  | stl (data a : Src) (size : Size) (scope : Scope)
  | ldp (d : Dst) (a : Src) (off : Option Word) (size : Size)
  | atom (d : Dst) (a b c : Src) (fn : AtomFn) (ord : Order) (scope : Scope) (w64 : Bool)
  | red (a b : Src) (fn : AtomFn) (scope : Scope) (w64 : Bool)
  | redf
  | fence (k : FenceKind) (scope : Scope)
  | waitc (d : Dst) (a b : Src) (cc : WaitCc) (scope : Scope) (w64 : Bool)
  | pref (a : Src) (off : Option Word) (line : Bool) (pol : Policy)
  | cctl (a : Src) (op : CctlOp)
  | chcfg (base depth : Src) (w64 : Bool) (ch : BitVec 5)
  | chstat (d : Dst) (n : Src)
  -- class C (R71-R94, R233-R236, R329-R343)
  | nop
  | bra (p : BitVec 6) (neg : Bool) (off : BitVec 19)
  | brx (a : Src)
  | call (p : BitVec 6) (neg : Bool) (off : BitVec 19)
  | callx (a : Src)
  | ret
  | fork (pd : BitVec 6) (n : BitVec 7) (off : BitVec 19)
  | endF (succ : Option (BitVec 7 × BitVec 18))
  | spawn (pd : BitVec 6) (off : BitVec 19)
  | rcvg
  | bara (b : BitVec 4) (grid : Bool) (count : Src)
  | barw (b : BitVec 4) (grid : Bool)
  | bar (b : BitVec 4) (grid : Bool) (count : Src)
  | cvset (cv : BitVec 4) (n : Src)
  | sign (cv : BitVec 4)
  | yield
  | trap (code : BitVec 16)
  | brkpt
  | rte
  | rdsys (d : Dst) (n : BitVec 12)
  | wrsys (n : BitVec 12) (a : Src)
  | clk (d : Dst)
  | mark (d : Dst) (id : BitVec 16)
  | cut (d : Dst) (id : BitVec 16) (off : BitVec 19)
  | graft (a : Src)
  | sdrop (d : Dst) (a : Src)
  | sdropHold (d : Dst) (a : Src)
  | sinfo (d : Dst) (a : Src)
  -- class X (R292-R320)
  | mzero (at_ : BitVec 6) (cv : SignCv) (n1 : BitVec 6)
  | mma (at_ : BitVec 6) (cv : SignCv) (z ha hb : Bool) (a b origin : Src) (tha thb : BitVec 5)
  | mmac (at_ : BitVec 6) (cv : SignCv) (z hb : Bool) (b : Src) (as_ : BitVec 6) (sh : BitVec 5)
      (thb : BitVec 5) (origin : Src)
  | mload (at_ : BitVec 6) (cv : SignCv) (t : Bool) (n1 : BitVec 5) (a : Src)
  | mstore (at_ : BitVec 6) (cv : SignCv) (t : Bool) (n1 : BitVec 5) (a : Src) (conv : MxConv)
      (am : Option Scope) (sh : BitVec 5) (addr : Src)
  | mgather (at_ : BitVec 6) (cv : SignCv) (z : Bool) (a b list : Src)
  | mshape (mt nt : BitVec 4) (fa fb : MxForm) (acc : MxAcc) (sa sb q : Bool) (k : BitVec 16)
  | benq (pd : BitVec 6) (row res : Src)
  | mfence
  | mreset (a : Src)
  -- class K (R265-R288, R361-R363)
  | thdl (th : BitVec 5) (q : Src)
  | cpyi (th : BitVec 5) (plain bulk : Bool) (off origin : Src) (status : Option Src)
      (stage : Option (BitVec 3 × Src))
  | cpyo (th : BitVec 5) (bulk tf : Bool) (off origin : Src) (status : Option Src)
      (sr : Option (Src × Src)) (am : Option (Scope × Src))
  | cpym (th : BitVec 5) (plain quad : Bool) (off origin : Src) (status : Option Src)
      (stage : Option (BitVec 3 × Src)) (mask : BitVec 8)
  | stgpWait (d : Dst) (stage : BitVec 3) (seq : Src)
  | stgpFill (stage : BitVec 3) (seq : Src)
  | stgc (d : Dst) (stage : BitVec 3) (seq : Src)
  | stgr (stage : BitVec 3) (seq : Src)
  | lease (pd : BitVec 6) (period : Src)
  | lfree
  | launch (d : Dst) (tmpl arg : Src)
  | gdec (d : Dst) (node amount : Src)
  | gcond (node value : Src)
  -- class G (R374, R401, R407)
  | beat (n : Src)
  | rbegin (pd : BitVec 6) (f : BitVec 6) (n : BitVec 7)
  | rcommit
  | rabort
  | event (code : BitVec 16) (a : Src)
  -- the fibre core's own steps
  | schedulerVote (core sched : Nat)
  | deferredFault (gid lane : Nat)
  | rcvgRelease (gid : Nat)
  | groupRestart (gid : Nat)
  | groupSlotFree (gid : Nat)
  | teamEnd (tid : Nat)
  | gridBarrierArrive (op : Nat)
  -- the ordering machine
  | storePassCop (gid : Nat)
  | storePerform (core seq : Nat)
  | generationRetry (core op : Nat)
  | loadDataReturn (op lane : Nat)
  | atomicPerform (req : Nat)
  | atomicReply (rep : Nat)
  | routerCombine (first second : Nat)
  | replySplit (rep : Nat)
  | redEntryDrain (core : Nat)
  | fenceComplete (op : Nat)
  | waitcTimeout (gid lane : Nat)
  | waitcRetest (gid lane : Nat)
  | walkComplete (core walk : Nat)
  | walkMigrateReread (core walk : Nat)
  | lineMigrateDone (line : Nat)
  | xlgenBump (asid : Nat)
  | xlgenBumpDone (asid : Nat)
  | xlinvPage (asid page : Nat)
  | xlinvAsid (asid : Nat)
  | xlinvStage2 (asid : Nat)
  | xlinvStage2Done (asid : Nat)
  | cpwinWrite (core : Nat) (win winb : Dword)
  -- the tensor copy and matrix engines
  | copyStart (op : Nat)
  | copyComplete (op : Nat)
  | stageWaitRelease (op : Nat)
  | stgcfgWrite (tid n : Nat) (value : Word)
  | fmtWrite (tid n : Nat) (value : Word)
  | leaseExpiry (tid : Nat)
  | matrixOpStart (op : Nat)
  | matrixOpComplete (op : Nat)
  | batchTimeout (core : Nat)
  | batchComplete (op : Nat)
  | bqctlEnable (core asid : Nat) (value : Word)
  | bqctlDisable (core : Nat) (value : Word)
  | slheapcfgEnable (asid : Nat) (value : Word)
  -- Crozier
  | readyNoticeReceive (die : Nat)
  | copyNodeStart (die node : Nat)
  | placementDecision (die : Nat)
  | teamStart (tid : Nat)
  | nodeBlocking (die node : Nat)
  | nodeComplete (die node : Nat)
  | yieldStop (tid : Nat)
  | teamSaveComplete (tid : Nat)
  | teamResume (tid : Nat)
  | arenaDisable (die arena : Nat)
  -- the governor
  | gvctlWrite (asid : Nat) (value : Word)
  | gvorderWrite (asid : Nat) (value : Word)
  | gvposWrite (asid a : Nat) (value : Word)
  | gvbndWrite (asid a : Nat) (value : Word)
  | gvintlenWrite (value : Word)
  | contextRemove (asid : Nat)
  | contextRestore (asid : Nat)
  | beatFlitReceive (job boundary member count : Nat)
  -- clock regions
  | clockStepChange (cluster : Nat)
  | droopDetect (cluster : Nat)
  | droopWindowEnd (cluster : Nat)
  | marginChange (cluster : Nat) (margin : BitVec 2)
  -- the fabric
  | flitReceive (port : Nat) (header tail : BitVec 64) (burst : Option (BitVec 3)) (payload : List (BitVec 8))
  | linkDown (port : Nat)
  | linkRetrainAttempt (port : Nat)
  | linkRetrainDone (port : Nat) (healthy : Nat)
  | ingressCombine (first second : Nat)
  | remoteRequestServe (req : Nat)
  | remoteTimeout (op lane : Nat)
  | regionRollback (gid lane : Nat)
  | fxcfgWrite (value : Word)
  | jobTableWrite (entry : Nat) (value : Dword)
  -- the host and the debugger
  | hostRmaPut (key : Nat) (off : Nat) (data : List (BitVec 8)) (tag : Nat)
  | hostRmaGet (key : Nat) (off size : Nat) (tag : Nat)
  | hostRmaAtomic (key : Nat) (off : Nat) (fn : Option AtomFn) (w64 : Bool) (value cmp : Dword)
      (tag : Nat)
  | mgmtWrite (off : Nat) (data : List (BitVec 8)) (tag : Nat)
  | dbgHalt (core slot : Nat)
  | dbgResume (core slot : Nat)
  | dbgStep (core slot : Nat)
  | dbgStepAll (core slot : Nat)
  | dbgAttach (core slot : Nat)
  | dbgDetach (core slot : Nat)
  | dbgDiscard (core slot : Nat)
  | freeze (kind index : Nat)
  | thaw (kind index : Nat)
  | freezeTimeout (kind index : Nat)
  -- integrity and security
  | errorReport (unit source : Nat)
  | firmwareImageLoad (version : Nat) (image : List (BitVec 8)) (r s : Nat)
  | mrExtend (n : Nat) (data : List (BitVec 8))
  | attest (nonce : List (BitVec 8))
  | freezePointReached (kind index : Nat)
  | cctlWbComplete (op : Nat)
  | prefFillComplete (op : Nat)
  -- steps without a number, last for the compiler's sake
  | xlinvAll
  | intervalBoundary
  | uePutComplete
  | deviceReset
  deriving DecidableEq, Repr

/-- The engine class of an encoded instruction; none for the machine's own steps (R33, R53). -/
def Instr.cls : Instr → Option Class
  | .mov .. | .iadd .. | .isub .. | .imul .. | .imulhs .. | .imulhn .. | .imad .. | .imin ..
  | .imax .. | .iminn .. | .imaxn .. | .iabs .. | .ineg .. | .andI .. | .orI .. | .xorI ..
  | .andn .. | .shl .. | .shr .. | .sar .. | .rotl .. | .popc .. | .clz .. | .brev .. | .bfx ..
  | .bfi .. | .isel .. | .icmps .. | .icmpn .. | .plog .. | .prd .. | .pwr .. | .iadd64 ..
  | .isub64 .. | .shl64 .. | .shr64 .. | .lea .. | .imulw .. | .iaddw .. | .icmp64 .. | .shfl ..
  | .vote .. | .ballot .. | .elect .. | .cvti .. | .rand .. => some .I
  | .fadd .. | .fsub .. | .fmul .. | .ffma .. | .fmin .. | .fmax .. | .fabs .. | .fneg ..
  | .fcmp .. | .frcp .. | .frsq .. | .fsqrt .. | .fexp2 .. | .flog2 .. | .ftrig .. | .frnd ..
  | .fcvt .. | .fclass .. | .fkey .. | .fscale .. | .dadd .. | .dmul .. | .dfma .. | .dcmp ..
  | .tadd .. | .tsub .. | .tmul .. | .tfma .. | .tcmp .. | .tneg .. | .trcp .. | .trsq .. =>
    some .F
  | .ld .. | .st .. | .lda .. | .stl .. | .ldp .. | .atom .. | .red .. | .redf | .fence ..
  | .waitc .. | .pref .. | .cctl .. | .chcfg .. | .chstat .. => some .M
  | .nop | .bra .. | .brx .. | .call .. | .callx .. | .ret | .fork .. | .endF .. | .spawn ..
  | .rcvg | .bara .. | .barw .. | .bar .. | .cvset .. | .sign .. | .yield | .trap .. | .brkpt
  | .rte | .rdsys .. | .wrsys .. | .clk .. | .mark .. | .cut .. | .graft .. | .sdrop ..
  | .sdropHold .. | .sinfo .. => some .C
  | .mzero .. | .mma .. | .mmac .. | .mload .. | .mstore .. | .mgather .. | .mshape ..
  | .benq .. | .mfence | .mreset .. => some .X
  | .thdl .. | .cpyi .. | .cpyo .. | .cpym .. | .stgpWait .. | .stgpFill .. | .stgc ..
  | .stgr .. | .lease .. | .lfree | .launch .. | .gdec .. | .gcond .. => some .K
  | .beat .. | .rbegin .. | .rcommit | .rabort | .event .. => some .G
  | _ => none

end Sys2Proof
end

