-- ==== Sys2Proof/Machine/State.lean ====
section
/-!
DEFINITION. The state of an FJ-GX2-A, as plain data: fibres, groups, teams, cores, contexts, the
components of the ordering machine (R27), the engines, Crozier, the governor, the fabric and the host's
side; the reasons a step can stop; and the machine right after device reset. INVENTORY.md lists every
piece with the rule that names it. Tables are lists keyed by a number.
-/

namespace Sys2Proof.Machine

open Sys2Proof

/-- Why the machine stops with a fault. -/
inductive Fault where
  /-- Raised by the meaning of an encoded instruction when no packet stands before it. `step` never
  raises it: it executes a word only with its packet. Safe. -/
  | noPacket
  /-- Raised by the meaning of a machine step whose conditions do not hold in the state. `step` never
  raises it: it takes enabled moves only. Safe. -/
  | notEnabled
  deriving DecidableEq, Repr

/-- Why an instruction has no meaning. -/
inductive Refusal where
  /-- Raised by an arm of `exec` for an instruction that the model does not give a meaning. Safe. -/
  | notModelled (mnemonic : String)
  deriving DecidableEq, Repr

/-! ### Fibres (R58, R231) -/

/-- The status codes of R59, in order. -/
inductive FStatus where
  | empty | running | rcvg | barrier | parked | endedSucc | ended | halted
  deriving DecidableEq, Repr

/-- A translation of a global address (R156): where it lies, its home and permissions, the generation
it was made under and the level of its leaf. -/
structure Trans where
  pa : Nat := 0
  gen : BitVec 16 := 0
  home : BitVec 2 := 0
  target : Nat := 0
  r : Bool := false
  w : Bool := false
  x : Bool := false
  u : Bool := false
  level : Nat := 3
  /-- the context whose address it is -/
  asid : Nat := 0
  deriving DecidableEq, Repr

/-- A fault waiting to be recorded: code, EADDR, EINFO without bit 31, and, for a translation fault,
what XLFAULTVA and XLFAULTINFO take (R225, R162). -/
structure FaultRec where
  cause : BitVec 8 := 0
  addr : Dword := 0
  info : Word := 0
  xl : Option (Dword × Dword) := none
  /-- a failure in stage 2: the guest-physical address that its hypervisor is told (R158, R424) -/
  gpa : Option Nat := none
  /-- where the fibre resumes when that is not where it stands: pc, words left, clause (R171, R394) -/
  resume : Option (Addr × BitVec 4 × Word) := none
  deriving DecidableEq, Repr

/-- What a waiting fibre waits for (R87, R193, R194). -/
inductive Wait where
  /-- a team barrier, until its phase bit differs from the fibre's -/
  | barT (b : BitVec 4)
  /-- a grid barrier entry, until its phase bit differs from the fibre's (R89) -/
  | barG (b : BitVec 4)
  /-- a condition monitor: the `WAITC` operation, and whether it holds an entry of the table -/
  | mon (op : Nat) (entry : Bool)
  /-- a stop after `YIELD`, under a drain request (R82) -/
  | atYield
  deriving DecidableEq, Repr

/-- A mark-stack entry (R331). -/
structure Mark where
  depth : Word := 0
  id : BitVec 16 := 0
  /-- The unit holds the mark's id; otherwise its record could not be read, and a search compares the record (log 26). -/
  known : Bool := true
  deriving DecidableEq, Repr

/-- A buffered operation of a remote region (R403): address, and either a store of bytes or an atomic
with its destination. -/
structure RegOp where
  va : Dword := 0
  store : Option (List Byte) := none
  fn : AtomFn := .add
  w64 : Bool := false
  op : Dword := 0
  cmp : Dword := 0
  dst : Option Dst := none
  performed : Bool := false
  deriving DecidableEq, Repr

/-- An open remote region (R402). -/
structure Region where
  resume : Addr := 0
  mid : Bool := false
  clause : Word := 0
  rem : BitVec 4 := 0
  pd : BitVec 6 := 0
  f : BitVec 6 := 0
  n : BitVec 7 := 0
  ckpt : List Word := []
  buf : List RegOp := []
  /-- peers named by a performed load or a buffered operation -/
  peers : BitVec 16 := 0
  /-- operations numbered from here on were issued inside it -/
  since : Nat := 0
  deriving DecidableEq, Repr

/-- A fibre: the state of one lane (R58, R231, R239). -/
structure Fibre where
  status : FStatus := .empty
  pc : Addr := 0
  preds : BitVec 64 := 1
  regs : Vector Word 64 := Vector.replicate 64 0
  /-- first register of its window, in units of 8 (R58) -/
  winBase : BitVec 14 := 0
  sp : Addr := 0
  fp : Addr := 0
  demoted : Bool := false
  /-- lanes that R68 still waits for -/
  demWait : BitVec 32 := 0
  skip : BitVec 5 := 0
  /-- clause context: the header of the current clause (R57) -/
  clause : Word := 0
  /-- words of the clause from the pc to its end; 0 between clauses -/
  rem : BitVec 4 := 0
  /-- outcome of the guard (R35) -/
  active : Bool := false
  succ : Option (Addr × BitVec 7) := none
  rcvg : Addr := 0
  /-- phase bits of team and grid barriers (R87) -/
  phT : BitVec 16 := 0
  phG : BitVec 16 := 0
  poll : Option (Dword × Dword) := none
  mode : Bool := false
  epc : Dword := 0
  estatus : Word := 0
  ecause : Word := 0
  eaddr : Dword := 0
  einfo : Word := 0
  eclause : Word := 0
  esave : Vector Word 4 := Vector.replicate 4 0
  stackLo : Dword := 0
  stackHi : Dword := 0
  marks : List Mark := []
  region : Option Region := none
  rgstat : Word := 0
  wait : Option Wait := none
  /-- faults found after their instruction and not yet taken (R159, R171, R394) -/
  defer : List FaultRec := []
  /-- a remote region to be rolled back at the next packet boundary, with its cause (R404) -/
  rollback : Option (BitVec 3) := none
  /-- the failure event that fails it, by number (R402) -/
  rollNo : Nat := 0
  /-- its commit is in progress (R405) -/
  committing : Bool := false
  deriving DecidableEq, Repr

/-! ### Stores on their way (R205, R206) -/

/-- One store of one lane: its operation, virtual address, translation and bytes. -/
structure StoreRec where
  op : Nat := 0
  lane : Nat := 0
  va : Dword := 0
  tr : Trans := {}
  bytes : List Byte := []
  scratch : Bool := false
  deriving DecidableEq, Repr

/-- A sector entry of a store queue, with the release scope of an `STL` (R206). -/
structure SqEntry where
  stores : List StoreRec := []
  rel : Option Scope := none
  deriving DecidableEq, Repr

/-- A store of the pending set of a core order point (R205). -/
structure CopStore where
  seq : Nat := 0
  gid : Nat := 0
  tid : Nat := 0
  asid : Nat := 0
  rec_ : StoreRec := {}
  policy : Policy := .normal
  /-- rejected at its check point; its generation retry is open (R159, R212) -/
  rejected : Bool := false
  /-- a store to a peer that has left for it (R223) -/
  sent : Bool := false
  deriving DecidableEq, Repr

/-! ### Groups (R10, R239) -/

/-- A group: 32 lanes and what they share. -/
structure Group where
  gid : Nat := 0
  tid : Nat := 0
  core : Nat := 0
  sched : Nat := 0
  slot : Nat := 0
  /-- team-relative group number and role (R11) -/
  num : Nat := 0
  consumer : Bool := true
  window : Nat := 16
  lanes : Vector Fibre 32 := Vector.replicate 32 {}
  scal : Vector Word 32 := Vector.replicate 32 0
  flags : Vector (BitVec 6) 12 := Vector.replicate 12 0
  fpctl : Word := 0
  cbase : Word := 0
  backoff : BitVec 3 := 0
  sq : List SqEntry := []
  amark : BitVec 16 := 0
  homeSched : Nat := 0
  /-- packets of `RED` since the team's last flush (R187) -/
  redCount : Nat := 0
  xlVa : Dword := 0
  xlInfo : Dword := 0
  rgfail : Word := 0
  /-- order of placement (R62) -/
  age : Nat := 0
  halted : Bool := false
  /-- sectors that a `MARK` or `GRAFT` has still to enter into the store queue (R206) -/
  entering : List SqEntry := []
  /-- the first store discarded since the last report (R394) -/
  lostStore : Option Dword := none
  /-- packets that the debugger's step still has to issue, as lanes (R91) -/
  steps : List (BitVec 32) := []
  /-- failure events that RGFAIL has counted (R402) -/
  rgEvents : List Nat := []
  deriving DecidableEq, Repr

/-! ### Teams (R10) -/

/-- A team barrier (R87). -/
structure Bar where
  c : Nat := 0
  expected : Nat := 0
  phase : BitVec 16 := 0
  deriving DecidableEq, Repr

/-- A tile handle: its descriptor and its valid mark (R265, R266). -/
structure Handle where
  desc : Quad := 0
  valid : Bool := false
  deriving DecidableEq, Repr

/-- A slot of a stage: the sequence it serves and whether it is full (R280). -/
structure StageSlot where
  n : Word := 0
  full : Bool := false
  deriving DecidableEq, Repr

/-- A stage (R280). -/
structure Stage where
  cfg : Word := 0
  arr : Word := 0
  slots : List StageSlot := []
  deriving DecidableEq, Repr

/-- A matrix operation as captured or issued: its instruction, its group, the flags of its clause and its
resolved operands (R85, R292). -/
structure MxReq where
  instr : Instr := .nop
  gid : Nat := 0
  flags : List Nat := []
  /-- operand values in the order of R46 -/
  ops : List Dword := []
  /-- MXSHAPE at issue (R293) -/
  shape : Dword := 0
  /-- the header of the index list of `MGATHER` (R310) -/
  list : Word := 0
  /-- the number of a handle-fed quad operation in its team (R313) -/
  num : BitVec 16 := 0
  started : Bool := false
  /-- its next K-step (R318) -/
  next : Nat := 0
  /-- a raised copy that was refused or failed: its cause and address (R307) -/
  failed : Option (BitVec 3 × Dword) := none
  deriving DecidableEq, Repr

/-- Directions of a copy: into the team's scratchpad, out of it, into several teams (R270, R272, R274). -/
inductive CopyDir where
  | expand | compress | mcast
  deriving DecidableEq, Repr

/-- A copy with what it read at issue (R267). -/
structure CopyReq where
  dir : CopyDir := .expand
  plain : Bool := true
  /-- it runs on the team's leased bulk engine (R288) -/
  bulk : Bool := false
  tf : Bool := false
  /-- seed and stream of stochastic rounding (R264) -/
  sr : Option (Word × Word) := none
  off : Nat := 0
  i0 : Nat := 0
  j0 : Nat := 0
  status : Option Nat := none
  stage : Option (BitVec 3 × Word) := none
  am : Option (Scope × Dword) := none
  quad : Bool := false
  mask : BitVec 8 := 0
  desc : Quad := 0
  fm : Word := 0
  /-- lines and elements a line -/
  l : Nat := 0
  k : Nat := 0
  refused : Bool := false
  started : Bool := false
  /-- sectors of its window moved so far, the bytes read of each line, and the failure that has ended it (R278) -/
  pos : Nat := 0
  got : List (List Byte) := []
  fail : Option (BitVec 3 × Nat) := none
  /-- target teams of a multicast with their bits, and the members skipped (R275) -/
  targets : List (Nat × Nat) := []
  skipped : BitVec 8 := 0
  /-- the matrix operation it was raised for, and whether it brings operand A (R307, R313) -/
  feeds : Option (Nat × Bool) := none
  deriving DecidableEq, Repr

/-- A convergence register (R83). -/
structure Conv where
  n : Nat := 0
  c : Nat := 0
  captured : Option MxReq := none
  deriving DecidableEq, Repr

/-- What a team is doing (R25, R82, R240). -/
inductive TeamPhase where
  | starting | running | saving | saved | ended
  deriving DecidableEq, Repr

/-- The facts of a team's launch (R357, R365). -/
structure Launch where
  /-- graph instance and node of the launch, and the die whose Crozier owns it -/
  inst : Nat := 0
  node : Nat := 0
  die : Nat := 0
  entry : Addr := 0
  gp : Nat := 0
  gc : Nat := 1
  winP : Nat := 16
  winC : Nat := 16
  granules : Nat := 0
  subtiles : Nat := 0
  factor4 : Bool := false
  stack : Nat := 0
  stackUnits : Nat := 1
  dur : Nat := 0
  yint : Nat := 0
  restartable : Bool := false
  gang : Nat := 1
  gangPos : Nat := 0
  saveBase : Nat := 0
  saveSz : Nat := 0
  params : Dword := 0
  privileged : Bool := false
  deriving DecidableEq, Repr

/-- A channel (R198): owner, width, depth, base, elements held, and the slot of the oldest in the
buffer, which lies in the owner's scratchpad. -/
structure Channel where
  owner : Nat := 0
  w64 : Bool := false
  depth : Nat := 1
  base : Nat := 0
  count : Nat := 0
  head : Nat := 0
  deriving DecidableEq, Repr

/-- An entry of an atomic buffer (R186). -/
structure RedEntry where
  sched : Nat := 0
  gid : Nat := 0
  /-- the group's team, home scheduler and number, which order the drain (R187) -/
  tid : Nat := 0
  home : Nat := 0
  num : Nat := 0
  va : Dword := 0
  fn : AtomFn := .add
  w64 : Bool := false
  scope : Scope := .device
  value : Dword := 0
  tr : Trans := {}
  /-- the number that the next operation had when its last `RED` issued (R65, R211) -/
  id : Nat := 0
  /-- being drained by a flush, and the flush's number -/
  draining : Bool := false
  flush : Nat := 0
  /-- the request that carries it to a peer -/
  sent : Option Nat := none
  /-- its packet ran in privileged mode (R156) -/
  privileged : Bool := false
  deriving DecidableEq, Repr

/-- A team. -/
structure Team where
  tid : Nat := 0
  asid : Nat := 0
  core : Nat := 0
  phase : TeamPhase := .running
  launch : Launch := {}
  /-- identity (R231) -/
  teamNo : Nat := 0
  nteams : Nat := 1
  gridId : Word := 0
  sclass : Nat := 3
  gridBar : Dword := 0
  tvec : Dword := 0
  dbgctl : Word := 0
  preempt : Word := 0
  rederr : Word := 0
  /-- scratchpad bytes, canonical; an unlisted offset reads 0 -/
  scratch : List Host.Cell := []
  scrSize : Nat := 0
  nsub : Nat := 0
  /-- accumulator sub-tiles that have been written, by name; an unlisted one holds zeros -/
  subs : List (Nat × List Word) := []
  cv : Vector Conv 16 := Vector.replicate 16 {}
  bars : Vector Bar 16 := Vector.replicate 16 {}
  th : Vector Handle 32 := Vector.replicate 32 {}
  fm : Vector Word 8 := Vector.replicate 8 0
  stages : Vector Stage 8 := Vector.replicate 8 {}
  cperr : Word := 0
  cperrva : Dword := 0
  /-- the leased bulk engine and when its period ends (R287) -/
  lease : Option (Nat × Nat) := none
  /-- the lease has ended and its engine's copies still run (R287) -/
  leaseEnding : Bool := false
  mxshape : Dword := 0x1800000000000020
  mxstat : Word := 0
  mxerr : Word := 0
  qseq : Dword := 0
  lost : Bool := false
  /-- it was saved while marked lost (R320) -/
  lostNow : Bool := false
  fxerr : Word := 0
  /-- a drain requested by Crozier (R82) -/
  drain : Bool := false
  /-- the node that pre-empts it, with its context (R367) -/
  victimOf : Option (Nat × Nat) := none
  /-- its save ends in a flush (R240) -/
  flushing : Bool := false
  /-- what it keeps while it is saved has changed, and its save area does not hold that yet (R25) -/
  unsynced : Bool := false
  /-- the count of its region's cycles at which the team may start (R365), and when it started (R368) -/
  startAt : Nat := 0
  started : Nat := 0
  /-- placement order of teams (R367) -/
  age : Nat := 0
  /-- of a saved team: its groups and its entries of the atomic buffers (R25, R239) -/
  parked : List Group := []
  parkedReds : List RedEntry := []
  /-- of a saved team: its channels (R203) -/
  parkedChans : List (Nat × Channel) := []
  deriving DecidableEq, Repr

/-! ### Cores (R2, R27) -/

/-- An entry of a range-lock table (R216). -/
structure Rlt where
  entry : Nat := 0
  dest : Bool := false
  /-- `none` for scratchpad of a team, `some asid` for global -/
  asid : Option Nat := none
  tid : Nat := 0
  lo : Nat := 0
  hi : Nat := 0
  op : Nat := 0
  deriving DecidableEq, Repr

/-- A TLB entry (R158): ASID, first byte of the page, its size and its translation. -/
structure TlbEntry where
  asid : Nat := 0
  page : Nat := 0
  big : Bool := false
  tr : Trans := {}
  deriving DecidableEq, Repr

/-- A walk in progress (R156, R157), whether an invalidation passed it (R161), and when it re-reads a
migrating leaf. -/
structure Walk where
  id : Nat := 0
  asid : Nat := 0
  va : Nat := 0
  /-- the group whose packet it is for -/
  gid : Nat := 0
  stale : Bool := false
  reread : Option Nat := none
  deriving DecidableEq, Repr

/-- The outcome of a walk that failed, kept until its packet issues again (R156). -/
structure WalkFail where
  asid : Nat := 0
  page : Nat := 0
  level : Nat := 0
  s2 : Bool := false
  cause : Nat := 0
  /-- of a failure in stage 2: the guest-physical address -/
  gpa : Nat := 0
  /-- an entry could not be read for an uncorrectable error (R29) -/
  data : Bool := false
  deriving DecidableEq, Repr

/-- A sector of an L1 data cache: physical sector number, epoch stamp and bytes (R210). -/
structure L1Sector where
  sector : Nat := 0
  stamp : BitVec 16 := 0
  bytes : List Byte := []
  deriving DecidableEq, Repr

/-- A packet: some fibres of one group that stand at one pc (R63). -/
structure Packet where
  gid : Nat := 0
  lanes : BitVec 32 := 0
  deriving DecidableEq, Repr

/-- A scheduler: where it stands in its cycle, and the packets that hold its two fetch ports (R63,
R64). Phase 0 ends a cycle and votes; phases 1 and 2 execute a word of port 1 and of port 2. -/
structure Sched where
  phase : Nat := 0
  port1 : Option Packet := none
  port2 : Option Packet := none
  deriving DecidableEq, Repr

/-- A batch plan of a batch-forming queue and a queued row (R314, R315). -/
structure BqRow where
  gid : Nat := 0
  op : Nat := 0
  row : Dword := 0
  res : Dword := 0
  since : Nat := 0
  /-- the row's number; its results once they are computed, and how many sectors of them are written -/
  rid : Nat := 0
  out : Option (List Byte) := none
  pos : Nat := 0
  deriving DecidableEq, Repr

/-- A range of an operation that registers none: a row or the results of a `BENQ`, the weights of a batch, an operand of
a copy node (R221, R315, R358): the operation whose end forgets it, and the number under which a store to it is noted. -/
structure Unlocked where
  owner : Nat := 0
  id : Nat := 0
  dest : Bool := false
  asid : Nat := 0
  lo : Nat := 0
  hi : Nat := 0
  deriving DecidableEq, Repr

/-- A fibre core with its engines' tables. Only cores that differ from a fresh one are listed. -/
structure Core where
  cid : Nat := 0
  chans : List (Nat × Channel) := []
  reds : List RedEntry := []
  rlt : List Rlt := []
  cop : List CopStore := []
  copSeq : Nat := 0
  epoch : BitVec 16 := 0
  /-- L1 data cache: 512 sectors, newest first (R2, R153) -/
  l1 : List L1Sector := []
  /-- constant cache: context, 128-byte sector of constant space and its bytes; 128 sectors, newest first (R2, R152) -/
  ccache : List ((Nat × Nat) × List Byte) := []
  /-- instruction cache: context, virtual sector and its bytes; 512 sectors, newest first (R2, R197) -/
  icache : List ((Nat × Nat) × List Byte) := []
  tlb : List TlbEntry := []
  walks : List Walk := []
  fails : List WalkFail := []
  scheds : Vector Sched 4 := Vector.replicate 4 {}
  /-- beat accumulators, by context (R375) -/
  beats : List (Nat × Nat) := []
  cpwin : Dword := 0
  cpwinb : Dword := 0
  /-- the pages of its window with the frames that were loaded; `none` where no leaf named one (R163) -/
  pins : List (Nat × Option Nat) := []
  /-- the batch-forming queue of core 0 of a cluster (R314, R321) -/
  bqctl : Word := 0
  bqplan : Dword := 0
  /-- the plan block as it was read when the queue was enabled (R314) -/
  bqblock : Quad := 0
  bqstat : Word := 0
  bqasid : Nat := 0
  bqrows : List BqRow := []
  deriving DecidableEq, Repr

/-! ### Operations in flight (R38, R39, OT of R169) -/

/-- One lane's access of a load or an atomic. -/
structure Access where
  lane : Nat := 0
  va : Dword := 0
  tr : Trans := {}
  /-- atomic operand and compare value, `WAITC`'s value, the address behind a constant offset -/
  op : Dword := 0
  cmp : Dword := 0
  /-- returned to its core for a stale generation; its retry is open (R159) -/
  rejected : Bool := false
  /-- a load that a peer has been asked for (R393) -/
  asked : Bool := false
  /-- the bytes it has read, until those of its whole packet have come (R81, log 26) -/
  got : Option (List Byte) := none
  deriving DecidableEq, Repr

/-- Kinds of operation in flight. -/
inductive OpKind where
  /-- a load: size, sign extension, policy, acquire scope of `LDA`, and for `LDP` whether a fibre has seen
  a changed value -/
  | load (size : Size) (sx : Bool) (pol : Policy) (acq : Option Scope) (poll : Option Bool)
  /-- a constant load -/
  | constLoad (size : Size) (sx : Bool)
  /-- a scratchpad load -/
  | scratchLoad (size : Size) (sx : Bool)
  /-- a store, complete when none of its stores is on its way -/
  | store (pol : Policy) (rel : Option Scope)
  /-- an atomic -/
  | atom (fn : AtomFn) (ord : Order) (scope : Scope) (w64 : Bool)
  /-- the drain of the team's buffered reductions (R188) -/
  | redf
  /-- a fence (R191) -/
  | fence (k : FenceKind) (scope : Scope)
  /-- a condition monitor: condition, scope, size; each access holds when its fibre times out, 0 for
  never (R193) -/
  | waitc (cc : WaitCc) (scope : Scope) (w64 : Bool)
  /-- the pop of `RET` (R81) -/
  | ret
  /-- a grid-scope arrival, and whether its fibres wait after it (R89) -/
  | barGrid (b : BitVec 4) (wait : Bool) (count : Nat)
  /-- a prefetch of sectors (R196) -/
  | pref (pol : Policy)
  /-- a write-back of a line at its home (R197) -/
  | wb (line : Nat)
  /-- a frame-slice operation that still enters stack sectors (R206, R344) -/
  | slice
  /-- a graph or event instruction in Crozier's queue, or `GDEC` at its home (R8, R361, R407) -/
  | graph (i : Instr)
  /-- a copy (R267) -/
  | copy (c : CopyReq)
  /-- a stage wait (R282) -/
  | stageWait (i : Instr) (seq : Word)
  /-- a matrix operation (R292) -/
  | matrix (q : MxReq)
  /-- a row of the batch-forming queue, reported when its batch completes (R315) -/
  | benq
  /-- a batch of the batch-forming queue (R315) -/
  | batch (rows : List BqRow) (started : Bool)
  /-- a region commit (R405): the index of the operation in hand -/
  | commit (k : Nat)
  /-- a host event record put (R407) -/
  | event (put : Nat)
  deriving DecidableEq, Repr

/-- An operation in flight: who issued it, which lanes it has not completed, the flags it counts
against, the registers and predicates it will write, and whether it holds its fibres. Its number is its
place in the issue order (R65). -/
structure Op where
  id : Nat := 0
  core : Nat := 0
  gid : Nat := 0
  tid : Nat := 0
  asid : Nat := 0
  /-- lanes it was issued for, and those it has not completed -/
  mask : BitVec 32 := 0
  lanes : BitVec 32 := 0
  flags : List Nat := []
  dst : Option (Dst × Nat) := none
  preds : List (BitVec 6) := []
  /-- the lane whose value a scalar destination takes (R44) -/
  lead : Nat := 0
  holds : Bool := false
  accs : List Access := []
  /-- where the instruction's first word stands: address, words left, clause (R159) -/
  pc : Addr := 0
  rem : BitVec 4 := 0
  clause : Word := 0
  /-- words of the instruction -/
  len : Nat := 1
  words : List Word := []
  /-- lanes that have issued no word since (R159) -/
  still : BitVec 32 := 0
  /-- its packet ran in user mode, and which of its fibres did (R224) -/
  user : Bool := false
  users : BitVec 32 := 0
  /-- a debugger's step issued it (R91) -/
  stepped : Bool := false
  /-- when it issued -/
  since : Nat := 0
  kind : OpKind := .redf
  deriving DecidableEq, Repr

/-! ### Requests at the homes (R181-R184) -/

/-- Who waits for a reply: a lane set of an operation with the operands in lane order, a drained `RED`
entry of a team, an engine, the fibres of a commit, or a peer. -/
inductive ReqFrom where
  | lanes (op : Nat) (ls : List (Nat × Dword))
  | red (tid : Nat) (core : Nat)
  | engine
  | commit (op : Nat) (k : Nat) (ls : List (Nat × Dword))
  /-- a request that arrived from a peer, by its identity, and the input of the crossbar it came by -/
  | remote (id input : Nat)
  deriving DecidableEq, Repr

/-- One requester's request: its originator, its sum, and its core. -/
structure ReqPart where
  frm : ReqFrom := .engine
  tid : Nat := 0
  sum : Dword := 0
  core : Nat := 0
  deriving DecidableEq, Repr

/-- A request as it travels: one requester's, or two joined at a port, whose Sorus table holds a decombining
record of them (R181, R182). -/
inductive ReqTree where
  | part (p : ReqPart)
  | join (port : Nat) (first second : ReqTree)
  deriving DecidableEq, Repr

/-- An atomic request on its way to its home, or rejected and returned (R159, R181). -/
structure Req where
  id : Nat := 0
  asid : Nat := 0
  va : Dword := 0
  tr : Trans := {}
  fn : AtomFn := .add
  w64 : Bool := false
  /-- operand (of an addition, the sum) and compare value -/
  op : Dword := 0
  cmp : Dword := 0
  tree : ReqTree := .part {}
  rejected : Bool := false
  /-- the router queues it has reached; the port in whose queue it waits (on-die ports are even, inputs of the ingress
  crossbar odd), when it reached it, and through which input port (R181, R182, R398) -/
  hops : Nat := 0
  port : Nat := 0
  arrived : Nat := 0
  input : Nat := 0
  deriving DecidableEq, Repr

/-- A reply on its way back (R182): the old value for the requesters still joined in it. -/
structure Reply where
  id : Nat := 0
  req : Nat := 0
  line : Nat := 0
  w64 : Bool := false
  old : Dword := 0
  tree : ReqTree := .part {}
  /-- the old value was lost (R184) -/
  lost : Bool := false
  fault : Option FaultRec := none
  deriving DecidableEq, Repr

/-- An entry of a home slice's reply echo (R184). -/
structure Echo where
  req : Nat := 0
  old : Dword := 0
  until_ : Nat := 0
  slice : Nat := 0
  deriving DecidableEq, Repr

/-- A monitor entry (R193): the physical word, and the group under it. -/
structure Monitor where
  pa : Nat := 0
  slice : Nat := 0
  gid : Nat := 0
  /-- the lanes' grid barrier, when the entry watches a phase field -/
  bar : Option (BitVec 4) := none
  deriving DecidableEq, Repr

/-- A line of an L2 slice (R153): its valid and dirty sectors, whether it lies in a pin way (R154), and its place
among the victims of its set: 0 the next, 2 the last (R173). -/
structure L2Line where
  slice : Nat := 0
  line : Nat := 0
  valid : BitVec 2 := 0
  dirty : BitVec 2 := 0
  pinned : Bool := false
  rank : Nat := 1
  /-- the context whose fill allocated it (R23) -/
  asid : Nat := 0
  deriving DecidableEq, Repr

/-- A line's counter of remote touches (R155). -/
structure Touch where
  line : Nat := 0
  count : BitVec 2 := 0
  cluster : Nat := 0
  /-- the cluster that holds the line -/
  holder : Nat := 0
  moving : Bool := false
  deriving DecidableEq, Repr

/-! ### Contexts (R21) -/

/-- A governor loop's state (R378). -/
structure Gov where
  ctl : Word := 0x00020000
  target : Word := 0
  gain : Word := 0
  imax : Word := 0x7FFFFFFF
  integ : Word := 0
  meas : Word := 0
  order : Word := 0x00054688
  stat : Word := 0
  pos : Vector Word 5 := #v[1, 1, 1, 1, 0]
  bnd : Vector Word 5 := #v[0x00400001, 0x01000001, 0x00100001, 0x00400001, 0x00090000]
  /-- grants of the last allocation, once one has included the context -/
  grant : Vector Word 5 := Vector.replicate 5 0
  granted : Bool := false
  res : Vector Word 5 := Vector.replicate 5 0
  count : Dword := 0
  save : Dword := 0
  first : Bool := true
  /-- what it was shed to, of each resource, and may hold since (R24, R385) -/
  owed : Vector (Option Word) 5 := Vector.replicate 5 none
  deriving DecidableEq, Repr

/-- A context: one address space (R21, R162, R347, R409, R422). -/
structure Ctx where
  asid : Nat := 0
  gen : BitVec 16 := 0
  /-- a generation bump is in progress (R160) -/
  bump : Bool := false
  inv : Bool := false
  xlroot : Dword := 0
  xls2root : Dword := 0
  cbank : Vector Dword 16 := Vector.replicate 16 0
  slheap : Dword := 0
  slheapcfg : Word := 0
  gov : Gov := {}
  fxjob : Word := 0
  fxwin : Dword := 0
  fxwinsz : Dword := 0
  cls : Nat := 3
  home : Nat := 0
  tvec : Dword := 0
  privileged : Bool := false
  partition : Nat := 0
  /-- registered code regions: their bases (R31) -/
  regions : List Nat := []
  /-- grid nodes started (R231 GRIDID) -/
  grids : Nat := 0
  removed : Bool := false
  /-- it had a resident team, and a queued node, in the present interval (R377, R383) -/
  seen : Bool := false
  queued : Bool := false
  deriving DecidableEq, Repr

/-- An interval that has ended, as the cores handed it over (R376): its number, when it ended, the beats by context, the
contexts with a resident team and with a queued node in it (R377, R383), whether it was the first of its length (R380),
and whether the governor has taken its counts. -/
structure GvInterval where
  bound : Nat
  at_ : Nat
  beats : List (Nat × Nat) := []
  seen : List Nat := []
  queued : List Nat := []
  first : Bool := false
  taken : Bool := false
  deriving DecidableEq, Repr

/-! ### Clock regions (R3, R237, R430) -/

/-- A cluster's clock region and its registers. -/
structure Cluster where
  num : Nat := 0
  step : Nat := 0
  /-- the step being changed to, and the time at which the change ends -/
  change : Option (Nat × Nat) := none
  cycles : Nat := 0
  /-- tenths of an edge since the last one (R3) -/
  tenths : Nat := 0
  stretch : Nat := 0
  droopWin : Nat := 0
  margin : BitVec 2 := 0b10
  mgcap : Nat := 6
  droopth : Word := 40
  droopcnt : Word := 0
  errwin : Vector Word 4 := Vector.replicate 4 1000000
  errthr : Vector Word 4 := Vector.replicate 4 16
  errcnt : Vector Word 4 := Vector.replicate 4 0
  errSince : Vector Nat 4 := Vector.replicate 4 0
  /-- droops of the present interval, and the cap that those of the last one put (R429) -/
  droops : Nat := 0
  droopCap : Option Nat := none
  pinWays : Nat := 0
  /-- fills of pinned lines that found no free pin way (R154) -/
  pinOvf : Nat := 0
  deriving DecidableEq, Repr

/-! ### Crozier (R351-R373) -/

/-- A graph arena of a Crozier block (R373). -/
structure Arena where
  base : Dword := 0
  size : Dword := 0
  pool : Dword := 0
  own : Word := 0
  taken : List Nat := []
  deriving DecidableEq, Repr

/-- A ready grid node in its class queue (R19, R364): its record as it was read, since when it is ready
and since when it stands at its queue's head. -/
structure Ready where
  node : Nat := 0
  asid : Nat := 0
  body : List Byte := []
  cls : Nat := 0
  since : Nat := 0
  head : Option Nat := none
  blocking : Bool := false
  deriving DecidableEq, Repr

/-- A node that runs, or a copy node that waits for an engine (R353, R358). -/
structure Running where
  node : Nat := 0
  inst : Nat := 0
  asid : Nat := 0
  body : List Byte := []
  kind : Nat := 0
  cls : Nat := 0
  /-- grids: teams still to be placed, the cluster and the count of its region at which the last one begins, GRIDID, and PREEMPT of flushed teams -/
  todo : List Nat := []
  lastStart : Nat × Nat := (0, 0)
  /-- grids: the argument and the node count of the instance, read as the node starts (R353, R357) -/
  arg : Dword := 0
  nodes : Nat := 0
  gridId : Word := 0
  carry : List (Nat × Word) := []
  /-- a team of it was discarded (R420) -/
  failed : Bool := false
  /-- copies: their bulk engine; events: the put awaited -/
  engine : Option Nat := none
  put : Option Nat := none
  /-- copies: their number, the sectors read so far, the read or write that failed, the sectors written so far -/
  cid : Nat := 0
  got : List (List Byte) := []
  fail : Option (BitVec 3 × Nat) := none
  wpos : Nat := 0
  deriving DecidableEq, Repr

/-- A notice on its way to a Crozier (R16). -/
structure Notice where
  die : Nat := 0
  asid : Nat := 0
  node : Nat := 0
  deriving DecidableEq, Repr

/-- What Crozier enters into a graph instance's record (R354, R356): an error with its event, an event, a node that
becomes active, one that is active no more; and what it has still to judge (R16). -/
inductive Due where
  | error (asid inst node code : Nat) (payload : Dword)
  | event (asid inst node code : Nat) (payload : Dword)
  | up (asid inst : Nat)
  | down (asid inst : Nat) (quiet : Bool)
  /-- additions to a word of an arena, still to be judged: the old value and the operands in serial order (R16) -/
  | judge (die asid va : Nat) (old : Word) (ops : List Word)
  /-- a record for an interrupt log of a hypervisor (R423): its context, base and size -/
  | log (asid base size : Nat) (record : List Byte)
  deriving DecidableEq, Repr

/-- A die's Crozier. -/
structure Croz where
  die : Nat := 0
  arenas : Vector Arena 16 := Vector.replicate 16 {}
  prlat : Vector Word 4 := #v[20, 100, 1000, 10000]
  savebw : Word := 128000
  block : Word := 1000
  ready : List Ready := []
  running : List Running := []
  deriving DecidableEq, Repr

/-! ### Fabric (R392-R410) -/

/-- A link of a port (R396). -/
structure Link where
  up : Bool := false
  lanes : Nat := 0
  healthy : Nat := 8
  replays : Nat := 0
  corr : Nat := 0
  /-- sequence number expected next -/
  expect : BitVec 12 := 0
  /-- replays of the flit in hand without clean receipt -/
  tries : Nat := 0
  lastRx : Nat := 0
  downAt : Nat := 0
  retrain : Option Nat := none
  /-- when its last error was counted -/
  since : Nat := 0
  /-- the sequence number of the next flit it sends, and its replay buffer: the last 256 sent, newest first -/
  next : BitVec 12 := 0
  replay : List (List Byte) := []
  deriving DecidableEq, Repr

/-- What a remote request asks at a peer's home (R393). -/
inductive RemoteKind where
  | load (size : Nat)
  | store (bytes : List Byte)
  | atom (fn : AtomFn) (w64 : Bool) (op cmp : Dword)
  deriving DecidableEq, Repr

/-- A request between devices, with its identity (R406). -/
structure Remote where
  id : Nat := 0
  peer : Nat := 0
  job : Nat := 0
  off : Nat := 0
  kind : RemoteKind := .load 4
  /-- the relay a detoured request takes (R397) -/
  via : Option Nat := none
  /-- a commit operation, recorded at the peer (R406) -/
  commit : Bool := false
  /-- the identities of commit additions that it carries, with their operands in serial order (R399, R406) -/
  ids : List (Nat × Dword) := []
  /-- it has been sent again, with its original identity (R400) -/
  resent : Bool := false
  sent : Nat := 0
  /-- which operation and lane waits for it, the port it came in by and when (R182) -/
  op : Nat := 0
  lane : Nat := 0
  input : Nat := 0
  arrived : Nat := 0
  /-- core sequence number of the store it carries -/
  seq : Option Nat := none
  /-- the requesters of an atomic -/
  tree : Option ReqTree := none
  /-- the requester ran in privileged mode -/
  privileged : Bool := false
  deriving DecidableEq, Repr

/-- A reply of a peer: the value or the cause of its failure. -/
structure RemoteReply where
  id : Nat := 0
  /-- the operation and lane that wait for it, and the core sequence number of a store -/
  op : Nat := 0
  lane : Nat := 0
  seq : Option Nat := none
  value : List Byte := []
  cause : Option (BitVec 8) := none
  /-- of a failed walk at the peer: the level, whether it failed in stage 2, and the cause as XLFAULTINFO has it
  (R164, R393) -/
  level : Nat := 0
  s2 : Bool := false
  why : Nat := 0
  deriving DecidableEq, Repr

/-- A beat flit (R408): job, boundary, sending member, count, and the member it is for. -/
structure BeatFlit where
  job : Nat := 0
  boundary : Nat := 0
  member : Nat := 0
  count : Nat := 0
  dest : Nat := 0
  deriving DecidableEq, Repr

/-- The fabric unit (R392, R396, R409, R421). -/
structure Fabric where
  fxdev : Word := 0
  fxrto : Word := 50
  links : Vector Link 15 := Vector.replicate 15 {}
  jobs : Vector Dword 64 := Vector.replicate 64 0
  /-- requests sent and not answered, in order of issue -/
  out : List Remote := []
  /-- requests that arrived and wait at the ingress crossbar -/
  ins : List Remote := []
  replies : List RemoteReply := []
  /-- replies sent to peers -/
  sent : List RemoteReply := []
  /-- commit operations performed for peers, with the reply and how long it is kept (R406) -/
  records : List (Nat × RemoteReply × Nat) := []
  /-- counts of fabric jobs received for a boundary: job, boundary, member, count (R387) -/
  counts : List (Nat × Nat × Nat × Nat) := []
  /-- beat flits sent at a boundary -/
  beatsOut : List BeatFlit := []
  /-- links between other devices that are reported up, from and to, with the credits outstanding on them (R395, R397) -/
  far : List (Nat × Nat × Nat) := []
  deriving DecidableEq, Repr

/-! ### Host attachment and integrity (R415-R433) -/

/-- A put to the host that the Ultra Ethernet target has not reported complete (R407). -/
structure Put where
  id : Nat := 0
  /-- ring address and slot, the endpoint of the ring, and where in its memory the record and the index word after it
  go (R419) -/
  ring : Dword := 0
  slot : Nat := 0
  endpoint : Nat := 0
  recordAt : Nat := 0
  indexAt : Nat := 0
  data : List Byte := []
  index : Word := 0
  deriving DecidableEq, Repr

/-- The registers of a link lane or a DRAM stack in the error block (R428, R430). -/
structure ErrSrc where
  win : Word := 1000000
  thr : Word := 16
  cnt : Word := 0
  since : Nat := 0
  deriving DecidableEq, Repr

/-- A unit under freeze control (R425). -/
structure Freeze where
  kind : Nat := 0
  index : Nat := 0
  /-- when the freeze was asked for and whether its point has been reached -/
  since : Nat := 0
  reached : Bool := false
  /-- what the unit's aperture presented when the point was reached (R426) -/
  image : List Byte := []
  deriving DecidableEq, Repr

/-- What the machine has sent to the host: answers to RMA, with their tags. -/
structure Answer where
  tag : Nat := 0
  ok : Bool := true
  data : List Byte := []
  deriving DecidableEq, Repr

/-- The host's side. -/
structure HostSide where
  /-- the tables of the management window as bytes by offset: memory windows, host endpoints, device
  event ring registers, partitions, contexts (R416, R418, R419, R422) -/
  mgmt : List Host.Cell := []
  uedrop : Word := 0
  /-- event records written to the device event ring (R419) -/
  evSeq : Word := 0
  frzmax : Word := 1000
  frzst : Dword := 0
  frozen : List Freeze := []
  /-- sources of the error block, by number; an unlisted one is at reset -/
  errs : List (Nat × ErrSrc) := []
  dbgst : Word := 0
  dbgpc : Dword := 0
  puts : List Put := []
  answers : List Answer := []
  deriving DecidableEq, Repr

/-- Security state (R431-R433). -/
structure Security where
  fwVersion : Nat := 0
  /-- the image in force, and the one accepted for the next reset with its version (R431) -/
  image : List Byte := []
  pending : Option (Nat × List Byte) := none
  /-- the boot ROM has run since the reset (R432) -/
  booted : Bool := false
  counter : Nat := 0
  mr : Vector (List Byte) 8 := Vector.replicate 8 (List.replicate 64 0)
  report : List Byte := []
  signs : Nat := 0
  deriving DecidableEq, Repr

/-! ### The device -/

/-- The packet whose word is executed: its scheduler and port. -/
structure Cur where
  core : Nat := 0
  sched : Nat := 0
  port2 : Bool := false
  pk : Packet := {}
  deriving DecidableEq, Repr

/-- The machine. -/
structure State where
  /-- the reference timebase, ns since device reset (R236) -/
  now : Nat := 0
  /-- the model's own: free values drawn so far -/
  tick : Nat := 0
  /-- the model's own: numbers given to operations, requests, walks and records -/
  serial : Nat := 0
  /-- the model's own: outside events not yet delivered, oldest first -/
  inputs : List Instr := []
  /-- physical memory, canonical: addresses rising, no entry 0; an unlisted byte reads 0 -/
  mem : List Host.Cell := []
  /-- the model's own: the packet whose word is executed -/
  cur : Option Cur := none
  groups : List Group := []
  teams : List Team := []
  cores : List Core := []
  ctxs : List Ctx := []
  clusters : List Cluster := []
  crozs : List Croz := []
  ops : List Op := []
  reqs : List Req := []
  replies : List Reply := []
  echoes : List Echo := []
  monitors : List Monitor := []
  notices : List Notice := []
  /-- Crozier's entries into instance records that wait for a migrating page (R157) -/
  due : List Due := []
  /-- lines of the L2 slices, newest first (R153) -/
  l2 : List L2Line := []
  touches : List Touch := []
  /-- sectors that hold an uncorrectable error (R29) -/
  bad : List Nat := []
  /-- sectors of a registered range of an engine operation that another core has stored to: the operation, whether
  the range is a destination, the virtual sector (R221) -/
  disturbed : List (Nat × Bool × Nat) := []
  /-- stage-2 failures of Crozier's accesses that the hypervisor's log has taken: context, generation, guest-physical
  address (R158, R424) -/
  told : List (Nat × Nat × Nat) := []
  /-- ranges of operations that register none -/
  unlocked : List Unlocked := []
  /-- shared TLBs, by die (R158) -/
  stlb : List (Nat × TlbEntry) := []
  /-- governor: interval length in force and next, last boundary, boundaries so far, the lengths (R376) -/
  gvintlen : Word := 128
  gvintNext : Word := 128
  gvLast : Nat := 0
  gvBound : Nat := 0
  gvFirst : Bool := false
  /-- intervals handed over whose laws have not run: they wait for counts of fabric jobs (R387), or for a thaw (R425) -/
  gvTaken : List GvInterval := []
  fabric : Fabric := {}
  host : HostSide := {}
  sec : Security := {}
  deriving DecidableEq, Repr

/-- The machine right after device reset: every field at the value that the manual states, or, where it states
none, that log 4 names; nothing is listed in memory, no context, team or arena exists. -/
def State.reset : State :=
  { sec := { fwVersion := Config.firmwareVersion, image := Config.firmwareImage, counter := Config.fusedCounter } }

end Sys2Proof.Machine
end

