-- ==== Sys2Proof/Machine/Mem.lean ====
section
/-!
DEFINITION. Bytes: memory as a canonical list of cells, little-endian words, and the small list and
bit helpers the rest of the machine uses.
-/

namespace Sys2Proof.Machine

open Sys2Proof

/-! ### Canonical memory -/

/-- What an address reads: an unlisted byte reads 0 (log 3). -/
def Mem.get : List Host.Cell → Nat → Byte
  | [], _ => 0
  | (b, x) :: r, a => if b = a then x else if a < b then 0 else Mem.get r a

/-- Writing a byte keeps the form: rising addresses, no entry 0. -/
def Mem.set : List Host.Cell → Nat → Byte → List Host.Cell
  | [], a, v => if v = 0 then [] else [(a, v)]
  | (b, x) :: r, a, v =>
    if b = a then (if v = 0 then r else (a, v) :: r)
    else if a < b then (if v = 0 then (b, x) :: r else (a, v) :: (b, x) :: r)
    else (b, x) :: Mem.set r a v

/-- Every listed address is at least `lo`, addresses rise, and no entry is 0. -/
def Mem.wfFrom : Nat → List Host.Cell → Bool
  | _, [] => true
  | lo, (a, v) :: r => decide (lo ≤ a) && v != 0 && Mem.wfFrom (a + 1) r

/-- The canonical form of a memory. -/
def Mem.wf (m : List Host.Cell) : Bool := Mem.wfFrom 0 m

/-- `n` bytes from `a` up. -/
def Mem.read (m : List Host.Cell) (a : Nat) : Nat → List Byte
  | 0 => []
  | n + 1 => Mem.get m a :: Mem.read m (a + 1) n

/-- Bytes written from `a` up. -/
def Mem.write (m : List Host.Cell) (a : Nat) : List Byte → List Host.Cell
  | [] => m
  | v :: r => Mem.write (Mem.set m a v) (a + 1) r

/-- Bytes cleared from `a` up, `n` of them, in one pass over the cells. -/
def Mem.clear (m : List Host.Cell) (a n : Nat) : List Host.Cell :=
  m.filter fun c => !(decide (a ≤ c.1) && decide (c.1 < a + n))

/-! ### Little-endian numbers (R30) -/

/-- The number that bytes spell, lowest first. -/
def leNat : List Byte → Nat
  | [] => 0
  | b :: r => b.toNat + 256 * leNat r

/-- The `n` low bytes of a number, lowest first. -/
def leBytes : Nat → Nat → List Byte
  | 0, _ => []
  | n + 1, x => BitVec.ofNat 8 x :: leBytes n (x / 256)

/-- The number that bytes spell, highest first. -/
def beNat (l : List Byte) : Nat := leNat l.reverse
/-- The `n` low bytes of a number, highest first. -/
def beBytes (n x : Nat) : List Byte := (leBytes n x).reverse

abbrev Mem.read32 (m : List Host.Cell) (a : Nat) : Word := BitVec.ofNat 32 (leNat (Mem.read m a 4))
abbrev Mem.read64 (m : List Host.Cell) (a : Nat) : Dword := BitVec.ofNat 64 (leNat (Mem.read m a 8))
abbrev Mem.write32 (m : List Host.Cell) (a : Nat) (x : Word) : List Host.Cell :=
  Mem.write m a (leBytes 4 x.toNat)
abbrev Mem.write64 (m : List Host.Cell) (a : Nat) (x : Dword) : List Host.Cell :=
  Mem.write m a (leBytes 8 x.toNat)

/-! ### Lists and bits -/

/-- Bits [lo + len − 1 : lo] of a number. -/
abbrev nbits (x lo len : Nat) : Nat := x / 2 ^ lo % 2 ^ len
/-- Bits of a word as a number. -/
abbrev wbits (x : Word) (lo len : Nat) : Nat := nbits x.toNat lo len
/-- Bits of a pair as a number. -/
abbrev dbits (x : Dword) (lo len : Nat) : Nat := nbits x.toNat lo len

/-- The lanes of a mask, ascending. -/
def lanesOf (m : BitVec 32) : List Nat := (List.range 32).filter fun i => m.getLsbD i
/-- The mask of a list of lanes. -/
def maskOf (l : List Nat) : BitVec 32 := l.foldl (fun m i => m ||| (1 : BitVec 32) <<< i) 0
/-- Lanes at which a test holds. -/
def maskIf (p : Nat → Bool) : BitVec 32 := maskOf ((List.range 32).filter p)
/-- The mask without another's lanes. -/
abbrev without (a b : BitVec 32) : BitVec 32 := a &&& ~~~b

/-- A value written over bits `lo` and up, `len` of them. -/
def setBits {w : Nat} (x : BitVec w) (lo len v : Nat) : BitVec w :=
  (x &&& ~~~(BitVec.ofNat w ((2 ^ len - 1) * 2 ^ lo))) ||| BitVec.ofNat w (v % 2 ^ len * 2 ^ lo)

/-- Vector element, with a default beyond the end. -/
abbrev vget {α : Type} {n : Nat} (v : Vector α n) (i : Nat) (d : α) : α :=
  if h : i < n then v[i] else d
/-- Vector with one element replaced; unchanged beyond the end. -/
abbrev vset {α : Type} {n : Nat} (v : Vector α n) (i : Nat) (x : α) : Vector α n :=
  if h : i < n then v.set i x else v

/-- Every lane's element rewritten with its lane number. -/
def mapLanes {α : Type} {n : Nat} (v : Vector α n) (f : Nat → α → α) : Vector α n :=
  ⟨(List.zipWith f (List.range n) v.toList).toArray, by simp⟩

/-- First entry of a keyed list. -/
def assoc {α β : Type} [DecidableEq α] (l : List (α × β)) (k : α) : Option β :=
  (l.find? fun p => p.1 = k).map (·.2)

/-- A keyed list with the entry of a key replaced or added. -/
def assocSet {α β : Type} [DecidableEq α] (l : List (α × β)) (k : α) (v : β) : List (α × β) :=
  if l.any fun p => p.1 = k then l.map fun p => if p.1 = k then (k, v) else p else l ++ [(k, v)]

/-- Ranges [a, a + n) and [b, b + m) share a byte. -/
abbrev overlap (a n b m : Nat) : Bool := decide (a < b + m) && decide (b < a + n) && n != 0 && m != 0

/-- Ceiling of a quotient; 0 divisors count as 1. -/
abbrev ceilDiv (a b : Nat) : Nat := (a + (max b 1 - 1)) / max b 1

end Sys2Proof.Machine
end

