-- ==== Sys2Proof/Machine/Crypto.lean ====
section
/-!
DEFINITION. The algorithms that integrity rests on: SHA-512, and ECDSA on P-521 (R431 to R433).
-/

namespace Sys2Proof.Machine

open Sys2Proof

/-! ### SHA-512 -/

/-- A word of SHA-512. -/
abbrev ShaWord := BitVec 64

/-- The largest `r` below `2 ^ bits` above `r0` with `r ^ k ≤ n`, found bit by bit. -/
def rootFrom (k n : Nat) : Nat → Nat → Nat
  | 0, r0 => r0
  | bit + 1, r0 => rootFrom k n bit (if (r0 + 2 ^ bit) ^ k ≤ n then r0 + 2 ^ bit else r0)

/-- The first 64 bits of the fraction of the k-th root of a number. -/
abbrev rootFraction (k p : Nat) : ShaWord := BitVec.ofNat 64 (rootFrom k (p * 2 ^ (64 * k)) 72 0)

/-- Primes below 410, the first 80. -/
def shaPrimes : List Nat := (List.range 410).filter fun n => 2 ≤ n && (List.range n).all fun d => d < 2 || n % d != 0

/-- What the rounds add: from the cube roots of the first 80 primes. -/
def shaAdds : List ShaWord := shaPrimes.map (rootFraction 3)

/-- A chaining value: its first four words and its last four. -/
abbrev ShaValue := List ShaWord × List ShaWord

/-- The first chaining value: from the square roots of the first 8 primes. -/
def shaStart : ShaValue := ((shaPrimes.take 8).map (rootFraction 2)).splitAt 4

/-- The exclusive or of a word turned right by some amounts. -/
def turns (x : ShaWord) (l : List Nat) : ShaWord := l.foldl (fun y n => y ^^^ x.rotateRight n) 0

/-- The words of a block go on: each from four of the 16 before it. The list is newest first. -/
def shaExpand : Nat → List ShaWord → List ShaWord
  | 0, w => w
  | n + 1, w =>
    let back := fun (k : Nat) => w.getD (k - 1) 0
    shaExpand n ((back 16 + back 7 + (turns (back 15) [1, 8] ^^^ back 15 >>> 7) + (turns (back 2) [19, 61] ^^^ back 2 >>> 6)) :: w)

/-- One round: a word enters each half of the value, and the oldest of each leaves. -/
def shaTurn (v : ShaValue) (add : ShaWord) : ShaValue :=
  let x := fun (k : Nat) => v.1.getD k 0
  let y := fun (k : Nat) => v.2.getD k 0
  let pick := y 2 ^^^ (y 0 &&& (y 1 ^^^ y 2))
  let most := (x 0 &&& (x 1 ||| x 2)) ||| (x 1 &&& x 2)
  let t := add + y 3 + pick + turns (y 0) [14, 18, 41]
  ((most + turns (x 0) [28, 34, 39] + t) :: v.1.take 3, (x 3 + t) :: v.2.take 3)

/-- A block of 128 bytes taken into a chaining value. -/
def shaAbsorb (v : ShaValue) (block : List Byte) : ShaValue :=
  let first := (List.range 16).map fun k => BitVec.ofNat 64 (beNat ((block.drop (8 * (15 - k))).take 8))
  let u := (((shaExpand 64 first).reverse.zip shaAdds).map fun p => p.1 + p.2).foldl shaTurn v
  ((v.1.zip u.1).map fun p => p.1 + p.2, (v.2.zip u.2).map fun p => p.1 + p.2)

/-- Blocks of 128 bytes. -/
abbrev shaBlocks (b : List Byte) : List (List Byte) := (List.range (b.length / 128)).map fun k => (b.drop (128 * k)).take 128

/-- SHA-512 of some bytes: a 1 bit, zeros and the length in bits fill the last block up. -/
def sha512 (m : List Byte) : List Byte :=
  let fill := (111 + 128 - m.length % 128) % 128
  let v := (shaBlocks (m ++ 0x80 :: List.replicate fill 0 ++ beBytes 16 (m.length * 8))).foldl shaAbsorb shaStart
  (v.1 ++ v.2).flatMap fun w => beBytes 8 w.toNat

/-! ### ECDSA on P-521 -/

/-- The field, the order, the coefficient b and the base point of P-521. -/
def p521 : Nat := 2 ^ 521 - 1
def n521 : Nat :=
  0x1fffffffffffffffffffffffffffffffffffffffffffffffffffffffffffffffffa51868783bf2f966b7fcc0148f709a5d03bb5c9b8899c47aebb6fb71e91386409
def b521 : Nat :=
  0x51953eb9618e1c9a1f929a21a0b68540eea2da725b99b315f3b8b489918ef109e156193951ec7e937b1652c0bd3bb1bf073573df883d2c34f1ef451fd46b503f00
def g521 : Nat × Nat :=
  (0xc6858e06b70404e9cd9e3ecb662395b4429c648139053fb521f828af606b4d3dbaa14b5e77efe75928fe1dc127a2ffa8de3348b3c1856a429bf97e7e31c2e5bd66,
   0x11839296a789a3bc0045c8a5fb42c7d1bd998f54449579b446817afbd17273e662c97ee72995ef42640c550b9013fad0761353c7086a272c24088be94769fd16650)

/-- A power modulo `m`, its exponent taken bit by bit. -/
def powMod (m : Nat) : Nat → Nat → Nat → Nat
  | 0, _, _ => 1 % m
  | k + 1, x, e =>
    let r := powMod m k (x * x % m) (e / 2)
    if e % 2 = 1 then r * x % m else r

/-- The inverse modulo a prime. -/
abbrev invMod (m x : Nat) : Nat := powMod m 522 (x % m) (m - 2)

/-- A point of the curve; `none` is the point at infinity. -/
abbrev Point := Option (Nat × Nat)

/-- The sum of two points. -/
def addPoint : Point → Point → Point
  | none, q => q
  | p, none => p
  | some (x1, y1), some (x2, y2) =>
    let p := p521
    if x1 = x2 ∧ (y1 + y2) % p = 0 then none
    else
      let l := if x1 = x2 then (3 * x1 * x1 + (p - 3)) * invMod p (2 * y1) % p
               else (y2 + p - y1) * invMod p (x2 + p - x1) % p
      let x3 := (l * l + 2 * p - x1 - x2) % p
      some (x3, (l * (x1 + p - x3) + p - y1) % p)

/-- A multiple of a point, its factor taken bit by bit. -/
def mulPoint : Nat → Nat → Point → Point
  | 0, _, _ => none
  | k + 1, e, q =>
    let r := mulPoint k (e / 2) (addPoint q q)
    if e % 2 = 1 then addPoint q r else r

/-- A point lies on the curve. -/
def onCurve (q : Nat × Nat) : Bool :=
  q.1 < p521 && q.2 < p521 && q.2 * q.2 % p521 == (q.1 * q.1 * q.1 + (p521 - 3) * q.1 + b521) % p521

/-- The number that ECDSA takes from a hash: 512 bits, fewer than the order has. -/
abbrev hashNum (m : List Byte) : Nat := beNat (sha512 m)

/-- A signature verifies. -/
def verifies (key : Nat × Nat) (m : List Byte) (r s : Nat) : Bool :=
  onCurve key && 1 ≤ r && r < n521 && 1 ≤ s && s < n521 &&
    (let w := invMod n521 s
     match addPoint (mulPoint 521 (hashNum m * w % n521) (some g521)) (mulPoint 521 (r * w % n521) (some key)) with
     | none => false
     | some (x, _) => x % n521 == r)

/-- A signature by a private key with a secret number for it. -/
def signature (d k : Nat) (m : List Byte) : Nat × Nat :=
  match mulPoint 521 (k % n521) (some g521) with
  | none => (0, 0)
  | some (x, _) => (x % n521, invMod n521 k * (hashNum m + x % n521 * d) % n521)

end Sys2Proof.Machine
end

