-- ==== Sys2Proof/Machine/Shape.lean ====
section
/-!
DEFINITION. What each instruction reads and writes in registers: its operands in the order of R46 with
the width and kind of each, its destination, and its predicates. The decoder's register rules (R43,
R45, R444), the scoreboard (R40) and the channel rules (R47, R200) all read this one table.
-/

namespace Sys2Proof.Machine

open Sys2Proof

/-- Width and kind of an operand: how a register names it (R43) and how a literal stands for it (R45). -/
inductive Kind where
  | w32 | w64 | f32 | f64 | tf32 | w128
  deriving DecidableEq, Repr

/-- Which sources an instruction takes in an S field. -/
inductive Allow where
  | all     -- class I and F: everything (R42)
  | noCh    -- everything but channels (R166, R444)
  | reg     -- a v register or a scalar (R51)
  | tgt     -- a register, a scalar or a constant word (R80, R407)
  | uni     -- a scalar, a constant word or a literal (R84, R86, R199)
  | vReg    -- a v register (R266)
  deriving DecidableEq, Repr

/-- A source operand: the field, its kind, and what may stand there. -/
structure Opd where
  src : Src
  kind : Kind
  allow : Allow
  deriving DecidableEq, Repr

/-- The register use of an instruction. -/
structure Shape where
  srcs : List Opd := []
  dst : Option (Dst × Kind) := none
  /-- the destination may be a channel (R444) -/
  dstCh : Bool := false
  /-- the destination register is read as well (`WAITC`, R192) -/
  dstRead : Bool := false
  pr : List (BitVec 6) := []
  pw : List (BitVec 6) := []
  deriving DecidableEq, Repr

/-- Pair or single operand of an atomic (R178). -/
abbrev kOf (w64 : Bool) : Kind := if w64 then .w64 else .w32

/-- Kind of an integer type's register (R105). -/
abbrev intKind : IntTy → Kind
  | .i64 | .n64 => .w64
  | _ => .w32

/-- `RDSYS` and `WRSYS` have the width of the register they name, or either width (R55, R233): 64 bits,
32 bits, or none for a number that names no register. -/
def sysWidth (n : Nat) : Option Kind :=
  if n ∈ [0x010, 0x011, 0x012, 0x013, 0x030, 0x031, 0x034, 0x040, 0x041] then some .w64
  else if n ∈ [0x000, 0x001, 0x002, 0x003, 0x004, 0x005, 0x006, 0x007, 0x008, 0x009, 0x00A, 0x020,
      0x021, 0x022, 0x023, 0x032, 0x033, 0x035, 0x036, 0x038, 0x039, 0x03A, 0x03B, 0x042,
      0x043] then some .w32
  else if 0x100 ≤ n ∧ n ≤ 0x109 ∨ 0x110 ≤ n ∧ n ≤ 0x11F then some .w64
  else if n = 0x201 then some .w64
  else if n = 0x200 ∨ 0x208 ≤ n ∧ n ≤ 0x220 then some .w32
  else if n ∈ [0x240, 0x243, 0x251] then some .w64
  else if n ∈ [0x241, 0x242, 0x250, 0x252] then some .w32
  else if n ∈ [0x300, 0x310, 0x311, 0x312] then some .w64
  else if n = 0x301 then some .w32
  else if n ∈ [0x430, 0x438] then some .w64
  else if 0x400 ≤ n ∧ n ≤ 0x409 ∨ 0x410 ≤ n ∧ n ≤ 0x414 ∨ 0x418 ≤ n ∧ n ≤ 0x41C ∨
      0x420 ≤ n ∧ n ≤ 0x424 ∨ 0x428 ≤ n ∧ n ≤ 0x42C ∨ n = 0x440 then some .w32
  else if n ∈ [0x503, 0x504] then some .w64
  else if n ∈ [0x500, 0x501, 0x502, 0x505, 0x506, 0x508, 0x509] ∨ 0x510 ≤ n ∧ n ≤ 0x51E then
    some .w32
  else if 0x600 ≤ n ∧ n ≤ 0x604 ∨ 0x610 ≤ n ∧ n ≤ 0x61B then some .w32
  else none

/-- An even register: in `RDSYS` and `WRSYS` of a number that names no register it is taken as a pair, the operand
that R55 speaks of (log 11). -/
def Dst.even : Dst → Bool
  | .v n => n.toNat % 2 == 0
  | .s n => n.toNat % 2 == 0
  | .push _ => false
def Src.even : Src → Bool
  | .v n => n.toNat % 2 == 0
  | .s n => n.toNat % 2 == 0
  | .c n => n.toNat % 2 == 0
  | _ => false

/-- The kind of the operand of `RDSYS` or `WRSYS` (R55, R233). -/
def sysKind (n : BitVec 12) (even : Bool) : Kind := (sysWidth n.toNat).getD (if even then .w64 else .w32)

/-- Register kind of an access size (R172). -/
abbrev sizeKind : Size → Kind
  | .b64 => .w64
  | .b128 => .w128
  | _ => .w32

/-- Address operand: an even register for the global space, a 32-bit register otherwise (R51). -/
abbrev addrOpd (a : Src) (sp : Space) : Opd :=
  { src := a, kind := if sp = .global then .w64 else .w32, allow := .reg }

/-- Destination and source kinds of `FCVT` (R130). -/
def fcvtKinds (conv : BitVec 4) : Kind × Kind :=
  match conv.toNat with
  | 0x0 => (.w64, .f32)
  | 0x1 => (.w32, .f64)
  | 0x2 => (.w32, .f32)
  | 0x3 => (.w32, .tf32)
  | 0x4 => (.w32, .f64)
  | 0x5 => (.w64, .tf32)
  | 0x6 => (.w32, .f32)
  | 0x7 => (.w32, .f32)
  | 0x8 => (.w64, .f64)
  | 0x9 => (.w64, .f64)
  | 0xA => (.w32, .f64)
  | 0xB => (.w32, .w32)
  | 0xC => (.w32, .w32)
  | 0xD => (.w64, .w64)
  | 0xE => (.w64, .w64)
  | _ => (.w64, .w32)

abbrev o32 (a : Src) : Opd := { src := a, kind := .w32, allow := .all }
abbrev o64 (a : Src) : Opd := { src := a, kind := .w64, allow := .all }
abbrev oF (a : Src) : Opd := { src := a, kind := .f32, allow := .all }
abbrev oD (a : Src) : Opd := { src := a, kind := .f64, allow := .all }
abbrev oT (a : Src) : Opd := { src := a, kind := .tf32, allow := .all }
abbrev n32 (a : Src) : Opd := { src := a, kind := .w32, allow := .noCh }
abbrev n64 (a : Src) : Opd := { src := a, kind := .w64, allow := .noCh }
abbrev t64 (a : Src) : Opd := { src := a, kind := .w64, allow := .tgt }
abbrev u32 (a : Src) : Opd := { src := a, kind := .w32, allow := .uni }

abbrev sh2 (d : Dst) (a b : Src) : Shape :=
  { srcs := [o32 a, o32 b], dst := some (d, .w32), dstCh := true }
abbrev sh1 (d : Dst) (a : Src) : Shape := { srcs := [o32 a], dst := some (d, .w32), dstCh := true }
abbrev shF (d : Dst) (l : List Src) : Shape :=
  { srcs := l.map oF, dst := some (d, .w32), dstCh := true }
abbrev shD (d : Dst) (l : List Src) : Shape :=
  { srcs := l.map oD, dst := some (d, .w64), dstCh := true }
abbrev shT (d : Dst) (l : List Src) : Shape :=
  { srcs := l.map oT, dst := some (d, .w32), dstCh := true }

/-- The register use of each instruction (R98-R147, R166-R202, and the owning chapters of the rest). -/
def shape : Instr → Shape
  | .mov d a | .iabs d a | .ineg d a | .popc d a | .clz d a | .brev d a | .ballot d a => sh1 d a
  | .iadd d a b | .isub d a b | .imul d a b | .imulhs d a b | .imulhn d a b | .imin d a b
  | .imax d a b | .iminn d a b | .imaxn d a b | .andI d a b | .orI d a b | .xorI d a b
  | .andn d a b | .shl d a b | .shr d a b | .sar d a b | .rotl d a b => sh2 d a b
  | .imad d a b c _ => { srcs := [o32 a, o32 b, o32 c], dst := some (d, .w32), dstCh := true }
  | .bfx d a b c _ | .bfi d a b c _ | .shfl d a b c _ _ =>
    { srcs := [o32 a, o32 b, o32 c], dst := some (d, .w32), dstCh := true }
  | .isel d a b _ p => { srcs := [o32 a, o32 b], dst := some (d, .w32), dstCh := true, pr := [p] }
  | .icmps pd _ a b | .icmpn pd _ a b => { srcs := [o32 a, o32 b], pw := [pd] }
  | .icmp64 pd _ a b => { srcs := [o64 a, o64 b], pw := [pd] }
  | .plog pd fn pa _ pb _ => { pr := if fn = .mov then [pa] else [pa, pb], pw := [pd] }
  | .prd d h =>
    { dst := some (d, .w32), dstCh := true,
      pr := (List.range 32).map fun i => BitVec.ofNat 6 (i + if h then 32 else 0) }
  | .pwr a h =>
    { srcs := [o32 a], pw := (List.range 32).map fun i => BitVec.ofNat 6 (i + if h then 32 else 0) }
  | .iadd64 d a b | .isub64 d a b => { srcs := [o64 a, o64 b], dst := some (d, .w64), dstCh := true }
  | .shl64 d a b | .shr64 d a b | .iaddw d a b =>
    { srcs := [o64 a, o32 b], dst := some (d, .w64), dstCh := true }
  | .imulw d a b => { srcs := [o32 a, o32 b], dst := some (d, .w64), dstCh := true }
  | .lea d a b c _ _ => { srcs := [o64 a, o32 b, o32 c], dst := some (d, .w64), dstCh := true }
  | .vote pd _ a => { srcs := [o32 a], pw := [pd] }
  | .elect pd _ => { pw := [pd] }
  | .cvti d a b _ tt fr =>
    { srcs := [{ src := a, kind := intKind fr, allow := .all }, o32 b], dst := some (d, intKind tt),
      dstCh := true }
  | .rand d a b c out _ =>
    { srcs := [o32 a, o32 b, o32 c], dst := some (d, if out = .n64 then .w64 else .w32),
      dstCh := true }
  | .fadd d a b _ | .fsub d a b _ | .fmul d a b _ | .fmin d a b | .fmax d a b => shF d [a, b]
  | .ffma d a b c _ _ _ => shF d [a, b, c]
  | .fabs d a | .fneg d a | .frcp d a _ | .frsq d a _ | .fsqrt d a _ | .fexp2 d a | .flog2 d a
  | .ftrig d a _ | .frnd d a _ | .fclass d a | .fkey d a => shF d [a]
  | .fcmp pd _ a b => { srcs := [oF a, oF b], pw := [pd] }
  | .fcvt d a conv _ =>
    { srcs := [{ src := a, kind := (fcvtKinds conv).2, allow := .all }],
      dst := some (d, (fcvtKinds conv).1), dstCh := true }
  | .fscale d a n _ => { srcs := [oF a, o32 n], dst := some (d, .w32), dstCh := true }
  | .dadd d a b _ _ | .dmul d a b _ => shD d [a, b]
  | .dfma d a b c _ _ _ => shD d [a, b, c]
  | .dcmp pd _ a b => { srcs := [oD a, oD b], pw := [pd] }
  | .tadd d a b | .tsub d a b | .tmul d a b => shT d [a, b]
  | .tfma d a b c _ _ => shT d [a, b, c]
  | .tcmp pd cc a b => { srcs := if cc = 3 then [oT a] else [oT a, oT b], pw := [pd] }
  | .tneg d a | .trcp d a | .trsq d a => shT d [a]
  | .ld d a _ size _ sp _ => { srcs := [addrOpd a sp], dst := some (d, sizeKind size) }
  | .st data a _ size _ sp =>
    { srcs := [{ src := data, kind := sizeKind size,
                 allow := if size = .b128 then .vReg else .noCh }, addrOpd a sp] }
  | .lda d a _ size _ _ => { srcs := [addrOpd a .global], dst := some (d, sizeKind size) }
  | .stl data a size _ =>
    { srcs := [{ src := data, kind := sizeKind size, allow := .noCh }, addrOpd a .global] }
  | .ldp d a _ size => { srcs := [addrOpd a .global], dst := some (d, sizeKind size) }
  | .atom d a b c fn _ _ w =>
    { srcs := [addrOpd a .global, { src := b, kind := if fn = .fadd then .f32 else kOf w,
                                    allow := .noCh }] ++
        (if fn = .cas then [{ src := c, kind := kOf w, allow := .noCh }] else []),
      dst := some (d, kOf w), pw := [63] }
  | .red a b fn _ w =>
    { srcs := [addrOpd a .global, { src := b, kind := if fn = .fadd then .f32 else kOf w,
                                    allow := .noCh }] }
  | .waitc d a b _ _ w =>
    { srcs := [addrOpd a .global, { src := b, kind := kOf w, allow := .noCh }],
      dst := some (d, kOf w), dstRead := true, pw := [63] }
  | .pref a _ _ _ => { srcs := [addrOpd a .global] }
  | .cctl a op =>
    { srcs := match op with
        | .l1line | .wb => [n64 a]
        | .cbank => [n32 a]
        | .l1all | .icache => [] }
  | .chcfg base depth _ _ => { srcs := [u32 base, u32 depth] }
  | .chstat d n => { srcs := [n32 n], dst := some (d, .w32) }
  | .bra p _ _ | .call p _ _ => { pr := [p] }
  | .brx a | .callx a => { srcs := [t64 a] }
  | .fork pd _ _ | .spawn pd _ => { pw := [pd] }
  | .bara _ _ c | .bar _ _ c => { srcs := [u32 c] }
  | .cvset _ n => { srcs := [u32 n] }
  | .clk d => { dst := some (d, .w64) }
  | .mark d _ | .cut d _ _ => { dst := some (d, .w32) }
  | .graft a => { srcs := [n32 a] }
  | .sdrop d a | .sdropHold d a | .sinfo d a => { srcs := [n32 a], dst := some (d, .w32) }
  | .mma _ _ _ ha hb a b o _ _ => { srcs := [n32 a, n32 b] ++ if ha || hb then [t64 o] else [] }
  | .mmac _ _ _ hb b _ _ _ o => { srcs := [n32 b] ++ if hb then [t64 o] else [] }
  | .mload _ _ _ _ a => { srcs := [n32 a] }
  | .mstore _ _ _ _ a _ am _ addr => { srcs := [n32 a] ++ if am.isSome then [t64 addr] else [] }
  | .mgather _ _ _ a b l => { srcs := [n32 a, n32 b, n32 l] }
  | .benq pd row res => { srcs := [t64 row, t64 res], pw := [pd] }
  | .mreset a => { srcs := [n32 a] }
  | .thdl _ q => { srcs := [{ src := q, kind := .w128, allow := .vReg }] }
  | .cpyi _ _ _ off o st sg | .cpym _ _ _ off o st sg _ =>
    { srcs := [n32 off, n32 o] ++ (st.toList.map n32) ++ (sg.toList.map fun x => n32 x.2) }
  | .cpyo _ _ _ off o st sr am =>
    { srcs := [n32 off, n32 o] ++ (st.toList.map n32) ++ (sr.toList.map fun x => n32 x.1) ++
        (am.toList.map fun x => t64 x.2) ++ (sr.toList.map fun x => n32 x.2) }
  | .stgpWait d _ s | .stgc d _ s => { srcs := [n32 s], dst := some (d, .w32), pw := [63] }
  | .stgpFill _ s | .stgr _ s => { srcs := [n32 s], pw := [63] }
  | .lease pd p => { srcs := [n32 p], pw := [pd] }
  | .launch d t arg => { srcs := [t64 t, n64 arg], dst := some (d, .w64), pw := [63] }
  | .gdec d node am => { srcs := [t64 node, n32 am], dst := some (d, .w32), pw := [63] }
  | .gcond node v => { srcs := [t64 node, n32 v] }
  | .beat n => { srcs := [n32 n] }
  | .rbegin pd _ _ => { pw := [pd] }
  | .event _ a => { srcs := [t64 a] }
  | .rdsys d n => { dst := some (d, sysKind n (Dst.even d)) }
  | .wrsys n a => { srcs := [{ src := a, kind := sysKind n (Src.even a), allow := .noCh }] }
  | _ => {}

/-- The long-latency instructions (R39). -/
def longLatency : Instr → Bool
  | .ld .. | .lda .. | .ldp .. | .st .. | .stl .. | .atom .. | .red .. | .redf | .fence ..
  | .waitc .. | .pref .. | .cctl .. | .mark .. | .cut .. | .graft .. | .sdrop .. | .sdropHold ..
  | .sinfo .. | .spawn .. | .rbegin .. | .rcommit | .rabort | .event .. => true
  | i => i.cls = some .X || i.cls = some .K

/-- The control transfers, which end their clause (R37). -/
def isTransfer : Instr → Bool
  | .bra .. | .brx .. | .call .. | .callx .. | .ret | .endF .. | .trap .. | .rte | .graft ..
  | .waitc .. => true
  | _ => false

/-- Registers a kind covers. -/
abbrev Kind.regs : Kind → Nat
  | .w64 | .f64 => 2
  | .w128 => 4
  | _ => 1

/-- A source field that stands where the instruction takes it, with the register rules of R43 that do
not need the window: pairs even, quadruples aligned, no 128-bit scalar or constant, literals of 128
bits refused (R45), the literal code 0b100000 reserved for extension words (R42). -/
def Opd.ok (o : Opd) : Bool :=
  (match o.src with
   | .v n => n.toNat % o.kind.regs == 0
   | .s n => o.kind != .w128 && n.toNat % o.kind.regs == 0
   | .c n => o.kind != .w128 && n.toNat % o.kind.regs == 0
   | .inl x => o.kind != .w128 && x != 0b100000
   | .ext _ => o.kind != .w128
   | .pop _ | .peek _ => true) &&
  (match o.allow, o.src with
   | .all, _ => true
   | .noCh, .pop _ | .noCh, .peek _ => false
   | .noCh, _ => true
   | .reg, .v _ | .reg, .s _ => true
   | .reg, _ => false
   | .tgt, .v _ | .tgt, .s _ | .tgt, .c _ => true
   | .tgt, _ => false
   | .uni, .s _ | .uni, .c _ | .uni, .inl _ | .uni, .ext _ => true
   | .uni, _ => false
   | .vReg, .v _ => true
   | .vReg, _ => false)

/-- A destination field under R41 and R43, channels only where R444 allows them. -/
def dstOk (d : Dst) (k : Kind) (ch : Bool) : Bool :=
  match d with
  | .v n => n.toNat % k.regs == 0
  | .s n => k != .w128 && n.toNat % k.regs == 0
  | .push _ => ch

/-- Extension words among the sources (R45). -/
def extCount (l : List Opd) : Nat :=
  (l.filter fun o => match o.src with | .ext _ => true | _ => false).length

/-- A channel popped and peeked by one instruction (R47). -/
def popsAndPeeks (l : List Opd) : Bool :=
  l.any fun o => match o.src with
    | .pop c => l.any fun p => p.src == .peek c
    | _ => false

/-- The operand rules of R41 to R45, R47 and R444 that hold whatever the window is. -/
def Shape.ok (s : Shape) : Bool :=
  s.srcs.all Opd.ok && extCount s.srcs ≤ 1 && !popsAndPeeks s.srcs &&
  (match s.dst with
   | none => true
   | some (d, k) => dstOk d k s.dstCh)

/-- A register of the shape lies below the window (R43). -/
def Shape.fits (s : Shape) (win : Nat) : Bool :=
  (s.srcs.all fun o => match o.src with
    | .v n => n.toNat + o.kind.regs ≤ win
    | _ => true) &&
  (match s.dst with
   | some (.v n, k) => n.toNat + k.regs ≤ win
   | _ => true)

/-- The field rules that need the window: registers (R43), the counts of `FORK`, `END` and `RBEGIN`
(R72, R74, R401). -/
def fits (i : Instr) (win : Nat) : Bool :=
  (shape i).fits win &&
  match i with
  | .fork _ n _ => n.toNat ≤ win
  | .endF (some (k, _)) => k.toNat ≤ win
  | .rbegin _ f n => f.toNat + n.toNat ≤ win
  | _ => true

/-- Sizes, spaces and policies of the memory formats (R50, R51, R173, R175, R176). -/
def memOk : Instr → Bool
  | .ld d _ _ size pol sp sx =>
    (sp == .global || pol == .normal) &&
    (!sx || size == .b8 || size == .b16) &&
    (size != .b128 || match d with | .v _ => true | _ => false)
  | .st _ _ _ _ pol sp => sp == .global || pol == .normal
  | .lda _ _ _ size _ _ | .stl _ _ size _ => size != .b128
  | .ldp _ _ _ size => size == .b32 || size == .b64
  | .atom _ _ _ c fn _ _ w =>
    (fn != .fadd || !w) && (fn != .kmax || w) && (fn == .cas || c == .v 0)
  | .red _ _ fn _ w =>
    (fn != .fadd || !w) && (fn != .kmax || w) && fn != .exch && fn != .cas
  | .waitc .. => true
  | .cctl a op => (op != .l1all && op != .icache) || a == .v 0
  | _ => true

/-- Form families of R294. -/
def MxForm.family : MxForm → Nat
  | .k16 | .k16x4 => 0
  | .k32 => 1
  | .ci8 | .ci8x4 => 2
  | .ci16 => 3

/-- The rules of the matrix formats that need no state (R295, R299, R303, R305, R308). -/
def mxOk : Instr → Bool
  | .mma _ _ _ ha hb _ _ o tha thb =>
    (ha || tha == 0) && (hb || thb == 0) && (ha || hb || o == .v 0)
  | .mmac _ _ _ hb _ _ _ thb o => hb || (thb == 0 && o == .v 0)
  | .mstore _ _ _ _ _ conv am sh addr =>
    (am.isSome || addr == .v 0) &&
    !(am.isSome && (conv == .raw || conv == .raw64)) &&
    (sh == 0 || conv == .i8 || conv == .i16)
  | .mshape mt nt fa fb acc sa sb q k =>
    k != 0 && MxForm.family fa == MxForm.family fb &&
    (match MxForm.family fa with
     | 0 => acc == .f32
     | 1 => acc == .f32 && !sa && !sb
     | 2 => if sa || sb then acc == .f32 else acc == .i32 || acc == .i64
     | _ => (acc == .i32 || acc == .i64) && !sa && !sb) &&
    (if q then mt.toNat % 2 == 1 && nt.toNat % 2 == 1 else decide (mt.toNat ≤ 7 ∧ nt.toNat ≤ 7))
  | _ => true

/-- Field rules of single instructions that the shape does not carry. -/
def fieldOk : Instr → Bool
  | .bfi _ _ _ _ w => w.toNat ≤ 32
  | .plog _ fn _ _ pb nb => fn != .mov || (pb == 0 && !nb)
  | .tcmp _ cc _ b => cc != 3 || b == .v 0
  | .fcvt _ _ conv rnd => (conv != 2 && conv != 4) || rnd == .dyn
  | .fork _ n _ => n.toNat ≤ 64
  | .endF (some (k, _)) => k.toNat ≤ 64
  | .rbegin _ f n => f.toNat + n.toNat ≤ 64
  | .event code _ => 0x100 ≤ code.toNat
  | _ => true

/-- Every rule on the fields of an encoded instruction that holds whatever the state is: R41 to R51 and
the field rules of the owning chapters. A breach raises ILLEGAL_ENCODING. -/
def encodable (i : Instr) : Bool :=
  i.cls.isSome && (shape i).ok && memOk i && mxOk i && fieldOk i

end Sys2Proof.Machine
end

