-- ==== Sys2Proof/WellFormed.lean ====
section
/-!
DEFINITION. Well-formed instructions: the encoded instructions whose fields keep every rule that does
not depend on the state (R41-R51, R444 and the owning chapters). The rules that depend on the window
are `Machine.fits`.
-/

namespace Sys2Proof

/-- An encoded instruction with a legal word. -/
abbrev Instr.wf (i : Instr) : Bool := Machine.encodable i

end Sys2Proof
end

