-- ==== Sys2Proof/Decode.lean ====
section
/-!
DEFINITION. The decoder of a clause's words under its header's class (R32 to R54) and, after it, the
encoder, both written from the format tables (R49), the operand fields (R41, R42) and the opcode map
(R53).
-/

namespace Sys2Proof

open Sys2Proof.Machine (encodable)

/-- Why a word is not an instruction (R36, R41-R54). -/
inductive DecodeErr where
  | illegalOpcode | illegalEncoding
  deriving DecidableEq, Repr

/-! ### Fields -/

/-- Bits [lo + len - 1 : lo] of a word. -/
abbrev fld (w : Word) (lo len : Nat) : BitVec len := w.extractLsb' lo len

/-- Bits of a word that shall be zero (R49). -/
abbrev zeroFld (w : Word) (lo len : Nat) : Bool := w.extractLsb' lo len == 0

abbrev bit (w : Word) (i : Nat) : Bool := w.getLsbD i

/-- A destination field (R41). -/
def Dst.ofBits (d : BitVec 8) : Option Dst :=
  if d.getLsbD 7 then
    if d.extractLsb' 5 2 == 0 then some (.push (d.extractLsb' 0 5)) else none
  else if d.getLsbD 6 then
    if d.getLsbD 5 then none else some (.s (d.extractLsb' 0 5))
  else some (.v (d.extractLsb' 0 6))

/-- The literal code that announces an extension word (R42). -/
abbrev extCode : BitVec 9 := 0b011100000

/-- A source field (R42); `e` is the instruction's extension word. -/
def Src.ofBits (s : BitVec 9) (e : Word) : Option Src :=
  if s.getLsbD 8 then
    if s.extractLsb' 5 2 == 0 then
      some (if s.getLsbD 7 then .pop (s.extractLsb' 0 5) else .peek (s.extractLsb' 0 5))
    else none
  else match (s.extractLsb' 6 2).toNat with
    | 0 => some (.v (s.extractLsb' 0 6))
    | 1 => if s.getLsbD 5 then none else some (.s (s.extractLsb' 0 5))
    | 2 => some (.c (s.extractLsb' 0 6))
    | _ => if s == extCode then some (.ext e) else some (.inl (s.extractLsb' 0 6))

/-- The extension word at position `k`, if one of the fields asks for it, and the words used so far
(R45, R46). -/
def takeExt (ws : List Word) (k : Nat) (fs : List (BitVec 9)) : Option (Word × Nat) :=
  if fs.any (· == extCode) then ws[k]?.map (fun e => (e, k + 1)) else some (0, k)

/-- The signed offset word at position `k`, if X is set (R46, R50). -/
def takeOff (ws : List Word) (k : Nat) (x : Bool) : Option (Option Word × Nat) :=
  if x then ws[k]?.map (fun o => (some o, k + 1)) else some (none, k)

def Size.ofBits (b : BitVec 3) : Option Size :=
  match b.toNat with
  | 0 => some .b8 | 1 => some .b16 | 2 => some .b32 | 3 => some .b64 | 4 => some .b128 | _ => none
def Policy.ofBits (b : BitVec 2) : Policy :=
  match b.toNat with | 0 => .normal | 1 => .stream | 2 => .keep | _ => .nol1
def Space.ofBits (b : BitVec 2) : Option Space :=
  match b.toNat with | 0 => some .global | 1 => some .scratch | 2 => some .const | _ => none
/-- Scope codes; 0b101 to 0b111 are illegal (R26). -/
def Scope.ofBits (b : BitVec 3) : Option Scope :=
  match b.toNat with
  | 0 => some .group | 1 => some .team | 2 => some .cluster | 3 => some .device | 4 => some .system
  | _ => none
def Order.ofBits (b : BitVec 2) : Order :=
  match b.toNat with | 0 => .rlx | 1 => .acq | 2 => .rel | _ => .acqrel
def AtomFn.ofBits (b : BitVec 4) : Option AtomFn :=
  match b.toNat with
  | 0 => some .add | 1 => some .min | 2 => some .max | 3 => some .minn | 4 => some .maxn
  | 5 => some .and | 6 => some .or | 7 => some .xor | 8 => some .exch | 9 => some .cas
  | 10 => some .fadd | 11 => some .kmax | _ => none
def WaitCc.ofBits (b : BitVec 4) : Option WaitCc :=
  match b.toNat with
  | 0 => some .eq | 1 => some .ne | 2 => some .lt | 3 => some .ge | 4 => some .ltn | 5 => some .gen
  | 6 => some .any | 7 => some .none | _ => Option.none
def Rnd.ofBits (b : BitVec 3) : Option Rnd :=
  match b.toNat with
  | 0 => some .dyn | 1 => some .rne | 2 => some .rtz | 3 => some .rdn | 4 => some .rup | _ => none
def IntTy.ofBits (b : BitVec 3) : IntTy :=
  match b.toNat with
  | 0 => .i8 | 1 => .i16 | 2 => .i32 | 3 => .i64 | 4 => .n8 | 5 => .n16 | 6 => .n32 | _ => .n64
def PlogFn.ofBits (b : BitVec 2) : PlogFn :=
  match b.toNat with | 0 => .and | 1 => .or | 2 => .xor | _ => .mov
def ShflMode.ofBits (b : BitVec 2) : ShflMode :=
  match b.toNat with | 0 => .idx | 1 => .up | 2 => .down | _ => .xor
def SegW.ofBits (b : BitVec 3) : Option SegW :=
  match b.toNat with
  | 0 => some .w32 | 1 => some .w16 | 2 => some .w8 | 3 => some .w4 | 4 => some .w2 | _ => none
def RandOut.ofBits (b : BitVec 2) : Option RandOut :=
  match b.toNat with | 0 => some .n32 | 1 => some .f32 | 2 => some .n64 | _ => none
def RandRounds.ofBits (b : BitVec 2) : RandRounds :=
  match b.toNat with | 0 => .r2 | 1 => .r4 | 2 => .r6 | _ => .r8
def MadMode.ofBits (b : BitVec 7) : Option MadMode :=
  match b.toNat with | 0 => some .wrap | 1 => some .sat | 2 => some .satn | _ => none
def FenceKind.ofBits (b : BitVec 2) : Option FenceKind :=
  match b.toNat with | 0 => some .full | 1 => some .acq | 2 => some .rel | _ => none
def CctlOp.ofBits (b : BitVec 3) : Option CctlOp :=
  match b.toNat with
  | 0 => some .l1line | 1 => some .l1all | 2 => some .cbank | 3 => some .icache | 4 => some .wb
  | _ => none
def MxForm.ofBits (b : BitVec 3) : Option MxForm :=
  match b.toNat with
  | 0 => some .k16 | 1 => some .k16x4 | 2 => some .k32 | 3 => some .ci8 | 4 => some .ci8x4
  | 5 => some .ci16 | _ => none
def MxAcc.ofBits (b : BitVec 2) : Option MxAcc :=
  match b.toNat with | 0 => some .f32 | 1 => some .i32 | 2 => some .i64 | _ => none
def MxConv.ofBits (b : BitVec 3) : Option MxConv :=
  match b.toNat with
  | 0 => some .raw | 1 => some .tf32 | 2 => some .bf16 | 3 => some .f16 | 4 => some .i8 | 5 => some .i16
  | 7 => some .raw64 | _ => none
/-- The sign bit and convergence register of a matrix instruction (R299). -/
def signOf (w : Word) : Option SignCv :=
  if bit w 15 then some (some (fld w 16 4))
  else if fld w 16 4 == 0 then some none else none

/-! ### Formats (R49) -/

abbrev Dec := Option (Instr × Nat)

/-- Format A, one source. -/
def decA1 (ws : List Word) (w : Word) (f : Dst → Src → Instr) : Dec := do
  let (e, n) ← takeExt ws 1 [fld w 9 9]
  let d ← Dst.ofBits (fld w 18 8)
  let a ← Src.ofBits (fld w 9 9) e
  if zeroFld w 0 9 then some (f d a, n) else none

/-- Format A, two sources. -/
def decA2 (ws : List Word) (w : Word) (f : Dst → Src → Src → Instr) : Dec := do
  let (e, n) ← takeExt ws 1 [fld w 9 9, fld w 0 9]
  let d ← Dst.ofBits (fld w 18 8)
  let a ← Src.ofBits (fld w 9 9) e
  let b ← Src.ofBits (fld w 0 9) e
  some (f d a b, n)

/-- Format A, a source in SA and no destination. -/
def decA0 (ws : List Word) (w : Word) (f : Src → Instr) : Dec := do
  let (e, n) ← takeExt ws 1 [fld w 9 9]
  let a ← Src.ofBits (fld w 9 9) e
  if zeroFld w 0 9 && zeroFld w 18 8 then some (f a, n) else none

/-- A word whose fields are all zero. -/
def decZ (w : Word) (i : Instr) : Dec := if zeroFld w 0 26 then some (i, 1) else none

/-- The modifier word of A3: bits [31:16] zero, mod, SC. -/
def modWord (ws : List Word) : Option (BitVec 7 × BitVec 9) := do
  let m ← ws[1]?
  if zeroFld m 16 16 then some (fld m 9 7, fld m 0 9) else none

/-- Format A3, three sources. -/
def decA3 (ws : List Word) (w : Word) (f : Dst → Src → Src → Src → BitVec 7 → Option Instr) : Dec := do
  let (md, sc) ← modWord ws
  let (e, n) ← takeExt ws 2 [fld w 9 9, fld w 0 9, sc]
  let d ← Dst.ofBits (fld w 18 8)
  let a ← Src.ofBits (fld w 9 9) e
  let b ← Src.ofBits (fld w 0 9) e
  let c ← Src.ofBits sc e
  let i ← f d a b c md
  some (i, n)

/-- Format A3 with SC zero. -/
def decA3b (ws : List Word) (w : Word) (f : Dst → Src → Src → BitVec 7 → Option Instr) : Dec := do
  let (md, sc) ← modWord ws
  let (e, n) ← takeExt ws 2 [fld w 9 9, fld w 0 9]
  let d ← Dst.ofBits (fld w 18 8)
  let a ← Src.ofBits (fld w 9 9) e
  let b ← Src.ofBits (fld w 0 9) e
  let i ← f d a b md
  if sc == 0 then some (i, n) else none

/-- Format A3 with SB and SC zero. -/
def decA3a (ws : List Word) (w : Word) (f : Dst → Src → BitVec 7 → Option Instr) : Dec := do
  let (md, sc) ← modWord ws
  let (e, n) ← takeExt ws 2 [fld w 9 9]
  let d ← Dst.ofBits (fld w 18 8)
  let a ← Src.ofBits (fld w 9 9) e
  let i ← f d a md
  if sc == 0 && zeroFld w 0 9 then some (i, n) else none

/-- Format P, two sources. -/
def decP (ws : List Word) (w : Word) (f : BitVec 6 → BitVec 2 → Src → Src → Instr) : Dec := do
  let (e, n) ← takeExt ws 1 [fld w 9 9, fld w 0 9]
  let a ← Src.ofBits (fld w 9 9) e
  let b ← Src.ofBits (fld w 0 9) e
  some (f (fld w 20 6) (fld w 18 2) a b, n)

/-- The rounding field of a class F modifier without negations (R118, R131). -/
def rndOnly (md : BitVec 7) : Option Rnd :=
  if md.extractLsb' 3 4 == 0 then Rnd.ofBits (md.extractLsb' 0 3) else none

/-- The modifier of `FFMA`, `DFMA`, `TFMA` and `DADD` (R131): nc, nb, rnd. -/
def negRnd (md : BitVec 7) : Option (Bool × Bool × Rnd) :=
  if md.extractLsb' 5 2 == 0 then
    (Rnd.ofBits (md.extractLsb' 0 3)).map fun r => (md.getLsbD 3, md.getLsbD 4, r)
  else none

/-- Class I (R98-R114). -/
def decI (ws : List Word) (w : Word) : Dec :=
  match (fld w 26 6).toNat with
  | 0x00 => decA1 ws w .mov
  | 0x01 => decA2 ws w .iadd
  | 0x02 => decA2 ws w .isub
  | 0x03 => decA2 ws w .imul
  | 0x04 => decA2 ws w .imulhs
  | 0x05 => decA2 ws w .imulhn
  | 0x06 => decA3 ws w fun d a b c md => (MadMode.ofBits md).map (.imad d a b c)
  | 0x07 => decA2 ws w .imin
  | 0x08 => decA2 ws w .imax
  | 0x09 => decA2 ws w .iminn
  | 0x0A => decA2 ws w .imaxn
  | 0x0B => decA1 ws w .iabs
  | 0x0C => decA1 ws w .ineg
  | 0x0D => decA2 ws w .andI
  | 0x0E => decA2 ws w .orI
  | 0x0F => decA2 ws w .xorI
  | 0x10 => decA2 ws w .andn
  | 0x11 => decA2 ws w .shl
  | 0x12 => decA2 ws w .shr
  | 0x13 => decA2 ws w .sar
  | 0x14 => decA2 ws w .rotl
  | 0x15 => decA1 ws w .popc
  | 0x16 => decA1 ws w .clz
  | 0x17 => decA1 ws w .brev
  | 0x18 => decA3 ws w fun d a b c md =>
      if md.extractLsb' 1 6 == 0 then some (.bfx d a b c (md.getLsbD 0)) else none
  | 0x19 => decA3 ws w fun d a b c md =>
      if md.getLsbD 6 then none else some (.bfi d a b c (md.extractLsb' 0 6))
  | 0x1A => decA3b ws w fun d a b md => some (.isel d a b (md.getLsbD 6) (md.extractLsb' 0 6))
  | 0x1B => decP ws w .icmps
  | 0x1C => decP ws w .icmpn
  | 0x1D =>
    if zeroFld w 0 4 then
      some (.plog (fld w 20 6) (PlogFn.ofBits (fld w 18 2)) (fld w 12 6) (bit w 11) (fld w 5 6)
        (bit w 4), 1)
    else none
  | 0x1E => do
    let d ← Dst.ofBits (fld w 18 8)
    if zeroFld w 0 9 && fld w 10 8 == 0b01100000 then some (.prd d (bit w 9), 1) else none
  | 0x1F => do
    let (e, n) ← takeExt ws 1 [fld w 9 9]
    let a ← Src.ofBits (fld w 9 9) e
    if zeroFld w 18 8 && fld w 1 8 == 0b01100000 then some (.pwr a (bit w 0), n) else none
  | 0x20 => decA2 ws w .iadd64
  | 0x21 => decA2 ws w .isub64
  | 0x22 => decA2 ws w .shl64
  | 0x23 => decA2 ws w .shr64
  | 0x24 => decA3 ws w fun d a b c md =>
      if md.extractLsb' 4 3 == 0 then some (.lea d a b c (md.getLsbD 3) (md.extractLsb' 0 3)) else none
  | 0x25 => decA2 ws w .imulw
  | 0x26 => decA2 ws w .iaddw
  | 0x27 => decP ws w .icmp64
  | 0x28 => decA3 ws w fun d a b c md =>
      if md.extractLsb' 5 2 == 0 then
        (SegW.ofBits (md.extractLsb' 2 3)).map fun g => .shfl d a b c g (ShflMode.ofBits (md.extractLsb' 0 2))
      else none
  | 0x29 => do
    let (e, n) ← takeExt ws 1 [fld w 9 9]
    let a ← Src.ofBits (fld w 9 9) e
    if zeroFld w 0 9 then some (.vote (fld w 20 6) (fld w 18 2) a, n) else none
  | 0x2A => decA1 ws w .ballot
  | 0x2B => if zeroFld w 0 18 && !bit w 19 then some (.elect (fld w 20 6) (bit w 18), 1) else none
  | 0x2C => decA3b ws w fun d a b md =>
      some (.cvti d a b (md.getLsbD 6) (IntTy.ofBits (md.extractLsb' 3 3)) (IntTy.ofBits (md.extractLsb' 0 3)))
  | 0x2D => decA3 ws w fun d a b c md =>
      if md.extractLsb' 4 3 == 0 then
        (RandOut.ofBits (md.extractLsb' 2 2)).map fun o => .rand d a b c o (RandRounds.ofBits (md.extractLsb' 0 2))
      else none
  | _ => none

/-- Class F (R130-R146). -/
def decF (ws : List Word) (w : Word) : Dec :=
  match (fld w 26 6).toNat with
  | 0x00 => decA3b ws w fun d a b md => (rndOnly md).map (.fadd d a b)
  | 0x01 => decA3b ws w fun d a b md => (rndOnly md).map (.fsub d a b)
  | 0x02 => decA3b ws w fun d a b md => (rndOnly md).map (.fmul d a b)
  | 0x03 => decA3 ws w fun d a b c md => (negRnd md).map fun (nb, nc, r) => .ffma d a b c nb nc r
  | 0x04 => decA2 ws w .fmin
  | 0x05 => decA2 ws w .fmax
  | 0x06 => decA1 ws w .fabs
  | 0x07 => decA1 ws w .fneg
  | 0x08 => decP ws w .fcmp
  | 0x09 => decA3a ws w fun d a md => (rndOnly md).map (.frcp d a)
  | 0x0A => decA3a ws w fun d a md => (rndOnly md).map (.frsq d a)
  | 0x0B => decA3a ws w fun d a md => (rndOnly md).map (.fsqrt d a)
  | 0x0C => decA1 ws w .fexp2
  | 0x0D => decA1 ws w .flog2
  | 0x0E => decA3a ws w fun d a md =>
      if md.extractLsb' 4 3 == 0 && md.extractLsb' 0 3 == 0 then some (.ftrig d a (md.getLsbD 3)) else none
  | 0x0F => decA3a ws w fun d a md => (rndOnly md).map (.frnd d a)
  | 0x10 => decA3a ws w fun d a md => (Rnd.ofBits (md.extractLsb' 0 3)).map (.fcvt d a (md.extractLsb' 3 4))
  | 0x11 => decA1 ws w .fclass
  | 0x12 => decA1 ws w .fkey
  | 0x13 => decA3b ws w fun d a b md => (rndOnly md).map (.fscale d a b)
  | 0x14 => decA3b ws w fun d a b md =>
      (negRnd md).bind fun (nb, nc, r) => if nc then none else some (.dadd d a b nb r)
  | 0x15 => decA3b ws w fun d a b md => (rndOnly md).map (.dmul d a b)
  | 0x16 => decA3 ws w fun d a b c md => (negRnd md).map fun (nb, nc, r) => .dfma d a b c nb nc r
  | 0x17 => decP ws w .dcmp
  | 0x18 => decA2 ws w .tadd
  | 0x19 => decA2 ws w .tsub
  | 0x1A => decA2 ws w .tmul
  | 0x1B => decA3 ws w fun d a b c md =>
      (negRnd md).bind fun (nb, nc, r) => if r = .dyn then some (.tfma d a b c nb nc) else none
  | 0x1C => decP ws w .tcmp
  | 0x1D => decA1 ws w .tneg
  | 0x1E => decA1 ws w .trcp
  | 0x1F => decA1 ws w .trsq
  | _ => none

/-- The second word of AT (R49): fn, order, scope, size, SC. -/
def atWord (ws : List Word) : Option (BitVec 4 × Order × Scope × Bool × BitVec 9) := do
  let m ← ws[1]?
  let sc ← Scope.ofBits (fld m 23 3)
  if zeroFld m 9 13 then some (fld m 28 4, Order.ofBits (fld m 26 2), sc, bit m 22, fld m 0 9) else none

/-- Class M (R172-R202). -/
def decM (ws : List Word) (w : Word) : Dec :=
  match (fld w 26 6).toNat with
  | 0x00 => do
    let (off, k) ← takeOff ws 1 (bit w 3)
    let (e, n) ← takeExt ws k [fld w 9 9]
    let d ← Dst.ofBits (fld w 18 8)
    let a ← Src.ofBits (fld w 9 9) e
    let sz ← Size.ofBits (fld w 6 3)
    let sp ← Space.ofBits (fld w 1 2)
    some (.ld d a off sz (Policy.ofBits (fld w 4 2)) sp (bit w 0), n)
  | 0x01 => do
    let (off, k) ← takeOff ws 1 (bit w 2)
    let (e, n) ← takeExt ws k [fld w 17 9, fld w 8 9]
    let a ← Src.ofBits (fld w 8 9) e
    let v ← Src.ofBits (fld w 17 9) e
    let sz ← Size.ofBits (fld w 5 3)
    let sp ← Space.ofBits (fld w 0 2)
    some (.st v a off sz (Policy.ofBits (fld w 3 2)) sp, n)
  | 0x02 => do
    let (off, k) ← takeOff ws 1 (bit w 3)
    let (e, n) ← takeExt ws k [fld w 9 9]
    let d ← Dst.ofBits (fld w 18 8)
    let a ← Src.ofBits (fld w 9 9) e
    let sz ← Size.ofBits (fld w 6 3)
    let sc ← Scope.ofBits (fld w 0 3)
    some (.lda d a off sz (Policy.ofBits (fld w 4 2)) sc, n)
  | 0x03 => do
    let (e, n) ← takeExt ws 1 [fld w 17 9, fld w 8 9]
    let a ← Src.ofBits (fld w 8 9) e
    let v ← Src.ofBits (fld w 17 9) e
    let sz ← Size.ofBits (fld w 5 3)
    let sc ← Scope.ofBits (fld w 2 3)
    if zeroFld w 0 2 then some (.stl v a sz sc, n) else none
  | 0x04 => do
    let (off, k) ← takeOff ws 1 (bit w 3)
    let (e, n) ← takeExt ws k [fld w 9 9]
    let d ← Dst.ofBits (fld w 18 8)
    let a ← Src.ofBits (fld w 9 9) e
    let sz ← Size.ofBits (fld w 6 3)
    if zeroFld w 4 2 && zeroFld w 0 3 then some (.ldp d a off sz, n) else none
  | 0x05 => do
    let (fn, ord, sc, sz, scf) ← atWord ws
    let f ← AtomFn.ofBits fn
    let (e, n) ← takeExt ws 2 [fld w 9 9, fld w 0 9, scf]
    let d ← Dst.ofBits (fld w 18 8)
    let a ← Src.ofBits (fld w 9 9) e
    let b ← Src.ofBits (fld w 0 9) e
    let c ← Src.ofBits scf e
    some (.atom d a b c f ord sc sz, n)
  | 0x06 => do
    let (fn, ord, sc, sz, scf) ← atWord ws
    let f ← AtomFn.ofBits fn
    let (e, n) ← takeExt ws 2 [fld w 9 9, fld w 0 9]
    let a ← Src.ofBits (fld w 9 9) e
    let b ← Src.ofBits (fld w 0 9) e
    if zeroFld w 18 8 && ord == .rlx && scf == 0 then some (.red a b f sc sz, n) else none
  | 0x07 => decZ w .redf
  | 0x08 => do
    let (md, sc) ← modWord ws
    let k ← FenceKind.ofBits (md.extractLsb' 5 2)
    let s ← Scope.ofBits (md.extractLsb' 2 3)
    if zeroFld w 0 26 && sc == 0 && md.extractLsb' 0 2 == 0 then some (.fence k s, 2) else none
  | 0x09 => do
    let (fn, ord, sc, sz, scf) ← atWord ws
    let cc ← WaitCc.ofBits fn
    let (e, n) ← takeExt ws 2 [fld w 9 9, fld w 0 9]
    let d ← Dst.ofBits (fld w 18 8)
    let a ← Src.ofBits (fld w 9 9) e
    let b ← Src.ofBits (fld w 0 9) e
    if ord == .acq && scf == 0 then some (.waitc d a b cc sc sz, n) else none
  | 0x0A => do
    let (off, k) ← takeOff ws 1 (bit w 3)
    let (e, n) ← takeExt ws k [fld w 9 9]
    let a ← Src.ofBits (fld w 9 9) e
    if zeroFld w 18 8 && zeroFld w 0 3 && zeroFld w 7 2 then
      some (.pref a off (bit w 6) (Policy.ofBits (fld w 4 2)), n)
    else none
  | 0x0B => do
    let (md, sc) ← modWord ws
    let op ← CctlOp.ofBits (md.extractLsb' 0 3)
    let (e, n) ← takeExt ws 2 [fld w 9 9]
    let a ← Src.ofBits (fld w 9 9) e
    if zeroFld w 18 8 && zeroFld w 0 9 && sc == 0 && md.extractLsb' 3 4 == 0 then some (.cctl a op, n) else none
  | 0x0C => do
    let (md, sc) ← modWord ws
    let (e, n) ← takeExt ws 2 [fld w 9 9, fld w 0 9]
    let a ← Src.ofBits (fld w 9 9) e
    let b ← Src.ofBits (fld w 0 9) e
    if zeroFld w 18 8 && sc == 0 && !md.getLsbD 6 then
      some (.chcfg a b (md.getLsbD 5) (md.extractLsb' 0 5), n)
    else none
  | 0x0D => decA1 ws w .chstat
  | _ => none

/-- An S field in bits [8:0] and bits [hi:9] zero from `lo` up. -/
def decS (ws : List Word) (w : Word) (f : Src → Instr) : Dec := do
  let (e, n) ← takeExt ws 1 [fld w 0 9]
  let a ← Src.ofBits (fld w 0 9) e
  some (f a, n)

/-- D in [25:18], S in [8:0]. -/
def decDS (ws : List Word) (w : Word) (f : Dst → Src → Instr) : Dec := do
  let (e, n) ← takeExt ws 1 [fld w 0 9]
  let d ← Dst.ofBits (fld w 18 8)
  let a ← Src.ofBits (fld w 0 9) e
  some (f d a, n)

/-- Class C (R72-R86, R233-R236, R329-R342). -/
def decC (ws : List Word) (w : Word) : Dec :=
  match (fld w 26 6).toNat with
  | 0x00 => decZ w .nop
  | 0x01 => some (.bra (fld w 20 6) (bit w 19) (fld w 0 19), 1)
  | 0x02 => decA0 ws w .brx
  | 0x03 => some (.call (fld w 20 6) (bit w 19) (fld w 0 19), 1)
  | 0x04 => decA0 ws w .callx
  | 0x05 => decZ w .ret
  | 0x06 => do
    let m ← ws[1]?
    if zeroFld w 0 13 && zeroFld m 19 13 then some (.fork (fld w 20 6) (fld w 13 7) (fld m 0 19), 2) else none
  | 0x07 =>
    if bit w 25 then some (.endF (some (fld w 18 7, fld w 0 18)), 1)
    else if zeroFld w 0 25 then some (.endF none, 1) else none
  | 0x08 => if bit w 19 then none else some (.spawn (fld w 20 6) (fld w 0 19), 1)
  | 0x09 => decZ w .rcvg
  | 0x0A => if zeroFld w 9 12 then decS ws w (.bara (fld w 22 4) (bit w 21)) else none
  | 0x0B => if zeroFld w 0 21 then some (.barw (fld w 22 4) (bit w 21), 1) else none
  | 0x0C => if zeroFld w 9 12 then decS ws w (.bar (fld w 22 4) (bit w 21)) else none
  | 0x0D => if zeroFld w 9 13 then decS ws w (.cvset (fld w 22 4)) else none
  | 0x0E => if zeroFld w 0 22 then some (.sign (fld w 22 4), 1) else none
  | 0x0F => decZ w .yield
  | 0x10 => if zeroFld w 16 10 then some (.trap (fld w 0 16), 1) else none
  | 0x11 => decZ w .brkpt
  | 0x12 => decZ w .rte
  | 0x13 => do
    let d ← Dst.ofBits (fld w 18 8)
    if zeroFld w 0 6 then some (.rdsys d (fld w 6 12), 1) else none
  | 0x14 => if zeroFld w 9 5 then decS ws w (.wrsys (fld w 14 12)) else none
  | 0x15 => do
    let d ← Dst.ofBits (fld w 18 8)
    if zeroFld w 0 18 then some (.clk d, 1) else none
  | 0x16 => do
    let d ← Dst.ofBits (fld w 18 8)
    if zeroFld w 16 2 then some (.mark d (fld w 0 16), 1) else none
  | 0x17 => do
    let m ← ws[1]?
    let d ← Dst.ofBits (fld w 18 8)
    if zeroFld w 16 2 && zeroFld m 19 13 then some (.cut d (fld w 0 16) (fld m 0 19), 2) else none
  | 0x18 => if zeroFld w 9 17 then decS ws w .graft else none
  | 0x19 =>
    if zeroFld w 9 8 then decDS ws w (fun d a => if bit w 17 then .sdropHold d a else .sdrop d a) else none
  | 0x1A => if zeroFld w 9 9 then decDS ws w .sinfo else none
  | _ => none

/-- Class X (R294-R319). -/
def decX (ws : List Word) (w : Word) : Dec :=
  match (fld w 26 6).toNat with
  | 0x00 => do
    let cv ← signOf w
    if zeroFld w 0 9 then some (.mzero (fld w 20 6) cv (fld w 9 6), 1) else none
  | 0x01 => do
    let m ← ws[1]?
    let cv ← signOf w
    let (e, n) ← takeExt ws 2 [fld w 0 9, fld m 9 9, fld m 0 9]
    let a ← Src.ofBits (fld w 0 9) e
    let b ← Src.ofBits (fld m 9 9) e
    let o ← Src.ofBits (fld m 0 9) e
    if zeroFld w 9 3 && zeroFld m 18 4 then
      some (.mma (fld w 20 6) cv (bit w 14) (bit w 13) (bit w 12) a b o (fld m 27 5) (fld m 22 5), n)
    else none
  | 0x02 => do
    let m ← ws[1]?
    let cv ← signOf w
    let (e, n) ← takeExt ws 2 [fld w 0 9, fld m 0 9]
    let b ← Src.ofBits (fld w 0 9) e
    let o ← Src.ofBits (fld m 0 9) e
    if zeroFld w 9 3 && !bit w 13 && zeroFld m 9 7 then
      some (.mmac (fld w 20 6) cv (bit w 14) (bit w 12) b (fld m 26 6) (fld m 21 5) (fld m 16 5) o, n)
    else none
  | 0x03 => do
    let cv ← signOf w
    decS ws w (.mload (fld w 20 6) cv (bit w 14) (fld w 9 5))
  | 0x04 => do
    let m ← ws[1]?
    let cv ← signOf w
    let conv ← MxConv.ofBits (fld m 29 3)
    let am ← if bit m 28 then (Scope.ofBits (fld m 25 3)).map some
             else if fld m 25 3 == 0 then some none else none
    let (e, n) ← takeExt ws 2 [fld w 0 9, fld m 0 9]
    let a ← Src.ofBits (fld w 0 9) e
    let b ← Src.ofBits (fld m 0 9) e
    if zeroFld m 9 11 then
      some (.mstore (fld w 20 6) cv (bit w 14) (fld w 9 5) a conv am (fld m 20 5) b, n)
    else none
  | 0x05 => do
    let m ← ws[1]?
    let cv ← signOf w
    let (e, n) ← takeExt ws 2 [fld w 0 9, fld m 9 9, fld m 0 9]
    let a ← Src.ofBits (fld w 0 9) e
    let b ← Src.ofBits (fld m 9 9) e
    let l ← Src.ofBits (fld m 0 9) e
    if zeroFld w 9 5 && zeroFld m 18 14 then some (.mgather (fld w 20 6) cv (bit w 14) a b l, n) else none
  | 0x06 => do
    let m ← ws[1]?
    let fa ← MxForm.ofBits (fld w 15 3)
    let fb ← MxForm.ofBits (fld w 12 3)
    let acc ← MxAcc.ofBits (fld w 10 2)
    if zeroFld w 0 7 && zeroFld m 16 16 then
      some (.mshape (fld w 22 4) (fld w 18 4) fa fb acc (bit w 9) (bit w 8) (bit w 7) (fld m 0 16), 2)
    else none
  | 0x07 => do
    let (e, n) ← takeExt ws 1 [fld w 9 9, fld w 0 9]
    let a ← Src.ofBits (fld w 9 9) e
    let b ← Src.ofBits (fld w 0 9) e
    if zeroFld w 18 2 then some (.benq (fld w 20 6) a b, n) else none
  | 0x08 => decZ w .mfence
  | 0x09 => if zeroFld w 9 17 then decS ws w .mreset else none
  | _ => none

/-- An operand that stands only when its bit is set, and is zero otherwise (R48). -/
def optSrc (on : Bool) (f : BitVec 9) (e : Word) : Option (Option Src) :=
  if on then (Src.ofBits f e).map some else if f == 0 then some none else none

/-- The two words shared by `CPYI` and `CPYM` (R270, R274): the handle, bits 20 and 19, off, origin,
status, stage. -/
def decCopy (ws : List Word) (w : Word) (k : Nat)
    (f : BitVec 5 → Bool → Bool → Src → Src → Option Src → Option (BitVec 3 × Src) → Instr) : Dec := do
  let m ← ws[1]?
  let (e, n) ← takeExt ws k [fld w 0 9, fld m 18 9, fld m 9 9, fld m 0 9]
  let a ← Src.ofBits (fld w 0 9) e
  let b ← Src.ofBits (fld m 18 9) e
  let st ← optSrc (bit w 18) (fld m 9 9) e
  let sg ← optSrc (bit w 17) (fld m 0 9) e
  if zeroFld w 9 5 && zeroFld m 27 5 && (bit w 17 || fld w 14 3 == 0) then
    some (f (fld w 21 5) (bit w 20) (bit w 19) a b st (sg.map fun x => (fld w 14 3, x)), n)
  else none

/-- Class K (R266-R286, R361). -/
def decK (ws : List Word) (w : Word) : Dec :=
  match (fld w 26 6).toNat with
  | 0x00 => if zeroFld w 9 12 then decS ws w (.thdl (fld w 21 5)) else none
  | 0x01 => decCopy ws w 2 .cpyi
  | 0x02 => do
    let m ← ws[1]?
    let q ← ws[2]?
    let (e, n) ← takeExt ws 3 [fld w 0 9, fld m 18 9, fld m 9 9, fld m 0 9, fld q 9 9, fld q 0 9]
    let a ← Src.ofBits (fld w 0 9) e
    let b ← Src.ofBits (fld m 18 9) e
    let st ← optSrc (bit w 18) (fld m 9 9) e
    let seed ← optSrc (bit w 20) (fld m 0 9) e
    let stream ← optSrc (bit w 20) (fld q 0 9) e
    let abs ← optSrc (bit w 17) (fld q 9 9) e
    let am ← match abs with
      | some x => (Scope.ofBits (fld w 14 3)).map fun sc => some (sc, x)
      | none => if fld w 14 3 == 0 then some none else none
    let sr := match seed, stream with
      | some x, some y => some (x, y)
      | _, _ => none
    if zeroFld w 9 4 && zeroFld m 27 5 && zeroFld q 18 14 then
      some (.cpyo (fld w 21 5) (bit w 19) (bit w 13) a b st sr am, n)
    else none
  | 0x03 => do
    let q ← ws[2]?
    if zeroFld q 8 24 then
      decCopy ws w 3 fun th pl qd a b st sg => .cpym th pl qd a b st sg (fld q 0 8)
    else none
  | 0x04 =>
    if zeroFld w 9 5 then
      if bit w 17 then
        if zeroFld w 18 8 then decS ws w (.stgpFill (fld w 14 3)) else none
      else decDS ws w (fun d s => .stgpWait d (fld w 14 3) s)
    else none
  | 0x05 => if zeroFld w 9 5 && !bit w 17 then decDS ws w (fun d s => .stgc d (fld w 14 3) s) else none
  | 0x06 => if zeroFld w 9 5 && zeroFld w 17 9 then decS ws w (.stgr (fld w 14 3)) else none
  | 0x07 => if zeroFld w 9 11 then decS ws w (.lease (fld w 20 6)) else none
  | 0x08 => decZ w .lfree
  | 0x09 => decA2 ws w .launch
  | 0x0A => decA2 ws w .gdec
  | 0x0B => do
    let (e, n) ← takeExt ws 1 [fld w 9 9, fld w 0 9]
    let a ← Src.ofBits (fld w 9 9) e
    let b ← Src.ofBits (fld w 0 9) e
    if zeroFld w 18 8 then some (.gcond a b, n) else none
  | _ => none

/-- Class G (R374, R401, R407). -/
def decG (ws : List Word) (w : Word) : Dec :=
  match (fld w 26 6).toNat with
  | 0x00 => if zeroFld w 9 17 then decS ws w .beat else none
  | 0x01 => if zeroFld w 0 7 then some (.rbegin (fld w 20 6) (fld w 14 6) (fld w 7 7), 1) else none
  | 0x02 => decZ w .rcommit
  | 0x03 => decZ w .rabort
  | 0x04 => if bit w 9 then none else decS ws w (.event (fld w 10 16))
  | _ => none

/-- Major opcodes a class assigns (R53). -/
def opcodes : Class → Nat
  | .I => 0x2E | .F => 0x20 | .M => 0x0E | .C => 0x1B | .X => 0x0A | .K => 0x0C | .G => 0x05

/-- The instruction at the head of a clause's remaining words, under the class of its header, and the
words it takes. Words beyond the clause are not there, so an extra word that would lie beyond the count
raises ILLEGAL_ENCODING (R36, R45, R54, R56). -/
def decode (c : Class) (ws : List Word) : Except DecodeErr (Instr × Nat) :=
  match ws with
  | [] => .error .illegalEncoding
  | w :: _ =>
    if opcodes c ≤ (fld w 26 6).toNat then .error .illegalOpcode
    else
      match (match c with
        | .I => decI ws w | .F => decF ws w | .M => decM ws w | .C => decC ws w
        | .X => decX ws w | .K => decK ws w | .G => decG ws w) with
      | none => .error .illegalEncoding
      | some (i, n) => if i.wf then .ok (i, n) else .error .illegalEncoding

/-! ### How many words an instruction takes (R45, R46, R49) -/

/-- Modifier and offset words that follow the first word, by its format. -/
def sideWords (c : Class) (w : Word) : Nat :=
  let op := (fld w 26 6).toNat
  let x := fun (b : Bool) => if b then 1 else 0
  match c with
  | .I => x ([0x06, 0x18, 0x19, 0x1A, 0x24, 0x28, 0x2C, 0x2D].contains op)
  | .F => x ([0x00, 0x01, 0x02, 0x03, 0x09, 0x0A, 0x0B, 0x0E, 0x0F, 0x10, 0x13, 0x14, 0x15, 0x16, 0x1B].contains op)
  | .M => if [0x00, 0x02, 0x04, 0x0A].contains op then x (bit w 3) else if op = 0x01 then x (bit w 2)
      else x ([0x05, 0x06, 0x08, 0x09, 0x0B, 0x0C].contains op)
  | .C => x ([0x06, 0x17].contains op)
  | .X => x ([0x01, 0x02, 0x04, 0x05, 0x06].contains op)
  | .K => if op = 0x02 ∨ op = 0x03 then 2 else x (op == 0x01)
  | .G => 0

/-- The fields that may hold a literal code, by the format; those of a word not given read 0. -/
def literalFields (c : Class) (ws : List Word) : List (BitVec 9) :=
  let w := ws.headD 0
  let m := (ws[1]?).getD 0
  let q := (ws[2]?).getD 0
  let op := (fld w 26 6).toNat
  let a3 := [fld w 9 9, fld w 0 9] ++ (if sideWords c w = 1 then [fld m 0 9] else [])
  match c with
  | .I => if [0x1D, 0x1E, 0x2B].contains op then [] else a3
  | .F => a3
  | .M => match op with
    | 0x00 | 0x02 | 0x04 | 0x0A => [fld w 9 9]
    | 0x01 | 0x03 => [fld w 17 9, fld w 8 9]
    | 0x07 | 0x08 => []
    | _ => a3
  | .C => match op with
    | 0x02 | 0x04 => [fld w 9 9]
    | 0x0A | 0x0C | 0x0D | 0x14 | 0x18 | 0x19 | 0x1A => [fld w 0 9]
    | _ => []
  | .X => match op with
    | 0x01 | 0x05 => [fld w 0 9, fld m 9 9, fld m 0 9]
    | 0x02 | 0x04 => [fld w 0 9, fld m 0 9]
    | 0x03 | 0x09 => [fld w 0 9]
    | 0x07 => [fld w 9 9, fld w 0 9]
    | _ => []
  | .K => match op with
    | 0x00 | 0x04 | 0x05 | 0x06 | 0x07 => [fld w 0 9]
    | 0x01 | 0x03 => [fld w 0 9, fld m 18 9, fld m 9 9, fld m 0 9]
    | 0x02 => [fld w 0 9, fld m 18 9, fld m 9 9, fld m 0 9, fld q 9 9, fld q 0 9]
    | 0x08 => []
    | _ => [fld w 9 9, fld w 0 9]
  | .G => match op with
    | 0x00 | 0x04 => [fld w 0 9]
    | _ => []

/-- The words at hand ask for a further word of their instruction: its side words have not all come, or one of its
fields announces an extension word. -/
def asksMore (c : Class) (ws : List Word) : Bool :=
  ws.length < 1 + sideWords c (ws.headD 0) + (if (literalFields c ws).any (· == extCode) then 1 else 0)

/-! ### The clause header (R32, R33) -/

/-- Class bits; 0b111 names none (R33). -/
def Class.ofBits (b : BitVec 3) : Option Class :=
  match b.toNat with
  | 0 => some .I | 1 => some .F | 2 => some .M | 3 => some .C | 4 => some .X | 5 => some .K
  | 6 => some .G | _ => none

abbrev Class.toBits : Class → BitVec 3
  | .I => 0 | .F => 1 | .M => 2 | .C => 3 | .X => 4 | .K => 5 | .G => 6

abbrev hdrCount (h : Word) : Nat := (fld h 28 4).toNat
abbrev hdrClass (h : Word) : Option Class := Class.ofBits (fld h 25 3)
abbrev hdrWait (h : Word) : BitVec 12 := fld h 13 12
abbrev hdrSetA (h : Word) : BitVec 4 := fld h 9 4
abbrev hdrSetB (h : Word) : BitVec 4 := fld h 5 4
abbrev hdrPol (h : Word) : Bool := bit h 4
abbrev hdrGuard (h : Word) : BitVec 4 := fld h 0 4

/-- The header rules of R32 to R34, in the order of R35. -/
def hdrOk (h : Word) : Bool :=
  (hdrClass h).isSome &&
  !(12 ≤ (hdrSetA h).toNat && (hdrSetA h).toNat ≤ 14) &&
  !(12 ≤ (hdrSetB h).toNat && (hdrSetB h).toNat ≤ 14) &&
  (hdrCount h != 0 || (hdrSetA h == 15 && hdrSetB h == 15))

/-- A header with no wait, no flags and guard p0 (R32). -/
def plainHdr (c : Class) (count : BitVec 4) : Word :=
  count ++ c.toBits ++ (0 : BitVec 12) ++ (15 : BitVec 4) ++ (15 : BitVec 4) ++ (0 : BitVec 5)

/-- Which class a word of the opcode table belongs to is said by its clause header alone (R33); the
table gives no header. The word is therefore read under the classes in the order of R33, and the first
that accepts it gives the instruction (log 6). -/
def decodeAny (ws : List Word) : Option (Class × Instr) :=
  [Class.I, .F, .M, .C, .X, .K, .G].findSome? fun c =>
    match decode c ws with
    | .ok (i, _) => some (c, i)
    | .error _ => none

/-- The words of a table row: the first `nbits` bits from `w`, every word after them zero, as many words
as the longest instruction has (three words and an extension word, R272). -/
def tableWords (nbits w : Nat) : List Word :=
  [BitVec.ofNat 32 (w % 2 ^ nbits), BitVec.ofNat 32 (w % 2 ^ nbits / 2 ^ 32),
   BitVec.ofNat 32 (w % 2 ^ nbits / 2 ^ 64), BitVec.ofNat 32 (w % 2 ^ nbits / 2 ^ 96)]

/-- The instruction the decoder reads from a row of spec/opcode_table.json. -/
def decodeTableWord (nbits w : Nat) : Option Instr := (decodeAny (tableWords nbits w)).map (·.2)

/-! ### The encoder -/

abbrev Dst.toBits : Dst → BitVec 8
  | .v n => (0 : BitVec 2) ++ n
  | .s n => (2 : BitVec 3) ++ n
  | .push c => (4 : BitVec 3) ++ c

abbrev Src.toBits : Src → BitVec 9
  | .v n => (0 : BitVec 3) ++ n
  | .s n => (2 : BitVec 4) ++ n
  | .c n => (2 : BitVec 3) ++ n
  | .inl x => (3 : BitVec 3) ++ x
  | .ext _ => extCode
  | .pop q => (12 : BitVec 4) ++ q
  | .peek q => (8 : BitVec 4) ++ q

/-- The extension word that a list of sources carries. -/
def extOf (l : List Src) : List Word :=
  (l.filterMap fun s => match s with | .ext e => some e | _ => none).take 1

abbrev Size.toBits : Size → BitVec 3
  | .b8 => 0 | .b16 => 1 | .b32 => 2 | .b64 => 3 | .b128 => 4
abbrev Policy.toBits : Policy → BitVec 2
  | .normal => 0 | .stream => 1 | .keep => 2 | .nol1 => 3
abbrev Space.toBits : Space → BitVec 2
  | .global => 0 | .scratch => 1 | .const => 2
abbrev Scope.toBits : Scope → BitVec 3
  | .group => 0 | .team => 1 | .cluster => 2 | .device => 3 | .system => 4
abbrev Order.toBits : Order → BitVec 2
  | .rlx => 0 | .acq => 1 | .rel => 2 | .acqrel => 3
abbrev AtomFn.toBits : AtomFn → BitVec 4
  | .add => 0 | .min => 1 | .max => 2 | .minn => 3 | .maxn => 4 | .and => 5 | .or => 6 | .xor => 7
  | .exch => 8 | .cas => 9 | .fadd => 10 | .kmax => 11
abbrev WaitCc.toBits : WaitCc → BitVec 4
  | .eq => 0 | .ne => 1 | .lt => 2 | .ge => 3 | .ltn => 4 | .gen => 5 | .any => 6 | .none => 7
abbrev Rnd.toBits : Rnd → BitVec 3
  | .dyn => 0 | .rne => 1 | .rtz => 2 | .rdn => 3 | .rup => 4
abbrev IntTy.toBits : IntTy → BitVec 3
  | .i8 => 0 | .i16 => 1 | .i32 => 2 | .i64 => 3 | .n8 => 4 | .n16 => 5 | .n32 => 6 | .n64 => 7
abbrev PlogFn.toBits : PlogFn → BitVec 2
  | .and => 0 | .or => 1 | .xor => 2 | .mov => 3
abbrev ShflMode.toBits : ShflMode → BitVec 2
  | .idx => 0 | .up => 1 | .down => 2 | .xor => 3
abbrev SegW.toBits : SegW → BitVec 3
  | .w32 => 0 | .w16 => 1 | .w8 => 2 | .w4 => 3 | .w2 => 4
abbrev RandOut.toBits : RandOut → BitVec 2
  | .n32 => 0 | .f32 => 1 | .n64 => 2
abbrev RandRounds.toBits : RandRounds → BitVec 2
  | .r2 => 0 | .r4 => 1 | .r6 => 2 | .r8 => 3
abbrev MadMode.toBits : MadMode → BitVec 7
  | .wrap => 0 | .sat => 1 | .satn => 2
abbrev FenceKind.toBits : FenceKind → BitVec 2
  | .full => 0 | .acq => 1 | .rel => 2
abbrev CctlOp.toBits : CctlOp → BitVec 3
  | .l1line => 0 | .l1all => 1 | .cbank => 2 | .icache => 3 | .wb => 4
abbrev MxForm.toBits : MxForm → BitVec 3
  | .k16 => 0 | .k16x4 => 1 | .k32 => 2 | .ci8 => 3 | .ci8x4 => 4 | .ci16 => 5
abbrev MxAcc.toBits : MxAcc → BitVec 2
  | .f32 => 0 | .i32 => 1 | .i64 => 2
abbrev MxConv.toBits : MxConv → BitVec 3
  | .raw => 0 | .tf32 => 1 | .bf16 => 2 | .f16 => 3 | .i8 => 4 | .i16 => 5 | .raw64 => 7
/-- cv and sg of a matrix instruction, bits [19:15] (R299). -/
abbrev signBits : SignCv → BitVec 5
  | none => 0
  | some cv => cv ++ (1 : BitVec 1)
abbrev b1 (b : Bool) : BitVec 1 := BitVec.ofBool b

/-- Format A. -/
abbrev wA (op : BitVec 6) (d : BitVec 8) (a b : BitVec 9) : Word := op ++ d ++ a ++ b
/-- The modifier word of A3. -/
abbrev wMod (md : BitVec 7) (c : BitVec 9) : Word := (0 : BitVec 16) ++ md ++ c
/-- Format P. -/
abbrev wP (op pd : BitVec 6) (cc : BitVec 2) (a b : BitVec 9) : Word := op ++ pd ++ cc ++ a ++ b
/-- Format M. -/
abbrev wM (op : BitVec 6) (d : BitVec 8) (a : BitVec 9) (sz : BitVec 3) (pol : BitVec 2) (x : Bool)
    (low : BitVec 3) : Word := op ++ d ++ a ++ sz ++ pol ++ b1 x ++ low
/-- The second word of AT. -/
abbrev wAT (fn : BitVec 4) (ord : BitVec 2) (sc : BitVec 3) (sz : Bool) (c : BitVec 9) : Word :=
  fn ++ ord ++ sc ++ b1 sz ++ (0 : BitVec 13) ++ c
/-- op, D, zeros, S. -/
abbrev wDS (op : BitVec 6) (d : BitVec 8) (mid : BitVec 9) (s : BitVec 9) : Word := op ++ d ++ mid ++ s
/-- The first word of a matrix instruction: op, at, cv and sg, bits [14:9], S. -/
abbrev wX (op at_ : BitVec 6) (cv : SignCv) (mid : BitVec 6) (s : BitVec 9) : Word :=
  op ++ at_ ++ signBits cv ++ mid ++ s

abbrev encA1 (op : BitVec 6) (d : Dst) (a : Src) : List Word :=
  wA op d.toBits a.toBits 0 :: extOf [a]
abbrev encA2 (op : BitVec 6) (d : Dst) (a b : Src) : List Word :=
  wA op d.toBits a.toBits b.toBits :: extOf [a, b]
abbrev encA3 (op : BitVec 6) (d : Dst) (a b c : Src) (md : BitVec 7) : List Word :=
  wA op d.toBits a.toBits b.toBits :: wMod md c.toBits :: extOf [a, b, c]
abbrev encA3b (op : BitVec 6) (d : Dst) (a b : Src) (md : BitVec 7) : List Word :=
  wA op d.toBits a.toBits b.toBits :: wMod md 0 :: extOf [a, b]
abbrev encA3a (op : BitVec 6) (d : Dst) (a : Src) (md : BitVec 7) : List Word :=
  wA op d.toBits a.toBits 0 :: wMod md 0 :: extOf [a]
abbrev encP (op pd : BitVec 6) (cc : BitVec 2) (a b : Src) : List Word :=
  wP op pd cc a.toBits b.toBits :: extOf [a, b]
abbrev mRnd (r : Rnd) : BitVec 7 := (0 : BitVec 4) ++ r.toBits
abbrev mNeg (nb nc : Bool) (r : BitVec 3) : BitVec 7 := (0 : BitVec 2) ++ b1 nc ++ b1 nb ++ r
abbrev encCopy (op : BitVec 6) (th : BitVec 5) (x y : Bool) (off o : Src) (st : Option Src)
    (sg : Option (BitVec 3 × Src)) : List Word :=
  [op ++ th ++ b1 x ++ b1 y ++ b1 st.isSome ++ b1 sg.isSome ++ (sg.elim 0 (·.1) : BitVec 3) ++
     (0 : BitVec 5) ++ off.toBits,
   (0 : BitVec 5) ++ o.toBits ++ (st.elim 0 Src.toBits : BitVec 9) ++
     (sg.elim 0 (fun p => p.2.toBits) : BitVec 9)]

/-- The words of an encoded instruction, its extra words in the order of R46; nothing for a step of the
machine. -/
def encode : Instr → List Word
  | .mov d a => encA1 0x00 d a
  | .iadd d a b => encA2 0x01 d a b
  | .isub d a b => encA2 0x02 d a b
  | .imul d a b => encA2 0x03 d a b
  | .imulhs d a b => encA2 0x04 d a b
  | .imulhn d a b => encA2 0x05 d a b
  | .imad d a b c m => encA3 0x06 d a b c m.toBits
  | .imin d a b => encA2 0x07 d a b
  | .imax d a b => encA2 0x08 d a b
  | .iminn d a b => encA2 0x09 d a b
  | .imaxn d a b => encA2 0x0A d a b
  | .iabs d a => encA1 0x0B d a
  | .ineg d a => encA1 0x0C d a
  | .andI d a b => encA2 0x0D d a b
  | .orI d a b => encA2 0x0E d a b
  | .xorI d a b => encA2 0x0F d a b
  | .andn d a b => encA2 0x10 d a b
  | .shl d a b => encA2 0x11 d a b
  | .shr d a b => encA2 0x12 d a b
  | .sar d a b => encA2 0x13 d a b
  | .rotl d a b => encA2 0x14 d a b
  | .popc d a => encA1 0x15 d a
  | .clz d a => encA1 0x16 d a
  | .brev d a => encA1 0x17 d a
  | .bfx d a b c sx => encA3 0x18 d a b c ((0 : BitVec 6) ++ b1 sx)
  | .bfi d a b c w => encA3 0x19 d a b c ((0 : BitVec 1) ++ w)
  | .isel d a b neg p => encA3b 0x1A d a b (b1 neg ++ p)
  | .icmps pd cc a b => encP 0x1B pd cc a b
  | .icmpn pd cc a b => encP 0x1C pd cc a b
  | .plog pd fn pa na pb nb =>
    [(0x1D : BitVec 6) ++ pd ++ fn.toBits ++ pa ++ b1 na ++ pb ++ b1 nb ++ (0 : BitVec 4)]
  | .prd d h => [wA 0x1E d.toBits ((0b01100000 : BitVec 8) ++ b1 h) 0]
  | .pwr a h => wA 0x1F 0 a.toBits ((0b01100000 : BitVec 8) ++ b1 h) :: extOf [a]
  | .iadd64 d a b => encA2 0x20 d a b
  | .isub64 d a b => encA2 0x21 d a b
  | .shl64 d a b => encA2 0x22 d a b
  | .shr64 d a b => encA2 0x23 d a b
  | .lea d a b c n sh => encA3 0x24 d a b c ((0 : BitVec 3) ++ b1 n ++ sh)
  | .imulw d a b => encA2 0x25 d a b
  | .iaddw d a b => encA2 0x26 d a b
  | .icmp64 pd cc a b => encP 0x27 pd cc a b
  | .shfl d a b c w m => encA3 0x28 d a b c ((0 : BitVec 2) ++ w.toBits ++ m.toBits)
  | .vote pd cc a => wP 0x29 pd cc a.toBits 0 :: extOf [a]
  | .ballot d a => encA1 0x2A d a
  | .elect pd hi => [wP 0x2B pd ((0 : BitVec 1) ++ b1 hi) 0 0]
  | .cvti d a b sat tt fr => encA3b 0x2C d a b (b1 sat ++ tt.toBits ++ fr.toBits)
  | .rand d a b c o r => encA3 0x2D d a b c ((0 : BitVec 3) ++ o.toBits ++ r.toBits)
  | .fadd d a b r => encA3b 0x00 d a b (mRnd r)
  | .fsub d a b r => encA3b 0x01 d a b (mRnd r)
  | .fmul d a b r => encA3b 0x02 d a b (mRnd r)
  | .ffma d a b c nb nc r => encA3 0x03 d a b c (mNeg nb nc r.toBits)
  | .fmin d a b => encA2 0x04 d a b
  | .fmax d a b => encA2 0x05 d a b
  | .fabs d a => encA1 0x06 d a
  | .fneg d a => encA1 0x07 d a
  | .fcmp pd cc a b => encP 0x08 pd cc a b
  | .frcp d a r => encA3a 0x09 d a (mRnd r)
  | .frsq d a r => encA3a 0x0A d a (mRnd r)
  | .fsqrt d a r => encA3a 0x0B d a (mRnd r)
  | .fexp2 d a => encA1 0x0C d a
  | .flog2 d a => encA1 0x0D d a
  | .ftrig d a c => encA3a 0x0E d a ((0 : BitVec 3) ++ b1 c ++ (0 : BitVec 3))
  | .frnd d a r => encA3a 0x0F d a (mRnd r)
  | .fcvt d a conv r => encA3a 0x10 d a (conv ++ r.toBits)
  | .fclass d a => encA1 0x11 d a
  | .fkey d a => encA1 0x12 d a
  | .fscale d a b r => encA3b 0x13 d a b (mRnd r)
  | .dadd d a b nb r => encA3b 0x14 d a b (mNeg nb false r.toBits)
  | .dmul d a b r => encA3b 0x15 d a b (mRnd r)
  | .dfma d a b c nb nc r => encA3 0x16 d a b c (mNeg nb nc r.toBits)
  | .dcmp pd cc a b => encP 0x17 pd cc a b
  | .tadd d a b => encA2 0x18 d a b
  | .tsub d a b => encA2 0x19 d a b
  | .tmul d a b => encA2 0x1A d a b
  | .tfma d a b c nb nc => encA3 0x1B d a b c (mNeg nb nc 0)
  | .tcmp pd cc a b => encP 0x1C pd cc a b
  | .tneg d a => encA1 0x1D d a
  | .trcp d a => encA1 0x1E d a
  | .trsq d a => encA1 0x1F d a
  | .ld d a off sz pol sp sx =>
    wM 0x00 d.toBits a.toBits sz.toBits pol.toBits off.isSome (sp.toBits ++ b1 sx) ::
      (off.toList ++ extOf [a])
  | .st v a off sz pol sp =>
    ((0x01 : BitVec 6) ++ v.toBits ++ a.toBits ++ sz.toBits ++ pol.toBits ++ b1 off.isSome ++
      sp.toBits) :: (off.toList ++ extOf [v, a])
  | .lda d a off sz pol sc =>
    wM 0x02 d.toBits a.toBits sz.toBits pol.toBits off.isSome sc.toBits :: (off.toList ++ extOf [a])
  | .stl v a sz sc =>
    ((0x03 : BitVec 6) ++ v.toBits ++ a.toBits ++ sz.toBits ++ sc.toBits ++ (0 : BitVec 2)) ::
      extOf [v, a]
  | .ldp d a off sz =>
    wM 0x04 d.toBits a.toBits sz.toBits 0 off.isSome 0 :: (off.toList ++ extOf [a])
  | .atom d a b c fn ord sc sz =>
    wA 0x05 d.toBits a.toBits b.toBits :: wAT fn.toBits ord.toBits sc.toBits sz c.toBits ::
      extOf [a, b, c]
  | .red a b fn sc sz =>
    wA 0x06 0 a.toBits b.toBits :: wAT fn.toBits 0 sc.toBits sz 0 :: extOf [a, b]
  | .redf => [0x1C000000]
  | .fence k sc => [0x20000000, wMod (k.toBits ++ sc.toBits ++ (0 : BitVec 2)) 0]
  | .waitc d a b cc sc sz =>
    wA 0x09 d.toBits a.toBits b.toBits :: wAT cc.toBits 1 sc.toBits sz 0 :: extOf [a, b]
  | .pref a off line pol =>
    wM 0x0A 0 a.toBits ((0 : BitVec 2) ++ b1 line) pol.toBits off.isSome 0 ::
      (off.toList ++ extOf [a])
  | .cctl a op => wA 0x0B 0 a.toBits 0 :: wMod ((0 : BitVec 4) ++ op.toBits) 0 :: extOf [a]
  | .chcfg a b w64 ch =>
    wA 0x0C 0 a.toBits b.toBits :: wMod ((0 : BitVec 1) ++ b1 w64 ++ ch) 0 :: extOf [a, b]
  | .chstat d n => encA1 0x0D d n
  | .nop => [0x00000000]
  | .bra p neg off => [(0x01 : BitVec 6) ++ p ++ b1 neg ++ off]
  | .brx a => wA 0x02 0 a.toBits 0 :: extOf [a]
  | .call p neg off => [(0x03 : BitVec 6) ++ p ++ b1 neg ++ off]
  | .callx a => wA 0x04 0 a.toBits 0 :: extOf [a]
  | .ret => [0x14000000]
  | .fork pd n off => [(0x06 : BitVec 6) ++ pd ++ n ++ (0 : BitVec 13), (0 : BitVec 13) ++ off]
  | .endF none => [0x1C000000]
  | .endF (some (k, off)) => [(0x07 : BitVec 6) ++ (1 : BitVec 1) ++ k ++ off]
  | .spawn pd off => [(0x08 : BitVec 6) ++ pd ++ (0 : BitVec 1) ++ off]
  | .rcvg => [0x24000000]
  | .bara b g c => ((0x0A : BitVec 6) ++ b ++ b1 g ++ (0 : BitVec 12) ++ c.toBits) :: extOf [c]
  | .barw b g => [(0x0B : BitVec 6) ++ b ++ b1 g ++ (0 : BitVec 21)]
  | .bar b g c => ((0x0C : BitVec 6) ++ b ++ b1 g ++ (0 : BitVec 12) ++ c.toBits) :: extOf [c]
  | .cvset cv n => ((0x0D : BitVec 6) ++ cv ++ (0 : BitVec 13) ++ n.toBits) :: extOf [n]
  | .sign cv => [(0x0E : BitVec 6) ++ cv ++ (0 : BitVec 22)]
  | .yield => [0x3C000000]
  | .trap code => [(0x10 : BitVec 6) ++ (0 : BitVec 10) ++ code]
  | .brkpt => [0x44000000]
  | .rte => [0x48000000]
  | .rdsys d n => [(0x13 : BitVec 6) ++ d.toBits ++ n ++ (0 : BitVec 6)]
  | .wrsys n a => ((0x14 : BitVec 6) ++ n ++ (0 : BitVec 5) ++ a.toBits) :: extOf [a]
  | .clk d => [wA 0x15 d.toBits 0 0]
  | .mark d id => [(0x16 : BitVec 6) ++ d.toBits ++ (0 : BitVec 2) ++ id]
  | .cut d id off => [(0x17 : BitVec 6) ++ d.toBits ++ (0 : BitVec 2) ++ id, (0 : BitVec 13) ++ off]
  | .graft a => wDS 0x18 0 0 a.toBits :: extOf [a]
  | .sdrop d a => wDS 0x19 d.toBits 0 a.toBits :: extOf [a]
  | .sdropHold d a => wDS 0x19 d.toBits 0x100 a.toBits :: extOf [a]
  | .sinfo d a => wDS 0x1A d.toBits 0 a.toBits :: extOf [a]
  | .mzero at_ cv n1 => [wX 0x00 at_ cv n1 0]
  | .mma at_ cv z ha hb a b o tha thb =>
    wX 0x01 at_ cv (b1 z ++ b1 ha ++ b1 hb ++ (0 : BitVec 3)) a.toBits ::
      (tha ++ thb ++ (0 : BitVec 4) ++ b.toBits ++ o.toBits) :: extOf [a, b, o]
  | .mmac at_ cv z hb b as_ sh thb o =>
    wX 0x02 at_ cv (b1 z ++ (0 : BitVec 1) ++ b1 hb ++ (0 : BitVec 3)) b.toBits ::
      (as_ ++ sh ++ thb ++ (0 : BitVec 7) ++ o.toBits) :: extOf [b, o]
  | .mload at_ cv t n1 a => wX 0x03 at_ cv (b1 t ++ n1) a.toBits :: extOf [a]
  | .mstore at_ cv t n1 a conv am sh addr =>
    wX 0x04 at_ cv (b1 t ++ n1) a.toBits ::
      (conv.toBits ++ b1 am.isSome ++ (am.elim 0 Scope.toBits : BitVec 3) ++ sh ++ (0 : BitVec 11) ++
        addr.toBits) :: extOf [a, addr]
  | .mgather at_ cv z a b l =>
    wX 0x05 at_ cv (b1 z ++ (0 : BitVec 5)) a.toBits :: ((0 : BitVec 14) ++ b.toBits ++ l.toBits) ::
      extOf [a, b, l]
  | .mshape mt nt fa fb acc sa sb q k =>
    [(0x06 : BitVec 6) ++ mt ++ nt ++ fa.toBits ++ fb.toBits ++ acc.toBits ++ b1 sa ++ b1 sb ++ b1 q ++
       (0 : BitVec 7), (0 : BitVec 16) ++ k]
  | .benq pd row res => wP 0x07 pd 0 row.toBits res.toBits :: extOf [row, res]
  | .mfence => [0x20000000]
  | .mreset a => wDS 0x09 0 0 a.toBits :: extOf [a]
  | .thdl th q => ((0x00 : BitVec 6) ++ th ++ (0 : BitVec 12) ++ q.toBits) :: extOf [q]
  | .cpyi th pl b off o st sg =>
    encCopy 0x01 th pl b off o st sg ++ extOf ([off, o] ++ st.toList ++ sg.toList.map (·.2))
  | .cpyo th b tf off o st sr am =>
    [(0x02 : BitVec 6) ++ th ++ b1 sr.isSome ++ b1 b ++ b1 st.isSome ++ b1 am.isSome ++
       (am.elim 0 (fun x => x.1.toBits) : BitVec 3) ++ b1 tf ++ (0 : BitVec 4) ++ off.toBits,
     (0 : BitVec 5) ++ o.toBits ++ (st.elim 0 Src.toBits : BitVec 9) ++
       (sr.elim 0 (fun x => x.1.toBits) : BitVec 9),
     (0 : BitVec 14) ++ (am.elim 0 (fun x => x.2.toBits) : BitVec 9) ++
       (sr.elim 0 (fun x => x.2.toBits) : BitVec 9)] ++
      extOf ([off, o] ++ st.toList ++ sr.toList.map (·.1) ++ am.toList.map (·.2) ++ sr.toList.map (·.2))
  | .cpym th pl q off o st sg mask =>
    encCopy 0x03 th pl q off o st sg ++ [(0 : BitVec 24) ++ mask] ++
      extOf ([off, o] ++ st.toList ++ sg.toList.map (·.2))
  | .stgpWait d n s => wDS 0x04 d.toBits ((0 : BitVec 1) ++ n ++ (0 : BitVec 5)) s.toBits :: extOf [s]
  | .stgpFill n s => wDS 0x04 0 ((1 : BitVec 1) ++ n ++ (0 : BitVec 5)) s.toBits :: extOf [s]
  | .stgc d n s => wDS 0x05 d.toBits ((0 : BitVec 1) ++ n ++ (0 : BitVec 5)) s.toBits :: extOf [s]
  | .stgr n s => wDS 0x06 0 ((0 : BitVec 1) ++ n ++ (0 : BitVec 5)) s.toBits :: extOf [s]
  | .lease pd p => ((0x07 : BitVec 6) ++ pd ++ (0 : BitVec 11) ++ p.toBits) :: extOf [p]
  | .lfree => [0x20000000]
  | .launch d t a => encA2 0x09 d t a
  | .gdec d n a => encA2 0x0A d n a
  | .gcond n v => wA 0x0B 0 n.toBits v.toBits :: extOf [n, v]
  | .beat n => wDS 0x00 0 0 n.toBits :: extOf [n]
  | .rbegin pd f n => [(0x01 : BitVec 6) ++ pd ++ f ++ n ++ (0 : BitVec 7)]
  | .rcommit => [0x08000000]
  | .rabort => [0x0C000000]
  | .event code a => ((0x04 : BitVec 6) ++ code ++ (0 : BitVec 1) ++ a.toBits) :: extOf [a]
  | _ => []

/-- Words an instruction takes. -/
abbrev Instr.words (i : Instr) : Nat := (encode i).length

end Sys2Proof
end

