-- ==== Sys2Proof/Machine/Tables.lean ====
section
/-!
DEFINITION. Reading and replacing the entries of the state's tables, free choices, and the accessors of
registers, predicates, flags and scalars.
-/

namespace Sys2Proof.Machine

open Sys2Proof

/-! ### Tables -/

abbrev State.group? (s : State) (gid : Nat) : Option Group := s.groups.find? fun g => g.gid = gid
abbrev State.team? (s : State) (tid : Nat) : Option Team := s.teams.find? fun t => t.tid = tid
abbrev State.op? (s : State) (id : Nat) : Option Op := s.ops.find? fun o => o.id = id
abbrev State.req? (s : State) (id : Nat) : Option Req := s.reqs.find? fun r => r.id = id

/-- A core's state; a core not listed is a fresh one. -/
def State.coreOf (s : State) (c : Nat) : Core := (s.cores.find? fun k => k.cid = c).getD { cid := c }
/-- A context's state; a context not listed is a fresh one. -/
def State.ctxOf (s : State) (a : Nat) : Ctx := (s.ctxs.find? fun k => k.asid = a).getD { asid := a }
/-- A cluster as it is when nothing has happened in it: its clock has run at step 0 since power-up, seven edges in
ten nanoseconds (R3, R237). -/
abbrev freshCluster (now c : Nat) : Cluster := { num := c, cycles := now * 7 / 10, tenths := now * 7 % 10 }
/-- A cluster's state; a cluster not listed is a fresh one. -/
def State.clusterOf (s : State) (c : Nat) : Cluster :=
  (s.clusters.find? fun k => k.num = c).getD (freshCluster s.now c)
/-- A die's Crozier; one not listed is a fresh one. -/
def State.crozOf (s : State) (d : Nat) : Croz := (s.crozs.find? fun k => k.die = d).getD { die := d }

/-- The group numbered `gid` rewritten. -/
def State.updGroup (s : State) (gid : Nat) (f : Group → Group) : State :=
  { s with groups := s.groups.map fun g => if g.gid = gid then f g else g }
/-- The group numbered `gid`, resident or of a saved team. -/
def State.anyGroup? (s : State) (gid : Nat) : Option Group :=
  match s.group? gid with
  | some g => some g
  | none => s.teams.findSome? fun t => t.parked.find? fun g => g.gid = gid
/-- The group numbered `gid` rewritten, resident or of a saved team. -/
def State.updAny (s : State) (gid : Nat) (f : Group → Group) : State :=
  let h := fun (g : Group) => if g.gid = gid then f g else g
  { s with groups := s.groups.map h, teams := s.teams.map fun t => { t with parked := t.parked.map h } }
/-- The team numbered `tid` rewritten. -/
def State.updTeam (s : State) (tid : Nat) (f : Team → Team) : State :=
  { s with teams := s.teams.map fun t => if t.tid = tid then f t else t }
/-- The operation numbered `id` rewritten. -/
def State.updOp (s : State) (id : Nat) (f : Op → Op) : State :=
  { s with ops := s.ops.map fun o => if o.id = id then f o else o }
/-- The core numbered `c` rewritten, listed if it was not. -/
def State.updCore (s : State) (c : Nat) (f : Core → Core) : State :=
  { s with cores := if s.cores.any fun k => k.cid = c
      then s.cores.map fun k => if k.cid = c then f k else k
      else s.cores ++ [f { cid := c }] }
/-- The context numbered `a` rewritten, listed if it was not. -/
def State.updCtx (s : State) (a : Nat) (f : Ctx → Ctx) : State :=
  { s with ctxs := if s.ctxs.any fun k => k.asid = a
      then s.ctxs.map fun k => if k.asid = a then f k else k
      else s.ctxs ++ [f { asid := a }] }
/-- The cluster numbered `c` rewritten, listed if it was not. -/
def State.updCluster (s : State) (c : Nat) (f : Cluster → Cluster) : State :=
  { s with clusters := if s.clusters.any fun k => k.num = c
      then s.clusters.map fun k => if k.num = c then f k else k
      else s.clusters ++ [f (freshCluster s.now c)] }
/-- The Crozier of die `d` rewritten, listed if it was not. -/
def State.updCroz (s : State) (d : Nat) (f : Croz → Croz) : State :=
  { s with crozs := if s.crozs.any fun k => k.die = d
      then s.crozs.map fun k => if k.die = d then f k else k
      else s.crozs ++ [f { die := d }] }

/-- Grant of actuator `a` of a context: its position until an allocation has included it (R378). -/
def Gov.grantOf (g : Gov) (a : Nat) : Nat := (if g.granted then vget g.grant a 0 else vget g.pos a 0).toNat % 65536

/-- Die and cluster of a core (R231 COREID). -/
abbrev dieOf (core : Nat) : Nat := core / 256
abbrev clusterNo (core : Nat) : Nat := core / 8

/-- A new number for an operation, a request, a walk or a record. -/
abbrev State.fresh (s : State) : State := { s with serial := s.serial + 1 }

/-- One of `n` possibilities that the manual leaves open (R204, log 2). A single possibility is taken
without a choice. -/
def State.choose (s : State) (n : Nat) : Nat × State :=
  if n ≤ 1 then (0, s) else (Config.freeChoice s.tick % n, { s with tick := s.tick + 1 })

/-- A byte that the manual leaves undefined. -/
def State.freeByte (s : State) : Byte × State :=
  (Config.freeByte s.tick, { s with tick := s.tick + 1 })

/-! ### Fibres -/

/-- A lane of a group. -/
abbrev Group.lane (g : Group) (i : Nat) : Fibre := vget g.lanes i {}
/-- A lane replaced. -/
abbrev Group.setLane (g : Group) (i : Nat) (x : Fibre) : Group := { g with lanes := vset g.lanes i x }
/-- The lanes of a mask rewritten, each by its number. -/
def Group.updLanes (g : Group) (m : BitVec 32) (f : Nat → Fibre → Fibre) : Group :=
  { g with lanes := mapLanes g.lanes fun i x => if m.getLsbD i then f i x else x }

/-- Register n; registers above 63 do not exist and read 0. -/
abbrev Fibre.reg (x : Fibre) (n : Nat) : Word := vget x.regs n 0
/-- A register written. -/
abbrev Fibre.setReg (x : Fibre) (n : Nat) (v : Word) : Fibre := { x with regs := vset x.regs n v }
/-- Predicate p; p0 reads true (R58). -/
abbrev Fibre.pred (x : Fibre) (p : Nat) : Bool := p == 0 || x.preds.getLsbD p
/-- A predicate written; a write to p0 is discarded (R50, R58). -/
def Fibre.setPred (x : Fibre) (p : Nat) (v : Bool) : Fibre :=
  if p = 0 then x else { x with preds := setBits x.preds p 1 (if v then 1 else 0) }

/-- The value in `n` consecutive registers, lowest first (R43). -/
def Fibre.wide (x : Fibre) (r n : Nat) : Nat :=
  leNat ((List.range n).flatMap fun i => leBytes 4 (x.reg (r + i)).toNat)
/-- A value written to `n` consecutive registers, lowest first (R43). -/
def Fibre.setWide (x : Fibre) (r n v : Nat) : Fibre :=
  (List.range n).foldl (fun x i => x.setReg (r + i) (BitVec.ofNat 32 (v / 2 ^ (32 * i)))) x

/-- Scalar n. -/
abbrev Group.scalar (g : Group) (n : Nat) : Word := vget g.scal n 0
def Group.scalarWide (g : Group) (r n : Nat) : Nat :=
  leNat ((List.range n).flatMap fun i => leBytes 4 (g.scalar (r + i)).toNat)
def Group.setScalar (g : Group) (r n v : Nat) : Group :=
  (List.range n).foldl
    (fun g i => { g with scal := vset g.scal (r + i) (BitVec.ofNat 32 (v / 2 ^ (32 * i))) }) g

/-- Live statuses (R59). -/
abbrev FStatus.live : FStatus → Bool
  | .empty | .endedSucc | .ended => false
  | _ => true

/-- Lanes of a group whose fibre meets a test. -/
abbrev Group.lanesWhere (g : Group) (p : Fibre → Bool) : BitVec 32 := maskIf fun i => p (g.lane i)

/-- Live lanes of a group. -/
abbrev Group.liveLanes (g : Group) : BitVec 32 := g.lanesWhere fun x => x.status.live

/-- The words between a group's fibres as they stand; a fibre released while its group is halted takes
status 0b111 (R230). -/
abbrev Group.released (g : Group) : FStatus := if g.halted then .halted else .running

/-- Writes a result to a destination: a register in the lanes of the list, a scalar from the lead lane
(R44). Widths are in registers. -/
def Group.writeDst (g : Group) (d : Dst) (n : Nat) (lead : Nat) (vals : List (Nat × Nat)) : Group :=
  match d with
  | .v r => vals.foldl (fun g p => g.setLane p.1 ((g.lane p.1).setWide r.toNat n p.2)) g
  | .s r => match assoc vals lead with
    | some v => g.setScalar r.toNat n v
    | none => g
  | .push _ => g

/-! ### Operations of a group or a core -/

abbrev State.groupOps (s : State) (gid : Nat) : List Op := s.ops.filter fun o => o.gid = gid
abbrev State.coreOps (s : State) (c : Nat) : List Op := s.ops.filter fun o => o.core = c
abbrev State.teamGroups (s : State) (tid : Nat) : List Group := s.groups.filter fun g => g.tid = tid
abbrev State.teamOf? (s : State) (gid : Nat) : Option Team :=
  (s.group? gid).bind fun g => s.team? g.tid

/-- Context of a group's team. -/
abbrev State.asidOf (s : State) (gid : Nat) : Nat := ((s.teamOf? gid).map (·.asid)).getD 0

end Sys2Proof.Machine
end

