-- ==== Sys2Proof/Machine/Flags.lean ====
section
/-!
DEFINITION. Flags: the completion flags of a group and the operations that count against them (R38,
R39), the scoreboard (R40), and the status flags of floating point in FPCTL (R117, R119).
-/

namespace Sys2Proof.Machine

open Sys2Proof

/-- Completion flag i. -/
abbrev Group.flag (g : Group) (i : Nat) : BitVec 6 := vget g.flags i 0
/-- A flag raised by one (R38). -/
abbrev Group.incFlag (g : Group) (i : Nat) : Group := { g with flags := vset g.flags i (g.flag i + 1) }
/-- A flag lowered by one, never below 0 (R38). -/
abbrev Group.decFlag (g : Group) (i : Nat) : Group :=
  { g with flags := vset g.flags i (if g.flag i = 0 then 0 else g.flag i - 1) }

/-- The flags that a header's set fields name, each once (R32, R38). -/
def setFlags (hdr : Word) : List Nat :=
  let a := (hdrSetA hdr).toNat
  let b := (hdrSetB hdr).toNat
  (if a < 12 then [a] else []) ++ (if b < 12 ∧ b ≠ a then [b] else [])

/-- A flag that an issue would take past 63 (R38). -/
def Group.saturated (g : Group) (fs : List Nat) : Bool := fs.any fun i => g.flag i == 63

/-- Every flag that a wait mask names reads zero (R35). -/
def Group.maskClear (g : Group) (hdr : Word) : Bool :=
  (List.range 12).all fun i => !(hdrWait hdr).getLsbD i || g.flag i == 0

/-- An operation put in flight; the flags it names rise by one each (R38). -/
def State.addOp (s : State) (o : Op) : State :=
  { (s.updGroup o.gid fun g => o.flags.foldl Group.incFlag g) with
    ops := s.ops ++ [{ o with id := s.serial }], serial := s.serial + 1 }

/-- Flags of a group fall by one each, in a saved team's record too (R25, R38). -/
def State.lowerFlags (s : State) (gid : Nat) (fs : List Nat) : State :=
  let f := fun (g : Group) => if g.gid = gid then fs.foldl Group.decFlag g else g
  { s with groups := s.groups.map f, teams := s.teams.map fun t => { t with parked := t.parked.map f } }

/-- An operation completes for some lanes; when none is left it ends and its flags fall (R38). -/
def State.finishLanes (s : State) (id : Nat) (m : BitVec 32) : State :=
  match s.op? id with
  | none => s
  | some o =>
    if without o.lanes m = 0 then
      { s.lowerFlags o.gid o.flags with ops := s.ops.filter fun q => q.id ≠ id }
    else s.updOp id fun q => { q with lanes := without o.lanes m }

/-- An operation completes as a whole. -/
abbrev State.finishOp (s : State) (id : Nat) : State := s.finishLanes id (BitVec.allOnes 32)

/-- Writes of a register that are complete only now: the fibres they hold go on (R233). -/
def settleWrites (s : State) (i : Instr) : State :=
  (s.ops.filter fun o => match o.kind with | .stageWait j _ => j == i | _ => false).foldl (fun s o => s.finishOp o.id) s

/-! ### The scoreboard (R40) -/

/-- Registers a field covers: fibre registers and scalars, by number. -/
def srcRegs (o : Opd) : List Nat × List Nat :=
  match o.src with
  | .v n => ((List.range o.kind.regs).map (n.toNat + ·), [])
  | .s n => ([], (List.range o.kind.regs).map (n.toNat + ·))
  | _ => ([], [])

def dstRegs (d : Dst) (n : Nat) : List Nat × List Nat :=
  match d with
  | .v r => ((List.range n).map (r.toNat + ·), [])
  | .s r => ([], (List.range n).map (r.toNat + ·))
  | .push _ => ([], [])

/-- Fibre registers, scalars and predicates an instruction reads or writes. -/
def touches (i : Instr) : List Nat × List Nat × List Nat :=
  let sh := shape i
  let srcs := sh.srcs.map srcRegs
  let extra : List (List Nat × List Nat) := match i with
    | .fork _ n _ => [((List.range n.toNat), [])]
    | .rbegin _ f n => [((List.range n.toNat).map (f.toNat + ·), [])]
    | .spawn .. => [((List.range 8), [])]
    | _ => []
  let dst := match sh.dst with
    | some (d, k) => [dstRegs d k.regs]
    | none => []
  let all := srcs ++ dst ++ extra
  (all.flatMap (·.1), all.flatMap (·.2), (sh.pr ++ sh.pw).map BitVec.toNat)

/-- A lane's fibre waits on the scoreboard: an operation of its group still has to write a register or
a predicate among those named. -/
def laneBlocked (ops : List Op) (lane : Nat) (t : List Nat × List Nat × List Nat) : Bool :=
  ops.any fun o =>
    (o.lanes.getLsbD lane && (
      (match o.dst with
       | some (.v r, n) => (List.range n).any fun i => t.1.contains (r.toNat + i)
       | _ => false) ||
      o.preds.any fun p => p != 0 && t.2.2.contains p.toNat)) ||
    (o.mask.getLsbD lane && o.lanes.getLsbD o.lead &&
      (match o.dst with
       | some (.s r, n) => (List.range n).any fun i => t.2.1.contains (r.toNat + i)
       | _ => false))

/-- An operation that holds its fibres until it completes: the pop of `RET` (R81), a slice instruction
(R344), a grid-scope arrival (R89). -/
def laneHeld (ops : List Op) (lane : Nat) : Bool := ops.any fun o => o.holds && o.lanes.getLsbD lane

/-- A group has an outstanding register write in some lane (R76). -/
def pendingWrites (ops : List Op) : Bool := ops.any fun o => o.dst.isSome || !o.preds.isEmpty

/-! ### Floating-point status (R117, R119) -/

/-- Flags raised in FPCTL[13:8]. -/
abbrev orFlags (fpctl : Word) (fl : BitVec 6) : Word := fpctl ||| (fl.setWidth 32 <<< 8)

end Sys2Proof.Machine
end

