-- ==== Sys2Proof/Machine/Xlate.lean ====
section
/-!
DEFINITION. Translation: the page walk of both stages (R156, R158), permissions, the TLBs, and the
results an access check can have.
-/

namespace Sys2Proof.Machine

open Sys2Proof

/-! ### Walks -/

/-- Why a walk fails: level, stage 2, cause (R164). `migrating` is a valid leaf with M = 1 (R157). -/
inductive WalkErr where
  | bad (level : Nat) (s2 : Bool) (cause : Nat) (gpa : Nat)
  | migrating
  /-- a remote address, or one of more than 56 bits: no table is read (R150, R156) -/
  | range
  /-- an entry that holds an uncorrectable error (R29) -/
  | data
  deriving DecidableEq, Repr

/-- Kinds of access (R164): load, store, atomic, fetch, an engine that reads or writes. -/
inductive AccKind where
  | load | store | atomic | fetch | engine (w : Bool)
  deriving DecidableEq, Repr

abbrev AccKind.code : AccKind → Nat
  | .load => 0 | .store => 1 | .atomic => 2 | .fetch => 3 | .engine _ => 4

/-- A table entry keeps the rules of R156: reserved bits zero, alignment of the next node. -/
def tableOk (level : Nat) (e : Dword) : Bool :=
  dbits e 52 12 == 0 && dbits e 4 8 == 0 && dbits e 1 2 == 0 && (level == 2 || dbits e 12 4 == 0)

/-- A leaf keeps the rules of R156: reserved bits zero, a 32 MiB frame aligned, a target that its home
allows. -/
def leafOk (level : Nat) (e : Dword) : Bool :=
  dbits e 52 1 == 0 && dbits e 9 5 == 0 && dbits e 1 1 == 0 && (level == 3 || dbits e 16 9 == 0) &&
  (match dbits e 14 2 with
   | 1 => dbits e 61 3 == 0
   | 2 => true
   | _ => dbits e 53 11 == 0)

/-- The levels of a walk: number, lowest bit of the index, width of the index (R156). -/
def walkLevels : List (Nat × Nat × Nat) := [(0, 51, 5), (1, 38, 13), (2, 25, 13), (3, 16, 9)]

/-- One stage of a walk from the node at `node`: the leaf, its address, its level, and the stage-2 leaves used on the
way. `node2` turns a node address into the physical address it is read at; `bad` tells of an uncorrectable error there
(R29). -/
def walkStage (mem : List Host.Cell) (bad : Nat → Bool) (s2 : Bool) (node2 : Nat → Except WalkErr (Nat × List Nat)) (va gpa : Nat) :
    List (Nat × Nat × Nat) → Nat → Except WalkErr (Dword × Nat × Nat × List Nat)
  | [], _ => .error (.bad 3 s2 1 gpa)
  | (lv, sh, n) :: rest, node =>
    match node2 (node + 8 * nbits va sh n) with
    | .error e => .error e
    | .ok (a, used) =>
      let e := Mem.read64 mem a
      if bad a then .error .data
      else if !e.getLsbD 0 then .error (.bad lv s2 0 gpa)
      else if e.getLsbD 3 then
        if lv < 2 || !leafOk lv e then .error (.bad lv s2 1 gpa)
        else if e.getLsbD 2 then .error .migrating
        else .ok (e, a, lv, used)
      else if lv == 3 || !tableOk lv e then .error (.bad lv s2 1 gpa)
      else (walkStage mem bad s2 node2 va gpa rest (dbits e 12 40 * 4096)).map fun p => (p.1, p.2.1, p.2.2.1, used ++ p.2.2.2)

/-- The byte of a leaf's page that an address names. -/
abbrev leafPa (e : Dword) (lv va : Nat) : Nat :=
  if lv = 2 then dbits e 25 27 * 2 ^ 25 + va % 2 ^ 25 else dbits e 16 36 * 2 ^ 16 + va % 2 ^ 16

/-- The partition table's guest entry of a context, as its offset in the management window (R422). -/
def guestEntry (mgmt : List Host.Cell) (asid : Nat) : Option Nat :=
  ((List.range 16).flatMap fun k => (List.range 64).map fun g => 0x60000 + 0x1000 * k + 0x800 + 32 * g).find?
    fun o => wbits (Mem.read32 mgmt o) 0 12 == asid && (Mem.read mgmt o 24).any (· != 0)

/-- A context is a guest when a partition names it (R422). An empty management window names none. -/
def isGuest (mgmt : List Host.Cell) (asid : Nat) : Bool := !mgmt.isEmpty && (guestEntry mgmt asid).isSome

/-- Result of a walk: the translation, the first byte of the page and its size, the leaf entries whose accessed bits
the walker sets, and, of a guest, whether stage 1 alone allows reads, writes and fetches, the guest-physical address
and the level of the stage-2 leaf. -/
structure WalkRes where
  tr : Trans
  page : Nat
  big : Bool
  leaves : List Nat
  r1 : Bool := true
  w1 : Bool := true
  x1 : Bool := true
  gpa : Option Nat := none
  level2 : Nat := 0
  deriving DecidableEq, Repr

/-- A table entry holds an uncorrectable error now (R29). -/
abbrev State.badEntry (s : State) (a : Nat) : Bool := s.bad.contains (a / 128) && Config.errorPersists s.tick (a / 128)

/-- Stage 2 of a guest-physical address, read with VA[55:52] as zero (R158): physical address, leaf entry, its address
and its level. -/
def walk2 (s : State) (c : Ctx) (gpa : Nat) : Except WalkErr (Nat × Dword × Nat × Nat) :=
  match walkStage s.mem s.badEntry true (fun a => .ok (a, [])) (gpa % 2 ^ 52) gpa walkLevels (dbits c.xls2root 8 44 * 256) with
  | .error e => .error e
  | .ok (e, a, lv, _) => .ok (leafPa e lv gpa, e, a, lv)

/-- The page of an address in a core-pinned window (R154, R163). -/
def pinnedHere (s : State) (core va : Nat) : Bool :=
  let k := s.coreOf core
  let n := dbits k.cpwin 0 2
  (n ≥ 1 && dbits k.cpwin 16 40 == nbits va 16 40) ||
  (n ≥ 2 && dbits k.cpwinb 16 40 == nbits va 16 40)

/-- A whole walk of a context's address (R156, R158). The combined translation of a guest takes home and target of its
stage-1 leaf and the U bit of that leaf alone; reads of stage-1 nodes need no R of stage 2 (DESIGN CHOICE, log 26). -/
def walk (s : State) (asid va : Nat) : Except WalkErr WalkRes :=
  if 2 ^ 56 ≤ va ∨ nbits va 52 4 = 0xE then .error .range
  else
  let c := s.ctxOf asid
  let guest := isGuest s.host.mgmt asid
  let node2 : Nat → Except WalkErr (Nat × List Nat) := fun a =>
    if guest then (walk2 s c a).map fun p => (p.1, [p.2.2.1]) else .ok (a, [])
  match walkStage s.mem s.badEntry false node2 va 0 walkLevels (dbits c.xlroot 8 44 * 256) with
  | .error e => .error e
  | .ok (e, a, lv, used) =>
    let tr : Trans :=
      { pa := leafPa e lv va, gen := c.gen, home := BitVec.ofNat 2 (dbits e 14 2), target := dbits e 53 11,
        r := e.getLsbD 6, w := e.getLsbD 7, x := e.getLsbD 8, u := e.getLsbD 5, level := lv, asid := asid }
    if guest then
      match walk2 s c tr.pa with
      | .error e => .error e
      | .ok (pa, e2, a2, lv2) =>
        .ok { tr := { tr with pa := pa, r := tr.r && e2.getLsbD 6, w := tr.w && e2.getLsbD 7,
                              x := tr.x && e2.getLsbD 8 },
              page := va / 2 ^ 16 * 2 ^ 16, big := false, leaves := a :: a2 :: used
              r1 := tr.r, w1 := tr.w, x1 := tr.x, gpa := some tr.pa, level2 := lv2 }
    else
      .ok { tr := tr, page := if lv = 2 then va / 2 ^ 25 * 2 ^ 25 else va / 2 ^ 16 * 2 ^ 16,
            big := lv = 2, leaves := [a] }

/-- Remote addresses: VA[55:52] = 0xE (R150, R393). -/
abbrev isRemote (va : Nat) : Bool := nbits va 52 4 == 0xE

/-- A walk meets M = 1 at a valid leaf, and waits (R157). -/
def pageMigrates (s : State) (asid va : Nat) : Bool :=
  match walk s asid va with
  | .error .migrating => true
  | _ => false

/-! ### Permissions and faults -/

/-- The leaf allows the access (R156). Atomics need R and W; privileged mode ignores U. -/
def permOk (tr : Trans) (k : AccKind) (user : Bool) : Bool :=
  (match k with
   | .load => tr.r
   | .store => tr.w
   | .atomic => tr.r && tr.w
   | .fetch => tr.x
   | .engine w => if w then tr.w else tr.r) && (!user || tr.u)

/-- XLFAULTINFO of a failing lane (R164). -/
def xlInfoOf (lane level : Nat) (s2 retry : Bool) (k : AccKind) (cause : Nat) : Nat :=
  lane * 2 ^ 11 + level * 2 ^ 9 + (if s2 then 2 ^ 8 else 0) + (if retry then 2 ^ 7 else 0) +
    k.code * 2 ^ 4 + cause

/-- A fault of R151 that no walk raised: its code, the address, cause 3, 4 or 5 (R164). -/
def checkFault (code : BitVec 8) (addr : Nat) (lane : Nat) (k : AccKind) (cause : Nat) : FaultRec :=
  { cause := code, addr := BitVec.ofNat 64 addr,
    xl := some (BitVec.ofNat 64 addr, BitVec.ofNat 64 (xlInfoOf lane 0 false false k cause)) }

/-- A TRANSLATION or PERMISSION fault (R225: EINFO takes XLFAULTINFO[15:0]). -/
def xlFault (code : BitVec 8) (addr : Nat) (lane level : Nat) (s2 retry : Bool) (k : AccKind)
    (cause : Nat) : FaultRec :=
  let info := xlInfoOf lane level s2 retry k cause
  { cause := code, addr := BitVec.ofNat 64 addr, info := BitVec.ofNat 32 info,
    xl := some (BitVec.ofNat 64 addr, BitVec.ofNat 64 info) }

/-- Fault codes of R225. -/
abbrev fIllegalEncoding : BitVec 8 := 0x01
abbrev fIllegalOpcode : BitVec 8 := 0x02
abbrev fPrivilege : BitVec 8 := 0x03
abbrev fIllegalSysreg : BitVec 8 := 0x04
abbrev fMisalignedTarget : BitVec 8 := 0x05
abbrev fStackOverflow : BitVec 8 := 0x06
abbrev fMisalignedAccess : BitVec 8 := 0x08
abbrev fAddressRange : BitVec 8 := 0x09
abbrev fTranslation : BitVec 8 := 0x0A
abbrev fPermission : BitVec 8 := 0x0B
abbrev fScratchBounds : BitVec 8 := 0x0C
abbrev fConstBounds : BitVec 8 := 0x0D
abbrev fConstWrite : BitVec 8 := 0x0E
abbrev fRangeLock : BitVec 8 := 0x0F
abbrev fDataError : BitVec 8 := 0x10
abbrev fChUnconfigured : BitVec 8 := 0x14
abbrev fChOwner : BitVec 8 := 0x15
abbrev fChWidth : BitVec 8 := 0x16
abbrev fChState : BitVec 8 := 0x17
abbrev fConvergence : BitVec 8 := 0x18
abbrev fBarrierMismatch : BitVec 8 := 0x19
abbrev fCopyBounds : BitVec 8 := 0x20
abbrev fMcastRange : BitVec 8 := 0x21
abbrev fMatrixLost : BitVec 8 := 0x22
abbrev fSliceOwner : BitVec 8 := 0x28
abbrev fSliceHeapFull : BitVec 8 := 0x29
abbrev fSliceStackOverflow : BitVec 8 := 0x2A
abbrev fMarkNotFound : BitVec 8 := 0x2B
abbrev fCommitIndeterminate : BitVec 8 := 0x30
abbrev fTrap : BitVec 8 := 0x38
abbrev fBreakpoint : BitVec 8 := 0x39

/-- The fault of an access that its translation does not allow (R156). When it is stage 2 of a guest that refuses it,
it is a failure of stage 2 (R158). -/
def permFault (s : State) (asid va lane : Nat) (k : AccKind) (tr : Trans) (user retry : Bool) : FaultRec :=
  match walk s asid va with
  | .ok r =>
    match r.gpa with
    | some gpa =>
      if permOk { tr with r := r.r1, w := r.w1, x := r.x1 } k user then
        { xlFault fTranslation va lane r.level2 true retry k 2 with gpa := some gpa }
      else xlFault fPermission va lane tr.level false retry k 2
    | none => xlFault fPermission va lane tr.level false retry k 2
  | .error _ => xlFault fPermission va lane tr.level false retry k 2

/-- The fault of an address that no table translates (R150, R151). -/
abbrev rangeFault (va lane : Nat) (k : AccKind) : FaultRec := checkFault fAddressRange va lane k 3

/-- A fault with no address and no walk. -/
abbrev plainFault (code : BitVec 8) (info : Nat := 0) (addr : Nat := 0) : FaultRec :=
  { cause := code, info := BitVec.ofNat 32 info, addr := BitVec.ofNat 64 addr }

/-! ### The TLBs (R158) -/

/-- A packet-level result: a value, a fault of the packet with the faults of the lanes that failed
themselves (R226), or a hold that needs walks of some addresses (R61, R157). -/
inductive Res (α : Type) where
  | ok (a : α)
  | trap (base : FaultRec) (own : List (Nat × FaultRec))
  | hold (walks : List Nat)
  deriving Repr

/-- Covers an address. -/
def TlbEntry.hit (e : TlbEntry) (asid va : Nat) : Bool :=
  e.asid == asid && (if e.big then va / 2 ^ 25 == e.page / 2 ^ 25 else va / 2 ^ 16 == e.page / 2 ^ 16)

/-- The translation a TLB entry gives an address inside its page. -/
def TlbEntry.at_ (e : TlbEntry) (va : Nat) : Trans :=
  { e.tr with pa := if e.big then e.tr.pa / 2 ^ 25 * 2 ^ 25 + va % 2 ^ 25
                    else e.tr.pa / 2 ^ 16 * 2 ^ 16 + va % 2 ^ 16 }

/-- Looks an address up in the core's TLB, then in the die's (R158). -/
def tlbFind (s : State) (core asid va : Nat) : Option Trans :=
  match (s.coreOf core).tlb.find? fun e => e.hit asid va with
  | some e => some (e.at_ va)
  | none => (s.stlb.find? fun p => p.1 = dieOf core && p.2.hit asid va).map fun p => p.2.at_ va

/-- A walk's failure that waits for its packet (R156). -/
def failFind (s : State) (core asid va : Nat) : Option WalkFail :=
  (s.coreOf core).fails.find? fun f => f.asid = asid && f.page = va / 2 ^ 16

/-- One lane's translation: from the TLBs, or a fault that a finished walk left, or a hold. A remote address has none
(R150). The core-pinned home faults when the named core's window does not hold the page (R154); the fault's cause is 0
and its level the leaf's (DESIGN CHOICE, log 26). -/
def translate (s : State) (core asid va lane : Nat) (k : AccKind) (user : Bool) :
    Res Trans :=
  if isRemote va then .trap (rangeFault va lane k) []
  else match tlbFind s core asid va with
  | some tr =>
    if tr.home = 2 && !pinnedHere s tr.target va then
      .trap (xlFault fTranslation va lane tr.level false false k 0) []
    else if permOk tr k user then .ok tr
    else .trap (permFault s asid va lane k tr user false) []
  | none =>
    match failFind s core asid va with
    | some f =>
      if f.data then .trap (plainFault fDataError 0 va) []
      else .trap { xlFault fTranslation va lane f.level f.s2 false k f.cause with gpa := if f.s2 then some f.gpa else none } []
    | none => .hold [va]

/-- The walk of a party that has no packet to hold, made whole at once: an engine, Crozier, a retry, the
host. `none` while a leaf migrates (R157). -/
def xlateNow (s : State) (asid va : Nat) (k : AccKind) (user : Bool) (lane : Nat := 0)
    (retry : Bool := false) : Option (Except FaultRec Trans) :=
  match walk s asid va with
  | .error .migrating => none
  | .error .range => some (.error (rangeFault va lane k))
  | .error .data => some (.error (plainFault fDataError 0 va))
  | .error (.bad lv s2 cause gpa) =>
    some (.error { xlFault fTranslation va lane lv s2 retry k cause with gpa := if s2 then some gpa else none })
  | .ok r =>
    if r.tr.home = 2 && !pinnedHere s r.tr.target va then
      some (.error (xlFault fTranslation va lane r.tr.level false retry k 0))
    else if permOk r.tr k user then some (.ok r.tr)
    else some (.error (permFault s asid va lane k r.tr user retry))

/-- TLB entries of a context's older generations are dropped, in a core and its die (R159). -/
def State.dropStale (s : State) (core asid : Nat) : State :=
  let gen := (s.ctxOf asid).gen
  { (s.updCore core fun k => { k with tlb := k.tlb.filter fun e => e.asid ≠ asid || e.tr.gen == gen }) with
    stlb := s.stlb.filter fun p => p.1 ≠ dieOf core || p.2.asid ≠ asid || p.2.tr.gen == gen }

/-- Walks that a group's packet needs, those for a page not yet under way; the core's entries of an older generation
are dropped (R157, R158, R159). -/
def State.needWalks (s : State) (core gid asid : Nat) (walks : List Nat) : State :=
  walks.foldl (fun s va =>
    if (s.coreOf core).walks.any fun w => w.asid = asid && w.va / 2 ^ 16 = va / 2 ^ 16 then s
    else { (s.updCore core fun k =>
        { k with walks := k.walks ++ [{ id := s.serial, asid := asid, va := va, gid := gid }] }) with
      serial := s.serial + 1 }) (if walks.isEmpty then s else s.dropStale core asid)

/-- Puts a translation into the core's TLB of 512 entries and the die's of 16384, dropping the oldest
(R158). -/
def State.installTlb (s : State) (core : Nat) (e : TlbEntry) : State :=
  { (s.updCore core fun k => { k with tlb := (e :: k.tlb).take 512 }) with
    stlb := (dieOf core, e) :: (s.stlb.filter fun p => p.1 = dieOf core).take 16383 ++
      s.stlb.filter fun p => p.1 ≠ dieOf core }

/-- Where the bytes of a translated address are kept: physical memory, or, above its 2^52 bytes, the SRAM
of the core-pinned window that holds the page (R154, R163). Every physical address is memory, those beyond the 384 GiB
of DRAM too (R4, log 26). -/
def Trans.key (t : Trans) : Nat := if t.home = 2 then 2 ^ 52 * (1 + t.target) + t.pa else t.pa

/-! ### Reading a context's memory without a packet -/

/-- Physical bytes of a context's range, page by page; none when a byte does not translate or may not be read (R156). -/
def vbytes (s : State) (asid : Nat) : Nat → Nat → Option (List Byte)
  | _, 0 => some []
  | va, n + 1 =>
    match walk s asid va with
    | .error _ => none
    | .ok r => if r.tr.r then (vbytes s asid (va + 1) n).map (Mem.get s.mem r.tr.key :: ·) else none

/-- A range that stays inside one 64 KiB page is read through one walk. -/
def vread (s : State) (asid va n : Nat) : Option (List Byte) :=
  if n ≠ 0 ∧ va / 2 ^ 16 = (va + n - 1) / 2 ^ 16 then
    match walk s asid va with
    | .error _ => none
    | .ok r => if r.tr.r then some (Mem.read s.mem r.tr.key n) else none
  else vbytes s asid va n

abbrev vread32 (s : State) (asid va : Nat) : Option Word :=
  (vread s asid va 4).map fun l => BitVec.ofNat 32 (leNat l)
abbrev vread64 (s : State) (asid va : Nat) : Option Dword :=
  (vread s asid va 8).map fun l => BitVec.ofNat 64 (leNat l)

/-- The context named by a register or an instruction covers an address with a page that allows what
is asked of it. -/
def vallowed (s : State) (asid va : Nat) (k : AccKind) : Bool :=
  match xlateNow s asid va k false with
  | some (.ok _) => true
  | _ => false

end Sys2Proof.Machine
end

