-- ==== Sys2Proof/Machine/Line.lean ====
section
/-!
DEFINITION. Lines at their homes and in the cores' caches (R153 to R155, R173, R193, R207, R209, R210): the L2 slices and
migration, the L1, acquires, monitors that fire, writes at a home, writes to a context's memory by a party that has no
packet, and what a store or atomic being performed at a scope means.
-/

namespace Sys2Proof.Machine

open Sys2Proof

/-! ### Slices and migration (R154, R155, R427) -/

/-- Parity of a pair. -/
def parity64 (x : Dword) : Bool := (List.range 64).foldl (fun p i => p != x.getLsbD i) false

/-- SliceHash of a physical address (R427). -/
def sliceHash (pa : Nat) : Nat :=
  (List.range 8).foldl (fun n k =>
    n + if parity64 (BitVec.ofNat 64 (nbits pa 8 44) &&& Config.sliceMask k) then 2 ^ k else 0) 0

/-- Where a translated address is served: its slice, or 256 for the memory controllers, or 512 and up for
a core's pinned window. -/
def homeOf (t : Trans) : Nat :=
  match t.home.toNat with
  | 0 => sliceHash t.pa
  | 1 => t.target
  | 2 => 512 + t.target
  | _ => 256

/-- A unit is frozen (R425): its kind and index. -/
abbrev frozenUnit (s : State) (kind index : Nat) : Bool :=
  s.host.frozen.any fun f => f.reached && f.kind == kind && f.index == index

/-- The slice that serves a line now: its holder after a move (R155). -/
def serving (s : State) (t : Trans) : Nat :=
  if t.home = 0 then
    match s.touches.find? fun l => l.line = t.pa / 256 with
    | some l => l.holder
    | none => homeOf t
  else homeOf t

/-- The L2 holds the sector's line in the slice that serves it. -/
def inL2 (s : State) (t : Trans) : Bool := s.l2.any fun x => x.line == t.pa / 256 && x.slice == serving s t

/-- Accesses wait at the home: the line is moving (R155), or its slice, the core whose window holds it, or the memory
controller that it must be fetched from is frozen (R425). -/
def lineMoving (s : State) (t : Trans) : Bool :=
  (s.touches.any fun l => l.moving && t.home == 0 && l.line == t.pa / 256) ||
  (s.host.frozen.any fun f => f.reached &&
    ((f.kind == 3 && f.index == serving s t) || (f.kind == 0 && t.home == 2 && f.index == t.target) ||
     (f.kind == 5 && f.index == Config.dramStack (t.pa / 256) % 8 && t.home != 2 && !inL2 s t)))

/-- An access that its home does not perform but returns to its core: its generation is not the current one (R159), or
the named core's window holds its page no more; its retry then meets R154's fault (log 26). -/
def stale (s : State) (asid : Nat) (t : Trans) : Bool :=
  t.gen != (s.ctxOf asid).gen ||
  (t.home == 2 && !(s.coreOf t.target).pins.any fun p => p.2 == none || p.2 == some (t.pa / 65536 * 65536))

/-- The line may not move: its home's forwarding entries are all in use, those of lines on the move counted, a monitor
watches it, or a combined reply is on its way (R155). -/
def lineHeld (s : State) (line : Nat) : Bool :=
  s.monitors.any (fun m => m.pa / 256 == line) ||
  s.replies.any (fun r => r.line == line && match r.tree with | .join .. => true | _ => false) ||
  (8192 ≤ s.touches.length &&
    8192 ≤ (s.touches.filter fun l => sliceHash (256 * l.line) == sliceHash (256 * line) &&
      (l.moving || l.holder != sliceHash (256 * l.line))).length)

/-- A line's counter after an access from a cluster; at 3 the line starts to move (R155). -/
def touched (s : State) (line cluster : Nat) : List Touch :=
  let home := sliceHash (256 * line)
  let t := (s.touches.find? fun l => l.line = line).getD { line := line, holder := home }
  let n : Touch :=
    if t.moving then t
    else if cluster = t.holder then { t with count := 0 }
    else if t.count ≠ 0 ∧ cluster = t.cluster then
      { t with count := if t.count = 3 then 3 else t.count + 1 }
    else { t with count := 1, cluster := cluster }
  let n := if n.count = 3 && !lineHeld s line then { n with moving := true } else n
  let rest := s.touches.filter fun l => l.line ≠ line
  if n.count = 0 ∧ n.holder = home ∧ !n.moving then rest else n :: rest

/-- A line leaves its slice: its dirty sectors go to DRAM, and a forwarding entry of it is freed (R153, R155). -/
def State.evict (s : State) (l : L2Line) : State :=
  { s with
    l2 := s.l2.filter fun x => !(x.line == l.line && x.slice == l.slice)
    touches := s.touches.filter fun x => !(x.line == l.line && x.holder != sliceHash (256 * l.line)) }

/-- Lines that lie in a set of a slice. -/
abbrev L2Line.within (x : L2Line) (slice set : Nat) : Bool := x.slice == slice && Config.l2Set x.line % 4096 == set

/-- Lines of a class, beyond `n` of them, leave the L2: the next victims first, the last ones at the end, and among
equals one that the manual leaves open (R153, R173). -/
def State.evictTo (s : State) (p : L2Line → Bool) (n : Nat) : Nat → State
  | 0 => s
  | fuel + 1 =>
    let l := s.l2.filter p
    if l.length ≤ n then s
    else
      let low := l.foldl (fun m x => min m x.rank) 2
      let v := l.filter fun x => x.rank = low
      let (k, s1) := if low = 0 then (0, s) else s.choose v.length
      match v[k]? with
      | some x => (s1.evict x).evictTo p n fuel
      | none => s1

/-- A line enters a set of a slice of 16 ways, of which the pin ways are for pinned lines (R153, R154). -/
def State.l2Enter (s : State) (l : L2Line) : State :=
  let set := Config.l2Set l.line % 4096
  let pins := max (s.clusterOf l.slice).pinWays
    (s.l2.filter fun x => x.pinned && x.within l.slice set).length
  let s1 := s.evictTo (fun x => x.within l.slice set && !x.pinned) (if l.pinned then 16 - pins else 15 - pins) 16
  { s1 with l2 := l :: s1.l2 }

/-- Ways of a set that a context's fills may hold (R23, R385). -/
abbrev State.waysOf (s : State) (asid : Nat) : Nat := (s.ctxOf asid).gov.grantOf 2

/-- A line is allocated for its context: one that holds all its ways of the set gives up a line of its own; lines over
the allotment stay until then (R23). -/
def State.allocate (s : State) (l : L2Line) : State :=
  (s.evictTo (fun x => x.within l.slice (Config.l2Set l.line % 4096) && !x.pinned && x.asid == l.asid)
    (s.waysOf l.asid - 1) 1).l2Enter l

/-- A sector is filled or written in the L2 (R153, R154). A pinned line that finds the pin ways of its set full is
counted and not held; nor does a context with a grant of no ways allocate (R385). -/
def State.l2Place (s : State) (t : Trans) (w : Bool) (rank : Option Nat) : State :=
  if 2 ≤ t.home.toNat then s
  else
    let bit : BitVec 2 := 1 <<< (t.pa / 128 % 2)
    let slice := serving s t
    let put := fun (x : L2Line) => { x with
      valid := x.valid ||| bit, dirty := if w then x.dirty ||| bit else x.dirty
      rank := if x.pinned then x.rank else rank.getD x.rank }
    if inL2 s t then
      { s with l2 := s.l2.map fun x => if x.line = t.pa / 256 ∧ x.slice = slice then put x else x }
    else
      let l := put { slice := slice, line := t.pa / 256, pinned := t.home = 1, asid := t.asid }
      if t.home = 1 then
        if (s.clusterOf slice).pinWays ≤
            (s.l2.filter fun x => x.pinned && x.within slice (Config.l2Set l.line % 4096)).length then
          s.updCluster slice fun c => { c with pinOvf := c.pinOvf + 1 }
        else s.l2Enter l
      else if s.waysOf t.asid = 0 then s
      else s.allocate l

/-- The place that a load's policy gives a line among the victims of its set (R173). -/
abbrev polRank : Policy → Option Nat
  | .stream => some 0
  | .keep => some 2
  | _ => none

/-- An access of a core is served at the home of a line: it is counted (R155), and the sector is filled (R153). -/
def State.touch (s : State) (t : Trans) (core : Nat) (pol : Policy := .normal) : State :=
  ({ s with touches := if t.home = 0 then touched s (t.pa / 256) (clusterNo core) else s.touches } : State).l2Place t
    false (polRank pol)

/-! ### The L1 data cache (R153, R173, R207, R210) -/

/-- A sector of the L1 of a core. -/
abbrev Core.sector? (k : Core) (sec : Nat) : Option L1Sector := k.l1.find? fun l => l.sector = sec

/-- The byte that a pending store has for an address: by the context's virtual address, or, under another name or from a
page that has moved, by where the byte is kept (R207). -/
def CopStore.byte? (c : CopStore) (asid va key : Nat) : Option Byte :=
  let v := c.rec_.va.toNat % 2 ^ 56
  if c.asid = asid ∧ v ≤ va ∧ va < v + c.rec_.bytes.length then c.rec_.bytes[va - v]?
  else if c.rec_.tr.key ≤ key ∧ key < c.rec_.tr.key + c.rec_.bytes.length then c.rec_.bytes[key - c.rec_.tr.key]?
  else none

/-- Bytes from a context's `va`, kept at `base`, with those that a core's pending stores have for them (R207). -/
def overlay (cop : List CopStore) (asid va base : Nat) (bytes : List Byte) : List Byte :=
  bytes.zipIdx.map fun p => cop.foldl (fun b c => (c.byte? asid (va + p.2) (base + p.2)).getD b) p.1

/-- Fills or refreshes a sector of the L1, that of a context's `va`, with what its home holds and the core's own pending
stores; it holds 512 sectors, 64 KiB (R2, R207). -/
def State.fillL1 (s : State) (core : Nat) (t : Trans) (va : Nat) (allocate : Bool) : State :=
  let sec := t.pa / 128
  s.updCore core fun k =>
    let base := t.key / 128 * 128
    let l : L1Sector := { sector := sec, stamp := k.epoch, bytes := overlay k.cop t.asid (va % 2 ^ 56 / 128 * 128) base (Mem.read s.mem base 128) }
    if (k.sector? sec).isSome then { k with l1 := k.l1.map fun x => if x.sector = sec then l else x }
    else if allocate then { k with l1 := (l :: k.l1).take 512 }
    else k

/-- A value of a core was read at the home: the matching sector of its L1 is refreshed, if it is present (R207). -/
abbrev State.refresh (s : State) (core : Nat) (t : Trans) (va : Nat) : State := s.fillL1 core t va false

/-- A passing store updates the copy of its sector (R206). -/
def State.storeL1 (s : State) (core : Nat) (t : Trans) (bytes : List Byte) (drop : Bool) : State :=
  let sec := t.pa / 128
  s.updCore core fun k =>
    if drop then { k with l1 := k.l1.filter fun x => x.sector ≠ sec }
    else { k with l1 := k.l1.map fun x =>
      if x.sector = sec then
        { x with bytes := x.bytes.take (t.pa % 128) ++ bytes ++ x.bytes.drop (t.pa % 128 + bytes.length) }
      else x }

/-- The L1 of this core may hold a sector of this home: not of a pinned line that found no pin way (R154), nor of a
context that is granted no ways (R385). -/
def cacheable (s : State) (t : Trans) (core : Nat) : Bool :=
  match t.home.toNat with
  | 0 => s.waysOf t.asid != 0 || inL2 s t
  | 1 => inL2 s t
  | 2 => t.target == core
  | _ => false

/-! ### Reads at the home (R29, R155, R159) -/

/-- An uncorrectable error at a sector that is read is reported again or is gone (R29). -/
def badSector (s : State) (key : Nat) : Bool × State :=
  if s.bad.contains (key / 128) then
    match s.choose 2 with
    | (0, s1) => (true, s1)
    | (_, s1) => (false, { s1 with bad := s1.bad.filter fun b => b ≠ key / 128 })
  else (false, s)

/-- What a read at a home comes to: rejected for a stale generation (R159), failed by an uncorrectable error (R29), held
while the line moves (R155), or its bytes. -/
inductive HomeRead where
  | rejected
  | error
  | waits
  | bytes (l : List Byte)
  deriving DecidableEq, Repr

/-- A read of `n` bytes at the home by a core, with a load's policy. -/
def readHome (s : State) (asid : Nat) (t : Trans) (core n : Nat) (pol : Policy := .normal) : HomeRead × State :=
  if stale s asid t then (.rejected, s)
  else
    match badSector s t.key with
    | (true, s1) => (.error, s1)
    | (false, s1) => (.bytes (Mem.read s1.mem t.key n), s1.touch t core pol)

/-! ### The constant and instruction caches (R2, R152, R197) -/

/-- `n` bytes that a cache of sectors holds. -/
def cacheFind (cache : List ((Nat × Nat) × List Byte)) (asid addr n : Nat) : Option (List Byte) :=
  (assoc cache (asid, addr / 128)).map fun l => (l.drop (addr % 128)).take n

/-- A sector put into a cache of `cap` sectors; the oldest leaves. -/
def cacheFill (cache : List ((Nat × Nat) × List Byte)) (cap asid addr : Nat) (line : List Byte) :
    List ((Nat × Nat) × List Byte) :=
  (((asid, addr / 128), line) :: cache.filter fun e => e.1 ≠ (asid, addr / 128)).take cap

/-- A read through a cache that is not coherent: what the cache holds, or what the home holds, with which the cache is
filled. When the two differ it is open which of them the read returns (R152, log 2). -/
def readCached (s : State) (core asid : Nat) (t : Trans) (n : Nat) (hit : Option (List Byte))
    (fill : List Byte → Core → Core) : HomeRead × State :=
  let fromHome := fun (s : State) =>
    if lineMoving s t then (HomeRead.waits, s)
    else match readHome s asid t core n with
      | (.bytes l, s1) => (HomeRead.bytes l, s1.updCore core (fill (Mem.read s1.mem (t.key / 128 * 128) 128)))
      | r => r
  match hit with
  | none => fromHome s
  | some l =>
    if !stale s asid t ∧ !lineMoving s t ∧ !s.bad.contains (t.key / 128) ∧ l = Mem.read s.mem t.key n then
      (.bytes l, s)
    else match s.choose 2 with
      | (0, s1) => fromHome s1
      | (_, s1) => (.bytes l, s1)

/-- A constant read at an offset of constant space (R152). -/
def readConst (s : State) (core asid off n : Nat) (t : Trans) : HomeRead × State :=
  readCached s core asid t n (cacheFind (s.coreOf core).ccache asid off n)
    fun line k => { k with ccache := cacheFill k.ccache 128 asid off line }

/-- A read of a context's code (R197). -/
def readCode (s : State) (core asid va n : Nat) (t : Trans) : HomeRead × State :=
  readCached s core asid t n (cacheFind (s.coreOf core).icache asid va n)
    fun line k => { k with icache := cacheFill k.icache 512 asid va line }

/-! ### Acquires (R210) -/

/-- The L1 moves of an acquire at cluster scope or wider. -/
def acquireWide (s : State) (gid : Nat) : State :=
  match s.group? gid with
  | none => s
  | some g =>
    let e := (s.coreOf g.core).epoch + 1
    (s.updCore g.core fun k => { k with epoch := e, l1 := if e = 0 then [] else k.l1 }).updGroup gid fun g =>
      { g with amark := e }

/-- An acquire at device scope of several groups of a core: one increment, which all of them take (R222). -/
def acquireAll (s : State) (core : Nat) (gids : List Nat) : State :=
  let e := (s.coreOf core).epoch + 1
  let s1 := s.updCore core fun k => { k with epoch := e, l1 := if e = 0 then [] else k.l1 }
  { s1 with groups := s1.groups.map fun g => if gids.contains g.gid then { g with amark := e } else g }

/-- Scopes at which an acquire makes L1 moves. -/
abbrev wideScope : Scope → Bool
  | .group | .team => false
  | _ => true

/-- An acquire of a group at a scope. -/
def acquire (s : State) (gid : Nat) (sc : Scope) : State := if wideScope sc then acquireWide s gid else s

/-! ### Completing an operation for a lane -/

/-- A value written to the destination of an operation in one lane; a scalar takes the value of the lane
that leads (R44). A value that lands on a scalar after a later packet has written it stays: arrival decides (DESIGN
CHOICE, log 26). -/
def writeLane (s : State) (o : Op) (lane v : Nat) : State :=
  match o.dst with
  | none => s
  | some (d, n) => s.updGroup o.gid fun g =>
    match d with
    | .v r => g.setLane lane ((g.lane lane).setWide r.toNat n v)
    | .s r => if lane = o.lead then g.setScalar r.toNat n v else g
    | .push _ => g

/-- A predicate written in one lane. -/
def predLane (s : State) (gid lane p : Nat) (v : Bool) : State :=
  s.updGroup gid fun g => g.setLane lane ((g.lane lane).setPred p v)

/-! ### Monitors (R193) -/

/-- A condition of `WAITC` (R192). -/
def waitcHolds (cc : WaitCc) (w64 : Bool) (m v : Dword) : Bool :=
  let i := fun (x : Dword) => if w64 then x.toInt else (x.setWidth 32 : Word).toInt
  match cc with
  | .eq => m = v
  | .ne => m ≠ v
  | .lt => i m < i v
  | .ge => i v ≤ i m
  | .ltn => m.toNat < v.toNat
  | .gen => v.toNat ≤ m.toNat
  | .any => m &&& v ≠ 0
  | .none => m &&& v = 0

/-- Monitors with no fibre left under them are dropped. -/
def State.sweepMonitors (s : State) : State :=
  { s with monitors := s.monitors.filter fun m =>
      match m.bar with
      | some b => match s.anyGroup? m.gid with
        | some g => (List.range 32).any fun i => (g.lane i).wait == some (.barG b)
        | none => false
      | none => s.ops.any fun o => o.gid == m.gid && (match o.kind with
          | .waitc .. => o.accs.any fun a => o.lanes.getLsbD a.lane && a.tr.key == m.pa
          | _ => false) }

/-- A fibre of a `WAITC` is released with a value read at the home of `t`; p63 tells a timeout (R193). -/
def releaseWaitc (s : State) (o : Op) (scope : Scope) (lane : Nat) (t : Trans) (v : Nat) (timedOut : Bool) : State :=
  let s1 := if (s.group? o.gid).isSome then s.refresh o.core t (((o.accs.find? fun a => a.lane == lane).map (·.va.toNat)).getD 0) else s
  let s2 := s1.updAny o.gid fun g =>
    let g1 := match o.dst with
      | some (d, n) => g.writeDst d n o.lead [(lane, v)]
      | none => g
    let x := (g1.lane lane).setPred 63 timedOut
    { (g1.setLane lane { x with wait := none, status := if x.status = .parked then g.released else x.status })
      with backoff := 0 }
  (acquire (s2.finishLanes o.id (maskOf [lane])) o.gid scope).sweepMonitors

/-- Bytes of a size read as a number. -/
abbrev State.wordAt (s : State) (key : Nat) (w64 : Bool) : Dword :=
  BitVec.ofNat 64 (leNat (Mem.read s.mem key (if w64 then 8 else 4)))

/-- The fibres of a `WAITC` at a word whose condition holds now. -/
def fireWaitc (s : State) (id key : Nat) : State :=
  match s.op? id with
  | none => s
  | some o =>
    match o.kind with
    | .waitc cc sc w64 =>
      let v := s.wordAt key w64
      o.accs.foldl (fun s a =>
        if o.lanes.getLsbD a.lane && a.tr.key == key && waitcHolds cc w64 v a.op then
          releaseWaitc s o sc a.lane a.tr v.toNat false
        else s) s
    | _ => s

/-- The fibres of a group, resident or of a saved team, that wait for a grid barrier's phase, released when it differs
(R87, R89, R90). -/
def fireBarG (s : State) (gid key : Nat) (b : BitVec 4) : State :=
  let ph := ((Mem.read32 s.mem (key + 12)).getLsbD 0)
  match s.anyGroup? gid with
  | none => s
  | some g =>
    let m := g.lanesWhere fun x => x.wait == some (.barG b) && x.phG.getLsbD b.toNat != ph
    if m = 0 then s
    else
      acquireWide (s.updAny gid fun g =>
        { (g.updLanes m fun _ x =>
            { x with status := if x.status = .barrier then g.released else x.status, wait := none
                     phG := setBits x.phG b.toNat 1 (if ph then 1 else 0) }) with backoff := 0 }) gid
      |>.sweepMonitors

/-- A write was performed on `n` bytes from `key`: the monitor entries there whose condition holds now
fire (R193). -/
def fireMonitors (s : State) (key n : Nat) : State :=
  s.monitors.foldl (fun s m =>
    match m.bar with
    | some b => if overlap key n m.pa 16 then fireBarG s m.gid m.pa b else s
    | none =>
      if overlap key n m.pa 8 then
        (s.ops.filter fun o => o.gid = m.gid).foldl (fun s o => fireWaitc s o.id m.pa) s
      else s) s

/-! ### Writes at the home -/

/-- The walker sets the accessed bits of the leaves it used, by an atomic OR (R156), at which monitors fire (R193). -/
def State.setAccessed (s : State) (leaves : List Nat) : State :=
  leaves.foldl (fun s a =>
    let b := Mem.get s.mem a
    if b.getLsbD 4 then s else fireMonitors { s with mem := Mem.set s.mem a (b ||| 0x10) } a 1) s

/-- A walk that has no packet has used the leaves of an address (R156). -/
def State.accessed (s : State) (asid va : Nat) : State :=
  match walk s asid va with
  | .ok r => s.setAccessed r.leaves
  | .error _ => s

/-- Every sector that `n` bytes from `t` lie in is written in the L2 (R153). -/
def State.l2Write (s : State) (t : Trans) (n : Nat) (rank : Option Nat) : State :=
  if n = 0 then s
  else (List.range ((t.pa + n - 1) / 128 - t.pa / 128 + 1)).foldl
    (fun s k => s.l2Place { t with pa := (t.pa / 128 + k) * 128 } true rank) s

/-- Bytes written at the home; the sectors become dirty, and monitors fire. -/
def State.writeHome (s : State) (t : Trans) (bytes : List Byte) (rank : Option Nat := none) : State :=
  fireMonitors { s.l2Write t bytes.length rank with mem := Mem.write s.mem t.key bytes } t.key bytes.length

/-- Writes bytes of a context's range page by page, those of pages that translate and may be written (R156); the walks set
the accessed bits, and monitors fire (R213). -/
def vwritePages (asid : Nat) : Nat → State → Nat → List Byte → State
  | 0, s, _, _ => s
  | k + 1, s, va, l =>
    let n := 65536 - va % 65536
    let s1 := match walk s asid va with
      | .error _ => s
      | .ok w => if w.tr.w then (s.accessed asid va).writeHome w.tr (l.take n) else s.accessed asid va
    if l.length ≤ n then s1 else vwritePages asid k s1 (va + n) (l.drop n)

/-- Writes bytes of a context's range, by a party that has no packet. -/
def vwrite (s : State) (asid va : Nat) (l : List Byte) : State :=
  if l = [] then s else vwritePages asid ((va + l.length - 1) / 65536 - va / 65536 + 1) s va l

/-- An access to an address waits: its page migrates (R157), or its line moves or is frozen (R155, R425). -/
def addrWaits (s : State) (asid va : Nat) : Bool :=
  match walk s asid va with
  | .error .migrating => true
  | .error _ => false
  | .ok r => lineMoving s r.tr

/-- The line of an address moves or is frozen (R155, R425). -/
abbrev lineWaits (s : State) (asid va : Nat) : Bool :=
  (!s.touches.isEmpty || !s.host.frozen.isEmpty) && addrWaits s asid va

/-- A page of `[va, va + n)` migrates (R157), or a line of it moves or is frozen (R155, R425). -/
def rangeMigrates (s : State) (asid va n : Nat) : Bool :=
  ((List.range ((va + n - 1) / 65536 - va / 65536 + 1)).any fun k =>
    pageMigrates s asid (if k = 0 then va else (va / 65536 + k) * 65536)) ||
  ((!s.touches.isEmpty || !s.host.frozen.isEmpty) &&
    (List.range ((va + n - 1) / 256 - va / 256 + 1)).any fun k =>
      addrWaits s asid (if k = 0 then va else (va / 256 + k) * 256))

/-! ### Performed at a scope (R209) -/

/-- Stores of a group, issued before `id`, that wait in its store queue or still have to enter it. -/
def sqBefore (g : Group) (id : Nat) : Bool :=
  (g.sq ++ g.entering).any fun e => e.stores.any fun r => r.op < id

/-- Stores of a group, issued before `id`, in the pending set of its core. -/
def copBefore (s : State) (gid : Nat) (id : Nat) : Bool :=
  s.cores.any fun k => k.cop.any fun c => c.gid == gid && c.rec_.op < id

/-- Every store of the group issued before `id` has been performed at a scope. -/
def storesAt (s : State) (g : Group) (id : Nat) (sc : Scope) : Bool :=
  match sc with
  | .group => !(g.entering.any fun e => e.stores.any fun r => r.op < id)
  | .team => !sqBefore g id
  | _ => !sqBefore g id && !copBefore s g.gid id

/-- Its requesters, in serial order. -/
def ReqTree.parts : ReqTree → List ReqPart
  | .part p => [p]
  | .join _ a b => a.parts ++ b.parts

/-- Operations whose atomics are asked for in a request. -/
def ReqTree.ops (t : ReqTree) : List Nat :=
  t.parts.filterMap fun p => match p.frm with
    | .lanes o _ => some o
    | .commit o _ _ => some o
    | _ => none

/-- Atomics not yet performed, at a home or at a peer's. -/
def State.pendingAtoms (s : State) : List Nat :=
  s.reqs.flatMap (·.tree.ops) ++ (s.fabric.out ++ s.fabric.ins).flatMap fun r =>
    (r.tree.map ReqTree.ops).getD []

/-- Every atomic of the group issued before `id` has been performed; `GCOND` makes one (R363). -/
def atomsAt (s : State) (gid id : Nat) : Bool :=
  !(s.pendingAtoms.any fun o => o < id && match s.op? o with
    | some p => p.gid == gid
    | none => false) &&
  !(s.ops.any fun o => o.gid == gid && o.id < id && match o.kind with
    | .graph (.gcond ..) => true
    | _ => false)

/-- Every store and atomic of the group issued before `id` has been performed at a scope. -/
def performedAt (s : State) (gid id : Nat) (sc : Scope) : Bool :=
  atomsAt s gid id && match s.group? gid with
  | none => sc == .group || sc == .team || !copBefore s gid id
  | some g => storesAt s g id sc

/-- What an operation not yet complete holds back of its group's later accesses (R175, R180, R191): every
load and atomic, and, but for an acquire fence, every store. -/
def holdsBack (o : Op) (store : Bool) : Bool :=
  match o.kind with
  | .load _ _ _ acq _ => acq.isSome
  | .atom _ ord _ _ => ord == .acq || ord == .acqrel
  | .fence .full _ => true
  | .fence .acq _ => !store
  | _ => false

/-- An access of a group's operation `id` is held back by an earlier operation. -/
def heldBack (s : State) (gid id : Nat) (store : Bool) : Bool :=
  (s.groupOps gid).any fun o => o.id < id && holdsBack o store

end Sys2Proof.Machine
end

