-- ==== Sys2Proof/Machine/Ops.lean ====
section
/-!
DEFINITION. The named operations over the machine: time, event and error records, halting, taking a
trap and returning from one, clause starts, and how a packet goes on after a word.
-/

namespace Sys2Proof.Machine

open Sys2Proof

/-! ### Time (R236, R237) -/

/-- The next interval boundary: the next multiple of GVINTLEN (R376). -/
def State.nextBoundary (s : State) : Nat :=
  let len := max 1 s.gvintlen.toNat * 1000
  (s.gvLast / len + 1) * len

/-- The governor has laws of past intervals to run: accesses of its registers wait for them (R380, R387). -/
abbrev State.gvPend (s : State) : Bool := !s.gvTaken.isEmpty

/-- A governor is frozen: what is handed to it waits for the thaw (R425). -/
abbrev State.govFrozen (s : State) : Bool := s.host.frozen.any fun f => f.reached && f.kind == 2

/-- The edges of a region in `dt` nanoseconds at step n, 7 + n in ten of them (R3): a stretched one lasts two periods
(R238), and a region that changes its step has none (R237). -/
def Cluster.run (c : Cluster) (dt : Nat) : Cluster :=
  if c.change.isSome then c
  else
    let b := c.tenths + dt * (7 + c.step)
    let k := min c.stretch (b / 20)
    let rest := b - 20 * k
    if k < c.stretch then { c with cycles := (c.cycles + k) % 2 ^ 64, tenths := rest, stretch := c.stretch - k }
    else { c with cycles := (c.cycles + k + rest / 10) % 2 ^ 64, tenths := rest % 10, stretch := 0 }

/-- The time after the next step: later by an amount the manual does not fix (log 2), never past an interval boundary
that is not yet made. -/
def State.nextTime (s : State) : Nat :=
  let t := s.now + Config.freeTime s.tick
  if t ≤ max s.now s.nextBoundary then t else max s.now s.nextBoundary

/-- Time moves on between two steps, and the clock regions with it (R3, R236, R237). -/
def State.passTime (s : State) : State :=
  { s with
    now := s.nextTime
    tick := s.tick + 1
    clusters := s.clusters.map fun c => c.run (s.nextTime - s.now) }

/-! ### Records for the host (R356, R419, R423) -/

/-- The 32 bytes of an event record (R356). -/
def recordBytes (code node : Nat) (seq : Word) (inst payload : Dword) (now : Nat) : List Byte :=
  leBytes 2 code ++ leBytes 2 node ++ leBytes 4 seq.toNat ++ leBytes 8 inst.toNat ++
    leBytes 8 payload.toNat ++ leBytes 8 now

/-- Appends a record to an interrupt log of the hypervisor's memory (R423): header {head, tail,
dropped}, then 32-byte records; a full log drops the record and counts it. The header's counts are taken
as three 64-bit numbers from its start (log 10). -/
def logAppend (s : State) (asid base size : Nat) (r : List Byte) : State :=
  match vread64 s asid base, vread64 s asid (base + 8), vread64 s asid (base + 16) with
  | some head, some tail, some dropped =>
    let cap := (size - 64) / 32
    if cap ≤ head.toNat - tail.toNat then vwrite s asid (base + 16) (leBytes 8 (dropped.toNat + 1))
    else
      vwrite (vwrite s asid (base + 64 + 32 * (head.toNat % cap)) r) asid base (leBytes 8 (head.toNat + 1))
  | _, _, _ => s

/-- The pages of a log migrate, or lines of it move (R155, R157): its header's, or those of the slot it comes to. -/
def logWaits (s : State) (asid base size : Nat) : Bool :=
  rangeMigrates s asid base 24 ||
  match vread64 s asid base with
  | some head => rangeMigrates s asid (base + 64 + 32 * (head.toNat % max 1 ((size - 64) / 32))) 32
  | none => false

/-- A partition's hypervisor: ASID, log base, log size (R422). -/
def hypervisorOf (mgmt : List Host.Cell) (entry : Nat) : Nat × Nat × Nat :=
  let p := entry / 0x1000 * 0x1000
  (wbits (Mem.read32 mgmt (p + 0x20)) 0 12, (Mem.read64 mgmt (p + 0x28)).toNat,
   (Mem.read64 mgmt (p + 0x30)).toNat)

/-- A party without a packet reads a sector: its walk sets the accessed bits (R156), and an uncorrectable error is
reported or not (R29). -/
def recordBad (s : State) (asid inst : Nat) : Bool × State :=
  match walk s asid inst with
  | .ok w => badSector (s.accessed asid inst) w.tr.key
  | .error _ => (false, s)

/-- A put to a ring of the host (R419): the record in its slot, the index word behind the last slot, both in the region
of the endpoint that the ring address names. -/
def State.put (s : State) (ring : Dword) (ringlog : Nat) (seq : Word) (r : List Byte) : State :=
  let entry := 0x50000 + 16 * dbits ring 56 8
  let region := (Mem.read64 s.host.mgmt (entry + 8)).toNat + dbits ring 0 56
  let slot := seq.toNat % 2 ^ ringlog
  { s with
    host := { s.host with puts := s.host.puts ++
      [{ id := s.serial, ring := ring, slot := slot, data := r, index := seq + 1
         endpoint := dbits (Mem.read64 s.host.mgmt entry) 0 63
         recordAt := region + 32 * slot, indexAt := region + 32 * 2 ^ ringlog }] }
    serial := s.serial + 1 }

/-- A device event record (R419): the ring registers hold the ring address and its log2 (log 10). -/
def deviceEvent (s : State) (code : Nat) (payload : Dword) : State :=
  let ring := Mem.read64 s.host.mgmt 0x51000
  if ring = 0 then s
  else
    let s1 := s.put ring (Mem.read32 s.host.mgmt 0x51008).toNat s.host.evSeq
      (recordBytes code 0xFFFF s.host.evSeq 0 payload s.now)
    { s1 with host := { s1.host with evSeq := s.host.evSeq + 1 } }

/-- A record for an interrupt log (R423): it is appended, or waits while a page of the log migrates (R157) or an earlier
one waits. When the log cannot be read for an uncorrectable error, the device event ring takes its address (R29,
log 26). -/
def State.log (s : State) (asid base size : Nat) (r : List Byte) : State :=
  let earlier := s.due.any fun d => match d with
    | .log a b _ _ => a == asid && b == base
    | _ => false
  if logWaits s asid base size || earlier then { s with due := s.due ++ [.log asid base size r] }
  else match recordBad s asid base with
    | (true, s1) => deviceEvent s1 0xF7 (BitVec.ofNat 64 base)
    | (false, s1) => logAppend s1 asid base size r

/-- Sends a record to a ring of the host: the record, then the index word after it (R356). A guest that
is not resident has it appended to its interrupt log instead (R423). -/
def putRecord (s : State) (asid : Nat) (ring : Dword) (ringlog : Nat) (seq : Word) (r : List Byte) :
    State :=
  let direct := s.put ring ringlog seq r
  if s.host.mgmt.isEmpty then direct
  else match guestEntry s.host.mgmt asid with
    | none => direct
    | some e =>
      if (Mem.read32 s.host.mgmt e).getLsbD 31 then direct
      else s.log (hypervisorOf s.host.mgmt e).1 (Mem.read64 s.host.mgmt (e + 8)).toNat
        (Mem.read64 s.host.mgmt (e + 16)).toNat r

/-- An event record of a graph instance (R356): nothing with ring 0; otherwise the record takes the
instance's seq, which rises by one. -/
def eventNow (s : State) (asid inst node code : Nat) (payload : Dword) : State :=
  match vread64 s asid (inst + 0x20), vread32 s asid (inst + 0x28), vread32 s asid (inst + 0x18) with
  | some ring, some rl, some seq =>
    if ring = 0 then s
    else
      let s1 := vwrite s asid (inst + 0x18) (leBytes 4 (seq + 1).toNat)
      putRecord s1 asid ring rl.toNat seq (recordBytes code node seq (BitVec.ofNat 64 inst) payload s.now)
  | _, _, _ => s

/-- A payload the manual does not state: a free value. -/
def State.freePayload (s : State) : Dword × State :=
  (Config.freeWord s.tick ++ Config.freeWord (s.tick + 1), { s with tick := s.tick + 2 })

/-- Crozier records an error of an instance: E and the code if E was clear, then an event (R354). -/
def errorNow (s : State) (asid inst node code : Nat) (payload : Dword) : State :=
  match vread32 s asid inst with
  | none => s
  | some st =>
    let s1 := if st.getLsbD 30 then s
      else vwrite s asid inst (leBytes 4 ((setBits st 16 8 code) ||| 0x40000000).toNat)
    eventNow s1 asid inst node code payload

/-- A pool slot returns to its arena (R362). -/
def poolFree (s : State) (asid inst : Nat) : State :=
  let free := fun (a : Arena) =>
    let size := 1024 * wbits a.own 0 8
    let pool := dbits a.pool 0 56
    if wbits a.own 20 12 == asid && pool ≤ inst && size != 0 && (inst - pool) % size == 0 then
      { a with taken := a.taken.erase ((inst - pool) / size) } else a
  { s with crozs := s.crozs.map fun c => { c with arenas := c.arenas.map free } }

/-- A node of the instance becomes ready (R356). -/
def upNow (s : State) (asid inst : Nat) : State :=
  match vread32 s asid (inst + 4) with
  | none => s
  | some n => vwrite s asid (inst + 4) (leBytes 4 (n + 1).toNat)

/-- A node of the instance completes, fails or is dropped; with the last one the instance's CANCELLED or
INSTANCE_DONE record is written, unless its nodes raise no events, and its pool slot returns (R356, R362). -/
def downNow (s : State) (asid inst : Nat) (quiet : Bool) : State :=
  match vread32 s asid (inst + 4), vread32 s asid inst with
  | some n, some st =>
    let s1 := vwrite s asid (inst + 4) (leBytes 4 (n - 1).toNat)
    if n = 1 ∧ !quiet then
      let (p, s2) := s1.freePayload
      poolFree (eventNow s2 asid inst 0xFFFF (if st.getLsbD 31 then 6 else 7) p) asid inst
    else s1
  | _, _ => s

/-- The die whose Crozier has an arena of a context that holds an address (R15, R373). -/
def arenaDie (s : State) (asid va : Nat) : Option Nat :=
  (s.crozs.find? fun c => c.arenas.toList.any fun a =>
    a.size.getLsbD 63 && dbits a.base 0 56 ≤ va && va < dbits a.base 0 56 + dbits a.size 0 44 &&
      wbits a.own 20 12 == asid).map (·.die)

/-- The instance of a count word: `va` is the count word of its node `i` (R16). -/
def countWord (s : State) (asid va : Nat) : Option (Nat × Nat) :=
  match vread32 s asid (va + 8) with
  | none => none
  | some i =>
    let inst := va - 256 - 128 * i.toNat
    if va < 256 + 128 * i.toNat ∨ inst % 256 ≠ 0 then none
    else match vread32 s asid (inst + 0x34), vread32 s asid (inst + 0x30) with
      | some k, some n => if k = 1 ∧ i.toNat < n.toNat then some (inst, i.toNat) else none
      | _, _ => none

/-- A page that tells whether `va` is a count word migrates (R157). -/
def countWaits (s : State) (asid va : Nat) : Bool :=
  rangeMigrates s asid va 12 ||
  match vread32 s asid (va + 8) with
  | none => false
  | some i => 256 + 128 * i.toNat ≤ va && rangeMigrates s asid (va - 256 - 128 * i.toNat) 64

/-- Additions to a count word are judged, each at its place in the serial order (R16): a ready notice when it takes the
count to zero with a negative operand, an underflow below zero. -/
def judgeNow (s : State) (die asid va : Nat) (old : Word) (ops : List Word) : State :=
  match countWord s asid va with
  | none => s
  | some (inst, i) =>
    (ops.foldl (fun (p : State × Word) o =>
      let a := p.2 + o
      if o.slt 0 && a == 0 then
        let s1 := upNow p.1 asid inst
        ({ s1 with notices := s1.notices ++ [{ die := die, asid := asid, node := va }] }, a)
      else if a.slt 0 then
        let (pay, s1) := p.1.freePayload
        (errorNow s1 asid inst i 2 pay, a)
      else (p.1, a)) (s, old)).1

/-- The context and instance, or count word, of an entry. -/
def Due.inst : Due → Nat × Nat
  | .error a i _ _ _ | .event a i _ _ _ | .up a i | .down a i _ | .judge _ a i _ _ | .log a i _ _ => (a, i)

/-- The pages of an entry migrate (R157). -/
def Due.waits (s : State) : Due → Bool
  | .judge _ a va _ _ => countWaits s a va
  | .log a base size _ => logWaits s a base size
  | d => rangeMigrates s d.inst.1 d.inst.2 64

/-- The instance record that an entry reads. -/
def Due.record (s : State) : Due → Nat × Nat
  | .judge _ a va _ _ => (a, va - 256 - 128 * ((vread32 s a (va + 8)).map BitVec.toNat).getD 0)
  | d => d.inst

/-- An uncorrectable error is reported for a sector of a range that is read so (R29). -/
def rangeBad (s : State) (asid va n : Nat) : Bool × State :=
  (List.range ((va % 128 + n + 127) / 128)).foldl (fun (p : Bool × State) k =>
    if p.1 then p else recordBad p.2 asid (va / 128 * 128 + 128 * k)) (false, s)

/-- An entry made in its instance's record. -/
def Due.write (s : State) : Due → State
  | .error a i n c p => errorNow s a i n c p
  | .event a i n c p => eventNow s a i n c p
  | .up a i => upNow s a i
  | .down a i q => downNow s a i q
  | .judge d a va o l => judgeNow s d a va o l
  | .log a base size r => logAppend s a base size r

/-- An entry made; of a record that cannot be read for an uncorrectable error the instance cannot be learnt, so the
device event ring takes the address (R17, R29, log 26). -/
def Due.make (s : State) (d : Due) : State :=
  match recordBad s (d.record s).1 (d.record s).2 with
  | (true, s1) => deviceEvent s1 0xF7 (BitVec.ofNat 64 d.inst.2)
  | (false, s1) => d.write s1

/-- An entry can be made: its pages do not migrate, and no earlier one of its instance waits (R157). -/
abbrev instFree (s : State) (l : List Due) (d : Due) : Bool := !(l.any fun x => x.inst == d.inst) && !d.waits s

/-- Crozier makes an entry, or has it wait while the record's page migrates (R157). -/
def State.enter (s : State) (d : Due) : State :=
  if instFree s s.due d then d.make s else { s with due := s.due ++ [d] }

/-- An entry that waits can be made. -/
def State.dueReady (s : State) : Bool := s.due.any fun d => !d.waits s

/-- The entries that wait are made in order, those whose page still migrates wait on (R157). -/
def State.flushDue (s : State) : State :=
  let (s1, kept) := s.due.foldl (fun (p : State × List Due) d =>
    if instFree p.1 p.2 d then (d.make p.1, p.2) else (p.1, p.2 ++ [d])) ({ s with due := [] }, [])
  { s1 with due := kept ++ s1.due }

/-- The place of a node in its instance (R353). -/
abbrev nodeIndex (inst node : Nat) : Nat := (node - inst - 256) / 128

/-- Crozier records an error of an instance (R354). -/
abbrev recordError (s : State) (asid inst node code : Nat) (payload : Dword) : State :=
  s.enter (.error asid inst node code payload)
/-- An event record of an instance (R356). -/
abbrev eventRecord (s : State) (asid inst node code : Nat) (payload : Dword) : State :=
  s.enter (.event asid inst node code payload)
/-- A node of an instance becomes ready (R356). -/
abbrev activeUp (s : State) (asid inst : Nat) : State := s.enter (.up asid inst)
/-- A node of an instance is active no more (R356). -/
abbrev activeDown (s : State) (asid inst : Nat) (quiet : Bool := false) : State := s.enter (.down asid inst quiet)

/-- Crozier's read for a node failed: its instance takes an event, whose code and payload the manual does not state (R29,
log 26). -/
def readFailed (s : State) (asid inst node : Nat) : State :=
  let (p, s1) := s.freePayload
  eventRecord s1 asid inst node (p.toNat % 2 ^ 16) p

/-! ### Clause starts (R30, R31) -/

/-- Stepping over whole clauses from `cur` reaches `target`; `none` while a header's page migrates (R157) or its line
moves (R155). The test sets no accessed bit: R31 gives what a clause start is, and no walk that finds it (log 26). -/
def reaches (s : State) (asid : Nat) : Nat → Nat → Nat → Option Bool
  | 0, cur, target => some (cur == target)
  | n + 1, cur, target =>
    if cur == target then some true
    else if target < cur then some false
    else match vread32 s asid cur with
      | none => if pageMigrates s asid cur then none else some false
      | some h => if lineWaits s asid cur then none else reaches s asid n (cur + 4 * (1 + hdrCount h)) target

/-- An address is a clause start of a registered code region of a context (R31); `none` while a walk that tells it
waits. -/
def clauseStart? (s : State) (asid target : Nat) : Option Bool :=
  if target % 4 ≠ 0 ∨ 2 ^ 56 ≤ target then some false
  else
    let l := ((s.ctxOf asid).regions.filter (· ≤ target)).map fun b => reaches s asid ((target - b) / 4) b target
    if l.any (· == some true) then some true else if l.any Option.isNone then none else some false

/-- A target is a clause start (R31). -/
abbrev clauseStart (s : State) (t : Team) (target : Nat) : Bool := clauseStart? s t.asid target == some true
/-- Whether a target is a clause start is not known while a page migrates (R157). -/
abbrev targetWaits (s : State) (t : Team) (target : Nat) : Bool := clauseStart? s t.asid target == none

/-! ### Where a fibre stands -/

/-- One past the last word of the fibre's clause. -/
abbrev Fibre.clauseEnd (x : Fibre) : Addr := x.pc + BitVec.ofNat 56 (4 * x.rem.toNat)
/-- Address of the header of the clause the fibre is inside (R52). -/
abbrev Fibre.header (x : Fibre) : Addr :=
  x.clauseEnd - BitVec.ofNat 56 (4 * (hdrCount x.clause + 1))

/-! ### Halting (R230) -/

/-- Lanes of a group that are inside a packet which holds a fetch port. -/
def portLanes (s : State) (gid core sched : Nat) : BitVec 32 :=
  let sc := vget (s.coreOf core).scheds sched {}
  let f := fun (p : Option Packet) => match p with
    | some q => if q.gid = gid then q.lanes else 0
    | none => 0
  f sc.port1 ||| f sc.port2

/-- A group halts: running fibres take status 0b111 at their packet boundary (R230). -/
def State.haltGroup (s : State) (gid : Nat) : State :=
  match s.group? gid with
  | none => s
  | some g =>
    let busy := portLanes s gid g.core g.sched
    s.updGroup gid fun g =>
      let g1 := g.updLanes (without (BitVec.allOnes 32) busy) fun _ x =>
        if x.status = .running then { x with status := .halted } else x
      { g1 with halted := true }

/-- Every group of a team halts. -/
def State.haltTeam (s : State) (tid : Nat) : State :=
  (s.teamGroups tid).foldl (fun s g => s.haltGroup g.gid) s

/-! ### The current packet -/

/-- The scheduler's ports after a word: the port of the current packet keeps `p`, and the cycle goes to
port 2's word or to its end (R64). -/
def State.setPort (s : State) (c : Cur) (p : Option Packet) : State :=
  { (s.updCore c.core fun k =>
      let sc := vget k.scheds c.sched {}
      let sc := if c.port2 then { sc with port2 := p } else { sc with port1 := p }
      let sc := { sc with phase := if !c.port2 && sc.port2.isSome then 2 else 0 }
      { k with scheds := vset k.scheds c.sched sc }) with cur := none }

/-- The packet ends: its port is free; fibres of a halted group halt (R64, R230). -/
def State.endPacket (s : State) (c : Cur) (lanes : BitVec 32) : State :=
  (s.updGroup c.pk.gid fun g =>
    if g.halted then
      g.updLanes lanes fun _ x => if x.status = .running then { x with status := .halted } else x
    else g).setPort c none

/-- Lanes taken out of the packets that hold a fetch port of their scheduler: they stand at a packet boundary
from here on (R61, R64). -/
def State.dropLanes (s : State) (gid : Nat) (lanes : BitVec 32) : State :=
  match s.group? gid with
  | none => s
  | some g =>
    let cut := fun (p : Option Packet) => match p with
      | some q => if q.gid = gid then
          (if without q.lanes lanes = 0 then none else some { q with lanes := without q.lanes lanes })
        else some q
      | none => none
    let s1 := if g.halted then s.updGroup gid fun g => g.updLanes lanes fun _ x =>
      if x.status = .running then { x with status := .halted } else x else s
    s1.updCore g.core fun k =>
      let sc := vget k.scheds g.sched {}
      let p1 := cut sc.port1
      let p2 := cut sc.port2
      let ph := if sc.phase = 1 ∧ p1.isNone then 2 else sc.phase
      let ph := if ph = 2 ∧ p2.isNone then 0 else ph
      { k with scheds := vset k.scheds g.sched { phase := ph, port1 := p1, port2 := p2 } }

/-- A word has issued for some lanes: their demotion ends (R67), their skip counts return to 0, but not in a
debugger's step (R63, R91), and demoted siblings no longer wait for them (R68). -/
def Group.issued (g : Group) (lanes : BitVec 32) : Group :=
  g.updLanes (BitVec.allOnes 32) fun i x =>
    if lanes.getLsbD i then
      { x with demoted := false, demWait := 0, skip := if g.halted then x.skip else 0 }
    else { x with demWait := without x.demWait lanes }

/-- What a debugger's step does leaves its group's back-off level as it was (R91). -/
def State.stepKeeps (s : State) (gid : Nat) (stepped : Bool) (old : State) : State :=
  match old.group? gid with
  | some g => if stepped then s.updGroup gid fun x => { x with backoff := g.backoff } else s
  | none => s

/-- The lanes of a group that issue a word have gone on past its operations (R159). -/
def State.goneOn (s : State) (gid : Nat) (lanes : BitVec 32) : State :=
  { s with ops := s.ops.map fun o => if o.gid = gid then { o with still := without o.still lanes } else o }

/-- The word is done: every fibre of the packet goes on by `n` words, and the packet ends with its clause
(R35, R64). -/
def State.advance (s : State) (c : Cur) (n : Nat) : State :=
  let s1 := (s.goneOn c.pk.gid c.pk.lanes).updGroup c.pk.gid fun g => (g.issued c.pk.lanes).updLanes c.pk.lanes fun _ x =>
    { x with pc := x.pc + BitVec.ofNat 56 (4 * n), rem := x.rem - BitVec.ofNat 4 n,
             active := x.active && x.rem != BitVec.ofNat 4 n }
  match s1.group? c.pk.gid with
  | none => s1.setPort c none
  | some g =>
    if (lanesOf c.pk.lanes).any fun i => (g.lane i).rem != 0 && (g.lane i).status == .running then
      s1.setPort c (some { c.pk with lanes := c.pk.lanes &&& g.lanesWhere fun x => x.status == .running })
    else s1.endPacket c c.pk.lanes

/-- The packet's next word is held: the packet ends before it (R61, R64), and the walks it needs are
queued (R157, R158). -/
def State.hold (s : State) (c : Cur) (asid : Nat) (walks : List Nat) : State :=
  let s1 := s.needWalks c.core c.pk.gid asid walks
  s1.endPacket c c.pk.lanes

/-- A control transfer: the lanes of the map go to their targets, the packet's other fibres to the next
clause, and the packet ends (R52, R64). -/
def State.transfer (s : State) (c : Cur) (targets : List (Nat × Addr)) : State :=
  ((s.goneOn c.pk.gid c.pk.lanes).updGroup c.pk.gid fun g => (g.issued c.pk.lanes).updLanes c.pk.lanes fun i x =>
    { x with pc := (assoc targets i).getD x.clauseEnd, rem := 0, active := false }).endPacket c c.pk.lanes

/-! ### Taking a trap and returning from one (R227, R229, R235) -/

/-- What trap entry records in a fibre (R227, R232): it resumes where it stands, or where its fault
says. -/
def Fibre.record (x : Fibre) (f : FaultRec) : Fibre :=
  let (pc, rem, clause) := f.resume.getD (x.pc, x.rem, x.clause)
  { x with
    epc := pc.setWidth 64
    eclause := clause
    estatus := 0x8000 ||| (if x.mode then 0x4000 else 0) ||| (if rem = 0 then 0 else 0x2000) |||
      (if x.demoted then 0x1000 else 0) ||| rem.setWidth 32
    ecause := f.cause.setWidth 32
    eaddr := f.addr
    einfo := f.info }

/-- A live trap record or no handler makes a fault fatal (R229). -/
abbrev Fibre.fatal (x : Fibre) (tvec : Dword) : Bool := x.estatus.getLsbD 15 || tvec == 0

/-- A fibre takes a fault: to the handler, or, when the fault is fatal, into its record only. -/
def Fibre.take (x : Fibre) (tvec : Dword) (f : FaultRec) : Fibre :=
  if x.estatus.getLsbD 15 then { x with ecause := setBits x.ecause 8 8 f.cause.toNat }
  else if tvec = 0 then x.record f
  else { x.record f with mode := true, demoted := false, demWait := 0, pc := tvec.setWidth 56, rem := 0,
                         active := false }

/-- The record of one lane of a packet: the lane's own failed check with EINFO[31], else the base
(R225, R226). -/
def laneFault (base : FaultRec) (own : List (Nat × FaultRec)) (i : Nat) : FaultRec :=
  match assoc own i with
  | some f => { base with addr := f.addr, resume := f.resume, info := (if f.cause = base.cause then f.info else base.info) ||| 0x80000000 }
  | none => base

/-- Trap entry, one step for all the fibres of `lanes`: each records where it stands and goes to the
handler; XLFAULTVA and XLFAULTINFO are written for the group by a fault that carries them (R162); a
fatal fault halts the team and records TEAM_FAULT with its graph instance (R229). -/
def State.takeTrap (s : State) (gid : Nat) (lanes : BitVec 32) (base : FaultRec)
    (own : List (Nat × FaultRec)) : State :=
  match s.group? gid, s.teamOf? gid with
  | some g, some t =>
    let fatal := (lanesOf lanes).any fun i => (g.lane i).fatal t.tvec
    let s1 := s.updGroup gid fun g =>
      let g := g.updLanes lanes fun i x =>
        let y := x.take t.tvec (laneFault base own i)
        if g.halted && y.status == .running then { y with status := .halted } else y
      match base.xl with
      | some (va, info) => { g with xlVa := va, xlInfo := info }
      | none => g
    if fatal then
      let (p, s2) := (s1.haltTeam t.tid).freePayload
      recordError s2 t.asid t.launch.inst (nodeIndex t.launch.inst t.launch.node) 3 p
    else s1
  | _, _ => s

/-- A guest's stage-2 failure in its hypervisor's log (R424). -/
def stage2Log (s : State) (asid gpa : Nat) : State :=
  match guestEntry s.host.mgmt asid with
  | none => s
  | some e =>
    let hv := hypervisorOf s.host.mgmt e
    s.log hv.1 hv.2.1 hv.2.2
      (recordBytes 0x00F6 0xFFFF 0 (BitVec.ofNat 64 asid) (BitVec.ofNat 64 gpa) s.now)

/-- A stage-2 failure of a group's access: XLFAULTVA and XLFAULTINFO take it with S2 set, the team halts, and its
hypervisor's log takes a record (R158, R162, R424). No fibre enters its handler. -/
def stage2Fault (s : State) (tid gid asid gpa : Nat) (xl : Option (Dword × Dword)) : State :=
  let s0 := match xl with
    | some (va, info) => s.updGroup gid fun g => { g with xlVa := va, xlInfo := info }
    | none => s
  stage2Log (s0.haltTeam tid) asid gpa

/-- Fibres of a group take a fault at a word of theirs; a walk's failure that raised it is used up. A failure in stage 2
goes to the hypervisor, and the word executes again after it (R424). -/
def State.raise (s : State) (core gid : Nat) (lanes : BitVec 32) (base : FaultRec) (own : List (Nat × FaultRec)) :
    State :=
  let asid := s.asidOf gid
  let pages := (base :: own.map (·.2)).map fun f => f.addr.toNat / 2 ^ 16
  let s1 := s.updCore core fun k =>
    { k with fails := k.fails.filter fun f => !(f.asid == asid && pages.contains f.page) }
  match base.gpa with
  | some gpa => stage2Fault s1 (((s1.group? gid).map (·.tid)).getD 0) gid asid gpa base.xl
  | none => s1.takeTrap gid lanes base own

/-- The current packet takes a fault: the active fibres trap, or all of them for a header fault, the
packet ends (R64, R226, R227). -/
def State.trapPacket (s : State) (c : Cur) (lanes : BitVec 32) (base : FaultRec)
    (own : List (Nat × FaultRec)) : State :=
  let left := if base.gpa.isSome then c.pk.lanes else without c.pk.lanes lanes
  (s.endPacket c left).raise c.core c.pk.gid lanes base own

/-- A fault of the word at hand: every active fibre traps (R226). No operand of a fibre has failed, so EINFO[31] is clear
(R225; DESIGN CHOICE, log 26). -/
def State.fault (s : State) (c : Cur) (lanes : BitVec 32) (code : BitVec 8) (info : Nat := 0)
    (addr : Nat := 0) : State :=
  s.trapPacket c lanes (plainFault code info addr) []

/-- `RTE` of one fibre (R235). -/
def Fibre.returnFrom (x : Fibre) : Fibre :=
  { x with
    mode := x.estatus.getLsbD 14
    demoted := x.estatus.getLsbD 12
    demWait := 0
    clause := x.eclause
    estatus := setBits x.estatus 15 1 0
    pc := x.epc.setWidth 56
    rem := if x.estatus.getLsbD 13 then x.estatus.extractLsb' 0 4 else 0
    active := x.estatus.getLsbD 13 }

/-! ### Doing an encoded instruction -/

/-- The active fibres of a packet (R35). -/
abbrev Group.active (g : Group) (pk : Packet) : BitVec 32 :=
  pk.lanes &&& g.lanesWhere fun x => x.active && x.status == .running

/-- The packet in hand with its group and team. -/
structure Here where
  c : Cur
  g : Group
  t : Team
  deriving Repr

/-- The active lanes of the packet in hand. -/
abbrev Here.act (h : Here) : BitVec 32 := h.g.active h.c.pk
/-- The lowest active lane. -/
abbrev Here.lead (h : Here) : Nat := ((lanesOf h.act).head?).getD 0
/-- A fibre of the packet: all stand at the same word. -/
abbrev Here.first (h : Here) : Fibre := h.g.lane (((lanesOf h.c.pk.lanes).head?).getD 0)
/-- The header of the packet's clause. -/
abbrev Here.hdr (h : Here) : Word := h.first.clause
/-- The packet runs in user mode: some active fibre does. -/
abbrev Here.user (h : Here) : Bool := (lanesOf h.act).any fun i => !(h.g.lane i).mode

/-- The packet in hand, if the state has one. -/
def State.here? (s : State) : Option Here :=
  match s.cur with
  | none => none
  | some c =>
    match s.group? c.pk.gid with
    | none => none
    | some g => (s.team? g.tid).map fun t => { c := c, g := g, t := t }

/-- An outcome for the packet in hand; without one, the fault `noPacket`. -/
def withPacket (s : State) (f : Here → State) : Host.Outcome State Fault Refusal :=
  match s.here? with
  | some h => .next (f h)
  | none => .fault .noPacket

/-- A machine step that is taken only when its conditions hold. -/
def whenEnabled (b : Bool) (s : State) (f : State → State) : Host.Outcome State Fault Refusal :=
  if b then .next (f s) else .fault .notEnabled

/-- A step that an outside party makes: it is the oldest event not yet delivered (log 5). -/
def fromOutside (i : Instr) (s : State) (f : State → State) : Host.Outcome State Fault Refusal :=
  whenEnabled (s.inputs.head? == some i) s fun s => f { s with inputs := s.inputs.drop 1 }

end Sys2Proof.Machine
end

