-- ==== Sys2Proof/Machine/Operands.lean ====
section
/-!
DEFINITION. Operand forms: literals (R45), registers and scalars (R42 to R44), constant-window words
(R42, R152, R231), channels (R47, R198 to R201), and the conditions under which a packet's next word
issues (R61).
-/

namespace Sys2Proof.Machine

open Sys2Proof

/-! ### Literals (R45) -/

/-- A small integer as f32, exactly. -/
def f32OfInt (v : Int) : Nat :=
  if v = 0 then 0
  else
    let m := v.natAbs
    let e := Nat.log2 m
    (if v < 0 then 2 ^ 31 else 0) + (127 + e) * 2 ^ 23 + (m - 2 ^ e) * 2 ^ (23 - e)

/-- A small integer as f64, exactly. -/
def f64OfInt (v : Int) : Nat :=
  if v = 0 then 0
  else
    let m := v.natAbs
    let e := Nat.log2 m
    (if v < 0 then 2 ^ 63 else 0) + (1023 + e) * 2 ^ 52 + (m - 2 ^ e) * 2 ^ (52 - e)

/-- An integer below 256 in size as tf32, exactly: regime 0, three exponent bits, 26 fraction bits
(R122). -/
def tf32OfInt (v : Int) : Nat :=
  if v = 0 then 0
  else
    let m := v.natAbs
    let e := Nat.log2 m
    let w := 2 ^ 30 + e * 2 ^ 26 + (m - 2 ^ e) * 2 ^ (26 - e)
    if v < 0 then 2 ^ 32 - w else w

/-- An f32 pattern as f64, exactly; the payload of a NaN moves up with the fraction. -/
def f32ToF64 (b : Nat) : Nat :=
  let s := nbits b 31 1 * 2 ^ 63
  let e := nbits b 23 8
  let f := nbits b 0 23
  if e = 255 then s + 2047 * 2 ^ 52 + f * 2 ^ 29
  else if e = 0 then
    if f = 0 then s
    else s + (1023 - 149 + Nat.log2 f) * 2 ^ 52 + (f - 2 ^ Nat.log2 f) * 2 ^ (52 - Nat.log2 f)
  else s + (e + 1023 - 127) * 2 ^ 52 + f * 2 ^ 29

/-- An inline literal in the width and kind it stands for. -/
def inlineVal (k : Kind) (x : BitVec 6) : Dword :=
  match k with
  | .w32 => (x.signExtend 32).setWidth 64
  | .w64 | .w128 => x.signExtend 64
  | .f32 => BitVec.ofNat 64 (f32OfInt x.toInt)
  | .f64 => BitVec.ofNat 64 (f64OfInt x.toInt)
  | .tf32 => BitVec.ofNat 64 (tf32OfInt x.toInt)

/-- A literal in an extension word in the width and kind it stands for. -/
def extVal (k : Kind) (e : Word) : Dword :=
  match k with
  | .w64 | .w128 => e.signExtend 64
  | .f64 => BitVec.ofNat 64 (f32ToF64 e.toNat)
  | _ => e.setWidth 64

/-! ### Constant words (R42, R152, R165) -/

/-- A bank's length in bytes; none when it is not mapped (R165). -/
def bankLen (cb : Dword) : Option Nat := if cb.getLsbD 0 then some (256 * (dbits cb 56 8 + 1)) else none

/-- The check of a constant access of `n` bytes at `off` of the constant space (R151, R152): the virtual
address behind it. -/
def constAddr (c : Ctx) (off n lane : Nat) : Except FaultRec Nat :=
  let cb := vget c.cbank (nbits off 16 4) 0
  match bankLen cb with
  | some len =>
    if off < 0x100000 && off % 65536 + n ≤ len then .ok (dbits cb 8 48 * 256 + off % 65536)
    else .error (checkFault fConstBounds off lane .load 5)
  | none => .error (checkFault fConstBounds off lane .load 5)

/-- The words of the constant window that an instruction reads, by number. -/
def constWords (l : List Opd) : List Nat :=
  l.flatMap fun o => match o.src with
    | .c n => (List.range o.kind.regs).map (n.toNat + ·)
    | _ => []

/-- A fault in which every active fibre's own operand failed (R225). -/
abbrev allOwn (act : BitVec 32) (f : FaultRec) : List (Nat × FaultRec) := (lanesOf act).map fun i => (i, f)

/-- The check of a constant word at an offset in every active fibre (R151): the packet's translation, or the fault of
the lowest fibre that fails with the faults of all that do, or a hold. -/
def constCheck (s : State) (h : Here) (off : Nat) (inBank : Bool) : Res (Nat × Trans) :=
  let one := fun (lane : Nat) =>
    match (if inBank then constAddr (s.ctxOf h.t.asid) off 4 lane else .error (checkFault fConstBounds off lane .load 5)) with
    | .error f => Res.trap f []
    | .ok va => match translate s h.c.core h.t.asid va lane .load (!(h.g.lane lane).mode) with
      | .ok t => .ok (va, t)
      | .trap f o => .trap f o
      | .hold w => .hold w
  let rs := (lanesOf h.act).map fun i => (i, one i)
  let own := rs.filterMap fun p => match p.2 with
    | .trap f _ => some (p.1, f)
    | _ => none
  match own, one h.lead with
  | (_, f) :: _, _ => .trap f own
  | [], r => r

/-- The constant words c[n] of an instruction: read at CBASE + 4n through the constant cache. A read that is returned
for a stale generation walks again (R159). A word of class I raises the faults of such a read too, as R151, R152 and
R231 have it, though R96 names decode and channel faults alone (DESIGN CHOICE, log 26). -/
def readConsts (s : State) (h : Here) : List Nat → Res (List (Nat × Word) × State)
  | [] => .ok ([], s)
  | n :: r =>
    let o := wbits h.g.cbase 2 14 * 4 + 4 * n
    let off := wbits h.g.cbase 16 4 * 65536 + o
    match constCheck s h off (o < 65536) with
    | .trap f own => .trap f own
    | .hold w => .hold w
    | .ok (va, t) =>
      match readConst s h.c.core h.t.asid off 4 t with
      | (.waits, _) => .hold []
      | (.rejected, _) => .hold [va]
      | (.error, _) => .trap (plainFault fDataError 0 off) (allOwn h.act (plainFault fDataError 0 off))
      | (.bytes l, s1) =>
        match readConsts s1 h r with
        | .ok (l2, s2) => .ok ((n, BitVec.ofNat 32 (leNat l)) :: l2, s2)
        | .trap f o => .trap f o
        | .hold w => .hold w

/-! ### Channels (R47, R198-R201) -/

/-- Channel fields of an instruction in the order of R46: sources, then the destination. -/
inductive ChUse where
  | pop | peek | push
  deriving DecidableEq, Repr

def chanUses (sh : Shape) : List (ChUse × Nat × Nat) :=
  (sh.srcs.filterMap fun o => match o.src with
    | .pop c => some (.pop, c.toNat, o.kind.regs)
    | .peek c => some (.peek, c.toNat, o.kind.regs)
    | _ => none) ++
  (match sh.dst with
   | some (.push c, k) => [(.push, c.toNat, k.regs)]
   | _ => [])

/-- Elements an instruction pops from (or pushes into) a channel, over every active fibre and field. -/
def chanCount (uses : List (ChUse × Nat × Nat)) (u : ChUse) (ch lanes : Nat) : Nat :=
  lanes * (uses.filter fun x => x.1 = u && x.2.1 = ch).length

/-- The checks of R200, in order; the fault and the channel. -/
def chanFault (chans : List (Nat × Channel)) (tid lanes : Nat) (uses : List (ChUse × Nat × Nat)) :
    Option FaultRec :=
  uses.findSome? fun (_, ch, regs) =>
    match assoc chans ch with
    | none => some (plainFault fChUnconfigured ch)
    | some k =>
      if k.owner ≠ tid then some (plainFault fChOwner ch)
      else if regs ≠ (if k.w64 then 2 else 1) then some (plainFault fChWidth ch)
      else if k.depth < chanCount uses .pop ch lanes || k.depth < chanCount uses .push ch lanes then
        some (plainFault fChState ch)
      else none

/-- Every active fibre's element can be served (R47): enough elements to pop, one to peek at, and room
for what is pushed after the pops of the same instruction. -/
def chanServed (chans : List (Nat × Channel)) (lanes : Nat) (uses : List (ChUse × Nat × Nat)) : Bool :=
  uses.all fun (u, ch, _) =>
    match assoc chans ch with
    | none => true
    | some k =>
      match u with
      | .pop => chanCount uses .pop ch lanes ≤ k.count
      | .peek => 1 ≤ k.count
      | .push => k.count - chanCount uses .pop ch lanes + chanCount uses .push ch lanes ≤ k.depth

/-- Bytes of an element. -/
abbrev Channel.width (k : Channel) : Nat := if k.w64 then 8 else 4

/-- Element number `i` from the oldest, read in the owner's scratchpad. -/
def Channel.elem (k : Channel) (scratch : List Host.Cell) (i : Nat) : Dword :=
  BitVec.ofNat 64 (leNat (Mem.read scratch (k.base + (k.head + i) % k.depth * k.width) k.width))

/-- A value appended. -/
def chanPush (s : State) (core ch tid : Nat) (v : Dword) : State :=
  match assoc (s.coreOf core).chans ch with
  | none => s
  | some k =>
    (s.updTeam tid fun t =>
      { t with scratch := Mem.write t.scratch (k.base + (k.head + k.count) % k.depth * k.width)
                            (leBytes k.width v.toNat) }).updCore core fun c =>
      { c with chans := assocSet c.chans ch { k with count := k.count + 1 } }

/-- The oldest `n` elements removed. -/
def chanDrop (s : State) (core ch n : Nat) : State :=
  s.updCore core fun c =>
    match assoc c.chans ch with
    | none => c
    | some k =>
      let k1 := { k with count := k.count - n, head := (k.head + n) % max k.depth 1 }
      { c with chans := assocSet c.chans ch k1 }

/-! ### Source values -/

/-- Value of a source in a lane; channel sources are read by their place among the elements: the lane's
place among the active lanes and the field's place among the pops of the same channel (R47). -/
def srcVal (h : Here) (consts : List (Nat × Word)) (chans : List (Nat × Channel))
    (lane place pops field : Nat) (o : Opd) : Dword :=
  match o.src with
  | .v n => BitVec.ofNat 64 ((h.g.lane lane).wide n.toNat (min o.kind.regs 2))
  | .s n => BitVec.ofNat 64 (h.g.scalarWide n.toNat (min o.kind.regs 2))
  | .c n =>
    if o.kind.regs = 2 then pairOf ((assoc consts (n.toNat + 1)).getD 0) ((assoc consts n.toNat).getD 0)
    else ((assoc consts n.toNat).getD 0).setWidth 64
  | .inl x => inlineVal o.kind x
  | .ext e => extVal o.kind e
  | .pop c => match assoc chans c.toNat with
    | some k => k.elem h.t.scratch (place * pops + field)
    | none => 0
  | .peek c => match assoc chans c.toNat with
    | some k => k.elem h.t.scratch 0
    | none => 0

/-- Pops of a channel among some sources. -/
def popsOf (l : List Opd) (c : BitVec 5) : Nat := (l.filter fun o => o.src == .pop c).length

/-- The values of a lane's sources in the order of R46. -/
def srcVals (h : Here) (consts : List (Nat × Word)) (chans : List (Nat × Channel)) (lane place : Nat)
    (l : List Opd) : List Dword :=
  (List.range l.length).filterMap fun j => l[j]?.map fun o =>
    match o.src with
    | .pop c => srcVal h consts chans lane place (popsOf l c) (popsOf (l.take j) c) o
    | _ => srcVal h consts chans lane place 0 0 o

/-- One active lane's inputs: its number, its source values, its predicates. -/
structure LaneIn where
  lane : Nat
  a : List Dword
  preds : BitVec 64
  deriving DecidableEq, Repr

/-- Source `k` of a lane. -/
abbrev LaneIn.s (x : LaneIn) (k : Nat) : Dword := (x.a[k]?).getD 0
/-- Source `k` of a lane as a word. -/
abbrev LaneIn.w (x : LaneIn) (k : Nat) : Word := (x.s k).setWidth 32

/-- The inputs of every active lane, ascending. -/
def laneIns (s : State) (h : Here) (consts : List (Nat × Word)) (l : List Opd) : List LaneIn :=
  let act := lanesOf h.act
  let chans := (s.coreOf h.c.core).chans
  List.zipWith (fun place lane =>
    { lane := lane, a := srcVals h consts chans lane place l, preds := (h.g.lane lane).preds })
    (List.range act.length) act

/-! ### When a word issues (R61) -/

/-- Entries an operation holds in the outstanding table (R169): one for each 128-byte sector. A parked `WAITC` keeps
its entries until its fibres are released (log 26). -/
def otEntries (o : Op) : Nat :=
  match o.kind with
  | .redf | .fence .. | .slice | .copy .. | .matrix .. | .stageWait .. | .benq | .batch .. | .event ..
  | .commit .. | .graph .. => 0
  | _ => ((o.accs.filter fun a => o.lanes.getLsbD a.lane).map fun a => a.tr.pa / 128).eraseDups.length

/-- Entries of the outstanding table in use on a core, of 4096. -/
def otUsed (s : State) (core : Nat) : Nat := ((s.coreOps core).map otEntries).sum

/-- The engine queue an instruction issues into, and its depth (R7, R8). -/
def queueDepth (i : Instr) : Option Nat :=
  match i with
  | .mark .. | .cut .. | .graft .. | .sdrop .. | .sdropHold .. | .sinfo .. => some 8
  | .lease .. | .lfree => some 4
  | .launch .. | .gdec .. | .gcond .. | .event .. => some 8
  | .mreset .. | .benq .. => none
  | i => match i.cls with
    | some .X => some 16
    | some .K => some 32
    | _ => none

/-- An operation stands in the queue that an instruction would issue into: issued, not yet started. -/
def inQueue (i : Instr) (o : Op) : Bool :=
  match o.kind with
  | .copy c => i.cls = some .K && queueDepth i = some 32 && !c.started && !c.bulk
  | .matrix q => i.cls = some .X && !q.started
  | .batch _ started => i.cls = some .X && !started
  | .slice => queueDepth i = some 8 && i.cls = some .C
  | .graph _ => queueDepth i = some 8 && i.cls ≠ some .C
  | .stageWait (.lease ..) _ | .stageWait .lfree _ => queueDepth i = some 4
  | _ => false

/-- The queue has room for one more operation. -/
def queueRoom (s : State) (core : Nat) (i : Instr) : Bool :=
  match queueDepth i with
  | none => true
  | some d => ((s.coreOps core).filter (inQueue i)).length < d

/-- Stores into the group's queue (R206): held while a slice instruction still enters sectors. -/
def entersSq : Instr → Bool
  | .st .. | .stl .. | .call .. | .callx .. | .mark .. | .graft .. => true
  | _ => false

/-- The lanes whose fibres can issue the word, among some (R61): active ones that the scoreboard does not
stop and no operation holds; guard-false ones go with them. -/
def laneReady (s : State) (g : Group) (i : Instr) (lanes act : BitVec 32) : BitVec 32 :=
  let ops := s.groupOps g.gid
  let t := touches i
  maskIf fun k => lanes.getLsbD k && !laneHeld ops k && !(act.getLsbD k && laneBlocked ops k t)

/-- The address operand, offset and space of a class M word's accesses, and of the pushes and pops of calls (R60). -/
def reach : Instr → Option (Option (Src × Option Word × Space))
  | .ld _ a off _ _ sp _ | .st _ a off _ _ sp => some (some (a, off, sp))
  | .lda _ a off _ _ _ | .ldp _ a off _ => some (some (a, off, .global))
  | .stl _ a _ _ | .atom _ a _ _ _ _ _ _ | .waitc _ a _ _ _ _ | .red a .. | .cctl a .wb => some (some (a, none, .global))
  | .pref a off _ _ => some (some (a, off, .global))
  | .call .. | .callx .. | .ret => some none
  | _ => none

/-- The sectors that a word's active fibres reach, by address (R169, R206). Accesses that an open remote region buffers
are none of them. -/
def wordSectors (g : Group) (i : Instr) (act : BitVec 32) : List Nat :=
  ((lanesOf act).flatMap fun l =>
    let x := g.lane l
    match reach i with
    | none => []
    | some none => [(x.sp - (match i with | .ret => 0 | _ => 8)).toNat / 128]
    | some (some (a, off, sp)) =>
      let base : Dword := match a with
        | .v n => BitVec.ofNat 64 (x.wide n.toNat 2)
        | .s n => BitVec.ofNat 64 (g.scalarWide n.toNat 2)
        | _ => 0
      let va := match sp with
        | .global => (base + (off.getD 0).signExtend 64).toNat
        | _ => ((base.setWidth 32 : Word) + off.getD 0).toNat
      if x.region.isSome && isRemote va then []
      else match i with
        | .pref _ _ true _ => [va / 256 * 2, va / 256 * 2 + 1]
        | _ => [va / 128]).eraseDups

/-- The store queue and the outstanding table have room for the word (R61, R169, R206). -/
def memRoom (s : State) (g : Group) (i : Instr) (act : BitVec 32) : Bool :=
  match reach i with
  | none => true
  | some _ =>
    let n := (wordSectors g i act).length
    let sq := match i with
      | .st .. | .stl .. | .call .. | .callx .. => true
      | _ => false
    (!sq || g.sq.length + n ≤ 32) && (decide (otUsed s g.core + n ≤ 4096))

/-- A matrix instruction that signs a convergence register: only the completing signature issues it (R85). -/
def signs : Instr → Bool
  | .mzero _ cv _ | .mma _ cv .. | .mmac _ cv .. | .mload _ cv .. | .mstore _ cv .. | .mgather _ cv .. => cv.isSome
  | _ => false

/-- What holds the packet as a whole (R8, R38, R47, R61, R169, R206). A push is a release at team scope: the group's
earlier stores and atomics are performed there first (R201, R211). -/
def packetReady (s : State) (g : Group) (tid : Nat) (i : Instr) (hdr : Word) (act : BitVec 32) : Bool :=
  (signs i || (!(longLatency i && g.saturated (setFlags hdr)) && queueRoom s g.core i)) &&
  !(entersSq i && !g.entering.isEmpty) && memRoom s g i act &&
  (let uses := chanUses (shape i)
   uses.isEmpty ||
     (let chans := (s.coreOf g.core).chans
      (chanFault chans tid (lanesOf act).length uses).isSome ||
        (chanServed chans (lanesOf act).length uses &&
          (!(uses.any fun u => u.1 == .push) || performedAt s g.gid s.serial .team))))

/-- Issues a word: placement and window rules first (R37, R43, R56), then the lanes that are held split
off (R61), then the channel faults of R200; what is left does `k`. A channel's fault comes before that of a constant word
(DESIGN CHOICE, log 26: R56 gives execution faults no order). -/
def issue (i : Instr) (s : State) (k : Here → State) : Host.Outcome State Fault Refusal :=
  withPacket s fun h =>
    if (isTransfer i && h.first.rem.toNat != i.words) || !fits i h.g.window then
      s.fault h.c h.act fIllegalEncoding
    else
      let r := laneReady s h.g i h.c.pk.lanes h.act
      let h1 : Here := { h with c := { h.c with pk := { h.c.pk with lanes := r } } }
      if h1.act = 0 then
        if h.act = 0 then s.advance h.c i.words else s.hold h.c h.t.asid []
      else if !packetReady s h.g h.t.tid i h.hdr h1.act then s.hold h.c h.t.asid []
      else
        let uses := chanUses (shape i)
        match (if uses.isEmpty then none
               else chanFault (s.coreOf h.c.core).chans h.t.tid (lanesOf h1.act).length uses) with
        | some f => s.trapPacket h1.c h1.act f (allOwn h1.act f)
        | none => k h1

end Sys2Proof.Machine
end

