-- ==== Sys2Proof/Machine/Vec.lean ====
section
/-!
DEFINITION. The one way a class I or class F instruction runs (R95, R132): every active fibre's sources
are read, then every destination is written, in issue order; the packet goes on to its next word.
-/

namespace Sys2Proof.Machine

open Sys2Proof

abbrev Out := Host.Outcome State Fault Refusal

/-- What one active lane writes: a value for the destination, predicates, and floating-point status. -/
structure LaneOut where
  val : Dword := 0
  pset : List (Nat × Bool) := []
  fl : BitVec 6 := 0
  deriving DecidableEq, Repr

/-- One lane's predicates written. -/
def Fibre.setPreds (x : Fibre) (l : List (Nat × Bool)) : Fibre := l.foldl (fun x p => x.setPred p.1 p.2) x

/-- The pops of an instruction taken from its channels. -/
def popAll (s : State) (core lanes : Nat) (sh : Shape) : State :=
  sh.srcs.foldl (fun s o => match o.src with
    | .pop c => chanDrop s core c.toNat lanes
    | _ => s) s

/-- Results written: the destination in each active lane, or the scalar from the lowest one, or one
element pushed for each in ascending lane order (R44, R47); predicates; the union of the status flags
(R119). -/
def writeBack (s : State) (h : Here) (sh : Shape) (outs : List (Nat × LaneOut)) : State :=
  let s1 := s.updGroup h.g.gid fun g =>
    let g1 := outs.foldl (fun (g : Group) p => g.setLane p.1 ((g.lane p.1).setPreds p.2.pset)) g
    let g2 : Group := match sh.dst with
      | some (d, k) => g1.writeDst d k.regs h.lead (outs.map fun p => (p.1, p.2.val.toNat))
      | none => g1
    { g2 with fpctl := orFlags g2.fpctl (outs.foldl (fun f p => f ||| p.2.fl) 0) }
  match sh.dst with
  | some (.push c, _) => outs.foldl (fun s p => chanPush s h.c.core c.toNat h.t.tid p.2.val) s1
  | _ => s1

/-- Runs a class I or class F instruction: `f` maps the active lanes' inputs, ascending, to what each
writes. -/
def vecExec (i : Instr) (f : Here → List LaneIn → List LaneOut) (s : State) :
    Host.Outcome State Fault Refusal :=
  issue i s fun h =>
    let sh := shape i
    match readConsts s h (constWords sh.srcs) with
    | .trap b o => s.trapPacket h.c h.act b o
    | .hold w => s.hold h.c h.t.asid w
    | .ok (consts, s1) =>
      let ins := laneIns s1 h consts sh.srcs
      let outs := List.zip (ins.map (·.lane)) (f h ins)
      (writeBack (popAll s1 h.c.core ins.length sh) h sh outs).advance h.c i.words

/-- A result computed lane by lane. -/
abbrev each (f : LaneIn → LaneOut) : Here → List LaneIn → List LaneOut := fun _ l => l.map f

/-- A 32-bit result. -/
abbrev out32 (x : Word) : LaneOut := { val := x.setWidth 64 }
/-- A 64-bit result. -/
abbrev out64 (x : Dword) : LaneOut := { val := x }
/-- A predicate result. -/
abbrev outP (pd : BitVec 6) (b : Bool) : LaneOut := { pset := [(pd.toNat, b)] }
/-- Predicate `p` of a lane's inputs; p0 reads true. -/
abbrev LaneIn.p (x : LaneIn) (p : Nat) : Bool := p == 0 || x.preds.getLsbD p

end Sys2Proof.Machine
end

