-- ==== Sys2Proof/Machine/Int.lean ====
section
/-!
DEFINITION. Class I: integer, logic, predicate and lane instructions (R95 to R114).
-/

namespace Sys2Proof.Machine

open Sys2Proof

/-! ### Values -/

/-- Population count (R99). -/
def popCount (a : Word) : Word := BitVec.ofNat 32 ((List.range 32).filter a.getLsbD).length
/-- Leading zeros (R99). -/
def leadZeros (a : Word) : Word := if a = 0 then 32 else BitVec.ofNat 32 (31 - Nat.log2 a.toNat)
/-- Bits reversed (R99). -/
def bitRev (a : Word) : Word :=
  BitVec.ofNat 32 (((List.range 32).filter a.getLsbD).foldl (fun n i => n + 2 ^ (31 - i)) 0)
/-- Shifts by a natural amount: 0 (or the sign) from the width up (R98, R100). -/
abbrev shlN {w : Nat} (a : BitVec w) (n : Nat) : BitVec w := if n < w then a <<< n else 0
abbrev shrN {w : Nat} (a : BitVec w) (n : Nat) : BitVec w := if n < w then a >>> n else 0
abbrev sarN {w : Nat} (a : BitVec w) (n : Nat) : BitVec w := a.sshiftRight (min n w)
/-- A number held to a range. -/
abbrev clampI (x lo hi : Int) : Int := max lo (min hi x)

/-- `IMAD` (R101). -/
def imadVal (m : MadMode) (a b c : Word) : Word :=
  match m with
  | .wrap => a * b + c
  | .sat => BitVec.ofInt 32 (clampI (a.toInt * b.toInt + c.toInt) (-2 ^ 31) (2 ^ 31 - 1))
  | .satn => BitVec.ofNat 32 (min (a.toNat * b.toNat + c.toNat) (2 ^ 32 - 1))

/-- `LEA` (R102). -/
def leaVal (n : Bool) (sh : BitVec 3) (base : Dword) (index offset : Word) : Dword :=
  base + (if n then index.setWidth 64 else index.signExtend 64) <<< sh.toNat + offset.signExtend 64

/-- `BFX` (R103). -/
def bfxVal (sx : Bool) (a : Word) (pos width : Nat) : Word :=
  if 32 ≤ pos ∨ width = 0 then 0
  else
    let w := min width (32 - pos)
    let f := nbits a.toNat pos w
    if sx && Nat.testBit f (w - 1) then BitVec.ofNat 32 (f + 2 ^ 32 - 2 ^ w) else BitVec.ofNat 32 f

/-- `BFI` (R103). -/
def bfiVal (width : Nat) (base value : Word) (pos : Nat) : Word :=
  if 32 ≤ pos ∨ width = 0 then base
  else
    let w := min width (32 - pos)
    let m : Word := BitVec.ofNat 32 ((2 ^ w - 1) * 2 ^ pos)
    (base &&& ~~~m) ||| ((value <<< pos) &&& m)

/-- Width of an integer type. -/
abbrev intW : IntTy → Nat
  | .i8 | .n8 => 8 | .i16 | .n16 => 16 | .i32 | .n32 => 32 | .i64 | .n64 => 64
/-- Signed types. -/
abbrev intSgn : IntTy → Bool
  | .i8 | .i16 | .i32 | .i64 => true
  | _ => false
/-- The low bits of a number read as a type. -/
def intRead (t : IntTy) (v : Int) : Int :=
  let n := v % 2 ^ (intW t)
  if intSgn t && 2 ^ (intW t - 1) ≤ n then n - 2 ^ (intW t) else n
abbrev intLo (t : IntTy) : Int := if intSgn t then -(2 ^ (intW t - 1)) else 0
abbrev intHi (t : IntTy) : Int := if intSgn t then 2 ^ (intW t - 1) - 1 else 2 ^ (intW t) - 1

/-- `CVTI` (R105). The extension to the destination's width is the type's own. -/
def cvtiVal (sat : Bool) (tt fr : IntTy) (a : Dword) (shift : Nat) : Dword :=
  let v := intRead fr a.toNat
  let v := if 64 ≤ shift then (if v < 0 then -1 else 0) else Int.fdiv v (2 ^ shift)
  let v := if sat then clampI v (intLo tt) (intHi tt) else intRead tt v
  if intW tt = 64 then BitVec.ofInt 64 v else (BitVec.ofInt 32 v).setWidth 64

/-- Conditions of `ICMPS` and `ICMPN` over numbers (R106). -/
def ccInt (cc : BitVec 2) (a b : Int) : Bool :=
  match cc.toNat with
  | 0 => a = b | 1 => a ≠ b | 2 => a < b | _ => a ≤ b

/-- Conditions of `ICMP64` (R106). -/
def cc64 (cc : BitVec 2) (a b : Dword) : Bool :=
  match cc.toNat with
  | 0 => a = b | 1 => a ≠ b | 2 => a.slt b | _ => a.ult b

/-- `PLOG` (R107). -/
def plogVal (fn : PlogFn) (a b : Bool) : Bool :=
  match fn with
  | .and => a && b | .or => a || b | .xor => a != b | .mov => a

/-- One round of `RAND` (R114). -/
def randRound (w z : Dword) : Dword :=
  let z := z + w
  let z := z ^^^ (z >>> 29)
  let z := z * 0xB4F16A2D3C87E951
  z ^^^ (z >>> 32)

/-- Rounds of `RAND`. -/
abbrev roundCount : RandRounds → Nat
  | .r2 => 2 | .r4 => 4 | .r6 => 6 | .r8 => 8

/-- The mixed 64 bits of `RAND` (R114). -/
def randMix (n : Nat) (key counter stream : Word) : Dword :=
  let w := pairOf key (key ^^^ 0x5A5A5A5A)
  (List.range n).foldl (fun z _ => randRound w z) (pairOf stream counter)

/-- A 24-bit natural over 2^24 as f32, exactly. -/
def f32Frac24 (n : Nat) : Nat :=
  if n = 0 then 0 else (127 - 24 + Nat.log2 n) * 2 ^ 23 + (n - 2 ^ Nat.log2 n) * 2 ^ (23 - Nat.log2 n)

/-- `RAND` (R114). -/
def randVal (out : RandOut) (rounds : RandRounds) (key counter stream : Word) : Dword :=
  let z := randMix (roundCount rounds) key counter stream
  match out with
  | .n32 => (z.extractLsb' 0 32).setWidth 64
  | .f32 => BitVec.ofNat 64 (f32Frac24 (dbits z 40 24))
  | .n64 => z

/-- Segment widths of `SHFL`. -/
abbrev segLanes : SegW → Nat
  | .w32 => 32 | .w16 => 16 | .w8 => 8 | .w4 => 4 | .w2 => 2

/-- Source lane of `SHFL` in lane `i`; none beyond the segment's edge (R110). -/
def shflFrom (m : ShflMode) (w i b : Nat) : Option Nat :=
  let base := i - i % w
  match m with
  | .idx => some (base + b % w)
  | .up => if i - base < b then none else some (i - b)
  | .down => if base + w - 1 - i < b then none else some (i + b)
  | .xor => some (i ^^^ (b % w))

/-- `SHFL` over the active lanes (R109, R110). -/
def shflOuts (m : ShflMode) (w : SegW) (l : List LaneIn) : List LaneOut :=
  l.map fun x =>
    match shflFrom m (segLanes w) x.lane (x.w 1).toNat with
    | some j => match l.find? fun y => y.lane = j with
      | some y => out32 (y.w 0)
      | none => out32 (x.w 2)
    | none => out32 (x.w 2)

/-- The one outcome of `VOTE` (R111). -/
def voteVal (cc : BitVec 2) (l : List LaneIn) : Bool :=
  match cc.toNat with
  | 0 => l.all fun x => x.w 0 != 0
  | 1 => l.any fun x => x.w 0 != 0
  | 2 => l.all fun x => x.w 0 == 0
  | _ => match l with
    | [] => true
    | x :: _ => l.all fun y => y.w 0 == x.w 0

/-- `BALLOT` (R112). -/
def ballotVal (l : List LaneIn) : Word := maskOf ((l.filter fun x => x.w 0 != 0).map (·.lane))

/-- The lane `ELECT` elects (R113). -/
def elected (hi : Bool) (l : List LaneIn) : Nat :=
  (((if hi then l.getLast? else l.head?)).map (·.lane)).getD 0

/-! ### Meanings -/

/-- A 32-bit result of two 32-bit sources. -/
abbrev bin32 (f : Word → Word → Word) : Here → List LaneIn → List LaneOut :=
  each fun x => out32 (f (x.w 0) (x.w 1))
/-- A 32-bit result of one 32-bit source. -/
abbrev un32 (f : Word → Word) : Here → List LaneIn → List LaneOut := each fun x => out32 (f (x.w 0))

def execMov (d : Dst) (a : Src) (s : State) : Out := vecExec (.mov d a) (un32 id) s
def execIadd (d : Dst) (a b : Src) (s : State) : Out := vecExec (.iadd d a b) (bin32 (· + ·)) s
def execIsub (d : Dst) (a b : Src) (s : State) : Out := vecExec (.isub d a b) (bin32 (· - ·)) s
def execImul (d : Dst) (a b : Src) (s : State) : Out := vecExec (.imul d a b) (bin32 (· * ·)) s
def execImulhs (d : Dst) (a b : Src) (s : State) : Out :=
  vecExec (.imulhs d a b) (bin32 fun x y => BitVec.ofInt 32 (x.toInt * y.toInt / 2 ^ 32)) s
def execImulhn (d : Dst) (a b : Src) (s : State) : Out :=
  vecExec (.imulhn d a b) (bin32 fun x y => BitVec.ofNat 32 (x.toNat * y.toNat / 2 ^ 32)) s
def execImad (d : Dst) (a b c : Src) (m : MadMode) (s : State) : Out :=
  vecExec (.imad d a b c m) (each fun x => out32 (imadVal m (x.w 0) (x.w 1) (x.w 2))) s
def execImin (d : Dst) (a b : Src) (s : State) : Out :=
  vecExec (.imin d a b) (bin32 fun x y => if x.slt y then x else y) s
def execImax (d : Dst) (a b : Src) (s : State) : Out :=
  vecExec (.imax d a b) (bin32 fun x y => if x.slt y then y else x) s
def execIminn (d : Dst) (a b : Src) (s : State) : Out :=
  vecExec (.iminn d a b) (bin32 fun x y => if x.ult y then x else y) s
def execImaxn (d : Dst) (a b : Src) (s : State) : Out :=
  vecExec (.imaxn d a b) (bin32 fun x y => if x.ult y then y else x) s
def execIabs (d : Dst) (a : Src) (s : State) : Out :=
  vecExec (.iabs d a) (un32 fun x => if x.slt 0 then -x else x) s
def execIneg (d : Dst) (a : Src) (s : State) : Out := vecExec (.ineg d a) (un32 fun x => -x) s
def execAnd (d : Dst) (a b : Src) (s : State) : Out := vecExec (.andI d a b) (bin32 (· &&& ·)) s
def execOr (d : Dst) (a b : Src) (s : State) : Out := vecExec (.orI d a b) (bin32 (· ||| ·)) s
def execXor (d : Dst) (a b : Src) (s : State) : Out := vecExec (.xorI d a b) (bin32 (· ^^^ ·)) s
def execAndn (d : Dst) (a b : Src) (s : State) : Out :=
  vecExec (.andn d a b) (bin32 fun x y => x &&& ~~~y) s
def execShl (d : Dst) (a b : Src) (s : State) : Out :=
  vecExec (.shl d a b) (bin32 fun x y => shlN x y.toNat) s
def execShr (d : Dst) (a b : Src) (s : State) : Out :=
  vecExec (.shr d a b) (bin32 fun x y => shrN x y.toNat) s
def execSar (d : Dst) (a b : Src) (s : State) : Out :=
  vecExec (.sar d a b) (bin32 fun x y => sarN x y.toNat) s
def execRotl (d : Dst) (a b : Src) (s : State) : Out :=
  vecExec (.rotl d a b) (bin32 fun x y => x.rotateLeft (y.toNat % 32)) s
def execPopc (d : Dst) (a : Src) (s : State) : Out := vecExec (.popc d a) (un32 popCount) s
def execClz (d : Dst) (a : Src) (s : State) : Out := vecExec (.clz d a) (un32 leadZeros) s
def execBrev (d : Dst) (a : Src) (s : State) : Out := vecExec (.brev d a) (un32 bitRev) s
def execBfx (d : Dst) (a pos width : Src) (sx : Bool) (s : State) : Out :=
  vecExec (.bfx d a pos width sx)
    (each fun x => out32 (bfxVal sx (x.w 0) (x.w 1).toNat (x.w 2).toNat)) s
def execBfi (d : Dst) (base value pos : Src) (width : BitVec 6) (s : State) : Out :=
  vecExec (.bfi d base value pos width)
    (each fun x => out32 (bfiVal width.toNat (x.w 0) (x.w 1) (x.w 2).toNat)) s
def execIsel (d : Dst) (a b : Src) (neg : Bool) (p : BitVec 6) (s : State) : Out :=
  vecExec (.isel d a b neg p)
    (each fun x => out32 (if x.p p.toNat != neg then x.w 0 else x.w 1)) s
def execIcmps (pd : BitVec 6) (cc : BitVec 2) (a b : Src) (s : State) : Out :=
  vecExec (.icmps pd cc a b) (each fun x => outP pd (ccInt cc (x.w 0).toInt (x.w 1).toInt)) s
def execIcmpn (pd : BitVec 6) (cc : BitVec 2) (a b : Src) (s : State) : Out :=
  vecExec (.icmpn pd cc a b) (each fun x => outP pd (ccInt cc (x.w 0).toNat (x.w 1).toNat)) s
def execPlog (pd : BitVec 6) (fn : PlogFn) (pa : BitVec 6) (na : Bool) (pb : BitVec 6) (nb : Bool)
    (s : State) : Out :=
  vecExec (.plog pd fn pa na pb nb)
    (each fun x => outP pd (plogVal fn (x.p pa.toNat != na) (x.p pb.toNat != nb))) s
def execPrd (d : Dst) (h : Bool) (s : State) : Out :=
  vecExec (.prd d h)
    (each fun x => out32 ((x.preds ||| 1).extractLsb' (if h then 32 else 0) 32)) s
def execPwr (a : Src) (h : Bool) (s : State) : Out :=
  vecExec (.pwr a h)
    (each fun x => { pset := (List.range 32).map fun i => (i + (if h then 32 else 0), (x.w 0).getLsbD i) }) s
def execIadd64 (d : Dst) (a b : Src) (s : State) : Out :=
  vecExec (.iadd64 d a b) (each fun x => out64 (x.s 0 + x.s 1)) s
def execIsub64 (d : Dst) (a b : Src) (s : State) : Out :=
  vecExec (.isub64 d a b) (each fun x => out64 (x.s 0 - x.s 1)) s
def execShl64 (d : Dst) (a b : Src) (s : State) : Out :=
  vecExec (.shl64 d a b) (each fun x => out64 (shlN (x.s 0) (x.w 1).toNat)) s
def execShr64 (d : Dst) (a b : Src) (s : State) : Out :=
  vecExec (.shr64 d a b) (each fun x => out64 (shrN (x.s 0) (x.w 1).toNat)) s
def execLea (d : Dst) (base index offset : Src) (n : Bool) (sh : BitVec 3) (s : State) : Out :=
  vecExec (.lea d base index offset n sh) (each fun x => out64 (leaVal n sh (x.s 0) (x.w 1) (x.w 2))) s
def execImulw (d : Dst) (a b : Src) (s : State) : Out :=
  vecExec (.imulw d a b) (each fun x => out64 ((x.w 0).signExtend 64 * (x.w 1).signExtend 64)) s
def execIaddw (d : Dst) (a b : Src) (s : State) : Out :=
  vecExec (.iaddw d a b) (each fun x => out64 (x.s 0 + (x.w 1).signExtend 64)) s
def execIcmp64 (pd : BitVec 6) (cc : BitVec 2) (a b : Src) (s : State) : Out :=
  vecExec (.icmp64 pd cc a b) (each fun x => outP pd (cc64 cc (x.s 0) (x.s 1))) s
def execShfl (d : Dst) (a b c : Src) (w : SegW) (m : ShflMode) (s : State) : Out :=
  vecExec (.shfl d a b c w m) (fun _ l => shflOuts m w l) s
def execVote (pd : BitVec 6) (cc : BitVec 2) (a : Src) (s : State) : Out :=
  vecExec (.vote pd cc a) (fun _ l => l.map fun _ => outP pd (voteVal cc l)) s
def execBallot (d : Dst) (a : Src) (s : State) : Out :=
  vecExec (.ballot d a) (fun _ l => l.map fun _ => out32 (ballotVal l)) s
def execElect (pd : BitVec 6) (hi : Bool) (s : State) : Out :=
  vecExec (.elect pd hi) (fun _ l => l.map fun x => outP pd (x.lane == elected hi l)) s
def execCvti (d : Dst) (a sh : Src) (sat : Bool) (tt fr : IntTy) (s : State) : Out :=
  vecExec (.cvti d a sh sat tt fr) (each fun x => out64 (cvtiVal sat tt fr (x.s 0) (x.w 1).toNat)) s
def execRand (d : Dst) (key counter stream : Src) (out : RandOut) (rounds : RandRounds) (s : State) :
    Out :=
  vecExec (.rand d key counter stream out rounds)
    (each fun x => out64 (randVal out rounds (x.w 0) (x.w 1) (x.w 2))) s

end Sys2Proof.Machine
end

