-- ==== Sys2Proof/Machine/NumFmt.lean ====
section
/-!
DEFINITION. Number formats: IEEE binary formats (R116, R118 to R120) and tapered formats (R121 to R125),
each as exact values rounded once. A value is a sign, a natural significand and a power of two; `sticky`
says that the exact value lies strictly between the significand and the next.
-/

namespace Sys2Proof.Machine

open Sys2Proof

/-- An IEEE binary format: exponent bits and fraction bits. -/
structure Fmt where
  eb : Nat
  fb : Nat
  deriving DecidableEq, Repr

abbrev fmt32 : Fmt := { eb := 8, fb := 23 }
abbrev fmt64 : Fmt := { eb := 11, fb := 52 }
abbrev fmt16 : Fmt := { eb := 5, fb := 10 }
abbrev fmtBf : Fmt := { eb := 8, fb := 7 }

abbrev Fmt.bias (f : Fmt) : Int := 2 ^ (f.eb - 1) - 1
abbrev Fmt.width (f : Fmt) : Nat := f.eb + f.fb + 1
/-- The pattern of +∞. -/
abbrev Fmt.inf (f : Fmt) : Nat := (2 ^ f.eb - 1) * 2 ^ f.fb
/-- The default NaN (R120). -/
abbrev Fmt.dnan (f : Fmt) : Nat := f.inf + 2 ^ (f.fb - 1)
/-- The sign bit. -/
abbrev Fmt.neg (f : Fmt) (s : Bool) : Nat := if s then 2 ^ (f.eb + f.fb) else 0

/-- Rounding directions of IEEE 754 (R117). -/
inductive RM where
  | rne | rtz | rdn | rup
  deriving DecidableEq, Repr

/-- Status flags in the order of FPCTL[13:8]: NV, DZ, OF, UF, NX, TN (R117). -/
abbrev flNV : BitVec 6 := 0b000001
abbrev flDZ : BitVec 6 := 0b000010
abbrev flOF : BitVec 6 := 0b000100
abbrev flUF : BitVec 6 := 0b001000
abbrev flNX : BitVec 6 := 0b010000
abbrev flTN : BitVec 6 := 0b100000

/-- A datum of an IEEE format. -/
inductive FVal where
  | nan (signalling : Bool)
  | inf (neg : Bool)
  | fin (neg : Bool) (m : Nat) (e : Int)
  deriving DecidableEq, Repr

/-- A pattern as a datum. -/
def Fmt.unpack (f : Fmt) (b : Nat) : FVal :=
  let s := Nat.testBit b (f.eb + f.fb)
  let e := nbits b f.fb f.eb
  let m := nbits b 0 f.fb
  if e = 2 ^ f.eb - 1 then
    if m = 0 then .inf s else .nan (!Nat.testBit b (f.fb - 1))
  else if e = 0 then .fin s m (1 - f.bias - f.fb)
  else .fin s (m + 2 ^ f.fb) (e - f.bias - f.fb)

/-- A dropped remainder rounds the significand up: `r` of `2 ^ d`, with more below when sticky. -/
def roundUp (rm : RM) (s : Bool) (n r d : Nat) (sticky : Bool) : Bool :=
  let exact := r == 0 && !sticky
  match rm with
  | .rtz => false
  | .rdn => s && !exact
  | .rup => !s && !exact
  | .rne =>
    d != 0 && (decide (2 ^ (d - 1) < r) || (r == 2 ^ (d - 1) && (sticky || n % 2 == 1)))

/-- A significand scaled to the quantum 2^q and rounded: the integer and whether it is inexact. -/
def toQuantum (rm : RM) (s : Bool) (m : Nat) (e q : Int) (sticky : Bool) : Nat × Bool :=
  if e < q then
    let d := (q - e).toNat
    let n := m / 2 ^ d
    let r := m % 2 ^ d
    (if roundUp rm s n r d sticky then n + 1 else n, r != 0 || sticky)
  else
    let n := m * 2 ^ (e - q).toNat
    (if roundUp rm s n 0 0 sticky then n + 1 else n, sticky)

/-- Overflow under a rounding direction: the infinity or the largest finite number. -/
def Fmt.overflow (f : Fmt) (rm : RM) (s : Bool) : Nat :=
  f.neg s + (match rm with
    | .rne => f.inf
    | .rtz => f.inf - 1
    | .rdn => if s then f.inf else f.inf - 1
    | .rup => if s then f.inf - 1 else f.inf)

/-- An exact non-zero value rounded once; underflow is detected after rounding and flagged when the
result is tiny and inexact (R119). A zero significand that is exact gives the zero of its sign. -/
def Fmt.round (f : Fmt) (rm : RM) (s : Bool) (m : Nat) (e : Int) (sticky : Bool := false) :
    Nat × BitVec 6 :=
  if m = 0 && !sticky then (f.neg s, 0)
  else
    let top : Int := Nat.log2 m + e
    let emin : Int := 1 - f.bias
    let q : Int := max top emin - f.fb
    let (n, inx) := toQuantum rm s m e q sticky
    let b := if top < emin then n else ((top - emin).toNat) * 2 ^ f.fb + n
    if f.inf ≤ b then (f.overflow rm s, flOF ||| flNX)
    else
      let tiny := top < emin &&
        !(top = emin - 1 && (toQuantum rm s m e (top - f.fb) sticky).1 = 2 ^ (f.fb + 1))
      (f.neg s + b, (if inx then flNX else 0) ||| (if tiny && inx then flUF else 0))

/-- A NaN with its quiet bit set (R120). -/
abbrev Fmt.quiet (f : Fmt) (b : Nat) : Nat := b ||| 2 ^ (f.fb - 1)

/-- The first NaN among some patterns, in order (R120). -/
def Fmt.firstNan (f : Fmt) (l : List Nat) : Option Nat :=
  l.find? fun b => match f.unpack b with | .nan _ => true | _ => false

/-- NV of a signalling NaN among the sources (R120). -/
def Fmt.sigNV (f : Fmt) (l : List Nat) : BitVec 6 :=
  if l.any fun b => f.unpack b == .nan true then flNV else 0

/-- A rule for operands that are not NaN, under the propagation of R120. -/
def Fmt.withNan (f : Fmt) (l : List Nat) (k : Nat × BitVec 6) : Nat × BitVec 6 :=
  match f.firstNan l with
  | some b => (f.quiet b, f.sigNV l)
  | none => k

/-- The sign of an exact zero sum (R133). -/
abbrev zeroSign (rm : RM) (s t : Bool) : Bool := if s = t then s else rm = .rdn

/-- A signed value as an integer over 2^e. -/
abbrev sgn (s : Bool) (m : Nat) : Int := if s then -(m : Int) else m

/-- An exact sum of two finite values, rounded once. -/
def Fmt.sumFin (f : Fmt) (rm : RM) (s : Bool) (m : Nat) (e : Int) (t : Bool) (n : Nat) (g : Int) :
    Nat × BitVec 6 :=
  let q := min e g
  let x := sgn s (m * 2 ^ (e - q).toNat) + sgn t (n * 2 ^ (g - q).toNat)
  if x = 0 then (f.neg (zeroSign rm s t), 0) else f.round rm (x < 0) x.natAbs q

/-- a + b (R133); `t` inverts b's sign as an operation, not as a negation. -/
def Fmt.add (f : Fmt) (rm : RM) (sub : Bool) (a b : Nat) : Nat × BitVec 6 :=
  f.withNan [a, b] <|
    match f.unpack a, f.unpack b with
    | .inf s, .inf t => if s = (t != sub) then (f.neg s + f.inf, 0) else (f.dnan, flNV)
    | .inf s, _ => (f.neg s + f.inf, 0)
    | _, .inf t => (f.neg (t != sub) + f.inf, 0)
    | .fin s m e, .fin t n g => f.sumFin rm s m e (t != sub) n g
    | _, _ => (f.dnan, flNV)

/-- a × b (R133). -/
def Fmt.mul (f : Fmt) (rm : RM) (a b : Nat) : Nat × BitVec 6 :=
  f.withNan [a, b] <|
    match f.unpack a, f.unpack b with
    | .inf s, .inf t => (f.neg (s != t) + f.inf, 0)
    | .inf s, .fin t n _ => if n = 0 then (f.dnan, flNV) else (f.neg (s != t) + f.inf, 0)
    | .fin s m _, .inf t => if m = 0 then (f.dnan, flNV) else (f.neg (s != t) + f.inf, 0)
    | .fin s m e, .fin t n g => f.round rm (s != t) (m * n) (e + g)
    | _, _ => (f.dnan, flNV)

/-- a × b + c with one rounding (R133). -/
def Fmt.fma (f : Fmt) (rm : RM) (a b c : Nat) : Nat × BitVec 6 :=
  let bad := match f.unpack a, f.unpack b with
    | .inf _, .fin _ n _ => n == 0
    | .fin _ m _, .inf _ => m == 0
    | _, _ => false
  let r := f.withNan [a, b, c] <|
    if bad then (f.dnan, flNV)
    else
      let prod : FVal := match f.unpack a, f.unpack b with
        | .fin s m e, .fin t n g => .fin (s != t) (m * n) (e + g)
        | .inf s, .inf t | .inf s, .fin t _ _ | .fin s _ _, .inf t => .inf (s != t)
        | _, _ => .inf false
      match prod, f.unpack c with
      | .inf s, .inf t => if s = t then (f.neg s + f.inf, 0) else (f.dnan, flNV)
      | .inf s, _ => (f.neg s + f.inf, 0)
      | _, .inf t => (f.neg t + f.inf, 0)
      | .fin s m e, .fin t n g => f.sumFin rm s m e t n g
      | _, _ => (f.dnan, flNV)
  if bad then (r.1, r.2 ||| flNV) else r

/-- Order of two data that are not NaN, with −0 equal to +0: a < b. -/
def FVal.lt : FVal → FVal → Bool
  | .inf s, .inf t => s && !t
  | .inf s, _ => s
  | _, .inf t => !t
  | .fin s m e, .fin t n g =>
    decide (sgn s (m * 2 ^ (e - min e g).toNat) < sgn t (n * 2 ^ (g - min e g).toNat))
  | _, _ => false

/-- Integer square root, by bits from the top. -/
def isqrt (n : Nat) : Nat :=
  (List.range (Nat.log2 n / 2 + 1)).reverse.foldl
    (fun r i => if (r + 2 ^ i) * (r + 2 ^ i) ≤ n then r + 2 ^ i else r) 0

/-- The quotient 1 / (m × 2^e) with `k` bits of significand, exact or sticky. -/
def recipExact (m : Nat) (e : Int) (k : Nat) : Nat × Int × Bool :=
  let d := Nat.log2 m + k
  (2 ^ d / m, -(d : Int) - e, 2 ^ d % m != 0)

/-- The root of m × 2^e with at least `k` bits, exact or sticky. -/
def sqrtExact (m : Nat) (e : Int) (k : Nat) : Nat × Int × Bool :=
  let d := 2 * k + (e % 2).toNat
  let r := isqrt (m * 2 ^ d)
  (r, (e - (d : Int)) / 2, r * r != m * 2 ^ d)

/-- The reciprocal root of m × 2^e with at least `k` bits, exact or sticky. -/
def rsqrtExact (m : Nat) (e : Int) (k : Nat) : Nat × Int × Bool :=
  let p := if e % 2 = 0 then m else 2 * m
  let g := if e % 2 = 0 then e else e - 1
  let d := 2 * (Nat.log2 p + k)
  let r := isqrt (2 ^ d / p)
  (r, -((d : Int) / 2) - g / 2, r * r * p != 2 ^ d)

/-- 1 / a (R137). Of exactly ±2^127 the result is tiny but exact: no UF, as R119 says, where R137 sets it for every value
above 2^126 (log 26). -/
def Fmt.rcp (f : Fmt) (rm : RM) (a : Nat) : Nat × BitVec 6 :=
  f.withNan [a] <|
    match f.unpack a with
    | .inf s => (f.neg s, 0)
    | .fin s m e =>
      if m = 0 then (f.neg s + f.inf, flDZ)
      else
        let (q, g, st) := recipExact m e (2 * f.fb + 8)
        f.round rm s q g st
    | _ => (f.dnan, flNV)

/-- 1 / √a (R137). -/
def Fmt.rsq (f : Fmt) (rm : RM) (a : Nat) : Nat × BitVec 6 :=
  f.withNan [a] <|
    match f.unpack a with
    | .inf s => if s then (f.dnan, flNV) else (0, 0)
    | .fin s m e =>
      if m = 0 then (f.neg s + f.inf, flDZ)
      else if s then (f.dnan, flNV)
      else
        let (q, g, st) := rsqrtExact m e (2 * f.fb + 8)
        f.round rm false q g st
    | _ => (f.dnan, flNV)

/-- √a (R137). -/
def Fmt.sqrt (f : Fmt) (rm : RM) (a : Nat) : Nat × BitVec 6 :=
  f.withNan [a] <|
    match f.unpack a with
    | .inf s => if s then (f.dnan, flNV) else (f.inf, 0)
    | .fin s m e =>
      if m = 0 then (f.neg s, 0)
      else if s then (f.dnan, flNV)
      else
        let (q, g, st) := sqrtExact m e (f.fb + 8)
        f.round rm false q g st
    | _ => (f.dnan, flNV)

/-- minimumNumber and maximumNumber (R134). -/
def Fmt.minMax (f : Fmt) (isMax : Bool) (a b : Nat) : Nat × BitVec 6 :=
  let nv := f.sigNV [a, b]
  match f.unpack a, f.unpack b with
  | .nan _, .nan _ => (f.dnan, nv)
  | .nan _, _ => (b, nv)
  | _, .nan _ => (a, nv)
  | x, y =>
    let lt := x.lt y || (!y.lt x && Nat.testBit a (f.eb + f.fb) && !Nat.testBit b (f.eb + f.fb))
    (if lt != isMax then a else b, nv)

/-- Comparison codes of R136: outcome and flags. -/
def Fmt.cmp (f : Fmt) (cc : Nat) (a b : Nat) : Bool × BitVec 6 :=
  match f.firstNan [a, b] with
  | some _ => (cc == 3, if cc = 1 ∨ cc = 2 then flNV else f.sigNV [a, b])
  | none =>
    let lt := (f.unpack a).lt (f.unpack b)
    let gt := (f.unpack b).lt (f.unpack a)
    ((match cc with
      | 0 => !lt && !gt
      | 1 => lt
      | 2 => !gt
      | _ => false), 0)

/-- An exact value rounded to an integer, and whether that changed it. -/
def roundInt (rm : RM) (s : Bool) (m : Nat) (e : Int) : Int × Bool :=
  let (n, inx) := toQuantum rm s m (max e (-1100)) 0 false
  (sgn s n, inx)

/-- IEEE to an integer range (R128): the integer and the flags. -/
def Fmt.toInt (f : Fmt) (rm : RM) (lo hi : Int) (b : Nat) : Int × BitVec 6 :=
  match f.unpack b with
  | .nan _ => (0, flNV)
  | .inf s => (if s then lo else hi, flNV)
  | .fin s m e =>
    let (v, inx) := roundInt rm s m e
    if v < lo then (lo, flNV) else if hi < v then (hi, flNV) else (v, if inx then flNX else 0)

/-- An integer to IEEE (R129). -/
def Fmt.ofInt (f : Fmt) (rm : RM) (v : Int) : Nat × BitVec 6 := f.round rm (v < 0) v.natAbs 0

/-- IEEE to IEEE (R130): a NaN keeps its sign and its upper payload, quietened. -/
def Fmt.convert (a z : Fmt) (rm : RM) (b : Nat) : Nat × BitVec 6 :=
  match a.unpack b with
  | .nan sig =>
    let fr := nbits b 0 a.fb
    let fr := if a.fb ≤ z.fb then fr * 2 ^ (z.fb - a.fb) else fr / 2 ^ (a.fb - z.fb)
    (z.neg (Nat.testBit b (a.eb + a.fb)) + z.inf + (fr ||| 2 ^ (z.fb - 1)), if sig then flNV else 0)
  | .inf s => (z.neg s + z.inf, 0)
  | .fin s m e => z.round rm s m e

/-- An f32 rounded to an integral f32 (R139). -/
def Fmt.integral (f : Fmt) (rm : RM) (b : Nat) : Nat × BitVec 6 :=
  f.withNan [b] <|
    match f.unpack b with
    | .fin s m e =>
      if 0 ≤ e then (b, 0)
      else
        let n := (toQuantum rm s m e 0 false).1
        if n = 0 then (f.neg s, 0) else ((f.round .rne s n 0).1, 0)
    | _ => (b, 0)

/-- a × 2^n (R140); beyond ±5000 the exponent no longer changes the rounded result. -/
def Fmt.scale (f : Fmt) (rm : RM) (b : Nat) (n : Int) : Nat × BitVec 6 :=
  f.withNan [b] <|
    match f.unpack b with
    | .fin s m e => if m = 0 then (b, 0) else f.round rm s m (e + max (-5000) (min 5000 n))
    | _ => (b, 0)

/-! ### 2^a, log2 a, sin(πa), cos(πa), rounded toward zero (R138) -/

/-- ln 2 over 2^220, rounded down. -/
abbrev ln2Fix : Nat := 0xb17217f7d1cf79abc9e3b39803f2f6af40f343267298b62d8a0d175
/-- π over 2^310, rounded down, with its two integer bits. -/
abbrev piFix : Nat := 0xc90fdaa22168c234c4c6628b80dc1cd129024e088a67cc74020bbea63b139b22514a08798e3404

/-- Lower bound of 2^x over 2^220 for x = n / 2^220 in [0, 1): the exponential series, every term rounded
down. -/
def exp2Fix (n : Nat) : Nat :=
  let y := n * ln2Fix / 2 ^ 220
  ((List.range 60).foldl (fun (p : Nat × Nat) k => (p.1 + p.2, p.2 * y / 2 ^ 220 / (k + 1)))
    (0, 2 ^ 220)).1

/-- Lower bound of atanh(z) × 2 / ln 2 over 2^200, z = (x − 1)/(x + 1), x = p / 2^k in [1, 2). -/
def log2Fix (p k : Nat) : Nat :=
  let z := (p - 2 ^ k) * 2 ^ 200 / (p + 2 ^ k)
  let z2 := z * z / 2 ^ 200
  let sum := ((List.range 70).foldl
    (fun (q : Nat × Nat) j => (q.1 + q.2 / (2 * j + 1), q.2 * z2 / 2 ^ 200)) (0, z)).1
  2 * sum * 2 ^ 220 / ln2Fix

/-- sin(x) over 2^300, x = n / 2^300 in [0, π/2], to within 2^-290. -/
def sinFix (n : Nat) : Nat :=
  let x2 := n * n / 2 ^ 300
  let (pos, neg, _) := (List.range 45).foldl
    (fun (q : Nat × Nat × Nat) j =>
      let t := q.2.2
      let t' := t * x2 / 2 ^ 300 / ((2 * j + 2) * (2 * j + 3))
      if j % 2 = 0 then (q.1 + t, q.2.1, t') else (q.1, q.2.1 + t, t')) (0, 0, n)
  pos - neg

/-- `FEXP2` of an f32 (R138). -/
def exp2F32 (b : Nat) : Nat × BitVec 6 :=
  fmt32.withNan [b] <|
    match fmt32.unpack b with
    | .inf s => (if s then 0 else fmt32.inf, 0)
    | .fin s m e =>
      if m = 0 then (0x3F800000, 0)
      else
        let lg : Int := Nat.log2 m + e
        if !s && 7 ≤ lg then (0x7F7FFFFF, flOF ||| flNX)
        else if s && (8 ≤ lg || decide (149 * 2 ^ 160 < m * 2 ^ (e + 160).toNat)) then (0, flUF ||| flNX)
        else
          -- the operand as a multiple of 2^-149, then its integer and fraction parts
          let v : Int := sgn s (m * 2 ^ (e + 149).toNat)
          let i : Int := Int.fdiv v (2 ^ 149)
          let fr : Nat := (v - i * 2 ^ 149).toNat
          if fr = 0 then fmt32.round .rtz false 1 i
          else fmt32.round .rtz false (exp2Fix (fr * 2 ^ 71) - 2 ^ 20) (i - 220) true
    | _ => (fmt32.dnan, flNV)

/-- `FLOG2` of an f32 (R138). -/
def log2F32 (b : Nat) : Nat × BitVec 6 :=
  fmt32.withNan [b] <|
    match fmt32.unpack b with
    | .inf s => if s then (fmt32.dnan, flNV) else (fmt32.inf, 0)
    | .fin s m e =>
      if m = 0 then (fmt32.neg true + fmt32.inf, flDZ)
      else if s then (fmt32.dnan, flNV)
      else
        let k := Nat.log2 m
        let x : Int := k + e
        if m = 2 ^ k then fmt32.round .rtz (x < 0) x.natAbs 0
        else
          let l := log2Fix m k
          if 0 ≤ x then fmt32.round .rtz false (x.toNat * 2 ^ 200 + l - 2 ^ 10) (-200) true
          else fmt32.round .rtz true (x.natAbs * 2 ^ 200 - (l + 2 ^ 20)) (-200) true
    | _ => (fmt32.dnan, flNV)

/-- sin(π t / 2^150) for t in (0, 2^149), rounded toward zero, with a sign. -/
def sinPart (s : Bool) (t : Nat) : Nat × BitVec 6 :=
  fmt32.round .rtz s (sinFix (t * piFix / 2 ^ 160) - 2 ^ 12) (-300) true

/-- sin(π r) for r / 2^150 in [0, 2): sign, and the value when exact. -/
def sinTurn (neg : Bool) (r : Nat) : Nat × BitVec 6 :=
  let one := 2 ^ 150
  let s := neg != decide (one ≤ r)
  let h := r % one
  let t := if 2 * h ≤ one then h else one - h
  if t = 0 then (fmt32.neg neg, 0)
  else if 2 * t = one then (fmt32.neg s + 0x3F800000, 0)
  else sinPart s t

/-- `FTRIG` of an f32 (R138). -/
def trigF32 (cos : Bool) (b : Nat) : Nat × BitVec 6 :=
  fmt32.withNan [b] <|
    match fmt32.unpack b with
    | .fin s m e =>
      let r := if 1 ≤ e then 0 else m * 2 ^ (e + 150).toNat % 2 ^ 151
      if cos then
        -- cos(π a) = sin(π (a + 1/2)); its zeros are +0
        let q := (r + 2 ^ 149) % 2 ^ 151
        if q % 2 ^ 150 = 0 then (0, 0) else sinTurn false q
      else sinTurn s r
    | _ => (fmt32.dnan, flNV)

/-! ### Tapered formats (R121 to R125) -/

/-- A tapered format: width and exponent bits. -/
structure Tap where
  w : Nat
  es : Nat
  deriving DecidableEq, Repr

abbrev tap32 : Tap := { w := 32, es := 3 }

/-- NaR: the top bit alone. -/
abbrev Tap.nar (t : Tap) : Nat := 2 ^ (t.w - 1)
/-- Largest power: maxpos is 2^limit. -/
abbrev Tap.limit (t : Tap) : Nat := 2 ^ t.es * (t.w - 2)

/-- Length of the run of equal bits at the top of `n` bits. -/
def runLen (b : Nat) (r : Bool) : Nat → Nat
  | 0 => 0
  | n + 1 => if Nat.testBit b n = r then runLen b r n + 1 else 0

/-- A tapered word's value: none for NaR, else sign, significand and power of two (R122). -/
def Tap.decode (t : Tap) (x : Nat) : Option (Bool × Nat × Int) :=
  if x = 0 then some (false, 0, 0)
  else if x = t.nar then none
  else
    let s := Nat.testBit x (t.w - 1)
    let b := (if s then 2 ^ t.w - x else x) % 2 ^ (t.w - 1)
    let n := t.w - 1
    let r := Nat.testBit b (n - 1)
    let m := runLen b r n
    let k : Int := if r then m - 1 else -(m : Int)
    let len := n - min n (m + 1)
    let rest := b % 2 ^ len
    let e := if t.es ≤ len then rest / 2 ^ (len - t.es) else rest * 2 ^ (t.es - len)
    let fl := len - t.es
    some (s, 2 ^ fl + rest % 2 ^ fl, k * 2 ^ t.es + e - fl)

/-- A non-zero exact value rounded to a tapered word: to nearest, ties to even, on the unbounded
encoding (R123). -/
def Tap.round (t : Tap) (s : Bool) (m : Nat) (e : Int) (sticky : Bool := false) : Nat :=
  let n := t.w - 1
  let top : Int := Nat.log2 m + e
  let c :=
    if (t.limit : Int) ≤ top then 2 ^ n - 1
    else if top < -(t.limit : Int) ∨ top = -(t.limit : Int) ∧ m = 2 ^ Nat.log2 m ∧ !sticky then 1
    else
      let k := top / 2 ^ t.es
      let x := (top - k * 2 ^ t.es).toNat
      let (rv, rl) := if 0 ≤ k then (2 ^ (k.toNat + 2) - 2, k.toNat + 2) else (1, (-k).toNat + 1)
      let fl := Nat.log2 m
      let b := (rv * 2 ^ t.es + x) * 2 ^ fl + (m - 2 ^ fl)
      let len := rl + t.es + fl
      if n < len then
        let d := len - n
        let c := b / 2 ^ d
        if roundUp .rne false c (b % 2 ^ d) d sticky then c + 1 else c
      else b * 2 ^ (n - len)
  if s then (2 ^ t.w - c) % 2 ^ t.w else c

/-- An exact value as a tapered word: 0 for an exact zero (R124). -/
def Tap.ofExact (t : Tap) (s : Bool) (m : Nat) (e : Int) (sticky : Bool := false) : Nat :=
  if m = 0 then 0 else t.round s m e sticky

/-- A rule for operands that are not NaR (R124): a result of `none` is NaR with TN. -/
def Tap.rule (t : Tap) (l : List Nat) (k : List (Bool × Nat × Int) → Option (Bool × Nat × Int × Bool)) :
    Nat × BitVec 6 :=
  match l.mapM t.decode with
  | none => (t.nar, 0)
  | some vs => match k vs with
    | some (s, m, e, st) => (t.ofExact s m e st, 0)
    | none => (t.nar, flTN)

/-- Exact a × b + c of decoded values. -/
def exactFma (a b c : Bool × Nat × Int) : Bool × Nat × Int × Bool :=
  let e := a.2.2 + b.2.2
  let q := min e c.2.2
  let x := sgn (a.1 != b.1) (a.2.1 * b.2.1 * 2 ^ (e - q).toNat) + sgn c.1 (c.2.1 * 2 ^ (c.2.2 - q).toNat)
  (x < 0, x.natAbs, q, false)

/-- Two's complement of a tapered word. -/
abbrev Tap.neg (t : Tap) (x : Nat) : Nat := (2 ^ t.w - x) % 2 ^ t.w

def Tap.add (t : Tap) (a b : Nat) : Nat × BitVec 6 :=
  t.rule [a, b] fun l => match l with
    | [x, y] => some (exactFma x (false, 1, 0) y)
    | _ => none
def Tap.mul (t : Tap) (a b : Nat) : Nat × BitVec 6 :=
  t.rule [a, b] fun l => match l with
    | [x, y] => some (x.1 != y.1, x.2.1 * y.2.1, x.2.2 + y.2.2, false)
    | _ => none
def Tap.fma (t : Tap) (a b c : Nat) : Nat × BitVec 6 :=
  t.rule [a, b, c] fun l => match l with
    | [x, y, z] => some (exactFma x y z)
    | _ => none
/-- 1 / a (R144). -/
def Tap.rcp (t : Tap) (a : Nat) : Nat × BitVec 6 :=
  t.rule [a] fun l => match l with
    | [(s, m, e)] => if m = 0 then none else
        let (q, g, st) := recipExact m e 80
        some (s, q, g, st)
    | _ => none
/-- 1 / √a (R144). -/
def Tap.rsq (t : Tap) (a : Nat) : Nat × BitVec 6 :=
  t.rule [a] fun l => match l with
    | [(s, m, e)] => if m = 0 || s then none else
        let (q, g, st) := rsqrtExact m e 80
        some (false, q, g, st)
    | _ => none

/-- IEEE to a tapered word (R126). -/
def Tap.ofIeee (t : Tap) (f : Fmt) (b : Nat) : Nat × BitVec 6 :=
  match f.unpack b with
  | .nan sig => (t.nar, if sig then flTN ||| flNV else flTN)
  | .inf _ => (t.nar, flTN)
  | .fin s m e => (t.ofExact s m e, 0)

/-- A tapered word to IEEE (R127). -/
def Tap.toIeee (t : Tap) (f : Fmt) (rm : RM) (x : Nat) : Nat × BitVec 6 :=
  match t.decode x with
  | none => (f.dnan, 0)
  | some (s, m, e) => if m = 0 then (0, 0) else f.round rm s m e

end Sys2Proof.Machine
end

