-- ==== Sys2Proof/Machine/Formats.lean ====
section
/-!
DEFINITION. Storage formats, block scales and canonical layouts (R248 to R264): what an expanding copy
writes for a stored element, what a compressing copy stores for a plain one, and where each lies.
-/

namespace Sys2Proof.Machine

open Sys2Proof

/-! ### Narrow floats (R252 to R254) -/

/-- A narrow float format: sign bit, exponent and mantissa bits, bias, specials, overflow rule. bf16 and f16
are formats of this kind. -/
structure Nf where
  sg : Bool
  e : Nat
  m : Nat
  bias : Nat
  spec : Nat
  ovf : Bool
  deriving DecidableEq, Repr

/-- The format of a format register (R252). -/
abbrev Nf.ofReg (fm : Word) : Nf :=
  { sg := fm.getLsbD 2, e := wbits fm 12 3, m := wbits fm 8 3, bias := wbits fm 16 6, spec := wbits fm 4 2,
    ovf := fm.getLsbD 3 }

/-- A format register's fields are those of a valid format (R253). -/
def Nf.valid (n : Nf) : Bool :=
  let w := (if n.sg then 1 else 0) + n.e + n.m
  1 ≤ n.e && n.e ≤ 6 && 2 ≤ w && w ≤ 8 &&
  (match n.spec with
   | 0 => !n.ovf
   | 1 => 2 ≤ n.e && 1 ≤ n.m
   | 2 => 2 ≤ n.e + n.m
   | _ => false)

/-- The value a format register takes: reserved bits 0, V computed (R252). -/
def fmStored (v : Word) : Word :=
  let f := v &&& 0x003F773C
  if (Nf.ofReg f).valid then f ||| 1 else f

/-- Element width in bits. -/
abbrev Nf.width (n : Nf) : Nat := (if n.sg then 1 else 0) + n.e + n.m

/-- Magnitude code of the largest finite value (R254). -/
abbrev Nf.maxCode (n : Nf) : Nat :=
  match n.spec with
  | 0 => 2 ^ (n.e + n.m) - 1
  | 1 => (2 ^ n.e - 1) * 2 ^ n.m - 1
  | _ => 2 ^ (n.e + n.m) - 2

/-- Power of two of the smallest step (R254). -/
abbrev Nf.qmin (n : Nf) : Int := 1 - (n.bias : Int) - (n.m : Int)

/-- A finite magnitude code as significand and power of two (R254). -/
def Nf.mag (n : Nf) (c : Nat) : Nat × Int :=
  let e := c / 2 ^ n.m
  let f := c % 2 ^ n.m
  if e = 0 then (f, n.qmin) else (2 ^ n.m + f, n.qmin + e - 1)

/-- Exponent of the largest finite value (R254). -/
def Nf.emax (n : Nf) : Int :=
  let (m, e) := n.mag n.maxCode
  Nat.log2 m + e

/-- An element's value. -/
inductive Elem where
  | nan (neg : Bool)
  | inf (neg : Bool)
  | fin (neg : Bool) (m : Nat) (e : Int)
  deriving DecidableEq, Repr

/-- The value of a code (R254). -/
def Nf.value (n : Nf) (code : Nat) : Elem :=
  let s := n.sg && Nat.testBit code (n.e + n.m)
  let c := code % 2 ^ (n.e + n.m)
  let top := c / 2 ^ n.m == 2 ^ n.e - 1
  if n.spec = 1 && top then (if c % 2 ^ n.m = 0 then .inf s else .nan s)
  else if n.spec = 2 && c == 2 ^ (n.e + n.m) - 1 then .nan s
  else let (m, e) := n.mag c; .fin s m e

/-! ### Formats (R248, R249) -/

/-- Container bits of a format code, under a format register (R249, R265). -/
def contBits (code : Nat) (fm : Word) : Nat :=
  match code with
  | 0x00 | 0x07 | 0x08 => 32
  | 0x01 | 0x02 | 0x03 | 0x09 => 16
  | 0x04 | 0x0A | 0x0C => 8
  | 0x05 | 0x06 => if (Nf.ofReg fm).width ≤ 4 then 4 else 8
  | _ => 4

/-- Codes with scale bytes (R256). -/
abbrev blockScaled (code : Nat) : Bool := code == 0x06 || code == 0x0C || code == 0x0D
/-- Codes that name a format register. -/
abbrev usesFm (code : Nat) : Bool := code == 0x05 || code == 0x06

abbrev nfBf16 : Nf := { sg := true, e := 8, m := 7, bias := 127, spec := 1, ovf := true }
abbrev nfF16 : Nf := { sg := true, e := 5, m := 10, bias := 15, spec := 1, ovf := true }
abbrev tap8 : Tap := { w := 8, es := 1 }
abbrev tap16 : Tap := { w := 16, es := 2 }

/-- A two's complement number of `w` bits. -/
abbrev signed (w x : Nat) : Int := (x % 2 ^ w : Nat) - if Nat.testBit x (w - 1) then (2 : Int) ^ w else 0

/-- An integer as an element. -/
abbrev Elem.ofInt (v : Int) : Elem := .fin (v < 0) v.natAbs 0

/-- A tapered word as an element. -/
abbrev Elem.ofTap (t : Tap) (c : Nat) : Elem :=
  match t.decode c with
  | none => .nan false
  | some (s, m, e) => .fin s m e

/-- An IEEE pattern as an element. -/
abbrev Elem.ofFmt (f : Fmt) (c : Nat) : Elem :=
  match f.unpack c with
  | .nan _ => .nan (Nat.testBit c (f.eb + f.fb))
  | .inf s => .inf s
  | .fin s m e => .fin s m e

/-- The value of a stored element, its scale apart. -/
def elemOf (code : Nat) (fm : Word) (c : Nat) : Elem :=
  match code with
  | 0x01 => .ofFmt fmtBf c
  | 0x02 => .ofFmt fmt16 c
  | 0x03 => .ofTap tap16 c
  | 0x04 => .ofTap tap8 c
  | 0x05 | 0x06 => (Nf.ofReg fm).value (c % 2 ^ (Nf.ofReg fm).width)
  | 0x07 => .ofTap tap32 c
  | 0x08 => .ofInt (signed 32 c)
  | 0x09 => .ofInt (signed 16 c)
  | 0x0A | 0x0C => .ofInt (signed 8 c)
  | 0x0B | 0x0D => .ofInt (signed 4 c)
  | _ => .ofFmt fmt32 c

/-! ### Expansion (R258, R262) -/

/-- An element as f32, rounded to nearest even. -/
def Elem.toF32 (x : Elem) : Nat :=
  match x with
  | .nan s => fmt32.neg s + 0x7FC00000
  | .inf s => fmt32.neg s + fmt32.inf
  | .fin s m e => (fmt32.round .rne s m e).1

/-- The plain form of a stored element, with the scale byte of a block-scaled code (R262). -/
def plainOf (code : Nat) (fm : Word) (scale c : Nat) : Word :=
  let times := fun (x : Elem) => match x with
    | .fin s m e => Elem.fin s m (e + (scale : Int) - 127)
    | y => y
  match code with
  | 0x00 | 0x07 | 0x08 => BitVec.ofNat 32 c
  | 0x01 => BitVec.ofNat 32 (fmtBf.convert fmt32 .rne c).1
  | 0x02 => BitVec.ofNat 32 (fmt16.convert fmt32 .rne c).1
  | 0x09 => BitVec.ofInt 32 (signed 16 c)
  | 0x0A => BitVec.ofInt 32 (signed 8 c)
  | 0x0B => BitVec.ofInt 32 (signed 4 c)
  | 0x06 | 0x0C | 0x0D =>
    if scale = 0xFF then 0x7FC00000 else BitVec.ofNat 32 (times (elemOf code fm c)).toF32
  | _ => BitVec.ofNat 32 (elemOf code fm c).toF32

/-- Canonical element forms (R258). -/
inductive Canon where
  | k16 | k32 | ci8 | ci16
  deriving DecidableEq, Repr

/-- The canonical form of a format code; none for 32-bit formats (R248). -/
def canonOf (code : Nat) : Option Canon :=
  match code with
  | 0x01 | 0x02 | 0x03 => some .k32
  | 0x04 | 0x05 | 0x06 => some .k16
  | 0x09 => some .ci16
  | 0x0A | 0x0B | 0x0C | 0x0D => some .ci8
  | _ => none

/-- Bytes of a canonical element. -/
abbrev Canon.bytes : Canon → Nat
  | .k16 | .ci16 => 2 | .k32 => 4 | .ci8 => 1

/-- Elements of a step along K (R259). -/
abbrev Canon.step : Canon → Nat
  | .k16 | .ci8 => 32 | .k32 | .ci16 => 16

/-- Bytes of a chunk: 16 lines of one step (R259). -/
abbrev Canon.chunk (c : Canon) : Nat := 16 * c.step * c.bytes

/-- Exponent bits, fraction bits below the leading one, and bias of k16 and k32 (R258). -/
abbrev Canon.kbits : Canon → Nat × Nat × Nat
  | .k32 => (9, 21, 255)
  | _ => (7, 7, 63)

/-- The canonical code of an element (R258, R262): the leading bit of sig set where the exponent allows. -/
def Canon.encode (c : Canon) (x : Elem) : Nat :=
  let (eb, fb, bias) := c.kbits
  let sign := fun (s : Bool) => if s then 2 ^ (eb + fb + 1) else 0
  let top := (2 ^ eb - 1) * 2 ^ (fb + 1)
  match c, x with
  | .ci8, .fin s m _ => (sgn s m % 2 ^ 8).toNat
  | .ci16, .fin s m _ => (sgn s m % 2 ^ 16).toNat
  | _, .nan _ => top + 2 ^ fb
  | _, .inf s => sign s + top
  | _, .fin s m e =>
    if m = 0 then sign s
    else
      let ex := max 0 (Nat.log2 m + e + bias)
      let q := ex - bias - fb
      let sig := if e < q then m / 2 ^ (q - e).toNat else m * 2 ^ (e - q).toNat
      sign s + ex.toNat * 2 ^ (fb + 1) + sig

/-- The value of a canonical code, whether sig is normalised or not (R258). -/
def Canon.decode (c : Canon) (w : Nat) : Elem :=
  let (eb, fb, bias) := c.kbits
  match c with
  | .ci8 => .ofInt (signed 8 w)
  | .ci16 => .ofInt (signed 16 w)
  | _ =>
    let s := Nat.testBit w (eb + fb + 1)
    let ex := nbits w (fb + 1) eb
    let sig := nbits w 0 (fb + 1)
    if ex = 2 ^ eb - 1 then (if sig = 0 then .inf s else .nan s)
    else .fin s sig ((ex : Int) - bias - fb)

/-! ### Compression (R257, R263, R264) -/

/-- The stochastic draw of an element: 24 bits (R264). -/
abbrev srDraw (seed stream : Word) (idx : Nat) : Nat :=
  dbits (randMix 4 seed (BitVec.ofNat 32 idx) stream) 40 24

/-- Whether a draw takes the magnitude above `num / den` of the way between two adjacent ones: of a positive value the
greater magnitude is the higher neighbour, of a negative one the lower (R264). -/
abbrev srUp (neg : Bool) (num den draw : Nat) : Bool :=
  if neg then !decide (draw < (den - num) * 2 ^ 24 / den) else decide (draw < num * 2 ^ 24 / den)

/-- The magnitude of a value on the grid of a format, with an unbounded exponent: to nearest even, or by a draw when the
value is not above the largest finite one (R264). With m = 0 a tie goes to the greater magnitude, as roundTiesToEven has
it for one digit (DESIGN CHOICE, log 26: an example speaks of the even code). -/
def Nf.roundMag (n : Nf) (neg : Bool) (m : Nat) (e : Int) (draw : Option Nat) : Nat :=
  if m = 0 then 0
  else
    let q := max (Nat.log2 m + e - n.m) n.qmin
    let code := fun (k : Nat) => (q - n.qmin).toNat * 2 ^ n.m + k
    let near := code (toQuantum .rne false m e q false).1
    if q ≤ e then near
    else
      let d := (q - e).toNat
      let lo := code (m / 2 ^ d)
      match draw with
      | some w => if m % 2 ^ d = 0 ∨ n.maxCode ≤ lo then near else if srUp neg (m % 2 ^ d) (2 ^ d) w then lo + 1 else lo
      | none => near

/-- An element stored in a narrow float format (R263); `sat` for a block-scaled target (R257). The NaN code of an
infinity or an overflow has the sign of `x` (DESIGN CHOICE, log 26). -/
def Nf.store (n : Nf) (x : Elem) (draw : Option Nat) (sat : Bool) : Nat :=
  let sign := fun (s : Bool) => if s && n.sg then 2 ^ (n.e + n.m) else 0
  let infC := (2 ^ n.e - 1) * 2 ^ n.m
  let nanC := 2 ^ (n.e + n.m) - 1
  match x with
  | .nan s => (match n.spec with
    | 0 => 0
    | 1 => sign s + infC + 2 ^ (n.m - 1)
    | _ => sign s + nanC)
  | .inf s =>
    if s && !n.sg then 0
    else sign s + (match n.spec with
      | 0 => n.maxCode
      | 1 => infC
      | _ => if n.ovf then nanC else n.maxCode)
  | .fin s m e =>
    if s && !n.sg then 0
    else
      let c := n.roundMag s m e draw
      sign s + if c ≤ n.maxCode then c
        else if sat || !n.ovf then n.maxCode
        else if n.spec = 1 then infC else nanC

/-- Compares m × 2^e with n × 2^g. -/
abbrev magLe (m : Nat) (e : Int) (n : Nat) (g : Int) : Bool :=
  m * 2 ^ (e - min e g).toNat ≤ n * 2 ^ (g - min e g).toNat

/-- An element stored in a tapered format (R123, R263, R264). -/
def tapStore (t : Tap) (x : Elem) (draw : Option Nat) : Nat :=
  match x with
  | .nan _ | .inf _ => t.nar
  | .fin s m e =>
    let c := t.ofExact false m e
    let apply := fun (c : Nat) => if s then t.neg c else c
    match draw with
    | none => apply c
    | some w =>
      let val := fun (k : Nat) => match t.decode k with
        | some (_, n, g) => (n, g)
        | none => (0, 0)
      let lo := if magLe (val c).1 (val c).2 m e then c else c - 1
      let hi := lo + 1
      if m = 0 ∨ lo = 0 ∨ hi = t.nar then apply c
      else
        let (ln, lg) := val lo
        let (hn, hg) := val hi
        let q := min e (min lg hg)
        let at_ := fun (n : Nat) (g : Int) => n * 2 ^ (g - q).toNat
        if at_ m e = at_ ln lg then apply lo
        else apply (if srUp s (at_ m e - at_ ln lg) (at_ hn hg - at_ ln lg) w then hi else lo)

/-- An element stored as an integer of `w` bits (R263, R264). -/
def intStore (w : Nat) (x : Elem) (draw : Option Nat) : Nat :=
  let lo : Int := -(2 ^ (w - 1) : Int)
  let hi : Int := 2 ^ (w - 1) - 1
  let v : Int := match x with
    | .nan _ => 0
    | .inf s => if s then lo else hi
    | .fin s m e =>
      if 0 ≤ e then sgn s (m * 2 ^ (min e 70).toNat)
      else
        let d := (-e).toNat
        let near := (toQuantum .rne false m e 0 false).1
        let fl := m / 2 ^ d
        match draw with
        | some k => sgn s (if m % 2 ^ d ≠ 0 ∧ srUp s (m % 2 ^ d) (2 ^ d) k then fl + 1 else fl)
        | none => sgn s near
  ((max lo (min hi v)) % 2 ^ w).toNat

/-- Kinds of plain source of a compressing copy (R273). -/
inductive PlainSrc where
  | f32 | tf32 | i32
  deriving DecidableEq, Repr

/-- The source kind of a compressing copy (R273). -/
def plainSrc (code : Nat) (tf : Bool) : PlainSrc :=
  if code = 0x07 || tf then .tf32
  else if 0x08 ≤ code ∧ code ≤ 0x0B then .i32
  else .f32

/-- Pairings of a plain source and a target that are converted (R257, R263). -/
def pairOk (k : PlainSrc) (code : Nat) : Bool :=
  match k with
  | .f32 => code != 0x08
  | .tf32 => code == 0x03 || code == 0x04 || code == 0x07
  | .i32 => 0x08 ≤ code && code ≤ 0x0B

/-- The value of a plain element. -/
def plainElem (k : PlainSrc) (w : Word) : Elem :=
  match k with
  | .f32 => .ofFmt fmt32 w.toNat
  | .tf32 => .ofTap tap32 w.toNat
  | .i32 => .ofInt w.toInt

/-- A plain element stored under a format code, block scales apart (R263). A NaN of f32 keeps its upper
payload in bf16 and f16. -/
def storeElem (code : Nat) (fm : Word) (k : PlainSrc) (w : Word) (draw : Option Nat) : Nat :=
  let x := plainElem k w
  match code with
  | 0x00 => w.toNat
  | 0x01 => (match x with
    | .nan _ => (fmt32.convert fmtBf .rne w.toNat).1
    | _ => nfBf16.store x draw false)
  | 0x02 => (match x with
    | .nan _ => (fmt32.convert fmt16 .rne w.toNat).1
    | _ => nfF16.store x draw false)
  | 0x03 => tapStore tap16 x draw
  | 0x04 => tapStore tap8 x draw
  | 0x05 => (Nf.ofReg fm).store x draw false
  | 0x07 => tapStore tap32 x draw
  | 0x08 => w.toNat
  | 0x09 => intStore 16 x none
  | 0x0A => intStore 8 x none
  | 0x0B => intStore 4 x none
  | _ => 0

/-- A block of f32 values stored under a block-scaled code: its scale byte and its codes (R257). -/
def storeBlock (code : Nat) (fm : Word) (xs : List Word) (draw : Nat → Option Nat) : Nat × List Nat :=
  let es := xs.map (plainElem .f32)
  if es.any fun x => match x with | .fin .. => false | _ => true then (0xFF, xs.map fun _ => 0)
  else
    let a := (xs.map fun (x : Word) => x.toNat % 2 ^ 31).foldl max 0
    let emax : Int := match code with
      | 0x0C => 6
      | 0x0D => 2
      | _ => (Nf.ofReg fm).emax
    let s : Nat := match Elem.ofFmt fmt32 a with
      | .fin _ m e => if m = 0 then 127 else (max 0 (min 254 (Nat.log2 m + e - emax + 127))).toNat
      | _ => 127
    let conv := fun (i : Nat) (x : Elem) =>
      let y := match x with
        | .fin n m e => Elem.fin n m (e + 127 - (s : Int))
        | z => z
      match code with
      | 0x0C => intStore 8 y (draw i)
      | 0x0D => intStore 4 y (draw i)
      | _ => (Nf.ofReg fm).store y (draw i) true
    (s, List.zipWith conv (List.range es.length) es)

/-! ### Where elements lie (R256, R259, R267) -/

/-- Bytes of a block's containers (R256). -/
abbrev blockBytes (w : Nat) : Nat := 32 * w / 8

/-- Offset of element `j` in a line (R267). -/
def elemOff (code w j : Nat) : Nat :=
  if blockScaled code then j / 32 * (blockBytes w + 1) + j % 32 * w / 8
  else j * w / 8

/-- Bytes of a line of K elements. -/
def lineBytes (code w k : Nat) : Nat :=
  if blockScaled code then ceilDiv k 32 * (blockBytes w + 1) else (k * w + 7) / 8

/-- Bytes of a canonical tile (R259). -/
def canonBytes (l k : Nat) (c : Canon) (scaled : Bool) : Nat :=
  ceilDiv l 16 * ceilDiv k c.step * c.chunk +
    if scaled then ceilDiv (ceilDiv l 16 * ceilDiv k 32 * 16) 256 * 256 else 0

/-- Place of element (i, j) in a canonical tile of K elements a line (R259). -/
def canonOff (c : Canon) (k i j : Nat) : Nat :=
  (i / 16 * ceilDiv k c.step + j / c.step) * c.chunk + (i % 16 * c.step + j % c.step) * c.bytes

/-- Place of the scale byte of block `b` of line `i` in a canonical tile (R259). -/
def scaleOff (c : Canon) (l k i b : Nat) : Nat :=
  ceilDiv (ceilDiv l 16 * ceilDiv k c.step * c.chunk) 256 * 256 + (i / 16 * ceilDiv k 32 + b) * 16 + i % 16

end Sys2Proof.Machine
end

