-- ==== Sys2Proof/Machine/Home.lean ====
section
/-!
DEFINITION. At the homes (R16, R178 to R184): atomics at a line's home, ready notices, and what a store or
atomic being performed at a scope means (R209).
-/

namespace Sys2Proof.Machine

open Sys2Proof

/-! ### Atomics at the home -/

/-- The new value of an atomic (R178). -/
def atomVal (fn : AtomFn) (w64 : Bool) (old op cmp : Dword) : Dword :=
  let w := if w64 then 64 else 32
  let i := fun (x : Dword) => if w64 then x.toInt else (x.setWidth 32 : Word).toInt
  let r : Dword := match fn with
    | .add => old + op
    | .min => if i op < i old then op else old
    | .max => if i old < i op then op else old
    | .minn => if op.toNat < old.toNat then op else old
    | .maxn | .kmax => if old.toNat < op.toNat then op else old
    | .and => old &&& op
    | .or => old ||| op
    | .xor => old ^^^ op
    | .exch => op
    | .cas => if old = cmp then op else old
    | .fadd => BitVec.ofNat 64 (fmt32.add .rne false old.toNat op.toNat).1
  BitVec.ofNat 64 (r.toNat % 2 ^ w)

/-- The operands of the additions in a request, in serial order (R182). -/
def ReqTree.adds : ReqTree → List Dword
  | .part p => match p.frm with
    | .lanes _ l => l.map (·.2)
    | .commit _ _ l => l.map (·.2)
    | _ => [p.sum]
  | .join _ a b => a.adds ++ b.adds

/-- The sum of a request's additions. -/
def ReqTree.sum : ReqTree → Dword
  | .part p => p.sum
  | .join _ a b => a.sum + b.sum

/-- What additions to a count word bring about (R16): nothing outside an arena; else Crozier judges them. -/
def countEffects (s : State) (asid va : Nat) (old : Dword) (ops : List Dword) : State :=
  match arenaDie s asid va with
  | none => s
  | some die => s.enter (.judge die asid va (old.setWidth 32) (ops.map fun d => d.setWidth 32))

/-- The reply echo of a slice takes a performed fetch-and-add: its last 256, each for 20 µs (R184). -/
def echoed (s : State) (t : Trans) (id : Nat) (old : Dword) : List Echo :=
  let l := s.echoes.filter fun e => s.now < e.until_
  let l := l ++ [{ req := id, old := old, until_ := s.now + 20000, slice := homeOf t }]
  if l.length ≤ 256 then l
  else
    let mine := l.filter fun e => e.slice == homeOf t
    if mine.length ≤ 256 then l else l.filter fun e => !(some e.req == mine.head?.map (·.req) && e.slice == homeOf t)

/-- An atomic performed at its home under the identity `id`: the old value, and the state after it (R178, R180, R184).
Only additions of 32 bits, the width of a count, are judged at a count word (R16, log 26). -/
def atomHome (s : State) (asid va : Nat) (t : Trans) (fn : AtomFn) (w64 : Bool) (op cmp : Dword)
    (ops : List Dword) (id : Nat) : Dword × State :=
  let old := s.wordAt t.key w64
  let s1 := s.writeHome t (leBytes (if w64 then 8 else 4) (atomVal fn w64 old op cmp).toNat)
  let s2 := if fn = .add then { s1 with echoes := echoed s1 t id old } else s1
  (old, if fn = .add ∧ !w64 then countEffects s2 asid va old ops else s2)

/-! ### Stores that reach engines' ranges (R221) -/

/-- A store of a core is performed: the ranges that engine operations of other cores have registered there are
disturbed, and those of operations that register none (R221, R315). -/
def State.disturb (s : State) (core asid va n : Nat) : State :=
  let hit := (s.cores.filter fun k => k.cid ≠ core).flatMap fun k => k.rlt.filterMap fun r =>
    if r.asid == some asid && overlap r.lo (r.hi - r.lo) va n && !s.disturbed.contains (r.op, r.dest, va / 128) then
      some (r.op, r.dest, va / 128) else none
  let open_ := s.unlocked.filterMap fun u =>
    if u.asid == asid && overlap u.lo (u.hi - u.lo) va n && !s.disturbed.contains (u.id, u.dest, va / 128) then
      some (u.id, u.dest, va / 128) else none
  { s with disturbed := s.disturbed ++ (hit ++ open_).eraseDups }

/-! ### The reads of one fibre -/

/-- A fibre has a load or an atomic outstanding, issued before `id`, at an address that overlaps an access of it: its
reads of one address keep their order (R208). -/
def readBefore (s : State) (gid id : Nat) (a : Access) (n : Nat) : Bool :=
  (s.groupOps gid).any fun p => p.id < id && p.lanes.getLsbD a.lane &&
    (match p.kind with
     | .load size .. => p.accs.any fun b => b.lane == a.lane &&
         overlap b.va.toNat (2 ^ (size.toBits.toNat)) a.va.toNat n
     | .atom _ _ _ w => s.pendingAtoms.contains p.id && p.accs.any fun b => b.lane == a.lane &&
         overlap b.va.toNat (if w then 8 else 4) a.va.toNat n
     | _ => false)

/-- An access of an operation waits for earlier reads: of its own fibre (R208), and of the lower lanes of its packet at an
overlapping address (R170). Constants and scratchpad keep their own. -/
def earlierRead (s : State) (o : Op) (a : Access) (n : Nat) : Bool :=
  (match o.kind with
   | .constLoad .. | .scratchLoad .. => false
   | _ => true) &&
  (readBefore s o.gid o.id a n ||
    o.accs.any fun b => b.lane < a.lane && o.lanes.getLsbD b.lane && b.got.isNone && overlap b.va.toNat n a.va.toNat n)

end Sys2Proof.Machine
end

