-- ==== Sys2Proof/Machine/Access.lean ====
section
/-!
DEFINITION. What class M instructions share: effective addresses (R167), the checks made before any
access (R151, R217, R393), the outstanding table (R169), operations and what they carry, stores entering a
store queue (R206), and requests to peers (R393, R397).
-/

namespace Sys2Proof.Machine

open Sys2Proof

/-- Bytes of an access size. -/
abbrev sizeBytes : Size → Nat
  | .b8 => 1 | .b16 => 2 | .b32 => 4 | .b64 => 8 | .b128 => 16

/-- Effective address (R167). -/
def effAddr (sp : Space) (a : Dword) (off : Option Word) : Nat :=
  match sp with
  | .global => (a + (off.getD 0).signExtend 64).toNat
  | _ => ((a.setWidth 32 : Word) + off.getD 0).toNat

/-- Remote addresses may be used: the device is joined to a fabric, the context has a job, and the peer is
a device of the fabric (R393). -/
def remoteOk (s : State) (asid va : Nat) : Bool :=
  s.fabric.fxdev.getLsbD 8 && wbits (s.ctxOf asid).fxjob 0 16 != 0 &&
    nbits va 48 4 ≤ wbits s.fabric.fxdev 4 4

/-- The key of a remote address, apart from those of this device's own memory. -/
abbrev remoteTrans (va : Nat) : Trans := { pa := 2 ^ 64 + va }

/-- The range-lock entry that an access meets (R217): any destination, and for one that writes, any
source. Of several it names the first of the table (DESIGN CHOICE, log 26). -/
def lockMet (k : Core) (asid : Option Nat) (tid lo n : Nat) (writes : Bool) : Option Nat :=
  (k.rlt.find? fun r => r.asid == asid && (asid.isSome || r.tid == tid) &&
    overlap r.lo (r.hi - r.lo) lo n && (writes || r.dest)).map (·.entry)

/-- A scratchpad range touches the buffer of a configured channel of the team (R199). -/
def touchesChannel (k : Core) (tid lo n : Nat) : Bool :=
  k.chans.any fun c => c.2.owner == tid && overlap c.2.base (c.2.depth * c.2.width) lo n

/-- The checks of R151 with the range locks of R217 for one fibre's access of `n` bytes. -/
def accessOne (s : State) (h : Here) (sp : Space) (n : Nat) (kind : AccKind) (remote : Bool)
    (lane addr : Nat) : Res Trans :=
  let k := s.coreOf h.c.core
  let locked (asid : Option Nat) (t : Trans) : Res Trans :=
    match lockMet k asid h.t.tid addr n (kind != .load) with
    | some e => .trap (plainFault fRangeLock e addr) []
    | none => .ok t
  if addr % n ≠ 0 then .trap (checkFault fMisalignedAccess addr lane kind 4) []
  else match sp with
    | .global =>
      if 2 ^ 56 ≤ addr then .trap (checkFault fAddressRange addr lane kind 3) []
      else if isRemote addr then
        if remote && remoteOk s h.t.asid addr then .ok (remoteTrans addr)
        else .trap (checkFault fAddressRange addr lane kind 3) []
      else match translate s h.c.core h.t.asid addr lane kind (!(h.g.lane lane).mode) with
        | .ok t => locked (some h.t.asid) t
        | r => r
    | .scratch =>
      if h.t.scrSize < addr + n || touchesChannel k h.t.tid addr n then
        .trap (checkFault fScratchBounds addr lane kind 5) []
      else locked none { pa := addr }
    | .const =>
      if kind ≠ .load then .trap (checkFault fConstWrite addr lane kind 5) []
      else match constAddr (s.ctxOf h.t.asid) addr n lane with
        | .error f => .trap f []
        | .ok va => translate s h.c.core h.t.asid va lane .load (!(h.g.lane lane).mode)

/-- The checks for every active fibre, before any access (R151): a walk still to be made holds the packet;
else the lowest failing lane gives the fault of the packet. -/
def accessAll (s : State) (h : Here) (sp : Space) (n : Nat) (kind : AccKind) (remote : Bool)
    (l : List (Nat × Nat)) : Res (List (Nat × Nat × Trans)) :=
  let rs := l.map fun p => (p.1, p.2, accessOne s h sp n kind remote p.1 p.2)
  let holds := rs.flatMap fun r => match r.2.2 with
    | .hold w => w
    | _ => []
  let own := rs.filterMap fun r => match r.2.2 with
    | .trap f _ => some (r.1, f)
    | _ => none
  match holds, own with
  | _ :: _, _ => .hold holds
  | [], (_, f) :: _ => .trap f own
  | [], [] => .ok (rs.filterMap fun r => match r.2.2 with
    | .ok t => some (r.1, r.2.1, t)
    | _ => none)

/-- The outstanding table has room for the sectors of some accesses (R169). -/
def otRoom (s : State) (core : Nat) (accs : List Access) : Bool :=
  otUsed s core + (accs.map fun a => a.tr.pa / 128).eraseDups.length ≤ 4096

/-- An operation that the packet in hand issues. -/
def mkOp (i : Instr) (h : Here) (s : State) (kind : OpKind) (accs : List Access) : Op :=
  { core := h.c.core, gid := h.g.gid, tid := h.t.tid, asid := h.t.asid, mask := h.act, lanes := h.act, flags := setFlags h.hdr,
    lead := h.lead, accs := accs, pc := h.first.pc, rem := h.first.rem, clause := h.hdr, len := i.words, words := encode i, still := h.act,
    user := h.user, users := h.act &&& h.g.lanesWhere fun x => !x.mode, stepped := h.g.halted, since := s.now, kind := kind }

/-- Reads the sources of an instruction in every active fibre; a constant word that faults or waits ends the
word. -/
def withOperands (i : Instr) (s : State) (h : Here) (k : List LaneIn → State → State) : State :=
  let srcs := (shape i).srcs
  match readConsts s h (constWords srcs) with
  | .trap b o => s.trapPacket h.c h.act b o
  | .hold w => s.hold h.c h.t.asid w
  | .ok (consts, s1) => k (laneIns s1 h consts srcs) s1

/-- Checks the accesses of the active fibres and goes on with them. -/
def withAccess (s : State) (h : Here) (sp : Space) (n : Nat) (kind : AccKind) (remote : Bool)
    (l : List (Nat × Nat)) (k : List (Nat × Nat × Trans) → State) : State :=
  match accessAll s h sp n kind remote l with
  | .trap b o => s.trapPacket h.c h.act b o
  | .hold w => s.hold h.c h.t.asid w
  | .ok ts => k ts

/-! ### Requests to peers (R393, R397) -/

/-- The port of a device that leads to a peer (R392): device numbers d, S of FXDEV. -/
def portOf (fxdev : Word) (e : Nat) : Nat :=
  let n := wbits fxdev 4 4 + 1
  (e + n - 1 - wbits fxdev 0 4) % n

/-- The direct link to a peer is up. -/
def linkUp (s : State) (e : Nat) : Bool := (vget s.fabric.links (portOf s.fabric.fxdev e) {}).up

abbrev ownDevice (s : State) : Nat := wbits s.fabric.fxdev 0 4
abbrev devices (s : State) : Nat := wbits s.fabric.fxdev 4 4 + 1

/-- Relays to a peer with the credits outstanding on their links to it: devices other than both ends, whose links to this
device and to the peer are both up (R397). -/
def relays (s : State) (e : Nat) : List (Nat × Nat) :=
  s.fabric.far.filterMap fun l =>
    if l.2.1 = e ∧ l.1 ≠ ownDevice s ∧ l.1 ≠ e ∧ linkUp s l.1 then some (l.1, l.2.2) else none

/-- The relay of a request (R397): the fewest credits outstanding, ties to the lower number. -/
def relayFor (s : State) (e : Nat) : Option Nat :=
  ((relays s e).foldl (fun (best : Option (Nat × Nat)) q => match best with
    | none => some q
    | some b => if q.2 < b.2 || (q.2 == b.2 && q.1 < b.1) then some q else some b) none).map (·.1)

/-- A link of a port rewritten. -/
def State.updLink (s : State) (p : Nat) (f : Link → Link) : State :=
  { s with fabric := { s.fabric with links := vset s.fabric.links p (f (vget s.fabric.links p {})) } }

/-! ### Flits (R395, R396) -/

/-- CRC-32 of some bytes; its polynomial is that of IEEE 802.3 (PRESUMED, log 10). -/
def crc32 (l : List Byte) : Nat :=
  let bit := fun (c : Nat) => if c % 2 = 1 then (c / 2) ^^^ 0xEDB88320 else c / 2
  (l.foldl (fun c b => bit (bit (bit (bit (bit (bit (bit (bit (c ^^^ b.toNat))))))))) 0xFFFFFFFF) ^^^ 0xFFFFFFFF

/-- The types of a flit (R395), numbered as the header's field lists them (log 10). -/
inductive FlitType where
  | request | reply | credit | beat | idle
  deriving DecidableEq, Repr

abbrev FlitType.code : FlitType → Nat
  | .request => 0 | .reply => 1 | .credit => 2 | .beat => 3 | .idle => 4

/-- A flit of 256 bytes (R4, R395): header, payload, CRC and parity. -/
def flitBytes (seq : BitVec 12) (k : FlitType) (routing : Nat) (payload : List Byte) : List Byte :=
  let b := leBytes 8 (seq.toNat + k.code * 2 ^ 12 + routing % 2 ^ 48 * 2 ^ 16) ++ (payload ++ List.replicate 240 0).take 240
  let c := b ++ leBytes 4 (crc32 b)
  c ++ leBytes 4 (Config.flitParity c)

/-- A flit leaves over the link to a device: it takes the link's next number, and the replay buffer keeps it among its
last 256 (R396). -/
def State.sendFlit (s : State) (dev : Nat) (k : FlitType) (payload : List Byte) : State :=
  s.updLink (portOf s.fabric.fxdev dev) fun l =>
    { l with next := l.next + 1
             replay := (flitBytes l.next k (Config.flitRouting dev s.tick) payload :: l.replay).take 256 }

/-- The origin of a request and its number there: the device's own are plain numbers. -/
abbrev originOf (own id : Nat) : Nat × Nat := if id < 2 ^ 64 then (own, id) else (id / 2 ^ 64 - 1, id % 2 ^ 64)

/-- The payload of a request. The places of the fields in payloads are the model's (log 10). -/
def requestPayload (own : Nat) (r : Remote) : List Byte :=
  let o := originOf own r.id
  let (k, w, n, op, cmp, data) : Nat × Bool × Nat × Dword × Dword × List Byte := match r.kind with
    | .load n => (0, false, n, 0, 0, [])
    | .store b => (1, false, b.length, 0, 0, b)
    | .atom fn w op cmp => (2, w, fn.toBits.toNat, op, cmp, r.ids.flatMap fun x =>
        leBytes 1 (originOf own x.1).1 ++ leBytes 8 (originOf own x.1).2 ++ leBytes 8 x.2.toNat)
  let bit := fun (b : Bool) (v : Nat) => if b then v else 0
  leBytes 2 (k * 256) ++
    leBytes 1 (bit w 1 + bit r.commit 2 + bit r.privileged 4 + bit r.tree.isNone 8 + r.ids.length % 8 * 16 + bit r.resent 128) ++
    leBytes 1 n ++ leBytes 1 r.peer ++ leBytes 1 o.1 ++ leBytes 2 r.job ++ leBytes 8 o.2 ++ leBytes 8 r.off ++
    leBytes 8 op.toNat ++ leBytes 8 cmp.toNat ++ data

/-- The payload of a reply to a device. -/
def replyPayload (own dev id : Nat) (a : RemoteReply) : List Byte :=
  let o := originOf own id
  leBytes 2 ((a.cause.map BitVec.toNat).getD 0 * 256) ++ leBytes 1 a.value.length ++
    leBytes 1 (a.level % 4 + (if a.s2 then 4 else 0) + a.why % 16 * 16) ++ leBytes 1 dev ++ leBytes 1 o.1 ++ leBytes 2 0 ++
    leBytes 8 o.2 ++ a.value

/-- The payload of a beat flit. -/
def beatPayload (b : BeatFlit) : List Byte :=
  leBytes 2 (b.member * 256) ++ leBytes 2 0 ++ leBytes 2 b.dest ++ leBytes 2 b.job ++ leBytes 4 b.boundary ++
    leBytes 4 b.count

/-- A flit for a device leaves over the direct link, or over a relay (R397, R408); with no path it is not sent. -/
def State.sendTo (s : State) (dev : Nat) (k : FlitType) (payload : List Byte) : State :=
  if linkUp s dev then s.sendFlit dev k payload
  else match relayFor s dev with
    | some q => s.sendFlit q k payload
    | none => s

/-- A request enters the crossbar on the device's own input (R398), whoever its peer is: those for other devices meet
relayed ones there (R397, R399). A commit addition carries its identity and operand (R406). -/
def sendRemote (s : State) (r : Remote) : State :=
  let ids := match r.kind with
    | .atom .add _ op _ => if r.commit then [(s.serial, op)] else []
    | _ => []
  let r := { r with id := s.serial, sent := s.now, input := ownDevice s, arrived := s.now, ids := ids }
  { s with serial := s.serial + 1, fabric := { s.fabric with ins := s.fabric.ins ++ [r] } }

/-- A reply goes back to the device whose link delivered the request (R398). -/
def State.sendReply (s : State) (dev : Nat) (a : RemoteReply) : State :=
  let s1 := { s with fabric := { s.fabric with sent := s.fabric.sent ++ [a] } }
  s1.sendTo dev .reply (replyPayload (ownDevice s) dev a.id a)

/-- A request of one lane of an operation to the peer its address names. -/
def remoteFor (s : State) (asid op lane va : Nat) (kind : RemoteKind) (priv : Bool) : Remote :=
  { peer := nbits va 48 4, job := wbits (s.ctxOf asid).fxjob 0 16, off := nbits va 0 48, kind := kind,
    op := op, lane := lane, privileged := priv }

/-- The fibre's open region names the peer of an address (R404). -/
def Fibre.names (x : Fibre) (va : Nat) : Fibre :=
  match x.region with
  | none => x
  | some r => { x with region := some { r with peers := r.peers ||| (1 <<< nbits va 48 4) } }

/-- The number of a failure event: of one at a moment, or of the timeout of an operation (R402). -/
abbrev momentEvent (s : State) : Nat := 2 * s.tick
abbrev timeoutEvent (op : Nat) : Nat := 2 * op + 1

/-- The region of a fibre fails, for a cause and by an event; an earlier failure stands (R404). -/
def Fibre.fail (x : Fibre) (cause : BitVec 3) (event : Nat) : Fibre :=
  if x.rollback.isSome then x else { x with rollback := some cause, rollNo := event }

/-- A remote operation placed in the buffer of the fibre's open region; a 17th fails the region (R403). -/
def Fibre.bufferOp (x : Fibre) (o : RegOp) (event : Nat) : Fibre :=
  match x.region with
  | none => x
  | some r =>
    if 16 ≤ r.buf.length then x.fail 3 event
    else Fibre.names { x with region := some { r with buf := r.buf ++ [o] } } o.va.toNat

/-- An access is buffered by an open region: its address is remote (R403). -/
abbrev buffers (h : Here) (p : Nat × Nat × Trans) : Bool :=
  isRemote p.2.1 && p.2.2.pa ≥ 2 ^ 64 && (h.g.lane p.1).region.isSome

/-! ### Stores entering a store queue (R170, R206) -/

/-- The sector a store lies in: space and number. -/
abbrev StoreRec.sector (r : StoreRec) : Bool × Nat := (r.scratch, r.tr.key / 128)

/-- A packet's stores as sector entries, in ascending lane order. -/
def sectorEntries (rel : Option Scope) (l : List StoreRec) : List SqEntry :=
  l.foldl (fun es r =>
    if es.any fun e => e.stores.any fun q => q.sector == r.sector then
      es.map fun e => if e.stores.any fun q => q.sector == r.sector then { e with stores := e.stores ++ [r] } else e
    else es ++ [{ stores := [r], rel := rel }]) []

/-- Entries of a store queue. -/
abbrev sqSize : Nat := 32

/-- A store queue takes some entries. -/
abbrev sqRoom (g : Group) (es : List SqEntry) : Bool := g.sq.length + es.length ≤ sqSize

/-- Stores of an operation `op` of the packet in hand. -/
def storeRecs (op : Nat) (scratch : Bool) (ts : List (Nat × Nat × Trans)) (bytes : Nat → List Byte) :
    List StoreRec :=
  ts.map fun p => { op := op, lane := p.1, va := BitVec.ofNat 64 p.2.1, tr := p.2.2, bytes := bytes p.1,
                    scratch := scratch }

/-- The accesses of an operation. -/
def accsOf (ts : List (Nat × Nat × Trans)) (op cmp : Nat → Dword) : List Access :=
  ts.map fun p => { lane := p.1, va := BitVec.ofNat 64 p.2.1, tr := p.2.2, op := op p.1, cmp := cmp p.1 }

/-! ### Where a load finds its bytes (R174, R207) -/

/-- The source of a load's bytes. -/
inductive LoadSrc where
  | wait
  | val (l : List Byte)
  | home
  deriving DecidableEq, Repr

/-- A store covers a byte: at the same address of the same context, or in the same place of memory. -/
def StoreRec.byte (r : StoreRec) (same scratch : Bool) (va key : Nat) : Option Byte :=
  if r.scratch ≠ scratch then none
  else if same && r.va.toNat ≤ va && va < r.va.toNat + r.bytes.length then r.bytes[va - r.va.toNat]?
  else if r.tr.key ≤ key && key < r.tr.key + r.bytes.length && !scratch then r.bytes[key - r.tr.key]?
  else none

/-- Bytes that stores supply, youngest first: all, some or none of the access. -/
def coverBy (l : List (StoreRec × Bool)) (scratch : Bool) (a : Access) (n : Nat) : LoadSrc :=
  let bs := (List.range n).map fun i =>
    l.findSome? fun p => p.1.byte p.2 scratch (a.va.toNat + i) (a.tr.key + i)
  if bs.all Option.isSome then .val (bs.filterMap id)
  else if bs.any Option.isSome then .wait
  else .home

/-- The first of SQ(g) and the pending set that holds the bytes of an access of operation `id` (R207). -/
def coreSource (s : State) (g : Group) (id : Nat) (scratch : Bool) (a : Access) (n : Nat) : LoadSrc :=
  let sq := (g.sq.flatMap (·.stores)).filter fun r => r.op < id
  match coverBy (sq.reverse.map fun r => (r, true)) scratch a n with
  | .home =>
    if scratch then .home
    else
      let asid := s.asidOf g.gid
      coverBy ((s.coreOf g.core).cop.reverse.map fun c => (c.rec_, c.asid == asid)) scratch a n
  | r => r

end Sys2Proof.Machine
end

