-- ==== Sys2Proof/Machine/LoadStore.lean ====
section
/-!
DEFINITION. Class M: loads, stores, atomics, reductions, fences, monitors, prefetch and cache control,
and channel configuration (R166 to R202, R403, R445).
-/

namespace Sys2Proof.Machine

open Sys2Proof

/-! ### Loads (R172 to R177) -/

/-- The open regions of a load's fibres name the peers it reads from (R404). -/
def nameLoads (s : State) (h : Here) (ts : List (Nat × Nat × Trans)) : State :=
  s.updGroup h.g.gid fun g => ts.foldl (fun (g : Group) p =>
    if p.2.2.pa < 2 ^ 64 then g else g.setLane p.1 ((g.lane p.1).names p.2.1)) g

/-- A load: checks, an entry of the outstanding table for each sector, then the operation. -/
def issueLoad (i : Instr) (d : Dst) (off : Option Word) (size : Size) (sp : Space) (kind : OpKind)
    (s : State) : Out :=
  issue i s fun h => withOperands i s h fun ins s =>
    withAccess s h sp (sizeBytes size) .load true (ins.map fun x => (x.lane, effAddr sp (x.s 0) off))
      fun ts =>
        -- a constant access keeps the address behind its offset, for its retry (R152, R159)
        let behind := fun (lane : Nat) => match ts.find? fun p => p.1 = lane with
          | some p => match constAddr (s.ctxOf h.t.asid) p.2.1 (sizeBytes size) lane with
            | .ok va => BitVec.ofNat 64 va
            | .error _ => 0
          | none => 0
        let accs := accsOf ts (if sp = .const then behind else fun _ => 0) (fun _ => 0)
        if !otRoom s h.c.core accs then s.hold h.c h.t.asid []
        else
          let s1 := s.advance h.c i.words
          nameLoads (s1.addOp { mkOp i h s kind accs with dst := some (d, (sizeKind size).regs) }) h ts

/-- `LD` (R172). -/
def execLd (d : Dst) (a : Src) (off : Option Word) (size : Size) (pol : Policy) (sp : Space) (sx : Bool)
    (s : State) : Out :=
  issueLoad (.ld d a off size pol sp sx) d off size sp
    (match sp with
     | .global => .load size sx pol none none
     | .scratch => .scratchLoad size sx
     | .const => .constLoad size sx) s

/-- `LDA` (R175). -/
def execLda (d : Dst) (a : Src) (off : Option Word) (size : Size) (pol : Policy) (scope : Scope)
    (s : State) : Out :=
  issueLoad (.lda d a off size pol scope) d off size .global (.load size false pol (some scope) none) s

/-- `LDP` (R176). -/
def execLdp (d : Dst) (a : Src) (off : Option Word) (size : Size) (s : State) : Out :=
  issueLoad (.ldp d a off size) d off size .global (.load size false .normal none (some false)) s

/-! ### Stores (R172, R175, R206) -/

/-- What a lane stores: the low bytes of its data, or a quadruple of its registers. -/
def storeBytes (g : Group) (data : Src) (n : Nat) (x : LaneIn) : List Byte :=
  match data with
  | .v r => if n = 16 then leBytes 16 ((g.lane x.lane).wide r.toNat 4) else leBytes n (x.s 0).toNat
  | _ => leBytes n (x.s 0).toNat

/-- Bytes of a lane among those of the active fibres. -/
abbrev laneBytes (l : List (Nat × List Byte)) (i : Nat) : List Byte := (assoc l i).getD []

/-- A store: checks, room in the store queue and the outstanding table; remote stores of an open region go
to its buffer, the others to the tail of the store queue. -/
def issueStore (i : Instr) (data : Src) (off : Option Word) (size : Size) (pol : Policy) (sp : Space)
    (rel : Option Scope) (s : State) : Out :=
  issue i s fun h => withOperands i s h fun ins s =>
    let n := sizeBytes size
    withAccess s h sp n .store true (ins.map fun x => (x.lane, effAddr sp (x.s 1) off)) fun ts =>
      let bytes := ins.map fun x => (x.lane, storeBytes h.g data n x)
      let buf := ts.filter (buffers h)
      let out := ts.filter fun p => !buffers h p
      let accs := accsOf out (fun _ => 0) (fun _ => 0)
      let es := sectorEntries rel (storeRecs 0 (sp == .scratch) out (laneBytes bytes))
      if !otRoom s h.c.core accs || !sqRoom h.g es then s.hold h.c h.t.asid []
      else
        let s1 := s.advance h.c i.words
        let es := sectorEntries rel (storeRecs s1.serial (sp == .scratch) out (laneBytes bytes))
        let s2 := s1.updGroup h.g.gid fun g =>
          let g1 := buf.foldl (fun (g : Group) p => g.setLane p.1 ((g.lane p.1).bufferOp
            { va := BitVec.ofNat 64 p.2.1, store := some (laneBytes bytes p.1) } (momentEvent s))) g
          { g1 with sq := g1.sq ++ es }
        if out.isEmpty then s2
        else s2.addOp { mkOp i h s (.store pol rel) accs with lanes := maskOf (out.map (·.1)) }

/-- `ST` (R172). -/
def execSt (data a : Src) (off : Option Word) (size : Size) (pol : Policy) (sp : Space) (s : State) : Out :=
  issueStore (.st data a off size pol sp) data off size pol sp none s

/-- `STL` (R175). -/
def execStl (data a : Src) (size : Size) (scope : Scope) (s : State) : Out :=
  issueStore (.stl data a size scope) data none size .normal .global (some scope) s

/-! ### Atomics (R178 to R181) -/

/-- The requests of a packet's atomic: the add lanes of one address make one request with their sum, in
ascending lane order (R181); every other lane makes its own. -/
def atomGroups (add : Bool) (accs : List Access) : List (List Access) :=
  accs.foldl (fun gs a =>
    if add && gs.any fun g => g.any fun b => b.va == a.va then
      gs.map fun g => if g.any fun b => b.va == a.va then g ++ [a] else g
    else gs ++ [[a]]) []

/-- The request of some lanes of an operation, at a home of this device or of a peer; it has still to leave its core
(R181). -/
def sendAtom (s : State) (asid tid : Nat) (fn : AtomFn) (w64 : Bool) (core op : Nat)
    (l : List Access) : State :=
  match l with
  | [] => s
  | a :: _ =>
    let sum := if fn = .add then l.foldl (fun n b => n + b.op) 0 else a.op
    let tree : ReqTree := .part { frm := .lanes op (l.map fun b => (b.lane, b.op)), tid := tid, sum := sum, core := core }
    { s with
      reqs := s.reqs ++ [{ id := s.serial, asid := asid, va := a.va, tr := a.tr, fn := fn, w64 := w64,
                           op := sum, cmp := a.cmp, tree := tree }]
      serial := s.serial + 1 }

/-- An atomic: remote ones of an open region are buffered (R403), the others are asked for at their
homes. -/
def issueAtom (i : Instr) (d : Dst) (fn : AtomFn) (ord : Order) (scope : Scope) (w64 : Bool)
    (s : State) : Out :=
  issue i s fun h => withOperands i s h fun ins s =>
    let n := if w64 then 8 else 4
    withAccess s h .global n .atomic true (ins.map fun x => (x.lane, (x.s 0).toNat)) fun ts =>
      let opOf := fun (k lane : Nat) => ((ins.find? fun x => x.lane = lane).map (·.s k)).getD 0
      let buf := ts.filter (buffers h)
      let accs := accsOf (ts.filter fun p => !buffers h p) (opOf 1) (opOf 2)
      if !otRoom s h.c.core accs then s.hold h.c h.t.asid []
      else
        let s1 := s.advance h.c i.words
        let id := s1.serial
        let s2 := s1.updGroup h.g.gid fun g =>
          buf.foldl (fun (g : Group) p => g.setLane p.1 ((g.lane p.1).bufferOp
            { va := BitVec.ofNat 64 p.2.1, fn := fn, w64 := w64, op := opOf 1 p.1, cmp := opOf 2 p.1,
              dst := some d } (momentEvent s))) g
        if accs.isEmpty then s2
        else
          let o := mkOp i h s (.atom fn ord scope w64) accs
          (atomGroups (fn == .add) accs).foldl
            (fun s l => sendAtom s h.t.asid h.t.tid fn w64 h.c.core id l)
            (s2.addOp { o with dst := some (d, (kOf w64).regs), preds := [63],
                               lanes := maskOf (accs.map (·.lane)) })

/-- `ATOM` (R178). -/
def execAtom (d : Dst) (a b c : Src) (fn : AtomFn) (ord : Order) (scope : Scope) (w64 : Bool)
    (s : State) : Out :=
  issueAtom (.atom d a b c fn ord scope w64) d fn ord scope w64 s

/-! ### Reductions (R185 to R190) -/

/-- A flush: every entry of the team drains, after those of an earlier flush, and its groups count their `RED`s afresh
(R187, R189). -/
def startFlush (s : State) (tid : Nat) : State :=
  let core := ((s.team? tid).map (·.core)).getD 0
  let s1 := s.updCore core fun k =>
    { k with reds := k.reds.map fun e =>
        if e.tid = tid ∧ !e.draining then { e with draining := true, flush := s.serial } else e }
  { s1 with groups := s1.groups.map fun g => if g.tid = tid then { g with redCount := 0 } else g
            serial := s1.serial + 1 }

/-- Entries of a team that still drain. -/
def teamDraining (s : State) (tid : Nat) : Bool :=
  match s.team? tid with
  | none => false
  | some t => (s.coreOf t.core).reds.any fun e => e.draining && e.tid == tid

/-- An entry of the group that a reduction folds into (R186). -/
abbrev RedEntry.takes (e : RedEntry) (gid : Nat) (va : Dword) (fn : AtomFn) (w64 : Bool) (sc : Scope) : Bool :=
  e.gid == gid && e.va == va && e.fn == fn && e.w64 == w64 && e.scope == sc && !e.draining

/-- One lane's reduction placed in a buffer. -/
def foldRed (l : List RedEntry) (new : RedEntry) : List RedEntry :=
  if l.any fun e => e.takes new.gid new.va new.fn new.w64 new.scope then
    l.map fun e => if e.takes new.gid new.va new.fn new.w64 new.scope then
      { e with value := atomVal new.fn new.w64 e.value new.value 0, id := new.id
               privileged := e.privileged && new.privileged } else e
  else l ++ [new]

/-- `RED` (R185, R186): its accesses need room in the outstanding table (R169); the lanes fold into the scheduler's atomic buffer; a buffer that has no room
for the packet's new entries counts as full, starts a flush and holds the packet (log 26); a group's 64th `RED` starts one (R187). -/
def execRed (a b : Src) (fn : AtomFn) (scope : Scope) (w64 : Bool) (s : State) : Out :=
  let i : Instr := .red a b fn scope w64
  issue i s fun h => withOperands i s h fun ins s =>
    withAccess s h .global (if w64 then 8 else 4) .atomic true (ins.map fun x => (x.lane, (x.s 0).toNat))
      fun ts =>
        let opOf := fun (lane : Nat) => ((ins.find? fun x => x.lane = lane).map (·.s 1)).getD 0
        let buf := ts.filter (buffers h)
        let mine := ts.filter fun p => !buffers h p
        let reds := mine.foldl (fun l p => foldRed l
          { sched := h.g.sched, gid := h.g.gid, tid := h.t.tid, home := h.g.homeSched, num := h.g.num, va := BitVec.ofNat 64 p.2.1, fn := fn, w64 := w64,
            scope := scope, value := opOf p.1, tr := p.2.2, id := s.serial
            privileged := (h.g.lane p.1).mode }) (s.coreOf h.c.core).reds
        if !otRoom s h.c.core (accsOf mine (fun _ => 0) fun _ => 0) then s.hold h.c h.t.asid []
        else if 256 < (reds.filter fun e => e.sched = h.g.sched).length then
          (startFlush s h.t.tid).hold h.c h.t.asid []
        else
          let s1 := s.advance h.c i.words
          let s2 := (s1.updCore h.c.core fun k => { k with reds := reds }).updGroup h.g.gid fun g =>
            let g1 := buf.foldl (fun (g : Group) p => g.setLane p.1 ((g.lane p.1).bufferOp
              { va := BitVec.ofNat 64 p.2.1, fn := fn, w64 := w64, op := opOf p.1 } (momentEvent s))) g
            { g1 with redCount := g1.redCount + 1 }
          if h.g.redCount + 1 = 64 then startFlush s2 h.t.tid else s2

/-- `REDF` (R188): starts a flush, and completes when every drained entry is done. -/
def execRedf (s : State) : Out :=
  issue .redf s fun h =>
    let s1 := s.advance h.c 1
    let s2 := startFlush (s1.addOp (mkOp .redf h s .redf [])) h.t.tid
    if teamDraining s2 h.t.tid then s2 else s2.finishOp s1.serial

/-! ### Fences (R191) -/

/-- `FENCE` (R191). -/
def execFence (k : FenceKind) (scope : Scope) (s : State) : Out :=
  issue (.fence k scope) s fun h =>
    (s.advance h.c (Instr.fence k scope).words).addOp (mkOp (.fence k scope) h s (.fence k scope) [])

/-! ### Monitors (R192 to R194) -/

/-- Monitor entries of a home, of 512 (R194). -/
def monitorRoom (s : State) (t : Trans) : Bool :=
  s.monitors.length < 512 || (s.monitors.filter fun m => m.slice == homeOf t).length < 512

/-- A group watches a word: under the entry it has there, or a new one while the table has room (R193). The state and
whether the group has an entry. -/
def watch (s : State) (gid : Nat) (t : Trans) (bar : Option (BitVec 4)) : State × Bool :=
  if s.monitors.any fun m => m.gid == gid && m.pa == t.key && m.bar == bar then (s, true)
  else if monitorRoom s t then
    ({ s with monitors := s.monitors ++ [{ pa := t.key, slice := homeOf t, gid := gid, bar := bar }] }, true)
  else (s, false)

/-- `WAITC` (R192, R193): the fibres whose condition holds go on, the others park under a monitor entry. -/
def execWaitc (d : Dst) (a b : Src) (cc : WaitCc) (scope : Scope) (w64 : Bool) (s : State) : Out :=
  let i : Instr := .waitc d a b cc scope w64
  issue i s fun h => withOperands i s h fun ins s =>
    let n := if w64 then 8 else 4
    withAccess s h .global n .load false (ins.map fun x => (x.lane, (x.s 0).toNat)) fun ts =>
      let opOf := fun (lane : Nat) => ((ins.find? fun x => x.lane = lane).map (·.s 1)).getD 0
      -- the timeout each lane names (R192)
      let limit := fun (lane : Nat) =>
        let w : Word := match d with
          | .v r => (h.g.lane lane).reg r.toNat
          | .s r => h.g.scalar r.toNat
          | .push _ => 0
        if w = 0 then (0 : Dword) else BitVec.ofNat 64 (s.now + w.toNat)
      let accs := accsOf ts opOf limit
      let srcs := accs.map fun x => (x, coreSource s h.g s.serial false x n)
      let gone := accs.filter fun x => stale s h.t.asid x.tr
      let bad := srcs.filterMap fun p =>
        if p.2 = .home ∧ s.bad.contains (p.1.tr.key / 128) then
          some (p.1.lane, plainFault fDataError 0 p.1.va.toNat) else none
      -- returned for a stale generation: the packet walks again (R159)
      if !gone.isEmpty then s.hold h.c h.t.asid (gone.map fun (x : Access) => x.va.toNat)
      else if !otRoom s h.c.core accs || heldBack s h.g.gid s.serial false ||
          srcs.any (fun p => p.2 == .wait) || accs.any fun x => lineMoving s x.tr || readBefore s h.g.gid s.serial x n then
        s.hold h.c h.t.asid []
      else
        -- an uncorrectable error is reported to the fibres that would have used the word (R29, R171)
        let (err, s) := if bad.isEmpty then (1, s) else s.choose 2
        if err = 0 then s.trapPacket h.c (maskOf (bad.map (·.1))) ((bad.head?.map (·.2)).getD {}) bad
        else
        let s1 := { s with bad := s.bad.filter fun b => !(accs.any fun x => x.tr.key / 128 == b) }.transfer h.c []
        let s2 := s1.addOp { mkOp i h s (.waitc cc scope w64) accs with
          dst := some (d, (kOf w64).regs), preds := [63] }
        srcs.foldl (fun s p =>
          let s := if p.2 = .home then (s.touch p.1.tr h.c.core).refresh h.c.core p.1.tr p.1.va.toNat else s
          let v : Dword := match p.2 with
            | .val l => BitVec.ofNat 64 (leNat l)
            | _ => s.wordAt p.1.tr.key w64
          match s.op? s1.serial with
          | none => s
          | some o =>
            if waitcHolds cc w64 v p.1.op then
              acquire ((predLane (writeLane s o p.1.lane v.toNat) h.g.gid p.1.lane 63 false).finishLanes o.id
                (maskOf [p.1.lane])) h.g.gid scope
            else
              let (s3, got) := watch s h.g.gid p.1.tr none
              s3.updGroup h.g.gid fun g => g.setLane p.1.lane
                (let x := g.lane p.1.lane
                 { x with wait := some (.mon o.id got), status := if got then .parked else x.status })) s2

/-! ### Prefetch and cache control (R196, R197) -/

/-- What a `PREF` fetches: the sectors whose fill may be done; an access that would fault does nothing. -/
def prefAccs (s : State) (h : Here) (off : Option Word) (line : Bool) (ins : List LaneIn) : List Access :=
  ins.flatMap fun x =>
    let va := effAddr .global (x.s 0) off
    if 2 ^ 56 ≤ va ∨ isRemote va then []
    else
      let t := match tlbFind s h.c.core h.t.asid va with
        | some t =>
          if permOk t .load (!(h.g.lane x.lane).mode) && (t.home != 2 || pinnedHere s t.target va) then some t else none
        | none => match xlateNow s h.t.asid va .load (!(h.g.lane x.lane).mode) x.lane with
          | some (.ok t) => some t
          | _ => none
      match t with
      | none => []
      | some t =>
        if t.home = 3 then []
        else
          let secs := if line then [t.pa / 256 * 256, t.pa / 256 * 256 + 128] else [t.pa / 128 * 128]
          secs.map fun p => ({ lane := x.lane, va := BitVec.ofNat 64 va, tr := { t with pa := p } } : Access)

/-- `PREF` (R196). -/
def execPref (a : Src) (off : Option Word) (line : Bool) (pol : Policy) (s : State) : Out :=
  let i : Instr := .pref a off line pol
  issue i s fun h => withOperands i s h fun ins s =>
    let accs := prefAccs s h off line ins
    if !otRoom s h.c.core accs then s.hold h.c h.t.asid []
    else
      let walked := accs.foldl (fun s a =>
        if (tlbFind s h.c.core h.t.asid a.va.toNat).isSome then s else s.accessed h.t.asid a.va.toNat) s
      (walked.advance h.c i.words).addOp (mkOp i h s (.pref pol) accs)

/-- The checks of R151 for the addresses of a `CCTL`, without the alignment check and the range locks. -/
def cctlCheck (s : State) (h : Here) (addrs : List (Nat × Nat)) : Res (List (Nat × Nat × Trans)) :=
  let one := fun (p : Nat × Nat) => accessOne s h .global 1 .load false p.1 p.2
  let bad := addrs.filterMap fun p => match one p with
    | .trap f _ => if f.cause = fRangeLock then none else some (p.1, f)
    | _ => none
  let wait := addrs.flatMap fun p => match one p with
    | .hold w => w
    | _ => []
  match wait, bad with
  | _ :: _, _ => .hold wait
  | [], (_, f) :: _ => .trap f bad
  | [], [] => .ok (addrs.map fun p => (p.1, p.2, (tlbFind s h.c.core h.t.asid p.2).getD {}))

/-- `CCTL` (R197). -/
def execCctl (a : Src) (op : CctlOp) (s : State) : Out :=
  let i : Instr := .cctl a op
  issue i s fun h => withOperands i s h fun ins s =>
    let checked (k : List (Nat × Nat × Trans) → State) : State :=
      match cctlCheck s h (ins.map fun x => (x.lane, (x.s 0).toNat)) with
      | .hold w => s.hold h.c h.t.asid w
      | .trap f bad => s.trapPacket h.c h.act f bad
      | .ok ts => k ts
    match op with
    | .l1line => checked fun ts =>
      (s.advance h.c i.words).updCore h.c.core fun k =>
        { k with l1 := k.l1.filter fun l => !(ts.any fun p => p.2.2.pa / 256 == l.sector / 2) }
    | .l1all => (s.advance h.c i.words).updCore h.c.core fun k => { k with l1 := [] }
    | .cbank =>
      let banks := ins.map fun x => (x.lane, (x.w 0).toNat)
      let bad := banks.filterMap fun p =>
        if 15 < p.2 then some (p.1, checkFault fConstBounds (p.2 * 65536) p.1 .load 5) else none
      match bad with
      | (_, f) :: _ => s.trapPacket h.c h.act f bad
      | [] => (s.advance h.c i.words).updCore h.c.core fun k =>
        { k with ccache := k.ccache.filter fun e => !(e.1.1 == h.t.asid && banks.any fun p => e.1.2 / 512 == p.2) }
    | .icache => (s.advance h.c i.words).updCore h.c.core fun k => { k with icache := [] }
    | .wb => checked fun ts =>
      let accs := accsOf ts (fun _ => 0) (fun _ => 0)
      if !otRoom s h.c.core accs then s.hold h.c h.t.asid []
      else (s.advance h.c i.words).addOp (mkOp i h s (.wb 0) accs)

/-! ### Channels (R198 to R202) -/

/-- The checks of `CHCFG` in order (R199): the fault, or the channel's new state, none when it is released. -/
def chcfgCheck (k : Core) (tid scrSize n base depth : Nat) (w64 : Bool) : Except FaultRec (Option Channel) :=
  let w := if w64 then 8 else 4
  match assoc k.chans n with
  | some c =>
    if c.owner ≠ tid then .error (plainFault fChOwner n)
    else if 0 < c.count then .error (plainFault fChState n)
    else rest w
  | none => rest w
where
  rest (w : Nat) : Except FaultRec (Option Channel) :=
    if depth = 0 then .ok none
    else if 4096 < depth ∨ 2 ^ Nat.log2 depth ≠ depth then .error (plainFault fChState n)
    else if base % w ≠ 0 ∨ scrSize < base + depth * w then .error (plainFault fScratchBounds 0 base)
    else if k.chans.any fun c => c.1 != n && c.2.owner == tid &&
        overlap c.2.base (c.2.depth * c.2.width) base (depth * w) then .error (plainFault fChState n)
    else .ok (some { owner := tid, w64 := w64, depth := depth, base := base })

/-- `CHCFG` (R199): once per packet, with the lowest active fibre's operands. -/
def execChcfg (base depth : Src) (w64 : Bool) (ch : BitVec 5) (s : State) : Out :=
  let i : Instr := .chcfg base depth w64 ch
  issue i s fun h => withOperands i s h fun ins s =>
    match ins with
    | [] => s.advance h.c i.words
    | x :: _ =>
      match chcfgCheck (s.coreOf h.c.core) h.t.tid h.t.scrSize ch.toNat (x.w 0).toNat (x.w 1).toNat w64 with
      | .error f => s.trapPacket h.c h.act f (allOwn h.act f)
      | .ok none => (s.advance h.c i.words).updCore h.c.core fun k =>
          { k with chans := k.chans.filter fun c => c.1 ≠ ch.toNat }
      | .ok (some c) => (s.advance h.c i.words).updCore h.c.core fun k =>
          { k with chans := assocSet k.chans ch.toNat c }

/-- The status word of a channel (R202); 0 for a number above 31. -/
def chstatWord (k : Core) (tid n : Nat) : Word :=
  match assoc k.chans n with
  | none => 0
  | some c =>
    BitVec.ofNat 32 (2 ^ 31 + (if c.owner = tid then 2 ^ 30 else 0) + (if c.w64 then 2 ^ 29 else 0) +
      c.depth * 2 ^ 16 + c.count)

/-- `CHSTAT` (R202). -/
def execChstat (d : Dst) (n : Src) (s : State) : Out :=
  vecExec (.chstat d n) (fun h l => l.map fun x =>
    out32 (chstatWord (s.coreOf h.c.core) h.t.tid (x.w 0).toNat)) s

end Sys2Proof.Machine
end

