-- ==== Sys2Proof/Machine/Order.lean ====
section
/-!
DEFINITION. The moves of the ordering machine (R204): stores passing and being performed (R206),
generation retries (R159, R212), loads (R207), atomics and their replies (R180 to R184), drained
reductions (R187, R445), fences (R191), monitors (R193, R194), walks and generations (R156 to R164), line
migration (R155), grid barriers (R89), and deferred faults.
-/

namespace Sys2Proof.Machine

open Sys2Proof

/-! ### Faults found after the instruction has issued (R159, R171, R394) -/

/-- A lane of an operation failed: its access ends, and its fibre is to take the fault, precisely at the
instruction (`always`, or when it has issued no word since) or deferred (R159). A fibre that has ended
takes none. -/
def failLane (s : State) (o : Op) (lane : Nat) (f : FaultRec) (always : Bool) : State :=
  let precise := always || o.still.getLsbD lane
  let f : FaultRec :=
    { f with
      info := f.info ||| 0x80000000 ||| (if precise then 0 else 0x40000000)
      resume := if precise then some (o.pc, o.rem, o.clause) else none }
  let s1 := s.finishLanes o.id (maskOf [lane])
  let s2 := if precise then s1.dropLanes o.gid (maskOf [lane]) else s1
  s2.updAny o.gid fun g =>
    let x := g.lane lane
    if x.status.live then g.setLane lane { x with defer := x.defer ++ [f] } else g

/-- Lanes that may take a deferred fault now: running, and at a packet boundary. -/
def deferLanes (s : State) (g : Group) : BitVec 32 :=
  without (g.lanesWhere fun x => !x.defer.isEmpty && x.status == .running) (portLanes s g.gid g.core g.sched)

/-- The lowest lane of a group goes first, with those that fail in the same way. -/
def enabledDeferredFault (s : State) (gid lane : Nat) : Bool :=
  match s.group? gid with
  | none => false
  | some g => (lanesOf (deferLanes s g)).head? == some lane

def doDeferredFault (s : State) (gid lane : Nat) : State :=
  match s.group? gid with
  | none => s
  | some g =>
    match (g.lane lane).defer with
    | [] => s
    | f :: _ =>
      let m := deferLanes s g &&& g.lanesWhere fun x => (x.defer.head?).map (·.cause) == some f.cause
      let own := (lanesOf m).filterMap fun i => (g.lane i).defer.head?.map fun f => (i, f)
      -- a live record keeps what it has (R229)
      let fresh := own.filter fun p => !(g.lane p.1).estatus.getLsbD 15
      let s1 := s.updGroup gid fun g => g.updLanes m fun _ x => { x with defer := x.defer.drop 1 }
      -- each fibre's record is its own, EINFO[31:30] as it was found
      match s1.teamOf? gid with
      | none => s1
      | some _ =>
        let s2 := s1.takeTrap gid m f own
        s2.updGroup gid fun g => fresh.foldl (fun (g : Group) p =>
          let x := g.lane p.1
          if x.ecause.setWidth 8 = p.2.cause then g.setLane p.1 { x with einfo := p.2.info } else g) g

/-- `DEFERRED_FAULT` (R159). -/
def execDeferredFault (gid lane : Nat) (s : State) : Out :=
  whenEnabled (enabledDeferredFault s gid lane) s fun s => doDeferredFault s gid lane

/-- The release of an operation at system scope has taken effect: a store discarded since the last report
is reported to every fibre of its packet (R394). -/
def reportLost (s : State) (o : Op) : State :=
  match s.group? o.gid with
  | none => s
  | some g =>
    match g.lostStore with
    | none => s
    | some va =>
      let f : FaultRec :=
        { cause := fDataError, addr := va, info := 0x40000000
          resume := some (o.pc + BitVec.ofNat 56 (4 * o.len), o.rem - BitVec.ofNat 4 o.len, o.clause) }
      s.updGroup o.gid fun g =>
        { (g.updLanes o.mask fun _ x => if x.status.live then { x with defer := x.defer ++ [f] } else x) with
          lostStore := none }

/-- What follows when an operation has completed in every lane: its acquire (R210), its report (R394). -/
def afterOp (s : State) (o : Op) : State :=
  if (s.op? o.id).isSome then s
  else match o.kind with
    | .load _ _ _ (some sc) _ => acquire s o.gid sc
    | .store _ (some .system) => reportLost s o
    | .atom _ ord sc _ =>
      let s1 := if (ord == .rel || ord == .acqrel) && sc == .system then reportLost s o else s
      if ord == .acq || ord == .acqrel then acquire s1 o.gid sc else s1
    | .fence k sc =>
      let s1 := if k != .acq && sc == .system then reportLost s o else s
      if k == .rel then s1 else acquire s1 o.gid sc
    | _ => s

/-- A lane of an operation fails, with what follows when it was the last (R210). -/
def failOp (s : State) (o : Op) (lane : Nat) (f : FaultRec) (always : Bool) : State := afterOp (failLane s o lane f always) o

/-- The fault of an access that a peer refused (R225, R393): EINFO and XLFAULTINFO tell the walk there. -/
def peerFault (r : RemoteReply) (code : BitVec 8) (va lane : Nat) (k : AccKind) : FaultRec :=
  if code = fTranslation ∨ code = fPermission then xlFault code va lane r.level r.s2 false k r.why
  else plainFault code 0 va

/-- A fault of a request of several lanes, as one of them takes it: XLFAULTINFO names the lane (R164). -/
def FaultRec.inLane (f : FaultRec) (lane : Nat) : FaultRec :=
  match f.xl with
  | none => f
  | some (va, info) =>
    { f with info := setBits f.info 11 5 lane, xl := some (va, setBits info 11 5 lane) }

/-- An operation's lanes complete, with what follows. -/
def completeLanes (s : State) (o : Op) (m : BitVec 32) : State := afterOp (s.finishLanes o.id m) o

/-! ### Demotion (R66, R67, R68) -/

/-- Fibres demoted together: they wait for the fibres that run undemoted now. -/
def demote (s : State) (gid : Nat) (m : BitVec 32) : State :=
  if m = 0 then s
  else
    (s.updGroup gid fun g =>
      let w := without (g.lanesWhere fun x => x.status == .running && !x.demoted) m
      g.updLanes m fun _ x => { x with demoted := true, demWait := w }).dropLanes gid m

/-! ### Stores (R205, R206, R212) -/

/-- A load of the group, issued before a store, still has to read one of the bytes that it writes: at one address, or at
one place of memory (R214). -/
def loadWaits (s : State) (gid : Nat) (r : StoreRec) : Bool :=
  let meets := fun (o : Op) (n : Nat) => o.accs.any fun a => o.lanes.getLsbD a.lane && a.got.isNone &&
    (overlap a.va.toNat n r.va.toNat r.bytes.length || (!r.scratch && overlap a.tr.key n r.tr.key r.bytes.length))
  (s.groupOps gid).any fun o => o.id < r.op &&
    (match o.kind with
     | .load size _ _ _ _ => !r.scratch && meets o (sizeBytes size)
     | .scratchLoad size _ => r.scratch && meets o (sizeBytes size)
     | .ret => !r.scratch && meets o 8
     | _ => false)

/-- The head of a store queue may pass (R206): an `STL` when every earlier store and atomic is performed at
its scope; no entry while an earlier acquire holds the group back, or an earlier load has still to read
what it would overwrite (R214). -/
def enabledStorePassCop (s : State) (gid : Nat) : Bool :=
  match s.group? gid with
  | none => false
  | some g =>
    match g.sq with
    | [] => false
    | e :: _ =>
      match e.stores with
      | [] => true
      | r :: _ =>
        (match e.rel with
         | none => true
         | some sc => performedAt s gid r.op sc) &&
        !heldBack s gid r.op true &&
        !(e.stores.any fun r => loadWaits s gid r)

/-- A store in pieces of at most 8 bytes, each single-copy atomic (R168). -/
def StoreRec.pieces (r : StoreRec) : List StoreRec :=
  if r.bytes.length ≤ 8 then [r]
  else
    [{ r with bytes := r.bytes.take 8 },
     { r with bytes := r.bytes.drop 8, va := r.va + 8, tr := { r.tr with pa := r.tr.pa + 8 } }]

/-- A store operation completes when none of its stores is on its way (R39). -/
def storeDone (s : State) (id : Nat) : State :=
  match s.op? id with
  | none => s
  | some o =>
    match o.kind with
    | .store .. =>
      let queued := ((s.group? o.gid).map fun g => g.sq ++ g.entering).getD []
      if queued.any (fun e => e.stores.any fun r => r.op = id) ||
          (s.coreOf o.core).cop.any fun c => c.rec_.op = id then s
      else completeLanes s o (BitVec.allOnes 32)
    | _ => s

/-- One store passes: scratchpad stores are written, global ones join the pending set (R205, R206). -/
def passStore (s : State) (g : Group) (asid : Nat) (r : StoreRec) : State :=
  if r.scratch then
    s.updTeam g.tid fun t => { t with scratch := Mem.write t.scratch r.va.toNat r.bytes }
  else
    let pol := match (s.op? r.op).map (·.kind) with
      | some (.store p _) => p
      | _ => .normal
    let s1 := s.updCore g.core fun k =>
      { k with cop := k.cop ++ [{ seq := k.copSeq, gid := g.gid, tid := g.tid, asid := asid, rec_ := r, policy := pol }], copSeq := k.copSeq + 1 }
    if r.tr.pa ≥ 2 ^ 64 then s1 else s1.storeL1 g.core r.tr r.bytes (pol == .stream || pol == .nol1)

/-- Sectors of a `MARK` or `GRAFT` enter the store queue while it has room; with the last one the
instruction is complete (R206, R344). -/
def enterMore (s : State) (gid : Nat) : State :=
  let s1 := s.updGroup gid fun g =>
    let n := sqSize - g.sq.length
    { g with sq := g.sq ++ g.entering.take n, entering := g.entering.drop n }
  if ((s1.group? gid).map fun (g : Group) => g.entering.isEmpty).getD true then
    ((s1.groupOps gid).filter fun o => o.kind == .slice).foldl (fun s o => s.finishOp o.id) s1
  else s1

def doStorePassCop (s : State) (gid : Nat) : State :=
  match s.group? gid with
  | none => s
  | some g =>
    match g.sq with
    | [] => s
    | e :: rest =>
      let asid := s.asidOf gid
      let s1 := enterMore (s.updGroup gid fun g => { g with sq := rest }) gid
      let s2 := (e.stores.flatMap StoreRec.pieces).foldl (fun s r => passStore s g asid r) s1
      (e.stores.map (·.op)).eraseDups.foldl storeDone s2

/-- `STORE_PASS_COP` (R206). -/
def execStorePassCop (gid : Nat) (s : State) : Out :=
  whenEnabled (enabledStorePassCop s gid) s fun s => doStorePassCop s gid

/-- Requests of a core's atomics that were rejected, and their retry is open (R159, R212). -/
abbrev rejectedReqs (s : State) (core : Nat) : List Req :=
  s.reqs.filter fun r => r.rejected && r.tree.parts.any fun p => p.core == core

/-- Operations of a core with an access whose retry is open: their number, group, and the pages with their context
(R212). -/
def openRetries (s : State) (core : Nat) : List (Nat × Nat × List (Nat × Nat)) :=
  ((s.coreOf core).cop.filter (·.rejected)).map (fun c => (c.rec_.op, c.gid, [(c.asid, c.rec_.va.toNat / 65536)])) ++
  ((s.coreOps core).filterMap fun o =>
    let l := o.accs.filter fun a => a.rejected && o.lanes.getLsbD a.lane
    if l.isEmpty then none else some (o.id, o.gid, l.map fun a => (o.asid, a.va.toNat / 65536))) ++
  (rejectedReqs s core).flatMap fun r => r.tree.ops.map fun id =>
    (id, ((s.op? id).map (·.gid)).getD 0, [(r.asid, r.va.toNat / 65536)])

/-- A retry is open that came before a pending store, in its group or at its page: stores in the order of the pending
set, other accesses in issue order (R212). -/
def retryBefore (s : State) (core : Nat) (c : CopStore) : Bool :=
  let page := (c.asid, c.rec_.va.toNat / 65536)
  ((s.coreOf core).cop.any fun d => d.rejected && d.seq < c.seq &&
    (d.gid == c.gid || (d.asid, d.rec_.va.toNat / 65536) == page)) ||
  (openRetries s core).any fun p => p.1 < c.rec_.op && (p.2.1 == c.gid || p.2.2.contains page) &&
    !((s.coreOf core).cop.any fun d => d.rejected && d.rec_.op == p.1)

/-- A fibre of the group has a fault of a retry still to take (R159, R212). -/
def faultOpen (s : State) (gid : Nat) : Bool :=
  match s.group? gid with
  | none => false
  | some g => g.lanes.toList.any fun x => !x.defer.isEmpty && x.status == .running

/-- The reply to a remote store of a core with its sequence number. -/
def storeReply (s : State) (op lane seq : Nat) : Option RemoteReply :=
  s.fabric.replies.find? fun r => r.op = op && r.lane = lane && r.seq = some seq

/-- Two stores of a core write one byte: at one address of their context, or at one place of memory. -/
abbrev CopStore.meets (c d : CopStore) : Bool :=
  overlap c.rec_.tr.key c.rec_.bytes.length d.rec_.tr.key d.rec_.bytes.length ||
    (c.asid == d.asid && overlap c.rec_.va.toNat c.rec_.bytes.length d.rec_.va.toNat d.rec_.bytes.length)

/-- A pending store may be performed (R206, R212); one to a peer leaves for it, and is performed when the peer has
replied (R223). -/
def enabledStorePerform (s : State) (core seq : Nat) : Bool :=
  let k := s.coreOf core
  match k.cop.find? fun c => c.seq = seq with
  | none => false
  | some c =>
    let r := c.rec_
    if c.sent then (storeReply s r.op r.lane seq).isSome
    else
      !c.rejected && !(k.cop.any fun d => d.seq < seq && c.meets d) && !retryBefore s core c && !faultOpen s c.gid &&
        (r.tr.pa ≥ 2 ^ 64 || !lineMoving s r.tr)

def doStorePerform (s : State) (core seq : Nat) : State :=
  match (s.coreOf core).cop.find? fun c => c.seq = seq with
  | none => s
  | some c =>
    let r := c.rec_
    let gone := s.updCore core fun k => { k with cop := k.cop.filter fun d => d.seq ≠ seq }
    if r.tr.pa ≥ 2 ^ 64 then
      if !c.sent then
        let s1 := s.updCore core fun k =>
          { k with cop := k.cop.map fun d => if d.seq = seq then { d with sent := true } else d }
        let priv := match s.op? r.op with
          | some o => !o.users.getLsbD r.lane
          | none => false
        sendRemote s1 { remoteFor s1 c.asid r.op r.lane r.va.toNat (.store r.bytes) priv with seq := some seq }
      else
        let s1 := { gone with fabric := { gone.fabric with
          replies := gone.fabric.replies.filter fun p => !(p.op == r.op && p.lane == r.lane && p.seq == some seq) } }
        match storeReply s r.op r.lane seq, s.op? r.op with
        | some p, some o => match p.cause with
          | some code => storeDone (failOp s1 o r.lane (peerFault p code r.va.toNat r.lane .store) true) r.op
          | none => storeDone s1 r.op
        | _, _ => storeDone s1 r.op
    else if stale s c.asid r.tr then
      -- GENERATION_REJECT (R159)
      s.updCore core fun k => { k with cop := k.cop.map fun d => if d.seq = seq then { d with rejected := true } else d }
    else
      let s1 := (gone.touch r.tr core).writeHome r.tr r.bytes (if c.policy = .keep then some 2 else none)
      storeDone (s1.disturb core c.asid r.va.toNat r.bytes.length) r.op

/-- `STORE_PERFORM` (R206). -/
def execStorePerform (core seq : Nat) (s : State) : Out :=
  whenEnabled (enabledStorePerform s core seq) s fun s => doStorePerform s core seq

/-! ### Generation retries (R159) -/

/-- The address that an access of an operation is translated at: of a constant load, the one behind its offset. -/
abbrev Op.vaOf (o : Op) (a : Access) : Nat :=
  match o.kind with
  | .constLoad .. => a.op.toNat
  | _ => a.va.toNat

/-- Addresses of an operation whose retry is open: stores, loads and atomics, with the lane and kind. -/
def rejectedOf (s : State) (core op : Nat) : List (Nat × Nat × AccKind) :=
  ((s.coreOf core).cop.filter fun c => c.rejected && c.rec_.op = op).map
      (fun c => (c.rec_.lane, c.rec_.va.toNat, .store)) ++
  (match s.op? op with
   | some o => (o.accs.filter fun a => a.rejected && o.lanes.getLsbD a.lane).map fun a => (a.lane, o.vaOf a, .load)
   | none => []) ++
  (s.reqs.filter fun r => r.rejected && r.tree.ops.contains op).flatMap fun r =>
    r.tree.parts.flatMap fun p => match p.frm with
      | .lanes _ l => l.map fun x => (x.1, r.va.toNat, .atomic)
      | _ => []

/-- A walk fails in stage 2 (R158): the guest-physical address and the record of it. -/
def stage2Fails (s : State) (asid va : Nat) (k : AccKind) (user : Bool) (lane : Nat) : Option (Nat × FaultRec) :=
  match xlateNow s asid va k user lane true with
  | some (.error f) => f.gpa.map fun g => (g, f)
  | _ => none

/-- A retry waits while a leaf migrates, and, after a stage-2 failure, while the team is halted. -/
def enabledGenerationRetry (s : State) (core op : Nat) : Bool :=
  match s.op? op with
  | none => false
  | some o =>
    let l := rejectedOf s core op
    let asid := o.asid
    o.core == core && !l.isEmpty &&
    l.all fun p => (xlateNow s asid p.2.1 p.2.2 (o.users.getLsbD p.1)).isSome &&
      !((stage2Fails s asid p.2.1 p.2.2 (o.users.getLsbD p.1) p.1).isSome && ((s.group? o.gid).map (·.halted)).getD false)

/-- One retried access takes its new translation in every place that holds it. The core's copy of the sector that a
pending store lies in from now on may lack it, and goes (R207). -/
def retranslate (s : State) (core op lane va : Nat) (t : Trans) : State :=
  let s1 := s.updCore core fun k => { k with cop := k.cop.map fun c =>
    if c.rejected && c.rec_.op == op && c.rec_.lane == lane && c.rec_.va.toNat == va then
      { c with rejected := false, rec_ := { c.rec_ with tr := t } } else c }
  let s1 := if (s.coreOf core).cop.any fun c => c.rejected && c.rec_.op == op && c.rec_.lane == lane && c.rec_.va.toNat == va
    then s1.storeL1 core t [] true else s1
  let renew := fun (o : Op) (a : Access) =>
    if a.lane = lane ∧ o.vaOf a = va then { a with rejected := false, tr := t } else a
  let s2 := s1.updOp op fun o => { o with accs := o.accs.map (renew o) }
  { s2 with reqs := s2.reqs.map fun r =>
      if r.rejected && r.va.toNat == va && r.tree.parts.any (fun p => match p.frm with
          | .lanes o l => o == op && l.any fun x => x.1 == lane
          | _ => false) then { r with rejected := false, tr := t } else r }

/-- One retried access whose walk fails is not performed, of a store of 128 bits neither piece that is still pending. -/
def dropAccess (s : State) (core op lane va : Nat) : State :=
  let s1 := s.updCore core fun k => { k with cop := k.cop.filter fun c =>
    !(c.rec_.op == op && c.rec_.lane == lane) }
  { s1 with reqs := s1.reqs.filter fun r =>
      !(r.rejected && r.va.toNat == va && r.tree.ops.contains op && r.tree.parts.any fun p => match p.frm with
          | .lanes _ l => l.any fun x => x.1 == lane
          | _ => false) }

def doGenerationRetry (s : State) (core op : Nat) : State :=
  match s.op? op with
  | none => s
  | some o =>
    let asid := o.asid
    storeDone ((rejectedOf s core op).foldl (fun s p =>
      if !(rejectedOf s core op).contains p then s
      else match stage2Fails s asid p.2.1 p.2.2 (o.users.getLsbD p.1) p.1 with
      | some (gpa, f) => stage2Fault s o.tid o.gid asid gpa f.xl
      | none =>
        match xlateNow s asid p.2.1 p.2.2 (o.users.getLsbD p.1) p.1 true with
        | some (.ok t) => retranslate (s.accessed asid p.2.1) core op p.1 p.2.1 t
        | some (.error f) => failOp (dropAccess s core op p.1 p.2.1) o p.1 f false
        | none => s) (s.dropStale core asid)) op

/-- `GENERATION_RETRY` (R159). -/
def execGenerationRetry (core op : Nat) (s : State) : Out :=
  whenEnabled (enabledGenerationRetry s core op) s fun s => doGenerationRetry s core op

/-! ### Loads (R174 to R177, R207) -/

/-- A value read, widened to its registers (R172). -/
def loadValue (size : Size) (sx : Bool) (l : List Byte) : Nat :=
  let v := leNat l
  match size with
  | .b8 => if sx && Nat.testBit v 7 then v + 2 ^ 32 - 2 ^ 8 else v
  | .b16 => if sx && Nat.testBit v 15 then v + 2 ^ 32 - 2 ^ 16 else v
  | _ => v

/-- The access of a lane. -/
abbrev Op.acc? (o : Op) (lane : Nat) : Option Access := o.accs.find? fun a => a.lane = lane

/-- The reply of a peer to a lane's load. -/
def loadReply (s : State) (op lane : Nat) : Option RemoteReply :=
  s.fabric.replies.find? fun r => r.op = op && r.lane = lane && r.seq = none

/-- Bytes of a load's access. -/
abbrev Op.width (o : Op) : Nat :=
  match o.kind with
  | .load size .. | .scratchLoad size _ | .constLoad size _ => sizeBytes size
  | _ => 8

/-- A lane of a load may take its value, or may ask its peer for it (R175, R191, R207, R223). -/
def loadReady (s : State) (o : Op) (a : Access) : Bool :=
  match s.group? o.gid with
  | none => false
  | some g =>
    let scratch := match o.kind with
      | .scratchLoad .. => true
      | _ => false
    o.lanes.getLsbD a.lane && !a.rejected && a.got.isNone && !heldBack s o.gid o.id false &&
    !earlierRead s o a o.width &&
    (match o.kind with
     | .load .. | .scratchLoad .. | .ret =>
       match coreSource s g o.id scratch a o.width with
       | .wait => false
       | .val _ => true
       | .home => if scratch then true
                  else if a.tr.pa ≥ 2 ^ 64 then !a.asked || (loadReply s o.id a.lane).isSome
                  else !lineMoving s a.tr
     | .constLoad .. => !lineMoving s a.tr
     | _ => false)

/-- An access is returned to its core for a stale generation (R159). -/
def rejectAccess (s : State) (o : Op) (lane : Nat) : State :=
  s.updOp o.id fun o => { o with accs := o.accs.map fun a => if a.lane = lane then { a with rejected := true } else a }

/-- The pop of a `RET` has its return word (R81). -/
def returnTo (s : State) (o : Op) (lane : Nat) (v : Nat) : State :=
  match s.team? o.tid with
  | none => s.finishLanes o.id (maskOf [lane])
  | some t =>
    if clauseStart s t v then
      (s.updGroup o.gid fun g =>
        let x := g.lane lane
        g.setLane lane { x with sp := x.sp + 8, pc := BitVec.ofNat 56 v, rem := 0, active := false }).finishLanes o.id
          (maskOf [lane])
    else failLane s o lane (plainFault fMisalignedTarget 0 v) true

/-- A polling load that has seen a changed value. -/
def OpKind.changedPoll : OpKind → Bool
  | .load _ _ _ _ (some c) => c
  | _ => false

/-- A lane's value arrives: its destination is written, and a polling load compares it with the fibre's poll
record (R177). -/
def deliver (s : State) (o : Op) (a : Access) (l : List Byte) : State :=
  let m := maskOf [a.lane]
  match o.kind with
  | .load size sx _ _ none | .scratchLoad size sx | .constLoad size sx =>
    completeLanes (writeLane s o a.lane (loadValue size sx l)) o m
  | .load size sx _ _ (some _) =>
    let v := loadValue size sx l
    let here := some (a.va, BitVec.ofNat 64 v)
    let same := match s.group? o.gid with
      | some g => (g.lane a.lane).poll == here
      | none => false
    let s1 := (writeLane s o a.lane v).updGroup o.gid fun g =>
      let g := g.setLane a.lane { g.lane a.lane with poll := here }
      if same || o.stepped then g else { g with backoff := 0 }
    let s2 := if same then s1 else s1.updOp o.id fun o =>
      match o.kind with
      | .load size sx pol acq _ => { o with kind := .load size sx pol acq (some true) }
      | _ => o
    let changed := match s2.op? o.id with
      | some p => p.kind.changedPoll
      | none => false
    let s3 := completeLanes s2 o m
    let s4 := if (s3.op? o.id).isNone && !changed && !o.stepped then
        s3.updGroup o.gid fun g => { g with backoff := if g.backoff = 7 then 7 else g.backoff + 1 }
      else s3
    if same then demote s4 o.gid m else s4
  | .ret => returnTo s o a.lane (leNat l)
  | _ => s

/-- Accesses of a load whose values are delivered together, once the last of them has come: those of a `RET` (R81), and
of another load those that no peer serves; only the replies of peers come to some lanes before others (R61; DEDUCED,
log 26). -/
abbrev Op.together (o : Op) : List Access :=
  o.accs.filter fun a => o.lanes.getLsbD a.lane && (o.kind == .ret || a.tr.pa < 2 ^ 64)

/-- A `RET` waits while a page that tells a clause start migrates (R157). -/
def retHeld (s : State) (o : Op) : Bool :=
  o.kind == .ret && match s.team? o.tid with
    | none => false
    | some t => o.together.any fun a => targetWaits s t (leNat (a.got.getD []))

/-- The values of a load's packet have all come, and nothing holds their delivery. -/
def allHere (s : State) (o : Op) : Bool :=
  !o.together.isEmpty && o.together.all (fun a => a.got.isSome) && !retHeld s o

def enabledLoadDataReturn (s : State) (id lane : Nat) : Bool :=
  match s.op? id with
  | none => false
  | some o => match o.acc? lane with
    | none => false
    | some a => loadReady s o a || ((o.together.head?).map (·.lane) == some lane && allHere s o)

/-- The values of a packet are delivered when all are there, lane by lane. -/
def loadDone (s : State) (id : Nat) : State :=
  match s.op? id with
  | none => s
  | some o =>
    if !allHere s o then s
    else o.together.foldl (fun s a => match s.op? id with
      | some o => deliver s o a (a.got.getD [])
      | none => s) s

/-- A lane has its bytes: they wait for those of the other lanes, unless its address is a peer's. -/
def gotBytes (s : State) (o : Op) (a : Access) (l : List Byte) : State :=
  if o.kind == .ret || a.tr.pa < 2 ^ 64 then
    loadDone (s.updOp o.id fun o => { o with accs := o.accs.map fun b =>
      if b.lane = a.lane then { b with got := some l } else b }) o.id
  else deliver s o a l

/-- A lane of a load fails; the other lanes go on when theirs have all come. -/
def loadFails (s : State) (o : Op) (a : Access) (f : FaultRec) : State := loadDone (failOp s o a.lane f true) o.id

/-- The policy of a load, and whether it may take its value from the L1 (R173, R175, R176, R207). -/
def OpKind.loads : OpKind → Policy × Bool
  | .load _ _ pol acq poll => (pol, acq.isNone && poll.isNone && (pol == .normal || pol == .keep))
  | _ => (.normal, true)

/-- A lane reads at the home: rejected, failed, or its bytes, with which the L1 is filled as the policy says and
refreshed where the sector is present (R159, R171, R173, R207). -/
def loadHome (s : State) (o : Op) (a : Access) : State :=
  let pol := o.kind.loads.1
  match readHome s o.asid a.tr o.core o.width pol with
  | (.bytes l, s1) =>
    gotBytes (s1.fillL1 o.core a.tr a.va.toNat ((pol == .normal || pol == .keep) && cacheable s1 a.tr o.core)) o a l
  | (.error, s1) => loadFails s1 o a (plainFault fDataError 0 a.va.toNat)
  | (_, s1) => rejectAccess s1 o a.lane

/-- A lane asks the peer that its address names, or takes the peer's reply (R393, R394). -/
def loadPeer (s : State) (o : Op) (a : Access) : State :=
  if !a.asked then
    sendRemote (s.updOp o.id fun o => { o with accs := o.accs.map fun b =>
        if b.lane = a.lane then { b with asked := true } else b })
      (remoteFor s o.asid o.id a.lane a.va.toNat (.load o.width) (!o.users.getLsbD a.lane))
  else
    match loadReply s o.id a.lane with
    | none => s
    | some r =>
      let s1 := { s with fabric := { s.fabric with
        replies := s.fabric.replies.filter fun p => !(p.op == o.id && p.lane == a.lane) } }
      match r.cause with
      | some code => loadFails s1 o a (peerFault r code a.va.toNat a.lane .load)
      | none => gotBytes s1 o a (r.value.take o.width)

/-- One lane of a load takes its value from the first source that holds it (R207). -/
def loadLane (s : State) (o : Op) (a : Access) : State :=
  match s.group? o.gid with
  | none => s
  | some g =>
    match o.kind with
    | .scratchLoad .. =>
      match coreSource s g o.id true a o.width with
      | .val l => gotBytes s o a l
      | _ => gotBytes s o a (Mem.read (((s.team? g.tid).map (·.scratch)).getD []) a.va.toNat o.width)
    | .constLoad .. =>
      match readConst s o.core o.asid a.va.toNat o.width a.tr with
      | (.bytes l, s1) => gotBytes s1 o a l
      | (.error, s1) => loadFails s1 o a (plainFault fDataError 0 a.va.toNat)
      | (.rejected, s1) => rejectAccess s1 o a.lane
      | (.waits, _) => s
    | _ =>
      match coreSource s g o.id false a o.width with
      | .val l => gotBytes s o a l
      | .wait => s
      | .home =>
        if a.tr.pa ≥ 2 ^ 64 then loadPeer s o a
        else
          -- step 3 of R207: the L1, when the sector passes the epoch test; whether it still holds the
          -- sector is open
          match (s.coreOf o.core).sector? (a.tr.pa / 128) with
          | none => loadHome s o a
          | some l =>
            let bytes := l.bytes.drop (a.tr.pa % 128) |>.take o.width
            if !(o.kind.loads.2 && cacheable s a.tr o.core && g.amark ≤ l.stamp) then loadHome s o a
            else if bytes = Mem.read s.mem a.tr.key o.width ∧ !stale s o.asid a.tr then gotBytes s o a bytes
            else match s.choose 2 with
              | (0, s1) => loadHome s1 o a
              | (_, s1) => gotBytes s1 o a bytes

/-- The accesses of one 128-byte sector are made together, in ascending lane order (R169, R170). -/
def doLoadDataReturn (s : State) (id lane : Nat) : State :=
  match s.op? id with
  | none => s
  | some o =>
    match o.acc? lane with
    | none => s
    | some a =>
      loadDone ((o.accs.filter fun b => b.tr.pa / 128 = a.tr.pa / 128).foldl
        (fun s b => match s.op? id with
          | some o => if loadReady s o b then loadLane s o b else s
          | none => s) s) id

/-- `LOAD_DATA_RETURN` (R207). -/
def execLoadDataReturn (op lane : Nat) (s : State) : Out :=
  whenEnabled (enabledLoadDataReturn s op lane) s fun s => doLoadDataReturn s op lane

end Sys2Proof.Machine
end

