-- ==== Sys2Proof/Machine/Engine.lean ====
section
/-!
DEFINITION. What the engines share: range locks (R216 to R221), reading and writing global memory in
128-byte sectors (R219, R278), scratchpads, and atomics that an engine makes at the end of an operation
(R273, R304).
-/

namespace Sys2Proof.Machine

open Sys2Proof

/-! ### Range locks (R216 to R220) -/

/-- A range to register: destination or source, space, bytes. -/
structure Rng where
  dest : Bool
  asid : Option Nat
  tid : Nat := 0
  lo : Nat
  hi : Nat
  deriving DecidableEq, Repr

/-- Free entries of a core's table among some. -/
def rltFree (s : State) (core lo hi : Nat) : List Nat :=
  (List.range 64).filter fun e => lo ≤ e && e < hi && !(s.coreOf core).rlt.any fun r => r.entry == e

/-- Ranges registered for an operation in the lowest free entries: its core's own, or from 56 on those for other cores'
multicasts (R216). -/
def rltAdd (s : State) (core op lo : Nat) (l : List Rng) : State :=
  let l := l.filter fun r => r.lo < r.hi
  let es := rltFree s core lo (if lo = 0 then 56 else 64)
  s.updCore core fun k => { k with rlt := k.rlt ++ List.zipWith (fun e (r : Rng) =>
    { entry := e, dest := r.dest, asid := r.asid, tid := r.tid, lo := r.lo, hi := r.hi, op := op }) es l }

/-- An operation's ranges are released, and what disturbed them forgotten. -/
def rltDrop (s : State) (op : Nat) : State :=
  { s with
    cores := s.cores.map fun k => { k with rlt := k.rlt.filter fun r => r.op ≠ op }
    disturbed := s.disturbed.filter fun d => d.1 ≠ op }

/-- Two ranges share a byte of one space. -/
def Rlt.meets (a b : Rlt) : Bool :=
  a.asid == b.asid && (a.asid.isSome || a.tid == b.tid) && overlap a.lo (a.hi - a.lo) b.lo (b.hi - b.lo)

/-- A range of the operation still meets one of an earlier-issued operation of the core, unless both are
sources (R218). -/
def rltBlocked (s : State) (op : Nat) : Bool :=
  s.cores.any fun k => k.rlt.any fun r => r.op == op && k.rlt.any fun q =>
    q.op < op && Rlt.meets r q && (r.dest || q.dest)

/-! ### Global memory, in sectors (R219, R278) -/

/-- The pieces of `[va, va + n)` by 128-byte sector, ascending: address and length. -/
def sectorPieces (va n : Nat) : List (Nat × Nat) :=
  if n = 0 then []
  else (List.range ((va + n - 1) / 128 - va / 128 + 1)).map fun k =>
    let lo := max va ((va / 128 + k) * 128)
    (lo, min (va + n) ((va / 128 + k + 1) * 128) - lo)

/-- Causes of a failed copy (R277). -/
abbrev causeOf (f : FaultRec) : BitVec 3 :=
  if f.cause = fPermission then 3 else if f.cause = fDataError then 4 else 2

/-- What an engine access of some sectors comes to: it must wait, or it fails in stage 2 of a guest at a guest-physical
address, with the record of it (R158), or it is done up to a failure. -/
inductive Eng (α : Type) where
  | wait
  | stage2 (f : FaultRec)
  | done (a : α) (fail : Option (BitVec 3 × Nat)) (s : State)

/-- Goes on from what is done; a failure keeps the second result. -/
def Eng.bind {α β : Type} (r : Eng α) (b : β) (k : α → State → Eng β) : Eng β :=
  match r with
  | .wait => .wait
  | .stage2 g => .stage2 g
  | .done a none s => k a s
  | .done _ f s => .done b f s

/-- An engine's translation of one sector under its context's present generation (R159). -/
def engXlate (s : State) (asid va : Nat) (k : AccKind) (user : Bool) : Eng Trans :=
  match xlateNow s asid va k user with
  | none => .wait
  | some (.error f) => match f.gpa with
    | some _ => .stage2 f
    | none => .done {} (some (causeOf f, va)) s
  | some (.ok t) => if lineMoving s t then .wait else .done t none (s.accessed asid va)

/-- The core number that the operations of a saved team carry, and of an engine that no core issues to: no core has it. -/
abbrev noCore : Nat := 65536

/-- An engine's access is served at the home of a line; one that no core has issued counts for no cluster (R155, R358). -/
def engTouch (s : State) (t : Trans) (core : Nat) : State := if core = noCore then s.l2Place t false none else s.touch t core

/-- Bytes of a place with those that the pending stores of a core have for them: an engine sees what its core's stores
have written at team scope (R26, R219). -/
def overlayAt (cop : List CopStore) (asid va key : Nat) (l : List Byte) : List Byte :=
  l.zipIdx.map fun p => cop.foldl (fun b c => (c.rec_.byte (c.asid == asid) false (va + p.2) (key + p.2)).getD b) p.1

/-- Reads pieces in order until one fails (R278). -/
def engReadPieces (asid core : Nat) (user : Bool) : List (Nat × Nat) → List Byte → State → Eng (List Byte)
  | [], acc, s => .done acc none s
  | (va, n) :: r, acc, s =>
    match engXlate s asid (va % 2 ^ 56) (.engine false) user with
    | .wait => .wait
    | .stage2 g => .stage2 g
    | .done _ (some f) s1 => .done acc (some f) s1
    | .done t none s1 =>
      match badSector s1 t.key with
      | (true, s2) => .done acc (some (4, va % 2 ^ 56)) s2
      | (false, s2) =>
        engReadPieces asid core user r
          (acc ++ overlayAt (s2.coreOf core).cop asid (va % 2 ^ 56) t.key (Mem.read s2.mem t.key n)) (engTouch s2 t core)

/-- Stores of a core that still have to be performed at a place that an engine of it writes: they come first (R206). -/
def copAt (s : State) (core asid va key n : Nat) : Bool :=
  (s.coreOf core).cop.any fun c => overlap c.rec_.tr.key c.rec_.bytes.length key n ||
    (c.asid == asid && overlap c.rec_.va.toNat c.rec_.bytes.length va n)

/-- Writes pieces in order until one fails; a sector of the issuing core's L1 is invalidated (R219). -/
def engWritePieces (asid core : Nat) (user : Bool) (base : Nat) (bytes : List Byte) :
    List (Nat × Nat) → State → Eng Unit
  | [], s => .done () none s
  | (va, n) :: r, s =>
    match engXlate s asid (va % 2 ^ 56) (.engine true) user with
    | .wait => .wait
    | .stage2 g => .stage2 g
    | .done _ (some f) s1 => .done () (some f) s1
    | .done t none s1 =>
      if copAt s1 core asid (va % 2 ^ 56) t.key n then .wait
      else engWritePieces asid core user base bytes r
        (let s2 := (engTouch s1 t core).writeHome t ((bytes.drop (va - base)).take n)
         if core = noCore then s2 else s2.storeL1 core t [] true)

/-- Reads `n` bytes of a context. -/
def engRead (s : State) (asid core va n : Nat) (user : Bool) : Eng (List Byte) :=
  engReadPieces asid core user (sectorPieces va n) [] s

/-- Writes bytes of a context. -/
def engWrite (s : State) (asid core va : Nat) (bytes : List Byte) (user : Bool) : Eng Unit :=
  engWritePieces asid core user va bytes (sectorPieces va bytes.length) s

/-- An absolute-maximum atomic: `ATOM.maxn` of 32 bits at its home (R273, R304). The failure, or a wait. -/
def engMaxn (s : State) (asid core va : Nat) (m : Word) (user : Bool) : Eng Unit :=
  match engXlate s asid va .atomic user with
  | .wait => .wait
  | .stage2 g => .stage2 g
  | .done _ (some f) s1 => .done () (some f) s1
  | .done t none s1 =>
    if copAt s1 core asid va t.key 4 then .wait
    else match badSector s1 t.key with
      | (true, s2) => .done () (some (4, va)) s2
      | (false, s2) => .done () none ((atomHome s2 asid va t .maxn false m.zx 0 [m.zx] s2.serial).2.touch t core)

/-- Every group of a team is halted. -/
abbrev teamHalted (s : State) (tid : Nat) : Bool := (s.teamGroups tid).all (·.halted)

/-- An operation's access fails in stage 2: its team halts, and the access is made again once the team has been resumed
(R158, R424). -/
def engHalts (s : State) (o : Op) (f : FaultRec) : Option State :=
  if teamHalted s o.tid then none else some (stage2Fault s o.tid o.gid o.asid (f.gpa.getD 0) f.xl)

/-- A sector of a destination that has been disturbed is left undefined (R221). -/
def freeSector (asid core : Nat) (user : Bool) (p : Nat × Nat) (s : State) : State :=
  let s1 := { s with tick := s.tick + p.2 }
  match engWritePieces asid core user p.1 ((List.range p.2).map fun k => Config.freeByte (s.tick + k)) [p] s1 with
  | .done _ _ s2 => s2
  | _ => s1

/-- What an operation's unregistered ranges were is forgotten with its end. -/
def State.unlock (s : State) (owner : Nat) : State :=
  let ids := (s.unlocked.filter fun u => u.owner == owner).map (·.id)
  { s with
    unlocked := s.unlocked.filter fun u => u.owner != owner
    disturbed := s.disturbed.filter fun d => !ids.contains d.1 }

/-- An access that no team makes fails in stage 2: the hypervisor's log takes it, once in a generation, and the access is
made again after the repair (R158, R424, log 26). `none` once it is told. -/
def State.tells (s : State) (asid gpa : Nat) : Option State :=
  let gen := (s.ctxOf asid).gen.toNat
  if s.told.contains (asid, gen, gpa) then none
  else some (stage2Log { s with told := (asid, gen, gpa) :: s.told.filter fun t => t.1 != asid || t.2.1 == gen } asid gpa)

/-- What Crozier's step comes to: `none` while it waits; a stage-2 failure is told, and the step made again. -/
def Eng.step {α : Type} (r : Eng α) (s : State) (asid : Nat) : Option State :=
  match r with
  | .wait => none
  | .stage2 f => s.tells asid (f.gpa.getD 0)
  | .done _ _ s1 => some s1

/-- The first page of a range whose walk fails in stage 2 (R158). -/
def rangeStage2 (s : State) (asid va n : Nat) (w : Bool) : Option FaultRec :=
  (List.range ((va + n - 1) / 65536 - va / 65536 + 1)).findSome? fun k =>
    match xlateNow s asid (if k = 0 then va else (va / 65536 + k) * 65536) (.engine w) false with
    | some (.error f) => if f.gpa.isSome then some f else none
    | _ => none

/-! ### Scratchpads (R199, R239, R276) -/

/-- Offset of the scratchpad image in a team's save area (R239). -/
def scratchSection (t : Team) : Nat :=
  let n := t.parked.length
  256 + 4096 * n + (t.parked.map fun g => 128 * g.window).sum + 256 * n + 8192 + 32 * t.parkedReds.length + 8192 * n

/-- Bytes written into a team's scratchpad; of a saved team also into its saved image (R276). -/
def writeScratch (s : State) (tid off : Nat) (bytes : List Byte) : State :=
  match s.team? tid with
  | none => s
  | some t =>
    let s1 := s.updTeam tid fun t => { t with scratch := Mem.write t.scratch off bytes }
    if t.phase = .saved then vwrite s1 t.asid (t.launch.saveBase + scratchSection t + off) bytes else s1

/-- A range of the team's scratchpad that an engine may use (R268, R300): inside the allocation, clear of
channel buffers. -/
def scratchOk (s : State) (t : Team) (off n : Nat) : Bool :=
  off + n ≤ t.scrSize && !touchesChannel (s.coreOf t.core) t.tid off n

/-! ### Reports of failures (R291, R321) -/

/-- A failure recorded in a word laid out as CPERR (R291). -/
def errRecord (w : Word) (cause : BitVec 3) : Word :=
  let n := if w.getLsbD 15 then wbits w 16 16 else 0
  BitVec.ofNat 32 ((if n = 65535 then n else n + 1) * 65536 + 32768 + cause.toNat * 4096)

/-- Free bytes in place of some (R221). -/
def freeBytes (s : State) (n : Nat) : List Byte × State :=
  ((List.range n).map fun k => Config.freeByte (s.tick + k), { s with tick := s.tick + n })

end Sys2Proof.Machine
end

