-- ==== Sys2Proof/Machine/Copy.lean ====
section
/-!
DEFINITION. Class K up to `LFREE` (R265 to R291): tile handles, copies into and out of the scratchpad,
multicasts, stages and leases, and the copy engines' own steps.
-/

namespace Sys2Proof.Machine

open Sys2Proof

/-! ### Tile handles (R265, R266) -/

/-- Format code of a descriptor. -/
abbrev descFmt (q : Quad) : Nat := nbits q.toNat 56 5
/-- Format register number of a descriptor. -/
abbrev descFm (q : Quad) : Nat := nbits q.toNat 61 3
abbrev descBase (q : Quad) : Nat := nbits q.toNat 0 56
abbrev descL (q : Quad) : Nat := nbits q.toNat 64 16
abbrev descK (q : Quad) : Nat := nbits q.toNat 80 16
abbrev descStride (q : Quad) : Nat := nbits q.toNat 96 32

/-- The validity of a descriptor (R266). -/
def descValid (q : Quad) (fm : Word) : Bool :=
  let code := descFmt q
  let w := contBits code fm
  let al := if w ≤ 8 then 1 else w / 8
  code ≤ 0x0D && 1 ≤ descL q && 1 ≤ descK q && descBase q % al == 0 && descStride q % al == 0 &&
    (w != 4 || descK q % 2 == 0) && (!blockScaled code || descK q % 32 == 0)

/-- `THDL` (R266): once per packet, with the quadruple of the lowest active fibre. -/
def execThdl (th : BitVec 5) (q : Src) (s : State) : Out :=
  issue (.thdl th q) s fun h =>
    let d : Quad := match q with
      | .v n => BitVec.ofNat 128 ((h.g.lane h.lead).wide n.toNat 4)
      | _ => 0
    let fm := vget h.t.fm (descFm d) 0
    (s.updTeam h.t.tid fun t => { t with th := vset t.th th.toNat { desc := d, valid := descValid d fm } }).advance h.c 1

/-! ### A copy's request (R267 to R269) -/

/-- Bytes the window takes in the scratchpad (R267). -/
def CopyReq.spBytes (c : CopyReq) : Nat :=
  match (if c.dir = .compress || c.plain then none else canonOf (descFmt c.desc)) with
  | some f => canonBytes c.l c.k f (blockScaled (descFmt c.desc))
  | none => 4 * c.l * c.k

/-- Container bits of the request's format. -/
abbrev CopyReq.w (c : CopyReq) : Nat := contBits (descFmt c.desc) c.fm
/-- Bytes of a line of the window. -/
abbrev CopyReq.line (c : CopyReq) : Nat := lineBytes (descFmt c.desc) c.w c.k
/-- First byte of line `i` of the window, before the address wraps (R267). -/
abbrev CopyReq.lineAt (c : CopyReq) (i : Nat) : Nat :=
  descBase c.desc + (c.i0 + i) * descStride c.desc + elemOff (descFmt c.desc) c.w c.j0

/-- A line of the window begins or ends at a remote address (R393). -/
def CopyReq.remote (c : CopyReq) : Bool :=
  (List.range c.l).any fun i => isRemote (c.lineAt i % 2 ^ 56) || isRemote ((c.lineAt i + c.line - 1) % 2 ^ 56)

/-- The conditions under which an operation is refused (R259, R269, R271, R273, R393). -/
def CopyReq.refusal (c : CopyReq) (valid : Bool) : Bool :=
  let code := descFmt c.desc
  !valid || (usesFm code && !(Nf.ofReg c.fm).valid) ||
  (c.w == 4 && c.j0 % 2 == 1) || (blockScaled code && (c.j0 % 32 != 0 || c.k % 32 != 0)) || c.remote ||
  (match c.dir with
   | .compress =>
     descStride c.desc < c.line || (c.tf && code != 0x03 && code != 0x04) ||
       (c.am.isSome && plainSrc code c.tf == .tf32)
   | _ => !c.plain && (canonOf code).isNone)

/-- The ranges an operation registers at issue (R279). A multicast's own destination is among them when its
mask names the issuing team. -/
def CopyReq.ranges (c : CopyReq) (asid tid : Nat) (own : Bool) : List Rng :=
  let lo := c.lineAt 0 % 2 ^ 56
  let hi := lo + (c.l - 1) * descStride c.desc + c.line
  let part := fun (a b : Nat) => ({ dest := c.dir = .compress, asid := some asid, lo := a, hi := b } : Rng)
  -- a window that goes on from address 0 takes two (R267)
  let glob := if hi ≤ 2 ^ 56 then [part lo hi] else [part lo (2 ^ 56), part 0 (min lo (hi - 2 ^ 56))]
  let scr : Rng := { dest := c.dir ≠ .compress, asid := none, tid := tid, lo := c.off, hi := c.off + c.spBytes }
  if c.refused then [] else if c.dir = .mcast && !own then glob else glob ++ [scr]

/-- The bit that names a team in the mask of its own multicast (R274). -/
abbrev ownBit (t : Team) (quad : Bool) : Nat := if quad then t.teamNo % 4 else t.core % 8

/-- The checks of R268 after those of decoding, in order. -/
def copyFault (s : State) (h : Here) (c : CopyReq) : Option FaultRec :=
  let bounds := fun (off : Nat) => some (plainFault fCopyBounds 0 off)
  if c.dir = .mcast && (c.mask == 0 || (c.quad && (16 ≤ c.mask.toNat || !h.t.launch.factor4))) then
    some (plainFault fMcastRange)
  else if c.off % (if c.plain then 4 else 256) ≠ 0 then bounds c.off
  else if !c.refused && !scratchOk s h.t c.off c.spBytes then bounds c.off
  else match c.status.filter fun o => o % 4 ≠ 0 || h.t.scrSize < o + 4 with
    | some o => bounds o
    | none => match c.am with
      | none => none
      | some (_, a) =>
        if a.toNat % 4 ≠ 0 then some (checkFault fMisalignedAccess a.toNat h.lead .atomic 4)
        else if 2 ^ 56 ≤ a.toNat ∨ isRemote a.toNat then some (checkFault fAddressRange a.toNat h.lead .atomic 3)
        else none

/-- What a copy reads at issue (R267): its operands in the lowest active fibre, its handle's descriptor and format
register, the team's lease, and whether it is refused. -/
def copyAtIssue (h : Here) (th : BitVec 5) (x : LaneIn) (c0 : CopyReq) : CopyReq :=
  let hd := vget h.t.th th.toNat {}
  let c1 := { c0 with
    desc := hd.desc, fm := vget h.t.fm (descFm hd.desc) 0, l := descL hd.desc, k := descK hd.desc,
    i0 := dbits (x.s 1) 16 16, j0 := dbits (x.s 1) 0 16, off := (x.w 0).toNat,
    bulk := c0.bulk && h.t.lease.isSome && !h.t.leaseEnding }
  { c1 with refused := c1.refusal hd.valid }

/-- The ranges of a copy of the packet in hand. -/
def copyRanges (h : Here) (c : CopyReq) : List Rng := c.ranges h.t.asid h.t.tid (c.mask.getLsbD (ownBit h.t c.quad))

/-- The sources of an instruction in every active fibre as they stand: none where a constant word is still to be read. -/
def peekOperands (i : Instr) (s : State) (h : Here) : List LaneIn :=
  match readConsts s h (constWords (shape i).srcs) with
  | .ok (consts, s1) => laneIns s1 h consts (shape i).srcs
  | _ => []

/-- The range-lock table has the free entries for the packet's copy (R216). -/
abbrev copyRoom (s : State) (h : Here) (c : CopyReq) : Bool := (copyRanges h c).length ≤ (rltFree s h.c.core 0 56).length

/-- A copy's packet is held for the range-lock table (R61, R216). -/
def copyHeld (i : Instr) (th : BitVec 5) (f : LaneIn → CopyReq) (s : State) (h : Here) : Bool :=
  match peekOperands i s h with
  | [] => false
  | x :: _ => (copyFault s h (copyAtIssue h th x (f x))).isNone && !copyRoom s h (copyAtIssue h th x (f x))

/-- Issues a copy: one operation per packet with the operands of the lowest active fibre (R267). -/
def issueCopy (i : Instr) (th : BitVec 5) (f : LaneIn → CopyReq) (s : State) : Out :=
  issue i s fun h => withOperands i s h fun ins s =>
    match ins with
    | [] => s.advance h.c i.words
    | x :: _ =>
      let c := copyAtIssue h th x (f x)
      match copyFault s h c with
      | some e => s.trapPacket h.c h.act e (allOwn h.act e)
      | none =>
        if !copyRoom s h c then s.hold h.c h.t.asid []
        else
          let s1 := s.advance h.c i.words
          (rltAdd s1 h.c.core s1.serial 0 (copyRanges h c)).addOp { mkOp i h s (.copy c) [] with still := 0 }

/-- The fields of a `CPYI`. -/
def cpyiReq (plain bulk : Bool) (status : Option Src) (stage : Option (BitVec 3 × Src)) (x : LaneIn) : CopyReq :=
  let k := if status.isSome then 3 else 2
  { dir := .expand, plain := plain, bulk := bulk
    status := status.map fun _ => (x.w 2).toNat
    stage := stage.map fun p => (p.1, x.w k) }

/-- `CPYI` (R270). -/
def execCpyi (th : BitVec 5) (plain bulk : Bool) (off origin : Src) (status : Option Src)
    (stage : Option (BitVec 3 × Src)) (s : State) : Out :=
  issueCopy (.cpyi th plain bulk off origin status stage) th (cpyiReq plain bulk status stage) s

/-- The fields of a `CPYO`. -/
def cpyoReq (bulk tf : Bool) (status : Option Src) (sr : Option (Src × Src)) (am : Option (Scope × Src))
    (x : LaneIn) : CopyReq :=
  let k := if status.isSome then 3 else 2
  let n := if sr.isSome then k + 1 else k
  let m := if am.isSome then n + 1 else n
  { dir := .compress, plain := true, bulk := bulk, tf := tf
    status := status.map fun _ => (x.w 2).toNat
    sr := sr.map fun _ => (x.w k, x.w m)
    am := am.map fun p => (p.1, x.s n) }

/-- `CPYO` (R272). -/
def execCpyo (th : BitVec 5) (bulk tf : Bool) (off origin : Src) (status : Option Src)
    (sr : Option (Src × Src)) (am : Option (Scope × Src)) (s : State) : Out :=
  issueCopy (.cpyo th bulk tf off origin status sr am) th (cpyoReq bulk tf status sr am) s

/-- The fields of a `CPYM`. -/
def cpymReq (plain quad : Bool) (status : Option Src) (stage : Option (BitVec 3 × Src)) (mask : BitVec 8)
    (x : LaneIn) : CopyReq :=
  let k := if status.isSome then 3 else 2
  { dir := .mcast, plain := plain, quad := quad, mask := mask
    status := status.map fun _ => (x.w 2).toNat
    stage := stage.map fun p => (p.1, x.w k) }

/-- `CPYM` (R274). -/
def execCpym (th : BitVec 5) (plain quad : Bool) (off origin : Src) (status : Option Src)
    (stage : Option (BitVec 3 × Src)) (mask : BitVec 8) (s : State) : Out :=
  issueCopy (.cpym th plain quad off origin status stage mask) th (cpymReq plain quad status stage mask) s

/-! ### Starting (R8, R218 to R220, R275) -/

/-- A team is resident and has started. -/
abbrev Team.resident (t : Team) : Bool := t.phase == .running || t.phase == .saving

/-- The team of a multicast member (R275). -/
def memberTeam (s : State) (t : Team) (quad : Bool) (bit : Nat) : Option Team :=
  let l := s.teams.filter fun q =>
    q.resident && q.asid == t.asid && q.launch.inst == t.launch.inst && q.launch.node == t.launch.node &&
      q.gridId == t.gridId &&
      if quad then q.teamNo / 4 == t.teamNo / 4 && q.teamNo % 4 == bit else q.core == t.core / 8 * 8 + bit
  l.foldl (fun b q => match b with
    | none => some q
    | some p => if q.teamNo < p.teamNo then some q else some p) none

/-- The targets of a multicast that starts now, and the members that are skipped. -/
def mcastTargets (s : State) (t : Team) (c : CopyReq) : List (Nat × Nat) × BitVec 8 :=
  (List.range 8).foldl (fun (p : List (Nat × Nat) × BitVec 8) b =>
    if !c.mask.getLsbD b then p
    else match memberTeam s t c.quad b with
      | some q => (p.1 ++ [(b, q.tid)], p.2)
      | none => (p.1, p.2 ||| 1 <<< b)) ([], 0)

/-- The engine of a copy is frozen with its core (R425). -/
abbrev engineFrozen (s : State) (core : Nat) : Bool := frozenUnit s 0 core

/-- A copy that has not started, with its request. -/
def copyOf (s : State) (id : Nat) : Option (Op × CopyReq × Team) :=
  match s.op? id with
  | none => none
  | some o => match o.kind, s.team? o.tid with
    | .copy c, some t => some (o, c, t)
    | _, _ => none

/-- Members of a multicast other than its own team, which need an entry on their cores (R220). -/
def mcastOthers (s : State) (o : Op) (l : List (Nat × Nat)) : List Team :=
  l.filterMap fun p => if p.2 = o.tid then none else s.team? p.2

/-- The range that a multicast registers in a member's core (R220). -/
abbrev CopyReq.memberRange (c : CopyReq) (q : Team) : Rng :=
  { dest := true, asid := none, tid := q.tid, lo := c.off, hi := c.off + c.spBytes }

/-- A member's range meets one of an earlier-issued operation that is registered on the member's core (R218). -/
def memberBlocked (s : State) (q : Team) (id : Nat) (r : Rng) : Bool :=
  (s.coreOf q.core).rlt.any fun e => e.op < id && e.asid.isNone && e.tid == r.tid && overlap e.lo (e.hi - e.lo) r.lo (r.hi - r.lo)

def enabledCopyStart (s : State) (id : Nat) : Bool :=
  match copyOf s id with
  | none => false
  | some (o, c, t) =>
    !c.started && t.resident && o.core != noCore && !engineFrozen s o.core && !rltBlocked s id &&
    performedAt s o.gid id (if c.dir = .mcast then .cluster else .team) &&
    -- in issue order on its engine
    !(s.ops.any fun p => p.id < id && p.core == o.core && match p.kind with
      | .copy d => !d.started && d.bulk == c.bulk && (!c.bulk || p.tid == o.tid)
      | _ => false) &&
    (c.dir != .mcast || c.refused ||
      (mcastOthers s o (mcastTargets s t c).1).all fun q =>
        !(rltFree s q.core 56 64).isEmpty && !memberBlocked s q id (c.memberRange q))

def doCopyStart (s : State) (id : Nat) : State :=
  match copyOf s id with
  | none => s
  | some (o, c, t) =>
    if c.dir ≠ .mcast then s.updOp id fun o => { o with kind := .copy { c with started := true } }
    else
      let (targets, skipped) := mcastTargets s t c
      let s1 := s.updOp id fun o =>
        { o with kind := .copy { c with started := true, targets := targets, skipped := skipped } }
      -- a refused one has its targets too: the fill counts of those go on with its end (R313)
      if c.refused then s1 else
      let s2 := (mcastOthers s o targets).foldl (fun s q => rltAdd s q.core id 56 [c.memberRange q]) s1
      if targets.any fun p => p.2 = o.tid then s2
      else s2.updCore o.core fun k => { k with rlt := k.rlt.filter fun r => !(r.op == id && r.asid.isNone && r.tid == o.tid) }

/-- `COPY_START` (R218). -/
def execCopyStart (op : Nat) (s : State) : Out :=
  whenEnabled (enabledCopyStart s op) s fun s => doCopyStart s op

/-! ### Reading a window (R271, R278) -/

/-- The sectors of a window in order: their line, address and length (R278). -/
def CopyReq.pieces (c : CopyReq) : List (Nat × Nat × Nat) :=
  (List.range c.l).flatMap fun i => (sectorPieces (c.lineAt i) c.line).map fun p => (i, p.1, p.2)

/-- Bytes of a line joined to those read so far. -/
def joinLine (l : List (List Byte)) (i : Nat) (b : List Byte) : List (List Byte) :=
  if i < l.length then l.zipIdx.map fun p => if p.2 = i then p.1 ++ b else p.1 else l ++ [b]

/-- Place of element `j` of the window in its line's bytes. -/
abbrev inLine (c : CopyReq) (j : Nat) : Nat :=
  if blockScaled (descFmt c.desc) then elemOff (descFmt c.desc) c.w j else j * c.w / 8
/-- Place of the scale byte of block `b` in its line's bytes. -/
abbrev scaleIn (c : CopyReq) (b : Nat) : Nat := b * (blockBytes c.w + 1) + blockBytes c.w

/-- The code of element (i, j), when every byte of its container has been read. -/
def codeAt (c : CopyReq) (lines : List (List Byte)) (i j : Nat) : Option Nat :=
  let l := ((lines[i]?).getD []).drop (inLine c j)
  let n := (c.w + 7) / 8
  if l.length < n then none
  else
    let v := leNat (l.take n)
    some (if c.w = 4 then (if j % 2 = 0 then v % 16 else v / 16) else v)

/-- The scale byte of block `b` of line `i`. -/
def scaleAt (c : CopyReq) (lines : List (List Byte)) (i b : Nat) : Option Nat :=
  (((lines[i]?).getD [])[scaleIn c b]?).map BitVec.toNat

/-- What stands at a byte of a tile in the scratchpad (R259, R260). -/
inductive TilePos where
  | elem (i j b : Nat)
  | scale (i b : Nat)
  | pad (v : Byte)
  | gap
  deriving DecidableEq, Repr

/-- The content of byte `p` of the tile. -/
def tilePos (c : CopyReq) (p : Nat) : TilePos :=
  match (if c.plain then none else canonOf (descFmt c.desc)) with
  | none => .elem (p / 4 / c.k) (p / 4 % c.k) (p % 4)
  | some f =>
    let steps := ceilDiv c.k f.step
    let body := ceilDiv c.l 16 * steps * f.chunk
    if p < body then
      let r := p % f.chunk
      let i := p / f.chunk / steps * 16 + r / (f.step * f.bytes)
      let j := p / f.chunk % steps * f.step + r % (f.step * f.bytes) / f.bytes
      if i < c.l ∧ j < c.k then .elem i j (p % f.bytes) else .pad 0
    else
      let q := p - body
      let blocks := ceilDiv c.k 32
      let i := q / 16 / blocks * 16 + q % 16
      if ceilDiv c.l 16 * blocks * 16 ≤ q then .gap
      else if i < c.l then .scale i (q / 16 % blocks) else .pad 127

/-- A source sector that byte `x` of line `i` lies in has been disturbed (R221). -/
def srcDisturbed (s : State) (id : Nat) (c : CopyReq) (i x : Nat) : Bool :=
  s.disturbed.contains (id, false, (c.lineAt i + x) % 2 ^ 56 / 128)

/-- A byte of the tile: its value, free where it depends on a disturbed sector, nothing where it keeps what it
had (R278). -/
def tileByte (s : State) (id : Nat) (c : CopyReq) (lines : List (List Byte)) (failed : Bool) (p : Nat) : Option Byte :=
  let free := Config.freeByte (s.tick + p)
  let code := descFmt c.desc
  match tilePos c p with
  | .gap => none
  | .pad v => if failed && Config.freeChoice (s.tick + p) % 2 == 0 then none else some v
  | .scale i b =>
    match scaleAt c lines i b with
    | none => none
    | some v => some (if srcDisturbed s id c i (scaleIn c b) then free else BitVec.ofNat 8 v)
  | .elem i j b =>
    let sc := if blockScaled code && c.plain then scaleAt c lines i (j / 32) else some 0
    match codeAt c lines i j, sc with
    | some v, some q =>
      let bytes := match (if c.plain then none else canonOf code) with
        | none => leBytes 4 (plainOf code c.fm q v).toNat
        | some f => leBytes f.bytes (f.encode (elemOf code c.fm v))
      if srcDisturbed s id c i (inLine c j) || srcDisturbed s id c i (inLine c j + (c.w + 7) / 8 - 1) ||
          (blockScaled code && c.plain && srcDisturbed s id c i (scaleIn c (j / 32))) then some free
      else bytes[b]?
    | _, _ => none

/-- The bytes of a tile written into a team's scratchpad. -/
def writeTile (s : State) (o : Op) (c : CopyReq) (lines : List (List Byte)) (failed : Bool) (tid : Nat) : State :=
  let n := c.spBytes
  (List.range n).foldl (fun s1 p => match tileByte s o.id c lines failed p with
    | some v => writeScratch s1 tid (c.off + p) [v]
    | none => s1) { s with tick := s.tick + n }

/-! ### Writing a window (R273) -/

/-- Plain element (i, j) of a compressing copy. -/
abbrev plainAt (scratch : List Host.Cell) (c : CopyReq) (i j : Nat) : Word :=
  Mem.read32 scratch (c.off + 4 * (i * c.k + j))

/-- Bytes of nibbles, low one first. -/
def nibbles : List Nat → List Byte
  | [] => []
  | [x] => [BitVec.ofNat 8 (x % 16)]
  | x :: y :: r => BitVec.ofNat 8 (x % 16 + 16 * (y % 16)) :: nibbles r

/-- Codes as the bytes of their containers. -/
def packCodes (w : Nat) (l : List Nat) : List Byte :=
  if w = 4 then nibbles l else l.flatMap fun x => leBytes (w / 8) x

/-- The bytes of line `i` of a compressing copy from plain elements of a kind. -/
def lineOf (src : PlainSrc) (scratch : List Host.Cell) (c : CopyReq) (i : Nat) : List Byte :=
  let code := descFmt c.desc
  let draw := fun (j : Nat) => c.sr.map fun p => srDraw p.1 p.2 (i * c.k + j)
  if blockScaled code then
    (List.range (c.k / 32)).flatMap fun b =>
      let (sc, codes) := storeBlock code c.fm ((List.range 32).map fun e => plainAt scratch c i (32 * b + e))
        fun e => draw (32 * b + e)
      packCodes c.w codes ++ [BitVec.ofNat 8 sc]
  else packCodes c.w ((List.range c.k).map fun j => storeElem code c.fm src (plainAt scratch c i j) (draw j))

/-- The bytes of line `i` of a `CPYO`, whose source kind its format gives (R273). -/
abbrev lineOut (scratch : List Host.Cell) (c : CopyReq) (i : Nat) : List Byte :=
  lineOf (plainSrc (descFmt c.desc) c.tf) scratch c i

/-- A magnitude as the absolute maximum compares it (R273). -/
def magOf (k : PlainSrc) (w : Word) : Nat :=
  match k with
  | .i32 => w.toInt.natAbs
  | _ => w.toNat % 2 ^ 31

/-- The absolute maximum of a window (R273). -/
def absMax (scratch : List Host.Cell) (c : CopyReq) : Word :=
  let k := plainSrc (descFmt c.desc) c.tf
  BitVec.ofNat 32 (((List.range (c.l * c.k)).map fun n => magOf k (plainAt scratch c (n / c.k) (n % c.k))).foldl max 0)

/-! ### Moving a window, sector by sector (R219, R221, R278) -/

/-- The next sector of a started copy: one of a compressing copy's destination is written, one of another's source is
read. `none` while there is none, or it must wait. -/
def copySector (s : State) (id : Nat) : Option State :=
  match copyOf s id with
  | none => none
  | some (o, c, t) =>
    let put := fun (s : State) (c : CopyReq) => s.updOp id fun o => { o with kind := .copy c }
    if !c.started || c.refused || c.fail.isSome || t.phase == .saved || engineFrozen s o.core then none
    else match c.pieces[c.pos]? with
      | none => none
      | some (i, va, n) =>
        match c.dir with
        | .compress =>
          match engWritePieces o.asid o.core o.user va (((lineOut t.scratch c i).drop (va - c.lineAt i)).take n) [(va, n)] s with
          | .wait => none
          | .stage2 g => engHalts s o g
          | .done _ none s1 => some (put s1 { c with pos := c.pos + 1 })
          | .done _ f s1 => some (put s1 { c with fail := f })
        | _ =>
          match engReadPieces o.asid o.core o.user [(va, n)] [] s with
          | .wait => none
          | .stage2 g => engHalts s o g
          | .done l none s1 => some (put s1 { c with pos := c.pos + 1, got := joinLine c.got i l })
          | .done _ f s1 => some (put s1 { c with fail := f })

/-- No sector of a started copy is left to move. -/
abbrev CopyReq.moved (c : CopyReq) : Bool := c.refused || c.fail.isSome || c.pieces.length ≤ c.pos

/-- Sectors of a compressing copy's destination that another core has stored to are left undefined (R221). -/
def freeDisturbed (s : State) (o : Op) (c : CopyReq) : State :=
  (c.pieces.take c.pos).foldl (fun s p =>
    if s.disturbed.contains (o.id, true, p.2.1 % 2 ^ 56 / 128) then freeSector o.asid o.core o.user p.2 s else s) s

/-! ### Ending (R277 to R279, R285) -/

/-- The team still has a matrix operation, or a copy raised for one, that it issued before `id` (R317). -/
def matrixBefore (s : State) (tid id : Nat) : Bool :=
  s.ops.any fun o => o.tid == tid && o.id < id && match o.kind with
    | .matrix _ => true
    | .copy c => c.feeds.isSome
    | _ => false

/-- `MFENCE`s of a team whose earlier operations have all reported go on (R317). -/
def settleFences (s : State) (tid : Nat) : State :=
  (s.ops.filter fun o => o.tid == tid && (match o.kind with | .stageWait .mfence _ => true | _ => false) &&
    !matrixBefore s tid o.id).foldl (fun s o => s.finishOp o.id) s

/-- A stage slot marked full by a fill (R285), and whether it was. -/
def markStage (st : Stage) (seq : Word) : Stage × Bool :=
  let depth := wbits st.cfg 27 4 + 1
  let k := seq.toNat % depth
  let slot := (st.slots[k]?).getD {}
  let ok := st.cfg.getLsbD 31 && slot.n == seq && !slot.full
  ({ st with arr := st.arr + 1, slots := if ok then st.slots.set k { slot with full := true } else st.slots }, ok)

/-- Stage marks in every receiving team; the bits of those whose slot was not marked. -/
def markAll (s : State) (c : CopyReq) (l : List (Nat × Nat)) : BitVec 8 × State :=
  match c.stage with
  | none => (0, s)
  | some (n, seq) => l.foldl (fun (p : BitVec 8 × State) m =>
      match p.2.team? m.2 with
      | none => p
      | some t =>
        let (st, ok) := markStage (vget t.stages n.toNat {}) seq
        (if ok then p.1 else p.1 ||| 1 <<< m.1,
         p.2.updTeam m.2 fun t => { t with stages := vset t.stages n.toNat st })) (0, s)

/-- What a copy whose sectors have moved still does: a tile is written into its teams' scratchpads, and an absolute
maximum is taken. -/
def copyData (s : State) (o : Op) (c : CopyReq) (t : Team) : Eng Unit :=
  match c.dir with
  | .compress =>
    let s1 := freeDisturbed s o c
    match c.fail, c.am with
    | some f, _ => .done () (some f) s1
    | none, none => .done () none s1
    -- the atomic is a release of the group at its scope (R180, R273)
    | none, some (sc, a) =>
      if performedAt s1 o.gid o.id sc then engMaxn s1 o.asid o.core a.toNat (absMax t.scratch c) o.user else .wait
  | _ =>
    let targets := if c.dir = .mcast then c.targets.map (·.2) else [o.tid]
    .done () c.fail (targets.foldl (fun s tid => writeTile s o c c.got c.fail.isSome tid) s)

/-- Fill counts of a quad that a raised multicast brings forward in its members (R313, R321). -/
def countFills (s : State) (c : CopyReq) : State :=
  match c.feeds with
  | some (_, isA) =>
    if c.dir ≠ .mcast then s
    else c.targets.foldl (fun s m => s.updTeam m.2 fun t =>
      { t with qseq := if isA then setBits t.qseq 16 16 (dbits t.qseq 16 16 + 1)
                       else setBits t.qseq 0 16 (dbits t.qseq 0 16 + 1) }) s
  | none => s

/-- A lease that has ended returns its engine when the team's bulk copies are done; a waiting `LFREE` completes
(R287). -/
def settleLease (s : State) (tid : Nat) : State :=
  match s.team? tid with
  | none => s
  | some t =>
    if !t.leaseEnding || s.ops.any (fun o => o.tid == tid && match o.kind with | .copy c => c.bulk | _ => false) then s
    else
      (s.ops.filter fun o => o.tid == tid && match o.kind with | .stageWait .lfree _ => true | _ => false).foldl
        (fun s o => s.finishOp o.id) (s.updTeam tid fun t => { t with lease := none, leaseEnding := false })

/-- The end of a copy, in the order of R279: its writes, its atomic, its ranges released, its stages marked, its
status word, its report. -/
def endCopy (s : State) (o : Op) (c : CopyReq) (cause : BitVec 3) (va : Option Nat) : State :=
  let s1 := countFills (rltDrop s o.id) c
  let members := if c.dir = .mcast then c.targets else [(0, o.tid)]
  let (miss, s2) := if cause = 0 && c.dir ≠ .compress then markAll s1 c members else (0, s1)
  let s3 := match c.feeds with
    | some (mx, _) =>
      if cause = 0 then s2
      else s2.updOp mx fun p => match p.kind with
        | .matrix q => { p with kind := .matrix { q with failed := some (cause, BitVec.ofNat 64 (va.getD 0)) } }
        | _ => p
    | none =>
      let s3 := match va with
        | some v => s2.updTeam o.tid fun t => { t with cperrva := BitVec.ofNat 64 v }
        | none => s2
      match c.status with
      | some off => writeScratch s3 o.tid off (leBytes 4
          (2 ^ 31 + cause.toNat * 2 ^ 28 + c.skipped.toNat * 2 ^ 16 + miss.toNat * 2 ^ 8))
      | none => if cause = 0 then s3 else s3.updTeam o.tid fun t => { t with cperr := errRecord t.cperr cause }
  settleFences (settleLease (s3.finishOp o.id) o.tid) o.tid

/-- The state after a copy completes; none while it must wait for a page that migrates or a line that moves. -/
def copyResult (s : State) (id : Nat) : Option State :=
  match copyOf s id with
  | none => none
  | some (o, c, t) =>
    if !c.started || !c.moved then none
    else if c.refused then some (endCopy s o c 1 none)
    else match copyData s o c t with
      | .wait => none
      | .stage2 g => engHalts s o g
      | .done _ f s1 => some (endCopy s1 o c ((f.map (·.1)).getD 0) (f.map (·.2)))

def enabledCopyComplete (s : State) (id : Nat) : Bool :=
  match copyOf s id with
  | none => false
  | some (o, _, t) => t.phase != .saved && !engineFrozen s o.core && (copyResult s id).isSome

/-- `COPY_COMPLETE` (R279). -/
def execCopyComplete (op : Nat) (s : State) : Out :=
  whenEnabled (enabledCopyComplete s op) s fun s => (copyResult s op).getD s

/-! ### Stages (R280 to R285) -/

/-- Slots of a stage. -/
abbrev Stage.depth (st : Stage) : Nat := wbits st.cfg 27 4 + 1
/-- Slot `k` of a stage. -/
abbrev Stage.slot (st : Stage) (k : Nat) : StageSlot := (st.slots[k]?).getD { n := BitVec.ofNat 32 k }
/-- Offset of slot `k` (R280). -/
abbrev Stage.off (st : Stage) (k : Nat) : Nat := 256 * (wbits st.cfg 7 10 + k * wbits st.cfg 17 10)

/-- A stage as a write of its configuration leaves it (R280). -/
def stageOf (scr : Nat) (v : Word) : Stage :=
  let depth := wbits v 27 4 + 1
  let size := wbits v 17 10
  let bad := v.getLsbD 31 && (size == 0 || scr < 256 * (wbits v 7 10 + depth * size))
  { cfg := (if bad then setBits v 31 1 0 else v) &&& 0xFFFFFF80
    slots := (List.range depth).map fun k => { n := BitVec.ofNat 32 k } }

/-- Writes STGCFGn (R280). -/
def setStage (s : State) (tid n : Nat) (v : Word) : State :=
  s.updTeam tid fun t => { t with stages := vset t.stages n (stageOf t.scrSize v) }

/-- `STGCFG_WRITE` (R280). -/
def execStgcfgWrite (tid n : Nat) (value : Word) (s : State) : Out :=
  fromOutside (.stgcfgWrite tid n value) s fun s => setStage s tid n value

/-- Writes FMTn (R252). -/
def setFmt (s : State) (tid n : Nat) (v : Word) : State :=
  s.updTeam tid fun t => { t with fm := vset t.fm n (fmStored v) }

/-- `FMT_WRITE` (R252). -/
def execFmtWrite (tid n : Nat) (value : Word) (s : State) : Out :=
  fromOutside (.fmtWrite tid n value) s fun s => setFmt s tid n value

/-- What a stage instruction does to its stage: `none` while it waits, else p63, the offset for D, and the
stage after it (R282). -/
def stageAct (i : Instr) (st : Stage) (seq : Word) : Option (Bool × Option Nat × Stage) :=
  let k := seq.toNat % st.depth
  let sl := st.slot k
  let en := st.cfg.getLsbD 31
  let past := (seq - sl.n).slt 0
  let put := fun (x : StageSlot) => { st with slots := st.slots.set k x }
  match i with
  | .stgpWait .. =>
    if !en || past || (seq == sl.n && sl.full) then some (true, none, st)
    else if sl.n = seq ∧ !sl.full then some (false, some (st.off k), st) else none
  | .stgc .. =>
    if !en || past then some (true, none, st)
    else if sl.n = seq ∧ sl.full then some (false, some (st.off k), st) else none
  | .stgpFill .. =>
    if en && sl.n == seq && !sl.full then some (false, none, put { sl with full := true }) else some (true, none, st)
  | _ =>
    if en && sl.n == seq && sl.full then
      some (false, none, put { n := seq + BitVec.ofNat 32 st.depth, full := false })
    else some (true, none, st)

/-- Every access of the group issued before `id` has completed. -/
def accessesDone (s : State) (gid id : Nat) : Bool :=
  !((s.groupOps gid).any fun o => o.id < id && match o.kind with
    | .load .. | .scratchLoad .. | .constLoad .. | .store .. | .atom .. | .redf | .ret | .waitc .. => true
    | _ => false)

/-- The stage a stage instruction names. -/
abbrev stageNum : Instr → Nat
  | .stgpWait _ n _ | .stgpFill n _ | .stgc _ n _ | .stgr n _ => n.toNat
  | _ => 0

def enabledStageWaitRelease (s : State) (id : Nat) : Bool :=
  match s.op? id with
  | none => false
  | some o => match o.kind, s.team? o.tid with
    | .stageWait i seq, some t =>
      t.resident &&
      (match i with
       | .stgpFill .. => performedAt s o.gid id .team
       | .stgr .. => accessesDone s o.gid id
       | .stgpWait .. | .stgc .. => true
       | _ => false) &&
      (stageAct i (vget t.stages (stageNum i) {}) seq).isSome
    | _, _ => false

def doStageWaitRelease (s : State) (id : Nat) : State :=
  match s.op? id with
  | none => s
  | some o => match o.kind, s.team? o.tid with
    | .stageWait i seq, some t =>
      match stageAct i (vget t.stages (stageNum i) {}) seq with
      | none => s
      | some (p, d, st) =>
        let s1 := s.updTeam o.tid fun t => { t with stages := vset t.stages (stageNum i) st }
        let s2 := (lanesOf o.mask).foldl (fun s k =>
          let s := predLane s o.gid k 63 p
          match d with
          | some v => writeLane s o k v
          | none => s) s1
        s2.finishOp id
    | _, _ => s

/-- `STAGE_WAIT_RELEASE` (R282). -/
def execStageWaitRelease (op : Nat) (s : State) : Out :=
  whenEnabled (enabledStageWaitRelease s op) s fun s => doStageWaitRelease s op

/-- A stage instruction joins the stage table, once per packet with the sequence of the lowest active fibre
(R282). -/
def issueStage (i : Instr) (dst : Option (Dst × Nat)) (s : State) : Out :=
  issue i s fun h => withOperands i s h fun ins s =>
    let seq := ((ins.head?).map fun (x : LaneIn) => x.w 0).getD 0
    (s.advance h.c i.words).addOp
      { mkOp i h s (.stageWait i seq) [] with dst := dst, preds := [63], still := 0 }

/-- `STGP.wait` (R281, R282). -/
def execStgpWait (d : Dst) (stage : BitVec 3) (seq : Src) (s : State) : Out :=
  issueStage (.stgpWait d stage seq) (some (d, 1)) s

/-- `STGP.fill` (R281, R282). -/
def execStgpFill (stage : BitVec 3) (seq : Src) (s : State) : Out := issueStage (.stgpFill stage seq) none s

/-- `STGC` (R281, R282). -/
def execStgc (d : Dst) (stage : BitVec 3) (seq : Src) (s : State) : Out :=
  issueStage (.stgc d stage seq) (some (d, 1)) s

/-- `STGR` (R281, R282). -/
def execStgr (stage : BitVec 3) (seq : Src) (s : State) : Out := issueStage (.stgr stage seq) none s

/-! ### Leases (R286 to R288) -/

/-- The period of a lease in ns (R286). -/
def leasePeriod (p : Word) : Nat := (if p = 0 then 50 else if 1000 < p.toNat then 1000 else p.toNat) * 1000

/-- A free bulk engine of a die's 16. -/
def freeEngine (s : State) (die : Nat) : Option Nat :=
  (List.range 16).find? fun e =>
    !(s.teams.any fun t => dieOf t.core == die && (t.lease.map (·.1)) == some e) &&
    !((s.crozOf die).running.any fun r => r.engine == some e)

/-- A `LEASE` that waits for the pool, with its period. -/
def leaseOf (o : Op) : Option Nat :=
  match o.kind with
  | .stageWait (.lease ..) p => some (leasePeriod p)
  | _ => none

/-- A request stands before another of the same die's pool: it came in an earlier nanosecond, or in the same one from
a lower service class, then a lower core (R287). -/
def leaseBefore (s : State) (a b : Op) : Bool :=
  let cls := fun (o : Op) => ((s.team? o.tid).map (·.sclass)).getD 3
  a.since < b.since || (a.since == b.since && (cls a < cls b || (cls a == cls b && (a.core < b.core || (a.core == b.core && a.id < b.id)))))

/-- A request of a team that holds no ended lease: such a one is served when its engine has returned (log 26). -/
def leaseRipe (s : State) (o : Op) : Bool := match s.team? o.tid with
  | some t => !t.leaseEnding
  | none => false

/-- The pool serves a request, once every request of its nanosecond has come (R287): a lease that the team holds is
renewed, else a free engine of the die is taken; its predicate tells, in every active fibre. -/
def leaseServe (s : State) (id : Nat) : Option State :=
  match s.op? id with
  | none => none
  | some o => match leaseOf o, s.team? o.tid with
    | some p, some t =>
      if s.now ≤ o.since || t.phase != .running || !leaseRipe s o || s.ops.any (fun q => (leaseOf q).isSome && dieOf q.core == dieOf o.core &&
          leaseRipe s q && leaseBefore s q o) then none
      else
        let e := match t.lease with
          | some (e, _) => some e
          | none => freeEngine s (dieOf o.core)
        let s1 := match e with
          | some e => s.updTeam o.tid fun t => { t with lease := some (e, s.now + p) }
          | none => s
        let s2 := (lanesOf o.mask).foldl (fun s k =>
          o.preds.foldl (fun s p => predLane s o.gid k p.toNat e.isSome) s) s1
        some (s2.finishOp id)
    | _, _ => none

/-- `LEASE` (R286, R287): once per packet, a request to the die's pool with the period of the lowest active fibre. -/
def execLease (pd : BitVec 6) (period : Src) (s : State) : Out :=
  let i : Instr := .lease pd period
  issue i s fun h => withOperands i s h fun ins s =>
    (s.advance h.c i.words).addOp
      { mkOp i h s (.stageWait i (((ins.head?).map fun (x : LaneIn) => x.w 0).getD 0)) [] with preds := [pd], still := 0 }

/-- The lease ends: the engine returns once the team's copies on it are done. -/
def endLease (s : State) (tid : Nat) : State := settleLease (s.updTeam tid fun t => { t with leaseEnding := t.lease.isSome }) tid

/-- `LFREE` (R286, R287). -/
def execLfree (s : State) : Out :=
  issue .lfree s fun h =>
    let s1 := (s.advance h.c 1).addOp { mkOp .lfree h s (.stageWait .lfree 0) [] with still := 0 }
    if h.t.lease.isNone then s1.finishOp s.serial else endLease s1 h.t.tid

def enabledLeaseExpiry (s : State) (tid : Nat) : Bool :=
  match s.team? tid with
  | none => false
  | some t => match t.lease with
    | some (_, e) => !t.leaseEnding && e ≤ s.now
    | none => false

/-- `LEASE_EXPIRY` (R287). -/
def execLeaseExpiry (tid : Nat) (s : State) : Out :=
  whenEnabled (enabledLeaseExpiry s tid) s fun s => endLease s tid

end Sys2Proof.Machine
end

