-- ==== Sys2Proof/Machine/Matrix.lean ====
section
/-!
DEFINITION. The matrix engine (R292 to R320): sub-tiles and the shape, the arithmetic of a K-step, issue and
signing with `CVSET` and `SIGN` (R83 to R85), operations raised by handle, the batch-forming queue, and the
engine's own steps.
-/

namespace Sys2Proof.Machine

open Sys2Proof

/-! ### The shape (R293, R294) -/

/-- A shape as `MSHAPE` wrote it. -/
structure MxShape where
  m : Nat
  n : Nat
  k : Nat
  fa : MxForm
  fb : MxForm
  acc : MxAcc
  sa : Bool
  sb : Bool
  q : Bool
  deriving DecidableEq, Repr

/-- The fields of MXSHAPE (R294). -/
def MxShape.of (x : Dword) : MxShape :=
  let w := x.hi
  { m := 16 * (wbits w 22 4 + 1), n := 16 * (wbits w 18 4 + 1), k := dbits x 0 16
    fa := (MxForm.ofBits (fld w 15 3)).getD .k16, fb := (MxForm.ofBits (fld w 12 3)).getD .k16
    acc := (MxAcc.ofBits (fld w 10 2)).getD .f32, sa := w.getLsbD 9, sb := w.getLsbD 8, q := w.getLsbD 7 }

/-- Rows and columns that one team computes: a quarter of the result in quad mode (R312). -/
abbrev MxShape.rows (p : MxShape) : Nat := if p.q then p.m / 2 else p.m
abbrev MxShape.cols (p : MxShape) : Nat := if p.q then p.n / 2 else p.n

/-- The canonical form behind an operand form (R294). -/
abbrev formCanon : MxForm → Canon
  | .k16 | .k16x4 => .k16 | .k32 => .k32 | .ci8 | .ci8x4 => .ci8 | .ci16 => .ci16

/-- K-steps (R296). -/
abbrev MxShape.steps (p : MxShape) : Nat := ceilDiv p.k (formCanon p.fa).step

/-! ### Sub-tiles (R292) -/

/-- The words of a sub-tile; one that has not been written holds zeros. -/
abbrev Team.sub (t : Team) (k : Nat) : List Word := (assoc t.subs k).getD (List.replicate 256 0)

/-- A word of a sub-tile replaced. -/
def setSub (subs : List (Nat × List Word)) (k i : Nat) (w : Word) : List (Nat × List Word) :=
  assocSet subs k (((assoc subs k).getD (List.replicate 256 0)).set i w)

/-- A sub-tile replaced. -/
abbrev putSub (t : Team) (k : Nat) (l : List Word) : Team := { t with subs := assocSet t.subs k l }

/-- Sub-tiles that a result of some blocks takes. -/
abbrev subCount (acc : MxAcc) (blocks : Nat) : Nat := if acc = .i64 then 2 * blocks else blocks

/-- An accumulator element: block number and place in the block. -/
def accGet (t : Team) (acc : MxAcc) (d q e : Nat) : Dword :=
  match acc with
  | .i64 => pairOf (((t.sub (d + 2 * q + 1))[e]?).getD 0) (((t.sub (d + 2 * q))[e]?).getD 0)
  | _ => (((t.sub (d + q))[e]?).getD 0).zx

def accSet (t : Team) (acc : MxAcc) (d q e : Nat) (v : Dword) : Team :=
  match acc with
  | .i64 => { t with subs := setSub (setSub t.subs (d + 2 * q) e v.lo) (d + 2 * q + 1) e v.hi }
  | _ => { t with subs := setSub t.subs (d + q) e v.lo }

/-! ### Arithmetic of a K-step (R296, R297, R309) -/

/-- The sum of a step's products: exact over a power of two, an infinity, or NaN. -/
inductive StepSum where
  | nan
  | inf (neg : Bool)
  | fin (v : Int) (e : Int)
  deriving DecidableEq, Repr

/-- The quantum under every product of two operands of a canonical form. -/
abbrev prodQ (c : Canon) : Int :=
  match c with
  | .k16 => -140 | .k32 => -552 | _ => 0

/-- The step sum of two rows of operand values (R296). -/
def stepSum (c : Canon) (xs ys : List Elem) : StepSum :=
  let q := prodQ c
  let prods := List.zipWith (fun x y => match x, y with
    | .nan _, _ | _, .nan _ => StepSum.nan
    | .inf s, .inf t => .inf (s != t)
    | .inf s, .fin t m _ | .fin t m _, .inf s => if m = 0 then .nan else .inf (s != t)
    | .fin s m e, .fin t n g => .fin (sgn (s != t) (m * n * 2 ^ (e + g - q).toNat)) q) xs ys
  prods.foldl (fun a p => match a, p with
    | .nan, _ | _, .nan => .nan
    | .inf s, .inf t => if s = t then .inf s else .nan
    | .inf s, _ | _, .inf s => .inf s
    | .fin v e, .fin w _ => .fin (v + w) e) (.fin 0 q)

/-- A step sum under a scale byte (R296). -/
def StepSum.scale (x : StepSum) (byte : Option Nat) : StepSum :=
  match byte with
  | none => x
  | some b => if b = 255 then .nan else match x with
    | .fin v e => .fin v (e + (b : Int) - 127)
    | y => y

/-- A step sum added to an f32 accumulator (R296). -/
def addF32 (acc : Nat) (x : StepSum) : Nat :=
  match fmt32.unpack acc, x with
  | .nan _, _ | _, .nan => 0x7FC00000
  | .inf s, .inf t => if s = t then acc else 0x7FC00000
  | .inf _, _ => acc
  | _, .inf s => fmt32.neg s + fmt32.inf
  | .fin s m e, .fin v g =>
    let q := min e g
    let z := sgn s (m * 2 ^ (e - q).toNat) + v * 2 ^ (g - q).toNat
    (fmt32.round .rne (z < 0) z.natAbs q).1

/-- A step sum added to an integer accumulator, clamped, and whether the clamp changed it (R297). -/
def addInt (w : Nat) (acc : Int) (x : StepSum) : Int × Bool :=
  match x with
  | .fin v _ =>
    let z := acc + v
    let c := max (-(2 ^ (w - 1) : Int)) (min (2 ^ (w - 1) - 1) z)
    (c, c != z)
  | _ => (acc, false)

/-- One accumulation, with the flag SAT (R296, R297). -/
def addAcc (acc : MxAcc) (old : Dword) (x : StepSum) : Dword × Bool :=
  match acc with
  | .f32 => (BitVec.ofNat 64 (addF32 (old.toNat % 2 ^ 32) x), false)
  | .i32 => let (v, f) := addInt 32 old.lo.toInt x; ((BitVec.ofInt 32 v).setWidth 64, f)
  | .i64 => let (v, f) := addInt 64 old.toInt x; (BitVec.ofInt 64 v, f)

/-- The down-converter: an accumulator word as an operand of a form, and whether an integer clamp changed it
(R309). A magnitude above the form's largest becomes an infinity. -/
def downConvert (c : Canon) (sh : Nat) (w : Word) : Elem × Bool :=
  let int := fun (lo hi : Int) =>
    let v := w.toInt / (2 ^ sh : Int)
    let r := max lo (min hi v)
    (Elem.ofInt r, r != v)
  match c with
  | .ci8 => int (-128) 127
  | .ci16 => int (-32768) 32767
  | _ =>
    let (_, fb, bias) := c.kbits
    match fmt32.unpack w.toNat with
    | .nan _ => (.nan false, false)
    | .inf s => (.inf s, false)
    | .fin s m e =>
      if m = 0 then (.fin s 0 0, false)
      else
        let q := max (Nat.log2 m + e - fb) (-(bias : Int) - fb)
        let n := (toQuantum .rne s m e q false).1
        if c = .k16 ∧ !magLe m e 255 56 then (.inf s, false) else (.fin s n q, false)

/-! ### Operands (R258, R259, R306) -/

/-- The value of element (i, k) of a canonical tile in a memory; elements beyond K are zero. -/
def tileElem (mem : List Host.Cell) (base : Nat) (c : Canon) (kk i k : Nat) : Elem :=
  if kk ≤ k then .fin false 0 0
  else c.decode (leNat (Mem.read mem (base + canonOff c kk i k) c.bytes))

/-- The elements of one step of a line. -/
def tileStep (mem : List Host.Cell) (base : Nat) (c : Canon) (kk i st : Nat) : List Elem :=
  (List.range c.step).map fun e => tileElem mem base c kk i (st * c.step + e)

/-- The scale byte of a step of a line, when the tile has a lane. -/
def tileScale (mem : List Host.Cell) (base : Nat) (c : Canon) (on : Bool) (lines kk i st : Nat) : Option Nat :=
  if on then some (Mem.get mem (base + scaleOff c lines kk i st)).toNat else none

/-- A row of operand A: its elements in a step, its scale, and whether a conversion clamped. -/
structure ARow where
  step : Nat → List Elem × Bool
  scale : Nat → Option Nat

/-- Adds step `st` to one result element: the new value, SAT and DSAT (R306). A row of A that has no line gives a zero
step sum (R311). -/
def accStep (p : MxShape) (b : Nat) (mem : List Host.Cell) (a : Option ARow) (j st : Nat) (old : Dword) : Dword × Bool × Bool :=
  match a with
  | none => let (v, sat) := addAcc p.acc old (.fin 0 0); (v, sat, false)
  | some a =>
    let (av, clamp) := a.step st
    let sum := ((stepSum (formCanon p.fa) av (tileStep mem b (formCanon p.fb) p.k j st)).scale (a.scale st)).scale
      (tileScale mem b (formCanon p.fb) p.sb p.cols p.k j st)
    let (v, sat) := addAcc p.acc old sum
    (v, sat, clamp)

/-- Flags set in MXSTAT (R322). -/
def orStat (t : Team) (sat dsat idx : Bool) : Team :=
  { t with mxstat := t.mxstat ||| (if sat then 1 else 0) ||| (if dsat then 2 else 0) ||| (if idx then 4 else 0) }

/-- K-step `st` of some result rows, each with its row of A, against every column; before the first the results are
zeroed when `z` is set (R306). -/
def kStep (p : MxShape) (d b : Nat) (z : Bool) (st : Nat) (mem : List Host.Cell) (rows : List (Nat × Option ARow)) (t : Team) :
    Team :=
  rows.foldl (fun t r => (List.range p.cols).foldl (fun t j =>
    let q := r.1 / 16 * (p.cols / 16) + j / 16
    let e := r.1 % 16 * 16 + j % 16
    let (v, sat, dsat) := accStep p b mem r.2 j st (if z && st == 0 then 0 else accGet t p.acc d q e)
    orStat (accSet t p.acc d q e v) sat dsat false) t) t

/-! ### Checks and ranges (R299, R300) -/

/-- COPY_BOUNDS with the value that fails. -/
abbrev mxBounds (x : Nat) : FaultRec := plainFault fCopyBounds 0 x

/-- Bytes of an element that `MSTORE` writes (R303). -/
abbrev convBytes : MxConv → Nat
  | .raw | .tf32 => 4 | .bf16 | .f16 | .i16 => 2 | .i8 => 1 | .raw64 => 8

/-- A scratchpad operand: offset, alignment, bytes, and whether it is written. -/
structure MxRng where
  off : Nat
  align : Nat
  len : Nat
  dest : Bool := false
  deriving DecidableEq, Repr

/-- The scratchpad operands of a request in order (R300, R316). -/
def mxRanges (p : MxShape) (q : MxReq) : List MxRng :=
  let op := fun (i : Nat) => ((q.ops[i]?).getD 0).toNat % 2 ^ 32
  let canon := fun (off l : Nat) (f : MxForm) (sc : Bool) =>
    { off := off, align := 256, len := canonBytes l p.k (formCanon f) sc : MxRng }
  match q.instr with
  | .mma .. => [canon (op 0) p.rows p.fa p.sa, canon (op 1) p.cols p.fb p.sb]
  | .mmac .. => [canon (op 0) p.cols p.fb p.sb]
  | .mload _ _ _ n1 _ => [{ off := op 0, align := 16, len := 1024 * (n1.toNat + 1) }]
  | .mstore _ _ _ n1 _ conv .. => [{ off := op 0, align := 16, len := 256 * convBytes conv * (n1.toNat + 1), dest := true }]
  | .mgather .. =>
    [canon (op 0) (wbits q.list 16 16) p.fa p.sa, canon (op 1) p.cols p.fb p.sb,
     { off := op 2, align := 4, len := 4 * (wbits q.list 0 16 + 1) }]
  | _ => []

/-- The sub-tiles a request writes or reads: first and count; and the source sub-tiles of `MMAC`. -/
def mxSubs (p : MxShape) (q : MxReq) : (Nat × Nat) × (Nat × Nat) :=
  let res := fun (d rows : Nat) => (d, subCount p.acc (rows / 16 * (p.cols / 16)))
  match q.instr with
  | .mzero d _ n1 => ((d.toNat, n1.toNat + 1), (0, 0))
  | .mload d _ _ n1 _ => ((d.toNat, n1.toNat + 1), (0, 0))
  | .mstore d _ _ n1 _ conv .. => ((d.toNat, if conv = .raw64 then 2 * (n1.toNat + 1) else n1.toNat + 1), (0, 0))
  | .mma d .. => (res d.toNat p.rows, (0, 0))
  | .mgather d .. => (res d.toNat (16 * ceilDiv (wbits q.list 0 16) 16), (0, 0))
  | .mmac d _ _ _ _ as_ .. => (res d.toNat p.m, (as_.toNat, p.m / 16 * (p.k / 16)))
  | _ => ((0, 0), (0, 0))

/-- A request whose result is in i64 pairs, or that stores pairs: its base shall be even. -/
def mxEven (p : MxShape) (q : MxReq) : Bool :=
  match q.instr with
  | .mma .. | .mmac .. | .mgather .. => p.acc == .i64
  | .mstore _ _ _ _ _ conv .. => conv == .raw64
  | _ => false

/-- The checks of R300 from the third on: the first that fails. -/
def mxFault (s : State) (t : Team) (q : MxReq) (lead : Nat) : Option FaultRec :=
  let p := MxShape.of q.shape
  let quad := match q.instr with | .mmac .. | .mgather .. => p.q | _ => false
  let (dst, src) := mxSubs p q
  let beyond := fun (r : Nat × Nat) => ((List.range r.2).map (r.1 + ·)).find? fun k => t.nsub ≤ k
  let badK := match q.instr with | .mmac .. => p.k % 16 != 0 || 128 < p.k | _ => false
  let g := wbits q.list 0 16
  let badList := match q.instr with | .mgather .. => g == 0 || 128 < g || wbits q.list 16 16 == 0 | _ => false
  if quad then some (plainFault fMcastRange)
  else if badList then some (mxBounds (((q.ops[2]?).getD 0).toNat % 2 ^ 32))
  else match (mxRanges p q).find? fun r => r.off % r.align ≠ 0 || !scratchOk s t r.off r.len with
    | some r => some (mxBounds r.off)
    | none =>
      -- the manual names no EADDR for a K that `MMAC` cannot take: a free value
      if badK then some { plainFault fCopyBounds with addr := (Config.freeWord s.tick).setWidth 64 }
      else match beyond dst, beyond src with
        | some k, _ | none, some k => some (mxBounds k)
        | none, none =>
          if mxEven p q && dst.1 % 2 == 1 then some (mxBounds dst.1)
          else match ((List.range src.2).map (src.1 + ·)).find? fun k => dst.1 ≤ k && k < dst.1 + dst.2 with
            | some k => some (mxBounds k)
            | none => match q.instr with
              | .mstore _ _ _ _ _ _ (some _) _ _ =>
                let a := ((q.ops[1]?).getD 0).toNat
                if a % 4 ≠ 0 then some (checkFault fMisalignedAccess a lead .atomic 4)
                else if 2 ^ 56 ≤ a ∨ isRemote a then some (checkFault fAddressRange a lead .atomic 3)
                else none
              | _ => none

/-! ### Raised copies (R307, R313) -/

/-- The copies that a request raises from tile handles: `mx` will be its number. -/
def raisedCopies (t : Team) (q : MxReq) (mx : Nat) : List CopyReq :=
  let p := MxShape.of q.shape
  let member := t.teamNo % 4
  let op := fun (i : Nat) => ((q.ops[i]?).getD 0).toNat
  let raise_ := fun (th : BitVec 5) (form : MxForm) (sc isA : Bool) (off lines i0 j0 : Nat) (mask : BitVec 8) => show CopyReq from
    let hd := vget t.th th.toNat {}
    let fm := vget t.fm (descFm hd.desc) 0
    let code := descFmt hd.desc
    let c : CopyReq :=
      { dir := if p.q then .mcast else .expand, plain := false, off := off % 2 ^ 32, i0 := i0, j0 := j0, quad := p.q, mask := mask
        desc := hd.desc, fm := fm, l := lines, k := p.k, feeds := some (mx, isA) }
    { c with refused := c.refusal hd.valid || canonOf code != some (formCanon form) || blockScaled code != sc }
  let a := fun (th : BitVec 5) (o : Nat) => raise_ th p.fa p.sa true (op 0) p.rows
    (nbits o 16 16 + if p.q then member / 2 * p.rows else 0) (nbits o 0 16) (if member / 2 = 0 then 0b0011 else 0b1100)
  let b := fun (th : BitVec 5) (off o : Nat) => raise_ th p.fb p.sb false off p.cols
    (nbits o 48 16 + if p.q then member % 2 * p.cols else 0) (nbits o 0 16) (if member % 2 = 0 then 0b0101 else 0b1010)
  match q.instr with
  | .mma _ _ _ ha hb _ _ _ tha thb =>
    (if ha && (!p.q || member % 2 == 0) then [a tha (op 2)] else []) ++
    (if hb && (!p.q || member < 2) then [b thb (op 1) (op 2)] else [])
  | .mmac _ _ _ hb _ _ _ thb _ => if hb then [b thb (op 0) (op 1)] else []
  | _ => []

/-- A handle-fed quad operation (R313). -/
def handleFed (q : MxReq) : Bool :=
  (MxShape.of q.shape).q && match q.instr with | .mma _ _ _ ha hb .. => ha || hb | _ => false

/-! ### Issuing (R8, R216, R299, R300) -/

/-- What issuing a matrix operation comes to. -/
inductive MxIssue where
  | hold
  | fault (f : FaultRec)
  | done (s : State)

/-- A request with the shape, the list header and the number it has at issue. -/
def mxAtIssue (t : Team) (q : MxReq) : MxReq :=
  { q with
    shape := t.mxshape
    list := match q.instr with
      | .mgather .. => Mem.read32 t.scratch (((q.ops[2]?).getD 0).toNat % 2 ^ 32)
      | _ => 0
    num := BitVec.ofNat 16 (dbits t.qseq 32 16 + 1) }

/-- Issues a request to the matrix engine, with the copies it raises before it. `s1` is the state in which the
packet has gone on. -/
def mxIssue (i : Instr) (s s1 : State) (h : Here) (q0 : MxReq) : MxIssue :=
  let q := mxAtIssue h.t q0
  let p := MxShape.of q.shape
  -- the header of an index list is read once the stores of its group before it are in the scratchpad
  let ready := match q.instr with
    | .mgather .. => performedAt s q.gid s.serial .team
    | _ => true
  let full := !queueRoom s h.c.core (.mzero 0 none 0) ||
    (match s.group? q.gid with
     | some g => g.saturated q.flags
     | none => false)
  match mxFault s h.t q h.lead with
  | some f => if full || !ready then .hold else .fault f
  | none =>
    let mx := s1.serial + (raisedCopies h.t q 0).length
    let copies := raisedCopies h.t q mx
    let waiting := ((s.coreOps h.c.core).filter (inQueue .lfree)).length
    let copyRanges := copies.map fun c => c.ranges h.t.asid h.t.tid (!p.q || c.mask.getLsbD (ownBit h.t true))
    let own := (mxRanges p q).map fun r =>
      { dest := r.dest, asid := none, tid := h.t.tid, lo := r.off, hi := r.off + r.len : Rng }
    if full || !ready || (!copies.isEmpty && 32 < ((s.coreOps h.c.core).filter (inQueue (.thdl 0 (.v 0)))).length + copies.length) ||
        (rltFree s h.c.core 0 56).length < own.length + (copyRanges.map List.length).sum || 32 < waiting then .hold
    else
      let s2 := (List.zip copies copyRanges).foldl (fun s c =>
        (rltAdd s h.c.core s.serial 0 c.2).addOp { mkOp i h s (.copy c.1) [] with flags := [], still := 0 }) s1
      let s3 := (rltAdd s2 h.c.core s2.serial 0 own).addOp
        { mkOp i h s (.matrix q) [] with gid := q.gid, flags := q.flags, still := 0 }
      .done (if handleFed q then s3.updTeam h.t.tid fun t => { t with qseq := setBits t.qseq 32 16 q.num.toNat } else s3)

/-- A request cannot issue now: its packet is held (R8, R38, R61, R216). -/
def mxHeld (s : State) (h : Here) (q : MxReq) : Bool :=
  match mxIssue q.instr s s h q with
  | .hold => true
  | _ => false

/-- MATRIX_LOST, which clears the mark (R320). -/
def lostTrap (s : State) (h : Here) : State :=
  (s.updTeam h.t.tid fun t => { t with lost := false, lostNow := false }).trapPacket h.c h.act (plainFault fMatrixLost)
    (allOwn h.act (plainFault fMatrixLost))

/-- A class X word: a team marked lost takes MATRIX_LOST (R320). -/
def lostFirst (s : State) (h : Here) (k : Here → State) : State := if h.t.lost then lostTrap s h else k h

/-- CONVERGENCE of a register. -/
abbrev cvFault (cv : BitVec 4) : FaultRec := plainFault fConvergence cv.toNat

/-- Convergence register `cv` of a team rewritten. -/
abbrev setCv (s : State) (tid : Nat) (cv : BitVec 4) (c : Conv) : State :=
  s.updTeam tid fun t => { t with cv := vset t.cv cv.toNat c }

/-- Signs a convergence register for the active fibres, with a matrix operation or without (R85). -/
def sign (i : Instr) (cv : BitVec 4) (op : Option MxReq) (s : State) (h : Here) : State :=
  let r := vget h.t.cv cv.toNat {}
  let a := (lanesOf h.act).length
  let trap := fun (s : State) (f : FaultRec) => s.trapPacket h.c h.act f (allOwn h.act f)
  if r.n = 0 ∨ r.n < r.c + a then trap s (cvFault cv)
  else
    let captured := match op with
      | some q => some q
      | none => r.captured
    if r.c + a < r.n then
      (setCv s h.t.tid cv { r with c := r.c + a, captured := captured }).advance h.c i.words
    else match captured with
      | none => trap (setCv s h.t.tid cv {}) (cvFault cv)
      | some q =>
        if h.t.lost then lostTrap (setCv s h.t.tid cv {}) h
        else match mxIssue i s (s.advance h.c i.words) h q with
        | .hold => s.hold h.c h.t.asid []
        | .fault f => trap (setCv s h.t.tid cv {}) f
        | .done s1 => setCv s1 h.t.tid cv {}

/-- The active fibres' signatures complete a convergence register (R85). -/
abbrev completes (h : Here) (cv : BitVec 4) : Bool :=
  (vget h.t.cv cv.toNat {}).n != 0 && (vget h.t.cv cv.toNat {}).c + (lanesOf h.act).length == (vget h.t.cv cv.toNat {}).n

/-- The request of a matrix instruction: with the operands of the lowest active fibre, and signed those of the highest
(R85, R299). -/
def mxReqOf (i : Instr) (cv : SignCv) (h : Here) (ins : List LaneIn) : MxReq :=
  let x := match cv with
    | some _ => ins.getLast?
    | none => ins.head?
  { instr := i, gid := h.g.gid, flags := setFlags h.hdr, ops := (x.map fun (y : LaneIn) => y.a).getD [] }

/-- A matrix instruction with a sign field: signed, or one operation per packet with the operands of the lowest
active fibre (R299). A completing signature that takes MATRIX_LOST clears its set (R300). -/
def matrixOp (i : Instr) (cv : SignCv) (s : State) : Out :=
  issue i s fun h =>
    if h.t.lost then
      lostTrap (match cv with
        | some cv => if completes h cv then setCv s h.t.tid cv {} else s
        | none => s) h
    else withOperands i s h fun ins s =>
      let q := mxReqOf i cv h ins
      match cv with
      | some cv => sign i cv (some q) s h
      | none => match mxIssue i s (s.advance h.c i.words) h q with
        | .hold => s.hold h.c h.t.asid []
        | .fault f => s.trapPacket h.c h.act f (allOwn h.act f)
        | .done s1 => s1

/-- `MZERO` (R301). -/
def execMzero (at_ : BitVec 6) (cv : SignCv) (n1 : BitVec 6) (s : State) : Out := matrixOp (.mzero at_ cv n1) cv s

/-- `MMA` (R305). -/
def execMma (at_ : BitVec 6) (cv : SignCv) (z ha hb : Bool) (a b origin : Src) (tha thb : BitVec 5) (s : State) : Out :=
  matrixOp (.mma at_ cv z ha hb a b origin tha thb) cv s

/-- `MMAC` (R308). -/
def execMmac (at_ : BitVec 6) (cv : SignCv) (z hb : Bool) (b : Src) (as_ : BitVec 6) (sh : BitVec 5) (thb : BitVec 5)
    (origin : Src) (s : State) : Out := matrixOp (.mmac at_ cv z hb b as_ sh thb origin) cv s

/-- `MLOAD` (R302). -/
def execMload (at_ : BitVec 6) (cv : SignCv) (t : Bool) (n1 : BitVec 5) (a : Src) (s : State) : Out :=
  matrixOp (.mload at_ cv t n1 a) cv s

/-- `MSTORE` (R303). -/
def execMstore (at_ : BitVec 6) (cv : SignCv) (t : Bool) (n1 : BitVec 5) (a : Src) (conv : MxConv) (am : Option Scope)
    (sh : BitVec 5) (addr : Src) (s : State) : Out := matrixOp (.mstore at_ cv t n1 a conv am sh addr) cv s

/-- `MGATHER` (R310). -/
def execMgather (at_ : BitVec 6) (cv : SignCv) (z : Bool) (a b list : Src) (s : State) : Out :=
  matrixOp (.mgather at_ cv z a b list) cv s

/-- `MSHAPE` (R294, R295): it takes effect at issue. -/
def execMshape (mt nt : BitVec 4) (fa fb : MxForm) (acc : MxAcc) (sa sb q : Bool) (k : BitVec 16) (s : State) : Out :=
  let i := Instr.mshape mt nt fa fb acc sa sb q k
  issue i s fun h => lostFirst s h fun h =>
    if q && !h.t.launch.factor4 then
      s.trapPacket h.c h.act (plainFault fMcastRange) (allOwn h.act (plainFault fMcastRange))
    else
      let w := encode i
      (s.updTeam h.t.tid fun t => { t with mxshape := pairOf (w.headD 0) ((w[1]?).getD 0) }).advance h.c i.words

/-- `CVSET` (R84, R85): once per packet. -/
def execCvset (cv : BitVec 4) (n : Src) (s : State) : Out :=
  issue (.cvset cv n) s fun h => withOperands (.cvset cv n) s h fun ins s =>
    let v := (((ins.head?).map fun (x : LaneIn) => x.w 0).getD 0).toNat
    let r := vget h.t.cv cv.toNat {}
    if v = 0 ∨ 1024 < v ∨ (0 < r.c ∧ r.c < r.n) then
      s.trapPacket h.c h.act (cvFault cv) (allOwn h.act (cvFault cv))
    else (setCv s h.t.tid cv { n := v }).advance h.c (Instr.cvset cv n).words

/-- `SIGN` (R84, R85). -/
def execSign (cv : BitVec 4) (s : State) : Out := issue (.sign cv) s fun h => sign (.sign cv) cv none s h

/-- The sign field of a matrix instruction (R299). -/
def signField : Instr → Option SignCv
  | .mzero _ cv _ | .mma _ cv .. | .mmac _ cv .. | .mload _ cv .. | .mstore _ cv .. | .mgather _ cv .. => some cv
  | _ => none

/-- A signature that completes its set is held while the captured operation cannot issue (R85). -/
def signHeld (s : State) (h : Here) (cv : BitVec 4) (op : Option MxReq) : Bool :=
  completes h cv && match (op.or (vget h.t.cv cv.toNat {}).captured) with
    | some q => mxHeld s h q
    | none => false

/-- What holds a packet at a copy, a matrix operation or a signature beyond its queue: the range-lock table, and for a
completing signature what its operation needs (R61, R85, R216). -/
def engineHeld (i : Instr) (s : State) (h : Here) : Bool :=
  match i with
  | .cpyi th plain bulk _ _ status stage => copyHeld i th (cpyiReq plain bulk status stage) s h
  | .cpyo th bulk tf _ _ status sr am => copyHeld i th (cpyoReq bulk tf status sr am) s h
  | .cpym th plain quad _ _ status stage mask => copyHeld i th (cpymReq plain quad status stage mask) s h
  | .sign cv => !h.t.lost && signHeld s h cv none
  | _ => !h.t.lost && match signField i with
    | none => false
    | some none => mxHeld s h (mxReqOf i none h (peekOperands i s h))
    | some (some cv) => signHeld s h cv (some (mxReqOf i (some cv) h (peekOperands i s h)))

/-- `MFENCE` (R317): the packet's fibres are held until the team's earlier matrix operations have reported. -/
def execMfence (s : State) : Out :=
  issue .mfence s fun h => lostFirst s h fun h =>
    let s1 := s.advance h.c 1
    if matrixBefore s h.t.tid s.serial then
      (s1.addOp { mkOp .mfence h s (.stageWait .mfence 0) [] with holds := true, still := 0 }).dropLanes h.g.gid h.act
    else s1

/-! ### Performing an operation (R296 to R311, R316) -/

/-- An operation of the matrix engine that waits or runs, with its request and team. -/
def matrixOf (s : State) (id : Nat) : Option (Op × MxReq × Team) :=
  match s.op? id with
  | none => none
  | some o => match o.kind, s.team? o.tid with
    | .matrix q, some t => some (o, q, t)
    | _, _ => none

/-- A row of A that lies in the scratchpad. -/
def scratchRow (p : MxShape) (mem : List Host.Cell) (a lines i : Nat) : ARow :=
  { step := fun st => (tileStep mem a (formCanon p.fa) p.k i st, false)
    scale := fun st => tileScale mem a (formCanon p.fa) p.sa lines p.k i st }

/-- A row of A that lies in the accumulator store (R308, R309). -/
def accRow (p : MxShape) (t : Team) (as_ sh i : Nat) : ARow :=
  { step := fun st =>
      let c := formCanon p.fa
      let l := (List.range c.step).map fun e =>
        let k := st * c.step + e
        if p.k ≤ k then (Elem.fin false 0 0, false)
        else downConvert c sh (((t.sub (as_ + i / 16 * (p.k / 16) + k / 16))[i % 16 * 16 + k % 16]?).getD 0)
      (l.map (·.1), l.any (·.2))
    scale := fun _ => none }

/-- Block q of a sub-tile image as words, transposed or not. -/
def blockWords (t : Bool) (f : Nat → Word) : List Word :=
  (List.range 256).map fun e => if t then f (e % 16 * 16 + e / 16) else f e

/-- One element as `MSTORE` writes it, and whether a clamp changed it (R303). -/
def convStore (conv : MxConv) (sh : Nat) (w : Word) : List Byte × Bool :=
  let int := fun (n : Nat) (lo hi : Int) =>
    let v := w.toInt / (2 ^ sh : Int)
    let r := max lo (min hi v)
    (leBytes n (r % 2 ^ (8 * n)).toNat, r != v)
  match conv with
  | .tf32 => (leBytes 4 (tap32.ofIeee fmt32 w.toNat).1, false)
  | .bf16 => (leBytes 2 (storeElem 0x01 0 .f32 w none), false)
  | .f16 => (leBytes 2 (storeElem 0x02 0 .f32 w none), false)
  | .i8 => int 1 (-128) 127
  | .i16 => int 2 (-32768) 32767
  | _ => (leBytes 4 w.toNat, false)

/-- The bytes of an `MSTORE`, its clamp flag and its absolute maximum (R303, R304). -/
def storeOut (t : Team) (d n : Nat) (conv : MxConv) (sh : Nat) (tr : Bool) : List Byte × Bool × Word :=
  let src : PlainSrc := if conv = .i8 ∨ conv = .i16 then .i32 else .f32
  let word := fun (k e : Nat) => ((t.sub k)[e]?).getD 0
  let blocks := List.range n
  let m := (blocks.flatMap fun q => (List.range 256).map fun e => magOf src (word (d + q) e)).foldl max 0
  let place := fun (e : Nat) => if tr then e % 16 * 16 + e / 16 else e
  let out := blocks.flatMap fun q => (List.range 256).map fun e =>
    if conv = .raw64 then (leBytes 8 (pairOf (word (d + 2 * q + 1) (place e)) (word (d + 2 * q) (place e))).toNat, false)
    else convStore conv sh (word (d + q) (place e))
  (out.flatMap (·.1), out.any (·.2), BitVec.ofNat 32 m)

/-- What a multiply reads and writes: first sub-tile of its result, offset of B, whether it zeroes the result, and its
result rows with their rows of A; a gathered row whose index has no line has none (R306, R308, R311). -/
def multiplyOf (t : Team) (q : MxReq) : Option (Nat × Nat × Bool × List (Nat × Option ARow)) :=
  let p := MxShape.of q.shape
  let op := fun (i : Nat) => ((q.ops[i]?).getD 0).toNat % 2 ^ 32
  match q.instr with
  | .mma d _ z .. => some (d.toNat, op 1, z, (List.range p.rows).map fun i => (i, some (scratchRow p t.scratch (op 0) p.rows i)))
  | .mmac d _ z _ _ as_ sh .. =>
    some (d.toNat, op 0, z, (List.range p.m).map fun i => (i, some (accRow p t as_.toNat sh.toNat i)))
  | .mgather d _ z .. =>
    let la := wbits q.list 16 16
    some (d.toNat, op 1, z, (List.range (wbits q.list 0 16)).map fun r =>
      let i := (Mem.read32 t.scratch (op 2 + 4 * (r + 1))).toNat
      (r, if la ≤ i then none else some (scratchRow p t.scratch (op 0) la i)))
  | _ => none

/-- A gathered index has no line (R311). -/
abbrev idxBeyond (q : MxReq) (rows : List (Nat × Option ARow)) : Bool :=
  match q.instr with
  | .mgather .. => rows.any fun r => r.2.isNone
  | _ => false

/-- What is left of an operation once its K-steps are made: `wait` while some are not, or while its atomic cannot be
made; the failure of its atomic. -/
def mxEffect (s : State) (o : Op) (q : MxReq) (t : Team) : Eng Unit :=
  let op := fun (i : Nat) => ((q.ops[i]?).getD 0).toNat % 2 ^ 32
  let upd := fun (f : Team → Team) => Eng.done () none (s.updTeam t.tid f)
  match multiplyOf t q with
  | some (_, _, _, rows) =>
    if q.next < (MxShape.of q.shape).steps then .wait
    else upd fun t => orStat t false false (idxBeyond q rows)
  | none => match q.instr with
    | .mzero d _ n1 =>
      upd fun t => (List.range (n1.toNat + 1)).foldl (fun t k => putSub t (d.toNat + k) (List.replicate 256 0)) t
    | .mload d _ tr n1 _ =>
      upd fun t => (List.range (n1.toNat + 1)).foldl (fun t k =>
        putSub t (d.toNat + k) (blockWords tr fun e => Mem.read32 t.scratch (op 0 + 1024 * k + 4 * e))) t
    | .mstore d _ tr n1 _ conv am sh _ =>
      let (bytes, clamp, m) := storeOut t d.toNat (n1.toNat + 1) conv sh.toNat tr
      let s1 := (writeScratch s t.tid (op 0) bytes).updTeam t.tid fun t => orStat t false clamp false
      (match am with
       | none => .done () none s1
       | some sc => if !performedAt s1 o.gid o.id sc then .wait else engMaxn s1 o.asid o.core ((q.ops[1]?).getD 0).toNat m o.user)
    | _ => .done () none s

/-- An earlier operation of the core's engine, of a resident team, is not done (R8, R316). -/
def mxEarlier (s : State) (core id : Nat) : Bool :=
  s.ops.any fun o => o.core == core && o.id < id && match o.kind with
    | .matrix _ => ((s.team? o.tid).map Team.resident).getD false
    | .batch .. => true
    | _ => false

/-- The next K-step of a running multiply (R318): none while a save is under way. -/
def mxStep (s : State) (id : Nat) : Option State :=
  match matrixOf s id with
  | none => none
  | some (o, q, t) => match multiplyOf t q with
    | none => none
    | some (d, b, z, rows) =>
      let p := MxShape.of q.shape
      if !q.started || q.failed.isSome || t.phase != .running || engineFrozen s o.core || mxEarlier s o.core id ||
          p.steps ≤ q.next then none
      else some ((s.updTeam t.tid fun t => kStep p d b z q.next t.scratch rows t).updOp id fun o =>
        { o with kind := .matrix { q with next := q.next + 1 } })

/-- A failure recorded in MXERR, with its address in CPERRVA (R307, R321). -/
def mxError (s : State) (tid : Nat) (cause : BitVec 3) (va : Option Dword) : State :=
  s.updTeam tid fun t => { t with mxerr := errRecord t.mxerr cause, cperrva := va.getD t.cperrva }

/-- The state after a matrix operation completes (R316). -/
def matrixResult (s : State) (id : Nat) : Option State :=
  match matrixOf s id with
  | none => none
  | some (o, q, t) =>
    let finish := fun (s : State) => settleFences ((rltDrop s id).finishOp id) t.tid
    if !q.started then none
    else match q.failed with
      | some (c, va) => some (finish (mxError s t.tid c (if c = 1 then none else some va)))
      | none => match mxEffect s o q t with
        | .wait => none
        | .stage2 g => engHalts s o g
        | .done _ none s1 => some (finish s1)
        | .done _ (some (c, va)) s1 => some (finish (mxError s1 t.tid c (some (BitVec.ofNat 64 va))))

/-- The fills that a handle-fed quad operation waits for have come (R313). -/
def fillsCame (t : Team) (q : MxReq) : Bool :=
  !handleFed q ||
  let got := fun (lo : Nat) => (BitVec.ofNat 16 (dbits t.qseq lo 16) - q.num).toNat < 2 ^ 15
  match q.instr with
  | .mma _ _ _ ha hb .. => (!ha || got 16) && (!hb || got 0)
  | _ => true

/-- A copy raised for an operation is still on its way. -/
def fedBy (s : State) (id : Nat) : Bool :=
  s.ops.any fun o => match o.kind with | .copy c => (c.feeds.map (·.1)) == some id | _ => false

/-- An operation starts when every earlier one of the engine is done: what has started behind a multiply would be neither
finished nor kept at a save (R316, R318). A batch starts reading when its depositors' earlier stores and atomics have
been performed (R219). -/
def enabledMatrixOpStart (s : State) (id : Nat) : Bool :=
  match s.op? id with
  | none => false
  | some o => !engineFrozen s o.core && !mxEarlier s o.core id && match o.kind with
    | .batch rows st => !st && rows.all fun r => performedAt s r.gid r.op .team
    | .matrix q => match s.team? o.tid with
      | none => false
      | some t => !q.started && t.resident && !rltBlocked s id && !fedBy s id && fillsCame t q && performedAt s q.gid id .team
    | _ => false

def doMatrixOpStart (s : State) (id : Nat) : State :=
  s.updOp id fun o => match o.kind with
    | .matrix q => { o with kind := .matrix { q with started := true } }
    | .batch r _ => { o with kind := .batch r true }
    | _ => o

/-- `MATRIX_OP_START` (R316). -/
def execMatrixOpStart (op : Nat) (s : State) : Out :=
  whenEnabled (enabledMatrixOpStart s op) s fun s => doMatrixOpStart s op

def enabledMatrixOpComplete (s : State) (id : Nat) : Bool :=
  match matrixOf s id with
  | none => false
  | some (o, _, t) => t.phase != .saved && !engineFrozen s o.core && !mxEarlier s o.core id && (matrixResult s id).isSome

/-- `MATRIX_OP_COMPLETE` (R316). -/
def execMatrixOpComplete (op : Nat) (s : State) : Out :=
  whenEnabled (enabledMatrixOpComplete s op) s fun s => (matrixResult s op).getD s

/-! ### The batch-forming queue (R314, R315) -/

/-- Core 0 of a core's cluster. -/
abbrev queueCore (core : Nat) : Nat := core / 8 * 8

/-- The queue is enabled. -/
abbrev Core.bqOn (k : Core) : Bool := k.bqctl.getLsbD 31

/-- The plan block's fields. -/
abbrev planBase (q : Quad) : Nat := q.toNat % 2 ^ 64
abbrev planK (q : Quad) : Nat := nbits q.toNat 80 16
abbrev planN (q : Quad) : Nat := nbits q.toNat 72 8
abbrev planForm (q : Quad) : Nat := nbits q.toNat 69 3
abbrev planSb (q : Quad) : Bool := q.getLsbD 68

/-- A plan that passes its check (R314). -/
def planOk (q : Quad) : Bool :=
  planBase q % 256 == 0 && planBase q < 2 ^ 56 && 1 ≤ planK q && planN q % 16 == 0 && 16 ≤ planN q && planN q ≤ 128 &&
    (planForm q == 0 || planForm q == 2) && (!planSb q || planForm q == 0) && nbits q.toNat 64 4 == 0 && nbits q.toNat 96 32 == 0

/-- The shape that a plan gives a pass (R314, R315). -/
def planShape (q : Quad) : MxShape :=
  let form : MxForm := if planForm q = 2 then .k32 else .k16
  { m := 16, n := planN q, k := planK q, fa := form, fb := form, acc := .f32, sa := false, sb := planSb q, q := false }

/-- Bytes of a plan's weight tile. -/
abbrev planBytes (q : Quad) : Nat := canonBytes (planN q) (planK q) (formCanon (planShape q).fb) (planSb q)

/-- The rows queued form a batch, oldest first, up to 128 (R315): one operation of core 0's matrix queue. -/
def formBatch (s : State) (core : Nat) : State :=
  let k := s.coreOf core
  if k.bqrows.isEmpty then s
  else
    let s1 := s.updCore core fun k => { k with bqrows := k.bqrows.drop 128 }
    let weights : Unlocked :=
      { owner := s1.serial, id := s1.serial, asid := k.bqasid, lo := planBase k.bqblock
        hi := planBase k.bqblock + planBytes k.bqblock }
    let s2 : State := { s1 with unlocked := s1.unlocked ++ [weights] }
    s2.addOp { core := core, gid := s1.serial, tid := s1.serial, asid := k.bqasid, lanes := 1, since := s.now,
               kind := .batch (k.bqrows.take 128) false }

/-- The bytes of a row and of its results, which no range covers (R315). -/
def rowRanges (plan : Quad) (asid : Nat) (r : BqRow) : List Unlocked :=
  [{ owner := r.op, id := r.rid, dest := false, asid := asid, lo := r.row.toNat, hi := r.row.toNat + 4 * planK plan },
   { owner := r.op, id := r.rid, dest := true, asid := asid, lo := r.res.toNat, hi := r.res.toNat + 4 * planN plan }]

/-- `BENQ` (R315). -/
def execBenq (pd : BitVec 6) (row res : Src) (s : State) : Out :=
  issue (.benq pd row res) s fun h => lostFirst s h fun h => withOperands (.benq pd row res) s h fun ins s =>
    let qc := queueCore h.c.core
    let k := s.coreOf qc
    let ok := k.bqOn && k.bqasid == h.t.asid
    if ok && 128 < k.bqrows.length + ins.length then s.hold h.c h.t.asid []
    else
      let s1 := (s.updGroup h.g.gid fun g => (lanesOf h.act).foldl (fun (g : Group) i =>
        g.setLane i ((g.lane i).setPred pd.toNat ok)) g).advance h.c (Instr.benq pd row res).words
      if !ok then s1
      else
        let since := (s.clusterOf (clusterNo qc)).cycles
        let rows := ins.zipIdx.map fun p => ({ gid := h.g.gid, op := s1.serial, row := p.1.s 0, res := p.1.s 1, since := since,
                                               rid := s1.serial + 1 + p.2 } : BqRow)
        let s2 := (s1.updCore qc fun k => { k with bqrows := k.bqrows ++ rows }).addOp
          { mkOp (.benq pd row res) h s .benq [] with still := 0 }
        let s2 : State := { s2 with
          serial := s2.serial + rows.length, unlocked := s2.unlocked ++ rows.flatMap (rowRanges k.bqblock h.t.asid) }
        if 128 ≤ ((s2.coreOf qc).bqrows).length then formBatch s2 qc else s2

/-- The oldest row has waited as long as BQCTL allows (R315, R321). -/
def enabledBatchTimeout (s : State) (core : Nat) : Bool :=
  let k := s.coreOf core
  match k.bqrows with
  | [] => false
  | r :: _ => (r.since + (if wbits k.bqctl 0 12 = 0 then 4096 else wbits k.bqctl 0 12)) ≤ (s.clusterOf (clusterNo core)).cycles

/-- `BATCH_TIMEOUT` (R315). -/
def execBatchTimeout (core : Nat) (s : State) : Out :=
  whenEnabled (enabledBatchTimeout s core) s fun s => formBatch s core

/-- One row against the plan: its N results in f32 (R315). -/
def batchRow (plan : Quad) (weights : List Host.Cell) (row : List Byte) : List Byte :=
  let p := planShape plan
  let c := formCanon p.fa
  let a : ARow :=
    { step := fun st => ((List.range c.step).map fun e =>
        let k := st * c.step + e
        if p.k ≤ k then Elem.fin false 0 0
        else (downConvert c 0 (BitVec.ofNat 32 (leNat ((row.drop (4 * k)).take 4)))).1, false)
      scale := fun _ => none }
  (List.range p.n).flatMap fun j =>
    leBytes 4 ((List.range p.steps).foldl (fun v st => (accStep p 0 weights (some a) j st v).1) 0).toNat

/-- A row's results: the weights read under the plan's context, and the row under the depositor's, whose core has issued
it (R219, R315). -/
def runRow (s : State) (core bq : Nat) (plan : Quad) (o : Op) (r : BqRow) : Eng (List Byte) :=
  (engRead s bq core (planBase plan) (planBytes plan) false).bind [] fun w s =>
    (engRead s o.asid o.core r.row.toNat (4 * planK plan) o.user).bind [] fun row s =>
      .done (batchRow plan (Mem.write [] 0 w) row) none s

/-- A sector that result `j` of a batch is computed from has been stored to (R221). -/
def columnDisturbed (s : State) (batch : Nat) (plan : Quad) (j : Nat) : Bool :=
  let c := formCanon (planShape plan).fb
  let at_ := fun (off : Nat) => s.disturbed.contains (batch, false, (planBase plan + off) / 128)
  s.disturbed.any (fun d => d.1 == batch) &&
    ((List.range (planK plan)).any (fun k => at_ (canonOff c (planK plan) j k)) ||
      (planSb plan && (List.range (ceilDiv (planK plan) 32)).any fun b => at_ (scaleOff c (planN plan) (planK plan) j b)))

/-- A row's results as they are written: free where they depend on a sector that has been stored to (R221). -/
def rowBytes (s : State) (batch : Nat) (plan : Quad) (r : BqRow) (l : List Byte) : List Byte :=
  l.zipIdx.map fun p =>
    if s.disturbed.any (fun d => d.1 == r.rid && !d.2.1) || columnDisturbed s batch plan (p.2 / 4) then
      Config.freeByte (s.tick + p.2) else p.1

/-- Results of a packet's rows whose row or whose own sectors were stored to are undefined when it reports (R221, R315). -/
def freeRows (s : State) (o : Op) : State :=
  (s.unlocked.filter fun u => u.owner == o.id && u.dest).foldl (fun s u =>
    let all := s.disturbed.any fun d => d.1 == u.id && !d.2.1
    (sectorPieces u.lo (u.hi - u.lo)).foldl (fun s p =>
      if all || s.disturbed.contains (u.id, true, p.1 / 128) then freeSector o.asid o.core o.user p s else s) s) s

/-- A packet whose every row is done reports (R315). -/
def settleRows (s : State) (rows : List BqRow) : State :=
  (rows.map (·.op)).eraseDups.foldl (fun s id =>
    if (s.cores.any fun k => k.bqrows.any fun r => r.op = id) ||
        s.ops.any (fun o => match o.kind with | .batch l _ => l.any fun r => r.op = id | _ => false) then s
    else match s.op? id with
      | none => s.unlock id
      | some o => ((freeRows s o).finishOp id).unlock id) s

/-- The next move of a started batch (R219, R315): the results of its next row are computed, or a sector of them is
written, once every one that is left can be. -/
def batchStep (s : State) (id : Nat) : Option State :=
  match s.op? id with
  | none => none
  | some b => match b.kind with
    | .batch (r :: rest) true =>
      let put := fun (s : State) (l : List BqRow) => s.updOp id fun b => { b with kind := .batch l true }
      let next := fun (s : State) => some (settleRows (put s rest) [r])
      let plan := (s.coreOf b.core).bqblock
      if engineFrozen s b.core || mxEarlier s b.core id then none
      else (match s.op? r.op with
      | none => next s
      | some o =>
        let failed := fun (s : State) (f : BitVec 3 × Nat) => next (mxError s o.tid f.1 (some (BitVec.ofNat 64 f.2)))
        match r.out with
        | none => (match runRow s b.core b.asid plan o r with
          | .wait => none
          | .stage2 f => engHalts s o f
          | .done l none s1 => some (put s1 ({ r with out := some l } :: rest))
          | .done _ (some f) s1 => failed s1 f)
        | some l =>
          let left := (sectorPieces r.res.toNat l.length).drop r.pos
          let write := fun (ps : List (Nat × Nat)) =>
            engWritePieces o.asid o.core o.user r.res.toNat (rowBytes s id plan r l) ps { s with tick := s.tick + l.length }
          match write left with
          | .wait => none
          | .stage2 f => engHalts s o f
          | .done _ (some f) _ => failed s f
          | .done _ none s1 =>
            if left.length ≤ 1 then next s1
            else match write (left.take 1) with
              | .done _ none s2 => some (put s2 ({ r with pos := r.pos + 1 } :: rest))
              | _ => none)
    | _ => none

/-- Writes of BQCTL that wait for the final batch go on when the queue's engine has none left (R314). -/
def settleBq (s : State) (core : Nat) : State :=
  if s.ops.any fun o => o.core == core && match o.kind with | .batch .. => true | _ => false then s
  else settleWrites s (.bqctlDisable core 0)

/-- The state after a batch whose rows are done. -/
def batchResult (s : State) (id : Nat) : Option State :=
  match s.op? id with
  | none => none
  | some o => match o.kind with
    | .batch [] true =>
      some (settleBq ((s.updCore o.core fun k =>
        { k with bqstat := BitVec.ofNat 32 ((k.bqstat.toNat + 1) % 2 ^ 16) }).finishOp id |>.unlock id) o.core)
    | _ => none

def enabledBatchComplete (s : State) (id : Nat) : Bool :=
  match s.op? id with
  | none => false
  | some o => !engineFrozen s o.core && !mxEarlier s o.core id && (batchResult s id).isSome

/-- `BATCH_COMPLETE` (R315). -/
def execBatchComplete (op : Nat) (s : State) : Out :=
  whenEnabled (enabledBatchComplete s op) s fun s => (batchResult s op).getD s

/-- Sub-tiles of a core that its queue holds: 8 while it is enabled, and until its final batch has run (R314). -/
def bqHolds (s : State) (core : Nat) : Nat :=
  if (s.coreOf core).bqOn || s.ops.any (fun o => o.core == core && match o.kind with | .batch .. => true | _ => false) then 8 else 0

/-- A write of BQCTL with EN = 0: the rows queued run as a final batch (R314). -/
def bqOff (s : State) (core : Nat) (v : Word) : State :=
  formBatch (s.updCore core fun k => { k with bqctl := BitVec.ofNat 32 (wbits v 0 12) }) core

/-- A write of BQCTL waits while the page of the plan that it has to read migrates (R157). -/
def bqctlWaits (s : State) (core asid : Nat) (v : Word) : Bool :=
  core % 8 == 0 && v.getLsbD 31 && rangeMigrates s asid ((s.coreOf core).bqplan.toNat % 2 ^ 56) 16

/-- A write of BQCTL with EN = 1 by a context: the plan is read and checked, and 8 sub-tiles are taken (R314). A plan that
cannot be read does not pass. -/
def bqOnBy (s : State) (core asid : Nat) (v : Word) : State :=
  let k := s.coreOf core
  let (bad, s) := rangeBad s asid (k.bqplan.toNat % 2 ^ 56) 16
  let plan := (vread s asid (k.bqplan.toNat % 2 ^ 56) 16).map fun l => BitVec.ofNat 128 (leNat l)
  let used := ((s.teams.filter fun t => t.core = core && t.phase != .saved && t.phase != .ended).map (·.nsub)).sum
  match plan with
  | some q =>
    if !bad && planOk q && used + (if k.bqOn then 0 else bqHolds s core) ≤ 56 then
      s.updCore core fun k => { k with bqctl := BitVec.ofNat 32 (2 ^ 31 + wbits v 0 12), bqblock := q, bqasid := asid }
    else bqOff s core v
  | none => bqOff s core v

/-- A write of BQCTL (R314, R321): only core 0 of a cluster has the queue. -/
def setBqctl (s : State) (core asid : Nat) (v : Word) : State :=
  if core % 8 ≠ 0 then s else if v.getLsbD 31 then bqOnBy s core asid v else bqOff s core v

/-- `BQCTL_ENABLE` (R314). -/
def execBqctlEnable (core asid : Nat) (value : Word) (s : State) : Out :=
  if bqctlWaits s core asid (setBits value 31 1 1) then .fault .notEnabled
  else fromOutside (.bqctlEnable core asid value) s fun s => setBqctl s core asid (setBits value 31 1 1)

/-- `BQCTL_DISABLE` (R314). -/
def execBqctlDisable (core : Nat) (value : Word) (s : State) : Out :=
  fromOutside (.bqctlDisable core value) s fun s => setBqctl s core 0 (setBits value 31 1 0)

/-! ### `MRESET` (R319) -/

/-- Resets the matrix engine of a core: its operations are abandoned and reported with cause 101, its rows
dropped, its teams' sub-tiles lost. -/
def resetEngine (s : State) (core : Nat) : State :=
  let mine := s.ops.filter fun o => o.core == core && match o.kind with | .matrix _ | .batch .. => true | _ => false
  let rows := (s.coreOf core).bqrows ++ mine.flatMap fun o => match o.kind with | .batch l _ => l | _ => []
  let owners := (rows.filterMap fun r => (s.op? r.op).map (·.tid)).eraseDups
  let s1 := mine.foldl (fun s o => match o.kind with
    | .matrix _ => settleFences ((rltDrop (mxError s o.tid 5 none) o.id).finishOp o.id) o.tid
    | _ => (s.finishOp o.id).unlock o.id) s
  let s2 := owners.foldl (fun s tid => mxError s tid 5 none) (s1.updCore core fun k => { k with bqrows := [] })
  let s3 := settleBq (settleRows s2 rows) core
  { s3 with teams := s3.teams.map fun t =>
      if t.core = core ∧ (t.resident ∨ t.phase = .starting) ∧ 0 < t.nsub then { t with subs := [], lost := true } else t }

/-- `MRESET` (R319): privileged. A number that no core has names no engine (COREID has 11 bits). -/
def execMreset (a : Src) (s : State) : Out :=
  issue (.mreset a) s fun h =>
    if h.user then s.fault h.c h.act fPrivilege
    else lostFirst s h fun h => withOperands (.mreset a) s h fun ins s =>
      let n := (((ins.head?).map fun (x : LaneIn) => x.w 0).getD 0).toNat
      let s1 := s.advance h.c (Instr.mreset a).words
      if n < 2048 then resetEngine s1 n else s1

end Sys2Proof.Machine
end

