-- ==== Sys2Proof/Machine/Governor.lean ====
section
/-!
DEFINITION. The governor (R374 to R387): beats, its registers, the core allotment, the law, the
supervisory allocator, interval boundaries, and loop records; and the step a clock region is to run at
(R23, R429).
-/

namespace Sys2Proof.Machine

open Sys2Proof

/-! ### `BEAT` (R374, R375) -/

/-- `BEAT` (R375): once per packet, with the lowest active fibre's count. -/
def execBeat (n : Src) (s : State) : Out :=
  issue (.beat n) s fun h => withOperands (.beat n) s h fun ins s =>
    let v := ((ins.head?).map fun (x : LaneIn) => (x.w 0).toNat).getD 0
    let add := min v 65535
    (s.updCore h.c.core fun k =>
      { k with beats := assocSet k.beats h.t.asid (min (((assoc k.beats h.t.asid).getD 0) + add) (2 ^ 32 - 1)) }).advance
        h.c (Instr.beat n).words

/-! ### Partitions and the core allotment (R381, R422) -/

/-- The cluster mask of partition `k`, as a number. -/
def partMask (mgmt : List Host.Cell) (k : Nat) : Nat := leNat (Mem.read mgmt (0x60000 + 0x1000 * k) 32)

/-- The partition of a context, if one names it (R422): its descriptor's, else the one that lists it as a guest. -/
def partitionOf (s : State) (asid : Nat) : Option Nat :=
  let p := (s.ctxOf asid).partition
  if p ≠ 0 then some (p - 1)
  else if s.host.mgmt.isEmpty then none
  else (guestEntry s.host.mgmt asid).map fun o => (o - 0x60000) / 0x1000

/-- The clusters a context belongs to, ascending (R381). -/
def clusterSet (s : State) (asid : Nat) : List Nat :=
  match partitionOf s asid with
  | some k => (List.range 256).filter fun c => (partMask s.host.mgmt k).testBit c
  | none =>
    if s.host.mgmt.isEmpty then List.range 256
    else
      let all := (List.range 16).foldl (fun m k => m ||| partMask s.host.mgmt k) 0
      (List.range 256).filter fun c => !all.testBit c

/-- The preference ring: from GVHOME's cluster up, wrapping (R381). -/
def ringOf (s : State) (asid : Nat) : List Nat :=
  let set := clusterSet s asid
  let home := (s.ctxOf asid).home % 256
  (set.filter fun c => home ≤ c) ++ set.filter fun c => c < home

/-- The core allotment of a context, as clusters in ring order (R381). -/
def allotment (s : State) (asid : Nat) : List Nat := (ringOf s asid).take ((s.ctxOf asid).gov.grantOf 1)

/-! ### Clock regions (R23, R429, R430) -/

/-- The cap that MGCAP names (R430). -/
abbrev Cluster.lowCap (c : Cluster) : Nat := if 9 < c.mgcap then 9 else c.mgcap

/-- The cap of a region: the lowest that holds (R429). -/
def Cluster.capNow (c : Cluster) : Nat :=
  let m := if c.margin = 0 then 0 else if c.margin = 1 then c.lowCap else 9
  min m (c.droopCap.getD 9)

/-- A team stands on a cluster, started or placed and not ended. -/
abbrev Team.holdsCore (t : Team) : Bool :=
  t.phase == .starting || t.phase == .running || t.phase == .saving

/-- The contexts resident on a cluster. -/
def clusterCtxs (s : State) (cl : Nat) : List Nat :=
  ((s.teams.filter fun t => t.holdsCore && clusterNo t.core == cl).map (·.asid)).eraseDups

/-- The step a region is to run at (R23, R429): the highest that a context resident on it is granted; before its first
allocation a context's grant is its position (R378). -/
def regionTarget (s : State) (cl : Nat) : Nat :=
  let l := (clusterCtxs s cl).map fun a => (s.ctxOf a).gov.grantOf 4
  min (l.foldl max 0) (s.clusterOf cl).capNow

/-! ### Registers (R378 to R380) -/

/-- Fields of GVSTAT: active slot, its sign, its count, imposed bits, misses, handoffs (R379). -/
structure GvStat where
  act : Nat
  hs : Nat
  h : Nat
  imp : Nat
  miss : Nat
  hand : Nat
  deriving DecidableEq, Repr

def GvStat.of (w : Word) : GvStat :=
  { act := wbits w 29 3, hs := wbits w 28 1, h := wbits w 24 4, imp := wbits w 19 5, miss := wbits w 8 8
    hand := wbits w 0 8 }

def GvStat.word (x : GvStat) : Word :=
  BitVec.ofNat 32 (x.act % 8 * 2 ^ 29 + x.hs % 2 * 2 ^ 28 + x.h % 16 * 2 ^ 24 + x.imp % 32 * 2 ^ 19 +
    x.miss % 256 * 2 ^ 8 + x.hand % 256)

/-- Actuator in slot `k` of an order. -/
abbrev orderSlot (o : Word) (k : Nat) : Nat := wbits o (3 * k) 3
abbrev orderCnt (o : Word) : Nat := wbits o 16 3

/-- An order that a write keeps: 1 to 5 actuators, each a code of R381 and named once (R380). -/
def orderOk (o : Word) : Bool :=
  let l := (List.range (orderCnt o)).map (orderSlot o)
  1 ≤ orderCnt o && orderCnt o ≤ 5 && l.all (· ≤ 4) && l.eraseDups.length == l.length

/-- Range of an actuator (R381). -/
def actRange (a : Nat) : Nat × Nat :=
  match a with
  | 0 => (1, 64) | 1 => (1, 256) | 2 => (1, 16) | 3 => (1, 64) | _ => (0, 9)

abbrev Gov.lo (g : Gov) (a : Nat) : Nat := wbits (vget g.bnd a 0) 0 16
abbrev Gov.hi (g : Gov) (a : Nat) : Nat := wbits (vget g.bnd a 0) 16 16
abbrev Gov.posOf (g : Gov) (a : Nat) : Nat := wbits (vget g.pos a 0) 0 16

/-- Bounds that a write keeps (R380). -/
def bndOk (a : Nat) (v : Word) : Bool :=
  wbits v 0 16 ≤ wbits v 16 16 && (actRange a).1 ≤ wbits v 0 16 && wbits v 16 16 ≤ (actRange a).2

/-- A value between bounds. -/
abbrev clampNat (x lo hi : Nat) : Nat := max lo (min x hi)

/-- A write of a register of the governor by its number, with privilege (R378 to R380). -/
def Gov.write (g : Gov) (num : Nat) (v : Dword) (fresh : Bool) : Gov :=
  let w : Word := v.setWidth 32
  if num = 0x400 then
    let on := w.getLsbD 31 && !g.ctl.getLsbD 31
    let g1 := { g with ctl := w &&& 0xC00FFFFF }
    if on then { g1 with first := fresh, stat := GvStat.word { GvStat.of g.stat with h := 0, act := 0 } } else g1
  else if num = 0x401 then { g with target := w &&& 0xFFFF }
  else if num = 0x402 then { g with gain := w }
  else if num = 0x403 then { g with imax := w &&& 0x7FFFFFFF }
  else if num = 0x404 then { g with integ := w }
  else if num = 0x406 then
    if orderOk w then
      { g with order := w &&& 0x7FFFF, integ := 0, stat := GvStat.word { GvStat.of g.stat with h := 0, act := 0 } }
    else g
  else if 0x410 ≤ num ∧ num ≤ 0x414 then
    let a := num - 0x410
    { g with pos := vset g.pos a (BitVec.ofNat 32 (clampNat (wbits w 0 16) (g.lo a) (g.hi a))) }
  else if 0x418 ≤ num ∧ num ≤ 0x41C then
    let a := num - 0x418
    if bndOk a w then { g with bnd := vset g.bnd a w } else g
  else if 0x428 ≤ num ∧ num ≤ 0x42C then { g with res := vset g.res (num - 0x428) w }
  else if num = 0x438 then { g with save := BitVec.ofNat 64 (dbits v 8 48 * 256) }
  else g

/-- A privileged write of a governor register of a context. Class and home belong to the context (R22,
R381). -/
def govWrite (s : State) (asid num : Nat) (v : Dword) : State :=
  s.updCtx asid fun c =>
    if num = 0x408 then { c with cls := dbits v 0 2 }
    else if num = 0x409 then { c with home := dbits v 0 11 }
    else { c with gov := c.gov.write num v (decide (s.gvLast < s.now)) }

/-- A governor register of a context, as it reads (R378). -/
def govRead (s : State) (asid num : Nat) : Dword :=
  let c := s.ctxOf asid
  let g := c.gov
  let w : Word → Dword := fun x => x.zx
  if num = 0x400 then w g.ctl
  else if num = 0x401 then w g.target
  else if num = 0x402 then w g.gain
  else if num = 0x403 then w g.imax
  else if num = 0x404 then w g.integ
  else if num = 0x405 then w g.meas
  else if num = 0x406 then w g.order
  else if num = 0x407 then w g.stat
  else if num = 0x408 then BitVec.ofNat 64 c.cls
  else if num = 0x409 then BitVec.ofNat 64 c.home
  else if 0x410 ≤ num ∧ num ≤ 0x414 then w (vget g.pos (num - 0x410) 0)
  else if 0x418 ≤ num ∧ num ≤ 0x41C then w (vget g.bnd (num - 0x418) 0)
  else if 0x420 ≤ num ∧ num ≤ 0x424 then BitVec.ofNat 64 (g.grantOf (num - 0x420))
  else if 0x428 ≤ num ∧ num ≤ 0x42C then w (vget g.res (num - 0x428) 0)
  else if num = 0x430 then g.count
  else if num = 0x438 then g.save
  else if num = 0x440 then w s.gvintlen
  else 0

/-- A write of a governor register by an outside party; it waits while laws of the last boundary are still to
be run (R380). -/
def govOutside (i : Instr) (s : State) (f : State → State) : Out :=
  if s.gvPend then .fault .notEnabled else fromOutside i s f

/-- `GVCTL_WRITE` (R379, R380). -/
def execGvctlWrite (asid : Nat) (value : Word) (s : State) : Out :=
  govOutside (.gvctlWrite asid value) s fun s => govWrite s asid 0x400 (value : Word).zx
/-- `GVORDER_WRITE` (R380). -/
def execGvorderWrite (asid : Nat) (value : Word) (s : State) : Out :=
  govOutside (.gvorderWrite asid value) s fun s => govWrite s asid 0x406 (value : Word).zx
/-- `GVPOS_WRITE` (R380). -/
def execGvposWrite (asid a : Nat) (value : Word) (s : State) : Out :=
  govOutside (.gvposWrite asid a value) s fun s => if a < 5 then govWrite s asid (0x410 + a) (value : Word).zx else s
/-- `GVBND_WRITE` (R380). -/
def execGvbndWrite (asid a : Nat) (value : Word) (s : State) : Out :=
  govOutside (.gvbndWrite asid a value) s fun s => if a < 5 then govWrite s asid (0x418 + a) (value : Word).zx else s

/-- A write of GVINTLEN: it takes effect at the next boundary, and one outside 16 to 1024 is ignored (R380). -/
def setIntlen (s : State) (v : Word) : State :=
  if 16 ≤ wbits v 0 11 ∧ wbits v 0 11 ≤ 1024 then { s with gvintNext := v &&& 0x7FF } else s

/-- `GVINTLEN_WRITE` (R380). -/
def execGvintlenWrite (value : Word) (s : State) : Out :=
  govOutside (.gvintlenWrite value) s fun s => setIntlen s value

/-! ### The law (R382) -/

/-- One run of the law for a count `m` (R382). -/
def Gov.law (g : Gov) (m : Nat) : Gov :=
  let st := GvStat.of g.stat
  let a := orderSlot g.order st.act
  let p := g.posOf a
  let lo := g.lo a
  let hi := g.hi a
  let imp := st.imp.testBit a
  let imax : Int := (g.imax.toNat : Int)
  let e : Int := max (-(2 ^ 31)) (min ((wbits g.target 0 16 : Int) - (m : Int)) (2 ^ 31 - 1))
  let up := p == hi || imp
  let i : Int :=
    if (0 < e && up) || (e < 0 && p == lo) then g.integ.toInt
    else max (-imax) (min (g.integ.toInt + e) imax)
  let u : Int := Int.tdiv ((wbits g.gain 16 16 : Int) * e + (wbits g.gain 0 16 : Int) * i) 256
  let pos : Nat := (max (lo : Int) (min ((p : Int) + u) (hi : Int))).toNat
  let s := if 0 < e then 0 else 1
  let atBound := (0 < e && (pos == hi || imp)) || (e < 0 && pos == lo)
  let h := if atBound then (if 0 < st.h && s == st.hs then min (st.h + 1) 15 else 1) else 0
  let hs := if atBound && !(0 < st.h && s == st.hs) then s else st.hs
  let hmax := wbits g.ctl 16 4
  let due := hmax != 0 && hmax ≤ h
  let fwd := due && s == 0 && st.act + 1 < orderCnt g.order
  let back := due && s == 1 && 0 < st.act
  let act := if fwd then st.act + 1 else if back then st.act - 1 else st.act
  let moved := fwd || back
  { g with
    pos := vset g.pos a (BitVec.ofNat 32 pos)
    integ := if moved then 0 else BitVec.ofInt 32 i
    meas := BitVec.ofNat 32 m
    stat := GvStat.word { st with act := act, hs := hs, h := if moved then 0 else h
                                  hand := if moved then st.hand + 1 else st.hand } }

/-! ### The allocator (R383 to R385) -/

/-- A participant of a pool: ASID, class, demand, reservation, floor. -/
structure Demand where
  asid : Nat
  cls : Nat
  d : Nat
  res : Nat
  floor : Nat
  deriving DecidableEq, Repr

/-- Grants capped by what is left, in order: the grants and what is left. -/
def firstGrants (cap : Demand → Nat) : List Demand → Nat → List (Demand × Nat) × Nat
  | [], avail => ([], avail)
  | x :: r, avail =>
    let g := min (min x.d (cap x)) avail
    let (l, a) := firstGrants cap r (avail - g)
    ((x, g) :: l, a)

/-- One unit each to the first `n` of a list of participants. -/
def giveUnits (n : Nat) (order : List Nat) (l : List (Demand × Nat)) : List (Demand × Nat) :=
  l.map fun p => if (order.take n).contains p.1.asid then (p.1, p.2 + 1) else p

/-- Puts a participant before those with a smaller remainder, keeping the order among equals. -/
def byRemainder (x : Nat × Nat) : List (Nat × Nat) → List (Nat × Nat)
  | [] => [x]
  | y :: r => if y.2 < x.2 then x :: y :: r else y :: byRemainder x r

/-- One class below 0: floors first, then the rest in proportion, units left over by remainder (R384). -/
def classGrants (l : List Demand) (avail : Nat) : List (Demand × Nat) × Nat :=
  let (g, a) := firstGrants (·.floor) l avail
  let x := (g.map fun p => p.1.d - p.2).sum
  if x ≤ a then (g.map fun p => (p.1, p.1.d), a - x)
  else
    let q := g.map fun p => (p.1, p.2, (p.1.d - p.2) * a)
    let base := q.map fun p => (p.1, p.2.1 + p.2.2 / x)
    let given := (q.map fun p => p.2.2 / x).sum
    let order := (q.map fun p => (p.1.asid, p.2.2 % x)).foldl (fun l p => byRemainder p l) []
    (giveUnits (a - given) (order.map (·.1)) base, 0)

/-- The allocation of one pool among participants of rising ASID (R384). -/
def allocate (c : Nat) (l : List Demand) : List (Nat × Nat) :=
  let of := fun (k : Nat) => l.filter fun x => x.cls = k
  let (g0, a0) := firstGrants (·.res) (of 0) c
  let (g1, a1) := classGrants (of 1) a0
  let (g2, a2) := classGrants (of 2) a1
  let (g3, _) := classGrants (of 3) a2
  (g0 ++ g1 ++ g2 ++ g3).map fun p => (p.1.asid, p.2)

/-- A participant's demand for an actuator. -/
def demandOf (c : Ctx) (a : Nat) : Demand :=
  let r := vget c.gov.res a 0
  { asid := c.asid, cls := c.cls, d := c.gov.posOf a, res := wbits r 16 16, floor := wbits r 0 16 }

/-- Contexts in rising ASID. -/
def insertCtx (x : Ctx) : List Ctx → List Ctx
  | [] => [x]
  | y :: r => if x.asid < y.asid then x :: y :: r else y :: insertCtx x r

/-- Least grants of an actuator over pools, each a capacity with its participants. -/
def leastGrants (pools : List (Nat × List Demand)) : List (Nat × Nat) :=
  pools.foldl (fun acc p =>
    (allocate p.1 p.2).foldl (fun acc q =>
      assocSet acc q.1 (match assoc acc q.1 with
        | some g => min g q.2
        | none => q.2)) acc) []

/-- The lowest cap of the regions on which a context has teams (R383, log 18). -/
def capOf (s : State) (asid : Nat) : Nat :=
  ((s.teams.filter fun t => t.asid == asid && t.holdsCore).map fun t => (s.clusterOf (clusterNo t.core)).capNow).foldl min 9

/-- The five grants of every participant (R383). -/
def grantsOf (s : State) (parts : List Ctx) : List (Nat × Vector Word 5) :=
  let cores := parts.map fun c => (c.asid, min (c.gov.posOf 1) (clusterSet s c.asid).length)
  let ring := parts.map fun c => (c, (ringOf s c.asid).take ((assoc cores c.asid).getD 0))
  let slotPools := ((List.range 256).map fun cl =>
    (64, (ring.filter fun p => p.2.contains cl).map fun p => demandOf p.1 0)).eraseDups
  let ways := ((List.range 256).map fun cl => (s.clusterOf cl).pinWays).eraseDups.map fun w => (16 - w, parts.map fun c => demandOf c 2)
  let slots := leastGrants slotPools
  let l2 := leastGrants ways
  let mem := leastGrants [(64, parts.map fun c => demandOf c 3)]
  parts.map fun c =>
    let n := fun (l : List (Nat × Nat)) => BitVec.ofNat 32 ((assoc l c.asid).getD 0)
    (c.asid, #v[n slots, n cores, n l2, n mem, BitVec.ofNat 32 (min (c.gov.posOf 4) (capOf s c.asid))])

/-- A context after an allocation that includes it: imposed bits and positions (R385). -/
def Gov.granting (g : Gov) (gr : Vector Word 5) : Gov :=
  let below := fun (a : Nat) => decide ((vget gr a 0).toNat < g.posOf a)
  let imp := (List.range 5).foldl (fun n a => if below a then n + 2 ^ a else n) 0
  let pos := (List.range 5).foldl (fun (v : Vector Word 5) a =>
    if below a then vset v a (BitVec.ofNat 32 (max (vget gr a 0).toNat (g.lo a))) else v) g.pos
  -- what it was shed to stands until a greater grant (R24)
  let owed := (List.range 5).foldl (fun (v : Vector (Option Word) 5) a => vset v a (
    if below a then some (vget gr a 0)
    else (vget g.owed a none).map fun o => if o.toNat < (vget gr a 0).toNat then vget gr a 0 else o)) g.owed
  { g with grant := gr, granted := true, pos := pos, owed := owed, stat := GvStat.word { GvStat.of g.stat with imp := imp } }

/-- The allocation at a boundary (R383 to R385). -/
def allocateAll (s : State) (parts : List Nat) : State :=
  let ps := (s.ctxs.filter fun c => parts.contains c.asid).foldl (fun l c => insertCtx c l) []
  let gs := grantsOf s ps
  { s with ctxs := s.ctxs.map fun c => match assoc gs c.asid with
      | some g => { c with gov := c.gov.granting g }
      | none => if c.gov.granted then { c with gov := { c.gov with grant := Vector.replicate 5 0 } } else c }

/-! ### Interval boundaries (R376, R377, R387, R408) -/

/-- Beats of a context on all cores. -/
def beatsOf (s : State) (asid : Nat) : Nat :=
  min ((s.cores.map fun k => (assoc k.beats asid).getD 0).sum) (2 ^ 32 - 1)

/-- The member mask of a fabric job (R421). -/
def jobMask (s : State) (job : Nat) : Nat :=
  ((s.fabric.jobs.toList.find? fun e => dbits e 0 16 == job && dbits e 16 16 != 0).map fun e => dbits e 16 16).getD 0

/-- Other members of a context's fabric job. -/
def otherMembers (s : State) (c : Ctx) : List Nat :=
  let mask := jobMask s (wbits c.gov.ctl 0 16)
  (List.range 16).filter fun d => mask.testBit d && d != wbits s.fabric.fxdev 0 4

/-- A context is a member of a fabric job, with the law on. -/
abbrev Ctx.fabricJob (c : Ctx) : Bool := c.gov.ctl.getLsbD 30

/-- The count of a member for an interval. -/
def memberCount (s : State) (e : GvInterval) (job member : Nat) : Option Nat :=
  (s.fabric.counts.find? fun x => x.1 == job && x.2.1 == e.bound % 2 ^ 32 && x.2.2.1 == member).map (·.2.2.2)

/-- Every member's count has arrived (R387). -/
def countsIn (s : State) (e : GvInterval) (c : Ctx) : Bool :=
  (otherMembers s c).all fun d => (memberCount s e (wbits c.gov.ctl 0 16) d).isSome

/-- The law would run for a context at the end of an interval (R377), but for its fabric job. -/
abbrev lawDue (e : GvInterval) (c : Ctx) : Bool :=
  c.gov.ctl.getLsbD 31 && e.seen.contains c.asid && !c.gov.first && !e.first && !c.removed

/-- The law at the end of an interval for one context, whose own count stands in GVMEAS. -/
def lawFor (s : State) (e : GvInterval) (c : Ctx) : Ctx :=
  let m := c.gov.meas.toNat
  let g := c.gov
  let g1 :=
    if !lawDue e c then { g with first := if g.ctl.getLsbD 31 then false else g.first }
    else if !c.fabricJob then g.law m
    else if countsIn s e c then
      let all := (otherMembers s c).filterMap fun d => memberCount s e (wbits g.ctl 0 16) d
      g.law (all.foldl min m)
    else { g with stat := GvStat.word (let st := GvStat.of g.stat; { st with miss := min (st.miss + 1) 255 }) }
  { c with gov := g1 }

/-- A context takes part in the allocation: it had a resident team or a queued ready node in the interval (R383). -/
def participates (e : GvInterval) (c : Ctx) : Bool :=
  !c.removed && (e.seen.contains c.asid || e.queued.contains c.asid)

/-- A context has a resident team now. -/
def residentNow (s : State) (asid : Nat) : Bool := s.teams.any fun t => t.asid == asid && t.holdsCore

/-- A context has a queued ready node now. -/
def queuedNow (s : State) (asid : Nat) : Bool :=
  s.crozs.any fun c => c.ready.any (·.asid == asid) || c.running.any fun r => r.asid == asid && !r.todo.isEmpty

/-- The laws and the allocation at the end of an interval. -/
def runLaws (s : State) (e : GvInterval) : State :=
  let s1 := { s with ctxs := s.ctxs.map (lawFor s e)
                     fabric := { s.fabric with counts := s.fabric.counts.filter fun x => x.2.1 != e.bound % 2 ^ 32 } }
  allocateAll s1 ((s.ctxs.filter (participates e)).map (·.asid))

/-- The interval ends: the cores hand their accumulators over and clear them, the droops are judged, and the next
interval begins, in its length, with the residents of now (R376, R380, R408). -/
def handOver (s : State) : State :=
  { s with
    gvLast := s.nextBoundary
    gvBound := s.gvBound + 1
    gvFirst := s.gvintNext != s.gvintlen
    gvintlen := s.gvintNext
    gvTaken := s.gvTaken ++ [{
      bound := s.gvBound + 1, at_ := s.nextBoundary, beats := s.ctxs.map fun c => (c.asid, beatsOf s c.asid)
      seen := (s.ctxs.filter (·.seen)).map (·.asid), queued := (s.ctxs.filter (·.queued)).map (·.asid), first := s.gvFirst }]
    ctxs := s.ctxs.map fun c => { c with seen := residentNow s c.asid, queued := queuedNow s c.asid }
    cores := s.cores.map fun k => { k with beats := [] }
    clusters := s.clusters.map fun c =>
      { c with droopCap := if 64 ≤ c.droops then some (c.step - 1) else none, droops := 0 } }

/-- The beat flits of an interval: of a context whose job's mask names this device, one for every other member (R387,
R408). -/
def beatFlits (s : State) (e : GvInterval) : List BeatFlit :=
  (s.ctxs.filter fun c => c.fabricJob && !c.removed).flatMap fun c =>
    let job := wbits c.gov.ctl 0 16
    if (jobMask s job).testBit (ownDevice s) then
      (otherMembers s c).map fun d =>
        { job := job, boundary := e.bound % 2 ^ 32, member := ownDevice s, count := (assoc e.beats c.asid).getD 0, dest := d }
    else []

/-- The governor takes the counts of an interval, and the beat flits are sent, over a relay where the direct link is
down (R376, R408). -/
def collect (s : State) (e : GvInterval) : State :=
  let of := fun (c : Ctx) => (assoc e.beats c.asid).getD 0
  let out := beatFlits s e
  let s1 := { s with
    ctxs := s.ctxs.map fun c =>
      { c with gov := { c.gov with meas := BitVec.ofNat 32 (of c), count := c.gov.count + BitVec.ofNat 64 (of c) } }
    fabric := { s.fabric with beatsOut := out } }
  out.foldl (fun s b => s.sendTo b.dest .beat (beatPayload b)) s1

/-- Some context's law waits for a count that can still arrive (R387, R408). -/
def lawsWait (s : State) (e : GvInterval) : Bool :=
  decide (s.now < e.at_ + 3000) && s.ctxs.any fun c => lawDue e c && c.fabricJob && !countsIn s e c

/-- A boundary is due. -/
abbrev State.boundaryDue (s : State) : Bool := decide (s.nextBoundary ≤ s.now)

/-- The governor can go on with the oldest interval handed to it. -/
def govReady (s : State) : Bool :=
  !s.govFrozen && match s.gvTaken with
    | [] => false
    | e :: _ => !e.taken || !lawsWait s e

def enabledIntervalBoundary (s : State) : Bool := s.boundaryDue || govReady s

/-- The governor's work on the oldest interval handed to it. -/
def takeInterval (s : State) : State :=
  match s.gvTaken with
  | [] => s
  | e :: rest =>
    let s1 := if e.taken then s else collect s e
    if lawsWait s1 e then { s1 with gvTaken := { e with taken := true } :: rest } else runLaws { s1 with gvTaken := rest } e

def doIntervalBoundary (s : State) : State :=
  let s1 := if s.boundaryDue then handOver s else s
  if govReady s1 then takeInterval s1 else s1

/-- `INTERVAL_BOUNDARY` (R376): the counts are handed over, and the laws and the allocator run; while a count of a
fabric job can still arrive, the laws wait for it in a second step (R387), and with a frozen governor for its thaw. -/
def execIntervalBoundary (s : State) : Out := whenEnabled (enabledIntervalBoundary s) s doIntervalBoundary

/-! ### Loop records (R386) -/

/-- The loop record of a context: 256 bytes (R386). Imposed bits are not saved. -/
def loopRecord (c : Ctx) : List Byte :=
  let g := c.gov
  let w := fun (x : Word) => leBytes 4 x.toNat
  let five := fun (v : Vector Word 5) => v.toList.flatMap w
  w g.ctl ++ w g.target ++ w g.gain ++ w g.imax ++ w g.integ ++ w g.meas ++ w g.order ++
    w (GvStat.word { GvStat.of g.stat with imp := 0 }) ++ leBytes 4 c.cls ++ leBytes 4 c.home ++
    five g.pos ++ w 0 ++ five g.bnd ++ five g.res ++ leBytes 8 g.count.toNat ++ List.replicate 144 0

/-- A context restored from a loop record (R386): fields that break R380 take their reset values, and EN is
cleared. -/
def Ctx.restored (c : Ctx) (r : List Byte) (fresh : Bool) : Ctx :=
  let w := fun (o : Nat) => (BitVec.ofNat 32 (leNat ((r.drop o).take 4)) : Word)
  let five := fun (o : Nat) => (#v[w o, w (o + 4), w (o + 8), w (o + 12), w (o + 16)] : Vector Word 5)
  let fresh0 : Gov := {}
  let bnd := five 0x40
  let okO := orderOk (w 0x18)
  let okB := (List.range 5).all fun a => bndOk a (vget bnd a 0)
  let ctl := w 0 &&& 0xC00FFFFF
  let pos := five 0x28
  { c with
    removed := false
    cls := wbits (w 0x20) 0 2
    home := wbits (w 0x24) 0 11
    gov := { c.gov with
      ctl := if okO && okB then ctl else setBits ctl 31 1 0
      target := w 4 &&& 0xFFFF, gain := w 8, imax := w 0x0C &&& 0x7FFFFFFF, integ := w 0x10, meas := w 0x14
      order := if okO then w 0x18 &&& 0x7FFFF else fresh0.order
      stat := GvStat.word { GvStat.of (w 0x1C) with imp := 0 }
      pos := pos.map (· &&& 0xFFFF)
      bnd := if okB then bnd else fresh0.bnd
      res := five 0x54
      count := BitVec.ofNat 64 (leNat ((r.drop 0x68).take 8))
      -- grants are not saved, and what it was shed to before the removal is void
      granted := false
      owed := Vector.replicate 5 none
      first := fresh } }

/-- The governor writes the loop record at GVSAVE and lets the context go (R386). -/
def removeCtx (s : State) (asid : Nat) : State :=
  let c := s.ctxOf asid
  (vwrite s asid (dbits c.gov.save 8 48 * 256) (loopRecord c)).updCtx asid fun c => { c with removed := true }

/-- The record's page migrates: the command waits (R157). -/
def loopWaits (s : State) (asid : Nat) : Bool := rangeMigrates s asid (dbits (s.ctxOf asid).gov.save 8 48 * 256) 256

/-- A command of a context's entry (R422). -/
def loopOutside (i : Instr) (asid : Nat) (s : State) (f : State → State) : Out :=
  if loopWaits s asid then .fault .notEnabled else govOutside i s f

/-- The governor reads the loop record back (R386). One that cannot be read leaves the context as it is (R29, log 26). -/
def restoreCtx (s : State) (asid : Nat) : State :=
  let (bad, s) := rangeBad s asid (dbits (s.ctxOf asid).gov.save 8 48 * 256) 256
  match vread s asid (dbits (s.ctxOf asid).gov.save 8 48 * 256) 256 with
  | none => s
  | some r => if bad then s else s.updCtx asid fun c => c.restored r (decide (s.gvLast < s.now))

/-- `CONTEXT_REMOVE` (R386, R422). -/
def execContextRemove (asid : Nat) (s : State) : Out := loopOutside (.contextRemove asid) asid s fun s => removeCtx s asid
/-- `CONTEXT_RESTORE` (R386, R422). -/
def execContextRestore (asid : Nat) (s : State) : Out := loopOutside (.contextRestore asid) asid s fun s => restoreCtx s asid

end Sys2Proof.Machine
end

