-- ==== Sys2Proof/Machine/Moves.lean ====
section
/-!
DEFINITION. Moves of the ordering machine, continued: atomics, combining and replies (R180 to R184),
commits of remote regions (R405), drained reductions (R187, R445), fences (R191), monitors (R193, R194),
grid barriers (R89), prefetches and write-backs (R196, R197).
-/

namespace Sys2Proof.Machine

open Sys2Proof

/-! ### Atomics (R170, R180 to R184) -/

/-- Groups and lanes that a request is made for. -/
def reqLanes (s : State) (t : ReqTree) : List (Nat × Nat) :=
  t.parts.flatMap fun p => match p.frm with
    | .lanes o l => match s.op? o with
      | some q => l.map fun x => (q.gid, x.1)
      | none => []
    | _ => []

/-- Bytes of an atomic's word. -/
abbrev wordBytes (w64 : Bool) : Nat := if w64 then 8 else 4

/-- No earlier Crozier operation of the core still waits to leave it (R8). -/
def graphFirst (s : State) (core id : Nat) : Bool :=
  !(s.ops.any fun p => p.core == core && p.id < id && match p.kind with
    | .graph (.gdec ..) => !performedAt s p.gid p.id .device
    | .graph _ => true
    | _ => false)

/-- A store that an atomic of a group must not overtake, since a fibre that read it could then read an older value
(R208): an earlier one of its group that waits in the store queue, or one in the pending set of its core, but for later
ones of its group. -/
def storeAhead (s : State) (gid core id : Nat) (r : Req) : Bool :=
  let at_ := fun (q : StoreRec) (asid : Nat) =>
    overlap q.tr.key q.bytes.length r.tr.key (wordBytes r.w64) ||
      (asid == r.asid && overlap q.va.toNat q.bytes.length r.va.toNat (wordBytes r.w64))
  (match s.group? gid with
   | some g => (g.sq ++ g.entering).any fun e => e.stores.any fun q => q.op < id && !q.scratch && at_ q (s.asidOf gid)
   | none => false) ||
  (s.coreOf core).cop.any fun c => (c.gid != gid || c.rec_.op < id) && at_ c.rec_ c.asid

/-- A request has left its core: its order's condition holds (R180), no earlier operation holds it back, no store is
ahead of it at its word, and no earlier load or atomic of one of its fibres, nor an atomic of a lower lane of its packet,
to the same word is still to be performed (R170, R208). -/
def reqSent (s : State) (r : Req) : Bool :=
  (r.tree.ops.all fun id => match s.op? id with
    | none => true
    | some o =>
      !heldBack s o.gid o.id false && !storeAhead s o.gid o.core o.id r &&
      (match o.kind with
       | .atom _ ord sc _ => !(ord == .rel || ord == .acqrel) || performedAt s o.gid o.id sc
       | .graph _ => performedAt s o.gid o.id .device && graphFirst s o.core o.id
       | _ => true)) &&
  (r.tree.parts.all fun p => match p.frm with
    | .lanes o l => match s.op? o with
      | some q => l.all fun x => !readBefore s q.gid o { lane := x.1, va := r.va } (wordBytes r.w64)
      | none => true
    | _ => true) &&
  !(s.reqs.any fun q => q.id < r.id && q.asid == r.asid &&
      overlap q.va.toNat (wordBytes q.w64) r.va.toNat (wordBytes r.w64) &&
      (q.tree.ops.any fun o => r.tree.ops.contains o ||
        (let l := reqLanes s r.tree
         (reqLanes s q.tree).any fun x => l.contains x)))

/-- While an access of its group, or of its core to its page, is being retried, or a retry's fault is to be
taken, an atomic waits as a later store does (R212). -/
def reqFree (s : State) (r : Req) : Bool :=
  r.tree.ops.all fun id => match s.op? id with
    | none => true
    | some o => !((openRetries s o.core).any fun p => p.1 < o.id &&
        (p.2.1 == o.gid || p.2.2.contains (r.asid, r.va.toNat / 65536))) && !faultOpen s o.gid

def enabledAtomicPerform (s : State) (id : Nat) : Bool :=
  match s.req? id with
  | none => false
  | some r => !r.rejected && reqSent s r && reqFree s r && (r.tr.pa ≥ 2 ^ 64 || !lineMoving s r.tr)

/-- A rejected request returns through its records to every requester beneath it (R159). -/
def splitReq (s : State) (r : Req) : State :=
  r.tree.parts.foldl (fun s p =>
    { s with
      reqs := s.reqs ++ [{ r with id := s.serial, rejected := true, tree := .part p,
                                  op := if r.fn = .add then p.sum else r.op }]
      serial := s.serial + 1 })
    { s with reqs := s.reqs.filter fun q => q.id ≠ r.id }

/-- A request to a peer leaves for it; any other is performed at its home, and the value that its requesters read
refreshes their cores' L1 (R207, R223). A combined reply holds the line when the access is counted (R155). -/
def doAtomicPerform (s : State) (id : Nat) : State :=
  match s.req? id with
  | none => s
  | some r =>
    let gone := { s with reqs := s.reqs.filter fun q => q.id ≠ id }
    if r.tr.pa ≥ 2 ^ 64 then
      let (op, lane) := match r.tree.parts.head?.map (·.frm) with
        | some (.lanes o l) => (o, (l.head?.map (·.1)).getD 0)
        | _ => (0, 0)
      let priv := match s.op? op with
        | some o => !o.users.getLsbD lane
        | none => false
      sendRemote gone { remoteFor gone r.asid op lane r.va.toNat (.atom r.fn r.w64 r.op r.cmp) priv with tree := some r.tree }
    else if stale s r.asid r.tr then splitReq s r
    else
      match badSector gone r.tr.key with
      | (true, s1) =>
        { s1 with
          replies := s1.replies ++ [{ id := s1.serial, req := id, line := r.tr.pa / 256, w64 := r.w64, tree := r.tree,
                                      fault := some (plainFault fDataError 0 r.va.toNat) }]
          serial := s1.serial + 1 }
      | (false, s1) =>
        let (old, s2) := atomHome s1 r.asid r.va.toNat r.tr r.fn r.w64 r.op r.cmp r.tree.adds id
        let s3 : State := { s2 with
          replies := s2.replies ++ [{ id := s2.serial, req := id, line := r.tr.pa / 256, w64 := r.w64, old := old,
                                      tree := r.tree }]
          serial := s2.serial + 1 }
        (r.tree.parts.map (·.core)).eraseDups.foldl (fun s c => s.refresh c r.tr r.va.toNat)
          (s3.touch r.tr (((r.tree.parts.head?).map (·.core)).getD 0))

/-- `ATOMIC_PERFORM` (R180). -/
def execAtomicPerform (req : Nat) (s : State) : Out :=
  whenEnabled (enabledAtomicPerform s req) s fun s => doAtomicPerform s req

/-- Decombining records of a port among those of a request (R181). -/
def ReqTree.records (port : Nat) : ReqTree → Nat
  | .part _ => 0
  | .join p a b => (if p = port then 1 else 0) + a.records port + b.records port

/-- Records that a port's Sorus table holds: those of requests that are still on their way out, on their way to a peer
or at its crossbar, and of replies not yet split (R183). -/
def sorusUsed (s : State) (port : Nat) : Nat :=
  (s.reqs.map fun r => r.tree.records port).sum + (s.replies.map fun r => r.tree.records port).sum +
    ((s.fabric.out ++ s.fabric.ins).map fun r => ((r.tree.map fun t => t.records port).getD 0)).sum

/-- The core whose request leads in a request. -/
abbrev Req.core (r : Req) : Nat := ((r.tree.parts.head?).map (·.core)).getD 0

/-- A request that has left its core reaches the queue of the next router on its way (R181). -/
def hopStep (s : State) (id : Nat) : Option State :=
  match s.req? id with
  | none => none
  | some r =>
    if r.rejected || 2 ^ 64 ≤ r.tr.pa || !reqSent s r || Config.routerCount r.core (homeOf r.tr) ≤ r.hops then none
    else some { s with reqs := s.reqs.map fun q =>
      if q.id = id then { q with hops := q.hops + 1, port := 2 * Config.routerPort r.core (homeOf r.tr) r.hops
                                 input := Config.routerInput r.core (homeOf r.tr) r.hops, arrived := s.now } else q }

/-- A request waits in the queue of a port at which it has not been combined. -/
abbrev Req.waiting (r : Req) : Bool := r.hops != 0 && match r.tree with
  | .join p _ _ => p != r.port
  | .part _ => true

/-- Nanoseconds that 32 cycles of a cluster's region last (R3, R181): of the first requester's cluster (DESIGN CHOICE,
log 26: R181 names no region). -/
abbrev combineWindow (s : State) (core : Nat) : Nat := 320 / (7 + (s.clusterOf (clusterNo core)).step)

/-- The first of two requests in a queue: it reached it first, or in the same cycle by the lower input port (R182). -/
abbrev cameFirst (ta ia tb ib : Nat) : Bool := ta < tb || (ta == tb && ia ≤ ib)

/-- Two requests may combine at an on-die port: additions of one address, size, context and generation, both waiting in
its queue, the second no more than 32 cycles after the first (R181). -/
def combinable (s : State) (a b : Req) : Bool :=
  a.id != b.id && a.fn == .add && b.fn == .add && a.va == b.va && a.w64 == b.w64 && a.asid == b.asid &&
    a.tr.gen == b.tr.gen && !a.rejected && !b.rejected && a.tr.pa < 2 ^ 64 && b.tr.pa < 2 ^ 64 && a.port == b.port &&
    a.waiting && b.waiting && cameFirst a.arrived a.input b.arrived b.input &&
    b.arrived ≤ a.arrived + combineWindow s a.core

/-- The port's table has room for a record; else the request passes through uncombined (R183). -/
def enabledRouterCombine (s : State) (first second : Nat) : Bool :=
  match s.req? first, s.req? second with
  | some a, some b => combinable s a b && reqSent s a && reqSent s b && sorusUsed s a.port < 64
  | _, _ => false

def doRouterCombine (s : State) (first second : Nat) : State :=
  match s.req? first, s.req? second with
  | some a, some b =>
    let one := { a with op := a.op + b.op, tree := .join a.port a.tree b.tree }
    { s with reqs := s.reqs.filterMap fun q =>
        if q.id = second then none
        else if q.id = first then some one
        else some q }
  | _, _ => s

/-- `ROUTER_COMBINE` (R181): the first keeps its place, the second joins behind it. -/
def execRouterCombine (first second : Nat) (s : State) : Out :=
  whenEnabled (enabledRouterCombine s first second) s fun s => doRouterCombine s first second

abbrev State.reply? (s : State) (id : Nat) : Option Reply := s.replies.find? fun r => r.id = id

def enabledReplySplit (s : State) (rep : Nat) : Bool :=
  match s.reply? rep with
  | none => false
  | some r => match r.tree with
    | .join .. => true
    | .part _ => false

/-- A record splits a reply (R182); one that fails its parity check, or is missing, is rebuilt from the home's
echo while that lasts; after it the old values beneath are lost (R184). -/
def doReplySplit (s : State) (rep : Nat) : State :=
  match s.reply? rep with
  | none => s
  | some r => match r.tree with
    | .part _ => s
    | .join _ a b =>
      let echo := s.echoes.any fun e => e.req == r.req && decide (s.now < e.until_)
      let (bad, s1) := if r.lost || r.fault.isSome || echo then (0, s) else s.choose 2
      let lost := r.lost || bad != 0
      let second := BitVec.ofNat 64 ((r.old + a.sum).toNat % 2 ^ (if r.w64 then 64 else 32))
      { s1 with
        replies := (s1.replies.filter fun q => q.id ≠ rep) ++
          [{ r with tree := a, lost := lost }, { r with id := s1.serial, tree := b, old := second, lost := lost }]
        serial := s1.serial + 1 }

/-- `REPLY_SPLIT` (R182). -/
def execReplySplit (rep : Nat) (s : State) : Out :=
  whenEnabled (enabledReplySplit s rep) s fun s => doReplySplit s rep

/-! ### Commits (R405, R406) -/

/-- Operation `k` of the fibres of a commit, as one packet request: the additions to one address join
(R181, R405). -/
def sendCommit (s : State) (o : Op) (k : Nat) : State :=
  match s.group? o.gid with
  | none => s
  | some g =>
    let asid := o.asid
    let todo := (lanesOf o.lanes).filterMap fun i =>
      match (g.lane i).region with
      | some r => (r.buf[k]?).map fun b => (i, b)
      | none => none
    let joins := fun (b c : RegOp) => b.store.isNone && c.store.isNone && b.fn == .add && c.fn == .add &&
      b.va == c.va && b.w64 == c.w64
    let groups : List (List (Nat × RegOp)) := todo.foldl (fun gs p =>
      if gs.any fun l => l.any fun q => joins q.2 p.2 then
        gs.map fun l => if l.any fun q => joins q.2 p.2 then l ++ [p] else l
      else gs ++ [[p]]) []
    groups.foldl (fun s l =>
      match l with
      | [] => s
      | p :: _ =>
        let b := p.2
        let sum := if b.fn = .add then l.foldl (fun n q => n + q.2.op) 0 else b.op
        let kind : RemoteKind := match b.store with
          | some bytes => .store bytes
          | none => .atom b.fn b.w64 sum b.cmp
        let tree : ReqTree := .part { frm := .commit o.id k (l.map fun q => (q.1, q.2.op)), sum := sum, core := o.core }
        sendRemote s { remoteFor s asid o.id p.1 b.va.toNat kind (!o.user) with tree := some tree, commit := true }) s

/-- The next operation of a commit is sent once every fibre's present one has been performed; after the last
the regions close, and the commit acts as an acquire at system scope (R405). -/
def commitNext (s : State) (id : Nat) : State :=
  match s.op? id with
  | none => s
  | some o => match o.kind, s.group? o.gid with
    | .commit k, some g =>
      let bufOf := fun (i : Nat) => ((g.lane i).region.map (·.buf)).getD []
      if (lanesOf o.lanes).any fun i => match (bufOf i)[k]? with
          | some b => !b.performed
          | none => false then s
      else if (lanesOf o.lanes).any fun i => k + 1 < (bufOf i).length then
        let s1 := s.updOp id fun o => { o with kind := .commit (k + 1) }
        match s1.op? id with
        | some o1 => sendCommit s1 o1 (k + 1)
        | none => s1
      else
        let s1 := s.updGroup o.gid fun g => g.updLanes o.lanes fun _ x =>
          { x with region := none, committing := false, rgstat := setBits x.rgstat 31 1 0 }
        acquireWide (s1.finishOp id) o.gid
    | _, _ => s

/-- An operation of a commit has been performed for a lane: the old value of an atomic is written, with p63 as R179 has
it, or was lost, which p63 tells (R184, R403, R405). -/
def commitLane (s : State) (o : Op) (k lane : Nat) (old : Option Nat) : State :=
  s.updGroup o.gid fun g =>
    let x := g.lane lane
    match x.region with
    | none => g
    | some r =>
      let buf := List.zipWith (fun j b => if j = k then { b with performed := true } else b)
        (List.range r.buf.length) r.buf
      let g0 := g.setLane lane { x with region := some { r with buf := buf } }
      let g1 := if ((r.buf[k]?).bind (·.dst)).isSome then g0.setLane lane ((g0.lane lane).setPred 63 old.isNone) else g0
      match (r.buf[k]?).bind (fun b => b.dst.map fun d => (d, b.w64)), old with
      | some (.v r, w), some v => g1.setLane lane ((g1.lane lane).setWide r.toNat (if w then 2 else 1) v)
      | some (.s r, w), some v => if lane = o.lead then g1.setScalar r.toNat (if w then 2 else 1) v else g1
      | _, _ => g1

/-- A commit stops at an operation of a lane with a fault at the `RCOMMIT`; its region is closed (R406). -/
def commitFails (s : State) (o : Op) (lane : Nat) (f : FaultRec) : State :=
  let s1 := failLane s o lane f true
  let s2 := s1.updGroup o.gid fun g =>
    g.setLane lane { g.lane lane with region := none, committing := false }
  commitNext s2 o.id

/-! ### Replies at the core (R179, R182) -/

/-- The additions of a request give each lane the value the lanes below it left (R182). -/
def laneOlds (add : Bool) (w64 : Bool) (old : Dword) : List (Nat × Dword) → List (Nat × Dword)
  | [] => []
  | (i, o) :: r =>
    (i, old) :: laneOlds add w64
      (if add then BitVec.ofNat 64 ((old + o).toNat % 2 ^ (if w64 then 64 else 32)) else old) r

def enabledAtomicReply (s : State) (rep : Nat) : Bool :=
  match s.reply? rep with
  | none => false
  | some r => match r.tree with
    | .part _ => true
    | .join .. => false

def doAtomicReply (s : State) (rep : Nat) : State :=
  match s.reply? rep with
  | none => s
  | some r => match r.tree with
    | .join .. => s
    | .part p =>
      let s0 := { s with replies := s.replies.filter fun q => q.id ≠ rep }
      match p.frm with
      | .lanes id l =>
        match s0.op? id with
        | none => s0
        | some o =>
          match r.fault with
          | some f => l.foldl (fun s x => match s.op? id with
              | some o => failOp s o x.1 (f.inLane x.1) true
              | none => s) s0
          | none =>
            let (fn, w64) := match o.kind with
              | .atom fn _ _ w => (fn, w)
              | _ => (.add, false)
            if r.lost then
              completeLanes (l.foldl (fun s x => predLane s o.gid x.1 63 true) s0) o (maskOf (l.map (·.1)))
            else
              let olds := laneOlds (fn == .add) w64 r.old l
              -- `GDEC` writes the old count only (R363)
              let s1 := olds.foldl (fun s x =>
                let s := writeLane s o x.1 x.2.toNat
                match o.kind with
                | .graph _ => s
                | _ => predLane s o.gid x.1 63 false) s0
              -- a compare that fails demotes its fibre (R66, R179)
              let failed := if fn = .cas then
                  maskOf (olds.filterMap fun x =>
                    if ((o.acc? x.1).map (·.cmp)) == some x.2 then none else some x.1)
                else 0
              demote (completeLanes s1 o (maskOf (l.map (·.1)))) o.gid failed
      | .commit id k l =>
        match s0.op? id with
        | none => s0
        | some o =>
          match r.fault with
          | some f =>
            l.foldl (fun s x => match s.op? id with
              | some o => commitFails s o x.1 (f.inLane x.1)
              | none => s) s0
          | none =>
            let fn := match s0.group? o.gid with
              | some g =>
                let b : Option RegOp := l.head?.bind fun x => (g.lane x.1).region.bind fun q => q.buf[k]?
                (b.map fun (b : RegOp) => b.fn).getD .add
              | none => AtomFn.add
            let olds := laneOlds (fn == .add) r.w64 r.old l
            let s1 := olds.foldl (fun s x => commitLane s o k x.1 (if r.lost then none else some x.2.toNat)) s0
            -- a compare that fails demotes its fibre (R66)
            let failed := olds.filterMap fun x => match s0.group? o.gid with
              | some g => ((g.lane x.1).region.bind fun (q : Region) => q.buf[k]?).bind fun (b : RegOp) =>
                  if b.store.isNone && b.fn == .cas && b.cmp != x.2 && !r.lost then some x.1 else none
              | none => none
            commitNext (demote s1 o.gid (maskOf failed)) id
      -- back to the peer that asked; a lost old value is sent as no bytes
      | .remote id input =>
        s0.sendReply input { id := id, value := if r.lost then [] else leBytes (wordBytes r.w64) r.old.toNat
                             cause := r.fault.map (·.cause) }
      | _ => s0

/-- `ATOMIC_REPLY` (R182). -/
def execAtomicReply (rep : Nat) (s : State) : Out :=
  whenEnabled (enabledAtomicReply s rep) s fun s => doAtomicReply s rep

/-! ### Drained reductions (R187, R188, R445) -/

/-- The next entry of a core to drain: the first in the order of its team, by flush, home scheduler, group
number and creation (R187, R189). -/
def nextRed (s : State) (core : Nat) : Option RedEntry :=
  ((s.coreOf core).reds.filter (·.draining)).foldl (fun m e => match m with
    | none => some e
    | some b => if e.tid = b.tid ∧ (e.flush < b.flush ∨ (e.flush = b.flush ∧ e.home * 32 + e.num < b.home * 32 + b.num))
      then some e else some b) none

/-- REDERR takes an entry that was not performed (R231, R445). -/
def redErr (w : Word) (cause : Nat) : Word :=
  let n := min (wbits w 16 16 + 1) 0xFFFF
  setBits (setBits (setBits w 16 16 n) 15 1 1) 12 3 cause

/-- The reply of a peer to a drained entry. -/
def redReply (s : State) (id : Nat) : Option RemoteReply := s.fabric.replies.find? fun r => r.id = id

/-- A drained entry to a peer has had no reply within FXRTO (R445). -/
def redLate (s : State) (id : Nat) : Bool :=
  match (s.fabric.out ++ s.fabric.ins).find? fun r => r.id = id with
  | some r => r.sent + 1000 * max 1 (wbits s.fabric.fxrto 0 16) ≤ s.now
  | none => false

/-- The guest-physical address at which the walk of a drained entry fails in stage 2, while its group is there to be
halted for it (R158, R424). -/
def redStage2 (s : State) (e : RedEntry) (asid : Nat) : Option (Nat × FaultRec) :=
  match xlateNow s asid e.va.toNat .atomic (!e.privileged), s.group? e.gid with
  | some (.error f), some _ => f.gpa.map fun g => (g, f)
  | _, _ => none

/-- An entry waits for the acquires before it (R211), a range lock at its address (R217), a migrating leaf, a line that
moves, the hypervisor's repair of stage 2 (R424), or its peer. -/
def enabledRedEntryDrain (s : State) (core : Nat) : Bool :=
  match nextRed s core with
  | none => false
  | some e =>
    match s.team? e.tid with
    | some t =>
      let va := e.va.toNat
      !heldBack s e.gid e.id false &&
      if isRemote va then
        match e.sent with
        | none => true
        | some id => (redReply s id).isSome || redLate s id || !(s.fabric.out ++ s.fabric.ins).any fun r => r.id = id
      else
        !((s.coreOf core).rlt.any fun r => r.dest && r.asid == some t.asid &&
            overlap r.lo (r.hi - r.lo) va (wordBytes e.w64)) &&
        !((redStage2 s e t.asid).isSome && ((s.group? e.gid).map (·.halted)).getD true) &&
        (match xlateNow s t.asid va .atomic (!e.privileged) with
         | none => false
         | some (.ok tr) => !lineMoving s tr
         | some (.error _) => true)
    | none => true

/-- The entry leaves its buffer; a `REDF` whose flush is done completes (R188). -/
def redGone (s : State) (core : Nat) (e : RedEntry) : State :=
  let s1 := s.updCore core fun k => { k with reds := k.reds.erase e }
  match s1.team? e.tid with
  | none => s1
  | some t =>
    if teamDraining s1 t.tid then s1
    else (s1.ops.filter fun o => o.kind == .redf && o.tid == t.tid).foldl
      (fun s o => s.finishOp o.id) s1

/-- RED_UNPERFORMABLE (R445): REDERR, and RED_FAULT of the team's instance. -/
def redUnperformable (s : State) (core : Nat) (e : RedEntry) (cause : Nat) : State :=
  match s.team? e.tid with
  | none => redGone s core e
  | some t =>
    let (p, s1) := (s.updTeam t.tid fun t => { t with rederr := redErr t.rederr cause }).freePayload
    redGone (recordError s1 t.asid t.launch.inst
      (nodeIndex t.launch.inst t.launch.node) 8 p) core e

def doRedEntryDrain (s : State) (core : Nat) : State :=
  match nextRed s core with
  | none => s
  | some e =>
    match s.team? e.tid with
    | none => redGone s core e
    | some t =>
      let va := e.va.toNat
      if isRemote va then
        match e.sent with
        | none =>
          let s1 := s.updCore core fun k => { k with
            reds := k.reds.map fun q => if q = e then { e with sent := some s.serial } else q }
          sendRemote s1 (remoteFor s1 t.asid 0 0 va (.atom e.fn e.w64 e.value 0) e.privileged)
        | some id =>
          let clear := fun (s : State) => { s with fabric := { s.fabric with
            out := s.fabric.out.filter fun r => r.id ≠ id
            ins := s.fabric.ins.filter fun r => r.id ≠ id
            replies := s.fabric.replies.filter fun r => r.id ≠ id } }
          match redReply s id with
          | some r =>
            match r.cause with
            | none => redGone (clear s) core e
            | some c => redUnperformable (clear s) core e
                (if c = fTranslation then 2 else if c = fPermission then 3 else 4)
          | none => redUnperformable (clear s) core e 4
      else
        match xlateNow s t.asid va .atomic (!e.privileged) with
        | none => s
        | some (.error f) => match redStage2 s e t.asid with
          | some (gpa, f) => stage2Fault s t.tid e.gid t.asid gpa f.xl
          | none => redUnperformable s core e (if f.cause = fPermission then 3 else if f.cause = fDataError then 4 else 2)
        | some (.ok tr) =>
          match badSector (s.accessed t.asid va) tr.key with
          | (true, s1) => redUnperformable s1 core e 4
          | (false, s1) =>
            redGone (((atomHome s1 t.asid va tr e.fn e.w64 e.value 0 [e.value] s1.serial).2).touch tr core).fresh core e

/-- `RED_ENTRY_DRAIN` (R187). -/
def execRedEntryDrain (core : Nat) (s : State) : Out :=
  whenEnabled (enabledRedEntryDrain s core) s fun s => doRedEntryDrain s core

/-! ### Fences (R191, R215) -/

/-- Every load and atomic of the group issued before `id` has returned. -/
def returnedBefore (s : State) (gid id : Nat) : Bool :=
  !((s.groupOps gid).any fun o => o.id < id && match o.kind with
    | .load .. | .scratchLoad .. | .constLoad .. | .atom .. | .ret | .barGrid .. => true
    | .graph (.gdec ..) | .graph (.gcond ..) => true
    | _ => false)

def enabledFenceComplete (s : State) (op : Nat) : Bool :=
  match s.op? op with
  | none => false
  | some o => match o.kind with
    | .fence k sc =>
      (k == .acq || performedAt s o.gid o.id sc) && (k == .rel || returnedBefore s o.gid o.id)
    | _ => false

/-- `FENCE_COMPLETE` (R191). -/
def execFenceComplete (op : Nat) (s : State) : Out :=
  whenEnabled (enabledFenceComplete s op) s fun s =>
    match s.op? op with
    | some o => completeLanes s o (BitVec.allOnes 32)
    | none => s

/-! ### Monitors (R193, R194, R89) -/

/-- The operation and access of a fibre that waits on a condition. -/
def waitOf (s : State) (gid lane : Nat) : Option (Op × Access) :=
  match s.anyGroup? gid with
  | none => none
  | some g => match (g.lane lane).wait with
    | some (.mon id _) => (s.op? id).bind fun o => (o.acc? lane).map fun a => (o, a)
    | _ => none

/-- The translation under which a parked `WAITC` reads its word now: under an older generation its access is returned,
and walks again (R159). `none` while a leaf migrates. -/
def waitTrans (s : State) (o : Op) (a : Access) : Option (Except FaultRec Trans) :=
  if !stale s o.asid a.tr then some (.ok a.tr)
  else xlateNow s o.asid a.va.toNat .load (o.users.getLsbD a.lane) a.lane true

/-- A parked `WAITC` may read its word: no walk waits, the line does not move, and a failure in stage 2 waits for the
hypervisor (R424). -/
def waitReads (s : State) (o : Op) (a : Access) : Bool :=
  match waitTrans s o a with
  | none => false
  | some (.ok t) => !lineMoving s t
  | some (.error f) => !(f.gpa.isSome && ((s.anyGroup? o.gid).map (·.halted)).getD true)

/-- A fibre's `WAITC` fails: it waits no more, and takes the fault at the instruction (R159, R171). -/
def waitFails (s : State) (o : Op) (lane : Nat) (f : FaultRec) : State :=
  failOp (s.updAny o.gid fun g =>
    let x := g.lane lane
    g.setLane lane { x with wait := none, status := if x.status = .parked then g.released else x.status }) o lane f true
  |>.sweepMonitors

/-- A parked `WAITC` reads its word at the home for a fibre, and goes on with it. -/
def waitRead (s : State) (o : Op) (a : Access) (w64 : Bool) (k : State → Trans → Dword → State) : State :=
  match waitTrans s o a with
  | none => s
  | some (.error f) => match f.gpa with
    | some gpa => stage2Fault s o.tid o.gid o.asid gpa f.xl
    | none => waitFails s o a.lane f
  | some (.ok t) =>
    let s0 := if a.tr.gen = t.gen then s else (s.accessed o.asid a.va.toNat).updOp o.id fun q =>
      { q with accs := q.accs.map fun b => if b.lane = a.lane then { b with tr := t } else b }
    match badSector s0 t.key with
    | (true, s1) => waitFails s1 o a.lane (plainFault fDataError 0 a.va.toNat)
    | (false, s1) => k (s1.touch t o.core) t (s1.wordAt t.key w64)

def enabledWaitcTimeout (s : State) (gid lane : Nat) : Bool :=
  match waitOf s gid lane with
  | none => false
  | some (o, a) => a.cmp != 0 && decide (a.cmp.toNat ≤ s.now) && waitReads s o a

/-- `WAITC_TIMEOUT` (R193): of a saved team too (R195). -/
def execWaitcTimeout (gid lane : Nat) (s : State) : Out :=
  whenEnabled (enabledWaitcTimeout s gid lane) s fun s =>
    match waitOf s gid lane with
    | some (o, a) => match o.kind with
      | .waitc _ sc w => waitRead s o a w fun s t v => releaseWaitc s o sc lane t v.toNat true
      | _ => s
    | none => s

/-- The group's back-off gate is open in this cycle (R62, R70). -/
def backoffOpen (s : State) (g : Group) : Bool :=
  (s.clusterOf (clusterNo g.core)).cycles % 2 ^ g.backoff.toNat == 0

/-- The grid barrier entry of a team (R89). -/
abbrev Team.barEntry (t : Team) (b : BitVec 4) : Nat := t.gridBar.toNat + 16 * b.toNat

/-- A fibre without a monitor entry may re-test, a `WAITC` or a grid barrier's phase (R194). -/
def enabledWaitcRetest (s : State) (gid lane : Nat) : Bool :=
  match s.anyGroup? gid with
  | none => false
  | some g =>
    backoffOpen s g &&
    (match (g.lane lane).wait with
     | some (.mon id false) => match (s.op? id).bind fun o => (o.acc? lane).map fun a => (o, a) with
       | some (o, a) => waitReads s o a
       | none => false
     | some (.barG b) => match s.team? g.tid with
       | some t => match walk s t.asid (t.barEntry b) with
         | .ok r => !lineMoving s r.tr && !(s.monitors.any fun m => m.gid == gid && m.bar == some b && m.pa == r.tr.key)
         | .error _ => false
       | none => false
     | _ => false)

/-- A failed re-test raises the group's back-off level (R194). -/
def raiseBackoff (s : State) (gid : Nat) : State :=
  s.updAny gid fun g => { g with backoff := if g.backoff = 7 then 7 else g.backoff + 1 }

/-- The entry that a fibre waits at cannot be read: the fibre waits no more and takes the fault, behind its barrier word
(R29). -/
def barFails (s : State) (gid lane va : Nat) : State :=
  let f : FaultRec := { plainFault fDataError 0 va with info := 0xC0000000 }
  (s.updAny gid fun g =>
    let x := g.lane lane
    g.setLane lane { x with wait := none, status := if x.status = .barrier then g.released else x.status
                            defer := x.defer ++ [f] }).sweepMonitors

def doWaitcRetest (s : State) (gid lane : Nat) : State :=
  match s.anyGroup? gid with
  | none => s
  | some g =>
    match (g.lane lane).wait with
    | some (.mon _ _) => match waitOf s gid lane with
      | some (o, a) => match o.kind with
        | .waitc cc sc w => waitRead s o a w fun s t v =>
          if waitcHolds cc w v a.op then releaseWaitc s o sc lane t v.toNat false
          -- a value read at the home refreshes the L1 (R207)
          else raiseBackoff (if (s.group? gid).isSome then s.refresh o.core t a.va.toNat else s) gid
        | _ => s
      | none => s
    | some (.barG b) => match s.team? g.tid with
      | some t => match walk s t.asid (t.barEntry b) with
        | .ok r =>
          match badSector (s.accessed t.asid (t.barEntry b)) r.tr.key with
          | (true, s1) => barFails s1 gid lane (t.barEntry b)
          | (false, s0) =>
          let s1 := fireBarG s0 gid r.tr.key b
          if ((s1.anyGroup? gid).map fun g => (g.lane lane).wait.isSome) == some true then raiseBackoff s1 gid else s1
        | .error _ => s
      | none => s
    | _ => s

/-- `WAITC_RETEST` (R194). -/
def execWaitcRetest (gid lane : Nat) (s : State) : Out :=
  whenEnabled (enabledWaitcRetest s gid lane) s fun s => doWaitcRetest s gid lane

/-! ### Barriers (R87, R89) -/

/-- Arrivals of some lanes at a barrier, each with the phase bit it records (R87). -/
def arrivals (e : Nat) : List Nat → Bar → Bar × List (Nat × Bool)
  | [], b => (b, [])
  | i :: r, b =>
    let exp := if b.c = 0 then e else b.expected
    let ph := b.phase.getLsbD 0
    let b1 : Bar := if b.c + 1 = exp then { c := 0, expected := exp, phase := b.phase + 1 }
      else { c := b.c + 1, expected := exp, phase := b.phase }
    let (b2, l) := arrivals e r b1
    (b2, (i, ph) :: l)

/-- A grid barrier entry as bytes (R89). -/
def barBytes (b : Bar) : List Byte :=
  leBytes 4 b.c ++ leBytes 4 0 ++ leBytes 4 b.expected ++ leBytes 4 b.phase.toNat

/-- A grid barrier entry read. -/
def barRead (s : State) (key : Nat) : Bar :=
  { c := leNat (Mem.read s.mem key 4), expected := leNat (Mem.read s.mem (key + 8) 4)
    phase := BitVec.ofNat 16 (leNat (Mem.read s.mem (key + 12) 2)) }

/-- Fibres that wait at a grid barrier (R89): released at once when the phase has moved on, else under a
monitor entry. -/
def waitGrid (s : State) (gid : Nat) (m : BitVec 32) (b : BitVec 4) (t : Trans) : State :=
  let s1 := s.updGroup gid fun g => g.updLanes m fun _ x =>
    { x with wait := some (.barG b)
             status := if x.status = .running ∨ x.status = .halted then .barrier else x.status }
  let (s2, _) := watch s1 gid t (some b)
  fireBarG s2 gid t.key b

def enabledGridBarrierArrive (s : State) (op : Nat) : Bool :=
  match s.op? op with
  | none => false
  | some o => match o.kind, o.accs with
    | .barGrid .., a :: _ =>
      performedAt s o.gid o.id .device && !heldBack s o.gid o.id true &&
        (match xlateNow s o.asid a.va.toNat .atomic false with
         | none => false
         | some (.ok t) => !lineMoving s t
         -- after a failure in stage 2 it waits for the hypervisor (R424)
         | some (.error f) => !(f.gpa.isSome && ((s.group? o.gid).map (·.halted)).getD false))
    | _, _ => false

def doGridBarrierArrive (s : State) (op : Nat) : State :=
  match s.op? op with
  | none => s
  | some o => match o.kind, o.accs with
    | .barGrid b wait n, a :: _ =>
      match xlateNow s o.asid a.va.toNat .atomic false with
      | some (.ok t) =>
        let (err, s) := badSector (s.accessed o.asid a.va.toNat) t.key
        let bar := barRead s t.key
        let lanes := lanesOf o.lanes
        if err then
          -- an uncorrectable error is reported to the fibres that arrive (R29)
          lanes.foldl (fun s i => match s.op? op with
            | some o => failLane s o i (plainFault fDataError 0 a.va.toNat) true
            | none => s) s
        else if 0 < bar.c ∧ n ≠ bar.expected then
          -- a mismatch: nothing is counted, and the packet takes the fault at the instruction (R89)
          lanes.foldl (fun s i => match s.op? op with
            | some o => failLane s o i (plainFault fBarrierMismatch (16 + b.toNat)) true
            | none => s) s
        else
          let (bar1, recs) := arrivals n lanes bar
          let s1 := s.updGroup o.gid fun g => recs.foldl (fun (g : Group) p =>
            let x := g.lane p.1
            g.setLane p.1 { x with phG := setBits x.phG b.toNat 1 (if p.2 then 1 else 0) }) g
          let s2 := ((s1.finishOp op).writeHome t (barBytes bar1)).touch t o.core
          if wait then (waitGrid s2 o.gid o.lanes b t).stepKeeps o.gid o.stepped s2 else s2
      | some (.error f) => match f.gpa with
        | some gpa => stage2Fault s o.tid o.gid o.asid gpa f.xl
        | none => (lanesOf o.lanes).foldl (fun s i => match s.op? op with
          | some o => failLane s o i f true
          | none => s) s
      | none => s
    | _, _ => s

/-- `GRID_BARRIER_ARRIVE` (R89). -/
def execGridBarrierArrive (op : Nat) (s : State) : Out :=
  whenEnabled (enabledGridBarrierArrive s op) s fun s => doGridBarrierArrive s op

/-! ### Prefetches and write-backs (R196, R197) -/

def enabledPrefFillComplete (s : State) (op : Nat) : Bool :=
  match s.op? op with
  | none => false
  | some o => match o.kind with
    | .pref .. => !(o.accs.any fun a => lineMoving s a.tr)
    | _ => false

/-- One sector of a prefetch: dropped under a stale generation, or with an uncorrectable error; else the home is filled
as the policy places it, and the L1 where it allows it (R173, R196). -/
def prefFill (s : State) (o : Op) (pol : Policy) (a : Access) : State :=
  match readHome s o.asid a.tr o.core 1 pol with
  | (.bytes _, s1) => s1.fillL1 o.core a.tr (a.va.toNat / 256 * 256 + a.tr.pa % 256) ((pol == .normal || pol == .keep) && cacheable s1 a.tr o.core)
  | (_, s1) => s1

/-- `PREF_FILL_COMPLETE` (R196). -/
def execPrefFillComplete (op : Nat) (s : State) : Out :=
  whenEnabled (enabledPrefFillComplete s op) s fun s =>
    match s.op? op with
    | none => s
    | some o => match o.kind with
      | .pref pol => (o.accs.foldl (fun s a => prefFill s o pol a) s).finishOp op
      | _ => s

def enabledCctlWbComplete (s : State) (op : Nat) : Bool :=
  match s.op? op with
  | none => false
  | some o => match o.kind with
    | .wb _ => !(o.accs.any fun a => lineMoving s a.tr)
    | _ => false

/-- `CCTL_WB_COMPLETE` (R197): the dirty sectors of the lines have gone to DRAM. -/
def execCctlWbComplete (op : Nat) (s : State) : Out :=
  whenEnabled (enabledCctlWbComplete s op) s fun s =>
    match s.op? op with
    | none => s
    | some o =>
      ({ s with l2 := s.l2.map fun l =>
          if o.accs.any fun a => a.tr.pa / 256 == l.line then { l with dirty := 0 } else l } : State).finishOp op

end Sys2Proof.Machine
end

