-- ==== Sys2Proof/Machine/Walks.lean ====
section
/-!
DEFINITION. Walks and the translation registers: walks that finish or wait for a migrating leaf (R156 to
R158), generation bumps (R160), invalidations (R161, R164), the core-pinned window (R163), and line moves
that end (R155).
-/

namespace Sys2Proof.Machine

open Sys2Proof

/-! ### Walks -/

abbrev Core.walk? (k : Core) (id : Nat) : Option Walk := k.walks.find? fun w => w.id = id

/-- A walk meets M = 1 at a valid leaf (R157). -/
abbrev migrates (s : State) (w : Walk) : Bool := pageMigrates s w.asid w.va

def enabledWalkComplete (s : State) (core id : Nat) : Bool :=
  match (s.coreOf core).walk? id with
  | none => false
  | some w => w.reread.isNone && !migrates s w

/-- A walk ends: its translation is installed, unless an invalidation has passed it (R161); or its failure
waits for its packet (R158). -/
def doWalkComplete (s : State) (core id : Nat) : State :=
  match (s.coreOf core).walk? id with
  | none => s
  | some w =>
    let s1 := s.updCore core fun k => { k with walks := k.walks.filter fun q => q.id ≠ id }
    if w.stale then s1
    else match walk s w.asid w.va with
      | .ok r =>
        (s1.setAccessed r.leaves).installTlb core
          { asid := w.asid, page := r.page, big := r.big,
            tr := { r.tr with pa := if r.big then r.tr.pa / 2 ^ 25 * 2 ^ 25 else r.tr.pa / 2 ^ 16 * 2 ^ 16 } }
      | .error (.bad lv s2 cause gpa) =>
        s1.updCore core fun k => { k with
          fails := k.fails ++ [{ asid := w.asid, page := w.va / 2 ^ 16, level := lv, s2 := s2, cause := cause, gpa := gpa }] }
      | .error .data => s1.updCore core fun k => { k with
          fails := k.fails ++ [{ asid := w.asid, page := w.va / 2 ^ 16, data := true }] }
      | .error _ => s1

/-- `WALK_COMPLETE` (R156). -/
def execWalkComplete (core walk : Nat) (s : State) : Out :=
  whenEnabled (enabledWalkComplete s core walk) s fun s => doWalkComplete s core walk

def enabledWalkMigrateReread (s : State) (core id : Nat) : Bool :=
  match (s.coreOf core).walk? id with
  | none => false
  | some w => match w.reread with
    | none => migrates s w
    | some t => decide (t ≤ s.now)

/-- `WALK_MIGRATE_REREAD` (R157): while M is 1 the entry is read again 1 µs later. -/
def execWalkMigrateReread (core walk : Nat) (s : State) : Out :=
  whenEnabled (enabledWalkMigrateReread s core walk) s fun s =>
    s.updCore core fun k => { k with walks := k.walks.map fun w =>
      if w.id = walk then { w with reread := if migrates s w then some (s.now + 1000) else none } else w }

/-! ### Generations (R160) -/

/-- A write of BUMP; ignored while BUSY (R160). -/
def bumpGen (s : State) (asid : Nat) : State := s.updCtx asid fun c => { c with bump := true }

/-- `XLGEN_BUMP` (R160). -/
def execXlgenBump (asid : Nat) (s : State) : Out := fromOutside (.xlgenBump asid) s fun s => bumpGen s asid

/-- TLB entries that meet a test are dropped, in every core and die. -/
def dropTlb (s : State) (p : TlbEntry → Bool) : State :=
  { s with
    cores := s.cores.map fun k => { k with tlb := k.tlb.filter fun e => !p e }
    stlb := s.stlb.filter fun e => !p e.2 }

/-- Monitor entries of a context's fibres watch words of an older generation: they leave the table, and the fibres test
again (log 26). -/
def retestWaits (s : State) (asid : Nat) : State :=
  let mine := fun (gid : Nat) => match s.anyGroup? gid with
    | some g => ((s.team? g.tid).map (·.asid)) == some asid
    | none => false
  let g1 := fun (g : Group) => if mine g.gid then
      g.updLanes (BitVec.allOnes 32) fun _ x => match x.wait with
        | some (.mon id true) => { x with wait := some (.mon id false) }
        | _ => x
    else g
  { s with
    monitors := s.monitors.filter fun m => !mine m.gid
    groups := s.groups.map g1
    teams := s.teams.map fun t => { t with parked := t.parked.map g1 } }

/-- The new generation is current at every check point; no access of an older one is performed after it, and
every one already performed is done. A wrap to 0 drops the ASID's TLB entries (R160). -/
def doXlgenBumpDone (s : State) (asid : Nat) : State :=
  let s1 := retestWaits (s.updCtx asid fun c => { c with gen := c.gen + 1, bump := false }) asid
  settleWrites (if (s1.ctxOf asid).gen = 0 then dropTlb s1 fun e => e.asid == asid else s1) (.xlgenBump asid)

/-- `XLGEN_BUMP_DONE` (R160). -/
def execXlgenBumpDone (asid : Nat) (s : State) : Out :=
  whenEnabled (s.ctxOf asid).bump s fun s => doXlgenBumpDone s asid

/-! ### Invalidations (R161, R164) -/

/-- One page of an ASID. -/
def invPage (s : State) (asid page : Nat) : State := dropTlb s fun e => e.hit asid (page * 65536)
/-- A whole ASID. -/
def invAsid (s : State) (asid : Nat) : State := dropTlb s fun e => e.asid == asid
/-- All ASIDs. -/
def invAll (s : State) : State := dropTlb s fun _ => true
/-- Stage 2 of a guest: the combined entries go, and the walks that began before are not installed; ignored while BUSY
(R164). -/
def invStage2 (s : State) (asid : Nat) : State :=
  if (s.ctxOf asid).inv then s else
  let s1 := (invAsid s asid).updCtx asid fun c => { c with inv := true }
  { s1 with cores := s1.cores.map fun k => { k with walks := k.walks.map fun w =>
      if w.asid = asid then { w with stale := true } else w } }

/-- `XLINV_PAGE` (R164). -/
def execXlinvPage (asid page : Nat) (s : State) : Out := fromOutside (.xlinvPage asid page) s fun s => invPage s asid page
/-- `XLINV_ASID` (R164). -/
def execXlinvAsid (asid : Nat) (s : State) : Out := fromOutside (.xlinvAsid asid) s fun s => invAsid s asid
/-- `XLINV_ALL` (R164). -/
def execXlinvAll (s : State) : Out := fromOutside .xlinvAll s invAll
/-- `XLINV_STAGE2` (R161). -/
def execXlinvStage2 (asid : Nat) (s : State) : Out := fromOutside (.xlinvStage2 asid) s fun s => invStage2 s asid

/-- A walk of the guest that began before the invalidation has still to finish. -/
def staleWalks (s : State) (asid : Nat) : Bool :=
  s.cores.any fun k => k.walks.any fun w => w.stale && w.asid == asid

/-- `XLINV_STAGE2_DONE` (R161). -/
def execXlinvStage2Done (asid : Nat) (s : State) : Out :=
  whenEnabled ((s.ctxOf asid).inv && !staleWalks s asid) s fun s =>
    settleWrites (s.updCtx asid fun c => { c with inv := false }) (.xlinvStage2 asid)

/-! ### The core-pinned window (R154, R163) -/

/-- Bytes moved from one place to another of the same size; the old place is cleared. -/
def Mem.moveTo (m : List Host.Cell) (src dst n : Nat) : List Host.Cell :=
  (m.filter fun c => decide (src ≤ c.1) && decide (c.1 < src + n)).foldl
    (fun m c => Mem.set m (c.1 - src + dst) c.2) (Mem.clear (Mem.clear m src n) dst n)

/-- Bytes copied from one place to another of the same size. -/
def Mem.copyTo (m : List Host.Cell) (src dst n : Nat) : List Host.Cell :=
  (m.filter fun c => decide (src ≤ c.1) && decide (c.1 < src + n)).foldl
    (fun m c => Mem.set m (c.1 - src + dst) c.2) (Mem.clear m dst n)

/-- The backing frame of a page pinned in a core, with its context: CPWIN names a page by its address alone, and of
several contexts that map it so the first gives the frame (DESIGN CHOICE, log 26). -/
def pinFrame (s : State) (core page : Nat) : Option (Nat × Nat) :=
  s.ctxs.findSome? fun c => match walk s c.asid (page * 65536) with
    | .ok r => if r.tr.home = 2 ∧ r.tr.target = core then some (c.asid, r.tr.pa / 65536 * 65536) else none
    | .error _ => none

/-- Pages of a window: VA[55:16]. -/
def winPages (win winb : Dword) : List Nat :=
  match dbits win 0 2 with
  | 0 => []
  | 1 => [dbits win 16 40]
  | _ => [dbits win 16 40, dbits winb 16 40]

/-- A register write as the fields keep it: reserved bits read 0, n = 3 reads as 2. -/
def cpwinValue (w : Dword) : Dword :=
  BitVec.ofNat 64 (dbits w 16 40 * 65536 + min 2 (dbits w 0 2))
def cpwinbValue (w : Dword) : Dword := BitVec.ofNat 64 (dbits w 16 40 * 65536)

/-- A page that the window gains or loses migrates in some context (R157). -/
def cpwinWaits (s : State) (core : Nat) (win winb : Dword) : Bool :=
  let old := (s.coreOf core).pins.map (·.1)
  let new := winPages (cpwinValue win) (cpwinbValue winb)
  ((old.filter fun p => !new.contains p) ++ new.filter fun p => !old.contains p).any fun p =>
    s.ctxs.any fun c => pageMigrates s c.asid (p * 65536)

/-- A page leaves the window: it is written back to the frame that it was loaded from (R163). -/
def unpin (s : State) (core : Nat) (p : Nat × Option Nat) : State :=
  { (s.updCore core fun k => { k with pins := k.pins.erase p }) with
    mem := match p.2 with
      | some f => Mem.moveTo s.mem (2 ^ 52 * (1 + core) + f) f 65536
      | none => s.mem }

/-- A page enters the window: it is loaded from its backing frame (R163). -/
def pin (s : State) (core page : Nat) : State :=
  let put := fun (s : State) (f : Option Nat) => s.updCore core fun k => { k with pins := k.pins ++ [(page, f)] }
  match pinFrame s core page with
  | some (asid, f) =>
    put (({ s with mem := Mem.copyTo s.mem f (2 ^ 52 * (1 + core) + f) 65536 } : State).accessed asid (page * 65536)) (some f)
  | none => put s none

/-- The window changes: removed pages are written back, added ones loaded (R163). -/
def setCpwin (s : State) (core : Nat) (win winb : Dword) : State :=
  let new := winPages (cpwinValue win) (cpwinbValue winb)
  let old := (s.coreOf core).pins
  let s1 := (old.filter fun p => !new.contains p.1).foldl (fun s p => unpin s core p) s
  let s2 := (new.filter fun p => !old.any fun q => q.1 == p).foldl (fun s p => pin s core p) s1
  s2.updCore core fun k => { k with cpwin := cpwinValue win, cpwinb := cpwinbValue winb }

/-- `CPWIN_WRITE` (R163): it waits while a page that it moves migrates (R157). -/
def execCpwinWrite (core : Nat) (win winb : Dword) (s : State) : Out :=
  if cpwinWaits s core win winb then .fault .notEnabled
  else fromOutside (.cpwinWrite core win winb) s fun s => setCpwin s core win winb

/-! ### Line moves (R155) -/

def enabledLineMigrateDone (s : State) (line : Nat) : Bool := s.touches.any fun t => t.line == line && t.moving

/-- A line and both its sectors are at their new slice; back home, its forwarding entry is freed (R155). -/
def lineArrives (s : State) (t : Touch) : State :=
  let held := s.l2.find? fun x => x.line = t.line && x.slice = t.holder
  let s1 := { s with
    l2 := s.l2.filter fun x => !(x.line == t.line && x.slice == t.holder)
    touches := s.touches.filterMap fun x =>
      if x.line ≠ t.line then some x
      else if t.cluster = sliceHash (256 * t.line) then none
      else some { x with moving := false, holder := t.cluster, count := 0 } }
  match held with
  | some x => s1.l2Enter { x with slice := t.cluster }
  | none => s1

/-- `LINE_MIGRATE_DONE` (R155). -/
def execLineMigrateDone (line : Nat) (s : State) : Out :=
  whenEnabled (enabledLineMigrateDone s line) s fun s =>
    match s.touches.find? fun t => t.line = line && t.moving with
    | some t => lineArrives s t
    | none => s

end Sys2Proof.Machine
end

