-- ==== Sys2Proof/Machine/Ctl.lean ====
section
/-!
DEFINITION. Class C: control flow, fibres and groups, team barriers, yield points, traps and time (R71 to
R89, R234 to R236), and what a cycle does at its end: releases at `RCVG`, group restarts, ended groups.
-/

namespace Sys2Proof.Machine

open Sys2Proof

/-! ### Transfers (R52, R80, R81) -/

/-- Target of an offset in words from the clause's header (R52). -/
abbrev Here.target {n : Nat} (h : Here) (off : BitVec n) : Nat :=
  (h.first.header + off.signExtend 56 * 4).toNat

/-- The packet in hand without some lanes. -/
abbrev Cur.minus (c : Cur) (m : BitVec 32) : Cur := { c with pk := { c.pk with lanes := without c.pk.lanes m } }

/-- Some fibres transfer, some fail with faults of their own, the others go to the next clause (R52,
R81). A bad target traps its own fibre alone, the others go on (DESIGN CHOICE, log 26: R94 speaks of the packet's). -/
def transferSome (s : State) (h : Here) (targets : List (Nat × Addr)) (bad : List (List (Nat × FaultRec))) :
    State :=
  let lanes := maskOf (bad.flatMap fun l => l.map (·.1))
  bad.foldl (fun s l => match l with
    | [] => s
    | (_, f) :: _ => s.takeTrap h.g.gid (maskOf (l.map (·.1))) f l) (s.transfer (h.c.minus lanes) targets)

/-- Targets that are no clause starts (R31). -/
def badTargets (s : State) (h : Here) (l : List (Nat × Nat)) : List (Nat × FaultRec) :=
  l.filterMap fun p => if clauseStart s h.t p.2 then none else some (p.1, plainFault fMisalignedTarget 0 p.2)

/-- Each fibre of the list transfers to its target (R81). The packet is held while a page that tells a clause start
migrates (R157). -/
def jump (s : State) (h : Here) (l : List (Nat × Nat)) : State :=
  if l.any fun p => targetWaits s h.t p.2 then s.hold h.c h.t.asid []
  else
  let bad := badTargets s h l
  transferSome s h ((l.filter fun p => !bad.any fun b => b.1 == p.1).map fun p => (p.1, BitVec.ofNat 56 p.2)) [bad]

/-- Each fibre of the list pushes its return address and transfers (R81). -/
def callTo (s : State) (h : Here) (i : Instr) (l : List (Nat × Nat)) : State :=
  if l.any fun p => targetWaits s h.t p.2 then s.hold h.c h.t.asid []
  else
  let bad := badTargets s h l
  let rest := l.filter fun p => !bad.any fun b => b.1 == p.1
  let low := rest.filter fun p => (h.g.lane p.1).sp.toNat < 8 + (h.g.lane p.1).stackLo.toNat
  let push := rest.filter fun p => !low.any fun q => q.1 == p.1
  let overF := low.map fun p => (p.1, plainFault fStackOverflow 0 ((h.g.lane p.1).sp - 8).toNat)
  withAccess s h .global 8 .store true (push.map fun p => (p.1, ((h.g.lane p.1).sp - 8).toNat)) fun ts =>
    let ret := leBytes 8 h.first.clauseEnd.toNat
    let accs := accsOf ts (fun _ => 0) (fun _ => 0)
    let es := sectorEntries none (storeRecs s.serial false ts fun _ => ret)
    if !otRoom s h.c.core accs || !sqRoom h.g es then s.hold h.c h.t.asid []
    else
      let lanes := maskOf (push.map (·.1))
      let s1 := s.updGroup h.g.gid fun g =>
        { (g.updLanes lanes fun _ x => { x with sp := x.sp - 8 }) with sq := g.sq ++ es }
      let s2 := if push.isEmpty then s1
        else s1.addOp { mkOp i h s (.store .normal none) accs with
          flags := [], lanes := lanes, still := 0 }
      transferSome s2 h (push.map fun p => (p.1, BitVec.ofNat 56 p.2)) [bad, overF]

/-- Active fibres whose predicate, negated or not, holds (R52). -/
abbrev Here.taken (h : Here) (p : BitVec 6) (neg : Bool) : List Nat :=
  (lanesOf h.act).filter fun i => (h.g.lane i).pred p.toNat != neg

/-- `NOP` (R82). -/
def execNop (s : State) : Out := issue .nop s fun h => s.advance h.c 1

/-- `BRA` (R80, R81). -/
def execBra (p : BitVec 6) (neg : Bool) (off : BitVec 19) (s : State) : Out :=
  issue (.bra p neg off) s fun h => jump s h ((h.taken p neg).map fun i => (i, h.target off))

/-- `BRX` (R80, R81). -/
def execBrx (a : Src) (s : State) : Out :=
  issue (.brx a) s fun h => withOperands (.brx a) s h fun ins s =>
    jump s h (ins.map fun x => (x.lane, (x.s 0).toNat))

/-- `CALL` (R80, R81). -/
def execCall (p : BitVec 6) (neg : Bool) (off : BitVec 19) (s : State) : Out :=
  issue (.call p neg off) s fun h =>
    callTo s h (.call p neg off) ((h.taken p neg).map fun i => (i, h.target off))

/-- `CALLX` (R80, R81). -/
def execCallx (a : Src) (s : State) : Out :=
  issue (.callx a) s fun h => withOperands (.callx a) s h fun ins s =>
    callTo s h (.callx a) (ins.map fun x => (x.lane, (x.s 0).toNat))

/-- `RET` (R81): the pop is a load that holds its fibres; the others go to the next clause. -/
def execRet (s : State) : Out :=
  issue .ret s fun h =>
    withAccess s h .global 8 .load true ((lanesOf h.act).map fun i => (i, (h.g.lane i).sp.toNat)) fun ts =>
      let accs := accsOf ts (fun _ => 0) (fun _ => 0)
      if !otRoom s h.c.core accs then s.hold h.c h.t.asid []
      else
        let s1 := (s.transfer (h.c.minus h.act) []).goneOn h.g.gid h.act
        let s2 := s1.updGroup h.g.gid fun g => g.issued h.act
        nameLoads (s2.addOp { mkOp .ret h s .ret accs with flags := [], holds := true }) h ts

/-! ### Fibres (R71 to R77) -/

/-- A fibre as it starts in a lane (R58, R73, R76, R79, R87, R177, R224). -/
def Fibre.start (x : Fibre) (pc : Addr) (mode : Bool) (regs : Vector Word 64) : Fibre :=
  { status := .running, pc := pc, regs := regs, sp := x.stackHi.setWidth 56, fp := x.stackHi.setWidth 56,
    mode := mode, stackLo := x.stackLo, stackHi := x.stackHi, winBase := x.winBase }

/-- The first `n` registers of a window; the rest are 0. -/
def keepRegs (r : Vector Word 64) (n : Nat) : Vector Word 64 := mapLanes r fun i v => if i < n then v else 0

/-- A lane that `FORK` may take (R72). -/
abbrev FStatus.free : FStatus → Bool
  | .empty | .endedSucc | .ended => true
  | _ => false

/-- Each active fibre starts a fibre in the lowest free lane, or reports that there is none (R73). -/
def forkLanes (g : Group) (pd : BitVec 6) (n : Nat) (target : Addr) (mode : Bool) (lanes : List Nat) : Group :=
  lanes.foldl (fun (g : Group) i =>
    match (List.range 32).find? fun j => (g.lane j).status.free with
    | none => g.setLane i ((g.lane i).setPred pd.toNat false)
    | some j =>
      let g1 := g.setLane j
        { (g.lane j).start target mode (keepRegs (g.lane i).regs n) with status := g.released }
      g1.setLane i ((g1.lane i).setPred pd.toNat true)) g

/-- `FORK` (R72, R73). -/
def execFork (pd : BitVec 6) (n : BitVec 7) (off : BitVec 19) (s : State) : Out :=
  issue (.fork pd n off) s fun h =>
    if targetWaits s h.t (h.target off) then s.hold h.c h.t.asid []
    else if !clauseStart s h.t (h.target off) then
      s.trapPacket h.c h.act (plainFault fMisalignedTarget 0 (h.target off))
        (allOwn h.act (plainFault fMisalignedTarget 0 (h.target off)))
    else
      (s.updGroup h.g.gid fun g => forkLanes g pd n.toNat (BitVec.ofNat 56 (h.target off)) h.t.launch.privileged
        (lanesOf h.act)).advance h.c 2

/-- `END` (R74, R75). -/
def execEnd (succ : Option (BitVec 7 × BitVec 18)) (s : State) : Out :=
  issue (.endF succ) s fun h =>
    let finish (rec_ : Option (Addr × BitVec 7)) : State :=
      let s1 := s.transfer h.c ((lanesOf h.act).map fun i => (i, (h.g.lane i).pc))
      s1.updGroup h.g.gid fun g => g.updLanes h.act fun _ x =>
        { x with status := if rec_.isSome then .endedSucc else .ended, succ := rec_, marks := [],
                 region := none, rollback := none, defer := [], demoted := false, demWait := 0 }
    match succ with
    | none => finish none
    | some (k, off) =>
      if targetWaits s h.t (h.target off) then s.hold h.c h.t.asid []
      else if !clauseStart s h.t (h.target off) then
        s.trapPacket h.c h.act (plainFault fMisalignedTarget 0 (h.target off))
          (allOwn h.act (plainFault fMisalignedTarget 0 (h.target off)))
      else finish (some (BitVec.ofNat 56 (h.target off), k))

/-- Lanes whose fibre ends no longer hold demoted siblings back (R68). -/
def Group.settle (g : Group) : Group :=
  let run := g.lanesWhere fun x => x.status == .running && x.wait.isNone
  g.updLanes (BitVec.allOnes 32) fun _ x => { x with demWait := x.demWait &&& run }

/-- `RCVG` (R71): the packet's fibres wait at it, guard-false ones with the others. -/
def execRcvg (s : State) : Out :=
  issue .rcvg s fun h =>
    let s1 := (s.goneOn h.g.gid h.c.pk.lanes).updGroup h.g.gid fun g =>
      (g.issued h.c.pk.lanes).updLanes h.c.pk.lanes fun _ x => { x with status := .rcvg, rcvg := x.pc }
    s1.setPort h.c none

/-- The cycle of a group's scheduler has ended. -/
abbrev cycleEnd (s : State) (g : Group) : Bool := (vget (s.coreOf g.core).scheds g.sched {}).phase == 0

/-- Every live fibre of the group waits at some `RCVG` (R71). -/
def enabledRcvgRelease (s : State) (gid : Nat) : Bool :=
  match s.group? gid with
  | none => false
  | some g => cycleEnd s g && g.liveLanes != 0 && g.lanesWhere (fun x => x.status == .rcvg) == g.liveLanes

/-- `RCVG_RELEASE` (R71): the fibres at the lowest `RCVG` go on. -/
def execRcvgRelease (gid : Nat) (s : State) : Out :=
  whenEnabled (enabledRcvgRelease s gid) s fun s =>
    s.updGroup gid fun g =>
      let at_ := (lanesOf g.liveLanes).map fun i => (g.lane i).rcvg.toNat
      let a := at_.foldl Nat.min (at_.headD 0)
      g.updLanes (g.lanesWhere fun x => x.status == .rcvg && x.rcvg.toNat == a) fun _ x =>
        { x with status := g.released, pc := BitVec.ofNat 56 (a + 4), rem := x.rem - 1,
                 active := x.active && x.rem != 1, demoted := false, demWait := 0 }

/-- No live fibre, a successor record, and no register write outstanding (R76). -/
def enabledGroupRestart (s : State) (gid : Nat) : Bool :=
  match s.group? gid with
  | none => false
  | some g => cycleEnd s g && g.liveLanes == 0 && g.lanesWhere (fun x => x.status == .endedSucc) != 0 &&
      !pendingWrites (s.groupOps gid)

/-- A group restarted from the successor of its lowest lane that has one (R76). The fibres' phase bits are cleared as
R87 says; of the "barrier records" that R76 carries over, the team's are meant (log 26). -/
def Group.restart (g : Group) (mode : Bool) : Group :=
  match (lanesOf (g.lanesWhere fun x => x.status == .endedSucc)).head? with
  | none => g
  | some l =>
    let pc := ((g.lane l).succ.map fun (p : Addr × BitVec 7) => p.1).getD 0
    g.updLanes (BitVec.allOnes 32) fun _ x =>
      let k := if x.status = .endedSucc then ((x.succ.map fun (p : Addr × BitVec 7) => p.2).getD 0).toNat else 0
      { x.start pc mode (keepRegs x.regs k) with status := g.released }

/-- `GROUP_RESTART` (R76). -/
def execGroupRestart (gid : Nat) (s : State) : Out :=
  whenEnabled (enabledGroupRestart s gid) s fun s =>
    let mode := match s.teamOf? gid with
      | some t => t.launch.privileged
      | none => false
    s.updGroup gid fun g => g.restart mode

/-- The group has ended (R77). -/
abbrev Group.hasEnded (g : Group) : Bool :=
  g.liveLanes == 0 && g.lanesWhere (fun x => x.status == .endedSucc) == 0

def enabledGroupSlotFree (s : State) (gid : Nat) : Bool :=
  match s.group? gid with
  | none => false
  | some g => ((s.team? g.tid).map (·.phase)) == some .running && cycleEnd s g && g.hasEnded && g.flags.toList.all (· == 0) && g.sq.isEmpty && g.entering.isEmpty

/-- Operations that do nothing but write registers of their group, or hold its later words back, end with it; the others
are still performed (R77). -/
abbrev OpKind.ofFibres : OpKind → Bool
  | .load .. | .scratchLoad .. | .constLoad .. | .redf | .fence .. | .waitc .. | .ret | .slice => true
  | _ => false

/-- `GROUP_SLOT_FREE` (R77): the slot and the registers are free. -/
def execGroupSlotFree (gid : Nat) (s : State) : Out :=
  whenEnabled (enabledGroupSlotFree s gid) s fun s =>
    { s with
      groups := s.groups.filter fun g => g.gid ≠ gid
      ops := s.ops.filter fun o => !(o.gid == gid && o.kind.ofFibres) }

/-! ### `SPAWN` (R78, R79) -/

/-- Bytes of a team's state under R239. -/
def saveBytes (windows : List Nat) (scr nsub atoms records : Nat) : Nat :=
  256 + 4096 * windows.length + (windows.map fun w => 128 * w).sum + 256 * windows.length + 8192 + 32 * atoms +
    8192 * windows.length + scr + 1024 * nsub + 64 * records

/-- Group slots of a core and the registers its groups hold. -/
abbrev State.coreGroups (s : State) (core : Nat) : List Group := s.groups.filter fun g => g.core = core
abbrev regsUsed (l : List Group) : Nat := (l.map fun g => 32 * g.window).sum

/-- Free slots of a scheduler of a core, ascending. -/
def freeSlots (s : State) (core sched : Nat) : List Nat :=
  (List.range 16).filter fun k => !(s.coreGroups core).any fun g => g.sched == sched && g.slot == k

/-- The lowest stretch of `w` free units from `b` up; `used` lists stretches in use by start and length. -/
def freeUnits (used : List (Nat × Nat)) (w : Nat) : Nat → Nat → Nat
  | 0, b => b
  | n + 1, b => match used.find? fun u => overlap u.1 u.2 b w with
    | some u => freeUnits used w n (u.1 + u.2)
    | none => b

/-- First registers for the windows of `n` lanes, in units of 8 registers (R58). Where the free registers form no
stretch of a window's size, the lane takes the lowest free unit (log 26). -/
def freeWindows (used : List (Nat × Nat)) (w : Nat) : Nat → List (BitVec 14)
  | 0 => []
  | n + 1 =>
    let b := freeUnits used w used.length 0
    let b := if b + w ≤ 16384 then b else freeUnits used 1 used.length 0
    BitVec.ofNat 14 b :: freeWindows ((b, w) :: used) w n

/-- Windows in use by some groups, as starts and lengths in units of 8 registers. -/
abbrev windowsOf (l : List Group) : List (Nat × Nat) :=
  l.flatMap fun g => (List.range 32).map fun i => ((g.lane i).winBase.toNat, g.window / 8)

/-- A group placed on a core: its lanes take free windows there (R58). -/
def Group.placed (g : Group) (here : List Group) : Group :=
  let l := freeWindows (windowsOf here) (g.window / 8) 32
  g.updLanes (BitVec.allOnes 32) fun i x => { x with winBase := (l[i]?).getD 0 }

/-- Group slots that a context may hold on a core (R79, R365): its grant of the group-slot pool. -/
def slotAllotment (s : State) (asid : Nat) : Nat := (s.ctxOf asid).gov.grantOf 0

/-- Group slots that a context holds on a core. -/
def slotsHeld (s : State) (asid core : Nat) : Nat :=
  ((s.coreGroups core).filter fun g => ((s.team? g.tid).map (·.asid)) == some asid).length

/-- Numbers a child group may take (R79). -/
def childNumbers (s : State) (t : Team) : List Nat :=
  (List.range 32).filter fun n => t.launch.gp + t.launch.gc ≤ n && !(s.teamGroups t.tid).any fun g => g.num == n

/-- A child group can be created (R79); not when the team holds every number from gp + gc to 31, for which R79 has no
condition (log 26). -/
def spawnOk (s : State) (g : Group) (t : Team) : Bool :=
  let mine := s.teamGroups t.tid
  (List.range 4).any (fun k => !(freeSlots s g.core k).isEmpty) && mine.length < 32 &&
  !(childNumbers s t).isEmpty && regsUsed (s.coreGroups g.core) + 32 * g.window ≤ 131072 &&
  slotsHeld s t.asid g.core < slotAllotment s t.asid &&
  saveBytes (mine.map (·.window) ++ [g.window]) t.scrSize t.nsub 1024 49 ≤ t.launch.saveSz

/-- Stack bounds of a lane (R357). -/
def stackBounds (t : Team) (num lane : Nat) : Dword × Dword :=
  let size := 256 * t.launch.stackUnits
  let lo := t.launch.stack + ((t.teamNo * 32 + num) * 32 + lane) * size
  (BitVec.ofNat 64 lo, BitVec.ofNat 64 (lo + size))

/-- The child group of a `SPAWN` (R79). The child of a halted group, which a debugger's step spawns, is halted with it;
it has acquired what its parent has (log 26). -/
def childGroup (s : State) (h : Here) (target : Addr) : Group :=
  let sched := ((List.range 4).find? fun k => !(freeSlots s h.g.core k).isEmpty).getD 0
  let num := (childNumbers s h.t).headD 0
  let base : Group :=
    { gid := s.serial, tid := h.t.tid, core := h.g.core, sched := sched, slot := (freeSlots s h.g.core sched).headD 0,
      num := num, consumer := h.g.consumer, window := h.g.window,
      scal := h.g.scal, fpctl := h.g.fpctl, cbase := h.g.cbase, homeSched := sched, amark := h.g.amark
      age := s.serial, halted := h.g.halted }
  (base.placed (s.coreGroups h.g.core)).updLanes (BitVec.allOnes 32) fun i y =>
    let (lo, hi) := stackBounds h.t num i
    let x : Fibre := { stackLo := lo, stackHi := hi, sp := hi.setWidth 56, fp := hi.setWidth 56, winBase := y.winBase }
    if h.act.getLsbD i then
      { x.start target h.t.launch.privileged (keepRegs (h.g.lane i).regs 8) with status := base.released }
    else x

/-- `SPAWN` (R78, R79): a release at team scope towards the child, so it issues once the group's earlier
stores have passed. -/
def execSpawn (pd : BitVec 6) (off : BitVec 19) (s : State) : Out :=
  issue (.spawn pd off) s fun h =>
    if targetWaits s h.t (h.target off) then s.hold h.c h.t.asid []
    else if !clauseStart s h.t (h.target off) then
      s.trapPacket h.c h.act (plainFault fMisalignedTarget 0 (h.target off))
        (allOwn h.act (plainFault fMisalignedTarget 0 (h.target off)))
    else
      let ok := spawnOk s h.g h.t
      if ok && !performedAt s h.g.gid s.serial .team then s.hold h.c h.t.asid []
      else
        let s1 := (s.updGroup h.g.gid fun g =>
          (lanesOf h.act).foldl (fun (g : Group) i => g.setLane i ((g.lane i).setPred pd.toNat ok)) g).advance h.c 1
        if ok then
          { s1 with groups := s1.groups ++ [childGroup s1 h (BitVec.ofNat 56 (h.target off))]
                    serial := s1.serial + 1 }
        else s1

/-! ### Team barriers (R86 to R88) -/

/-- Fibres of a team released from a barrier whose phase differs from theirs (R87); their group's back-off
level returns to 0 (R70). -/
def fireBarT (s : State) (tid : Nat) (b : BitVec 4) : State :=
  match s.team? tid with
  | none => s
  | some t =>
    let ph := (vget t.bars b.toNat {}).phase.getLsbD 0
    { s with groups := s.groups.map fun g =>
        if g.tid ≠ tid then g
        else
          let m := g.lanesWhere fun x => x.wait == some (.barT b) && x.phT.getLsbD b.toNat != ph
          if m = 0 then g
          else { (g.updLanes m fun _ x =>
              { x with status := if x.status = .barrier then g.released else x.status, wait := none
                       phT := setBits x.phT b.toNat 1 (if ph then 1 else 0) }) with backoff := 0 } }

/-- The packet has gone on past a barrier word; its active fibres wait for a team barrier (R87). -/
def waitTeam (s : State) (h : Here) (b : BitVec 4) : State :=
  let s1 := s.updGroup h.g.gid fun g => g.updLanes h.act fun _ x =>
    { x with wait := some (.barT b)
             status := if x.status = .running ∨ x.status = .halted then .barrier else x.status }
  let s2 := (fireBarT s1 h.t.tid b).stepKeeps h.g.gid h.g.halted s1
  -- fibres that still wait have left the packet
  match s2.group? h.g.gid with
  | none => s2
  | some g => s2.dropLanes h.g.gid (h.act &&& g.lanesWhere fun x => x.wait.isSome)

/-- One lane arrives at a team barrier; fibres that wait for a phase it completes are released (R87). -/
def arriveLane (s : State) (tid gid : Nat) (b : BitVec 4) (e lane : Nat) : State :=
  match s.team? tid with
  | none => s
  | some t =>
    let (bar1, recs) := arrivals e [lane] (vget t.bars b.toNat {})
    let s1 := (s.updTeam tid fun t => { t with bars := vset t.bars b.toNat bar1 }).updGroup gid fun g =>
      recs.foldl (fun (g : Group) p =>
        let x := g.lane p.1
        g.setLane p.1 { x with phT := setBits x.phT b.toNat 1 (if p.2 then 1 else 0) }) g
    if bar1.c = 0 then fireBarT s1 tid b else s1

/-- Arrivals at a team barrier, in ascending lane order (R87). -/
def arriveTeam (s : State) (h : Here) (b : BitVec 4) (e : Nat) : State :=
  ((lanesOf h.act).foldl (fun s i => arriveLane s h.t.tid h.g.gid b e i) s).stepKeeps h.g.gid h.g.halted s

/-- The count of an arrival, once per packet; a value out of range (R86), or one that differs from the
count of an open phase (R87), raises BARRIER_MISMATCH. -/
def arrive (i : Instr) (b : BitVec 4) (grid wait : Bool) (s : State) : Out :=
  issue i s fun h => withOperands i s h fun ins s =>
    let e := ((ins.head?).map fun (x : LaneIn) => (x.w 0).toNat).getD 0
    let f := plainFault fBarrierMismatch (b.toNat + if grid then 16 else 0)
    if e = 0 ∨ (if grid then 2 ^ 31 - 1 else 1024) < e then s.trapPacket h.c h.act f (allOwn h.act f)
    else if grid then
      -- one barrier atomic per packet; the fibres do not go on until the home has replied (R89)
      let s1 := s.advance h.c i.words
      (s1.addOp { mkOp i h s (.barGrid b wait e) [{ lane := h.lead, va := BitVec.ofNat 64 (h.t.barEntry b) }] with
        flags := [], holds := true }).dropLanes h.g.gid h.act
    else
      let bar := vget h.t.bars b.toNat {}
      if 0 < bar.c ∧ e ≠ bar.expected then s.trapPacket h.c h.act f (allOwn h.act f)
      -- the arrival is a release at team scope (R88)
      else if !performedAt s h.g.gid s.serial .team then s.hold h.c h.t.asid []
      else
        let s1 := arriveTeam (s.advance h.c i.words) h b e
        if wait then waitTeam s1 h b else s1

/-- `BARA` (R86, R87). -/
def execBara (b : BitVec 4) (grid : Bool) (count : Src) (s : State) : Out :=
  arrive (.bara b grid count) b grid false s

/-- `BAR` (R86, R87). -/
def execBar (b : BitVec 4) (grid : Bool) (count : Src) (s : State) : Out :=
  arrive (.bar b grid count) b grid true s

/-- `BARW` (R86, R87, R89). -/
def execBarw (b : BitVec 4) (grid : Bool) (s : State) : Out :=
  issue (.barw b grid) s fun h =>
    if grid then
      match translate s h.c.core h.t.asid (h.t.barEntry b) h.lead .load false with
      | .hold w => s.hold h.c h.t.asid w
      | .trap f _ => s.trapPacket h.c h.act f (allOwn h.act f)
      | .ok t =>
        if lineMoving s t || heldBack s h.g.gid s.serial false then s.hold h.c h.t.asid []
        else match readHome s h.t.asid t h.c.core 16 with
          | (.rejected, s) => s.hold h.c h.t.asid [h.t.barEntry b]
          | (.error, s) =>
            let f := plainFault fDataError 0 (h.t.barEntry b)
            s.trapPacket h.c h.act f (allOwn h.act f)
          | (_, s) =>
            let s1 := (waitGrid (s.advance h.c 1) h.g.gid h.act b t).stepKeeps h.g.gid h.g.halted s
            match s1.group? h.g.gid with
            | none => s1
            | some g => s1.dropLanes h.g.gid (h.act &&& g.lanesWhere fun x => x.wait.isSome)
    else waitTeam (s.advance h.c 1) h b

/-! ### Yield points (R82) -/

/-- `YIELD` (R82): under a drain request the packet's fibres stop after it. -/
def execYield (s : State) : Out :=
  issue .yield s fun h =>
    let s1 := s.advance h.c 1
    if h.t.drain then
      (s1.updGroup h.g.gid fun g => g.updLanes h.c.pk.lanes fun _ x => { x with wait := some .atYield }).dropLanes
        h.g.gid h.c.pk.lanes
    else s1

/-! ### Traps and time (R234 to R236) -/

/-- `TRAP` (R234): every active fibre takes the trap and resumes at the next clause. -/
def execTrap (code : BitVec 16) (s : State) : Out :=
  issue (.trap code) s fun h =>
    (s.transfer (h.c.minus h.act) []).takeTrap h.g.gid h.act
      { plainFault fTrap code.toNat with resume := some (h.first.clauseEnd, 0, h.hdr) } []

/-- `BRKPT` (R234): with a debugger attached the group halts, and the debug block records the word;
otherwise a trap, which resumes at the next word. -/
def execBrkpt (s : State) : Out :=
  issue .brkpt s fun h =>
    if h.t.dbgctl.getLsbD 0 then
      let s1 := ((s.advance h.c 1).dropLanes h.g.gid h.c.pk.lanes).haltGroup h.g.gid
      { s1 with host := { s1.host with dbgpc := h.first.pc.setWidth 64 } }
    else
      (s.endPacket h.c (without h.c.pk.lanes h.act)).takeTrap h.g.gid h.act
        { plainFault fBreakpoint with resume := some (h.first.pc + 4, h.first.rem - 1, h.hdr) } []

/-- `RTE` (R235). -/
def execRte (s : State) : Out :=
  issue .rte s fun h =>
    if h.user then s.fault h.c h.act fPrivilege
    else if (lanesOf h.act).any fun i =>
        let x := h.g.lane i
        x.estatus.getLsbD 15 && !x.estatus.getLsbD 13 && targetWaits s h.t x.epc.toNat then s.hold h.c h.t.asid []
    else
      let act := lanesOf h.act
      let noRec := act.filter fun i => !(h.g.lane i).estatus.getLsbD 15
      let bad := act.filter fun i =>
        let x := h.g.lane i
        x.estatus.getLsbD 15 && (x.epc.toNat % 4 != 0 ||
          (!x.estatus.getLsbD 13 && !clauseStart s h.t x.epc.toNat))
      let ok := act.filter fun i => !noRec.contains i && !bad.contains i
      let s1 := s.transfer (h.c.minus h.act) []
      let s2 := (s1.goneOn h.g.gid (maskOf ok)).updGroup h.g.gid fun g =>
        (g.issued (maskOf ok)).updLanes (maskOf ok) fun _ x =>
          { x.returnFrom with status := if g.halted then .halted else x.status }
      let s3 := demote s2 h.g.gid (maskOf (ok.filter fun i => (h.g.lane i).estatus.getLsbD 12))
      let s4 := if noRec.isEmpty then s3
        else s3.takeTrap h.g.gid (maskOf noRec) (plainFault fIllegalEncoding)
          (noRec.map fun i => (i, plainFault fIllegalEncoding))
      if bad.isEmpty then s4
      else
        let own := bad.map fun i => (i, plainFault fMisalignedTarget 0 (h.g.lane i).epc.toNat)
        s4.takeTrap h.g.gid (maskOf bad) ((own.head?.map (·.2)).getD {}) own

/-- `CLK` (R236). -/
def execClk (d : Dst) (s : State) : Out :=
  vecExec (.clk d) (fun _ l => l.map fun _ => out64 (BitVec.ofNat 64 s.now)) s

end Sys2Proof.Machine
end

