-- ==== Sys2Proof/Machine/Slices.lean ====
section
/-!
DEFINITION. The frame-slice unit (R326 to R347): marks, the slice heap, `CUT`, `GRAFT`, `SDROP` and
`SINFO`. Each active fibre acts on its own, in ascending lane order, and a fault is its own (R344).
-/

namespace Sys2Proof.Machine

open Sys2Proof

/-! ### One fibre's progress -/

/-- What one fibre's slice instruction comes to: a value, its own fault, or a wait for walks of some
addresses, which holds the packet. -/
inductive Sl (α : Type) where
  | ok (a : α) (s : State)
  | trap (f : FaultRec) (s : State)
  | hold (walks : List Nat)

/-- Goes on with a value. -/
def Sl.bind {α β : Type} (r : Sl α) (k : α → State → Sl β) : Sl β :=
  match r with
  | .ok a s => k a s
  | .trap f s => .trap f s
  | .hold w => .hold w

/-- Runs every active fibre in turn: the fibres that fault with their faults, and the others with their results. -/
def eachLane (f : State → Nat → Sl Word) : List Nat → State → Sl (List (Nat × FaultRec) × List (Nat × Nat))
  | [], s => .ok ([], []) s
  | i :: r, s =>
    match f s i with
    | .hold w => .hold w
    | .ok v s1 => (eachLane f r s1).bind fun l s2 => .ok (l.1, (i, v.toNat) :: l.2) s2
    | .trap e s1 => (eachLane f r s1).bind fun l s2 => .ok ((i, e) :: l.1, l.2) s2

/-- Some fibres, no longer in the packet, take faults of their own (R226, R344). -/
def trapLanes (s : State) (h : Here) (bad : List (Nat × FaultRec)) : State :=
  ((bad.map fun p => p.2.cause).eraseDups.reverse).foldl (fun s code =>
    let l := bad.filter fun p => p.2.cause == code
    s.raise h.c.core h.g.gid (maskOf (l.map (·.1))) ((l.head?.map (·.2)).getD {}) l) s

/-- The results of the fibres that complete, in their destination; a scalar takes the value of the lowest of them
(R44, R344). -/
def sliceDst (s : State) (h : Here) (d : Option Dst) (vals : List (Nat × Nat)) : State :=
  match d with
  | none => s
  | some d => s.updGroup h.g.gid fun g => g.writeDst d 1 ((vals.head?.map (·.1)).getD 0) vals

/-- A slice instruction over the active fibres: the packet is held, or those that fault trap and the others
go on (`done`). -/
def sliceExec (s : State) (h : Here) (d : Option Dst) (f : State → Nat → Sl Word)
    (done : State → BitVec 32 → Cur → State) : State :=
  match eachLane f (lanesOf h.act) s with
  | .hold w => s.hold h.c h.t.asid w
  | .trap _ s1 => s1
  | .ok (bad, vals) s1 =>
    let m := maskOf (bad.map (·.1))
    trapLanes (done (sliceDst s1 h d vals) (without h.act m) (h.c.minus m)) h bad

/-- The lane of a group as it is now. -/
abbrev laneNow (s : State) (h : Here) (i : Nat) : Fibre := ((s.group? h.g.gid).getD h.g).lane i

/-- A fibre rewritten. -/
abbrev setLaneNow (s : State) (h : Here) (i : Nat) (f : Fibre → Fibre) : State :=
  s.updGroup h.g.gid fun g => g.setLane i (f (g.lane i))

/-! ### The stack (R326, R345) -/

/-- Depth of an address on a fibre's stack (R326). -/
abbrev Fibre.depth (x : Fibre) (a : Addr) : Dword := x.stackHi - a.setWidth 64
/-- The address at a depth. -/
abbrev Fibre.atDepth (x : Fibre) (d : Dword) : Addr := (x.stackHi - d).setWidth 56

/-- SP and FP are multiples of 8 (R326). -/
abbrev Fibre.aligned8 (x : Fibre) : Bool := x.sp.toNat % 8 == 0 && x.fp.toNat % 8 == 0

/-- The failed check of R326. -/
abbrev spFault (x : Fibre) (lane : Nat) : FaultRec := checkFault fMisalignedAccess x.sp.toNat lane .load 4

/-- The 8 bytes at an address, read as by `LD`: whole from the store queue, the pending set, the L1 or the home; bytes
that lie in several of them wait for the later one (R174, R207, R345). -/
def stackRead (s : State) (h : Here) (lane va : Nat) : Sl Dword :=
  match accessOne s h .global 8 .load false lane va with
  | .trap f _ => .trap f s
  | .hold w => .hold w
  | .ok tr =>
    if lineMoving s tr || heldBack s h.g.gid s.serial false then .hold []
    else
      let g := (s.group? h.g.gid).getD h.g
      let acc : Access := { lane := lane, va := BitVec.ofNat 64 va, tr := tr }
      let pick := fun (l : List Byte) => BitVec.ofNat 64 (leNat l)
      match coreSource s g s.serial false acc 8 with
      | .val l => .ok (pick l) s
      | .wait => .hold []
      | .home =>
        let hit := match (s.coreOf h.c.core).sector? (tr.pa / 128) with
          | some l => if cacheable s tr h.c.core && g.amark ≤ l.stamp then some (l.bytes.drop (tr.pa % 128) |>.take 8) else none
          | none => none
        let home := fun (s : State) => match readHome s h.t.asid tr h.c.core 8 with
          | (.bytes l, s1) => Sl.ok (pick l) (s1.refresh h.c.core tr va)
          | (.error, s1) => Sl.trap (plainFault fDataError 0 va) s1
          | (_, _) => Sl.hold [va]
        match hit with
        | none => home s
        | some l => if l = Mem.read s.mem tr.key 8 ∧ !stale s h.t.asid tr then .ok (pick l) s
          else match s.choose 2 with
            | (0, s1) => home s1
            | (_, s1) => .ok (pick l) s1

/-- Consecutive words of the stack. -/
def stackWords (h : Here) (lane : Nat) : Nat → Nat → State → Sl (List Dword)
  | 0, _, s => .ok [] s
  | n + 1, va, s => (stackRead s h lane va).bind fun w s1 =>
      (stackWords h lane n (va + 8) s1).bind fun l s2 => .ok (w :: l) s2

/-- Words stored from an address up, checked as stores (R217): the records, each a store of the group. -/
def stackStores (h : Here) (lane op : Nat) : List Dword → Nat → State → Sl (List StoreRec)
  | [], _, s => .ok [] s
  | w :: r, va, s =>
    match accessOne s h .global 8 .store false lane va with
    | .trap f _ => .trap f s
    | .hold l => .hold l
    | .ok tr => (stackStores h lane op r (va + 8) s).bind fun l s1 =>
      .ok ({ op := op, lane := lane, va := BitVec.ofNat 64 va, tr := tr, bytes := leBytes 8 w.toNat } :: l) s1

/-- A fibre's stores join those that are still to enter the store queue (R206). -/
def enterStores (s : State) (h : Here) (l : List StoreRec) : State :=
  s.updGroup h.g.gid fun g => { g with entering := g.entering ++ sectorEntries none l }

/-- The stores of a `MARK` or `GRAFT` begin to enter the queue; until the last has entered, the fibres that
made them are held (R206, R344). -/
def beginEntry (i : Instr) (s : State) (h : Here) (lanes : BitVec 32) (op : Nat) : State :=
  let s1 := { s with ops := s.ops ++ [{ mkOp i h s (.store .normal none) [] with
    id := op, flags := [], mask := lanes, lanes := lanes, still := 0 }] }
  enterMore (s1.addOp { mkOp i h s .slice [] with mask := lanes, lanes := lanes, still := 0, holds := true }) h.g.gid

/-! ### Marks (R329 to R331) -/

/-- Entries that the unit holds of a lane. -/
abbrev unitMarks : Nat := 16

/-- A mark record (R330). -/
abbrev markRecord (id : BitVec 16) (prev fp : Dword) : Dword :=
  id ++ ((prev.setWidth 24 : BitVec 24) ++ (fp.setWidth 24 : BitVec 24))

/-- `MARK` of one fibre. -/
def markLane (h : Here) (id : BitVec 16) (op : Nat) (s : State) (i : Nat) : Sl Word :=
  let x := laneNow s h i
  let r := x.sp - 8
  if !x.aligned8 then .trap (spFault x i) s
  else if x.sp.toNat < x.stackLo.toNat + 8 ∨ 2 ^ 27 ≤ (x.depth r).toNat ∨ 2 ^ 27 ≤ (x.depth x.fp).toNat then
    .trap (plainFault fStackOverflow 0 r.toNat) s
  else
    let prev := ((x.marks.head?).map fun (m : Mark) => m.depth.setWidth 64).getD (0 : Dword)
    let w := markRecord id (prev / 8) (x.depth x.fp / 8)
    (stackStores h i op [w] r.toNat s).bind fun l s1 =>
      let s2 := setLaneNow s1 h i fun x =>
        { x with sp := r, marks := ({ depth := (x.depth r).setWidth 32, id := id } :: x.marks).take unitMarks }
      .ok 0 (enterStores s2 h l)

/-- `MARK` (R329, R330). -/
def execMark (d : Dst) (id : BitVec 16) (s : State) : Out :=
  issue (.mark d id) s fun h =>
    let op := s.serial
    sliceExec s.fresh h (some d) (markLane h id op) (fun s1 good c =>
      let s2 := s1.advance c 1
      if good = 0 then s2 else beginEntry (.mark d id) s2 h good op)

/-! ### The slice heap (R332 to R334) -/

/-- Slot size in bytes (R347). -/
abbrev slotSize (cfg : Word) : Nat := 1024 * 2 ^ min (wbits cfg 0 3) 4
/-- Slots of the heap. -/
abbrev slotCount (cfg : Word) : Nat := wbits cfg 4 12
/-- The heap is enabled. -/
abbrev heapOn (c : Ctx) : Bool := c.slheapcfg.getLsbD 31
/-- Base of the heap. -/
abbrev heapBase (c : Ctx) : Nat := dbits c.slheap 16 40 * 65536
/-- Address of a descriptor; descriptor 0 is the header. -/
abbrev descVa (c : Ctx) (k : Nat) : Nat := heapBase c + 16 * k
/-- Address of a slot's data. -/
abbrev dataVa (c : Ctx) (k : Nat) : Nat := heapBase c + 65536 + k * slotSize c.slheapcfg

/-- A place of the heap as the unit reaches it: privileged, under the context's present generation (R332), with the
range locks of a load or a store (R217, R338, R341). -/
def heapAt (s : State) (h : Here) (lane va n : Nat) (w : Bool) : Sl Trans :=
  match xlateNow s h.t.asid va (.engine w) false lane with
  | none => .hold []
  | some (.error f) => .trap f s
  | some (.ok t) =>
    if (List.range (n / 256 + 1)).any fun k => lineMoving s { t with pa := t.pa + 256 * k } then .hold []
    else match lockMet (s.coreOf h.c.core) (some h.t.asid) h.t.tid va n w with
      | some e => .trap (plainFault fRangeLock e va) s
      | none => .ok t (s.accessed h.t.asid va)

/-- The first of some sectors, by its offset from a place, that an uncorrectable error is reported for (R29). -/
def badAmong (key : Nat) : List Nat → State → Option Nat × State
  | [], s => (none, s)
  | o :: r, s => match badSector s (key + o) with
    | (true, s1) => (some o, s1)
    | (false, s1) => badAmong key r s1

/-- Bytes of the heap, read at their home: the address of a sector that cannot be read is reported (R29, R341, R345). -/
def heapRead (s : State) (h : Here) (lane va n : Nat) (w : Bool) : Sl (List Byte × Trans) :=
  (heapAt s h lane va n w).bind fun t s1 =>
    match badAmong t.key ((List.range ((va % 128 + n + 127) / 128)).map fun k => if k = 0 then 0 else 128 * k - va % 128) s1 with
    | (some o, s2) => .trap (plainFault fDataError 0 (va + o)) s2
    | (none, s2) => .ok (Mem.read s2.mem t.key n, t) (s2.touch t h.c.core)

/-- A descriptor, read at its home, to be written there too (`w`) or not. -/
def readDesc (s : State) (h : Here) (lane k : Nat) (w : Bool) : Sl (Quad × Trans) :=
  (heapRead s h lane (descVa (s.ctxOf h.t.asid) k) 16 w).bind fun p s1 =>
    .ok (BitVec.ofNat 128 (leNat p.1), p.2) s1

/-- Writes a descriptor at its home. -/
abbrev writeDesc (s : State) (h : Here) (t : Trans) (q : Quad) : State :=
  (s.writeHome t (leBytes 16 q.toNat)).touch t h.c.core

/-- Field of a descriptor. -/
abbrev qbits (q : Quad) (lo len : Nat) : Nat := nbits q.toNat lo len

/-- The header after its free list changed: new head, one change more, live slices up or down (R333). -/
def headerNext (q : Quad) (head : Nat) (up : Bool) : Quad :=
  let live := qbits q 80 16
  setBits (setBits (setBits q 112 16 head) 96 16 (qbits q 96 16 + 1)) 80 16 (if up then live + 1 else live + 65535)

/-- Takes the first free slot (R333): SLICE_HEAP_FULL when there is none. With the slot comes the header's place, and
the header as it is with the slot pushed back, whose own next still names the slot behind it. -/
def popSlot (s : State) (h : Here) (lane : Nat) : Sl (Nat × Trans × Quad) :=
  (readDesc s h lane 0 true).bind fun (q, t) s1 =>
    let k := qbits q 112 16
    if k = 0 then .trap (plainFault fSliceHeapFull) s1
    else (readDesc s1 h lane k false).bind fun (e, _) s2 =>
      let q1 := headerNext q (qbits e 112 16) true
      .ok (k, t, headerNext q1 k false) (writeDesc s2 h t q1)

/-- Puts a slot on the free list (R333): its descriptor, with the slot that was the head as its next, and the header. The
header is read first, so that nothing is written when that read waits or fails. -/
def pushSlot (s : State) (h : Here) (lane k : Nat) (e : Quad) (te : Trans) : Sl Unit :=
  (readDesc s h lane 0 true).bind fun (q, t) s1 =>
    .ok () (writeDesc (writeDesc s1 h te (setBits e 112 16 (qbits q 112 16))) h t (headerNext q k false))

/-- A handle's slot and its descriptor, when the handle is live (R334), read to be written too or not. `none`: not
live. -/
def liveSlot (s : State) (h : Here) (lane : Nat) (hd : Word) (w : Bool) : Sl (Option (Nat × Quad × Trans)) :=
  let c := s.ctxOf h.t.asid
  let k := wbits hd 0 12
  if !heapOn c || !hd.getLsbD 31 || wbits hd 19 12 != h.t.asid || k == 0 || slotCount c.slheapcfg < k then .ok none s
  else (readDesc s h lane k w).bind fun (q, t) s1 =>
    if q.getLsbD 8 && qbits q 0 7 == wbits hd 12 7 then .ok (some (k, q, t)) s1 else .ok none s1

/-- A new value of SLHEAPCFG (R332, R347): n keeps its value while EN is 1, and EN needs a count. -/
def slheapcfgValue (c : Ctx) (v : Word) : Word :=
  let n := if heapOn c then slotCount c.slheapcfg else wbits v 4 12
  BitVec.ofNat 32 ((if v.getLsbD 31 && n != 0 then 2 ^ 31 else 0) + n * 16 + min (wbits v 0 3) 4)

/-- A write of SLHEAPCFG. When EN rises, the header and the descriptors are written; the write waits while their page
or one of their lines moves (R157, R332), and where no table maps the heap writable it fails as an access does, and the
register keeps its value (log 26). -/
def setSlheapcfg (s : State) (asid : Nat) (v : Word) : Res State :=
  let c := s.ctxOf asid
  let cfg := slheapcfgValue c v
  let s1 := s.updCtx asid fun c => { c with slheapcfg := cfg }
  if cfg.getLsbD 31 && !heapOn c then
    match xlateNow s asid (heapBase c) (.engine true) false with
    | none => .hold []
    | some (.error f) => .trap f []
    | some (.ok t) =>
      let n := slotCount cfg
      if (List.range (16 * (n + 1) / 256 + 1)).any fun k => lineMoving s { t with pa := t.pa + 256 * k } then .hold []
      else
        let slot := fun (k : Nat) => leBytes 16 ((if k = n then 0 else k + 1) * 2 ^ 112)
        .ok ((s1.accessed asid (heapBase c)).writeHome t ((List.range (n + 1)).flatMap slot))
  else .ok s1

/-- The write has to wait (R157, R332). -/
def slheapcfgWaits (s : State) (asid : Nat) (v : Word) : Bool :=
  match setSlheapcfg s asid v with
  | .hold _ => true
  | _ => false

/-- `SLHEAPCFG_ENABLE` (R332). -/
def execSlheapcfgEnable (asid : Nat) (value : Word) (s : State) : Out :=
  if slheapcfgWaits s asid value then .fault .notEnabled
  else fromOutside (.slheapcfgEnable asid value) s fun s => match setSlheapcfg s asid value with
    | .ok s1 => s1
    | _ => s

/-! ### `CUT` (R335 to R338) -/

/-- Follows prev fields from a record to the mark with an id (R331), the record's own id compared (`own`) or known to be
another; a cycle ends after as many records as there are depths. -/
def followMarks (h : Here) (lane : Nat) (id : BitVec 16) : Nat → Bool → Nat → State → Sl (Option Nat)
  | 0, _, _, s => .ok none s
  | n + 1, own, depth, s =>
    (stackRead s h lane ((laneNow s h lane).atDepth (BitVec.ofNat 64 depth)).toNat).bind fun w s1 =>
      let prev := dbits w 24 24 * 8
      if own ∧ dbits w 48 16 = id.toNat then .ok (some depth) s1
      else if prev = 0 then .ok none s1
      else followMarks h lane id n true prev s1

/-- The unit's entry is the mark with an id. -/
abbrev Mark.has (m : Mark) (id : BitVec 16) : Bool := m.known && m.id == id

/-- The depth of the newest mark with an id: in the unit, else along the records (R331). -/
def findMark (s : State) (h : Here) (lane : Nat) (id : BitVec 16) : Sl (Option Nat) :=
  let x := laneNow s h lane
  match x.marks.find? (·.has id) with
  | some m => .ok (some m.depth.toNat) s
  | none => match x.marks.getLast? with
    | none => .ok none s
    | some m => followMarks h lane id (2 ^ 24) (!m.known) m.depth.toNat s

/-- MARK_NOT_FOUND. -/
abbrev noMark (id : BitVec 16) : FaultRec := plainFault fMarkNotFound id.toNat

/-- The frames from `f` up to the one at `top`, with their link words (R336, R338). -/
def walkFrames (h : Here) (lane : Nat) (id : BitVec 16) (top : Nat) : Nat → Nat → State → Sl (List (Nat × Dword))
  | 0, _, s => .trap (noMark id) s
  | n + 1, f, s =>
    if f = top then .ok [(f, 0)] s
    else (stackRead s h lane f).bind fun w s1 =>
      let x := laneNow s1 h lane
      let up := (x.stackHi - w).toNat
      if up ≤ f ∨ top < up then .trap (noMark id) s1
      else (walkFrames h lane id top n up s1).bind fun l s2 => .ok ((f, w) :: l) s2

/-- A word of a slice replaced at a byte offset. -/
abbrev putWord (l : List Dword) (off : Nat) (w : Dword) : List Dword := l.set (off / 8) w

/-- The marks that remain when one is cut, with every newer one: those that the unit holds behind it; when it holds
none, the mark that the cut record names as the previous one, read from its record (R331, R336). Where that record cannot
be read, MARKTOP shows a free id, and the next search compares the record itself (log 26). -/
def marksAfter (s : State) (h : Here) (lane : Nat) (id : BitVec 16) (prev : Nat) : Sl (List Mark) :=
  let x := laneNow s h lane
  let l := (x.marks.dropWhile fun m => !m.has id).drop 1
  if l.isEmpty ∧ prev ≠ 0 then
    match stackRead s h lane (x.atDepth (BitVec.ofNat 64 (8 * prev))).toNat with
    | .ok w s1 => .ok [{ depth := BitVec.ofNat 32 (8 * prev), id := w.extractLsb' 48 16 }] s1
    | .hold w => .hold w
    | .trap _ s1 =>
      .ok [{ depth := BitVec.ofNat 32 (8 * prev), id := (Config.freeWord s1.tick).setWidth 16, known := false }]
        { s1 with tick := s1.tick + 1 }
  else .ok l s

/-- The slice of a fibre is written into a slot (R336): its data, its descriptor, its handle. A fault of a heap
write returns the slot (R338). -/
def fillSlot (s : State) (h : Here) (lane k : Nat) (th : Trans) (back : Quad) (words : List Dword)
    (frames topfp : Nat) : Sl Word :=
  let c := s.ctxOf h.t.asid
  let size := 8 * words.length
  let give := fun (r : Sl (Trans × Quad × Trans)) => match r with
    | .trap f s1 => Sl.trap f (writeDesc s1 h th back)
    | r => r
  (give ((heapAt s h lane (dataVa c k) size true).bind fun t s1 =>
    (readDesc s1 h lane k true).bind fun (q, tq) s2 => .ok (t, q, tq) s2)).bind fun (t, q, tq) s1 =>
      let s2 := (s1.writeHome t (words.flatMap fun w => leBytes 8 w.toNat)).touch t h.c.core
      let q1 : Quad := BitVec.ofNat 128 (qbits q 112 16 * 2 ^ 112 + 2 ^ 96 + size * 2 ^ 80 + frames % 65536 * 2 ^ 64 +
        topfp * 2 ^ 48 + 2 ^ 8 + qbits q 0 7)
      .ok (BitVec.ofNat 32 (2 ^ 31 + h.t.asid % 4096 * 2 ^ 19 + qbits q 0 7 * 2 ^ 12 + k)) (writeDesc s2 h tq q1)

/-- `CUT` of one fibre (R336, R338). -/
def cutLane (h : Here) (id : BitVec 16) (target : Nat) (s : State) (i : Nat) : Sl Word :=
  let x := laneNow s h i
  let c := s.ctxOf h.t.asid
  if targetWaits s h.t target then .hold []
  else if !clauseStart s h.t target then .trap (plainFault fMisalignedTarget 0 target) s
  else if !x.aligned8 then .trap (spFault x i) s
  else if !heapOn c then .trap (plainFault fSliceHeapFull) s
  else
    (findMark s h i id).bind fun found s =>
      match found with
      | none => .trap (noMark id) s
      | some depth =>
        let r := (x.atDepth (BitVec.ofNat 64 depth)).toNat
        (stackRead s h i r).bind fun rec_ s =>
          if dbits rec_ 48 16 ≠ id.toNat ∨ x.fp.toNat < x.sp.toNat ∨ r < x.fp.toNat + 16 then .trap (noMark id) s
          else (walkFrames h i id (r - 16) (2 ^ 24) x.fp.toNat s).bind fun frames s =>
            let size := r - x.sp.toNat + 8
            if slotSize c.slheapcfg < size then .trap (plainFault fSliceHeapFull) s
            else (stackWords h i ((r - x.sp.toNat) / 8) x.sp.toNat s).bind fun bytes s =>
              (marksAfter s h i id (dbits rec_ 24 24)).bind fun ms s =>
              (popSlot s h i).bind fun (k, th, back) s =>
                let off := fun (f : Nat) => f - x.sp.toNat + 8
                let words := frames.foldl (fun l p =>
                  putWord l (off p.1) (if p.1 = r - 16 then BitVec.allOnes 64
                    else x.stackHi - p.2 - x.sp.setWidth 64 + 8)) (BitVec.ofNat 64 target :: bytes)
                (fillSlot s h i k th back words frames.length (off x.fp.toNat)).bind fun handle s =>
                  .ok handle (setLaneNow s h i fun x =>
                    { x with fp := x.atDepth (BitVec.ofNat 64 (8 * dbits rec_ 0 24)), sp := BitVec.ofNat 56 (r + 8), marks := ms })

/-- `CUT` (R335, R336). -/
def execCut (d : Dst) (id : BitVec 16) (off : BitVec 19) (s : State) : Out :=
  issue (.cut d id off) s fun h =>
    sliceExec s h (some d) (cutLane h id (h.target off)) fun s1 _ c => s1.advance c 2

/-! ### `GRAFT` (R339 to R341) -/

/-- The words of a slice with its links made those of the stack it is copied to: from the frame at `k` along
the stored offsets, and at the bottom frame the grafting fibre's frame and site (R340). -/
def relink (x : Fibre) (base : Nat) (site : Addr) : Nat → Nat → List Dword → List Dword
  | 0, _, l => l
  | n + 1, k, l =>
    let o := (l[k / 8]?).getD 0
    if o = BitVec.allOnes 64 then
      putWord (putWord l k (x.stackHi - x.fp.setWidth 64)) (k + 8) (site.setWidth 64)
    else relink x base site n o.toNat (putWord l k (x.stackHi - (BitVec.ofNat 64 base + o)))

/-- Little-endian pairs of a byte list. -/
def wordsOf (l : List Byte) : List Dword :=
  (List.range (l.length / 8)).map fun k => BitVec.ofNat 64 (leNat ((l.drop (8 * k)).take 8))

/-- `GRAFT` of one fibre (R340): the copy, its new SP and FP and the address it returns into. -/
def graftLane (h : Here) (op : Nat) (handle : Nat → Word) (s : State) (i : Nat) : Sl Word :=
  let x := laneNow s h i
  let c := s.ctxOf h.t.asid
  if !x.aligned8 then .trap (spFault x i) s
  else (liveSlot s h i (handle i) false).bind fun slot s =>
    match slot with
    | none => .trap (plainFault fSliceOwner) s
    | some (k, q, _) =>
      let size := qbits q 80 16
      let base := x.sp.toNat - size
      if x.sp.toNat < size + x.stackLo.toNat then .trap (plainFault fSliceStackOverflow 0 x.sp.toNat) s
      else (heapRead s h i (dataVa c k) size false).bind fun p s =>
        let data := wordsOf p.1
        let words := relink x base h.first.clauseEnd (size / 8) (qbits q 48 16) data
        (stackStores h i op words base s).bind fun l s =>
          let s1 := setLaneNow s h i fun x =>
            { x with fp := BitVec.ofNat 56 (base + qbits q 48 16), sp := BitVec.ofNat 56 (base + 8)
                     pc := ((data[0]?).getD 0).setWidth 56 }
          .ok 0 (enterStores s1 h l)

/-- `GRAFT` (R339, R340): a control transfer of the fibres that complete it. -/
def execGraft (a : Src) (s : State) : Out :=
  issue (.graft a) s fun h => withOperands (.graft a) s h fun ins s =>
    let op := s.serial
    let handle := fun (i : Nat) => ((ins.find? fun x => x.lane = i).map fun (x : LaneIn) => x.w 0).getD 0
    sliceExec s.fresh h none (graftLane h op handle) fun s1 good c =>
      let s2 := s1.transfer c ((lanesOf good).map fun i => (i, (laneNow s1 h i).pc))
      if good = 0 then s2 else beginEntry (.graft a) s2 h good op

/-! ### `SDROP` and `SINFO` (R342, R343) -/

/-- One reference fewer; the last one reclaims the slot (R343). -/
def dropLane (h : Here) (handle : Nat → Word) (s : State) (i : Nat) : Sl Word :=
  (liveSlot s h i (handle i) true).bind fun slot s =>
    match slot with
    | none => .trap (plainFault fSliceOwner) s
    | some (k, q, t) =>
      let refs := qbits q 96 16 - 1
      if refs = 0 then
        (pushSlot s h i k (setBits (setBits (setBits q 96 16 0) 8 1 0) 0 7 (qbits q 0 7 + 1)) t).bind fun _ s1 => .ok 0 s1
      else .ok (BitVec.ofNat 32 refs) (writeDesc s h t (setBits q 96 16 refs))

/-- One reference more, at most 0xFFFF (R343). -/
def holdLane (h : Here) (handle : Nat → Word) (s : State) (i : Nat) : Sl Word :=
  (liveSlot s h i (handle i) true).bind fun slot s =>
    match slot with
    | none => .trap (plainFault fSliceOwner) s
    | some (_, q, t) =>
      let refs := min (qbits q 96 16 + 1) 65535
      .ok (BitVec.ofNat 32 refs) (writeDesc s h t (setBits q 96 16 refs))

/-- Frames and size of a live slice; 0 of a handle that is not live, or whose descriptor cannot be read. -/
def infoLane (h : Here) (handle : Nat → Word) (s : State) (i : Nat) : Sl Word :=
  match liveSlot s h i (handle i) false with
  | .hold w => .hold w
  | .ok (some (_, q, _)) s1 => .ok (BitVec.ofNat 32 (qbits q 64 16 * 65536 + qbits q 80 16)) s1
  | .ok none s1 | .trap _ s1 => .ok 0 s1

/-- A slice instruction with a handle and a destination. -/
def handleOp (i : Instr) (d : Dst) (f : Here → (Nat → Word) → State → Nat → Sl Word) (s : State) : Out :=
  issue i s fun h => withOperands i s h fun ins s =>
    sliceExec s h (some d) (f h fun k => ((ins.find? fun x => x.lane = k).map fun (x : LaneIn) => x.w 0).getD 0) fun s1 _ c =>
      s1.advance c 1

/-- `SDROP` (R342, R343). -/
def execSdrop (d : Dst) (a : Src) (s : State) : Out := handleOp (.sdrop d a) d dropLane s

/-- `SDROP.hold` (R342, R343). -/
def execSdropHold (d : Dst) (a : Src) (s : State) : Out := handleOp (.sdropHold d a) d holdLane s

/-- `SINFO` (R342, R343). -/
def execSinfo (d : Dst) (a : Src) (s : State) : Out := handleOp (.sinfo d a) d infoLane s

end Sys2Proof.Machine
end

