-- ==== Sys2Proof/Machine/Graph.lean ====
section
/-!
DEFINITION. Task graphs (R15 to R18, R351 to R363, R407): node records, notices, the nodes that are no
grids, copy nodes, completion, `LAUNCH`, `GDEC`, `GCOND` and `EVENT`.
-/

namespace Sys2Proof.Machine

open Sys2Proof

/-! ### Records (R353, R354) -/

/-- Numbers in a record, little-endian. -/
abbrev rec16 (b : List Byte) (o : Nat) : Nat := leNat ((b.drop o).take 2)
abbrev rec32 (b : List Byte) (o : Nat) : Nat := leNat ((b.drop o).take 4)
abbrev rec64 (b : List Byte) (o : Nat) : Nat := leNat ((b.drop o).take 8)

/-- Kind, class and successor count of a node record (R353). -/
abbrev nodeKind (b : List Byte) : Nat := nbits (rec32 b 4) 28 4
abbrev nodeClass (b : List Byte) : Nat := nbits (rec32 b 4) 26 2
abbrev nodeSuccs (b : List Byte) : Nat := nbits (rec32 b 4) 22 4
abbrev recIndex (b : List Byte) : Nat := rec32 b 8
/-- Successor `k` of a node. -/
abbrev nodeSucc (b : List Byte) (k : Nat) : Nat := rec16 b (0x10 + 2 * k)
/-- The successors a node uses, in order. -/
abbrev nodeUsed (b : List Byte) : List Nat := (List.range (min (nodeSuccs b) 8)).map (nodeSucc b)
/-- The instance of a node (R353). -/
abbrev nodeInst (va : Nat) (b : List Byte) : Nat := va - 256 - 128 * recIndex b

/-- The instance is cancelled (R369). -/
def cancelled (s : State) (asid inst : Nat) : Bool :=
  match vread32 s asid inst with
  | some w => w.getLsbD 31
  | none => false

/-- The node count of an instance (R354). -/
abbrev instNodes (s : State) (asid inst : Nat) : Nat := ((vread32 s asid (inst + 0x30)).map BitVec.toNat).getD 0

/-- A node is read by acquire (R17): its record, or nothing when it cannot be read. -/
def readNode (s : State) (asid va : Nat) : Eng (Option (List Byte)) :=
  match engXlate s asid va (.engine false) false with
  | .wait => .wait
  | .stage2 f => .stage2 f
  | .done _ (some _) s1 => .done none none s1
  | .done t none s1 => match badSector s1 t.key with
    | (true, s2) => .done none none s2
    | (false, s2) => .done (some (Mem.read s2.mem t.key 128)) none s2

/-- A Crozier is frozen (R425). -/
abbrev crozFrozen (s : State) (die : Nat) : Bool := frozenUnit s 1 die

/-! ### Completion (R355, R356) -/

/-- Crozier's step is done. -/
abbrev gone (s : State) : Eng Unit := .done () none s

/-- A successor's count falls by one (R355); one that cannot be performed is recorded. -/
def decSucc (s : State) (asid inst idx succ : Nat) : Eng Unit :=
  let va := inst + 256 + 128 * succ
  let skip := fun (s : State) => gone (recordError s asid inst idx 5 (BitVec.ofNat 64 succ))
  match engXlate s asid va .atomic false with
  | .wait => .wait
  | .stage2 f => .stage2 f
  | .done _ (some _) s1 => skip s1
  | .done t none s1 => match badSector s1 t.key with
    | (true, s2) => skip s2
    | (false, s2) => gone (atomHome s2 asid va t .add false 0xFFFFFFFF 0 [0xFFFFFFFF] s2.serial).2

/-- Successors decremented in order, then the node is no longer active (R356). -/
def decSuccs (asid inst idx : Nat) : List Nat → State → Eng Unit
  | [], s => gone (activeDown s asid inst)
  | k :: r, s => (decSucc s asid inst idx k).bind () fun _ s1 => decSuccs asid inst idx r s1

/-- A node fails: its code is recorded, an event raised, no successor decremented (R355). -/
def failNode (s : State) (asid inst idx code : Nat) : State :=
  let (p, s1) := s.freePayload
  activeDown (recordError s1 asid inst idx code p) asid inst

/-! ### Nodes that are read (R16, R17, R355, R359, R360) -/

/-- An instance record is within reach: no page of it migrates, and no entry of it waits (R157). -/
abbrev instReady (s : State) (asid inst : Nat) : Bool :=
  !rangeMigrates s asid inst 64 && !s.due.any fun d => d.inst == (asid, inst)

/-- The template records that a while node writes back, its own last (R359). -/
abbrev whileArms (b : List Byte) : List Nat := (List.range (rec16 b 0x2E + 1)).drop (rec16 b 0x2C) ++ [recIndex b]

/-- A while node goes on with its body (R359). -/
abbrev whileGoes (b : List Byte) : Bool := rec32 b 0x20 != 0 && (rec32 b 0x24 == 0 || rec32 b 0x28 < rec32 b 0x24)

/-- A while node (R359): BAD_NODE, or the state after its body is re-armed and its chosen successor. A template record
that cannot be read fails it (log 26). -/
def whileNode (s : State) (asid va inst : Nat) (b : List Byte) : Option (State × Nat) :=
  match vread64 s asid (inst + 8), vread32 s asid (inst + 0x30) with
  | some tmpl, some n =>
    if nodeSuccs b ≠ 2 ∨ tmpl = 0 ∨ n.toNat ≤ rec16 b 0x2E then none
    else if whileGoes b then
      let arm := fun (p : Option State) (j : Nat) => p.bind fun s =>
        match recordBad s asid (tmpl.toNat + 256 + 128 * j) with
        | (true, _) => none
        | (false, s1) => (vread s1 asid (tmpl.toNat + 256 + 128 * j) 4).map fun c => vwrite s1 asid (inst + 256 + 128 * j) c
      ((whileArms b).foldl arm (some s)).map fun s1 => (vwrite s1 asid (va + 0x28) (leBytes 4 (rec32 b 0x28 + 1)), nodeSucc b 0)
    else some (s, nodeSucc b 1)
  | _, _ => none

/-- A record that a while node reads or writes lies in a page that migrates (R157). -/
def whileWaits (s : State) (asid inst : Nat) (b : List Byte) : Bool :=
  whileGoes b && (whileArms b).any fun j => pageMigrates s asid (inst + 256 + 128 * j) ||
    match vread64 s asid (inst + 8) with
    | some tmpl => pageMigrates s asid (tmpl.toNat + 256 + 128 * j)
    | none => false

/-- The pairs of a governor-update node, when they keep the rules (R360). -/
def govPairs (b : List Byte) : Option (List (Nat × Nat)) :=
  let n := rec32 b 0x20
  let l := (List.range (min n 8)).map fun k => (rec32 b (0x28 + 8 * k), rec32 b (0x2C + 8 * k))
  if 1 ≤ n && n ≤ 8 && l.all (fun p => 0x400 ≤ p.1 && p.1 ≤ 0x4FF) then some l else none

/-- The body's bytes outside those that a kind uses, each given by offset and length, are zero, as are the header's low
bits and the word at 0x0C (R353). -/
def restZero (b : List Byte) (used : List (Nat × Nat)) : Bool :=
  nbits (rec32 b 4) 0 22 == 0 && rec32 b 0x0C == 0 && (List.range 96).all fun k =>
    (used.any fun u => u.1 ≤ 0x20 + k && 0x20 + k < u.1 + u.2) || (b.getD (0x20 + k) 0) == 0

/-- What shall be zero in a record is zero (R353, R357 to R360). -/
def zerosOk (b : List Byte) : Bool :=
  match nodeKind b with
  | 0 => restZero b [(0x20, 0x24), (0x48, 0x14)] && nbits (rec32 b 0x34) 0 7 == 0
  | 1 => restZero b [(0x20, 4), (0x28, 0x48)] && nbits (rec32 b 0x20) 8 24 == 0
  | 2 => restZero b [(0x20, 4)]
  | 3 => restZero b [(0x20, 0x10)]
  | 4 => restZero b [(0x20, 2), (0x28, 8)]
  | _ => restZero b [(0x20, 4), (0x28, 8 * rec32 b 0x20)]

/-- A grid body keeps the rules that are no limits of its shape (R357); that its entry is a clause start is tested
beside it. -/
def gridBodyOk (b : List Byte) : Bool :=
  let teams := rec32 b 0x30
  let sB := rec32 b 0x38
  1 ≤ teams && teams < 2 ^ 24 && nbits sB 0 8 != 0 && nbits sB 12 3 != 0 && rec64 b 0x48 % 256 == 0 && rec64 b 0x50 % 256 == 0

/-- Gang size and position of a ready node (R357). -/
abbrev Ready.gang (r : Ready) : Nat := nbits (rec32 r.body 0x38) 12 3
abbrev Ready.pos (r : Ready) : Nat := nbits (rec32 r.body 0x38) 9 3

/-- Member `p` of the gang that an entry leads, when it is ready (R366). -/
def gangMate (l : List Ready) (r : Ready) (p : Nat) : Option Ready :=
  l.find? fun q => q.node == r.node + 128 * p && q.asid == r.asid && q.gang == r.gang && q.pos == p

/-- A node that stands in its queue for itself, or for its gang when every member of it is ready (R366). -/
def standsAlone (l : List Ready) (r : Ready) : Bool :=
  r.pos == 0 && (List.range r.gang).all fun p => (gangMate l r p).isSome

/-- Each class queue's first entry stands at its head from now on (R364). A member of a gang other than its
leader stands in no queue of its own (R366). -/
def fixHeads (now : Nat) (l : List Ready) : List Ready :=
  let stands := standsAlone l
  let firsts := (List.range 4).filterMap fun c => (l.find? fun r => r.cls == c && stands r).map fun r => (r.asid, r.node)
  l.map fun r =>
    if firsts.contains (r.asid, r.node) && stands r then (if r.head.isNone then { r with head := some now } else r)
    else { r with head := none, blocking := false }

/-- A Crozier's ready queues rewritten. -/
def State.updReady (s : State) (die : Nat) (f : List Ready → List Ready) : State :=
  s.updCroz die fun c => { c with ready := fixHeads s.now (f c.ready) }

/-- A node whose record keeps the common rules acts by its kind (R353, R357 to R360). -/
def nodeByKind (s : State) (die asid va : Nat) (b : List Byte) : Eng Unit :=
  let inst := nodeInst va b
  let idx := recIndex b
  let cls := max (s.ctxOf asid).cls (nodeClass b)
  let run : Running := { node := va, inst := inst, asid := asid, body := b, kind := nodeKind b, cls := cls }
  let running := fun (s : State) (r : Running) => s.updCroz die fun c => { c with running := c.running ++ [r] }
  let bad := gone (failNode s asid inst idx 5)
  match nodeKind b with
  | 0 => match clauseStart? s asid (rec64 b 0x20) with
    | none => .wait
    | some entry =>
      if !entry || !gridBodyOk b then bad
      else gone ((s.updReady die fun l => l ++ [{ node := va, asid := asid, body := b, cls := cls, since := s.now }]).updCtx
        asid fun c => { c with queued := true })
  | 1 => if 2 < nbits (rec32 b 0x20) 0 4 then bad else gone (running s run)
  | 2 =>
    if nodeSuccs b = 0 then bad
    else decSuccs asid inst idx [nodeSucc b (min (rec32 b 0x20) (nodeSuccs b - 1))] s
  | 3 =>
    if whileWaits s asid inst b then .wait
    else match whileNode s asid va inst b with
      | none => bad
      | some (s1, k) => decSuccs asid inst idx [k] s1
  | 4 =>
    if rec16 b 0x20 < 0x100 then bad
    else
      let s1 := eventRecord s asid inst idx (rec16 b 0x20) (BitVec.ofNat 64 (rec64 b 0x28))
      let put := (s1.host.puts.drop s.host.puts.length).head?.map (·.id)
      gone (running s1 { run with put := put })
  | _ => match govPairs b with
    | none => bad
    | some l =>
      if s.gvPend then .wait
      else gone (running (l.foldl (fun s p => govWrite s asid p.1 (BitVec.ofNat 64 p.2)) s) run)

/-- A node whose record has been read is started, queued, failed or dropped (R355, R364, R369). Of
an instance record that cannot be read the device event ring takes the node's address (R17, R29, log 26). -/
def startNode (s : State) (die asid va : Nat) (b : List Byte) : Eng Unit :=
  let inst := nodeInst va b
  if !instReady s asid inst then .wait
  else match rangeStage2 s asid inst 64 true with
  | some f => .stage2 f
  | none => match recordBad s asid inst with
    | (true, s1) => gone (deviceEvent s1 0xF7 (BitVec.ofNat 64 va))
    | (false, s1) =>
      if cancelled s1 asid inst then gone (activeDown s1 asid inst)
      else if 8 < nodeSuccs b || 5 < nodeKind b || !zerosOk b || (nodeUsed b).any (instNodes s1 asid inst ≤ ·) then
        gone (failNode s1 asid inst (recIndex b) 5)
      else nodeByKind s1 die asid va b

/-- The state after a Crozier receives its oldest notice; none while it must wait. -/
def noticeResult (s : State) (die : Nat) : Option State :=
  match s.notices.find? fun n => n.die = die with
  | none => none
  | some n =>
    ((readNode { s with notices := s.notices.erase n } n.asid n.node).bind () fun b s1 => match b with
      | none => gone (deviceEvent s1 0xF7 (BitVec.ofNat 64 n.node))
      | some b =>
        if (arenaDie s1 n.asid n.node).isNone then gone (activeDown s1 n.asid (nodeInst n.node b) true)
        else startNode s1 die n.asid n.node b).step s n.asid

def enabledReadyNoticeReceive (s : State) (die : Nat) : Bool :=
  !crozFrozen s die && (noticeResult s die).isSome

/-- `READY_NOTICE_RECEIVE` (R17). -/
def execReadyNoticeReceive (die : Nat) (s : State) : Out :=
  whenEnabled (enabledReadyNoticeReceive s die) s fun s => (noticeResult s die).getD s

/-! ### Copy nodes (R358) -/

/-- A running node of a Crozier at an address, the first that meets a condition: contexts may have nodes at one address. -/
def runningOf (s : State) (die node : Nat) (p : Running → Bool) : Option Running :=
  (s.crozOf die).running.find? fun r => r.node == node && p r

/-- A running node of a Crozier rewritten. -/
def updRunning (s : State) (die : Nat) (r : Running) (f : Running → Running) : State :=
  s.updCroz die fun c => { c with running := c.running.map fun q => if q.node = r.node ∧ q.asid = r.asid then f q else q }

/-- A running node taken off its Crozier's list. -/
def dropRunning (s : State) (die : Nat) (r : Running) : State :=
  s.updCroz die fun c => { c with running := c.running.filter fun q => !(q.node == r.node && q.asid == r.asid) }

/-- A copy node waits for an engine. -/
abbrev Running.waits (r : Running) : Bool := r.kind == 1 && r.engine.isNone

/-- The request of a node's copy over a descriptor. -/
def nodeCopy (dir : CopyDir) (q : Nat) : CopyReq :=
  let d : Quad := BitVec.ofNat 128 q
  { dir := dir, plain := true, desc := d, l := descL d, k := descK d }

/-- Fields of a copy body (R358). -/
abbrev Running.cop (r : Running) : Nat := nbits (rec32 r.body 0x20) 0 4
abbrev Running.dst (r : Running) : Nat := rec64 r.body 0x28
abbrev Running.src (r : Running) : Nat := rec64 r.body 0x30
abbrev Running.len (r : Running) : Nat := rec64 r.body 0x38
abbrev Running.stride (r : Running) : Nat := rec64 r.body 0x40
abbrev Running.from_ (r : Running) : CopyReq := nodeCopy .expand (leNat ((r.body.drop 0x48).take 16))
abbrev Running.to_ (r : Running) : CopyReq := nodeCopy .compress (leNat ((r.body.drop 0x58).take 16))

/-- The sources of op 0 and op 2: address and bytes. -/
def Running.sources (r : Running) : List (Nat × Nat) :=
  if r.cop = 0 then [(r.src, r.len)]
  else (List.range (nbits (rec32 r.body 0x20) 4 4 + 1)).map fun k => (r.src + k * r.stride, 4 * r.len)

/-- A copy node is refused: its tiles as R269 says, or since they do not agree or are no pairing of R263, or an operand is
remote (R358, R393). -/
def Running.refused (r : Running) : Bool :=
  if r.cop = 1 then
    let x := r.from_
    let y := r.to_
    usesFm (descFmt x.desc) || usesFm (descFmt y.desc) || x.refusal (descValid x.desc 0) || y.refusal (descValid y.desc 0) ||
      x.l != y.l || x.k != y.k || !pairOk (plainSrc (descFmt x.desc) false) (descFmt y.desc)
  else isRemote r.dst || r.sources.any fun p => isRemote p.1

/-- The sectors that a copy node reads, in order. -/
def Running.reads (r : Running) : List (Nat × Nat) :=
  if r.cop = 1 then r.from_.pieces.map fun p => p.2 else r.sources.flatMap fun p => sectorPieces p.1 p.2

/-- Ranges of a copy node's operands (R221). -/
def Running.ranges (r : Running) : List Unlocked :=
  let rng := fun (dest : Bool) (lo n : Nat) => ({ owner := r.cid, id := r.cid, dest := dest, asid := r.asid, lo := lo, hi := lo + n } : Unlocked)
  if r.cop = 1 then
    (r.from_.ranges r.asid 0 false ++ r.to_.ranges r.asid 0 false).filterMap fun g =>
      if g.asid.isSome then some (rng g.dest g.lo (g.hi - g.lo)) else none
  else rng true r.dst (if r.cop = 0 then r.len else 4 * r.len) :: r.sources.map fun p => rng false p.1 p.2

/-- The oldest copy node that waits goes first, once its instance can be read (R157, R369). -/
def enabledCopyNodeStart (s : State) (die node : Nat) : Bool :=
  !crozFrozen s die && (freeEngine s die).isSome &&
    ((s.crozOf die).running.find? Running.waits).any fun r => r.node == node && !rangeMigrates s r.asid r.inst 64

/-- `COPY_NODE_START` (R358): a node of a cancelled instance is dropped (R370). -/
def execCopyNodeStart (die node : Nat) (s : State) : Out :=
  whenEnabled (enabledCopyNodeStart s die node) s fun s =>
    match runningOf s die node Running.waits with
    | none => s
    | some r =>
      let s1 := s.accessed r.asid r.inst
      if cancelled s r.asid r.inst then activeDown (dropRunning s1 die r) r.asid r.inst
      else
        let r1 := { r with engine := freeEngine s die, cid := s.serial }
        updRunning { s1.fresh with unlocked := s1.unlocked ++ if r.refused then [] else r1.ranges } die r fun _ => r1

/-- Bytes of a destination line that depend on its first `m` elements alone: whole blocks, bytes or elements. -/
def lineBytesOf (c : CopyReq) (m : Nat) : Nat :=
  if c.k ≤ m then c.line
  else if blockScaled (descFmt c.desc) then m / 32 * (blockBytes c.w + 1)
  else m * c.w / 8

/-- The lines of a tile as far as their sectors have been read. -/
def Running.lines (r : Running) : List (List Byte) :=
  (List.zip r.from_.pieces r.got).foldl (fun l p => joinLine l p.1.1 p.2) []

/-- Op 1: each element of a tile expanded to plain and compressed into the other with rounding to nearest even (R262, R263),
line by line; when a read has failed, what depends on earlier sectors (R278). -/
def Running.tileOut (r : Running) : List (Nat × List Byte) :=
  let a := r.from_
  let lines := r.lines
  let word := fun (n : Nat) =>
    let sc := if blockScaled (descFmt a.desc) then scaleAt a lines (n / a.k) (n % a.k / 32) else some 0
    match codeAt a lines (n / a.k) (n % a.k), sc with
    | some v, some q => some (plainOf (descFmt a.desc) a.fm q v)
    | _, _ => none
  let words := ((List.range (a.l * a.k)).map word).takeWhile Option.isSome
  let plain := Mem.write [] 0 (words.flatMap fun w => leBytes 4 (w.getD 0).toNat)
  (List.range r.to_.l).map fun i =>
    (r.to_.lineAt i, (lineOf (plainSrc (descFmt a.desc) false) plain r.to_ i).take (lineBytesOf r.to_ (words.length - i * a.k)))

/-- The bytes read of each source of op 2, those begun. -/
def sourcesRead : List (Nat × Nat) → List (List Byte) → List (List Byte)
  | [], _ => []
  | p :: r, got =>
    if got.isEmpty then []
    else (got.take (sectorPieces p.1 p.2).length).flatten :: sourcesRead r (got.drop (sectorPieces p.1 p.2).length)

/-- Op 2: the sources summed in ascending order, rounded to nearest even at each addition (R358); when a read of the last
source has failed, the sums before it (R278). -/
def Running.sumOut (r : Running) : List Byte :=
  let ls := sourcesRead r.sources r.got
  let elem := fun (l : List Byte) (i : Nat) => rec32 l (4 * i)
  let sum := fun (i : Nat) => match ls with
    | [] => 0
    | l :: rest => rest.foldl (fun x m => (fmt32.add .rne false x (elem m i)).1) (elem l i)
  let whole := if ls.length < r.sources.length then 0 else ((ls.getLast?.map List.length).getD 0) / 4
  (List.range whole).flatMap fun i => leBytes 4 (sum i)

/-- What a copy node writes, from what it has read: runs of bytes with their addresses. -/
def Running.outs (r : Running) : List (Nat × List Byte) :=
  match r.cop with
  | 0 => [(r.dst, r.got.flatten)]
  | 1 => r.tileOut
  | _ => [(r.dst, r.sumOut)]

/-- Byte `x` of run `i` depends on a source sector that has been stored to (R221). -/
def Running.tainted (r : Running) (s : State) (i x : Nat) : Bool :=
  let hit := fun (va : Nat) => s.disturbed.contains (r.cid, false, va % 2 ^ 56 / 128)
  match r.cop with
  | 0 => hit (r.src + x)
  | 1 =>
    let a := r.from_
    let c := r.to_
    let elem := fun (j : Nat) =>
      srcDisturbed s r.cid a i (inLine a j) || srcDisturbed s r.cid a i (inLine a j + (a.w + 7) / 8 - 1) ||
        (blockScaled (descFmt a.desc) && srcDisturbed s r.cid a i (scaleIn a (j / 32)))
    if blockScaled (descFmt c.desc) then (List.range 32).any fun e => elem (32 * (x / (blockBytes c.w + 1)) + e)
    else if c.w = 4 then elem (2 * x) || elem (2 * x + 1) else elem (x / (c.w / 8))
  | _ => r.sources.any fun p => hit (p.1 + x / 4 * 4) || hit (p.1 + x / 4 * 4 + 3)

/-- The sectors that a copy node writes, in order: their run, the offset in it, address and bytes. -/
def Running.writes (r : Running) : List (Nat × Nat × Nat × List Byte) :=
  r.outs.zipIdx.flatMap fun p => (sectorPieces p.1.1 p.1.2.length).map fun q =>
    (p.2, q.1 - p.1.1, q.1, (p.1.2.drop (q.1 - p.1.1)).take q.2)

/-- Every read of a copy node is made, or one has failed. -/
abbrev Running.hasRead (r : Running) : Bool := r.fail.isSome || r.reads.length ≤ r.got.length

/-- The next sector of a copy node: one of its sources is read, or one of its destination written, at the homes, for no
core has issued it (R206, R219, R278, R358). `none` while it waits or has none left. -/
def nodeSector (s : State) (die : Nat) (r : Running) : Option State :=
  let put := fun (s : State) (f : Running → Running) => some (updRunning s die r f)
  if crozFrozen s die || r.kind != 1 || r.engine.isNone || r.refused then none
  else if !r.hasRead then
    match r.reads[r.got.length]? with
    | none => none
    | some p => match engReadPieces r.asid noCore false [p] [] s with
      | .wait => none
      | .stage2 f => s.tells r.asid (f.gpa.getD 0)
      | .done l none s1 => put s1 fun r => { r with got := r.got ++ [l] }
      | .done _ f s1 => put s1 fun r => { r with fail := f }
  else match r.writes[r.wpos]? with
    | none => none
    | some (i, off, va, l) =>
      let bytes := l.zipIdx.map fun q => if r.tainted s i (off + q.2) then Config.freeByte (s.tick + q.2) else q.1
      match engWritePieces r.asid noCore false va bytes [(va, l.length)] { s with tick := s.tick + l.length } with
      | .wait => none
      | .stage2 f => s.tells r.asid (f.gpa.getD 0)
      | .done _ none s1 => put s1 fun r => { r with wpos := r.wpos + 1 }
      | .done _ f s1 => put s1 fun q => { q with fail := f, wpos := r.writes.length }

/-- A copy node has nothing left to move. -/
abbrev Running.moved (r : Running) : Bool := r.refused || (r.hasRead && r.writes.length ≤ r.wpos)

/-- A copy node ends: sectors that stores have met are undefined (R221), its status word tells its cause, 0 for success
(R277, R358). -/
def copyNode (s : State) (r : Running) : Eng Nat :=
  if !r.moved then .wait
  else
    let cause := if r.refused then 1 else (r.fail.map fun p => p.1.toNat).getD 0
    let st := rec64 r.body 0x68
    let s1 := if s.disturbed.any (·.1 == r.cid) then
        r.writes.foldl (fun s p =>
          if s.disturbed.contains (r.cid, true, p.2.2.1 / 128) || (List.range p.2.2.2.length).any (fun k => r.tainted s p.1 (p.2.1 + k)) then
            freeSector r.asid noCore false (p.2.2.1, p.2.2.2.length) s
          else s) s
      else s
    let s2 := s1.unlock r.cid
    if st = 0 then .done cause none s2
    else if rangeMigrates s2 r.asid st 4 then .wait
    else match rangeStage2 s2 r.asid st 4 true with
      | some f => .stage2 f
      | none => .done cause none (vwrite s2 r.asid st (leBytes 4 (2 ^ 31 + cause * 2 ^ 28)))

/-! ### `LAUNCH` (R362) -/

/-- A template header that meets R352. -/
def headerOk (b : List Byte) : Bool :=
  let n := rec32 b 0
  1 ≤ n && n ≤ 4096 && rec32 b 4 == 1 && rec32 b 8 < 4 && rec32 b 0x18 ≤ 16 && rec32 b 0x0C == 0 &&
    (b.drop 0x1C).all (· == 0)

/-- The arena of a context that holds an address, with its die and number. -/
def arenaOf (s : State) (asid va : Nat) : Option (Nat × Nat × Arena) :=
  s.crozs.findSome? fun c => ((List.range 16).map fun k => (k, vget c.arenas k {})).findSome? fun p =>
    let a := p.2
    if a.size.getLsbD 63 && dbits a.base 0 56 ≤ va && va < dbits a.base 0 56 + dbits a.size 0 44 &&
        wbits a.own 20 12 == asid then some (c.die, p.1, a) else none

/-- The lowest free slot of an arena's pool, when a slot holds `need` bytes. -/
def Arena.freeSlot (a : Arena) (need : Nat) : Option Nat :=
  if 1024 * wbits a.own 0 8 < need then none
  else (List.range (wbits a.own 8 12)).find? fun k => !a.taken.contains k

/-- The 256 bytes of a new instance record (R354). -/
def instanceBytes (tmpl arg : Nat) (h : List Byte) : List Byte :=
  List.replicate 8 0 ++ leBytes 8 tmpl ++ leBytes 8 arg ++ List.replicate 8 0 ++ leBytes 8 (rec64 h 0x10) ++
    leBytes 4 (rec32 h 0x18) ++ leBytes 4 (rec32 h 8) ++ leBytes 4 (rec32 h 0) ++ leBytes 4 1 ++ List.replicate 200 0

/-- One instance created from a template (R362): its address, or nothing when the template or the pool does not allow
it; it waits while a page of either migrates (R157), and a failure in stage 2 halts the team (R424). A template that an uncorrectable error is reported for does not meet
R352; the launching team's instance takes an event, whose code the manual does not state (R29, log 26). -/
def createInstance (s : State) (t : Team) (tmpl arg : Nat) : Eng (Option Nat) :=
  let asid := t.asid
  let no := fun (s : State) => show Eng (Option Nat) from .done none none s
  let refuse := fun (s : State) => no (readFailed s asid t.launch.inst (nodeIndex t.launch.inst t.launch.node))
  match arenaOf s asid tmpl with
  | none => no s
  | some (die, k, a) =>
    match (if rangeMigrates s asid tmpl 256 then some none else (rangeStage2 s asid tmpl 256 false).map some) with
    | some none => .wait
    | some (some f) => .stage2 f
    | none => match rangeBad s asid tmpl 256, vread s asid tmpl 256 with
      | (true, s1), _ => refuse s1
      | (_, s1), none => no s1
      | (_, s1), some h =>
        let n := rec32 h 0
        if tmpl % 256 ≠ 0 ∨ !headerOk h then no s1
        else match a.freeSlot (256 + 384 * n) with
          | none => no s1
          | some slot =>
            let inst := dbits a.pool 0 56 + slot * (1024 * wbits a.own 0 8)
            match (if rangeMigrates s1 asid (tmpl + 256) (128 * n) || rangeMigrates s1 asid inst (256 + 384 * n) then some none
              else ((rangeStage2 s1 asid (tmpl + 256) (128 * n) false).or (rangeStage2 s1 asid inst (256 + 384 * n) true)).map some) with
            | some none => .wait
            | some (some f) => .stage2 f
            | none => match rangeBad s1 asid (tmpl + 256) (128 * n), vread s1 asid (tmpl + 256) (128 * n) with
              | (true, s2), _ => refuse s2
              | (_, s2), none => no s2
              | (_, s2), some nodes =>
                let recs := (List.range n).flatMap fun i =>
                  let r := (nodes.drop (128 * i)).take 128
                  r.take 8 ++ leBytes 4 i ++ r.drop 12
                let s3 := s2.updCroz die fun c => { c with
                  arenas := vset c.arenas k { a with taken := a.taken ++ [slot] } }
                let s4 := vwrite s3 asid inst (instanceBytes tmpl arg h ++ recs ++ List.replicate (256 * n) 0)
                let entry := (List.range n).filter fun i => rec32 nodes (128 * i) == 0
                .done (some inst) none (entry.foldl (fun s i =>
                  let s := activeUp s asid inst
                  { s with notices := s.notices ++ [{ die := die, asid := asid, node := inst + 256 + 128 * i }] }) s4)

/-- An operation has left its core's queue to Crozier: it is the first there, and the group's earlier stores and
atomics are performed at its scope (R8, R361, R407). -/
abbrev crozTakes (s : State) (o : Op) (sc : Scope) : Bool := graphFirst s o.core o.id && performedAt s o.gid o.id sc

/-- The children of a packet's fibres in ascending lane order, each with its address or nothing (R92). -/
def launchAll (t : Team) : List Access → List (Nat × Option Nat) → State → Eng (List (Nat × Option Nat))
  | [], acc, s => .done acc none s
  | a :: r, acc, s => (createInstance s t a.va.toNat a.op.toNat).bind acc fun x s1 => launchAll t r (acc ++ [(a.lane, x)]) s1

/-- Crozier serves a `LAUNCH`: each fibre gets its instance's address, or p63 true and its register unchanged (R362).
`none` while it waits. -/
def serveLaunch (s : State) (o : Op) : Option State :=
  match s.team? o.tid with
  | none => none
  | some t =>
    if !crozTakes s o .device ||
        o.accs.any (fun a => ((arenaOf s o.asid a.va.toNat).map fun p => crozFrozen s p.1).getD false) then none
    else match launchAll t o.accs [] s with
      | .wait => none
      | .stage2 f => engHalts s o f
      | .done l _ s1 => some ((l.foldl (fun s x =>
          let s1 := predLane s o.gid x.1 63 x.2.isNone
          match x.2 with
          | some v => writeLane s1 o x.1 v
          | none => s1) s1).finishOp o.id)

/-- `LAUNCH` (R361, R362): it joins Crozier's queue of the core, with each fibre's template and argument. -/
def execLaunch (d : Dst) (tmpl arg : Src) (s : State) : Out :=
  let i : Instr := .launch d tmpl arg
  issue i s fun h => withOperands i s h fun ins s =>
    withAccess s h .global 4 .atomic true (ins.map fun x => (x.lane, (x.s 0).toNat)) fun _ =>
      (s.advance h.c i.words).addOp
        { mkOp i h s (.graph i) (ins.map fun x => { lane := x.lane, va := x.s 0, op := x.s 1 }) with
          dst := some (d, 2), preds := [63], still := 0 }

/-! ### `GDEC` and `GCOND` (R363) -/

/-- `GDEC` (R363): an atomic addition of the negated amount for each lane. -/
def execGdec (d : Dst) (node amount : Src) (s : State) : Out :=
  let i : Instr := .gdec d node amount
  issue i s fun h => withOperands i s h fun ins s =>
    withAccess s h .global 4 .atomic true (ins.map fun x => (x.lane, (x.s 0).toNat)) fun ts =>
      let opOf := fun (lane : Nat) =>
        ((ins.find? fun x => x.lane = lane).map fun (x : LaneIn) => ((-(x.w 1) : Word)).setWidth 64).getD 0
      let accs := accsOf ts opOf fun _ => 0
      if !otRoom s h.c.core accs then s.hold h.c h.t.asid []
      else
        let s1 := s.advance h.c i.words
        let id := s1.serial
        (atomGroups true accs).foldl (fun s l => sendAtom s h.t.asid h.t.tid .add false h.c.core id l)
          (s1.addOp { mkOp i h s (.graph i) accs with dst := some (d, 1), preds := [63] })

/-- `GCOND` in one step at the home of the node's count: the condition word, then the count. -/
def condHome (s : State) (asid va : Nat) (t : Trans) (v : Word) : State :=
  (atomHome (vwrite s asid (va + 0x20) (leBytes 4 v.toNat)) asid va t .add false 0xFFFFFFFF 0 [0xFFFFFFFF] s.serial).2

/-- A `GCOND` is performed; an access that fails then traps every fibre of its packet. `none` while it waits. -/
def serveCond (s : State) (o : Op) : Option State :=
  if !crozTakes s o .device then none
  else match o.accs.head? with
    | none => some (s.finishOp o.id)
    | some a =>
      let fails := fun (s : State) (f : FaultRec) => (lanesOf o.mask).foldl (fun s l => failLane s o l f true) s
      match xlateNow s o.asid a.va.toNat .atomic o.user a.lane with
      | none => none
      | some (.error f) => match f.gpa with
        | some _ => engHalts s o f
        | none => some (fails s f)
      | some (.ok t) =>
        if lineMoving s t || copAt s o.core o.asid a.va.toNat t.key 36 then none
        else match badSector (s.accessed o.asid a.va.toNat) t.key with
          | (true, s1) => some (fails s1 (plainFault fDataError 0 a.va.toNat))
          | (false, s1) => some (((condHome s1 o.asid a.va.toNat t a.op.lo).touch t o.core).finishOp o.id)

/-- `GCOND` (R361, R363): once per packet, it joins Crozier's queue of the core with the operands of the lowest active
fibre. -/
def execGcond (node value : Src) (s : State) : Out :=
  let i : Instr := .gcond node value
  issue i s fun h => withOperands i s h fun ins s =>
    match ins with
    | [] => s.advance h.c i.words
    | x :: _ =>
      withAccess s h .global 4 .atomic false [(x.lane, (x.s 0).toNat)] fun _ =>
        (s.advance h.c i.words).addOp
          (mkOp i h s (.graph i) [{ lane := x.lane, va := x.s 0, op := (x.w 1).zx }])

/-! ### `EVENT` (R407) -/

/-- Crozier writes an `EVENT`'s record, and it completes with the put, or at once without a ring (R407). `none` while it
waits. -/
def serveEvent (s : State) (o : Op) (code : Nat) : Option State :=
  match s.team? o.tid with
  | none => none
  | some t =>
    if !crozTakes s o .system || !instReady s o.asid t.launch.inst then none
    else
      let s1 := eventRecord s o.asid t.launch.inst (nodeIndex t.launch.inst t.launch.node) code
        (((o.accs.head?).map (·.op)).getD 0)
      match (s1.host.puts.drop s.host.puts.length).head? with
      | none => some (s1.finishOp o.id)
      | some p => some (s1.updOp o.id fun o => { o with kind := .event p.id })

/-- Crozier serves the operation at the head of a core's queue (R8). -/
def graphServe (s : State) (id : Nat) : Option State :=
  match s.op? id with
  | none => none
  | some o =>
    if crozFrozen s (dieOf o.core) then none
    else match o.kind with
      | .graph (.launch ..) => serveLaunch s o
      | .graph (.gcond ..) => serveCond s o
      | .graph (.event code _) => serveEvent s o code.toNat
      | _ => none

/-- `EVENT` (R407): once per packet, it joins Crozier's queue of the core with the payload of the lowest active fibre. -/
def execEvent (code : BitVec 16) (a : Src) (s : State) : Out :=
  let i : Instr := .event code a
  issue i s fun h => withOperands i s h fun ins s =>
    (s.advance h.c i.words).addOp
      { mkOp i h s (.graph i) [{ op := ((ins.head?).map fun (x : LaneIn) => x.s 0).getD 0 }] with still := 0 }

def enabledUePutComplete (s : State) : Bool := !s.host.puts.isEmpty

/-- `UE_PUT_COMPLETE` (R407): the target reports the oldest put; an `EVENT` that waits for it completes. -/
def execUePutComplete (s : State) : Out :=
  whenEnabled (enabledUePutComplete s) s fun s =>
    match s.host.puts with
    | [] => s
    | p :: r =>
      let s1 := { s with host := { s.host with puts := r } }
      (s1.ops.filter fun o => o.kind == .event p.id).foldl (fun s o => s.finishOp o.id) s1

/-! ### `ARENA_DISABLE` (R373) -/

/-- A write that clears an arena's EN: its size is written, its queued nodes are dropped without events. -/
def arenaOff (s : State) (die k : Nat) (v : Dword) : State :=
  let a := vget (s.crozOf die).arenas k {}
  let inside := fun (asid va : Nat) =>
    a.size.getLsbD 63 && asid == wbits a.own 20 12 && dbits a.base 0 56 ≤ va && va < dbits a.base 0 56 + dbits a.size 0 44
  let c := s.crozOf die
  let gone := (c.ready.filter fun r => inside r.asid r.node).map (fun r => (r.asid, nodeInst r.node r.body)) ++
    (c.running.filter fun r => r.waits && inside r.asid r.node).map fun r => (r.asid, r.inst)
  let s1 := s.updReady die fun l => l.filter fun r => !inside r.asid r.node
  let s2 := s1.updCroz die fun c => { c with
    running := c.running.filter fun r => !(r.waits && inside r.asid r.node)
    arenas := vset c.arenas k { a with size := BitVec.ofNat 64 (dbits v 0 44) } }
  gone.foldl (fun s p => activeDown s p.1 p.2 true) s2

/-- `ARENA_DISABLE` (R373). -/
def execArenaDisable (die arena : Nat) (s : State) : Out :=
  fromOutside (.arenaDisable die arena) s fun s => if arena < 16 then
    arenaOff s die arena (vget (s.crozOf die).arenas arena {}).size else s

end Sys2Proof.Machine
end

