-- ==== Sys2Proof/Machine/Save.lean ====
section
/-!
DEFINITION. The save area of a team (R25, R239, R284, R289, R316, R318, R346): its sections as bytes, in the order that
the manual lists what each holds, and a team read back from them. Where in a record a field stands is log 15; what the
manual lists nowhere stays with Crozier.
-/

namespace Sys2Proof.Machine

open Sys2Proof

/-! ### Records -/

/-- Numbers of some byte widths, one after the other. -/
def packNums : List Nat → List Nat → List Byte
  | w :: ws, n :: ns => leBytes w n ++ packNums ws ns
  | _, _ => []

/-- The numbers of some byte widths that bytes hold. -/
def unpackNums : List Nat → List Byte → List Nat
  | [], _ => []
  | w :: ws, b => leNat (b.take w) :: unpackNums ws (b.drop w)

/-- Bytes filled up with zeros. -/
abbrev padTo (n : Nat) (l : List Byte) : List Byte := l ++ List.replicate (n - l.length) 0

/-- A record: the widths of its fields, the fields of a value, and a value with them replaced. -/
structure Layout (α : Type) where
  size : Nat
  widths : List Nat
  nums : α → List Nat
  put : α → (Nat → Nat) → α

/-- A value's record. -/
abbrev Layout.write {α : Type} (l : Layout α) (x : α) : List Byte := padTo l.size (packNums l.widths (l.nums x))

/-- A value with the fields that a record holds. -/
abbrev Layout.read {α : Type} (l : Layout α) (x : α) (b : List Byte) : α :=
  let v := unpackNums l.widths b
  l.put x fun k => v.getD k 0

/-- Records one after the other. -/
abbrev Layout.writeAll {α : Type} (l : Layout α) (xs : List α) : List Byte := xs.flatMap l.write

/-- Values with the fields that successive records hold. -/
abbrev Layout.readAll {α : Type} (l : Layout α) (xs : List α) (b : List Byte) : List α :=
  xs.zipIdx.map fun p => l.read p.1 (b.drop (l.size * p.2))

/-- A status as its code, and of its code (R59). -/
def FStatus.code : FStatus → Nat
  | .empty => 0 | .running => 1 | .rcvg => 2 | .barrier => 3 | .parked => 4 | .endedSucc => 5 | .ended => 6 | .halted => 7
def FStatus.ofCode (n : Nat) : FStatus :=
  match n with
  | 1 => .running | 2 => .rcvg | 3 => .barrier | 4 => .parked | 5 => .endedSucc | 6 => .ended | 7 => .halted | _ => .empty

/-- A bit as a number. -/
abbrev bitNat (b : Bool) (k : Nat) : Nat := if b then 2 ^ k else 0

/-- The record of a fibre (R59, R239). -/
def fibreLayout : Layout Fibre where
  size := 128
  widths := [7, 7, 7, 8, 1, 7, 7, 1, 8, 8, 4, 1, 1, 4, 1, 2, 2, 8, 4, 4, 8, 4, 4, 4, 4, 4, 4, 4]
  nums := fun x =>
    let (sn, sa) := match x.succ with
      | some (a, n) => (128 + n.toNat, a.toNat)
      | none => (0, 0)
    let (pv, pa, pw) := match x.poll with
      | some (a, w) => (1, a.toNat, w.toNat)
      | none => (0, 0, 0)
    [x.pc.toNat, x.sp.toNat, x.fp.toNat, x.preds.toNat, sn, sa, x.rcvg.toNat, pv, pa, pw, x.clause.toNat,
     x.rem.toNat + bitNat x.active 4, x.status.code + bitNat x.demoted 3 + bitNat x.mode 4, x.demWait.toNat, x.skip.toNat,
     x.phT.toNat, x.phG.toNat, x.epc.toNat, x.estatus.toNat, x.ecause.toNat, x.eaddr.toNat, x.einfo.toNat, x.eclause.toNat] ++
     x.esave.toList.map BitVec.toNat ++ [x.rgstat.toNat]
  put := fun x v =>
    { x with
      pc := BitVec.ofNat 56 (v 0), sp := BitVec.ofNat 56 (v 1), fp := BitVec.ofNat 56 (v 2), preds := BitVec.ofNat 64 (v 3)
      succ := if v 4 < 128 then none else some (BitVec.ofNat 56 (v 5), BitVec.ofNat 7 (v 4))
      rcvg := BitVec.ofNat 56 (v 6)
      poll := if v 7 = 0 then none else some (BitVec.ofNat 64 (v 8), BitVec.ofNat 64 (v 9))
      clause := BitVec.ofNat 32 (v 10), rem := BitVec.ofNat 4 (v 11), active := (v 11).testBit 4
      status := .ofCode (v 12 % 8), demoted := (v 12).testBit 3, mode := (v 12).testBit 4, demWait := BitVec.ofNat 32 (v 13)
      skip := BitVec.ofNat 5 (v 14), phT := BitVec.ofNat 16 (v 15), phG := BitVec.ofNat 16 (v 16)
      epc := BitVec.ofNat 64 (v 17), estatus := BitVec.ofNat 32 (v 18), ecause := BitVec.ofNat 32 (v 19)
      eaddr := BitVec.ofNat 64 (v 20), einfo := BitVec.ofNat 32 (v 21), eclause := BitVec.ofNat 32 (v 22)
      esave := #v[BitVec.ofNat 32 (v 23), BitVec.ofNat 32 (v 24), BitVec.ofNat 32 (v 25), BitVec.ofNat 32 (v 26)]
      rgstat := BitVec.ofNat 32 (v 27) }

/-- A fibre's registers, those of its window. -/
def regLayout (window : Nat) : Layout Fibre where
  size := 4 * window
  widths := List.replicate window 4
  nums := fun x => (List.range window).map fun k => (vget x.regs k 0).toNat
  put := fun x v => { x with regs := (List.range window).foldl (fun r k => vset r k (BitVec.ofNat 32 (v k))) x.regs }

/-- A fibre's mark stack: the 16 entries of the unit, newest first (R331, R346). -/
def markLayout : Layout Fibre where
  size := 256
  widths := (List.replicate 16 [1, 2, 4, 9]).flatten
  nums := fun x => (List.range 16).flatMap fun k => match x.marks[k]? with
    | some m => [if m.known then 1 else 2, m.id.toNat, m.depth.toNat, 0]
    | none => [0, 0, 0, 0]
  put := fun x v => { x with marks := ((List.range 16).filter fun k => v (4 * k) ≠ 0).map fun k =>
    { id := BitVec.ofNat 16 (v (4 * k + 1)), depth := BitVec.ofNat 32 (v (4 * k + 2)), known := v (4 * k) = 1 } }

/-- The record of a group (R239). -/
def groupLayout : Layout Group where
  size := 256
  widths := List.replicate 32 4 ++ List.replicate 12 1 ++ [4, 4, 1, 1, 4, 8, 8]
  nums := fun g => g.scal.toList.map BitVec.toNat ++ g.flags.toList.map BitVec.toNat ++
    [g.fpctl.toNat, g.cbase.toNat, g.backoff.toNat, g.homeSched, g.rgfail.toNat, g.xlVa.toNat, g.xlInfo.toNat]
  put := fun g v =>
    { g with
      scal := (List.range 32).foldl (fun r k => vset r k (BitVec.ofNat 32 (v k))) g.scal
      flags := (List.range 12).foldl (fun r k => vset r k (BitVec.ofNat 6 (v (32 + k)))) g.flags
      fpctl := BitVec.ofNat 32 (v 44), cbase := BitVec.ofNat 32 (v 45), backoff := BitVec.ofNat 3 (v 46), homeSched := v 47
      rgfail := BitVec.ofNat 32 (v 48), xlVa := BitVec.ofNat 64 (v 49), xlInfo := BitVec.ofNat 64 (v 50) }

/-- A clause's flags as a mask. -/
abbrev flagMask (l : List Nat) : Nat := l.foldl (fun n k => n ||| 2 ^ k) 0

/-- A matrix operation with its resolved operands, its words, its flags and its next K-step (R85, R318): 64 bytes. -/
def mxLayout : Layout MxReq where
  size := 64
  widths := [4, 4, 4, 4, 8, 8, 8, 8, 4, 2, 2, 2]
  nums := fun q =>
    let ws := encode q.instr
    (List.range 4).map (fun k => (ws.getD k 0).toNat) ++ (List.range 3).map (fun k => (q.ops.getD k 0).toNat) ++
      [q.shape.toNat, q.list.toNat, q.num.toNat, q.next, flagMask q.flags]
  put := fun q v =>
    { q with
      ops := q.ops.zipIdx.map fun p => if p.2 < 3 then BitVec.ofNat 64 (v (4 + p.2)) else p.1
      shape := BitVec.ofNat 64 (v 7), list := BitVec.ofNat 32 (v 8), num := BitVec.ofNat 16 (v 9), next := v 10 }

/-- A copy with its resolved operands and its descriptor (R289). The last two words hold seed and stream, the stage's
sequence number, or the lines and elements of a raised copy, whose mask stands in place of an address. -/
def copyLayout : Layout CopyReq where
  size := 48
  widths := [4, 2, 2, 4, 8, 16, 4, 4, 4]
  nums := fun c =>
    let am := match c.am with
      | some p => p.2.toNat
      | none => if c.feeds.isSome then c.mask.toNat else 0
    let (a, b) := match c.sr, c.stage with
      | some (x, y), _ => (x.toNat, y.toNat)
      | none, some (_, q) => (q.toNat, 0)
      | none, none => if c.feeds.isSome then (c.l, c.k) else (0, 0)
    [c.off, c.i0, c.j0, c.status.getD 0, am, c.desc.toNat, c.fm.toNat, a, b]
  put := fun c v =>
    let d : Quad := BitVec.ofNat 128 (v 5)
    let raised := c.feeds.isSome
    { c with
      off := v 0, i0 := v 1, j0 := v 2, status := c.status.map fun _ => v 3
      am := match c.am with
        | some p => some (p.1, BitVec.ofNat 64 (v 4))
        | none => none
      mask := if raised then BitVec.ofNat 8 (v 4) else c.mask
      desc := d, fm := BitVec.ofNat 32 (v 6)
      l := if raised then v 7 else descL d, k := if raised then v 8 else descK d
      sr := c.sr.map fun _ => (BitVec.ofNat 32 (v 7), BitVec.ofNat 32 (v 8))
      stage := match c.stage with
        | some p => some (p.1, BitVec.ofNat 32 (v 7))
        | none => none }

/-- The 64-byte record of an operation that starts again: its kind's fields, and for a copy the words it issued and its
flags (R289). -/
def restartRecord (o : Op) : List Byte :=
  match o.kind with
  | .matrix q => mxLayout.write q
  | .copy c => padTo 64 (copyLayout.write c ++ (o.words.take 3).flatMap (fun w => leBytes 4 w.toNat) ++ leBytes 2 (flagMask o.flags))
  | _ => List.replicate 64 0

/-- An operation with what its record holds. -/
def Op.restarted (o : Op) (b : List Byte) : Op :=
  { o with kind := match o.kind with
      | .matrix q => .matrix (mxLayout.read q b)
      | .copy c => .copy (copyLayout.read c b)
      | k => k }

/-! ### The team record (R203, R239, R265, R284) -/

/-- A barrier's record. -/
def barLayout : Layout Bar where
  size := 6
  widths := [2, 2, 2]
  nums := fun b => [b.c, b.expected, b.phase.toNat]
  put := fun _ v => { c := v 0, expected := v 1, phase := BitVec.ofNat 16 (v 2) }

/-- A convergence register's record, with its captured operation. -/
def convLayout : Layout Conv where
  size := 68
  widths := [2, 2] ++ mxLayout.widths
  nums := fun r => [r.n, r.c] ++ (r.captured.map mxLayout.nums).getD []
  put := fun r v => { n := v 0, c := v 1, captured := r.captured.map fun q => mxLayout.put q fun k => v (k + 2) }

/-- A tile handle's record. -/
def handleLayout : Layout Handle where
  size := 17
  widths := [16, 1]
  nums := fun t => [t.desc.toNat, bitNat t.valid 0]
  put := fun _ v => { desc := BitVec.ofNat 128 (v 0), valid := v 1 ≠ 0 }

/-- A channel's record: its number and what it holds. -/
def chanLayout : Layout (Nat × Channel) where
  size := 12
  widths := [1, 1, 2, 4, 2, 2]
  nums := fun p => [p.1, bitNat p.2.w64 0, p.2.depth, p.2.base, p.2.count, p.2.head]
  put := fun p v => (v 0, { p.2 with w64 := v 1 ≠ 0, depth := v 2, base := v 3, count := v 4, head := v 5 })

/-- A stage's record: configuration, arrivals and slots. -/
def stageLayout : Layout Stage where
  size := 88
  widths := [4, 4] ++ (List.replicate 16 [4, 1]).flatten
  nums := fun st => [st.cfg.toNat, st.arr.toNat] ++ st.slots.flatMap fun x => [x.n.toNat, bitNat x.full 0]
  put := fun st v =>
    { cfg := BitVec.ofNat 32 (v 0), arr := BitVec.ofNat 32 (v 1)
      slots := st.slots.zipIdx.map fun p => { n := BitVec.ofNat 32 (v (2 + 2 * p.2)), full := v (3 + 2 * p.2) ≠ 0 } }

/-- A stage instruction that waits, as the team record keeps it (R284). -/
def stageWaitLayout : Layout Op where
  size := 12
  widths := [4, 4, 4]
  nums := fun o => match o.kind with
    | .stageWait i q => [((encode i).headD 0).toNat, q.toNat, o.lanes.toNat]
    | _ => []
  put := fun o v => { o with kind := match o.kind with
      | .stageWait i _ => .stageWait i (BitVec.ofNat 32 (v 1))
      | k => k }

/-- Registers of a vector replaced. -/
def putVec {α : Type} {n : Nat} (v : Vector α n) (l : List α) : Vector α n := l.zipIdx.foldl (fun r p => vset r p.2 p.1) v

/-- Words of the team record that stand for themselves: format registers, FXERR, REDERR, CPERR, CPERRVA. -/
def wordLayout : Layout Team where
  size := 56
  widths := List.replicate 8 4 ++ [4, 4, 4, 8]
  nums := fun t => t.fm.toList.map BitVec.toNat ++ [t.fxerr.toNat, t.rederr.toNat, t.cperr.toNat, t.cperrva.toNat]
  put := fun t v =>
    { t with
      fm := (List.range 8).foldl (fun r k => vset r k (BitVec.ofNat 32 (v k))) t.fm
      fxerr := BitVec.ofNat 32 (v 8), rederr := BitVec.ofNat 32 (v 9), cperr := BitVec.ofNat 32 (v 10)
      cperrva := BitVec.ofNat 64 (v 11) }

/-- The team record: barriers, convergence registers, handles, words, channels, stages and waiting stage instructions. -/
def teamRecord (t : Team) (waits : List Op) : List Byte :=
  padTo 8192 (barLayout.writeAll t.bars.toList ++ convLayout.writeAll t.cv.toList ++ handleLayout.writeAll t.th.toList ++
    wordLayout.write t ++ padTo 384 (chanLayout.writeAll t.parkedChans) ++ stageLayout.writeAll t.stages.toList ++
    stageWaitLayout.writeAll waits)

/-- A team with what a team record holds. -/
def Team.ofRecord (t : Team) (b : List Byte) : Team :=
  let t1 := wordLayout.read t (b.drop 1728)
  { t1 with
    bars := putVec t.bars (barLayout.readAll t.bars.toList b)
    cv := putVec t.cv (convLayout.readAll t.cv.toList (b.drop 96))
    th := putVec t.th (handleLayout.readAll t.th.toList (b.drop 1184))
    parkedChans := chanLayout.readAll t.parkedChans (b.drop 1784)
    stages := putVec t.stages (stageLayout.readAll t.stages.toList (b.drop 2168)) }

/-- Where the waiting stage instructions of a team record begin. -/
abbrev stageWaitsAt : Nat := 2872

/-! ### The other sections -/

/-- An entry of an atomic buffer (R186, R190). -/
def redLayout : Layout RedEntry where
  size := 32
  widths := [1, 1, 1, 1, 1, 1, 8, 8]
  nums := fun e => [e.sched, e.home, e.num, e.fn.toBits.toNat, bitNat e.w64 0, e.scope.toBits.toNat, e.va.toNat, e.value.toNat]
  put := fun e v => { e with home := v 1, num := v 2, w64 := v 4 ≠ 0, va := BitVec.ofNat 64 (v 6), value := BitVec.ofNat 64 (v 7) }

/-- The engine restart record: shape, MXSTAT, MXERR and QSEQ (R316). -/
def engineLayout : Layout Team where
  size := 64
  widths := [8, 4, 4, 8]
  nums := fun t => [t.mxshape.toNat, t.mxstat.toNat, t.mxerr.toNat, t.qseq.toNat]
  put := fun t v => { t with
    mxshape := BitVec.ofNat 64 (v 0), mxstat := BitVec.ofNat 32 (v 1), mxerr := BitVec.ofNat 32 (v 2), qseq := BitVec.ofNat 64 (v 3) }

/-- The team has used its matrix engine: then it has an engine restart record (R316; the sizes that R239 and R368 work out
hold none, log 15). -/
def usedEngine (t : Team) : Bool :=
  t.mxshape != ({} : Team).mxshape || t.mxstat != 0 || t.mxerr != 0 || t.qseq != 0

/-- Every lane of some groups, group by group. -/
abbrev lanesAll (gs : List Group) : List Fibre := gs.flatMap fun g => g.lanes.toList

/-- Groups with lanes that records of one layout each replace. -/
def putLanes (l : Group → Layout Fibre) (b : List Byte) : List Group → Nat → List Group
  | [], _ => []
  | g :: r, off =>
    { g with lanes := putVec g.lanes ((l g).readAll g.lanes.toList (b.drop off)) } :: putLanes l b r (off + 32 * (l g).size)

/-- The sections of the save area of a team whose groups, reductions and channels are parked: all but the header, the
scratchpad image and the sub-tiles in between (R239). `waits` are its stage instructions that wait, `again` the
operations that start again. -/
def teamSections (t : Team) (waits : List Op) : List Byte :=
  fibreLayout.writeAll (lanesAll t.parked) ++ (t.parked.flatMap fun g => (regLayout g.window).writeAll g.lanes.toList) ++
    groupLayout.writeAll t.parked ++ teamRecord t waits ++ redLayout.writeAll t.parkedReds ++ markLayout.writeAll (lanesAll t.parked)

/-- The restart records of a team: its operations', then the engine's. -/
def restartRecords (t : Team) (again : List Op) : List Byte :=
  again.flatMap restartRecord ++ if usedEngine t then engineLayout.write t else []

/-- A saved team's stage instructions that wait, and its operations that start again. -/
def savedWaits (s : State) (tid : Nat) : List Op :=
  s.ops.filter fun o => o.tid == tid && match o.kind with | .stageWait .. => true | _ => false
def savedAgain (s : State) (tid : Nat) : List Op :=
  s.ops.filter fun o => o.tid == tid && match o.kind with | .copy _ | .matrix _ => true | _ => false

/-- The offset of the restart records in the save area of a saved team. -/
abbrev recordsAt (t : Team) : Nat := saveBytes (t.parked.map (·.window)) t.scrSize t.nsub t.parkedReds.length 0

/-- Bytes of a saved team's save area. -/
abbrev savedBytes (s : State) (t : Team) : Nat :=
  recordsAt t + 64 * ((savedAgain s t.tid).length + if usedEngine t then 1 else 0)

/-- The parts of a saved team's area that hold what may change while it is saved: records and registers, and the restart
records. -/
def writeRecords (s : State) (t : Team) : State :=
  vwrite (vwrite s t.asid (t.launch.saveBase + 256) (teamSections t (savedWaits s t.tid))) t.asid
    (t.launch.saveBase + recordsAt t) (restartRecords t (savedAgain s t.tid))

/-- A saved team is written into its save area (R239). Version, action and section count of the header are numbers that
the manual does not give. -/
def writeSave (s : State) (t : Team) : State :=
  let (v, s1) := s.freePayload
  let (c, s2) := s1.freePayload
  let put := fun (s : State) (off : Nat) (l : List Byte) => vwrite s t.asid (t.launch.saveBase + off) l
  let n := recordsAt t - 1024 * t.nsub
  let s3 := put s2 0 (padTo 256 (leBytes 4 v.lo.toNat ++ leBytes 4 v.hi.toNat ++ leBytes 4 c.lo.toNat ++
    leBytes 4 t.parkedReds.length))
  let s4 := put s3 (n - t.scrSize) (Mem.read t.scratch 0 t.scrSize)
  writeRecords (put s4 n ((List.range t.nsub).flatMap fun k => (t.sub k).flatMap fun w => leBytes 4 w.toNat)) t

/-- A saved team with what its save area holds: groups, registers, marks, team record, reductions, scratchpad, sub-tiles
and the engine's registers. -/
def Team.ofImage (t : Team) (b : List Byte) : Team :=
  let n := t.parked.length
  let regs := 256 + 4096 * n
  let grp := regs + (t.parked.map fun g => 128 * g.window).sum
  let rec_ := grp + 256 * n
  let red := rec_ + 8192
  let marks := red + 32 * t.parkedReds.length
  let scr := marks + 8192 * n
  let subs := scr + t.scrSize
  let lanes := putLanes (fun _ => markLayout) b (putLanes (fun g => regLayout g.window) b (putLanes (fun _ => fibreLayout) b t.parked 256) regs) marks
  let t1 := t.ofRecord (b.drop rec_)
  let t2 := if usedEngine t then engineLayout.read t1 (b.drop (b.length - 64)) else t1
  { t2 with
    parked := groupLayout.readAll lanes (b.drop grp)
    parkedReds := redLayout.readAll t.parkedReds (b.drop red)
    scratch := Mem.write [] 0 ((b.drop scr).take t.scrSize)
    subs := (List.range t.nsub).map fun k =>
      (k, (List.range 256).map fun e => BitVec.ofNat 32 (leNat ((b.drop (subs + 1024 * k + 4 * e)).take 4))) }

/-- The operations of a saved team with what its save area holds of them. -/
def opsOfImage (s : State) (t : Team) (b : List Byte) : List Op :=
  let rec_ := 256 + 4096 * t.parked.length + (t.parked.map fun g => 128 * g.window).sum + 256 * t.parked.length
  let waits := savedWaits s t.tid
  let again := savedAgain s t.tid
  s.ops.map fun o => match waits.findIdx? (·.id = o.id), again.findIdx? (·.id = o.id) with
    | some k, _ => stageWaitLayout.read o (b.drop (rec_ + stageWaitsAt + 12 * k))
    | none, some k => o.restarted (b.drop (recordsAt t + 64 * k))
    | none, none => o

/-- What a team keeps while it is saved, but for its scratchpad image, which is written as it changes. -/
abbrev Team.keeps (t : Team) : Team := { t with scratch := [], unsynced := false }

/-- Saved teams that a move has changed have their save areas brought up to date, or once their pages no longer migrate
(R25, R157, R315). -/
def State.syncSaved (before s : State) : State :=
  s.teams.foldl (fun s t =>
    if t.phase = .saved && (t.unsynced || (before.team? t.tid).any fun q => q.phase = .saved && q.keeps != t.keeps) then
      if rangeMigrates s t.asid t.launch.saveBase (savedBytes s t) then s.updTeam t.tid fun t => { t with unsynced := true }
      else (writeRecords s t).updTeam t.tid fun t => { t with unsynced := false }
    else s) s

end Sys2Proof.Machine
end

