-- ==== Sys2Proof/Machine/Place.lean ====
section
/-!
DEFINITION. Crozier's placement (R12 to R14, R19, R20, R364 to R366), pre-emption (R25, R90, R195, R222,
R239 to R241, R367, R368), the start and end of teams, and the completion of nodes (R353, R355).
-/

namespace Sys2Proof.Machine

open Sys2Proof

/-! ### Shapes (R11, R13, R357) -/

/-- Fields of a grid body (R357). -/
abbrev gridTeams (b : List Byte) : Nat := rec32 b 0x30
abbrev gridGp (b : List Byte) : Nat := nbits (rec32 b 0x34) 27 5
abbrev gridGc (b : List Byte) : Nat := nbits (rec32 b 0x34) 21 6
abbrev gridSubs (b : List Byte) : Nat := nbits (rec32 b 0x34) 8 7
abbrev gridQuad (b : List Byte) : Bool := (rec32 b 0x34).testBit 7
abbrev gridScr (b : List Byte) : Nat := 4096 * nbits (rec32 b 0x38) 25 7
abbrev gridStagger (b : List Byte) : Nat := nbits (rec32 b 0x38) 15 10
abbrev gridGang (b : List Byte) : Nat := nbits (rec32 b 0x38) 12 3
abbrev gridPos (b : List Byte) : Nat := nbits (rec32 b 0x38) 9 3
/-- Window of a role: producers at bit 18, consumers at bit 15. -/
abbrev gridWindow (b : List Byte) (lo : Nat) : Nat := 16 + 8 * nbits (rec32 b 0x34) lo 3
/-- The windows of a team's groups by team-relative number: producers first (R11). -/
def gridWindows (b : List Byte) : List Nat :=
  List.replicate (gridGp b) (gridWindow b 18) ++ List.replicate (gridGc b) (gridWindow b 15)

/-- The shape keeps the limits of R11, R13 and R357. -/
def shapeOk (b : List Byte) : Bool :=
  1 ≤ gridGc b && gridGc b ≤ 32 && gridGp b + gridGc b ≤ 32 && gridWindow b 18 ≤ 64 && gridWindow b 15 ≤ 64 &&
    gridSubs b ≤ 64 && gridScr b ≤ 262144 && (!gridQuad b || gridTeams b % 4 == 0) &&
    saveBytes (gridWindows b) (gridScr b) (gridSubs b) 1024 49 ≤ rec32 b 0x58

/-! ### Where a team fits (R12, R13, R365) -/

/-- What a team asks of a core: its groups' windows, scratchpad bytes, sub-tiles, channels. -/
structure Need where
  windows : List Nat
  scr : Nat
  nsub : Nat
  chans : List Nat := []
  deriving DecidableEq, Repr

/-- What the teams of a grid ask. -/
def needOf (b : List Byte) : Need := { windows := gridWindows b, scr := gridScr b, nsub := gridSubs b }

/-- What a saved team asks (R12, R203). -/
def Team.needs (t : Team) : Need :=
  { windows := t.parked.map (·.window), scr := t.scrSize, nsub := t.nsub, chans := t.parkedChans.map (·.1) }

/-- Teams that hold resources of a core. -/
abbrev State.coreTeams (s : State) (core : Nat) : List Team := s.teams.filter fun t => t.core = core && t.holdsCore

/-- A core has room for a team whose context may hold `limit` group slots there (R12, R23, R365). -/
def coreFits (s : State) (core asid : Nat) (n : Need) (limit : Nat) : Bool :=
  let l := s.coreTeams core
  let k := s.coreOf core
  let slots := n.windows.length
  (s.coreGroups core).length + slots ≤ 64 && slotsHeld s asid core + slots ≤ limit &&
    regsUsed (s.coreGroups core) + 32 * n.windows.sum ≤ 131072 &&
    (l.map (·.scrSize)).sum + n.scr ≤ 262144 - 65536 * min 2 (dbits k.cpwin 0 2) &&
    (l.map (·.nsub)).sum + n.nsub ≤ 64 - bqHolds s core &&
    n.chans.all fun c => (assoc k.chans c).isNone

/-- Clusters in the order in which a Crozier tries them: its own die's, then the others, each ascending (R19,
R365). -/
def tryOrder (die : Nat) (l : List Nat) : List Nat :=
  ((List.range 256).filter fun c => l.contains c && c / 32 == die) ++
    (List.range 256).filter fun c => l.contains c && c / 32 != die

/-- Places of a team, or of a quad, one core for each of its teams (R13). -/
def placesIn (clusters : List Nat) (quad : Bool) : List (List Nat) :=
  clusters.flatMap fun c =>
    if quad then [0, 4].map fun h => (List.range 4).map fun m => 8 * c + h + m
    else (List.range 8).map fun m => [8 * c + m]

/-- The core of a place for a team: that of its quad member number, or the only one (R13). -/
abbrev seatOf (place : List Nat) (teamNo : Nat) : Nat := place.getD (teamNo % place.length) 0

/-- Every team of an item, given by number and need, fits its core of a place. -/
def placeFits (s : State) (asid limit : Nat) (needs : List (Nat × Need)) (place : List Nat) : Bool :=
  needs.all fun p => coreFits s (seatOf place p.1) asid p.2 limit

/-! ### Seating (R12) -/

/-- A group seated on a core: on the scheduler with the most free slots, the lower on a tie, in its lowest free
slot. Its age is that of its first placement, after a resumption too (R62, log 26). -/
def seatGroup (core : Nat) (first : Bool) (s : State) (g : Group) : State :=
  let free := fun (k : Nat) => (freeSlots s core k).length
  let sched := (List.range 4).foldl (fun b k => if free b < free k then k else b) 0
  { s with groups := s.groups ++ [{ g.placed (s.coreGroups core) with
      core := core, sched := sched, slot := (freeSlots s core sched).headD 0
      homeSched := if first then sched else g.homeSched }] }

/-- The launch facts of a grid's teams (R357, R365). -/
def launchOf (s : State) (die : Nat) (r : Running) : Launch :=
  let b := r.body
  { inst := r.inst, node := r.node, die := die, entry := BitVec.ofNat 56 (rec64 b 0x20)
    gp := gridGp b, gc := gridGc b, winP := gridWindow b 18, winC := gridWindow b 15
    granules := nbits (rec32 b 0x38) 25 7, subtiles := gridSubs b, factor4 := gridQuad b
    stack := rec64 b 0x48, stackUnits := nbits (rec32 b 0x38) 0 8, dur := rec32 b 0x3C, yint := rec32 b 0x40
    restartable := (rec32 b 0x38).testBit 8, gang := gridGang b, gangPos := gridPos b
    saveBase := 0, saveSz := rec32 b 0x58
    params := if rec64 b 0x28 = 0 then r.arg else BitVec.ofNat 64 (rec64 b 0x28)
    privileged := (s.ctxOf r.asid).privileged }

/-- Team `k` of a grid placed on a core, to start at count `at_` of its region (R365): its identity is set, its groups are seated with
empty lanes. -/
def placeTeam (die : Nat) (r : Running) (at_ : Nat) (s : State) (p : Nat × Nat) : State :=
  let (core, k) := p
  let b := r.body
  let l := launchOf s die r
  let t : Team :=
    { tid := s.serial, asid := r.asid, core := core, phase := .starting
      launch := { l with saveBase := rec64 b 0x50 + k * l.saveSz }
      teamNo := k, nteams := gridTeams b, gridId := r.gridId, sclass := r.cls
      gridBar := BitVec.ofNat 64 (r.inst + 256 + 128 * r.nodes + 256 * recIndex b)
      tvec := (s.ctxOf r.asid).tvec, preempt := (assoc r.carry k).getD 0
      scrSize := gridScr b, nsub := gridSubs b, startAt := at_, age := s.serial }
  let gs := List.zipWith (fun n w =>
    let g : Group := { gid := s.serial + 1 + n, tid := t.tid, core := core, num := n, consumer := decide (l.gp ≤ n)
                       window := w, age := s.serial + 1 + n }
    g.updLanes (BitVec.allOnes 32) fun i x =>
      let (lo, hi) := stackBounds t n i
      { x with stackLo := lo, stackHi := hi })
    (List.range (gridWindows b).length) (gridWindows b)
  gs.foldl (seatGroup core true)
    ({ s with teams := s.teams ++ [t], serial := s.serial + 1 + gs.length }.updCtx r.asid fun c => { c with seen := true })

/-! ### Placing the teams of a grid (R365, R366) -/

/-- Team numbers taken together: those of a quad, or one by one (R13). -/
def itemsOf (quad : Bool) (l : List Nat) : List (List Nat) :=
  if quad then (l.map (· / 4)).eraseDups.map fun q => l.filter fun k => k / 4 == q else l.map fun k => [k]

/-- Cycles from now to the first start of a decision that places more teams of a launch: its stagger after the team placed
before, counted in that one's region (R365). -/
def startDelay (s : State) (r : Running) : Nat :=
  r.lastStart.2 + gridStagger r.body - (s.clusterOf r.lastStart.1).cycles

/-- Items placed in order, the first to start `next` cycles of its region from now, each other its stagger after the one
before (R365). Until one finds no place: what is left, where and at which count the last begins, and the state. -/
def placeItems (die asid limit : Nat) (clusters : List Nat) (r : Running) :
    List (List Nat) → Nat → Nat × Nat → State → List (List Nat) × (Nat × Nat) × State
  | [], _, last, s => ([], last, s)
  | it :: rest, next, last, s =>
    match (placesIn clusters (gridQuad r.body)).find? (placeFits s asid limit (it.map fun k => (k, needOf r.body))) with
    | none => (it :: rest, last, s)
    | some place =>
      let cl := clusterNo (seatOf place (it.headD 0))
      let at_ := (s.clusterOf cl).cycles + next
      placeItems die asid limit clusters r rest (next + gridStagger r.body) (cl, at_)
        ((it.map fun k => (seatOf place k, k)).foldl (placeTeam die r at_) s)

/-- A unit that may be placed: a grid that still has teams to place, or a gang of them. -/
structure Cand where
  runs : List Running
  asid : Nat
  cls : Nat
  /-- it comes from the ready queue, by these nodes; its head time and whether it is blocking -/
  queued : List Nat := []
  blocking : Bool := false
  deriving DecidableEq, Repr

/-- A gang is placed as a whole. -/
abbrev Cand.gang (c : Cand) : Bool := c.runs.any fun r => 1 < gridGang r.body

/-- Replaces a running node of a Crozier. -/
def setRunning (s : State) (die : Nat) (r : Running) : State :=
  s.updCroz die fun c => { c with running := c.running.map fun q => if q.node = r.node && q.asid = r.asid then r else q }

/-- The barrier block of a grid (R89). -/
abbrev barBlock (r : Running) (nodes : Nat) : Nat := r.inst + 256 + 128 * nodes + 256 * recIndex r.body

/-- Crozier's reads of a running node's instance wait, or of a grid that has not started its write of the barrier block
(R155, R157). -/
def Running.held (r : Running) (s : State) : Bool :=
  rangeMigrates s r.asid r.inst 64 || rangeMigrates s r.asid (barBlock r (instNodes s r.asid r.inst)) 256

/-- The first placement of a grid starts its node: the instance's argument and node count are read, of an error there its
host is told, GRIDID is taken and the barrier block zeroed (R29, R89, R231). -/
def openGrid (s : State) (r : Running) : Running × State :=
  let (bad, s1) := recordBad s r.asid r.inst
  let s2 := if bad then readFailed s1 r.asid r.inst (recIndex r.body) else s1
  let nodes := instNodes s2 r.asid r.inst
  let s3 := vwrite s2 r.asid (barBlock r nodes) (List.replicate 256 0)
  ({ r with gridId := BitVec.ofNat 32 (s.ctxOf r.asid).grids, nodes := nodes, arg := (vread64 s2 r.asid (r.inst + 0x10)).getD 0 },
   s3.updCtx r.asid fun c => { c with grids := c.grids + 1 })

/-- The teams of a candidate placed as far as they fit; nothing when none fits, or, in a gang, when not all do. -/
def placeCand (s : State) (die : Nat) (c : Cand) : Option State :=
  let clusters := tryOrder die (allotment s c.asid)
  let limit := slotAllotment s c.asid
  -- a gang's members start together, those of a flushed one too (R14)
  let first := if c.queued.isEmpty then (c.runs.map (startDelay s)).foldl max 0 else 0
  let one := fun (acc : Option State) (r : Running) => acc.bind fun s =>
    let (r1, s1) := if c.queued.isEmpty then (r, s.accessed r.asid r.inst) else openGrid s r
    let items := itemsOf (gridQuad r.body) r.todo
    let (rest, last, s2) := placeItems die c.asid limit clusters r1 items first r.lastStart s1
    if rest.length = items.length || (c.gang && !rest.isEmpty) then none
    else
      let r2 := { r1 with todo := rest.flatten, lastStart := last }
      some (if c.queued.isEmpty then setRunning s2 die r2
            else s2.updCroz die fun z => { z with running := z.running ++ [r2] })
  (if c.runs.any (·.held s) then none else c.runs.foldl one (some s)).map fun s1 =>
    if c.queued.isEmpty then s1
    else s1.updReady die fun l => l.filter fun r => !(r.asid == c.asid && c.queued.contains r.node)

/-! ### The candidates (R364, R366) -/

/-- A ready grid node as it would run. -/
def Ready.run (r : Ready) : Running :=
  { node := r.node, inst := nodeInst r.node r.body, asid := r.asid, body := r.body, kind := 0, cls := r.cls
    todo := List.range (gridTeams r.body) }

/-- The entries that a queued entry stands for: itself, or its whole gang. -/
def mates (l : List Ready) (r : Ready) : List Ready := (List.range r.gang).filterMap (gangMate l r)

/-- The queued units of a class, in the order of their queue. -/
def queuedCands (s : State) (die cls : Nat) : List Cand :=
  let l := (s.crozOf die).ready
  (l.filter fun r => r.cls == cls && standsAlone l r).map fun r =>
    { runs := (mates l r).map Ready.run, asid := r.asid, cls := cls, queued := (mates l r).map (·.node)
      blocking := r.blocking }

/-- The grids of a class that have started and have teams to place: those of one gang together. -/
def startedCands (s : State) (die cls : Nat) : List Cand :=
  let l := (s.crozOf die).running.filter fun r => r.kind == 0 && !r.todo.isEmpty && r.cls == cls
  let lead := fun (r : Running) => if 1 < gridGang r.body then r.node - 128 * gridPos r.body else r.node
  let firsts := l.filter fun r => (l.find? fun q => q.asid == r.asid && lead q == lead r) == some r
  firsts.map fun r => { runs := l.filter fun q => q.asid == r.asid && lead q == lead r, asid := r.asid, cls := cls }

/-- A node whose gang size or position does not agree with its gang: its position is out of range, the leader that it
names leads no gang of its size, or a leader's gang takes it for another member (R366). -/
def mismatched (l : List Ready) : Option Ready :=
  l.find? fun r => r.gang ≤ r.pos || recIndex r.body < r.pos ||
    (r.pos != 0 && l.any fun q => q.asid == r.asid && q.node + 128 * r.pos == r.node && (q.gang != r.gang || q.pos != 0)) ||
    l.any fun q => q.asid == r.asid && q.pos == 0 && q.node < r.node && r.node < q.node + 128 * q.gang &&
      (r.gang != q.gang || q.node + 128 * r.pos != r.node)

/-- A queued unit leaves its queue, each of its nodes treated by `f`. -/
def dropCand (s : State) (die : Nat) (c : Cand) (f : State → Running → State) : State :=
  c.runs.foldl f (s.updReady die fun l => l.filter fun r => !(r.asid == c.asid && c.queued.contains r.node))

/-- A node's instance is cancelled (R369). -/
abbrev Running.cancelled (r : Running) (s : State) : Bool := !r.held s && Sys2Proof.Machine.cancelled s r.asid r.inst

/-- The first team of a grid has started (R369). -/
def gridBegun (s : State) (r : Running) : Bool :=
  !r.carry.isEmpty || s.teams.any fun t =>
    t.asid == r.asid && t.launch.node == r.node && t.phase != .starting

/-- Placement's moves on entries that are not to be placed: a cancelled node at a head is dropped (R364), a gang
member that waits too (R370), a bad shape at a head and a mismatched member fail (R20, R366), a grid that has not
begun places no more teams once cancelled (R369). With a member of a gang whose shape is rejected every member fails with
LAUNCH_SHAPE, which the manual does not say (log 26). -/
def tidyQueues (s : State) (die : Nat) : Option State :=
  let l := (s.crozOf die).ready
  let drop := fun (s : State) (r : Running) => activeDown (s.accessed r.asid r.inst) r.asid r.inst
  let fail := fun (s : State) (r : Running) => failNode s r.asid r.inst (recIndex r.body) 1
  let waiting := (l.filter fun r => 1 < gridGang r.body).find? fun r => r.run.cancelled s
  let stopped := (s.crozOf die).running.find? fun r => r.kind == 0 && !r.todo.isEmpty && r.cancelled s && !gridBegun s r
  let heads := (List.range 4).filterMap fun k => (queuedCands s die k).head?
  let alone := fun (r : Ready) => ({ runs := [r.run], asid := r.asid, cls := r.cls, queued := [r.node] } : Cand)
  match mismatched l, waiting, stopped, heads.find? fun c => c.runs.any (·.cancelled s),
      heads.find? fun c => c.runs.any fun r => !shapeOk r.body with
  | some r, _, _, _, _ => some (dropCand s die (alone r) fail)
  | none, some r, _, _, _ => some (dropCand s die (alone r) drop)
  | none, none, some r, _, _ => some (setRunning s die { r with todo := [] })
  | none, none, none, some c, _ => some (dropCand s die c drop)
  | none, none, none, none, some c => some (dropCand s die c fail)
  | none, none, none, none, none => none

/-- A class's queue has a blocking head. -/
abbrev headBlocks (s : State) (die cls : Nat) : Bool := ((queuedCands s die cls).head?.map (·.blocking)).getD false

/-- The candidates of a class in the order in which they are tried: started grids, then the queue's head and up to
8 later ones. While a unit of a lower class blocks, none is placed from the queue; while one of the class does, only
that (R364). -/
def tried (s : State) (die cls : Nat) : List Cand :=
  startedCands s die cls ++
    if (List.range cls).any (headBlocks s die) then []
    else ((queuedCands s die cls).take (if headBlocks s die cls then 1 else 9)).filter fun c =>
      c.runs.all fun r => shapeOk r.body && !r.cancelled s && !r.held s

/-- The first candidate that finds a place, class by class. -/
def placeFirst (s : State) (die : Nat) (classes : List Nat) : Option State :=
  classes.findSome? fun k => (tried s die k).findSome? (placeCand s die)

/-! ### Pre-emption (R367, R368) -/

/-- Inserts by a test of order. -/
def insertBy {α : Type} (before : α → α → Bool) (x : α) : List α → List α
  | [] => [x]
  | y :: r => if before x y then x :: y :: r else y :: insertBy before x r

/-- Sorts by a test of order. -/
def sortBy {α : Type} (before : α → α → Bool) (l : List α) : List α := l.foldl (fun acc x => insertBy before x acc) []

/-- The teams that share a fate: a gang, a quad, or one team (R13, R14). -/
def unitOf (s : State) (t : Team) : List Team :=
  let lead := fun (q : Team) => q.launch.node - 128 * q.launch.gangPos
  s.teams.filter fun q => q.asid == t.asid && q.phase != .ended &&
    if 1 < t.launch.gang then 1 < q.launch.gang && q.launch.inst == t.launch.inst && lead q == lead t
    else if t.launch.factor4 then
      q.launch.inst == t.launch.inst && q.launch.node == t.launch.node && q.teamNo / 4 == t.teamNo / 4
    else q.tid == t.tid

/-- A team on which no action is in progress. -/
abbrev Team.actable (t : Team) : Bool := (t.phase == .starting || t.phase == .running) && !t.drain && t.victimOf.isNone

/-- Destination bytes of a copy that are still unwritten (R289). -/
def unwritten (s : State) (o : Op) (c : CopyReq) : Nat :=
  match c.dir with
  | .compress => ((c.pieces.drop c.pos).map fun p => p.2.2).sum
  | _ => ((List.range c.spBytes).filter fun p => (tileByte s o.id c c.got true p).isNone).length

/-- A copy is behind an operation of the matrix engine that stops at a save: it cannot complete within the save (R25). -/
def behindMatrix (s : State) (id : Nat) : Bool :=
  s.cores.any fun k => k.rlt.any fun r => r.op == id && k.rlt.any fun q =>
    q.op < id && Rlt.meets r q && (r.dest || q.dest) && match s.op? q.op with
      | some p => (match p.kind with
        | .matrix m => (multiplyOf {} m).isSome || !m.started
        | _ => false)
      | none => false

/-- Copies that a save abandons: those with more than 64 KiB still unwritten (R289), and one that cannot complete within
the save (R25). -/
def abandons (s : State) (o : Op) : Bool :=
  match o.kind with
  | .copy c => 65536 < unwritten s o c || (!c.started && behindMatrix s o.id)
  | _ => false

/-- Records that a save of a team keeps: of operations for restart, and of the matrix engine (R289, R316, R318). -/
def restarts (s : State) (t : Team) : Nat :=
  (s.ops.filter fun o => o.tid == t.tid && (abandons s o || match o.kind with | .matrix _ => true | _ => false)).length +
    if usedEngine t then 1 else 0

/-- Bytes of a team's state under R239. -/
def teamBytes (s : State) (t : Team) : Nat :=
  saveBytes ((s.teamGroups t.tid).map (·.window)) t.scrSize t.nsub
    ((s.coreOf t.core).reds.filter fun e => e.tid = t.tid).length (restarts s t)

/-- Elapsed time of a team in whole µs. -/
def elapsedUs (s : State) (t : Team) : Nat := if t.phase = .starting then 0 else (s.now - t.started) / 1000

/-- The three actions of R368. -/
inductive Action where
  | drain | save | flush
  deriving DecidableEq, Repr

/-- Latency and cost of an action for a team; none where it is not allowed or its latency is unknown (R368). -/
def actionCost (s : State) (t : Team) (a : Action) : Option (Nat × Nat) :=
  let write := ceilDiv (teamBytes s t) (s.crozOf t.launch.die).savebw.toNat
  match a with
  | .drain =>
    let rem := t.launch.dur - elapsedUs s t
    let yld := t.launch.yint + write
    if t.launch.dur = 0 ∧ t.launch.yint = 0 then none
    else
      let l := if t.launch.dur = 0 then yld else if t.launch.yint = 0 then rem else min rem yld
      some (l, l)
  | .save => some (write + 2, 2 * (write + 2))
  | .flush => if t.launch.restartable then some (1, 1 + elapsedUs s t) else none

/-- Total cost of an action for a unit when every member meets the bound. -/
def unitCost (s : State) (l : List Team) (bound : Nat) (a : Action) : Option Nat :=
  l.foldl (fun (acc : Option Nat) t => acc.bind fun n => match actionCost s t a with
    | some (lat, w) => if lat ≤ bound then some (n + w) else none
    | none => none) (some 0)

/-- The action of least cost that meets the bound; ties go to drain, save, flush; save when none does (R368). -/
def chooseAction (s : State) (l : List Team) (bound : Nat) : Action :=
  let opts := [Action.drain, .save, .flush].filterMap fun a => (unitCost s l bound a).map fun w => (a, w)
  match opts with
  | [] => .save
  | o :: r => (r.foldl (fun (b : Action × Nat) x => if x.2 < b.2 then x else b) o).1

/-- An operation as it is kept while its team is saved: an abandoned copy starts again from its first byte, a matrix
operation goes on at its next K-step (R289, R318). -/
def Op.kept (o : Op) : Op :=
  { o with core := noCore, kind := match o.kind with
      | .copy c => .copy { c with started := false, bulk := false, targets := [], skipped := 0, pos := 0, got := [], fail := none }
      | .matrix q => .matrix { q with started := false }
      | k => k }

/-- A copy is abandoned: the bytes that it has written remain, its ranges are released, and it is kept for restart
(R289). -/
def abandonCopy (s : State) (o : Op) : State :=
  match o.kind with
  | .copy c =>
    let s1 := if c.dir = .compress then s
      else (if c.dir = .mcast then c.targets.map (·.2) else [o.tid]).foldl (fun s tid => writeTile s o c c.got true tid) s
    (rltDrop s1 o.id).updOp o.id Op.kept
  | _ => s

/-- The save of a team begins, or its stop before a flush: it issues no more; copies that do not finish are abandoned,
its lease ends, and open regions whose commit has not begun roll back (R25, R287, R289, R404). -/
def startSave (s : State) (tid : Nat) (flush : Bool := false) : State :=
  let s1 := s.updTeam tid fun t => { t with phase := .saving, drain := false, flushing := flush }
  let s2 := endLease ((s.ops.filter fun o => o.tid == tid && abandons s o).foldl abandonCopy s1) tid
  { s2 with groups := s2.groups.map fun g =>
      if g.tid ≠ tid then g
      else g.updLanes (g.lanesWhere fun x => x.region.isSome && !x.committing) fun _ x =>
        x.fail 5 (momentEvent s) }

/-- A count of 16 bits raised, which saturates. -/
abbrev satUp (n : Nat) : Nat := min (n + 1) 65535

/-- A team's groups, operations, ranges, buffered reductions, channels, rows and monitors leave the machine. -/
def stripTeam (s : State) (t : Team) : State :=
  let gids := (s.teamGroups t.tid).map (·.gid)
  let gone : List Nat := (s.ops.filter fun (o : Op) => o.tid == t.tid && match o.kind with | .batch .. => false | _ => true).map (·.id)
  let s1 : State := gone.foldl rltDrop s
  let s2 : State := { s1 with
    groups := s1.groups.filter fun g => g.tid ≠ t.tid
    ops := s1.ops.filter fun o => !gone.contains o.id
    cores := s1.cores.map fun k => { k with bqrows := k.bqrows.filter fun r => !gids.contains r.gid } }
  (s2.updCore t.core fun k => { k with
    chans := k.chans.filter fun c => c.2.owner ≠ t.tid
    reds := k.reds.filter fun e => e.tid ≠ t.tid }).sweepMonitors

/-- The teams of a running grid that were flushed with a team, by number: of a gang's members all, of its own grid those
of its quad, or itself (R13, R14). -/
def flushedWith (s : State) (t : Team) (r : Running) : List Nat :=
  let lead := t.launch.node - 128 * t.launch.gangPos
  let mine := fun (k : Nat) =>
    if 1 < t.launch.gang then 1 < gridGang r.body && r.inst == t.launch.inst && r.node - 128 * gridPos r.body == lead
    else r.node == t.launch.node && (if t.launch.factor4 then k / 4 == t.teamNo / 4 else k == t.teamNo)
  (r.carry.map (·.1)).filter fun k => r.asid == t.asid && mine k && !r.todo.contains k &&
    !s.teams.any fun q => q.asid == r.asid && q.launch.node == r.node && q.teamNo == k

/-- A flush is complete: the team has lost its state (R240). With the last of its unit all of it stands again among those
to be placed, together (R13, R14). -/
def flushTeam (s : State) (t : Team) : State :=
  let w := setBits t.preempt 16 16 (satUp (wbits t.preempt 16 16))
  let last := !(unitOf s t).any fun q => q.tid != t.tid && q.flushing
  let s1 := stripTeam { s with teams := s.teams.filter fun q => q.tid ≠ t.tid } t
  let s2 := s1.updCroz t.launch.die fun c => { c with running := c.running.map fun r =>
    if r.node = t.launch.node && r.asid = t.asid then { r with carry := assocSet r.carry t.teamNo w } else r }
  if !last then s2
  else s2.updCroz t.launch.die fun c => { c with running := c.running.map fun r =>
    { r with todo := (flushedWith s2 t r).foldl (fun l k => insertBy (fun a b => decide (a < b)) k l) r.todo } }

/-- An action is taken on every member of a unit, for the node that asks. -/
def act (s : State) (l : List Team) (a : Action) (by_ : Option (Nat × Nat)) : State :=
  l.foldl (fun s t =>
    let s1 := s.updTeam t.tid fun t => { t with victimOf := by_ }
    match a with
    | .drain => s1.updTeam t.tid fun t => { t with drain := true }
    | .save => startSave s1 t.tid
    | .flush => startFlush (startSave s1 t.tid true) t.tid) s

/-- A state without some teams, for trials. -/
def lacking (s : State) (tids : List Nat) : State :=
  { s with teams := s.teams.filter fun t => !tids.contains t.tid
           groups := s.groups.filter fun g => !tids.contains g.tid }

/-- Possible victims on some cores, of classes above `cls`: highest class first, then youngest first (R367). -/
def victimsOn (s : State) (cores : List Nat) (cls : Nat) : List Team :=
  sortBy (fun a b => decide (b.sclass < a.sclass) || (a.sclass == b.sclass && decide (b.age < a.age)))
    (s.teams.filter fun t => cores.contains t.core && t.actable && cls < t.sclass)

/-- The fewest victims, in order, whose going makes room on a place: their numbers with those of their units. -/
def victimsFor (s : State) (asid limit : Nat) (needs : List (Nat × Need)) (place : List Nat) : List Team → List Nat → Option (List Nat)
  | [], gone => if placeFits (lacking s gone) asid limit needs place then some gone else none
  | v :: r, gone =>
    if placeFits (lacking s gone) asid limit needs place then some gone
    else victimsFor s asid limit needs place r
      (if gone.contains v.tid then gone else gone ++ (unitOf s v).map (·.tid))

/-- The victims of a candidate: for its next item, or, of a gang, for all of them, within its context's reservation or
floors (R367). -/
def victimsOf (s : State) (die : Nat) (c : Cand) : Option (List Nat) :=
  let res := (s.ctxOf c.asid).gov.res
  let part := fun (a : Nat) => if c.cls = 0 then wbits (vget res a 0) 16 16 else wbits (vget res a 0) 0 16
  let limit := min (slotAllotment s c.asid) (part 0)
  let clusters := tryOrder die ((allotment s c.asid).take (part 1))
  let items := c.runs.flatMap fun r => (itemsOf (gridQuad r.body) r.todo).map fun it => (r, it)
  let step := fun (acc : Option (State × List Nat)) (p : Running × List Nat) => acc.bind fun (st, gone) =>
    let needs := p.2.map fun k => (k, needOf p.1.body)
    (placesIn clusters (gridQuad p.1.body)).findSome? fun place =>
      (victimsFor st c.asid limit needs place (victimsOn st place c.cls) []).map fun v =>
        ((p.2.map fun k => (seatOf place k, k)).foldl (placeTeam die p.1 0) (lacking st v), gone ++ v)
  ((if c.gang then items else items.take 1).foldl step (some (s, []))).map (·.2)

/-- A unit is pre-empted for at most once until its victims have gone. -/
def preemptsNow (s : State) (c : Cand) : Bool :=
  s.teams.any fun t => t.holdsCore && (c.runs.any fun r => t.victimOf == some (r.asid, r.node))

/-- The units of a class for which Crozier may pre-empt: of class 0 each that it tries to place, else a blocking head (R367). -/
def askers (s : State) (die cls : Nat) : List Cand :=
  let l := tried s die cls
  if cls = 0 then l
  else (l.filter (·.blocking)).take 1

/-- The victims of a unit that asks, each unit of them by the action chosen for it (R367, R368). -/
def preemptFor (s : State) (die : Nat) (c : Cand) : Option State :=
  if preemptsNow s c then none
  else match victimsOf s die c with
    | none | some [] => none
    | some l =>
      let bound := (vget (s.crozOf die).prlat c.cls 0).toNat % 65536
      some (l.foldl (fun st tid => match st.team? tid with
        | some t =>
          if t.actable then
            let u := (unitOf st t).filter (·.actable)
            act st u (chooseAction st u bound) ((c.runs.head?).map fun r => (r.asid, r.node))
          else st
        | none => st) s)

/-- Pre-emption for a class (R367). -/
def preemptHead (s : State) (die cls : Nat) : Option State := (askers s die cls).findSome? (preemptFor s die)

/-- A team that stands above what its context has been shed to: outside the clusters left to it, or one of the youngest
on a core where the context holds too many group slots (R24, R367). -/
def shedVictim (s : State) (die : Nat) : Option Team :=
  let l := sortBy (fun a b => decide (b.sclass < a.sclass) || (a.sclass == b.sclass && decide (b.age < a.age)))
    (s.teams.filter fun t => t.launch.die = die && t.actable)
  l.find? fun t =>
    let leaving := ((s.coreGroups t.core).filter fun g => match s.team? g.tid with
      | some q => q.asid == t.asid && (q.drain || q.phase == .saving)
      | none => false).length
    let owed := fun (a : Nat) => (vget (s.ctxOf t.asid).gov.owed a none).map BitVec.toNat
    (owed 0).any (fun n => n < slotsHeld s t.asid t.core - leaving) ||
      (owed 1).any fun n => !((ringOf s t.asid).take n).contains (clusterNo t.core)

/-- Shedding frees one unit; the bound is one governor interval (R367). -/
def shedOne (s : State) (die : Nat) : Option State :=
  (shedVictim s die).map fun t =>
    let u := (unitOf s t).filter (·.actable)
    act s u (chooseAction s u (max 1 s.gvintlen.toNat)) none

/-- Every live fibre of a team meets a test, and there is one. -/
def allLive (s : State) (t : Team) (p : Fibre → Bool) : Bool :=
  let l := (s.teamGroups t.tid ++ t.parked).flatMap fun g => (lanesOf g.liveLanes).map g.lane
  !l.isEmpty && l.all p

/-- The fibre waits at a grid barrier. -/
def Fibre.atGridBarrier (x : Fibre) : Bool := match x.wait with | some (.barG _) => true | _ => false
/-- The fibre is parked under an entry of a monitor table. -/
def Fibre.monitored (x : Fibre) : Bool := match x.wait with | some (.mon _ true) => true | _ => false

/-- The grid of a team has teams not yet placed. -/
def gridWaits (s : State) (t : Team) : Bool :=
  (s.crozOf t.launch.die).running.any fun r => r.node == t.launch.node && r.asid == t.asid && !r.todo.isEmpty

/-- A unit whose live fibres all wait at grid barriers, while its grid has teams to place, is swapped out (R90). -/
def swapOne (s : State) (die : Nat) : Option State :=
  (s.teams.find? fun t => t.launch.die = die && t.actable && t.phase == .running && gridWaits s t &&
    (unitOf s t).all fun q => q.phase == .running && allLive s q Fibre.atGridBarrier).map fun t =>
      (unitOf s t).foldl (fun s q => startSave s q.tid) s

/-- A unit whose live fibres are all parked by monitors may be saved (R195): the manual leaves it to the scheduler. -/
def parkOne (s : State) (die : Nat) : Option State :=
  (s.teams.find? fun t => t.launch.die = die && t.actable && t.phase == .running &&
    (unitOf s t).all fun q => q.phase == .running && allLive s q Fibre.monitored).map fun t =>
      let (k, s1) := s.choose 2
      if k = 0 then s1 else (unitOf s t).foldl (fun s q => startSave s q.tid) s1

/-- What a decision of a die's Crozier comes to; none when there is nothing to decide (R364 to R367). -/
def placementResult (s : State) (die : Nat) : Option State :=
  [tidyQueues s die, placeFirst s die (List.range 4), (List.range 4).findSome? (preemptHead s die), shedOne s die,
    swapOne s die, parkOne s die].findSome? id

def enabledPlacementDecision (s : State) (die : Nat) : Bool := !crozFrozen s die && (placementResult s die).isSome

/-- `PLACEMENT_DECISION` (R364). -/
def execPlacementDecision (die : Nat) (s : State) : Out :=
  whenEnabled (enabledPlacementDecision s die) s fun s => (placementResult s die).getD s

/-- A queue's head has waited there longer than CZBLOCK, in a gang with the last of it (R364). -/
def headWaited (s : State) (z : Croz) (r : Ready) : Bool :=
  match r.head with
  | some t => decide (((mates z.ready r).map (·.since)).foldl max t + 1000 * (z.block.toNat % 65536) < s.now)
  | none => false

/-- The unit at a queue head has waited there longer than CZBLOCK (R364). -/
def enabledNodeBlocking (s : State) (die node : Nat) : Bool :=
  let z := s.crozOf die
  !crozFrozen s die && z.ready.any fun r => r.node == node && !r.blocking && headWaited s z r

/-- `NODE_BLOCKING` (R364). -/
def execNodeBlocking (die node : Nat) (s : State) : Out :=
  whenEnabled (enabledNodeBlocking s die node) s fun s =>
    s.updCroz die fun z => { z with ready := z.ready.map fun r =>
      if r.node = node && headWaited s z r then { r with blocking := true } else r }

/-! ### Starts and ends of teams (R60, R77, R187, R365) -/

def enabledTeamStart (s : State) (tid : Nat) : Bool :=
  match s.team? tid with
  | none => false
  | some t => t.phase == .starting && decide (t.startAt ≤ (s.clusterOf (clusterNo t.core)).cycles) && !crozFrozen s t.launch.die

/-- `TEAM_START` (R365): every lane of every group starts at the entry. What readied the node and Crozier's acquire of it
come before the team's reads, so the start is an acquire at device scope of its groups (R17, R18, R325, log 26). -/
def execTeamStart (tid : Nat) (s : State) : Out :=
  whenEnabled (enabledTeamStart s tid) s fun s =>
    match s.team? tid with
    | none => s
    | some t =>
      let s1 := acquireAll (s.updTeam tid fun t => { t with phase := .running, started := s.now }) t.core
        ((s.teamGroups tid).map (·.gid))
      { s1 with groups := s1.groups.map fun g =>
          if g.tid ≠ tid then g
          else g.updLanes (BitVec.allOnes 32) fun _ x =>
            x.start t.launch.entry t.launch.privileged (Vector.replicate 64 0) }

/-- Operations of a team's engines, which its end waits for (R279). -/
def engineOps (s : State) (tid : Nat) : Bool :=
  s.ops.any fun o => o.tid == tid && match o.kind with
    | .copy _ | .matrix _ | .graph _ | .event _ | .benq | .commit _ | .barGrid .. => true
    | _ => false

def enabledTeamEnd (s : State) (tid : Nat) : Bool :=
  match s.team? tid with
  | none => false
  | some t => (t.phase == .running || t.phase == .saving) && (s.teamGroups tid).isEmpty && !engineOps s tid

/-- `TEAM_END` (R77): its reductions flush (R187), its lease and channels return. -/
def execTeamEnd (tid : Nat) (s : State) : Out :=
  whenEnabled (enabledTeamEnd s tid) s fun s =>
    match s.team? tid with
    | none => s
    | some t =>
      let s1 := (startFlush s tid).updCore t.core fun k => { k with chans := k.chans.filter fun c => c.2.owner ≠ tid }
      { s1 with ops := s1.ops.filter fun o => !(o.tid == tid && match o.kind with | .stageWait .. => true | _ => false) }.updTeam tid
        fun t => { t with phase := .ended, lease := none, leaseEnding := false, scratch := [], subs := [] }

/-! ### Nodes complete (R353, R355, R356) -/

/-- Teams of a grid that runs. -/
abbrev gridTeamsOf (s : State) (r : Running) : List Team :=
  s.teams.filter fun t => t.asid == r.asid && t.launch.node == r.node

/-- The stores, atomics and reductions of some teams have been performed (R353). -/
def effectsDone (s : State) (l : List Team) : Bool :=
  let tids := l.map (·.tid)
  !s.cores.any (fun k => k.cop.any (fun c => tids.contains c.tid) || k.reds.any fun e => tids.contains e.tid) &&
    !s.reqs.any (fun r => r.tree.parts.any fun p => tids.contains p.tid) &&
    !s.ops.any fun o => tids.contains o.tid && match o.kind with | .atom .. | .store .. => true | _ => false

/-- The successors of a node that has completed, or none of them when it failed. -/
def closeNode (s : State) (die : Nat) (r : Running) (code : Nat) : Eng Unit :=
  let s1 := dropRunning s die r
  if code ≠ 0 then gone (failNode s1 r.asid r.inst (recIndex r.body) code)
  else decSuccs r.asid r.inst (recIndex r.body) (nodeUsed r.body) s1

/-- The end of a running node; it waits while the node runs. -/
def nodeEnd (s : State) (die : Nat) (r : Running) : Eng Unit :=
  match r.kind with
  | 0 =>
    let l := gridTeamsOf s r
    if r.todo.isEmpty && l.all (fun t => t.phase == .ended) && effectsDone s l then
      closeNode { s with teams := s.teams.filter fun t => !(t.asid == r.asid && t.launch.node == r.node) } die r
        (if r.failed then 3 else 0)
    else .wait
  | 1 =>
    if r.engine.isNone then .wait
    else (copyNode s r).bind () fun cause s1 => closeNode s1 die r (if cause = 0 then 0 else 4)
  | 4 => if s.host.puts.any fun p => some p.id == r.put then .wait else closeNode s die r 0
  | _ => closeNode s die r 0

/-- The state after a running node completes; none while it runs. A decrement whose address fails in stage 2 is told to the
hypervisor and waits for the repair (R424). -/
def nodeOf (s : State) (die : Nat) (r : Running) : Option State := (nodeEnd s die r).step s r.asid

/-- A running node at an address completes: the first that can, of several contexts. -/
def nodeResult (s : State) (die node : Nat) : Option State :=
  ((s.crozOf die).running.filter fun r => r.node == node).findSome? (nodeOf s die)

def enabledNodeComplete (s : State) (die node : Nat) : Bool := !crozFrozen s die && (nodeResult s die node).isSome

/-- `NODE_COMPLETE` (R355). -/
def execNodeComplete (die node : Nat) (s : State) : Out :=
  whenEnabled (enabledNodeComplete s die node) s fun s => (nodeResult s die node).getD s

/-! ### Yield stops, saves and resumption (R25, R82, R222) -/

/-- No packet of the team holds a fetch port (R25). -/
def portsClear (s : State) (tid : Nat) : Bool :=
  (s.teamGroups tid).all fun g => portLanes s g.gid g.core g.sched == 0

def enabledYieldStop (s : State) (tid : Nat) : Bool :=
  match s.team? tid with
  | none => false
  | some t =>
    t.phase == .running && t.drain && portsClear s tid && allLive s t (fun x => x.wait == some .atYield) &&
      (s.teamGroups tid).all fun g => g.flags.toList.all (· == 0)

/-- `YIELD_STOP` (R82): every live group stands at a yield point, and the team is saved there. -/
def execYieldStop (tid : Nat) (s : State) : Out :=
  whenEnabled (enabledYieldStop s tid) s fun s => startSave s tid

/-- Operations that a save waits for (R25, R171, R284, R287, R289, R318, R346). -/
def saveWaitsFor (o : Op) : Bool :=
  match o.kind with
  | .stageWait .lfree _ => true
  | .waitc .. | .stageWait .. | .event _ | .benq | .batch .. => false
  | .copy _ => o.core != noCore
  | .matrix q => q.started && match q.instr with
    | .mzero .. | .mload .. | .mstore .. => true
    | _ => false
  | _ => true

/-- Operations whose effects a flush waits for: writes already issued remain (R240). -/
def flushWaitsFor (o : Op) : Bool :=
  match o.kind with
  | .store .. | .atom .. | .redf | .graph _ | .commit _ | .barGrid .. => true
  | _ => false

/-- A team that is being saved, or stopped for a flush, has nothing left to wait for: what it issued is done, its stores
and, for a flush, its reductions are performed, no step of R93 is in progress, and its save area can be written. -/
def saveReady (s : State) (t : Team) : Bool :=
  let gs := s.teamGroups t.tid
  let again := s.ops.filter fun o => o.tid == t.tid && match o.kind with | .copy _ | .matrix _ => true | _ => false
  portsClear s t.tid && !crozFrozen s t.launch.die &&
    !s.ops.any (fun o => o.tid == t.tid && if t.flushing then flushWaitsFor o else saveWaitsFor o) &&
    gs.all (fun g => g.sq.isEmpty && g.entering.isEmpty && !enabledGroupRestart s g.gid) &&
    !((s.coreOf t.core).cop.any fun c => c.tid == t.tid) &&
    !((s.coreOf t.core).reds.any fun e => e.tid == t.tid && (t.flushing || e.draining || e.sent.isSome)) &&
    (gs.all fun g => (List.range 32).all fun i => (g.lane i).rollback.isNone && !(g.lane i).committing) &&
    (t.flushing || !rangeMigrates s t.asid t.launch.saveBase (saveBytes (gs.map (·.window)) t.scrSize t.nsub
      ((s.coreOf t.core).reds.filter fun e => e.tid == t.tid).length (again.length + 1)))

def enabledTeamSaveComplete (s : State) (tid : Nat) : Bool :=
  match s.team? tid with
  | none => false
  | some t => t.phase == .saving && saveReady s t

/-- A team as Crozier keeps it while it is saved (R25, R222). -/
def Team.saved (t : Team) (k : Core) (gs : List Group) : Team :=
  { t with
    phase := .saved, parked := gs, parkedReds := k.reds.filter fun e => e.tid == t.tid
    parkedChans := k.chans.filter fun c => c.2.owner == t.tid
    lease := none, leaseEnding := false, drain := false, victimOf := none, lostNow := t.lost
    preempt := setBits t.preempt 0 16 (satUp (wbits t.preempt 0 16)) }

/-- `TEAM_SAVE_COMPLETE` (R25, R222): the team's rows are written and its core is free of it; a stop for a flush ends in
the flush (R240). -/
def execTeamSaveComplete (tid : Nat) (s : State) : Out :=
  whenEnabled (enabledTeamSaveComplete s tid) s fun s =>
    match s.team? tid with
    | none => s
    | some t =>
      if t.flushing then flushTeam s t
      else
        let mine : List Op := s.ops.filter fun o => o.tid == tid && match o.kind with | .batch .. => false | _ => true
        let t1 := t.saved (s.coreOf t.core) (s.teamGroups tid)
        let s1 : State := (mine.map (·.id)).foldl rltDrop s
        let s2 : State := { s1 with
          groups := s1.groups.filter fun g => g.tid ≠ tid
          ops := s1.ops.map fun o => if mine.any (fun q => q.id = o.id) then o.kept else o }
        let s3 := (s2.updCore t.core fun k => { k with
          reds := k.reds.filter fun e => e.tid ≠ tid, chans := k.chans.filter fun c => c.2.owner ≠ tid }).updTeam tid fun _ => t1
        writeSave s3 t1

/-- A grid barrier's phase is that of the fibres that wait for it (R90). -/
def phaseStands (s : State) (t : Team) (x : Fibre) (b : BitVec 4) : Bool :=
  match vread32 s t.asid (t.barEntry b + 12) with
  | some w => w.getLsbD 0 == x.phG.getLsbD b.toNat
  | none => false

/-- A parked fibre of a saved team has nothing to do until its monitor fires, its timeout expires, or its barrier's phase
changes, whether or not a monitor entry was free for it (R90, R195). -/
def stillParked (s : State) (t : Team) (lane : Nat) (x : Fibre) : Bool :=
  match x.wait with
  | some (.mon op e) => e && match (s.op? op).bind fun o => o.acc? lane with
    | some a => a.cmp == 0 || s.now < a.cmp.toNat
    | none => true
  | some (.barG b) => phaseStands s t x b
  | _ => false

/-- A saved team that waits for its monitors only. -/
def sleeps (s : State) (t : Team) : Bool :=
  let l := t.parked.flatMap fun g => (lanesOf g.liveLanes).map fun i => (g, i)
  !l.isEmpty && l.all fun p => stillParked s t p.2 (p.1.lane p.2)

/-- A multicast into the saved image of a team is in flight (R276). -/
def fillsImage (s : State) (tid : Nat) : Bool :=
  s.ops.any fun o => match o.kind with
    | .copy c => c.started && o.tid != tid && c.targets.any fun p => p.2 == tid
    | _ => false

/-- The saved units of a Crozier that may run again, of one class, oldest first (R90, R222). -/
def savedUnits (s : State) (die cls : Nat) : List (List Team) :=
  let l := sortBy (fun a b => decide (a.age < b.age)) (s.teams.filter fun t =>
    t.launch.die = die && t.phase == .saved && t.sclass = cls && ((unitOf s t).map (·.tid)).foldl min t.tid == t.tid)
  (l.map (unitOf s)).filter fun u =>
    u.all (fun t => t.phase == .saved && !fillsImage s t.tid) && u.any fun t => !sleeps s t

/-- The items of a unit to be seated together: quads, of which members may have ended, else single teams (R13). -/
def unitItems (u : List Team) : List (List Team) :=
  let quads := u.filter (·.launch.factor4)
  let keys := (quads.map fun t => (t.launch.node, t.teamNo / 4)).eraseDups
  (u.filter fun t => !t.launch.factor4).map (fun t => [t]) ++
    keys.map fun k => quads.filter fun q => q.launch.node == k.1 && q.teamNo / 4 == k.2

/-- The ranges that an operation of a saved team registers again on resume (R25, R216). -/
def rangesAgain (t : Team) (core : Nat) (o : Op) : List Rng :=
  match o.kind with
  | .copy c => c.ranges t.asid t.tid (c.dir != .mcast || c.mask.getLsbD (ownBit { t with core := core } c.quad))
  | .matrix q => (mxRanges (MxShape.of q.shape) q).map fun r =>
      { dest := r.dest, asid := none, tid := t.tid, lo := r.off, hi := r.off + r.len }
  | _ => []

/-- A saved team's area can be read, and is up to date (R157). -/
abbrev areaReady (s : State) (t : Team) : Bool :=
  !t.unsynced && !rangeMigrates s t.asid t.launch.saveBase (savedBytes s t)

/-- A saved team as its save area holds it (R239), with its operations; one whose area does not translate is as Crozier
kept it. -/
def restored (s : State) (t : Team) : Team × List Op :=
  match vread s t.asid t.launch.saveBase (savedBytes s t) with
  | some b => (t.ofImage b, opsOfImage s t b)
  | none => (t, s.ops)

/-- A core's range-lock table has the entries that a saved team's operations take (R216). -/
def rltFits (s : State) (core : Nat) (t : Team) : Bool :=
  ((savedAgain s t.tid).map fun o => (rangesAgain t core o).length).sum ≤ (rltFree s core 0 56).length

/-- A saved team seated again on a core (R12, R222): what its save area holds returns, with its ranges and channels; the
resumption is an acquire at device scope. -/
def resumeTeam (s : State) (p : Nat × Team) : State :=
  let (core, t0) := p
  -- an error in the save area is told to the instance's host, and the area is read as it stands (R29)
  let (bad, s) := rangeBad s t0.asid t0.launch.saveBase (savedBytes s t0)
  let s := if bad then readFailed s t0.asid t0.launch.inst (nodeIndex t0.launch.inst t0.launch.node) else s
  let (t, ops) := restored s t0
  let wake := fun (g : Group) => g.updLanes (BitVec.allOnes 32) fun _ x =>
    if x.wait = some .atYield then { x with wait := none } else x
  let fresh := t.parked.all fun g => (List.range 32).all fun i => (g.lane i).status == .empty
  let s0 := { s with ops := ops }.updTeam t.tid fun _ => { t with
    core := core, phase := if fresh then .starting else .running, parked := [], parkedReds := [], parkedChans := [] }
  -- in ascending number: a child group may have taken a freed one (R12, R79)
  let s1 : State := (sortBy (fun a b => decide (a.num < b.num)) (t.parked.map wake)).foldl (seatGroup core false) s0
  let s2 : State := { s1 with ops := s1.ops.map fun o => if o.tid = t.tid && o.core = noCore then { o with core := core } else o }
  let seats := fun (gid : Nat) => ((s2.group? gid).map (·.sched)).getD 0
  let s3 := s2.updCore core fun k => { k with
    chans := k.chans ++ t.parkedChans
    reds := k.reds ++ t.parkedReds.map fun e => { e with sched := seats e.gid } }
  let s4 := (s3.ops.filter fun o => o.tid == t.tid && o.core == core).foldl (fun s o => rltAdd s core o.id 0 (rangesAgain t core o)) s3
  (acquireAll s4 core (t.parked.map (·.gid))).updCtx t.asid fun c => { c with seen := true }

/-- A saved unit resumed on the first places of its context's allotment where all of it fits. -/
def resumeUnit (s : State) (die : Nat) (u : List Team) : Option State :=
  match u with
  | [] => none
  | t :: _ =>
    let clusters := tryOrder die (allotment s t.asid)
    if !u.all (areaReady s) then none
    else (unitItems u).foldl (fun (acc : Option State) it => acc.bind fun st =>
      ((placesIn clusters (it.any (·.launch.factor4))).find? fun place =>
        placeFits st t.asid (slotAllotment st t.asid) (it.map fun q => (q.teamNo, q.needs)) place &&
          it.all fun q => rltFits st (seatOf place q.teamNo) q).map fun place =>
            (it.map fun q => (seatOf place q.teamNo, q)).foldl resumeTeam st) (some s)

/-- The unit that is resumed next: of the lowest class, the oldest that fits; not while a unit of a lower class can be
placed or one of its class or a lower one blocks (R90, R364). -/
def nextResume (s : State) (die : Nat) : Option (Nat × State) :=
  (List.range 4).findSome? fun k =>
    if (List.range (k + 1)).any (headBlocks s die) ||
        (placeFirst s die (List.range k)).isSome then none
    else (savedUnits s die k).findSome? fun u =>
      (resumeUnit s die u).map fun st => ((u.map (·.tid)).foldl min ((u.head?.map (·.tid)).getD 0), st)

def enabledTeamResume (s : State) (tid : Nat) : Bool :=
  match s.team? tid with
  | none => false
  | some t => t.phase == .saved && !crozFrozen s t.launch.die && ((nextResume s t.launch.die).map (·.1)) == some tid

/-- `TEAM_RESUME` (R222): the team with its whole unit. -/
def execTeamResume (tid : Nat) (s : State) : Out :=
  whenEnabled (enabledTeamResume s tid) s fun s =>
    match s.team? tid with
    | none => s
    | some t => ((nextResume s t.launch.die).map (·.2)).getD s

end Sys2Proof.Machine
end

