-- ==== Sys2Proof/Machine/Fabric.lean ====
section
/-!
DEFINITION. The Mernik fabric (R392 to R410, R421): error windows (R428), flits and links, requests of peers, time
limits, remote regions and their commits.
-/

namespace Sys2Proof.Machine

open Sys2Proof

/-! ### Error windows (R428) -/

/-- A source counts one error; whether its threshold is met. Windows are fixed intervals of W us. -/
def ErrSrc.hit (e : ErrSrc) (now : Nat) : ErrSrc × Bool :=
  let w := 1000 * max 1 (wbits e.win 0 20)
  let n := if now / w = e.since / w then wbits e.cnt 0 16 else 0
  let t := wbits e.thr 0 16
  ({ e with cnt := setBits e.cnt 0 16 (min (n + 1) 65535), since := now }, t != 0 && decide (t ≤ n + 1))

/-- A unit of a source is retired: its count starts again, the spares in use and the retirements rise. -/
def ErrSrc.retire (e : ErrSrc) : ErrSrc :=
  { e with cnt := setBits (setBits (setBits e.cnt 0 16 0) 16 8 (min (wbits e.cnt 16 8 + 1) 255)) 24 8 (wbits e.cnt 24 8 + 1) }

/-- A source of the error block: link lanes 0 to 119 by port and lane, DRAM stacks 120 to 127 (log 10). -/
def State.errSrc (s : State) (k : Nat) : ErrSrc := (assoc s.host.errs k).getD {}

/-- A source of the error block replaced. -/
abbrev State.setErr (s : State) (k : Nat) (e : ErrSrc) : State :=
  { s with host := { s.host with errs := assocSet s.host.errs k e } }

/-! ### The device in its fabric (R392, R397) -/

abbrev joined (s : State) : Bool := s.fabric.fxdev.getLsbD 8
/-- The peer at the other end of a port. -/
abbrev peerOf (s : State) (port : Nat) : Nat := (ownDevice s + 1 + port) % devices s
/-- The fabric unit is frozen (R425). -/
abbrev fabricFrozen (s : State) : Bool := s.host.frozen.any fun f => f.reached && f.kind == 4

/-- A peer that some path reaches: the direct link, or two links over a relay (R397). -/
def reachable (s : State) (e : Nat) : Bool := e == ownDevice s || linkUp s e || (relayFor s e).isSome

/-- The remote timeout in ns (R409). -/
abbrev rtoNs (s : State) : Nat := 1000 * max 1 (wbits s.fabric.fxrto 0 16)

/-- The largest power of two not above a number of lanes (R396). -/
abbrev lanesFor (n : Nat) : Nat := if 8 ≤ n then 8 else if 4 ≤ n then 4 else if 2 ≤ n then 2 else n

/-! ### Regions that fail (R402, R404) -/

/-- Fibres whose open region, not yet committing, meets a test are to roll back, for a cause, by one event. -/
def failRegions (s : State) (cause : BitVec 3) (p : Region → Bool) : State :=
  { s with groups := s.groups.map fun g =>
      g.updLanes (g.lanesWhere fun x => !x.committing && match x.region with
        | some r => p r
        | none => false) fun _ x => x.fail cause (momentEvent s) }

/-- Loads of a fibre issued in its region and still outstanding are abandoned (R402). -/
def abandonLoads (s : State) (gid lane since : Nat) : State :=
  ((s.groupOps gid).filter fun o => since ≤ o.id && o.lanes.getLsbD lane && (match o.kind with
    | .load .. => o.accs.any fun a => a.lane == lane && a.tr.pa ≥ 2 ^ 64
    | _ => false)).foldl (fun s o =>
      { s.finishLanes o.id (maskOf [lane]) with fabric := { s.fabric with
        out := s.fabric.out.filter fun r => !(r.id < 2 ^ 64 && r.op == o.id && r.lane == lane && r.tree.isNone)
        ins := s.fabric.ins.filter fun r => !(r.id < 2 ^ 64 && r.op == o.id && r.lane == lane && r.tree.isNone)
        replies := s.fabric.replies.filter fun r => !(r.op == o.id && r.lane == lane) } }) s

/-- A wait that a rolled-back fibre leaves. -/
def leaveWait (s : State) (gid lane : Nat) : State :=
  match s.group? gid with
  | none => s
  | some g => match (g.lane lane).wait with
    | some (.mon id _) => s.finishLanes id (maskOf [lane])
    | _ => s

/-- The fibre after its rollback (R402): checkpoint, pd, RGSTAT, resume point. -/
def Fibre.rolledBack (x : Fibre) (cause : Nat) (status : FStatus) : Fibre :=
  match x.region with
  | none => { x with rollback := none }
  | some r =>
    let regs := (List.range r.ckpt.length).foldl (fun v i => vset v (r.f.toNat + i) ((r.ckpt[i]?).getD 0)) x.regs
    ({ x with
      regs := regs, region := none, rollback := none, wait := none, status := status
      rgstat := BitVec.ofNat 32 (2 ^ 31 + cause * 2 ^ 27)
      pc := r.resume
      rem := if r.mid then r.rem else 0
      clause := if r.mid then r.clause else x.clause
      active := r.mid }).setPred r.pd.toNat true

/-- A failure event of a group: fibres roll back, and RGFAIL rises by one the first time that the event rolls one back
(R402). -/
def rollBack (s : State) (gid : Nat) (lanes : List Nat) (cause event : Nat) : State :=
  match s.group? gid with
  | none => s
  | some g =>
    let open_ := lanes.filter fun i => (g.lane i).region.isSome
    let s1 := open_.foldl (fun s i =>
      abandonLoads (leaveWait s gid i) gid i (((g.lane i).region.map (·.since)).getD 0)) s
    (s1.updGroup gid fun g =>
      let g1 := g.updLanes (maskOf lanes) fun _ x => x.rolledBack cause g.released
      if open_.isEmpty || g1.rgEvents.contains event then g1
      else { g1 with rgfail := if g1.rgfail = 0xFFFFFFFF then g1.rgfail else g1.rgfail + 1
                     rgEvents := event :: g1.rgEvents }).sweepMonitors

/-- Lanes of a group that can roll back now: at a packet boundary, with no operation that holds them (R404). -/
def rollLanes (s : State) (g : Group) : List Nat :=
  (lanesOf (without (g.lanesWhere fun x => x.rollback.isSome && x.status.live) (portLanes s g.gid g.core g.sched))).filter
    fun i => !laneHeld (s.groupOps g.gid) i

def enabledRegionRollback (s : State) (gid lane : Nat) : Bool :=
  match s.group? gid with
  | none => false
  | some g => (rollLanes s g).head? == some lane

/-- `REGION_ROLLBACK` (R402, R404): the fibres of the group that one event has failed go together. -/
def execRegionRollback (gid lane : Nat) (s : State) : Out :=
  whenEnabled (enabledRegionRollback s gid lane) s fun s =>
    match s.group? gid with
    | none => s
    | some g =>
      let x := g.lane lane
      rollBack s gid ((rollLanes s g).filter fun i => (g.lane i).rollback == x.rollback && (g.lane i).rollNo == x.rollNo)
        ((x.rollback.map BitVec.toNat).getD 0) x.rollNo

/-! ### `RBEGIN`, `RCOMMIT`, `RABORT` (R401, R402, R405) -/

/-- `RBEGIN` (R402): an open region fails with cause NESTED; the other fibres open one, which the save that stops the
team fails at once (R404). -/
def execRbegin (pd : BitVec 6) (f : BitVec 6) (n : BitVec 7) (s : State) : Out :=
  let i : Instr := .rbegin pd f n
  issue i s fun h =>
    let nested := (lanesOf h.act).filter fun k => (h.g.lane k).region.isSome
    let fresh := without h.act (maskOf nested)
    let s1 := s.updGroup h.g.gid fun g => g.updLanes fresh fun _ x =>
      let r : Region :=
        { resume := x.pc + 4, mid := x.rem != 1, clause := x.clause, rem := x.rem - 1, pd := pd, f := f, n := n
          ckpt := (List.range n.toNat).map fun k => x.reg (f.toNat + k), since := s.serial }
      let y := Fibre.setPred { x with region := some r } pd.toNat false
      if h.t.phase == .saving && !h.t.flushing then y.fail 5 (momentEvent s) else y
    let s2 := (s1.goneOn h.g.gid h.c.pk.lanes).advance (h.c.minus (maskOf nested)) 1
    if nested.isEmpty then s2
    else rollBack (s2.updGroup h.g.gid fun g => g.issued (maskOf nested)) h.g.gid nested 6 (momentEvent s)

/-- `RABORT` (R401, R404): the open regions of the active fibres roll back; the other fibres go on. -/
def execRabort (s : State) : Out :=
  issue .rabort s fun h =>
    let open_ := (lanesOf h.act).filter fun k => (h.g.lane k).region.isSome
    let s1 := (s.goneOn h.g.gid h.c.pk.lanes).advance (h.c.minus (maskOf open_)) 1
    if open_.isEmpty then s1
    else rollBack (s1.updGroup h.g.gid fun g => g.issued (maskOf open_)) h.g.gid open_ 4 (momentEvent s)

/-- `RCOMMIT` (R405): it waits until every earlier store and atomic of the group is performed at system scope, then
sends the first buffered operation of every fibre; the fibres go on when all are done. A fibre whose region has failed
by then does not commit: it is rolled back at its next packet boundary (R404). -/
def execRcommit (s : State) : Out :=
  issue .rcommit s fun h =>
    if !performedAt s h.g.gid s.serial .system then s.hold h.c h.t.asid []
    else
      let open_ := maskOf ((lanesOf h.act).filter fun k => (h.g.lane k).region.isSome && (h.g.lane k).rollback.isNone)
      let s1 := s.advance h.c 1
      if open_ = 0 then s1
      else
        let o := { mkOp .rcommit h s (.commit 0) [] with lanes := open_, holds := true, still := 0 }
        let s2 := ((s1.updGroup h.g.gid fun g => g.updLanes open_ fun _ x => { x with committing := true }).addOp o).dropLanes
          h.g.gid open_
        commitNext (sendCommit s2 { o with id := s1.serial } 0) s1.serial

/-! ### Answers to requests -/

/-- A request between devices asks for a word of two registers. -/
abbrev RemoteKind.w64 : RemoteKind → Bool
  | .atom _ w _ _ => w
  | _ => false

/-- The remote address a request names. -/
abbrev Remote.va (r : Remote) : Nat := 0xE * 2 ^ 52 + r.peer % 16 * 2 ^ 48 + r.off

/-- The access that a request makes. -/
abbrev RemoteKind.acc : RemoteKind → AccKind
  | .load _ => .load
  | .store _ => .store
  | .atom .. => .atomic

/-- A request has its answer: it goes to the requesters joined in it, back over the input that a peer's came by (R398),
or to the lane that waits. -/
def answerRemote (s : State) (r : Remote) (a : RemoteReply) : State :=
  match r.tree with
  | some t =>
    { s with
      replies := s.replies ++ [{ id := s.serial, req := r.id, line := 2 ^ 64 + r.off / 256, w64 := r.kind.w64
                                 old := BitVec.ofNat 64 (leNat a.value), tree := t
                                 lost := a.value.isEmpty && a.cause.isNone
                                 fault := a.cause.map fun c => peerFault a c r.va 0 r.kind.acc }]
      serial := s.serial + 1 }
  | none =>
    let a := { a with id := r.id, op := r.op, lane := r.lane, seq := r.seq }
    if 2 ^ 64 ≤ r.id then s.sendReply r.input a
    else { s with fabric := { s.fabric with replies := s.fabric.replies ++ [a] } }

/-- The answer to a request that failed in the way of a fault at the peer (R225, R393). -/
def failedReply (f : FaultRec) : RemoteReply :=
  let info := match f.xl with
    | some (_, i) => i.toNat
    | none => 0
  { cause := some f.cause, level := nbits info 9 2, s2 := info.testBit 8, why := nbits info 0 4 }

/-- The additions a request makes, in serial order (R182). -/
def Remote.adds (r : Remote) (op : Dword) : List Dword :=
  let own := match r.tree with
    | some t => t.adds
    | none => [op]
  if own.length < r.ids.length then r.ids.map (·.2) else own

/-- What a request does at this device (R393): its answer. `none` while it waits. A request outside the window, or for
a job that no context has, has made no walk: its level and cause read 0 (log 26). A guest's failure in stage 2 goes to
its hypervisor too (R424). -/
def serveHere (s : State) (r : Remote) : Option (RemoteReply × State) :=
  match s.ctxs.find? fun c => r.job != 0 && wbits c.fxjob 0 16 == r.job with
  | none => some ({ cause := some fTranslation }, s)
  | some c =>
    let va := dbits c.fxwin 16 40 * 65536 + r.off
    if dbits c.fxwinsz 0 48 ≤ r.off ∨ isRemote va then some ({ cause := some fTranslation }, s)
    else match xlateNow s c.asid va r.kind.acc (!r.privileged) with
      | none => none
      | some (.error f) => some (failedReply f, match f.gpa with
        | some gpa => stage2Log s c.asid gpa
        | none => s)
      | some (.ok t) =>
        if lineMoving s t then none
        else match badSector (s.accessed c.asid va) t.key with
          | (true, s1) => some ({ cause := some fDataError }, s1)
          | (false, s1) => match r.kind with
            | .load n => some ({ value := Mem.read s1.mem t.key n }, s1.l2Place t false none)
            | .store b => some ({}, (s1.writeHome t b).disturb noCore c.asid va b.length)
            | .atom fn w op cmp =>
              let (old, s2) := atomHome s1 c.asid va t fn w op cmp (r.adds op) r.id
              some ({ value := leBytes (wordBytes w) old.toNat }, s2)

/-- Bytes a request touches. -/
abbrev Remote.bytes (r : Remote) : Nat :=
  match r.kind with | .load n => n | .store b => b.length | .atom _ w _ _ => wordBytes w

/-- Requests of one input to one address keep their order. -/
def serveInOrder (s : State) (r : Remote) : Bool :=
  !((s.fabric.ins.takeWhile fun q => q.id != r.id).any fun q =>
    q.input == r.input && q.peer == r.peer && q.job == r.job && overlap q.off q.bytes r.off r.bytes)

/-- A part of a request that a peer made. -/
abbrev ReqPart.foreign (p : ReqPart) : Bool := match p.frm with
  | .remote .. => true
  | _ => false

/-- The operation and the first lane of this device that wait for a part. -/
def ReqPart.waiter (p : ReqPart) : Option (Nat × Nat) :=
  match p.frm with
  | .lanes o l => some (o, ((l.head?).map (·.1)).getD 0)
  | .commit o _ l => some (o, ((l.head?).map (·.1)).getD 0)
  | _ => none

/-- A peer waits for a request. -/
def Remote.foreign (r : Remote) : Bool :=
  match r.tree with
  | some t => t.parts.any ReqPart.foreign
  | none => decide (2 ^ 64 ≤ r.id)

/-- The operations and lanes of this device that wait for a request, whose time limit is theirs. A drained reduction's
is its buffer's concern (R445). -/
def Remote.waiters (r : Remote) : List (Nat × Nat) :=
  match r.tree with
  | some t => t.parts.filterMap ReqPart.waiter
  | none => match r.kind with
    | .atom .. => []
    | _ => if r.id < 2 ^ 64 then [(r.op, r.lane)] else []

/-- A request leaves over the direct link, or over a detour chosen at this egress (R397); with no path it only waits. -/
def sendOut (s : State) (r : Remote) : State :=
  let via := if linkUp s r.peer then none else relayFor s r.peer
  State.sendTo { s with fabric := { s.fabric with out := s.fabric.out ++ [{ r with via := via }] } } r.peer .request
    (requestPayload (ownDevice s) r)

/-- Sends a request on from the ingress crossbar (R397). A relay has only its direct link for a peer's request: with
that down, the request is lost there, and ends at its requester's FXRTO (log 26). -/
def forward (s : State) (r : Remote) : State :=
  if linkUp s r.peer || !r.foreign then sendOut s r
  else if r.waiters.isEmpty then s
  else { s with fabric := { s.fabric with out := s.fabric.out ++ [r] } }

/-- The identities of the commit operations in a request (R406). -/
abbrev Remote.names (r : Remote) : List Nat := if r.ids.isEmpty then [r.id] else r.ids.map (·.1)

/-- The fabric unit has performed a commit operation, and keeps its reply (R406). -/
abbrev recorded (s : State) (id : Nat) : Option RemoteReply := (s.fabric.records.find? fun x => x.1 == id).map (·.2.1)

/-- The records of a commit request performed with an answer: each operation's reply, kept for 2 x FXRTO (R406). -/
def recordsOf (s : State) (r : Remote) (a : RemoteReply) : List (Nat × RemoteReply × Nat) :=
  let until_ := s.now + 2 * rtoNs s
  if a.cause.isSome then []
  else if r.ids.isEmpty then [(r.id, { a with id := r.id }, until_)]
  else (laneOlds true r.kind.w64 (BitVec.ofNat 64 (leNat a.value)) r.ids).map fun p =>
    (p.1, { a with id := p.1, value := leBytes (wordBytes r.kind.w64) p.2.toNat }, until_)

/-- A commit request at its home (R406): an operation performed before is not performed again. One that is alone gets
its recorded reply. In a combined request, where one has been performed by a resend that came first, the others are
performed, and no one value tells them apart: the values are lost, as R184 has them (log 26). -/
def serveCommit (s : State) (r : Remote) : Option (RemoteReply × State) :=
  let keep := fun (q : Remote) (p : RemoteReply × State) =>
    (p.1, { p.2 with fabric := { p.2.fabric with records := p.2.fabric.records ++ recordsOf s q p.1 } })
  match r.names.filterMap (recorded s) with
  | [] => (serveHere s r).map (keep r)
  | a :: _ =>
    if r.names.length ≤ 1 then some (a, s)
    else
      let left := r.ids.filter fun x => (recorded s x.1).isNone
      let q := { r with ids := left, tree := none, kind := .atom .add r.kind.w64 ((left.map (·.2)).foldl (· + ·) 0) 0 }
      if left.isEmpty then some ({}, s)
      else (serveHere s q).map fun p => ({ p.1 with value := [] }, (keep q p).2)

/-- The state after a request at the ingress crossbar is served, or sent on; none while it waits (R393, R397, R406). -/
def serveResult (s : State) (id : Nat) : Option State :=
  match s.fabric.ins.find? fun r => r.id = id with
  | none => none
  | some r =>
    let gone := { s with fabric := { s.fabric with
      ins := s.fabric.ins.erase r, records := s.fabric.records.filter fun x => s.now < x.2.2 } }
    if r.peer ≠ ownDevice s then some (forward gone r)
    else (if r.commit then serveCommit gone r else serveHere gone r).map fun p => answerRemote p.2 r p.1

def enabledRemoteRequestServe (s : State) (req : Nat) : Bool :=
  !fabricFrozen s && (match s.fabric.ins.find? fun r => r.id = req with
    | some r => serveInOrder s r
    | none => false) && (serveResult s req).isSome

/-- `REMOTE_REQUEST_SERVE` (R393). -/
def execRemoteRequestServe (req : Nat) (s : State) : Out :=
  whenEnabled (enabledRemoteRequestServe s req) s fun s => (serveResult s req).getD s

/-- The sum a request adds. -/
abbrev Remote.addend (r : Remote) : Dword := match r.kind with | .atom _ _ op _ => op | _ => 0

/-- Two requests may combine at the ingress crossbar (R399, R400): additions to one address that meet in its output
queue within 32 ns, the first of them the one that reached it first, or by the lower input in the same ns (R182). A
resend combines with nothing, so that its recorded reply goes back to it alone (R400, log 26), and a request holds up to
7 identities (log 10). -/
def ingressJoins (a b : Remote) : Bool :=
  a.id != b.id && a.peer == b.peer && a.job == b.job && a.off == b.off && a.privileged == b.privileged &&
    a.tree.isSome && b.tree.isSome && a.commit == b.commit && !a.resent && !b.resent &&
    !(a.ids.any fun x => b.ids.any fun y => y.1 == x.1) && a.ids.length + b.ids.length ≤ 7 &&
    cameFirst a.arrived a.input b.arrived b.input && decide (b.arrived ≤ a.arrived + 32) &&
    match a.kind, b.kind with
    | .atom .add v _ _, .atom .add w _ _ => v == w
    | _, _ => false

/-- The number of an input's Sorus table among all of them (R398). -/
abbrev inputPort (input : Nat) : Nat := 2 * input + 1

/-- A request can be joined to another: a peer's has one way on, and its home has not performed it (R397, R406). -/
abbrev Remote.joinable (r : Remote) (s : State) : Bool :=
  (r.peer == ownDevice s || linkUp s r.peer || !r.foreign) && r.names.all fun id => (recorded s id).isNone

/-- The table of the first request's input has room for a record; else the second passes through uncombined (R183,
log 26). -/
def enabledIngressCombine (s : State) (first second : Nat) : Bool :=
  !fabricFrozen s && match s.fabric.ins.find? (·.id = first), s.fabric.ins.find? (·.id = second) with
    | some a, some b =>
      ingressJoins a b && a.joinable s && b.joinable s && serveInOrder s a && serveInOrder s b &&
        sorusUsed s (inputPort a.input) < 64
    | _, _ => false

/-- `INGRESS_COMBINE` (R399): the first keeps its place, the second joins behind it. -/
def execIngressCombine (first second : Nat) (s : State) : Out :=
  whenEnabled (enabledIngressCombine s first second) s fun s =>
    match s.fabric.ins.find? (·.id = first), s.fabric.ins.find? (·.id = second) with
    | some a, some b => match a.tree, b.tree with
      | some t, some u =>
        let kind : RemoteKind := .atom .add a.kind.w64 (a.addend + b.addend) 0
        let both : Remote := { a with
          kind := kind, tree := some (.join (inputPort a.input) t u), ids := a.ids ++ b.ids, sent := max a.sent b.sent }
        let l := s.fabric.ins.filterMap fun r =>
          if r.id = second then none else if r.id = first then some both else some r
        { s with fabric := { s.fabric with ins := l } }
      | _, _ => s
    | _, _ => s

/-! ### Time limits (R394, R404, R406) -/

/-- A request that an operation and lane of this device wait for and that has had no reply within FXRTO. -/
def lateRequest (s : State) (op lane : Nat) : Option Remote :=
  (s.fabric.out ++ s.fabric.ins).find? fun r => r.waiters.contains (op, lane) && decide (r.sent + rtoNs s ≤ s.now)

/-- A request is given up. -/
def dropRequest (s : State) (id : Nat) : State :=
  { s with fabric := { s.fabric with
    out := s.fabric.out.filter fun r => r.id ≠ id, ins := s.fabric.ins.filter fun r => r.id ≠ id } }

/-- Requests of an identity rewritten. -/
def updRequest (s : State) (id : Nat) (f : Remote → Remote) : State :=
  { s with fabric := { s.fabric with
    out := s.fabric.out.map fun r => if r.id = id then f r else r
    ins := s.fabric.ins.map fun r => if r.id = id then f r else r } }

/-- A request's parts of this device wait no longer. -/
def ReqTree.disown : ReqTree → ReqTree
  | .part p => .part (if p.waiter.isSome then { p with frm := .engine } else p)
  | .join q a b => .join q a.disown b.disown

/-- This device gives a request up; it stays for the peers whose requests joined it. -/
def giveUp (s : State) (r : Remote) : State :=
  if r.foreign then updRequest s r.id fun q => { q with tree := q.tree.map ReqTree.disown } else dropRequest s r.id

/-- The commit operations of this device in a request, each as it was first sent (R400). -/
def ownCommits (s : State) (r : Remote) : List Remote :=
  match r.tree with
  | some (.join a t u) => ((ReqTree.join a t u).parts.zip r.ids).filterMap fun p => p.1.waiter.map fun w =>
      { r with id := p.2.1, op := w.1, lane := w.2, kind := .atom .add r.kind.w64 p.2.2 0, ids := [p.2]
               tree := some (.part p.1), input := ownDevice s }
  | _ => [r]

/-- The commit operations of this device in a request go out again with their identities, over the direct link or a
detour (R406). -/
def resend (s : State) (r : Remote) : State :=
  if r.peer = ownDevice s then updRequest s r.id fun q => { q with sent := s.now }
  else (ownCommits s r).foldl (fun s q => sendOut s { q with sent := s.now, resent := true }) (giveUp s r)

/-- A store that cannot be delivered is discarded: FXERR counts it, and the group's next release at system scope
reports it (R394). -/
def discardStore (s : State) (r : Remote) (seq : Nat) : State :=
  match s.op? r.op with
  | none => s
  | some o =>
    let s1 := s.updCore o.core fun k => { k with cop := k.cop.filter fun c => c.seq ≠ seq }
    let s2 := s1.updTeam o.tid fun t => { t with
      fxerr := setBits (setBits t.fxerr 16 16 (satUp (wbits t.fxerr 16 16))) 15 1 1 }
    storeDone (s2.updGroup o.gid fun g => { g with lostStore := some (g.lostStore.getD (BitVec.ofNat 64 r.va)) }) r.op

/-- What a late request comes to. -/
def timedOut (s : State) (r : Remote) : State :=
  let fault := plainFault fDataError 0 r.va
  let fail := fun (s : State) (id lane : Nat) => match s.op? id with
    | some o => match o.acc? lane with
      | some a => loadFails s o a fault
      | none => failOp s o lane fault true
    | none => s
  if r.commit then
    if reachable s r.peer then resend s r
    else ((r.tree.map ReqTree.parts).getD []).foldl (fun s p => match p.frm with
      | .commit id k l => l.foldl (fun s x => match s.op? id with
          | some o => commitFails s o x.1 (plainFault fCommitIndeterminate k 0)
          | none => s) s
      | _ => s) (giveUp s r)
  else match r.kind with
    | .store _ => match r.seq with
      | some q => discardStore (dropRequest s r.id) r q
      | none => dropRequest s r.id
    | .load _ =>
      let s1 := dropRequest s r.id
      let inRegion := match s.op? r.op with
        | none => false
        | some o => match (s.group? o.gid).bind fun g => (g.lane r.lane).region with
          | some q => decide (q.since ≤ o.id)
          | none => false
      if inRegion then
        match s.op? r.op with
        | some o => s1.updGroup o.gid fun g =>
            g.updLanes (maskOf [r.lane]) fun _ x => x.fail 2 (timeoutEvent r.op)
        | none => s1
      else fail s1 r.op r.lane
    | .atom .. =>
      ((r.tree.map ReqTree.parts).getD []).foldl (fun s p => match p.frm with
        | .lanes id l => l.foldl (fun s x => fail s id x.1) s
        | _ => s) (giveUp s r)

/-- `REMOTE_TIMEOUT` (R394, R404, R406). -/
def execRemoteTimeout (op lane : Nat) (s : State) : Out :=
  whenEnabled (lateRequest s op lane).isSome s fun s =>
    match lateRequest s op lane with
    | some r => timedOut s r
    | none => s

/-! ### Flits (R395, R396, R408) -/

/-- Contents of a flit that this device acts on, or passes on to a device. The places of the fields in a payload are the
model's (log 10). -/
inductive Payload where
  | request (r : Remote)
  | reply (dest id : Nat) (a : RemoteReply)
  | beat (b : BeatFlit)
  | other
  deriving DecidableEq, Repr

/-- Identity of a request of a device: the device's own are plain numbers. -/
abbrev remoteId (own origin id : Nat) : Nat := if origin = own then id else (origin + 1) * 2 ^ 64 + id

/-- The identities with their operands that a commit addition carries, from byte `o` of a payload. -/
def parseIds (own : Nat) (b : List Byte) (o : Nat) : Nat → List (Nat × Dword)
  | 0 => []
  | n + 1 => (remoteId own (((b[o]?).getD 0) : Byte).toNat (rec64 b (o + 1)), BitVec.ofNat 64 (rec64 b (o + 9))) ::
      parseIds own b (o + 17) n

/-- Reads the payload of a flit of a type (R395). -/
def parsePayload (s : State) (port code : Nat) (b : List Byte) : Payload :=
  let byte := fun (o : Nat) => (((b[o]?).getD 0) : Byte).toNat
  let own := ownDevice s
  let id := remoteId own (byte 5) (rec64 b 8)
  match code with
  | 0 =>
    let w := (byte 2).testBit 0
    let op := BitVec.ofNat 64 (rec64 b 24)
    let kind : Option RemoteKind := match byte 1 with
      | 0 => some (.load (byte 3))
      | 1 => some (.store ((b.drop 40).take (byte 3)))
      | _ => (AtomFn.ofBits (BitVec.ofNat 4 (byte 3))).map fun fn => .atom fn w op (BitVec.ofNat 64 (rec64 b 32))
    match kind with
    | none => .other
    | some kind => .request
      { id := id, peer := byte 4, job := rec16 b 6, off := rec64 b 16 % 2 ^ 48, kind := kind, commit := (byte 2).testBit 1
        privileged := (byte 2).testBit 2, resent := (byte 2).testBit 7, input := peerOf s port, sent := s.now
        arrived := s.now
        ids := match kind with
          | .atom .. => parseIds own b 40 (nbits (byte 2) 4 3)
          | _ => []
        tree := if (byte 2).testBit 3 then none else some (.part { frm := .remote id (peerOf s port), sum := op }) }
  | 1 => .reply (byte 4) id
      { value := (b.drop 16).take (byte 2), cause := if byte 1 = 0 then none else some (BitVec.ofNat 8 (byte 1))
        level := nbits (byte 3) 0 2, s2 := (byte 3).testBit 2, why := nbits (byte 3) 4 4 }
  | 3 => .beat { job := rec16 b 6, boundary := rec32 b 8, member := byte 1, count := rec32 b 12, dest := rec16 b 4 }
  | _ => .other

/-- A beat flit within 3 us of its boundary is merged, another dropped (R408). -/
def mergeBeat (s : State) (job boundary member count : Nat) : State :=
  let mine := s.gvTaken.any fun e => boundary == e.bound % 2 ^ 32 && decide (s.now ≤ e.at_ + 3000)
  let next := boundary == (s.gvBound + 1) % 2 ^ 32
  if (mine || next) && !s.fabric.counts.any fun x => x.1 == job && x.2.1 == boundary && x.2.2.1 == member then
    { s with fabric := { s.fabric with counts := s.fabric.counts ++ [(job, boundary, member, count % 2 ^ 32)] } }
  else s

/-- `BEAT_FLIT_RECEIVE` (R408): the miss of a dropped count is counted when the law would run. -/
def execBeatFlitReceive (job boundary member count : Nat) (s : State) : Out :=
  fromOutside (.beatFlitReceive job boundary member count) s fun s => mergeBeat s job boundary member count

/-- A flit for another device goes on over the direct link; a relay has no other way (R397, log 26). -/
def passOn (s : State) (dest : Nat) (k : FlitType) (b : List Byte) : State :=
  if linkUp s dest then s.sendFlit dest k b else s

/-- A flit is delivered. -/
def deliverFlit (s : State) (port code : Nat) (b : List Byte) : State :=
  match parsePayload s port code b with
  | .request r => { s with fabric := { s.fabric with ins := s.fabric.ins ++ [r] } }
  | .reply dest id a =>
    if dest ≠ ownDevice s then passOn s dest .reply b
    else match s.fabric.out.find? fun r => r.id = id with
      | some r => answerRemote { s with fabric := { s.fabric with out := s.fabric.out.erase r } } r a
      | none => s
  | .beat x =>
    if x.dest ≠ ownDevice s then passOn s x.dest .beat b else mergeBeat s x.job x.boundary x.member x.count
  | .other => s

/-- What the routing and credits of a flit's header tell of its sender's links is noted (R395, R397). -/
def noteLinks (s : State) (from_ routing : Nat) : State :=
  let told := (List.range (devices s)).filterMap fun e => (Config.linkReport routing e).map fun c => (e, c)
  let kept := s.fabric.far.filter fun l => !(l.1 == from_ && told.any fun t => t.1 == l.2.1)
  { s with fabric := { s.fabric with far := kept ++ told.filterMap fun t => t.2.map fun c => (from_, t.1, c) } }

/-- A port's error counts of an earlier window are over (R410): its windows are those of its first lane. -/
def Link.window (l : Link) (s : State) (port : Nat) : Link :=
  let w := 1000 * max 1 (wbits (s.errSrc (8 * port)).win 0 20)
  if s.now / w = l.since / w then { l with since := s.now } else { l with since := s.now, replays := 0, corr := 0 }

/-- A lane past its threshold is retired, and the link retrains (R396, R428). -/
def retireLane (s : State) (port : Nat) : State :=
  let (p, s1) := s.freePayload
  deviceEvent (s1.updLink port fun l => { l with healthy := l.healthy - 1, retrain := some s.now }) 0xF0 p

/-- A corrected burst is counted against its lane (R396). -/
def countBurst (s : State) (port lane : Nat) : State :=
  let (e, met) := (s.errSrc (8 * port + lane)).hit s.now
  let s1 := s.updLink port fun l => let l := l.window s port; { l with corr := min (l.corr + 1) 4095 }
  if met then retireLane (s1.setErr (8 * port + lane) e.retire) port else s1.setErr (8 * port + lane) e

/-- The fields of a flit of 256 bytes (R395). -/
abbrev flitSeq (b : List Byte) : BitVec 12 := BitVec.ofNat 12 (rec16 b 0 % 4096)
abbrev flitCode (b : List Byte) : Nat := rec16 b 0 / 4096
abbrev flitRoute (b : List Byte) : Nat := rec64 b 0 / 65536
/-- Its CRC is that of its header and payload. -/
abbrev flitGood (b : List Byte) : Bool := b.length == 256 && rec32 b 248 == crc32 (b.take 248)

/-- A flit arrives at a port, corrected where a burst was (R395, R396): the burst is counted; one that fails its CRC is
to be replayed; flits are delivered in the order of their numbers. -/
def receiveFlit (s : State) (port : Nat) (burst : Option (BitVec 3)) (b : List Byte) : State :=
  if !(vget s.fabric.links port {}).up then s
  else
    let s0 := s.updLink port fun l => { l with lastRx := s.now }
    let s1 := match burst with
      | some k => countBurst s0 port k.toNat
      | none => s0
    if !flitGood b then
      s1.updLink port fun l => let l := l.window s1 port; { l with replays := min (l.replays + 1) 255, tries := l.tries + 1 }
    else if flitSeq b ≠ (vget s.fabric.links port {}).expect then s1
    else
      let s2 := noteLinks s1 (peerOf s port) (flitRoute b)
      deliverFlit (s2.updLink port fun l => { l with expect := l.expect + 1, tries := 0 }) port (flitCode b) ((b.drop 8).take 240)

/-- The bytes of a flit on the wire (R395): its header, its payload, and its CRC and parity behind it. -/
abbrev wireFlit (header tail : Dword) (payload : List Byte) : List Byte :=
  leBytes 8 header.toNat ++ (payload ++ leBytes 8 tail.toNat)

/-- `FLIT_RECEIVE` (R396): flits are held during a retrain and while the fabric unit is frozen. -/
def execFlitReceive (port : Nat) (header tail : BitVec 64) (burst : Option (BitVec 3)) (payload : List (BitVec 8))
    (s : State) : Out :=
  if (vget s.fabric.links port {}).retrain.isSome && (vget s.fabric.links port {}).up || fabricFrozen s then .fault .notEnabled
  else fromOutside (.flitReceive port header tail burst payload) s fun s =>
    receiveFlit s port burst (wireFlit header tail payload)

/-! ### Links (R396, R404, R406) -/

/-- A link is down when a flit has been replayed 8 times, when nothing has arrived for 1 us, or when no lane is
healthy (R396). While it retrains to fewer lanes, flits are held and nothing can arrive. -/
def enabledLinkDown (s : State) (port : Nat) : Bool :=
  let l := vget s.fabric.links port {}
  !fabricFrozen s && l.up && (8 < l.tries || (l.retrain.isNone && decide (l.lastRx + 1000 ≤ s.now)) || l.healthy == 0)

/-- A request in flight over the link of a port. -/
def Remote.over (r : Remote) (s : State) (port : Nat) : Bool :=
  r.peer != ownDevice s && (r.via.getD r.peer) == peerOf s port

/-- `LINK_DOWN` (R396): regions that name the peer fail (R404); commit operations without a reply are sent again over
a detour (R406). -/
def execLinkDown (port : Nat) (s : State) : Out :=
  whenEnabled (enabledLinkDown s port) s fun s =>
    let s1 := s.updLink port fun l => { l with up := false, lanes := 0, tries := 0, retrain := none, downAt := s.now }
    let s2 := failRegions s1 1 fun r => r.peers.getLsbD (peerOf s port)
    (s.fabric.out.filter fun r => r.commit && r.over s port && !r.waiters.isEmpty).foldl (fun s r => if reachable s r.peer then resend s r else s) s2

/-- A down link of a fabric is tried again every 100 us (R396). -/
def enabledLinkRetrainAttempt (s : State) (port : Nat) : Bool :=
  let l := vget s.fabric.links port {}
  !fabricFrozen s && joined s && decide (port + 1 < devices s) && !l.up && l.retrain.isNone && decide (l.downAt + 100000 ≤ s.now)

/-- `LINK_RETRAIN_ATTEMPT` (R396). -/
def execLinkRetrainAttempt (port : Nat) (s : State) : Out :=
  whenEnabled (enabledLinkRetrainAttempt s port) s fun s =>
    s.updLink port fun l => { l with retrain := some s.now, downAt := s.now }

/-- A retrain ends at the healthy lanes; an attempt may also leave the link down (R396). -/
def enabledLinkRetrainDone (s : State) (port healthy : Nat) : Bool :=
  let l := vget s.fabric.links port {}
  !fabricFrozen s && l.retrain.isSome && (healthy == l.healthy || (healthy == 0 && !l.up))

/-- `LINK_RETRAIN_DONE` (R396). -/
def execLinkRetrainDone (port healthy : Nat) (s : State) : Out :=
  whenEnabled (enabledLinkRetrainDone s port healthy) s fun s =>
    s.updLink port fun l =>
      if healthy = 0 then { l with retrain := none }
      else { l with up := true, lanes := lanesFor healthy, retrain := none, tries := 0, lastRx := s.now }

/-! ### Configuration (R409, R421) -/

/-- FXCFG: writable only while every link is down; the device is joined from then on (R393, R421). -/
def setFxcfg (s : State) (v : Word) : State :=
  if s.fabric.links.toList.any (·.up) then s
  else { s with fabric := { s.fabric with fxdev := BitVec.ofNat 32 (256 + wbits v 0 8) } }

/-- `FXCFG_WRITE` (R421). -/
def execFxcfgWrite (value : Word) (s : State) : Out := fromOutside (.fxcfgWrite value) s fun s => setFxcfg s value

/-- An entry of the job table (R421). -/
def setJob (s : State) (entry : Nat) (v : Dword) : State :=
  { s with fabric := { s.fabric with jobs := vset s.fabric.jobs entry (BitVec.ofNat 64 (dbits v 0 32)) } }

/-- `JOB_TABLE_WRITE` (R421): it applies from the next boundary, so not between a boundary and its laws. -/
def execJobTableWrite (entry : Nat) (value : Dword) (s : State) : Out :=
  if s.gvPend then .fault .notEnabled
  else fromOutside (.jobTableWrite entry value) s fun s => setJob s entry value

/-- FXREACH: links up and peers reachable (R409). -/
def fxReach (s : State) : Word :=
  if !joined s then 0
  else
    let l := (List.range (devices s)).filter fun e => e ≠ ownDevice s
    BitVec.ofNat 32 ((l.filter (linkUp s)).foldl (fun n e => n + 2 ^ (16 + e)) 0 +
      (l.filter (reachable s)).foldl (fun n e => n + 2 ^ e) 0)

/-- FXLINKp (R410). -/
def fxLink (s : State) (p : Nat) : Word :=
  let l := (vget s.fabric.links p {}).window s p
  if !joined s ∨ devices s ≤ p + 1 then 0
  else BitVec.ofNat 32 ((if l.up then 2 ^ 31 else 0) + peerOf s p * 2 ^ 24 + l.lanes * 2 ^ 20 + l.replays * 2 ^ 12 + l.corr)

/-- RGSTAT of a fibre (R410). -/
def Fibre.rgStatus (x : Fibre) : Word :=
  match x.region with
  | none => x.rgstat
  | some r => x.rgstat ||| 0x40000000 ||| BitVec.ofNat 32 r.buf.length

end Sys2Proof.Machine
end

