-- ==== Sys2Proof/Machine/Vote.lean ====
section
/-!
DEFINITION. The scheduler (R61 to R65, R68, R70, R238): fetching words (R30, R197), the paths of a group,
which are ready, the packets a cycle forms, and the start of a clause (R35).
-/

namespace Sys2Proof.Machine

open Sys2Proof

/-! ### Fetching (R29, R56, R197) -/

/-- Fetches one word of a context's code for a fibre. The instruction cache may still hold an older word
(R197). A fetch that is returned for a stale generation walks again (R159). -/
def fetchWord (s : State) (core asid va lane : Nat) (user : Bool) : Res (Word × State) :=
  match translate s core asid va lane .fetch user with
  | .trap f _ => .trap f []
  | .hold w => .hold w
  | .ok tr =>
    match readCode s core asid va 4 tr with
    | (.waits, _) => .hold []
    | (.rejected, _) => .hold [va]
    | (.error, _) => .trap (plainFault fDataError 0 va) []
    | (.bytes l, s1) => .ok (BitVec.ofNat 32 (leNat l), s1)

/-- A word as a scheduler sees it ahead of its fetch: `none` while a walk for it is on its way, `some none`
when only its fetch can tell. -/
def peekWord (s : State) (core asid va : Nat) : Option (Option Word) :=
  match tlbFind s core asid va with
  | some tr =>
    if lineMoving s tr then none
    else if !tr.x || stale s asid tr || s.bad.contains (tr.key / 128) then some none
    else match cacheFind (s.coreOf core).icache asid va 4 with
      | some l => some (some (BitVec.ofNat 32 (leNat l)))
      | none => some (some (Mem.read32 s.mem tr.key))
  | none =>
    if (s.coreOf core).walks.any fun w => w.asid == asid && w.va / 2 ^ 16 == va / 2 ^ 16 then none else some none

/-- Words ahead, as far as they can be seen. -/
def peekWords (s : State) (core asid : Nat) : Nat → Nat → List Word
  | 0, _ => []
  | n + 1, va => match peekWord s core asid va with
    | some (some w) => w :: peekWords s core asid n (va + 4)
    | _ => []

/-- The next instruction of a clause as far as it can be seen ahead of its fetch: `none` when the path is held
for it, `some none` when only its fetch can tell. -/
def peekInstr (s : State) (core asid va rem : Nat) (hdr : Word) : Option (Option Instr) :=
  match peekWord s core asid va with
  | none => none
  | some none => some none
  | some (some _) => match hdrClass hdr with
    | none => some none
    | some c => match decode c (peekWords s core asid (min rem 4) va) with
      | .ok (i, _) => some (some i)
      | .error _ => some none

/-! ### Paths (R61, R68) -/

/-- A path: fibres of one group at one place of their code, demoted ones apart (R61, R66). -/
structure Path where
  pc : Addr := 0
  rem : BitVec 4 := 0
  clause : Word := 0
  demoted : Bool := false
  lanes : BitVec 32 := 0
  deriving DecidableEq, Repr

/-- The path a fibre belongs to. -/
abbrev Fibre.path (x : Fibre) (i : Nat) : Path :=
  { pc := x.pc, rem := x.rem, clause := if x.rem = 0 then 0 else x.clause, demoted := x.demoted,
    lanes := maskOf [i] }

/-- A path placed among others by rising PC, or joined with the one it belongs to. -/
def addPath (p : Path) : List Path → List Path
  | [] => [p]
  | q :: r =>
    if { q with lanes := 0 } = { p with lanes := 0 } then { q with lanes := q.lanes ||| p.lanes } :: r
    else if p.pc.toNat < q.pc.toNat then p :: q :: r
    else q :: addPath p r

/-- The paths that some lanes of a group form, by rising PC. -/
def Group.paths (g : Group) (m : BitVec 32) : List Path :=
  (lanesOf m).foldl (fun l i => addPath ((g.lane i).path i) l) []

/-- Fibres that a vote can choose: running, waiting for nothing, and in no packet that holds a port. -/
abbrev Group.voted (g : Group) (busy : BitVec 32) : BitVec 32 :=
  without (g.lanesWhere fun x => x.status == .running && x.wait.isNone) busy

/-- The header of the path's next clause, seen ahead. -/
abbrev Path.header (p : Path) (s : State) (g : Group) (t : Team) : Option (Option Word) :=
  peekWord s g.core t.asid p.pc.toNat

/-- The wait mask of the next clause is clear, for a path at a clause start (R61). -/
def Path.clear (p : Path) (s : State) (g : Group) (t : Team) : Bool :=
  p.rem != 0 ||
  match p.header s g t with
  | some (some h) => !hdrOk h || g.maskClear h
  | _ => true

/-- The class of the path's next word, when it can be seen. -/
def Path.cls (p : Path) (s : State) (g : Group) (t : Team) : Option Class :=
  if p.rem ≠ 0 then hdrClass p.clause
  else match p.header s g t with
    | some (some h) => if hdrCount h = 0 then none else hdrClass h
    | _ => none

/-- No outstanding operation still writes the predicate that guards a clause (R40). -/
abbrev guardKnown (ops : List Op) (hdr : Word) (lane : Nat) : Bool := !laneBlocked ops lane ([], [], [(hdrGuard hdr).toNat])

/-- The lanes of a path whose next word can issue; the others are held and split off (R61). -/
def Path.readyLanes (p : Path) (s : State) (g : Group) (t : Team) : BitVec 32 :=
  let ops := s.groupOps g.gid
  let word := fun (lanes act : BitVec 32) (va rem : Nat) (h : Word) =>
    if act = 0 then lanes
    else match peekInstr s g.core t.asid va rem h with
      | none => 0
      | some none => lanes
      | some (some i) =>
        let r := laneReady s g i lanes act
        let here : Here :=
          { c := { core := g.core, sched := g.sched, pk := { gid := g.gid, lanes := r } }, t := t
            g := g.updLanes r fun k x => { x with clause := h, active := act.getLsbD k } }
        if r &&& act = 0 || !packetReady s g t.tid i h (r &&& act) || engineHeld i s here then 0 else r
  if p.rem ≠ 0 then word p.lanes (p.lanes &&& g.lanesWhere (·.active)) p.pc.toNat p.rem.toNat p.clause
  else match p.header s g t with
    | none => 0
    | some none => p.lanes
    | some (some h) =>
      if !hdrOk h then p.lanes
      else
        let l := maskIf fun i => p.lanes.getLsbD i && !laneHeld ops i && guardKnown ops h i
        if hdrCount h = 0 then l
        else word l (l &&& g.lanesWhere fun x => x.pred (hdrGuard h).toNat != hdrPol h) (p.pc.toNat + 4)
          (hdrCount h) h

/-- The eligible paths of a group (R61): of the demoted ones, those that have waited for their siblings, or
all when no other path is eligible, one that continues on a port included (R68). -/
def Group.eligible (g : Group) (s : State) (t : Team) (m : BitVec 32) : List Path :=
  let all := (g.paths m).filter fun p => p.clear s g t
  let free := all.filter fun p => !p.demoted || (lanesOf p.lanes).all fun i => (g.lane i).demWait == 0
  if free.isEmpty && portLanes s g.gid g.core g.sched = 0 then all else free

/-- The ready paths of a group, by rising PC. -/
def Group.ready (g : Group) (s : State) (t : Team) (m : BitVec 32) : List Path :=
  (g.eligible s t m).filterMap fun p =>
    let l := p.readyLanes s g t
    if l = 0 then none else some { p with lanes := l }

/-- The number of distinct PCs among the live fibres (R63). -/
def Group.pcCount (g : Group) : Nat := ((lanesOf g.liveLanes).map fun i => (g.lane i).pc).eraseDups.length

/-- The greatest skip count in a path. -/
def Path.skip (p : Path) (g : Group) : Nat := (lanesOf p.lanes).foldl (fun n i => max n (g.lane i).skip.toNat) 0

/-- The override path among some (R63): skip count P − 1 reached, the greatest first, then the lower PC. -/
def Group.override (g : Group) (l : List Path) : Option Path :=
  l.foldl (fun best p =>
    if p.skip g + 1 < g.pcCount then best
    else match best with
      | none => some p
      | some q => if q.skip g < p.skip g then some p else best) none

/-- Service class of a group's team (R62). -/
abbrev Group.sclass (g : Group) (s : State) : Nat := ((s.team? g.tid).map (·.sclass)).getD 3

/-- One group comes before another in the vote (R62): class, age, slot. -/
def Group.before (s : State) (a b : Group) : Bool :=
  let x := a.sclass s
  let y := b.sclass s
  x < y || (x == y && (a.age < b.age || (a.age == b.age && a.slot < b.slot)))

/-! ### Starting a packet (R35) -/

/-- A path starts as a packet: its lanes, its clause context and its guard. `none` for the port when the
packet executes no word. The fibres that go on have issued (R63, R67). Fibres whose guard predicate an outstanding
operation still writes stay behind (R40). A fault of the header is every fibre's own, as MATRIX_LOST is: EINFO[31] is
set in each (DESIGN CHOICE, log 26: R225 speaks of operands). -/
def startPacket (s : State) (g : Group) (t : Team) (p : Path) : Option Packet × State :=
  if t.lostNow then
    let f := plainFault fMatrixLost
    (none, (s.updTeam t.tid fun t => { t with lost := false, lostNow := false }).takeTrap g.gid p.lanes f
      ((lanesOf p.lanes).map fun i => (i, f)))
  else if p.rem ≠ 0 then (some { gid := g.gid, lanes := p.lanes }, s)
  else
    let lead := ((lanesOf p.lanes).head?).getD 0
    let user := (lanesOf p.lanes).any fun i => !(g.lane i).mode
    let trap (f : FaultRec) : Option Packet × State :=
      (none, s.raise g.core g.gid p.lanes f ((lanesOf p.lanes).map fun i => (i, f)))
    match fetchWord s g.core t.asid p.pc.toNat lead user with
    | .trap f _ => trap f
    | .hold w => (none, s.needWalks g.core g.gid t.asid w)
    | .ok (h, s1) =>
      if !hdrOk h then trap (plainFault fIllegalEncoding)
      else if !g.maskClear h then (none, s)
      else
        let l := maskIf fun i => p.lanes.getLsbD i && guardKnown (s.groupOps g.gid) h i
        let act := l &&& g.lanesWhere fun x => x.pred (hdrGuard h).toNat != hdrPol h
        let runs := hdrCount h ≠ 0 ∧ act ≠ 0
        let s2 := s1.updGroup g.gid fun g =>
          let g := if runs then g else g.issued l
          g.updLanes l fun i x =>
            { x with
              clause := h
              active := decide runs && act.getLsbD i
              rem := if runs then BitVec.ofNat 4 (hdrCount h) else 0
              pc := x.pc + BitVec.ofNat 56 (if runs then 4 else 4 * (1 + hdrCount h)) }
        (if runs then some { gid := g.gid, lanes := l } else none, s2)

/-! ### The vote (R62, R63) -/

/-- The core is frozen (R425). -/
abbrev coreFrozen (s : State) (core : Nat) : Bool := frozenUnit s 0 core

/-- Votes take place: not while the region stops for a step change (R429), and on even edges only after a droop
(R238). -/
abbrev droopOpen (s : State) (core : Nat) : Bool :=
  let c := s.clusterOf (clusterNo core)
  c.change.isNone && (c.droopWin == 0 || c.cycles % 2 == 0)

/-- The groups of a scheduler. -/
abbrev State.schedGroups (s : State) (core sched : Nat) : List Group :=
  s.groups.filter fun g => g.core = core && g.sched = sched

/-- A fault or a rollback that is due at the group's packet boundary (R171, R404). -/
def boundaryDue (s : State) (g : Group) : Bool :=
  let busy := portLanes s g.gid g.core g.sched
  (lanesOf (g.voted busy)).any fun i => !(g.lane i).defer.isEmpty || (g.lane i).rollback.isSome

/-- The end of the last cycle is complete for a group: nothing is to be released, restarted or trapped. -/
def cycleDone (s : State) (g : Group) : Bool :=
  !enabledRcvgRelease s g.gid && !enabledGroupRestart s g.gid && !boundaryDue s g

/-- The lanes of a group that may form packets: of a halted group none, of one in back-off only when its
gate is open (R62). -/
def votable (s : State) (g : Group) : BitVec 32 :=
  if g.halted || !backoffOpen s g || ((s.team? g.tid).map (·.phase)) != some .running then 0 else g.voted (portLanes s g.gid g.core g.sched)

/-- The groups with ready paths and those paths (R62). -/
def ballots (s : State) (core sched : Nat) : List (Group × Team × List Path) :=
  (s.schedGroups core sched).filterMap fun g => match s.team? g.tid with
    | none => none
    | some t =>
      let l := g.ready s t (votable s g)
      if l.isEmpty then none else some (g, t, l)

/-- The chosen group (R62). -/
def chosen (s : State) (l : List (Group × Team × List Path)) : Option (Group × Team × List Path) :=
  l.foldl (fun best b => match best with
    | none => some b
    | some a => if b.1.before s a.1 then some b else best) none

/-- The paths that issue in the chosen group when both ports are free (R63): for port 1, for port 2. -/
def pair (s : State) (g : Group) (t : Team) : List Path → Option Path × Option Path
  | [] => (none, none)
  | p :: r =>
    let m := fun (q : Path) => q.cls s g t == some .M
    match g.override r with
    | some o => if m p && m o then (some o, none) else (some p, some o)
    | none => match r with
      | [] => (some p, none)
      | q :: _ => if m p && m q then (some p, none) else (some p, some q)

/-- The path that issues in the chosen group when one port is free (R63). -/
def single (g : Group) (l : List Path) : Option Path :=
  match l with
  | [] => none
  | p :: r => match g.override (p :: r) with
    | some o => some o
    | none => some p

/-- The class M packet that continues on a port (R63). -/
def heldM (s : State) (p : Option Packet) : Bool :=
  match p with
  | none => false
  | some q => match s.group? q.gid with
    | none => false
    | some g => (lanesOf q.lanes).any fun i => hdrClass (g.lane i).clause == some .M

/-- A path put on a port. -/
def putPort (s : State) (core sched : Nat) (two : Bool) (g : Group) (t : Team) (p : Option Path) : State :=
  match p with
  | none => s
  | some p =>
    let (pk, s1) := startPacket s g t p
    s1.updCore core fun k =>
      let sc := vget k.scheds sched {}
      { k with scheds := vset k.scheds sched (if two then { sc with port2 := pk } else { sc with port1 := pk }) }

/-- Fibres of a group's ready paths, whether or not the vote takes them (R63). -/
def readyFibres (s : State) (g : Group) : BitVec 32 :=
  match s.team? g.tid with
  | none => 0
  | some t =>
    if g.halted || t.phase ≠ .running then 0
    else (g.ready s t (g.voted (portLanes s g.gid g.core g.sched))).foldl (fun m p => m ||| p.lanes) 0

/-- Skip counts after a cycle in which groups issue (R63): fibres of ready paths, as the state `s0` before the cycle has
them, that are in no packet of the cycle add one. -/
def raiseSkips (s0 s : State) (core sched : Nat) (issued : List Nat) : State :=
  (s0.schedGroups core sched).foldl (fun s x =>
    if !issued.contains x.gid then s
    else
      let left := without (readyFibres s0 x) (portLanes s x.gid core sched)
      s.updGroup x.gid fun g => g.updLanes left fun i y =>
        -- a fibre that went on without a word has issued
        if y.pc = (x.lane i).pc then { y with skip := if y.skip = 31 then 31 else y.skip + 1 } else y) s

/-- The debugger's next packet of a scheduler (R91). -/
def stepPacket (s : State) (core sched : Nat) : Option (Group × Team × BitVec 32) :=
  (s.schedGroups core sched).findSome? fun g => match g.steps, s.team? g.tid with
    | m :: _, some t => if t.phase = .running then some (g, t, m) else none
    | _, _ => none

/-- Starts the debugger's next packet on port 1: its fibres run until the packet ends (R91, R230). -/
def startStep (s : State) (core sched : Nat) (g : Group) (t : Team) (m : BitVec 32) : State :=
  let wake := fun (g : Group) => { (g.updLanes m fun _ x =>
    if x.status = .halted then { x with status := .running } else x) with steps := g.steps.drop 1 }
  let s1 := s.updGroup g.gid wake
  let g1 := wake g
  match g1.paths m with
  | [] => s1
  | p :: _ =>
    -- the debug block reports the packet (R420)
    let s1 := { s1 with host := { s1.host with dbgpc := p.pc.setWidth 64, dbgst := setBits s1.host.dbgst 30 1 1 } }
    let s2 := putPort s1 core sched false g1 t (some p)
    -- a packet that executes no word ends at once
    let busy := portLanes s2 g.gid core sched
    s2.updGroup g.gid fun g => g.updLanes (without m busy) fun _ x =>
      if x.status = .running then { x with status := .halted } else x

/-- Where the scheduler's cycle goes after its vote: to the word on port 1, to that on port 2, or to its end. -/
def toWords (s : State) (core sched : Nat) : State :=
  s.updCore core fun k =>
    let sc := vget k.scheds sched {}
    let ph := if sc.port1.isSome then 1 else if sc.port2.isSome then 2 else 0
    { k with scheds := vset k.scheds sched { sc with phase := ph } }

/-- The fibres of a path that packet 1 of the cycle has left as they were. -/
def stillRunning (g : Group) (p : Option Path) : Option Path :=
  p.bind fun p =>
    let l := p.lanes &&& g.lanesWhere fun x => x.status == .running && x.wait.isNone
    if l = 0 then none else some { p with lanes := l }

/-- The packets that a vote of a scheduler forms in its chosen group; `one` and `two` tell whether the ports are held (R63). -/
def putGroup (s : State) (core sched : Nat) (one two : Bool) (g : Group) (t : Team) (l : List Path) : State :=
  match one, two with
  | false, false =>
    let (p, q) := pair s g t l
    let s1 := putPort s core sched false g t p
    -- packet 2 sees what packet 1's clause start did
    match s1.group? g.gid, s1.team? g.tid with
    | some g1, some t1 => putPort s1 core sched true g1 t1 (stillRunning g1 q)
    | _, _ => s1
  | false, true => putPort s core sched false g t (single g l)
  | true, false => putPort s core sched true g t (single g l)
  | true, true => s

/-- The chosen group issues in the vote's cycle: a packet of it takes a port, or fibres of it go on without a word. A
header that is still on its way, or a guard that is still to be written, holds it (R40, R61, R63). -/
def hasIssued (s s1 : State) (g : Group) : Bool :=
  portLanes s1 g.gid g.core g.sched != portLanes s g.gid g.core g.sched || match s1.group? g.gid with
    | some x => (x.lanesWhere fun y => y.status == .running) != (g.lanesWhere fun y => y.status == .running) ||
        (List.range 32).any fun i => (x.lane i).pc != (g.lane i).pc
    | none => true

/-- The packets a vote forms on the free ports: of a debugger's step, or of the chosen group. Beside a class M word that
continues on a port, the chosen group's paths of class M do not start (R63). -/
def doVote (s : State) (core sched : Nat) : State :=
  let s := { s with groups := s.groups.map fun g => if g.core = core ∧ g.sched = sched then g.settle else g }
  let sc := vget (s.coreOf core).scheds sched {}
  let held := [sc.port1, sc.port2].filterMap fun (p : Option Packet) => p.map fun q => q.gid
  match sc.port1, stepPacket s core sched with
  | none, some (g, t, m) => toWords (raiseSkips s (startStep s core sched g t m) core sched held) core sched
  | _, _ =>
    match (if droopOpen s core then chosen s (ballots s core sched) else none) with
    | none => toWords (raiseSkips s s core sched held) core sched
    | some (g, t, l) =>
      if sc.port1.isSome ∧ sc.port2.isSome then toWords (raiseSkips s s core sched held) core sched
      else
        let noM := heldM s sc.port1 || heldM s sc.port2
        let s1 := putGroup s core sched sc.port1.isSome sc.port2.isSome g t (l.filter fun p => !(noM && p.cls s g t == some .M))
        toWords (raiseSkips s s1 core sched (if hasIssued s s1 g then g.gid :: held else held)) core sched

/-- A scheduler's cycle has ended, all that its end brings is done, its region does not stop for a step change, and the
next cycle has something to issue (R63, R425, R429). -/
def enabledSchedulerVote (s : State) (core sched : Nat) : Bool :=
  let sc := vget (s.coreOf core).scheds sched {}
  sc.phase == 0 && sched < 4 && !coreFrozen s core && (s.clusterOf (clusterNo core)).change.isNone &&
  (s.schedGroups core sched).all (cycleDone s) &&
  (sc.port1.isSome || sc.port2.isSome || (stepPacket s core sched).isSome ||
    (droopOpen s core && !(ballots s core sched).isEmpty))

/-- `SCHEDULER_VOTE` (R62, R63). -/
def execSchedulerVote (core sched : Nat) (s : State) : Out :=
  whenEnabled (enabledSchedulerVote s core sched) s fun s => doVote s core sched

end Sys2Proof.Machine
end

