-- ==== Sys2Proof/Machine/Control.lean ====
section
/-!
DEFINITION. Clock regions and droop (R23, R238, R429), the debug block (R91, R230, R420), freeze control (R425) and
reports of errors (R428).
-/

namespace Sys2Proof.Machine

open Sys2Proof

/-! ### Clock regions (R23, R237, R429) -/

/-- The schedulers of a region have ended the cycle in progress. -/
def regionAtEdge (s : State) (cl : Nat) : Bool :=
  (s.cores.filter fun k => clusterNo k.cid == cl).all fun k => k.scheds.toList.all fun c => c.phase == 0

/-- A region starts to change to the step it is to run at, at the end of its cycle in progress, or ends a change. -/
def enabledClockStepChange (s : State) (cl : Nat) : Bool :=
  let c := s.clusterOf cl
  cl < 256 && (c.change.isSome || (regionTarget s cl != c.step && regionAtEdge s cl))

/-- `CLOCK_STEP_CHANGE` (R429): at the region's first edge it stops, for at most 1.5 us, and then runs at the new step.
A change that is begun ends in a second step. -/
def execClockStepChange (cluster : Nat) (s : State) : Out :=
  whenEnabled (enabledClockStepChange s cluster) s fun s =>
    s.updCluster cluster fun c => match c.change with
      | none => { c with change := some (regionTarget s cluster, s.now + 1500) }
      | some (k, _) => { c with step := k, change := none }

/-! ### Droop and margin (R238, R429, R430) -/

/-- `DROOP_DETECT` (R238): up to 8 of the next cycles are stretched, and for 64 edges votes are held on even edges
only. -/
def execDroopDetect (cluster : Nat) (s : State) : Out :=
  fromOutside (.droopDetect cluster) s fun s =>
    if 256 ≤ cluster then s
    else
      let (k, s1) := s.choose 9
      s1.updCluster cluster fun c => { c with
        droopcnt := if c.droopcnt = 0xFFFFFFFF then c.droopcnt else c.droopcnt + 1
        droops := c.droops + 1, stretch := k, droopWin := c.cycles + 64 }

def enabledDroopWindowEnd (s : State) (cl : Nat) : Bool :=
  let c := s.clusterOf cl
  c.droopWin != 0 && decide (c.droopWin ≤ c.cycles)

/-- `DROOP_WINDOW_END` (R238). -/
def execDroopWindowEnd (cluster : Nat) (s : State) : Out :=
  whenEnabled (enabledDroopWindowEnd s cluster) s fun s =>
    s.updCluster cluster fun c => { c with droopWin := 0, stretch := 0 }

/-- `MARGIN_CHANGE` (R429): a critical margin raises event 0x00F2. The laws of a boundary use the margin that stood at it
(R380), so a change is taken up after them. -/
def execMarginChange (cluster : Nat) (margin : BitVec 2) (s : State) : Out :=
  if s.gvPend then .fault .notEnabled
  else fromOutside (.marginChange cluster margin) s fun s =>
    if 256 ≤ cluster then s
    else
      let s1 := s.updCluster cluster fun c => { c with margin := margin }
      if margin = 0 then
        let (p, s2) := s1.freePayload
        deviceEvent s2 0xF2 p
      else s1

/-! ### The debug block (R91, R230, R420) -/

/-- The group in a slot of a core: slots are numbered scheduler·16 + slot. -/
def groupIn (s : State) (core slot : Nat) : Option Group :=
  s.groups.find? fun g => g.core = core && g.sched = slot / 16 && g.slot = slot % 16

/-- The debug block is busy: packets of a step are still to issue, or one of a halted group has not ended (R91). -/
def dbgBusy (s : State) : Bool :=
  s.groups.any fun g => !g.steps.isEmpty || (g.halted && portLanes s g.gid g.core g.sched != 0)

/-- A command acts on a group; one written while the block is busy is ignored (R420). -/
def onGroup (s : State) (core slot : Nat) (f : State → Group → State) : State :=
  if dbgBusy s then s
  else match groupIn s core slot with
    | some g => f s g
    | none => s

/-- HALT (R230). -/
def dbgHalt (s : State) (core slot : Nat) : State :=
  onGroup s core slot fun s g => s.haltGroup g.gid

/-- RESUME (R230): every halted fibre runs. -/
def dbgResume (s : State) (core slot : Nat) : State :=
  onGroup s core slot fun s g =>
    s.updGroup g.gid fun g => { (g.updLanes (g.lanesWhere fun x => x.status == .halted) fun _ x =>
      { x with status := .running }) with halted := false }

/-- The ready paths of a halted group, its halted fibres taken as running (R91). -/
def haltedReady (s : State) (g : Group) (t : Team) : List Path :=
  let g1 := g.updLanes (g.lanesWhere fun x => x.status == .halted) fun _ x => { x with status := .running }
  g1.ready (s.updGroup g.gid fun _ => g1) t (g1.voted 0)

/-- STEP and STEP.ALL (R91): the packets to issue, one after another; with no ready path the command completes at once
and reports no issue. -/
def dbgStep (s : State) (core slot : Nat) (all : Bool) : State :=
  onGroup s core slot fun s g =>
    match s.team? g.tid with
    | none => s
    | some t =>
      let s1 := { s with host := { s.host with dbgst := setBits s.host.dbgst 30 1 0 } }
      if !g.halted then s1
      else
        let l := haltedReady s g t
        let pick := if all then l else match g.override l with
          | some p => [p]
          | none => l.take 1
        s1.updGroup g.gid fun g => { g with steps := pick.map (·.lanes) }

/-- ATTACH and DETACH: DBGCTL.BRKEN of the group's team. -/
def dbgAttach (s : State) (core slot : Nat) (on : Bool) : State :=
  onGroup s core slot fun s g =>
    s.updTeam g.tid fun t => { t with dbgctl := setBits t.dbgctl 0 1 (if on then 1 else 0) }

/-- DISCARD: a halted team ends, its resources are free, and its node completes as failed. -/
def dbgDiscard (s : State) (core slot : Nat) : State :=
  onGroup s core slot fun s g =>
    match s.team? g.tid with
    | none => s
    | some t =>
      if !(s.teamGroups t.tid).all (·.halted) then s
      else
        let s1 := (stripTeam s t).updTeam t.tid fun t => { t with
          phase := .ended, lease := none, leaseEnding := false, scratch := [], subs := [], drain := false, victimOf := none }
        s1.updCroz t.launch.die fun c => { c with running := c.running.map fun r =>
          if r.node = t.launch.node && r.asid = t.asid then { r with failed := true } else r }

/-- `DBG_HALT` (R420). -/
def execDbgHalt (core slot : Nat) (s : State) : Out := fromOutside (.dbgHalt core slot) s fun s => dbgHalt s core slot
/-- `DBG_RESUME` (R420, R424). -/
def execDbgResume (core slot : Nat) (s : State) : Out := fromOutside (.dbgResume core slot) s fun s => dbgResume s core slot
/-- `DBG_STEP` (R91). -/
def execDbgStep (core slot : Nat) (s : State) : Out := fromOutside (.dbgStep core slot) s fun s => dbgStep s core slot false
/-- `DBG_STEP_ALL` (R91). -/
def execDbgStepAll (core slot : Nat) (s : State) : Out := fromOutside (.dbgStepAll core slot) s fun s => dbgStep s core slot true
/-- `DBG_ATTACH` (R420). -/
def execDbgAttach (core slot : Nat) (s : State) : Out := fromOutside (.dbgAttach core slot) s fun s => dbgAttach s core slot true
/-- `DBG_DETACH` (R420). -/
def execDbgDetach (core slot : Nat) (s : State) : Out := fromOutside (.dbgDetach core slot) s fun s => dbgAttach s core slot false
/-- `DBG_DISCARD` (R420). -/
def execDbgDiscard (core slot : Nat) (s : State) : Out := fromOutside (.dbgDiscard core slot) s fun s => dbgDiscard s core slot

/-- DBGST (R420): the issue mark is kept in bit 30 of `dbgst`; [61] tells that some group is halted (log 14). -/
def dbgStatus (s : State) : Dword :=
  BitVec.ofNat 64 ((if dbgBusy s then 2 ^ 63 else 0) + (if s.host.dbgst.getLsbD 30 then 2 ^ 62 else 0) +
    (if s.groups.any (·.halted) then 2 ^ 61 else 0) + dbits s.host.dbgpc 0 56)

/-- DBGCMD (R420). -/
def dbgCommand (s : State) (v : Dword) : State :=
  let core := dbits v 48 11
  let slot := dbits v 40 6
  match dbits v 60 4 with
  | 1 => dbgHalt s core slot
  | 2 => dbgResume s core slot
  | 3 => dbgStep s core slot false
  | 4 => dbgStep s core slot true
  | 5 => dbgAttach s core slot true
  | 6 => dbgAttach s core slot false
  | 7 => dbgDiscard s core slot
  | _ => s

/-! ### Freeze control (R425) -/

/-- A freeze is asked for. -/
def askFreeze (s : State) (kind index : Nat) : State :=
  if s.host.frozen.any fun f => f.kind == kind && f.index == index then s
  else { s with host := { s.host with frozen := s.host.frozen ++ [{ kind := kind, index := index, since := s.now }] } }

/-- A unit leaves its freeze; FRZST[63] falls with the last one. -/
def thawUnit (s : State) (kind index : Nat) : State :=
  let l := s.host.frozen.filter fun f => !(f.kind == kind && f.index == index)
  { s with host := { s.host with
      frozen := l, frzst := if l.any (·.reached) then s.host.frzst else setBits s.host.frzst 63 1 0 } }

/-- FRZCMD (R425). -/
def freezeCommand (s : State) (v : Dword) : State :=
  match dbits v 60 4 with
  | 1 => askFreeze s (dbits v 56 4) (dbits v 0 11)
  | 2 => thawUnit s (dbits v 56 4) (dbits v 0 11)
  | _ => s

/-- `FREEZE` (R425). -/
def execFreeze (kind index : Nat) (s : State) : Out := fromOutside (.freeze kind index) s fun s => askFreeze s kind index
/-- `THAW` (R425). -/
def execThaw (kind index : Nat) (s : State) : Out := fromOutside (.thaw kind index) s fun s => thawUnit s kind index

/-- A unit is at the point at which a freeze holds: a core at packet boundaries with its atomics performed, any other
unit between two steps. -/
def atFreezePoint (s : State) (kind index : Nat) : Bool :=
  if kind = 0 then
    (s.coreOf index).scheds.toList.all (fun k => k.port1.isNone && k.port2.isNone) &&
      !s.reqs.any (fun r => r.tree.parts.any fun p => p.core == index) &&
      !s.replies.any fun r => r.tree.parts.any fun p => p.core == index
  else true

def enabledFreezePointReached (s : State) (kind index : Nat) : Bool :=
  s.host.frozen.any (fun f => f.kind == kind && f.index == index && !f.reached) && atFreezePoint s kind index

def enabledFreezeTimeout (s : State) (kind index : Nat) : Bool :=
  s.host.frozen.any fun f => f.kind == kind && f.index == index && f.reached &&
    decide (f.since + 1000 * s.host.frzmax.toNat ≤ s.now)

/-- `FREEZE_TIMEOUT` (R425). -/
def execFreezeTimeout (kind index : Nat) (s : State) : Out :=
  whenEnabled (enabledFreezeTimeout s kind index) s fun s =>
    let (p, s1) := (thawUnit s kind index).freePayload
    deviceEvent { s1 with host := { s1.host with frzst := setBits s1.host.frzst 62 1 1 } } 0xF5 p

/-! ### Errors (R428, R430) -/

/-- Source `k` of a cluster. -/
def Cluster.src (c : Cluster) (k : Nat) : ErrSrc :=
  { win := vget c.errwin k 0, thr := vget c.errthr k 0, cnt := vget c.errcnt k 0, since := vget c.errSince k 0 }

/-- Source `k` of a cluster replaced. -/
def Cluster.setSrc (c : Cluster) (k : Nat) (e : ErrSrc) : Cluster :=
  { c with errwin := vset c.errwin k e.win, errthr := vset c.errthr k e.thr, errcnt := vset c.errcnt k e.cnt
           errSince := vset c.errSince k e.since }

/-- Spares of a source left: those it had at first, less those in use (R427, R430). -/
def sparesLeft (k : Nat) (e : ErrSrc) : Nat := (Config.spares k).toNat - wbits e.cnt 24 8

/-- A source after an error, and the event it raises (R428). -/
def onError (k : Nat) (e : ErrSrc) (now : Nat) : ErrSrc × Option Nat :=
  let (e1, met) := e.hit now
  if !met then (e1, none)
  else if 0 < sparesLeft k e1 then (e1.retire, some 0xF0)
  else (e1, some 0xF1)

/-- An error of a source with no spare left may be one that cannot be corrected; a sector that the manual does not name
then gives the error to the next access, fetch or engine that would use its data (R29, R428, log 10). -/
def spoil (s : State) : State :=
  let (k, s1) := s.choose 2
  if k = 0 then s1 else { s1 with bad := s1.bad ++ [Config.freeChoice s1.tick], tick := s1.tick + 1 }

/-- An error event, if one is raised. -/
def errorEvent (s : State) : Option Nat → State
  | none => s
  | some code =>
    let (p, s1) := s.freePayload
    deviceEvent s1 code p

/-- `ERROR_REPORT` (R428). Sources 0 to 3 are a cluster's, 4 a link lane's by 8·port + lane, 5 a DRAM stack's
(log 10). -/
def execErrorReport (unit source : Nat) (s : State) : Out :=
  fromOutside (.errorReport unit source) s fun s =>
    if source < 4 then
      if 256 ≤ unit then s
      else
        let k := 4 * unit + source
        let (e, ev) := onError k ((s.clusterOf unit).src source) s.now
        let s1 := errorEvent (s.updCluster unit fun c => c.setSrc source e) ev
        if sparesLeft k e = 0 then spoil s1 else s1
    else if source = 4 then
      if 120 ≤ unit then s else countBurst s (unit / 8) (unit % 8)
    else if 8 ≤ unit then s
    else
      let k := 120 + unit
      let (e, ev) := onError (1024 + k) (s.errSrc k) s.now
      let s1 := errorEvent (s.setErr k e) ev
      if sparesLeft (1024 + k) e = 0 then spoil s1 else s1

end Sys2Proof.Machine
end

