-- ==== Sys2Proof/Machine/Sys.lean ====
section
/-!
DEFINITION. The system registers (R55, R231 to R233, R162 to R165, R290, R321, R347, R378, R409, R430) and the two
instructions that reach them.
-/

namespace Sys2Proof.Machine

open Sys2Proof

/-! ### Reading -/

/-- Registers 0x000 to 0x0FF (R231). -/
def identRead (s : State) (h : Here) (lane num : Nat) : Dword :=
  let x := h.g.lane lane
  let w : Word → Dword := fun v => v.zx
  let n : Nat → Dword := BitVec.ofNat 64
  match num with
  | 0x000 => n lane
  | 0x001 => n (h.g.num % 32 + (if h.g.consumer then 256 else 0) + h.g.sched % 4 * 1024 + h.g.slot % 16 * 4096)
  | 0x002 => n h.t.teamNo
  | 0x003 => n h.t.nteams
  | 0x004 => w h.t.gridId
  | 0x005 => n (h.t.core % 2048)
  | 0x006 => n (if h.t.launch.factor4 then 2 ^ 31 + h.t.teamNo % 4 else 0)
  | 0x007 => n h.g.window
  | 0x008 => n h.t.scrSize
  | 0x009 => n h.t.nsub
  | 0x00A => n h.t.sclass
  | 0x010 => h.t.gridBar
  | 0x011 => x.stackLo
  | 0x012 => x.stackHi
  | 0x013 => h.t.launch.params
  | 0x020 => w h.g.fpctl
  | 0x021 => w h.g.cbase
  | 0x022 => n (if x.mode then 1 else 0)
  | 0x023 => w h.t.dbgctl
  | 0x030 => h.t.tvec
  | 0x031 => x.epc
  | 0x032 => w x.estatus
  | 0x033 => w x.ecause
  | 0x034 => x.eaddr
  | 0x035 => w x.einfo
  | 0x036 => w x.eclause
  | 0x038 => w (vget x.esave 0 0)
  | 0x039 => w (vget x.esave 1 0)
  | 0x03A => w (vget x.esave 2 0)
  | 0x03B => w (vget x.esave 3 0)
  | 0x040 => n (s.clusterOf (clusterNo h.c.core)).cycles
  | 0x041 => n h.t.launch.saveBase
  | 0x042 => w h.t.preempt
  | 0x043 => w h.t.rederr
  | _ => 0

/-- Registers 0x100 to 0x1FF (R162 to R165). -/
def xlRead (s : State) (h : Here) (num : Nat) : Dword :=
  let c := s.ctxOf h.t.asid
  let k := s.coreOf h.c.core
  match num with
  | 0x100 => BitVec.ofNat 64 (h.t.asid % 4096 * 65536 + c.gen.toNat)
  | 0x101 => c.xlroot
  | 0x102 => if isGuest s.host.mgmt h.t.asid then 0 else c.xls2root
  | 0x103 => if c.bump then 0x8000000000000000 else 0
  | 0x104 => if c.inv then 0x8000000000000000 else 0
  | 0x105 => h.g.xlVa
  | 0x106 => h.g.xlInfo
  | 0x107 => k.cpwin
  | 0x108 => k.cpwinb
  | 0x109 => BitVec.ofNat 64 (s.clusterOf (clusterNo h.c.core)).pinWays
  | _ => if 0x110 ≤ num ∧ num ≤ 0x11F then vget c.cbank (num - 0x110) 0 else 0

/-- LEASEST (R290): whole microseconds of the lease that remain; how a fraction is rounded is not stated, so `up` is a
free value. -/
def leaseStatus (now : Nat) (lease : Option (Nat × Nat)) (up : Nat) : Nat :=
  match lease with
  | none => 0
  | some (e, till) => 2 ^ 31 + e % 16 * 2 ^ 24 + ((till - now) / 1000 + (if (till - now) % 1000 = 0 then 0 else up)) % 2 ^ 20

/-- Registers 0x200 to 0x2FF (R290, R321). -/
def engineRead (s : State) (h : Here) (num up : Nat) : Dword :=
  let w : Word → Dword := fun v => v.zx
  let k := s.coreOf h.c.core
  if num = 0x200 then w h.t.cperr
  else if num = 0x201 then h.t.cperrva
  else if 0x208 ≤ num ∧ num ≤ 0x20F then w (vget h.t.fm (num - 0x208) 0)
  else if 0x210 ≤ num ∧ num ≤ 0x217 then w (vget h.t.stages (num - 0x210) {}).cfg
  else if 0x218 ≤ num ∧ num ≤ 0x21F then w (vget h.t.stages (num - 0x218) {}).arr
  else if num = 0x220 then BitVec.ofNat 64 (leaseStatus s.now h.t.lease up)
  else if num = 0x240 then h.t.mxshape
  else if num = 0x241 then w h.t.mxstat
  else if num = 0x242 then w h.t.mxerr
  else if num = 0x243 then h.t.qseq
  else if h.c.core % 8 ≠ 0 then 0
  else if num = 0x250 then w k.bqctl
  else if num = 0x251 then k.bqplan
  else if num = 0x252 then BitVec.ofNat 64 (k.bqrows.length * 65536 + wbits k.bqstat 0 16)
  else 0

/-- Registers 0x300 to 0x3FF (R347). -/
def sliceRead (s : State) (h : Here) (lane num : Nat) : Dword :=
  let x := h.g.lane lane
  let c := s.ctxOf h.t.asid
  match num with
  | 0x300 => c.slheap
  | 0x301 => (c.slheapcfg : Word).zx
  | 0x310 => x.sp.setWidth 64
  | 0x311 => x.fp.setWidth 64
  | 0x312 => match x.marks with
    | m :: _ => BitVec.ofNat 64 (m.id.toNat * 2 ^ 48 + m.depth.toNat)
    | [] => 0
  | _ => 0

/-- Registers 0x500 to 0x5FF (R409, R410). -/
def fabricRead (s : State) (h : Here) (lane num : Nat) : Dword :=
  let w : Word → Dword := fun v => v.zx
  let c := s.ctxOf h.t.asid
  match num with
  | 0x500 => w s.fabric.fxdev
  | 0x501 => w (fxReach s)
  | 0x502 => w c.fxjob
  | 0x503 => c.fxwin
  | 0x504 => c.fxwinsz
  | 0x505 => BitVec.ofNat 64 (max 1 (wbits s.fabric.fxrto 0 16))
  | 0x506 => w h.t.fxerr
  | 0x508 => w (h.g.lane lane).rgStatus
  | 0x509 => w h.g.rgfail
  | _ => if 0x510 ≤ num ∧ num ≤ 0x51E then w (fxLink s (num - 0x510)) else 0

/-- ERRCNT as it reads: spares left, retirements, and the errors counted in the current window (R428, R430). -/
def errCount (k : Nat) (e : ErrSrc) (now : Nat) : Word :=
  let w := 1000 * max 1 (wbits e.win 0 20)
  BitVec.ofNat 32 (sparesLeft k e % 256 * 2 ^ 24 + wbits e.cnt 16 8 * 2 ^ 16 +
    (if now / w = e.since / w then wbits e.cnt 0 16 else 0))

/-- Registers 0x600 to 0x6FF of a cluster (R430). -/
def clusterRead (s : State) (cl num : Nat) : Word :=
  let c := s.clusterOf cl
  if num = 0x600 then BitVec.ofNat 32 ((if c.change.isSome then 2 ^ 31 else 0) + c.capNow * 65536 + c.step)
  else if num = 0x601 then c.margin.setWidth 32
  else if num = 0x602 then BitVec.ofNat 32 c.lowCap
  else if num = 0x603 then BitVec.ofNat 32 (max 8 (wbits c.droopth 0 8))
  else if num = 0x604 then c.droopcnt
  else if 0x610 ≤ num ∧ num ≤ 0x613 then BitVec.ofNat 32 (max 1 (wbits (vget c.errwin (num - 0x610) 0) 0 20))
  else if 0x614 ≤ num ∧ num ≤ 0x617 then BitVec.ofNat 32 (wbits (vget c.errthr (num - 0x614) 0) 0 16)
  else if 0x618 ≤ num ∧ num ≤ 0x61B then errCount (4 * cl + (num - 0x618)) (c.src (num - 0x618)) s.now
  else 0

/-- A system register as one fibre reads it; a number that names none reads 0 (R55). -/
def sysRead (s : State) (h : Here) (lane num up : Nat) : Dword :=
  if num < 0x100 then identRead s h lane num
  else if num < 0x200 then xlRead s h num
  else if num < 0x300 then engineRead s h num up
  else if num < 0x400 then sliceRead s h lane num
  else if num < 0x500 then govRead s h.t.asid num
  else if num < 0x600 then fabricRead s h lane num
  else (clusterRead s (clusterNo h.c.core) num : Word).zx

/-- `RDSYS` (R55, R233): each active fibre reads its own fibre-held values, and its group's, team's, context's, core's
and region's. -/
def execRdsys (d : Dst) (n : BitVec 12) (s : State) : Out :=
  issue (.rdsys d n) s fun h =>
    if 0x700 ≤ n.toNat then s.fault h.c h.act fIllegalSysreg n.toNat
    else
      let (up, s1) := if n.toNat = 0x220 then s.choose 2 else (0, s)
      let vals := (lanesOf h.act).map fun i => (i, (sysRead s h i n.toNat up).toNat)
      (s1.updGroup h.g.gid fun g => g.writeDst d (sysKind n (Dst.even d)).regs h.lead vals).advance h.c 1

/-! ### Writing -/

/-- Registers that user mode may write. -/
def userWrites (n : Nat) : Bool :=
  n ∈ [0x020, 0x021, 0x043, 0x200, 0x241, 0x242, 0x310, 0x311, 0x401, 0x506] || (0x208 ≤ n && n ≤ 0x21F)

/-- Registers held per fibre: each active fibre writes its own (R233). -/
def fibreHeld (n : Nat) : Bool :=
  n ∈ [0x031, 0x032, 0x033, 0x034, 0x035, 0x036, 0x038, 0x039, 0x03A, 0x03B, 0x310, 0x311]

/-- A write of a fibre-held register (R231, R232, R347). -/
def Fibre.sysWrite (x : Fibre) (n : Nat) (v : Dword) : Fibre :=
  let w : Word := v.setWidth 32
  match n with
  | 0x031 => { x with epc := v }
  | 0x032 => { x with estatus := w &&& 0xF00F }
  | 0x033 => { x with ecause := w &&& 0xFFFF }
  | 0x034 => { x with eaddr := v }
  | 0x035 => { x with einfo := w }
  | 0x036 => { x with eclause := w }
  | 0x038 => { x with esave := vset x.esave 0 w }
  | 0x039 => { x with esave := vset x.esave 1 w }
  | 0x03A => { x with esave := vset x.esave 2 w }
  | 0x03B => { x with esave := vset x.esave 3 w }
  | 0x310 => { x with sp := v.setWidth 56 }
  | 0x311 => { x with fp := v.setWidth 56 }
  | _ => x

/-- A write of a register that counts what was lost: a 1 in V clears V and the count (R231, R291, R321, R409). -/
def clearLost (old w : Word) : Word := if w.getLsbD 15 then old &&& 0x7FFF else old

/-- A write of FPCTL: RM is stored, and each 1 among the sticky bits clears that bit (R117). -/
def fpctlWrite (old w : Word) : Word := (old &&& ~~~w &&& 0x3F00) ||| (w &&& 3)

/-- A write of a register of a team (R231, R290, R321, R409). -/
def teamWrite (s : State) (tid n : Nat) (v : Dword) : State :=
  let w : Word := v.setWidth 32
  let upd := fun f => s.updTeam tid f
  if n = 0x030 then upd fun t => { t with tvec := v }
  else if n = 0x043 then upd fun t => { t with rederr := clearLost t.rederr w }
  else if n = 0x200 then upd fun t => { t with cperr := clearLost t.cperr w }
  else if 0x208 ≤ n ∧ n ≤ 0x20F then setFmt s tid (n - 0x208) w
  else if 0x210 ≤ n ∧ n ≤ 0x217 then setStage s tid (n - 0x210) w
  else if 0x218 ≤ n ∧ n ≤ 0x21F then
    upd fun t => { t with stages := vset t.stages (n - 0x218) { vget t.stages (n - 0x218) {} with arr := w } }
  else if n = 0x241 then upd fun t => { t with mxstat := t.mxstat &&& ~~~(w &&& 7) }
  else if n = 0x242 then upd fun t => { t with mxerr := clearLost t.mxerr w }
  else if n = 0x506 then upd fun t => { t with fxerr := clearLost t.fxerr w }
  else s

/-- A write of a register of a cluster (R162, R430). -/
def clusterWrite (s : State) (cl n : Nat) (w : Word) : State :=
  let upd := fun f => s.updCluster cl f
  if n = 0x602 then upd fun c => { c with mgcap := wbits w 0 4 }
  else if n = 0x603 then upd fun c => { c with droopth := w &&& 0xFF }
  else if n = 0x604 then upd fun c => { c with droopcnt := 0 }
  else if 0x610 ≤ n ∧ n ≤ 0x613 then upd fun c => { c with errwin := vset c.errwin (n - 0x610) (w &&& 0xFFFFF) }
  else if 0x614 ≤ n ∧ n ≤ 0x617 then upd fun c => { c with errthr := vset c.errthr (n - 0x614) (w &&& 0xFFFF) }
  else if 0x618 ≤ n ∧ n ≤ 0x61B then
    upd fun c => { c with errcnt := vset c.errcnt (n - 0x618) (vget c.errcnt (n - 0x618) 0 &&& 0xFF000000) }
  else s

/-- A command of XLINV by a context (R161, R164): ignored while BUSY. -/
def xlinvCommand (s : State) (asid : Nat) (v : Dword) : State :=
  if (s.ctxOf asid).inv then s
  else match dbits v 61 2 with
    | 0 => invPage s (dbits v 0 12) (dbits v 16 40)
    | 1 => invAsid s (dbits v 0 12)
    | 2 => invAll s
    | _ => invStage2 s asid

/-- A write of a register of a context (R162, R165, R347, R409). The stage-2 root is written through the management
window only. -/
def ctxWrite (s : State) (asid n : Nat) (v : Dword) : State :=
  let upd := fun f => s.updCtx asid f
  if n = 0x101 then upd fun c => { c with xlroot := BitVec.ofNat 64 (dbits v 8 44 * 256) }
  else if n = 0x103 then (if v.getLsbD 0 then bumpGen s asid else s)
  else if n = 0x104 then xlinvCommand s asid v
  else if 0x110 ≤ n ∧ n ≤ 0x11F then
    upd fun c => { c with cbank := vset c.cbank (n - 0x110) (v &&& 0xFFFFFFFFFFFFFF01) }
  else if n = 0x300 then
    upd fun c => if heapOn c then c else { c with slheap := BitVec.ofNat 64 (dbits v 16 40 * 65536) }
  else if n = 0x502 then upd fun c => { c with fxjob := BitVec.ofNat 32 (dbits v 0 16) }
  else if n = 0x503 then upd fun c => { c with fxwin := BitVec.ofNat 64 (dbits v 16 40 * 65536) }
  else if n = 0x504 then upd fun c => { c with fxwinsz := BitVec.ofNat 64 (dbits v 0 48) }
  else s

/-- A write of a register of a core or its cluster (R163, R162, R321). -/
def coreWrite (s : State) (core asid n : Nat) (v : Dword) : State :=
  let k := s.coreOf core
  if n = 0x107 then setCpwin s core v k.cpwinb
  else if n = 0x108 then setCpwin s core k.cpwin v
  else if n = 0x109 then s.updCluster (clusterNo core) fun c => { c with pinWays := min 12 (dbits v 0 4) }
  else if n = 0x250 then setBqctl s core asid (v.setWidth 32)
  else if n = 0x251 then
    (if core % 8 = 0 then s.updCore core fun k => { k with bqplan := BitVec.ofNat 64 (dbits v 0 56) } else s)
  else if 0x600 ≤ n then clusterWrite s (clusterNo core) n (v.setWidth 32)
  else s

/-- A write of a register that is not held per fibre: the value of the lowest active fibre, once per packet (R233). A
register that may not be written, and a number that names none, ignore it (R55, R231). -/
def sysWrite (s : State) (h : Here) (n : Nat) (v : Dword) : State :=
  if n = 0x020 then s.updGroup h.g.gid fun g => { g with fpctl := fpctlWrite g.fpctl (v.setWidth 32) }
  else if n = 0x021 then s.updGroup h.g.gid fun g => { g with cbase := BitVec.ofNat 32 (dbits v 2 18 * 4) }
  else if n = 0x509 then s.updGroup h.g.gid fun g => { g with rgfail := v.setWidth 32 }
  else if n = 0x505 then { s with fabric := { s.fabric with fxrto := BitVec.ofNat 32 (dbits v 0 16) } }
  else if 0x400 ≤ n ∧ n < 0x500 then govWrite s h.t.asid n v
  else coreWrite (ctxWrite (teamWrite s h.t.tid n v) h.t.asid n v) h.c.core h.t.asid n v

/-- A write completes only when its effect holds (R163, R233): the step that ends it, if that is still to come. -/
def writeWait (s : State) (h : Here) (n : Nat) (v : Dword) : Option Instr :=
  let c := s.ctxOf h.t.asid
  if n = 0x103 then (if v.getLsbD 0 && !c.bump then some (.xlgenBump h.t.asid) else none)
  else if n = 0x104 then (if dbits v 61 2 = 3 && !c.inv then some (.xlinvStage2 h.t.asid) else none)
  else if n = 0x250 then
    (if h.c.core % 8 = 0 && !v.getLsbD 31 &&
        ((!(s.coreOf h.c.core).bqrows.isEmpty) ||
          s.ops.any fun o => o.core == h.c.core && match o.kind with | .batch .. => true | _ => false) then
      some (.bqctlDisable h.c.core 0) else none)
  else none

/-- A write waits: while laws of the last boundary are still to be run, for a register of the governor or one that its
allocation reads, L2PINWAYS and MGCAP (R380, R383); while a page that the core-pinned window gains or loses migrates
(R157, R163). -/
def writeWaits (s : State) (core n : Nat) (v : Dword) : Bool :=
  let k := s.coreOf core
  (s.gvPend && ((0x400 ≤ n && n < 0x500) || n == 0x109 || n == 0x602)) ||
  (n == 0x107 && cpwinWaits s core v k.cpwinb) || (n == 0x108 && cpwinWaits s core k.cpwin v)

/-- `WRSYS` (R55, R231, R233). Some writes wait (R163, R380), as does one that enables a slice heap or a queue until its memory can be reached (R314, R332). -/
def execWrsys (n : BitVec 12) (a : Src) (s : State) : Out :=
  issue (.wrsys n a) s fun h =>
    if 0x700 ≤ n.toNat then s.fault h.c h.act fIllegalSysreg n.toNat
    else if h.user && !userWrites n.toNat then s.fault h.c h.act fPrivilege
    else withOperands (.wrsys n a) s h fun ins s =>
      let v := ((ins.head?).map fun (x : LaneIn) => x.s 0).getD 0
      if writeWaits s h.c.core n.toNat v then s.hold h.c h.t.asid []
      else if n.toNat = 0x030 && v.toNat % 4 != 0 then
        let f := plainFault fMisalignedTarget 0 (v.toNat % 2 ^ 56)
        s.trapPacket h.c h.act f (allOwn h.act f)
      else if n.toNat = 0x250 && bqctlWaits s h.c.core h.t.asid (v.setWidth 32) then s.hold h.c h.t.asid []
      else if n.toNat = 0x301 then
        match setSlheapcfg s h.t.asid (v.setWidth 32) with
        | .trap f own => s.trapPacket h.c h.act f own
        | .hold w => s.hold h.c h.t.asid w
        | .ok s1 => s1.advance h.c (Instr.wrsys n a).words
      else if fibreHeld n.toNat then
        (s.updGroup h.g.gid fun g => ins.foldl (fun (g : Group) x =>
          g.setLane x.lane ((g.lane x.lane).sysWrite n.toNat (x.s 0))) g).advance h.c (Instr.wrsys n a).words
      else
        let s1 := (sysWrite s h n.toNat v).advance h.c (Instr.wrsys n a).words
        match writeWait s h n.toNat v with
        | none => s1
        | some i => (s1.addOp { mkOp (.wrsys n a) h s (.stageWait i 0) [] with
            flags := [], holds := true, still := 0 }).dropLanes h.g.gid h.act

end Sys2Proof.Machine
end

