-- ==== Sys2Proof/Machine/Attach.lean ====
section
/-!
DEFINITION. The host attachment: RMA on memory windows (R415 to R417), the management window (R418 to R430), and where
its registers lie. What the manual does not lay out there is log 10.
-/

namespace Sys2Proof.Machine

open Sys2Proof

/-- An answer to the host. -/
def answer (s : State) (tag : Nat) (ok : Bool) (data : List Byte := []) : State :=
  { s with host := { s.host with answers := s.host.answers ++ [{ tag := tag, ok := ok, data := data }] } }

/-- An access of a memory window that fails: an error completion and the device event (R416). -/
def failAccess (s : State) (tag : Nat) : State :=
  let (p, s1) := s.freePayload
  answer (deviceEvent s1 0xF4 p) tag false

/-- A packet that asks for something the device does not support is dropped and counted (R415): it comes with a key
that no window can have (log 5). -/
def dropPacket (s : State) (tag : Nat) : State :=
  answer { s with host := { s.host with uedrop := s.host.uedrop + 1 } } tag false

/-! ### Memory windows (R416, R417) -/

/-- A memory window: context, base, length, and whether it allows writes and reads. -/
structure Window where
  asid : Nat
  base : Nat
  len : Nat
  w : Bool
  r : Bool
  deriving DecidableEq, Repr

/-- The enabled window of a key. -/
def windowOf (s : State) (key : Nat) : Option Window :=
  let o := 0x40000 + 32 * (key - 1)
  let d := Mem.read64 s.host.mgmt o
  if key = 0 ∨ 256 < key ∨ !d.getLsbD 63 then none
  else some { asid := dbits d 48 12, base := (Mem.read64 s.host.mgmt (o + 8)).toNat
              len := (Mem.read64 s.host.mgmt (o + 16)).toNat, w := d.getLsbD 62, r := d.getLsbD 61 }

/-- Translates and checks the sectors of a host access, the U bit ignored (R416). `none` while it waits; no sectors
when a check fails, and a guest's failure in stage 2 is in its hypervisor's log (R424). -/
def hostXlate (asid : Nat) (k : AccKind) :
    List (Nat × Nat) → List (Trans × Nat × Nat) → State → Option (Option (List (Trans × Nat × Nat)) × State)
  | [], acc, s => some (some acc.reverse, s)
  | (va, n) :: r, acc, s =>
    if isRemote va then some (none, s)
    else match xlateNow s asid va k false with
      | none => none
      | some (.error f) => some (none, match f.gpa with
        | some gpa => stage2Log s asid gpa
        | none => s)
      | some (.ok t) =>
        if lineMoving s t then none else hostXlate asid k r ((t, va, n) :: acc) (s.accessed asid va)

/-- An access of `n` bytes at an offset of a window: checked whole, then done; a failed one has no effect but its
report. -/
def hostAccess (s : State) (key off n tag : Nat) (k : AccKind) (allowed : Window → Bool)
    (f : Window → List (Trans × Nat × Nat) → State → State) : Option State :=
  match windowOf s key with
  | none => some (failAccess s tag)
  | some w =>
    if w.len ≤ off ∨ w.len < off + n ∨ !allowed w ∨ 2 ^ 56 < w.base + off + n then some (failAccess s tag)
    else match hostXlate w.asid k (sectorPieces (w.base + off) n) [] s with
      | none => none
      | some (none, s1) => some (failAccess s1 tag)
      | some (some l, s1) => some (f w l s1)

/-- A put to a memory window: performed at the homes, then reported (R416). -/
def windowPut (s : State) (key off : Nat) (data : List Byte) (tag : Nat) : Option State :=
  hostAccess s key off data.length tag .store (·.w) fun w l s =>
    let s1 := l.foldl (fun (s : State) p =>
      s.writeHome p.1 ((data.drop (p.2.1 - (w.base + off))).take p.2.2)) s
    answer s1 tag true

/-- Reads sectors in order until one holds an uncorrectable error. No instance owns the transfer: the get fails as a check
does, with device event 0x00F4 (R29, log 26). -/
def hostRead : List (Trans × Nat × Nat) → List Byte → State → Option (List Byte) × State
  | [], acc, s => (some acc, s)
  | (t, _, n) :: r, acc, s => match badSector s t.key with
    | (true, s1) => (none, s1)
    | (false, s1) => hostRead r (acc ++ Mem.read s1.mem t.key n) (s1.l2Place t false none)

/-- A get from a memory window (R416). -/
def windowGet (s : State) (key off n tag : Nat) : Option State :=
  hostAccess s key off n tag .load (·.r) fun _ l s =>
    match hostRead l [] s with
    | (some b, s1) => answer s1 tag true b
    | (none, s1) => failAccess s1 tag

/-- The operations that the device performs for Ultra Ethernet (R417). -/
def hostAtomFn : Option AtomFn → Option AtomFn
  | some .add => some .add
  | some .exch => some .exch
  | some .cas => some .cas
  | some .or => some .or
  | _ => none

/-- An atomic on a memory window (R417): an `ATOM` at the home; the answer is the old value. -/
def windowAtomic (s : State) (key off : Nat) (fn : Option AtomFn) (w64 : Bool) (value cmp : Dword) (tag : Nat) :
    Option State :=
  let n := wordBytes w64
  match hostAtomFn fn with
  | none => some (answer s tag false)
  | some fn =>
    if off % n ≠ 0 then some (failAccess s tag)
    else hostAccess s key off n tag .atomic (fun w => w.w && w.r) fun w l s =>
      match l with
      | [] => s
      | (t, _, _) :: _ => match badSector s t.key with
        | (true, s1) => failAccess s1 tag
        | (false, s1) =>
          let (old, s2) := atomHome s1 w.asid (w.base + off) t fn w64 value cmp [value] s1.serial
          answer s2.fresh tag true (leBytes n old.toNat)

/-! ### The management window (R418) -/

/-- A host endpoint may reach the management window: the MGMT bit of its entry (R418). The low byte of a tag names the
endpoint (log 5). -/
def mgmtEndpoint (s : State) (tag : Nat) : Bool :=
  (Mem.read64 s.host.mgmt (0x50000 + 16 * (tag % 256))).getLsbD 63

/-- Bytes that are 4 or 8 and naturally aligned (R418). -/
abbrev mgmtSize (off n : Nat) : Bool := (n == 4 || n == 8) && off % n == 0

/-- The capability list in 8-byte words (R427): for each entry its header and its contents. Error sources stand with
their spares: four of every cluster, the 120 link lanes, and the 8 DRAM stacks (log 10). -/
def capabilities (s : State) : List Nat :=
  let entry := fun (id next : Nat) (l : List Nat) =>
    (id * 2 ^ 48 + (Config.capVersion id).toNat * 2 ^ 40 + (8 * l.length + 8) * 2 ^ 24 + next) :: l
  entry 1 72 ((List.range 8).map fun k => (Config.sliceMask k).toNat) ++
  entry 2 104 [0x10000, 0x20000, 0x30000] ++
  entry 3 9328 ((List.range 1152).map fun k => k * 2 ^ 32 + (Config.spares k).toNat) ++
  entry 4 9344 [s.sec.fwVersion % 2 ^ 32 + s.sec.counter % 2 ^ 32 * 2 ^ 32] ++
  entry 5 0 [2 ^ 64 - 1]

/-- A word of a Crozier block (R373). -/
def crozRead (s : State) (die o : Nat) : Nat :=
  let c := s.crozOf die
  if o < 0x200 then
    let a := vget c.arenas (o / 32) {}
    match o % 32 / 8 with
    | 0 => a.base.toNat
    | 1 => a.size.toNat
    | 2 => a.pool.toNat
    | _ => a.own.toNat + (wbits a.own 8 12 - a.taken.length) * 2 ^ 32
  else if o = 0x200 then (vget c.prlat 0 0).toNat + (vget c.prlat 1 0).toNat * 2 ^ 32
  else if o = 0x208 then (vget c.prlat 2 0).toNat + (vget c.prlat 3 0).toNat * 2 ^ 32
  else if o = 0x210 then max 1 c.savebw.toNat + c.block.toNat * 2 ^ 32
  else if o = 0x218 then
    (c.running.filter fun r => !r.waits).length % 65536 + (c.ready.length + (c.running.filter Running.waits).length) % 65536 * 65536
  else 0

/-- A write of a word of a Crozier block (R373): an arena's registers only while its EN is 0, but for the write that
clears EN. -/
def crozWrite (s : State) (die o v : Nat) : State :=
  let upd := fun f => s.updCroz die f
  let half := fun (k : Nat) => BitVec.ofNat 32 (nbits v (32 * k) 16)
  if o < 0x200 then
    let k := o / 32
    let a := vget (s.crozOf die).arenas k {}
    let put := fun (a : Arena) => upd fun c => { c with arenas := vset c.arenas k a }
    if a.size.getLsbD 63 then (if o % 32 = 8 && !v.testBit 63 then arenaOff s die k (BitVec.ofNat 64 v) else s)
    else match o % 32 / 8 with
      | 0 => put { a with base := BitVec.ofNat 64 (nbits v 0 56) }
      | 1 => put { a with size := BitVec.ofNat 64 (v % 2 ^ 44 + (if v.testBit 63 then 2 ^ 63 else 0)) }
      | 2 => put { a with pool := BitVec.ofNat 64 (nbits v 0 56) }
      | _ => put { a with own := BitVec.ofNat 32 v }
  else if o = 0x200 then upd fun c => { c with prlat := vset (vset c.prlat 0 (half 0)) 1 (half 1) }
  else if o = 0x208 then upd fun c => { c with prlat := vset (vset c.prlat 2 (half 0)) 3 (half 1) }
  else if o = 0x210 then upd fun c => { c with savebw := BitVec.ofNat 32 v, block := half 1 }
  else s

/-- The bits that a word of a table keeps (R416, R418, R422). -/
def tableMask (o : Nat) : Nat :=
  if o < 0x50000 then
    (match o % 32 / 8 with
     | 0 => 0xEFFF000000000000
     | 3 => 0
     | _ => 2 ^ 64 - 1)
  else if o < 0x60000 then (if o = 0x50018 then 0 else 2 ^ 64 - 1)
  else
    let p := o % 0x1000
    if p < 0x020 then 2 ^ 64 - 1
    else if p = 0x020 then 0xFFF
    else if p = 0x028 ∨ p = 0x030 then 2 ^ 64 - 1
    else if p < 0x800 then 0
    else match p % 32 / 8 with
      | 0 => 0x80000FFF
      | 3 => 0
      | _ => 2 ^ 64 - 1

/-- A word of a context's entry (R422; its layout is log 10). -/
def ctxEntryRead (s : State) (asid o : Nat) : Nat :=
  let c := s.ctxOf asid
  if o = 0 then c.cls % 4 + c.home % 2 ^ 11 * 4 + (if c.privileged then 2 ^ 13 else 0) + c.partition % 32 * 2 ^ 14
  else if o = 8 then c.tvec.toNat
  else if o = 24 then c.xlroot.toNat
  else if o = 32 then c.xls2root.toNat
  else 0

/-- A write of a word of a context's entry: its class, home, mode and partition; TVEC; the command word; the roots; a
code region that is registered (R31, R422). -/
def ctxEntryWrite (s : State) (asid o v : Nat) : State :=
  let upd := fun f => s.updCtx asid f
  if o = 0 then upd fun c => { c with
    cls := v % 4, home := nbits v 2 11, privileged := v.testBit 13, partition := nbits v 14 5 }
  else if o = 8 then upd fun c => { c with tvec := BitVec.ofNat 64 v }
  else if o = 16 then (if v = 1 then removeCtx s asid else if v = 2 then restoreCtx s asid else s)
  else if o = 24 then upd fun c => { c with xlroot := BitVec.ofNat 64 (nbits v 8 44 * 256) }
  else if o = 32 then upd fun c => { c with xls2root := BitVec.ofNat 64 (nbits v 8 44 * 256) }
  else if o = 40 then upd fun c => { c with regions := v :: c.regions }
  else s

/-- A word that the manual does not describe reads as a free value. -/
def freeRead (s : State) : Nat × State :=
  let (p, s1) := s.freePayload
  (p.toNat, s1)

/-- The public key of the identity key: the coordinates of its point, 66 bytes each (R432). -/
def publicKey : List Byte :=
  match mulPoint 521 (Config.identityKey % n521) (some g521) with
  | none => []
  | some (x, y) => beBytes 66 x ++ beBytes 66 y

/-- The security block: the public key, the certificate and the last report can be read (R432, R433; where is log 10). -/
def securityRead (s : State) (o : Nat) : Nat × State :=
  let read := fun (l : List Byte) (base : Nat) => (leNat ((l.drop (o - base)).take 8), s)
  if o < 0x88 then read publicKey 0
  else if 0x1000 ≤ o ∧ o < 0x1000 + s.sec.report.length then read s.sec.report 0x1000
  else if 0x2000 ≤ o ∧ o < 0x2000 + Config.certificate.length then read Config.certificate 0x2000
  else freeRead s

/-! ### Readback apertures (R426) -/

/-- A resident team as a save area would hold it (R239). -/
def residentImage (s : State) (t : Team) : List Byte :=
  let t1 := t.saved (s.coreOf t.core) (s.teamGroups t.tid)
  padTo 256 ((List.range 12).map Config.freeByte ++ leBytes 4 t1.parkedReds.length) ++
    teamSections t1 (savedWaits s t.tid) ++ Mem.read t.scratch 0 t.scrSize ++
    ((List.range t.nsub).flatMap fun k => (t.sub k).flatMap fun w => leBytes 4 w.toNat) ++ restartRecords t (savedAgain s t.tid)

/-- A translation as a leaf (R156). -/
def Trans.leaf (t : Trans) : Nat :=
  (if t.home = 1 ∨ t.home = 2 then t.target else 0) * 2 ^ 53 + t.pa / 2 ^ 16 % 2 ^ 36 * 2 ^ 16 + t.home.toNat * 2 ^ 14 + bitNat t.x 8 +
    bitNat t.w 7 + bitNat t.r 6 + bitNat t.u 5 + 0x19

/-- The requester that a request's part stands for, as a number. -/
abbrev ReqPart.number (p : ReqPart) : Nat :=
  match p.frm with
  | .lanes op _ => op
  | .red tid _ => tid
  | .engine => 0
  | .commit op _ _ => op
  | .remote id _ => id

/-- The Sorus records of a request: address, first operand, the two requesters, and the parity (R181, R426). -/
def sorusBytes (va : Nat) : ReqTree → List Byte
  | .part _ => []
  | .join _ a b =>
    let id := fun (t : ReqTree) => ((t.parts.head?).map ReqPart.number).getD 0
    leBytes 8 va ++ leBytes 8 a.sum.toNat ++ leBytes 8 (id a) ++ leBytes 8 (id b) ++
      leBytes 8 (bitNat (parity64 (BitVec.ofNat 64 va ^^^ a.sum)) 0) ++ sorusBytes va a ++ sorusBytes va b

/-- What a unit's aperture presents (R426). The places of fields that no chapter lays out are log 15. -/
def apertureBytes (s : State) (kind index : Nat) : List Byte :=
  match kind with
  | 0 =>
    let k := s.coreOf index
    ((s.teams.filter fun t => t.core = index && t.resident).flatMap (residentImage s)) ++
      (k.rlt.flatMap fun r => leBytes 1 r.entry ++ leBytes 1 (bitNat r.dest 0) ++ leBytes 2 (r.asid.getD 0xFFFF) ++
        leBytes 4 r.op ++ leBytes 8 r.lo ++ leBytes 8 r.hi) ++
      (k.tlb.flatMap fun e => leBytes 8 e.tr.leaf ++ leBytes 8 e.page ++ leBytes 8 (e.asid * 2 ^ 16 + e.tr.gen.toNat))
  | 1 =>
    let c := s.crozOf index
    ((List.range 4).flatMap fun cls =>
      let l := c.ready.filter fun r => r.cls = cls
      leBytes 8 l.length ++ l.flatMap fun r => leBytes 8 r.node) ++
      c.running.flatMap fun r => leBytes 8 r.node ++ leBytes 8 r.todo.length
  | 2 => s.ctxs.flatMap loopRecord
  | 3 =>
    ((s.reqs.filter fun r => homeOf r.tr = index).flatMap fun r => sorusBytes r.va.toNat r.tree) ++
      ((s.replies.filter fun r => r.line < 2 ^ 48 && sliceHash (256 * r.line) = index).flatMap fun r =>
        sorusBytes (256 * r.line) r.tree) ++
      ((s.touches.filter fun l => sliceHash (256 * l.line) = index && l.holder != index).flatMap fun l =>
        leBytes 8 (256 * l.line) ++ leBytes 8 l.holder) ++
      ((s.monitors.filter fun m => m.slice = index).flatMap fun m => leBytes 8 m.pa ++ leBytes 8 m.gid) ++
      (List.range 4).flatMap fun k => leBytes 4 (clusterRead s index (0x618 + k)).toNat
  | _ => []

/-- A frozen unit's aperture reads as the instant of its freeze point (R426). -/
def apertureNow (s : State) (kind index : Nat) : List Byte :=
  match s.host.frozen.find? fun f => f.reached && f.kind == kind && f.index == index with
  | some f => f.image
  | none => apertureBytes s kind index

/-- `FREEZE_POINT_REACHED` (R425, R426). -/
def execFreezePointReached (kind index : Nat) (s : State) : Out :=
  whenEnabled (enabledFreezePointReached s kind index) s fun s =>
    { s with host := { s.host with
        frzst := setBits s.host.frzst 62 2 2
        frozen := s.host.frozen.map fun f =>
          if f.kind = kind ∧ f.index = index then
            { f with reached := true, since := s.now, image := apertureBytes s kind index } else f } }

/-- A word of the readback apertures; where each unit's lies, and what stands past its content, the manual does not
state (log 10). -/
def apertureRead (s : State) (b : Nat) : Nat × State :=
  let (kind, index, off) := Config.aperture b
  let l := ((apertureNow s kind index).drop off).take 8
  if l.length = 8 then (leNat l, s) else freeRead s

/-! ### Reads and writes of the management window -/

/-- An aligned 8-byte word of the management window, as it reads. -/
def mgmtReadWord (s : State) (b : Nat) : Nat × State :=
  if b < 0x10000 then (((capabilities s)[b / 8]?).getD 0, s)
  else if b < 0x18000 then (crozRead s ((b - 0x10000) / 0x1000) (b % 0x1000), s)
  else if b < 0x20000 then (0, s)
  else if b < 0x30000 then (if b = 0x20008 then (dbgStatus s).toNat else 0, s)
  else if b < 0x40000 then
    (if b = 0x30000 then wbits s.fabric.fxdev 0 8
     else if 0x30100 ≤ b ∧ b < 0x30300 then (vget s.fabric.jobs ((b - 0x30100) / 8) 0).toNat else 0, s)
  else if b < 0x70000 then (if b = 0x50010 then s.host.uedrop.toNat else (Mem.read64 s.host.mgmt b).toNat, s)
  else if b < 0x90000 then
    (if b = 0x80008 then s.host.frzst.toNat else if b = 0x80010 then s.host.frzmax.toNat else 0, s)
  else if b < 0x100000 then
    let n := (b - 0x90000) / 16
    let e := s.errSrc n
    (if 128 ≤ n then 0
     else if b % 16 = 0 then max 1 (wbits e.win 0 20) + wbits e.thr 0 16 * 2 ^ 32
     else (errCount (1024 + n) e s.now).toNat, s)
  else if b < 0x200000 then
    ((clusterRead s ((b - 0x100000) / 0x1000) (0x600 + b % 0x1000 / 8)).toNat, s)
  else if b < 0x400000 then securityRead s (b - 0x200000)
  else if b < 0x440000 then (ctxEntryRead s ((b - 0x400000) / 64) (b % 64), s)
  else if b < 0x1000000 then (0, s)
  else apertureRead s b

/-- A write of an aligned 8-byte word of the management window; `low` and `high` say which halves are written. -/
def mgmtWriteWord (s : State) (b v : Nat) (low : Bool) : State :=
  if b < 0x10000 then s
  else if b < 0x18000 then crozWrite s ((b - 0x10000) / 0x1000) (b % 0x1000) v
  else if b < 0x20000 then s
  else if b < 0x30000 then (if b = 0x20000 then dbgCommand s (BitVec.ofNat 64 v) else s)
  else if b < 0x40000 then
    (if b = 0x30000 then (if low then setFxcfg s (BitVec.ofNat 32 v) else s)
     else if 0x30100 ≤ b ∧ b < 0x30300 then setJob s ((b - 0x30100) / 8) (BitVec.ofNat 64 v) else s)
  else if b < 0x70000 then
    (if b = 0x50010 then s
     else { s with host := { s.host with mgmt := Mem.write s.host.mgmt b (leBytes 8 (v &&& tableMask b)) } })
  else if b < 0x90000 then
    (if b = 0x80000 then freezeCommand s (BitVec.ofNat 64 v)
     else if b = 0x80010 then { s with host := { s.host with frzmax := BitVec.ofNat 32 v } } else s)
  else if b < 0x100000 then
    let n := (b - 0x90000) / 16
    let e := s.errSrc n
    if 128 ≤ n then s
    else if b % 16 = 0 then s.setErr n { e with win := BitVec.ofNat 32 (v % 2 ^ 20), thr := BitVec.ofNat 32 (nbits v 32 16) }
    else s.setErr n { e with cnt := e.cnt &&& 0xFF000000 }
  else if b < 0x200000 then
    (if low then clusterWrite s ((b - 0x100000) / 0x1000) (0x600 + b % 0x1000 / 8) (BitVec.ofNat 32 v) else s)
  else if b < 0x400000 then s
  else if b < 0x440000 then ctxEntryWrite s ((b - 0x400000) / 64) (b % 64) v
  else s

/-- A put of 4 or 8 aligned bytes: the half that is not written keeps what it holds. -/
def mgmtPut (s : State) (off : Nat) (data : List Byte) : State :=
  let b := off / 8 * 8
  let x := leNat data
  if data.length = 8 then mgmtWriteWord s b x true
  else
    let (old, s1) := mgmtReadWord s b
    if off % 8 = 0 then mgmtWriteWord s1 b (old / 2 ^ 32 * 2 ^ 32 + x) true
    else mgmtWriteWord s1 b (old % 2 ^ 32 + x * 2 ^ 32) false

/-- A put to registers that the laws and the allocator use, MGCAP among them, or to the job table, waits while laws of the
last boundary are still to be run (R380, R421); a context's command while its loop record's page migrates (R157). -/
def mgmtWaits (s : State) (off : Nat) : Bool :=
  (s.gvPend && ((0x30100 ≤ off && off < 0x30300) || (0x400000 ≤ off && off < 0x440000) ||
    (0x60000 ≤ off && off < 0x70000) || (0x100000 ≤ off && off < 0x200000 && off % 0x1000 / 8 == 2))) ||
  (0x400000 ≤ off && off < 0x440000 && off % 64 / 8 == 2 && loopWaits s ((off - 0x400000) / 64))

/-- A put to the management window and its answer. -/
def mgmtAccess (s : State) (off : Nat) (data : List Byte) (tag : Nat) : Option State :=
  if !mgmtSize off data.length then some (answer s tag false)
  else if mgmtWaits s off then none
  else some (answer (mgmtPut s off data) tag true)

/-- A get of 4 or 8 aligned bytes of the management window. -/
def mgmtGet (s : State) (off n tag : Nat) : State :=
  if !mgmtSize off n then answer s tag false
  else
    let (x, s1) := mgmtReadWord s (off / 8 * 8)
    answer s1 tag true (leBytes n (x / 2 ^ (8 * (off % 8))))

/-! ### The steps -/

/-- A step of the host that may have to wait: it is the oldest event not yet delivered, and it can be done. -/
def hostStep (i : Instr) (s : State) (f : State → Option State) : Out :=
  if (f s).isNone then .fault .notEnabled else fromOutside i s fun s => (f s).getD s

/-- Is a key one of a packet that the device does not support. -/
abbrev unsupported (key : Nat) : Bool := 65536 ≤ key

def putResult (key off : Nat) (data : List Byte) (tag : Nat) (s : State) : Option State :=
  if unsupported key then some (dropPacket s tag)
  else if key = 0 then (if mgmtEndpoint s tag then mgmtAccess s off data tag else some (answer s tag false))
  else windowPut s key off data tag

def getResult (key off n tag : Nat) (s : State) : Option State :=
  if unsupported key then some (dropPacket s tag)
  else if key = 0 then some (if mgmtEndpoint s tag then mgmtGet s off n tag else answer s tag false)
  else windowGet s key off n tag

def atomicResult (key off : Nat) (fn : Option AtomFn) (w64 : Bool) (value cmp : Dword) (tag : Nat) (s : State) :
    Option State :=
  if unsupported key then some (dropPacket s tag)
  else if key = 0 then some (answer s tag false)
  else windowAtomic s key off fn w64 value cmp tag

/-- `HOST_RMA_PUT` (R415, R416, R418). -/
def execHostRmaPut (key off : Nat) (data : List (BitVec 8)) (tag : Nat) (s : State) : Out :=
  hostStep (.hostRmaPut key off data tag) s (putResult key off data tag)

/-- `HOST_RMA_GET` (R415, R416, R418). -/
def execHostRmaGet (key off size tag : Nat) (s : State) : Out :=
  hostStep (.hostRmaGet key off size tag) s (getResult key off size tag)

/-- `HOST_RMA_ATOMIC` (R417). -/
def execHostRmaAtomic (key off : Nat) (fn : Option AtomFn) (w64 : Bool) (value cmp : Dword) (tag : Nat) (s : State) :
    Out :=
  hostStep (.hostRmaAtomic key off fn w64 value cmp tag) s (atomicResult key off fn w64 value cmp tag)

/-- `MGMT_WRITE` (R418): a put that the endpoint check has let through, or the boot firmware's (log 5). -/
def execMgmtWrite (off : Nat) (data : List (BitVec 8)) (tag : Nat) (s : State) : Out :=
  hostStep (.mgmtWrite off data tag) s fun s => mgmtAccess s off data tag

end Sys2Proof.Machine
end

