-- ==== Sys2Proof/Machine/Float.lean ====
section
/-!
DEFINITION. Class F: floating and tapered arithmetic in registers (R116 to R146).
-/

namespace Sys2Proof.Machine

open Sys2Proof

/-- The rounding direction of a field: FPCTL.RM when dynamic (R118). -/
def rmOf (fpctl : Word) : Rnd → RM
  | .rne => .rne
  | .rtz => .rtz
  | .rdn => .rdn
  | .rup => .rup
  | .dyn => match wbits fpctl 0 2 with | 0 => .rne | 1 => .rtz | 2 => .rdn | _ => .rup

/-- Sign negation of an f32 or an f64 source by a modifier (R131). -/
abbrev negIf (f : Fmt) (n : Bool) (b : Nat) : Nat := if n then b ^^^ f.neg true else b
/-- Negation of a tf32 source by a modifier (R131). -/
abbrev tnegIf (n : Bool) (b : Nat) : Nat := if n then tap32.neg b else b

/-- A result and its status flags, as a lane writes them. -/
abbrev outF (r : Nat × BitVec 6) : LaneOut := { val := BitVec.ofNat 64 r.1, fl := r.2 }
/-- A predicate and status flags. -/
abbrev outPF (pd : BitVec 6) (r : Bool × BitVec 6) : LaneOut := { pset := [(pd.toNat, r.1)], fl := r.2 }

/-- Source `k` of a lane as a pattern of 32 bits, and of 64 bits. -/
abbrev LaneIn.f (x : LaneIn) (k : Nat) : Nat := (x.w k).toNat
abbrev LaneIn.d (x : LaneIn) (k : Nat) : Nat := (x.s k).toNat

/-- Lanes computed under the group's rounding direction. -/
abbrev eachRm (rnd : Rnd) (f : RM → LaneIn → LaneOut) : Here → List LaneIn → List LaneOut :=
  fun h l => l.map (f (rmOf h.g.fpctl rnd))

/-- `FCLASS` (R141). -/
def classF32 (b : Nat) : Word :=
  match fmt32.unpack b with
  | .nan sig => if sig then 0x100 else 0x200
  | .inf s => if s then 0x001 else 0x080
  | .fin s m _ =>
    if m = 0 then (if s then 0x008 else 0x010)
    else if m < 2 ^ 23 then (if s then 0x004 else 0x020)
    else if s then 0x002 else 0x040

/-- `FKEY` (R146). -/
def keyF32 (a : Word) : Word :=
  match fmt32.unpack a.toNat with
  | .nan _ => 0
  | _ => if a.getLsbD 31 then ~~~a else a ||| 0x80000000

/-- `FCVT` (R130), by its conversion code. -/
def cvtVal (conv : BitVec 4) (rm : RM) (a : Dword) : Nat × BitVec 6 :=
  let w := (a.setWidth 32).toNat
  let d := a.toNat
  let ofI (n : Nat) (r : Int × BitVec 6) : Nat × BitVec 6 := ((r.1 % 2 ^ n).toNat, r.2)
  match conv.toNat with
  | 0x0 => fmt32.convert fmt64 rm w
  | 0x1 => fmt64.convert fmt32 rm d
  | 0x2 => tap32.ofIeee fmt32 w
  | 0x3 => tap32.toIeee fmt32 rm w
  | 0x4 => tap32.ofIeee fmt64 d
  | 0x5 => tap32.toIeee fmt64 rm w
  | 0x6 => ofI 32 (fmt32.toInt rm (-2 ^ 31) (2 ^ 31 - 1) w)
  | 0x7 => ofI 32 (fmt32.toInt rm 0 (2 ^ 32 - 1) w)
  | 0x8 => ofI 64 (fmt64.toInt rm (-2 ^ 63) (2 ^ 63 - 1) d)
  | 0x9 => ofI 64 (fmt64.toInt rm 0 (2 ^ 64 - 1) d)
  | 0xA => ofI 32 (fmt64.toInt rm (-2 ^ 31) (2 ^ 31 - 1) d)
  | 0xB => fmt32.ofInt rm (a.setWidth 32).toInt
  | 0xC => fmt32.ofInt rm w
  | 0xD => fmt64.ofInt rm a.toInt
  | 0xE => fmt64.ofInt rm d
  | _ => fmt64.ofInt rm (a.setWidth 32).toInt

/-- `TCMP` (R145): tf32 words in the order of R125. -/
def tcmpVal (cc : BitVec 2) (a b : Word) : Bool :=
  match cc.toNat with
  | 0 => a = b
  | 1 => a.slt b
  | 2 => !b.slt a
  | _ => a = 0x80000000

/-! ### Meanings -/

def execFadd (d : Dst) (a b : Src) (rnd : Rnd) (s : State) : Out :=
  vecExec (.fadd d a b rnd) (eachRm rnd fun rm x => outF (fmt32.add rm false (x.f 0) (x.f 1))) s
def execFsub (d : Dst) (a b : Src) (rnd : Rnd) (s : State) : Out :=
  vecExec (.fsub d a b rnd) (eachRm rnd fun rm x => outF (fmt32.add rm true (x.f 0) (x.f 1))) s
def execFmul (d : Dst) (a b : Src) (rnd : Rnd) (s : State) : Out :=
  vecExec (.fmul d a b rnd) (eachRm rnd fun rm x => outF (fmt32.mul rm (x.f 0) (x.f 1))) s
def execFfma (d : Dst) (a b c : Src) (nb nc : Bool) (rnd : Rnd) (s : State) : Out :=
  vecExec (.ffma d a b c nb nc rnd) (eachRm rnd fun rm x =>
    outF (fmt32.fma rm (x.f 0) (negIf fmt32 nb (x.f 1)) (negIf fmt32 nc (x.f 2)))) s
def execFmin (d : Dst) (a b : Src) (s : State) : Out :=
  vecExec (.fmin d a b) (each fun x => outF (fmt32.minMax false (x.f 0) (x.f 1))) s
def execFmax (d : Dst) (a b : Src) (s : State) : Out :=
  vecExec (.fmax d a b) (each fun x => outF (fmt32.minMax true (x.f 0) (x.f 1))) s
def execFabs (d : Dst) (a : Src) (s : State) : Out :=
  vecExec (.fabs d a) (each fun x => out32 (x.w 0 &&& 0x7FFFFFFF)) s
def execFneg (d : Dst) (a : Src) (s : State) : Out :=
  vecExec (.fneg d a) (each fun x => out32 (x.w 0 ^^^ 0x80000000)) s
def execFcmp (pd : BitVec 6) (cc : BitVec 2) (a b : Src) (s : State) : Out :=
  vecExec (.fcmp pd cc a b) (each fun x => outPF pd (fmt32.cmp cc.toNat (x.f 0) (x.f 1))) s
def execFrcp (d : Dst) (a : Src) (rnd : Rnd) (s : State) : Out :=
  vecExec (.frcp d a rnd) (eachRm rnd fun rm x => outF (fmt32.rcp rm (x.f 0))) s
def execFrsq (d : Dst) (a : Src) (rnd : Rnd) (s : State) : Out :=
  vecExec (.frsq d a rnd) (eachRm rnd fun rm x => outF (fmt32.rsq rm (x.f 0))) s
def execFsqrt (d : Dst) (a : Src) (rnd : Rnd) (s : State) : Out :=
  vecExec (.fsqrt d a rnd) (eachRm rnd fun rm x => outF (fmt32.sqrt rm (x.f 0))) s
def execFexp2 (d : Dst) (a : Src) (s : State) : Out :=
  vecExec (.fexp2 d a) (each fun x => outF (exp2F32 (x.f 0))) s
def execFlog2 (d : Dst) (a : Src) (s : State) : Out :=
  vecExec (.flog2 d a) (each fun x => outF (log2F32 (x.f 0))) s
def execFtrig (d : Dst) (a : Src) (cos : Bool) (s : State) : Out :=
  vecExec (.ftrig d a cos) (each fun x => outF (trigF32 cos (x.f 0))) s
def execFrnd (d : Dst) (a : Src) (rnd : Rnd) (s : State) : Out :=
  vecExec (.frnd d a rnd) (eachRm rnd fun rm x => outF (fmt32.integral rm (x.f 0))) s
def execFcvt (d : Dst) (a : Src) (conv : BitVec 4) (rnd : Rnd) (s : State) : Out :=
  vecExec (.fcvt d a conv rnd) (eachRm rnd fun rm x => outF (cvtVal conv rm (x.s 0))) s
def execFclass (d : Dst) (a : Src) (s : State) : Out :=
  vecExec (.fclass d a) (each fun x => out32 (classF32 (x.f 0))) s
def execFkey (d : Dst) (a : Src) (s : State) : Out :=
  vecExec (.fkey d a) (each fun x => out32 (keyF32 (x.w 0))) s
def execFscale (d : Dst) (a n : Src) (rnd : Rnd) (s : State) : Out :=
  vecExec (.fscale d a n rnd) (eachRm rnd fun rm x => outF (fmt32.scale rm (x.f 0) (x.w 1).toInt)) s
def execDadd (d : Dst) (a b : Src) (nb : Bool) (rnd : Rnd) (s : State) : Out :=
  vecExec (.dadd d a b nb rnd) (eachRm rnd fun rm x =>
    outF (fmt64.add rm false (x.d 0) (negIf fmt64 nb (x.d 1)))) s
def execDmul (d : Dst) (a b : Src) (rnd : Rnd) (s : State) : Out :=
  vecExec (.dmul d a b rnd) (eachRm rnd fun rm x => outF (fmt64.mul rm (x.d 0) (x.d 1))) s
def execDfma (d : Dst) (a b c : Src) (nb nc : Bool) (rnd : Rnd) (s : State) : Out :=
  vecExec (.dfma d a b c nb nc rnd) (eachRm rnd fun rm x =>
    outF (fmt64.fma rm (x.d 0) (negIf fmt64 nb (x.d 1)) (negIf fmt64 nc (x.d 2)))) s
def execDcmp (pd : BitVec 6) (cc : BitVec 2) (a b : Src) (s : State) : Out :=
  vecExec (.dcmp pd cc a b) (each fun x => outPF pd (fmt64.cmp cc.toNat (x.d 0) (x.d 1))) s
def execTadd (d : Dst) (a b : Src) (s : State) : Out :=
  vecExec (.tadd d a b) (each fun x => outF (tap32.add (x.f 0) (x.f 1))) s
def execTsub (d : Dst) (a b : Src) (s : State) : Out :=
  vecExec (.tsub d a b) (each fun x => outF (tap32.add (x.f 0) (tap32.neg (x.f 1)))) s
def execTmul (d : Dst) (a b : Src) (s : State) : Out :=
  vecExec (.tmul d a b) (each fun x => outF (tap32.mul (x.f 0) (x.f 1))) s
def execTfma (d : Dst) (a b c : Src) (nb nc : Bool) (s : State) : Out :=
  vecExec (.tfma d a b c nb nc) (each fun x =>
    outF (tap32.fma (x.f 0) (tnegIf nb (x.f 1)) (tnegIf nc (x.f 2)))) s
def execTcmp (pd : BitVec 6) (cc : BitVec 2) (a b : Src) (s : State) : Out :=
  vecExec (.tcmp pd cc a b) (each fun x => outP pd (tcmpVal cc (x.w 0) (x.w 1))) s
def execTneg (d : Dst) (a : Src) (s : State) : Out :=
  vecExec (.tneg d a) (each fun x => out32 (-(x.w 0))) s
def execTrcp (d : Dst) (a : Src) (s : State) : Out :=
  vecExec (.trcp d a) (each fun x => outF (tap32.rcp (x.f 0))) s
def execTrsq (d : Dst) (a : Src) (s : State) : Out :=
  vecExec (.trsq d a) (each fun x => outF (tap32.rsq (x.f 0))) s

end Sys2Proof.Machine
end

