-- ==== Sys2Proof/Machine/Secure.lean ====
section
/-!
DEFINITION. Integrity: firmware images (R431), measurement registers and the boot ROM (R432), attestation (R433), and
device reset.
-/

namespace Sys2Proof.Machine

open Sys2Proof

/-! ### Firmware (R431) -/

/-- `FIRMWARE_IMAGE_LOAD` (R431): an image that verifies and is not too old becomes active at the next device reset;
another is rejected with event 0x00F3. `image` is the header and the body, `version` the header's version (log 10). -/
def execFirmwareImageLoad (version : Nat) (image : List (BitVec 8)) (r s : Nat) (st : State) : Out :=
  fromOutside (.firmwareImageLoad version image r s) st fun st =>
    if st.sec.counter ≤ version && verifies Config.rootKey image r s then
      { st with sec := { st.sec with pending := some (version, image) } }
    else
      let (p, st1) := st.freePayload
      deviceEvent st1 0xF3 p

/-! ### Measurement and attestation (R432, R433) -/

/-- `MR_EXTEND` (R432): MR := SHA-512(MR, data). -/
def execMrExtend (n : Nat) (data : List (BitVec 8)) (s : State) : Out :=
  fromOutside (.mrExtend n data) s fun s =>
    { s with sec := { s.sec with mr := vset s.sec.mr n (sha512 (vget s.sec.mr n [] ++ data)) } }

/-- The boot ROM extends MR0 with the firmware image in force, and the firmware extends MR1 with its configuration, before
anything else happens after a reset (R432). -/
def bootRom (s : State) : State :=
  let m0 := sha512 (vget s.sec.mr 0 [] ++ s.sec.image)
  let m1 := sha512 (vget s.sec.mr 1 [] ++ Config.firmwareSettings s.sec.image)
  { s with sec := { s.sec with booted := true, mr := vset (vset s.sec.mr 0 m0) 1 m1 } }

/-- The fields of a report below its signature (R433). -/
def reportBody (s : State) (nonce : List Byte) : List Byte :=
  leBytes 4 Config.reportVersion.toNat ++ (List.range 16).map Config.serial ++ leBytes 4 s.sec.fwVersion ++
    leBytes 4 s.sec.counter ++ s.sec.mr.toList.flatten ++ (List.range 64).map fun k => (nonce[k]?).getD 0

/-- `ATTEST` (R433): a report of 736 bytes, signed by the identity key. -/
def execAttest (nonce : List (BitVec 8)) (s : State) : Out :=
  fromOutside (.attest nonce) s fun s =>
    let m := reportBody s nonce
    let (r, v) := signature Config.identityKey (Config.signNonce s.sec.signs) m
    { s with sec := { s.sec with report := m ++ beBytes 66 r ++ beBytes 66 v, signs := s.sec.signs + 1 } }

/-! ### Device reset -/

/-- What of a cluster outlasts a reset: the spares in use (R428). -/
def Cluster.afterReset (c : Cluster) : Cluster :=
  { num := c.num, errcnt := mapLanes c.errcnt fun _ w => w &&& 0xFF000000 }

/-- `DEVICE_RESET` (R429): state takes its reset values. The firmware accepted last is in force from now on (R431);
fuses and retired units stay (R428); memory keeps its bytes (log 12); events from outside are still to come. -/
def doReset (s : State) : State :=
  { State.reset with
    tick := s.tick
    serial := s.serial
    inputs := s.inputs
    mem := s.mem
    bad := s.bad
    clusters := s.clusters.map Cluster.afterReset
    fabric := { links := mapLanes (Vector.replicate 15 ({} : Link)) fun k _ =>
      { healthy := (vget s.fabric.links k {}).healthy } }
    host := { errs := s.host.errs.map fun p => (p.1, { cnt := p.2.cnt &&& 0xFF000000 }) }
    sec := { fwVersion := (s.sec.pending.map (·.1)).getD s.sec.fwVersion
             image := (s.sec.pending.map (·.2)).getD s.sec.image
             counter := s.sec.counter, signs := s.sec.signs } }

/-- `DEVICE_RESET`. -/
def execDeviceReset (s : State) : Out := fromOutside .deviceReset s doReset

end Sys2Proof.Machine
end

