-- ==== Sys2Proof/Machine/Dispatch.lean ====
section
/-!
DEFINITION. The meaning of every instruction, one arm per constructor.
-/

namespace Sys2Proof.Machine

open Sys2Proof

def exec (i : Instr) (s : State) : Host.Outcome State Fault Refusal :=
  match i with
  | .mov d a => Sys2Proof.Machine.execMov d a s
  | .iadd d a b => Sys2Proof.Machine.execIadd d a b s
  | .isub d a b => Sys2Proof.Machine.execIsub d a b s
  | .imul d a b => Sys2Proof.Machine.execImul d a b s
  | .imulhs d a b => Sys2Proof.Machine.execImulhs d a b s
  | .imulhn d a b => Sys2Proof.Machine.execImulhn d a b s
  | .imad d a b c m => Sys2Proof.Machine.execImad d a b c m s
  | .imin d a b => Sys2Proof.Machine.execImin d a b s
  | .imax d a b => Sys2Proof.Machine.execImax d a b s
  | .iminn d a b => Sys2Proof.Machine.execIminn d a b s
  | .imaxn d a b => Sys2Proof.Machine.execImaxn d a b s
  | .iabs d a => Sys2Proof.Machine.execIabs d a s
  | .ineg d a => Sys2Proof.Machine.execIneg d a s
  | .andI d a b => Sys2Proof.Machine.execAnd d a b s
  | .orI d a b => Sys2Proof.Machine.execOr d a b s
  | .xorI d a b => Sys2Proof.Machine.execXor d a b s
  | .andn d a b => Sys2Proof.Machine.execAndn d a b s
  | .shl d a b => Sys2Proof.Machine.execShl d a b s
  | .shr d a b => Sys2Proof.Machine.execShr d a b s
  | .sar d a b => Sys2Proof.Machine.execSar d a b s
  | .rotl d a b => Sys2Proof.Machine.execRotl d a b s
  | .popc d a => Sys2Proof.Machine.execPopc d a s
  | .clz d a => Sys2Proof.Machine.execClz d a s
  | .brev d a => Sys2Proof.Machine.execBrev d a s
  | .bfx d a pos width sx => Sys2Proof.Machine.execBfx d a pos width sx s
  | .bfi d base value pos width => Sys2Proof.Machine.execBfi d base value pos width s
  | .isel d a b neg p => Sys2Proof.Machine.execIsel d a b neg p s
  | .icmps pd cc a b => Sys2Proof.Machine.execIcmps pd cc a b s
  | .icmpn pd cc a b => Sys2Proof.Machine.execIcmpn pd cc a b s
  | .plog pd fn pa na pb nb => Sys2Proof.Machine.execPlog pd fn pa na pb nb s
  | .prd d h => Sys2Proof.Machine.execPrd d h s
  | .pwr a h => Sys2Proof.Machine.execPwr a h s
  | .iadd64 d a b => Sys2Proof.Machine.execIadd64 d a b s
  | .isub64 d a b => Sys2Proof.Machine.execIsub64 d a b s
  | .shl64 d a b => Sys2Proof.Machine.execShl64 d a b s
  | .shr64 d a b => Sys2Proof.Machine.execShr64 d a b s
  | .lea d base index offset n sh => Sys2Proof.Machine.execLea d base index offset n sh s
  | .imulw d a b => Sys2Proof.Machine.execImulw d a b s
  | .iaddw d a b => Sys2Proof.Machine.execIaddw d a b s
  | .icmp64 pd cc a b => Sys2Proof.Machine.execIcmp64 pd cc a b s
  | .shfl d a b c w m => Sys2Proof.Machine.execShfl d a b c w m s
  | .vote pd cc a => Sys2Proof.Machine.execVote pd cc a s
  | .ballot d a => Sys2Proof.Machine.execBallot d a s
  | .elect pd hi => Sys2Proof.Machine.execElect pd hi s
  | .cvti d a sh sat tt fr => Sys2Proof.Machine.execCvti d a sh sat tt fr s
  | .rand d key counter stream out rounds => Sys2Proof.Machine.execRand d key counter stream out rounds s
  | .fadd d a b rnd => Sys2Proof.Machine.execFadd d a b rnd s
  | .fsub d a b rnd => Sys2Proof.Machine.execFsub d a b rnd s
  | .fmul d a b rnd => Sys2Proof.Machine.execFmul d a b rnd s
  | .ffma d a b c nb nc rnd => Sys2Proof.Machine.execFfma d a b c nb nc rnd s
  | .fmin d a b => Sys2Proof.Machine.execFmin d a b s
  | .fmax d a b => Sys2Proof.Machine.execFmax d a b s
  | .fabs d a => Sys2Proof.Machine.execFabs d a s
  | .fneg d a => Sys2Proof.Machine.execFneg d a s
  | .fcmp pd cc a b => Sys2Proof.Machine.execFcmp pd cc a b s
  | .frcp d a rnd => Sys2Proof.Machine.execFrcp d a rnd s
  | .frsq d a rnd => Sys2Proof.Machine.execFrsq d a rnd s
  | .fsqrt d a rnd => Sys2Proof.Machine.execFsqrt d a rnd s
  | .fexp2 d a => Sys2Proof.Machine.execFexp2 d a s
  | .flog2 d a => Sys2Proof.Machine.execFlog2 d a s
  | .ftrig d a cos => Sys2Proof.Machine.execFtrig d a cos s
  | .frnd d a rnd => Sys2Proof.Machine.execFrnd d a rnd s
  | .fcvt d a conv rnd => Sys2Proof.Machine.execFcvt d a conv rnd s
  | .fclass d a => Sys2Proof.Machine.execFclass d a s
  | .fkey d a => Sys2Proof.Machine.execFkey d a s
  | .fscale d a n rnd => Sys2Proof.Machine.execFscale d a n rnd s
  | .dadd d a b nb rnd => Sys2Proof.Machine.execDadd d a b nb rnd s
  | .dmul d a b rnd => Sys2Proof.Machine.execDmul d a b rnd s
  | .dfma d a b c nb nc rnd => Sys2Proof.Machine.execDfma d a b c nb nc rnd s
  | .dcmp pd cc a b => Sys2Proof.Machine.execDcmp pd cc a b s
  | .tadd d a b => Sys2Proof.Machine.execTadd d a b s
  | .tsub d a b => Sys2Proof.Machine.execTsub d a b s
  | .tmul d a b => Sys2Proof.Machine.execTmul d a b s
  | .tfma d a b c nb nc => Sys2Proof.Machine.execTfma d a b c nb nc s
  | .tcmp pd cc a b => Sys2Proof.Machine.execTcmp pd cc a b s
  | .tneg d a => Sys2Proof.Machine.execTneg d a s
  | .trcp d a => Sys2Proof.Machine.execTrcp d a s
  | .trsq d a => Sys2Proof.Machine.execTrsq d a s
  | .ld d a off size pol sp sx => Sys2Proof.Machine.execLd d a off size pol sp sx s
  | .st data a off size pol sp => Sys2Proof.Machine.execSt data a off size pol sp s
  | .lda d a off size pol scope => Sys2Proof.Machine.execLda d a off size pol scope s
  | .stl data a size scope => Sys2Proof.Machine.execStl data a size scope s
  | .ldp d a off size => Sys2Proof.Machine.execLdp d a off size s
  | .atom d a b c fn ord scope w64 => Sys2Proof.Machine.execAtom d a b c fn ord scope w64 s
  | .red a b fn scope w64 => Sys2Proof.Machine.execRed a b fn scope w64 s
  | .redf => Sys2Proof.Machine.execRedf s
  | .fence k scope => Sys2Proof.Machine.execFence k scope s
  | .waitc d a b cc scope w64 => Sys2Proof.Machine.execWaitc d a b cc scope w64 s
  | .pref a off line pol => Sys2Proof.Machine.execPref a off line pol s
  | .cctl a op => Sys2Proof.Machine.execCctl a op s
  | .chcfg base depth w64 ch => Sys2Proof.Machine.execChcfg base depth w64 ch s
  | .chstat d n => Sys2Proof.Machine.execChstat d n s
  | .nop => Sys2Proof.Machine.execNop s
  | .bra p neg off => Sys2Proof.Machine.execBra p neg off s
  | .brx a => Sys2Proof.Machine.execBrx a s
  | .call p neg off => Sys2Proof.Machine.execCall p neg off s
  | .callx a => Sys2Proof.Machine.execCallx a s
  | .ret => Sys2Proof.Machine.execRet s
  | .fork pd n off => Sys2Proof.Machine.execFork pd n off s
  | .endF succ => Sys2Proof.Machine.execEnd succ s
  | .spawn pd off => Sys2Proof.Machine.execSpawn pd off s
  | .rcvg => Sys2Proof.Machine.execRcvg s
  | .bara b grid count => Sys2Proof.Machine.execBara b grid count s
  | .barw b grid => Sys2Proof.Machine.execBarw b grid s
  | .bar b grid count => Sys2Proof.Machine.execBar b grid count s
  | .cvset cv n => Sys2Proof.Machine.execCvset cv n s
  | .sign cv => Sys2Proof.Machine.execSign cv s
  | .yield => Sys2Proof.Machine.execYield s
  | .trap code => Sys2Proof.Machine.execTrap code s
  | .brkpt => Sys2Proof.Machine.execBrkpt s
  | .rte => Sys2Proof.Machine.execRte s
  | .rdsys d n => Sys2Proof.Machine.execRdsys d n s
  | .wrsys n a => Sys2Proof.Machine.execWrsys n a s
  | .clk d => Sys2Proof.Machine.execClk d s
  | .mark d id => Sys2Proof.Machine.execMark d id s
  | .cut d id off => Sys2Proof.Machine.execCut d id off s
  | .graft a => Sys2Proof.Machine.execGraft a s
  | .sdrop d a => Sys2Proof.Machine.execSdrop d a s
  | .sdropHold d a => Sys2Proof.Machine.execSdropHold d a s
  | .sinfo d a => Sys2Proof.Machine.execSinfo d a s
  | .mzero at_ cv n1 => Sys2Proof.Machine.execMzero at_ cv n1 s
  | .mma at_ cv z ha hb a b origin tha thb => Sys2Proof.Machine.execMma at_ cv z ha hb a b origin tha thb s
  | .mmac at_ cv z hb b as_ sh thb origin => Sys2Proof.Machine.execMmac at_ cv z hb b as_ sh thb origin s
  | .mload at_ cv t n1 a => Sys2Proof.Machine.execMload at_ cv t n1 a s
  | .mstore at_ cv t n1 a conv am sh addr => Sys2Proof.Machine.execMstore at_ cv t n1 a conv am sh addr s
  | .mgather at_ cv z a b list => Sys2Proof.Machine.execMgather at_ cv z a b list s
  | .mshape mt nt fa fb acc sa sb q k => Sys2Proof.Machine.execMshape mt nt fa fb acc sa sb q k s
  | .benq pd row res => Sys2Proof.Machine.execBenq pd row res s
  | .mfence => Sys2Proof.Machine.execMfence s
  | .mreset a => Sys2Proof.Machine.execMreset a s
  | .thdl th q => Sys2Proof.Machine.execThdl th q s
  | .cpyi th plain bulk off origin status stage => Sys2Proof.Machine.execCpyi th plain bulk off origin status stage s
  | .cpyo th bulk tf off origin status sr am => Sys2Proof.Machine.execCpyo th bulk tf off origin status sr am s
  | .cpym th plain quad off origin status stage mask => Sys2Proof.Machine.execCpym th plain quad off origin status stage mask s
  | .stgpWait d stage seq => Sys2Proof.Machine.execStgpWait d stage seq s
  | .stgpFill stage seq => Sys2Proof.Machine.execStgpFill stage seq s
  | .stgc d stage seq => Sys2Proof.Machine.execStgc d stage seq s
  | .stgr stage seq => Sys2Proof.Machine.execStgr stage seq s
  | .lease pd period => Sys2Proof.Machine.execLease pd period s
  | .lfree => Sys2Proof.Machine.execLfree s
  | .launch d tmpl arg => Sys2Proof.Machine.execLaunch d tmpl arg s
  | .gdec d node amount => Sys2Proof.Machine.execGdec d node amount s
  | .gcond node value => Sys2Proof.Machine.execGcond node value s
  | .beat n => Sys2Proof.Machine.execBeat n s
  | .rbegin pd f n => Sys2Proof.Machine.execRbegin pd f n s
  | .rcommit => Sys2Proof.Machine.execRcommit s
  | .rabort => Sys2Proof.Machine.execRabort s
  | .event code a => Sys2Proof.Machine.execEvent code a s
  | .schedulerVote core sched => Sys2Proof.Machine.execSchedulerVote core sched s
  | .deferredFault gid lane => Sys2Proof.Machine.execDeferredFault gid lane s
  | .rcvgRelease gid => Sys2Proof.Machine.execRcvgRelease gid s
  | .groupRestart gid => Sys2Proof.Machine.execGroupRestart gid s
  | .groupSlotFree gid => Sys2Proof.Machine.execGroupSlotFree gid s
  | .teamEnd tid => Sys2Proof.Machine.execTeamEnd tid s
  | .gridBarrierArrive op => Sys2Proof.Machine.execGridBarrierArrive op s
  | .storePassCop gid => Sys2Proof.Machine.execStorePassCop gid s
  | .storePerform core seq => Sys2Proof.Machine.execStorePerform core seq s
  | .generationRetry core op => Sys2Proof.Machine.execGenerationRetry core op s
  | .loadDataReturn op lane => Sys2Proof.Machine.execLoadDataReturn op lane s
  | .atomicPerform req => Sys2Proof.Machine.execAtomicPerform req s
  | .atomicReply rep => Sys2Proof.Machine.execAtomicReply rep s
  | .routerCombine first second => Sys2Proof.Machine.execRouterCombine first second s
  | .replySplit rep => Sys2Proof.Machine.execReplySplit rep s
  | .redEntryDrain core => Sys2Proof.Machine.execRedEntryDrain core s
  | .fenceComplete op => Sys2Proof.Machine.execFenceComplete op s
  | .waitcTimeout gid lane => Sys2Proof.Machine.execWaitcTimeout gid lane s
  | .waitcRetest gid lane => Sys2Proof.Machine.execWaitcRetest gid lane s
  | .walkComplete core walk => Sys2Proof.Machine.execWalkComplete core walk s
  | .walkMigrateReread core walk => Sys2Proof.Machine.execWalkMigrateReread core walk s
  | .lineMigrateDone line => Sys2Proof.Machine.execLineMigrateDone line s
  | .xlgenBump asid => Sys2Proof.Machine.execXlgenBump asid s
  | .xlgenBumpDone asid => Sys2Proof.Machine.execXlgenBumpDone asid s
  | .xlinvPage asid page => Sys2Proof.Machine.execXlinvPage asid page s
  | .xlinvAsid asid => Sys2Proof.Machine.execXlinvAsid asid s
  | .xlinvStage2 asid => Sys2Proof.Machine.execXlinvStage2 asid s
  | .xlinvStage2Done asid => Sys2Proof.Machine.execXlinvStage2Done asid s
  | .cpwinWrite core win winb => Sys2Proof.Machine.execCpwinWrite core win winb s
  | .copyStart op => Sys2Proof.Machine.execCopyStart op s
  | .copyComplete op => Sys2Proof.Machine.execCopyComplete op s
  | .stageWaitRelease op => Sys2Proof.Machine.execStageWaitRelease op s
  | .stgcfgWrite tid n value => Sys2Proof.Machine.execStgcfgWrite tid n value s
  | .fmtWrite tid n value => Sys2Proof.Machine.execFmtWrite tid n value s
  | .leaseExpiry tid => Sys2Proof.Machine.execLeaseExpiry tid s
  | .matrixOpStart op => Sys2Proof.Machine.execMatrixOpStart op s
  | .matrixOpComplete op => Sys2Proof.Machine.execMatrixOpComplete op s
  | .batchTimeout core => Sys2Proof.Machine.execBatchTimeout core s
  | .batchComplete op => Sys2Proof.Machine.execBatchComplete op s
  | .bqctlEnable core asid value => Sys2Proof.Machine.execBqctlEnable core asid value s
  | .bqctlDisable core value => Sys2Proof.Machine.execBqctlDisable core value s
  | .slheapcfgEnable asid value => Sys2Proof.Machine.execSlheapcfgEnable asid value s
  | .readyNoticeReceive die => Sys2Proof.Machine.execReadyNoticeReceive die s
  | .copyNodeStart die node => Sys2Proof.Machine.execCopyNodeStart die node s
  | .placementDecision die => Sys2Proof.Machine.execPlacementDecision die s
  | .teamStart tid => Sys2Proof.Machine.execTeamStart tid s
  | .nodeBlocking die node => Sys2Proof.Machine.execNodeBlocking die node s
  | .nodeComplete die node => Sys2Proof.Machine.execNodeComplete die node s
  | .yieldStop tid => Sys2Proof.Machine.execYieldStop tid s
  | .teamSaveComplete tid => Sys2Proof.Machine.execTeamSaveComplete tid s
  | .teamResume tid => Sys2Proof.Machine.execTeamResume tid s
  | .arenaDisable die arena => Sys2Proof.Machine.execArenaDisable die arena s
  | .gvctlWrite asid value => Sys2Proof.Machine.execGvctlWrite asid value s
  | .gvorderWrite asid value => Sys2Proof.Machine.execGvorderWrite asid value s
  | .gvposWrite asid a value => Sys2Proof.Machine.execGvposWrite asid a value s
  | .gvbndWrite asid a value => Sys2Proof.Machine.execGvbndWrite asid a value s
  | .gvintlenWrite value => Sys2Proof.Machine.execGvintlenWrite value s
  | .contextRemove asid => Sys2Proof.Machine.execContextRemove asid s
  | .contextRestore asid => Sys2Proof.Machine.execContextRestore asid s
  | .beatFlitReceive job boundary member count => Sys2Proof.Machine.execBeatFlitReceive job boundary member count s
  | .clockStepChange cluster => Sys2Proof.Machine.execClockStepChange cluster s
  | .droopDetect cluster => Sys2Proof.Machine.execDroopDetect cluster s
  | .droopWindowEnd cluster => Sys2Proof.Machine.execDroopWindowEnd cluster s
  | .marginChange cluster margin => Sys2Proof.Machine.execMarginChange cluster margin s
  | .flitReceive port header tail burst payload => Sys2Proof.Machine.execFlitReceive port header tail burst payload s
  | .linkDown port => Sys2Proof.Machine.execLinkDown port s
  | .linkRetrainAttempt port => Sys2Proof.Machine.execLinkRetrainAttempt port s
  | .linkRetrainDone port healthy => Sys2Proof.Machine.execLinkRetrainDone port healthy s
  | .ingressCombine first second => Sys2Proof.Machine.execIngressCombine first second s
  | .remoteRequestServe req => Sys2Proof.Machine.execRemoteRequestServe req s
  | .remoteTimeout op lane => Sys2Proof.Machine.execRemoteTimeout op lane s
  | .regionRollback gid lane => Sys2Proof.Machine.execRegionRollback gid lane s
  | .fxcfgWrite value => Sys2Proof.Machine.execFxcfgWrite value s
  | .jobTableWrite entry value => Sys2Proof.Machine.execJobTableWrite entry value s
  | .hostRmaPut key off data tag => Sys2Proof.Machine.execHostRmaPut key off data tag s
  | .hostRmaGet key off size tag => Sys2Proof.Machine.execHostRmaGet key off size tag s
  | .hostRmaAtomic key off fn w64 value cmp tag => Sys2Proof.Machine.execHostRmaAtomic key off fn w64 value cmp tag s
  | .mgmtWrite off data tag => Sys2Proof.Machine.execMgmtWrite off data tag s
  | .dbgHalt core slot => Sys2Proof.Machine.execDbgHalt core slot s
  | .dbgResume core slot => Sys2Proof.Machine.execDbgResume core slot s
  | .dbgStep core slot => Sys2Proof.Machine.execDbgStep core slot s
  | .dbgStepAll core slot => Sys2Proof.Machine.execDbgStepAll core slot s
  | .dbgAttach core slot => Sys2Proof.Machine.execDbgAttach core slot s
  | .dbgDetach core slot => Sys2Proof.Machine.execDbgDetach core slot s
  | .dbgDiscard core slot => Sys2Proof.Machine.execDbgDiscard core slot s
  | .freeze kind index => Sys2Proof.Machine.execFreeze kind index s
  | .thaw kind index => Sys2Proof.Machine.execThaw kind index s
  | .freezeTimeout kind index => Sys2Proof.Machine.execFreezeTimeout kind index s
  | .errorReport unit source => Sys2Proof.Machine.execErrorReport unit source s
  | .firmwareImageLoad version image r sig => Sys2Proof.Machine.execFirmwareImageLoad version image r sig s
  | .mrExtend n data => Sys2Proof.Machine.execMrExtend n data s
  | .attest nonce => Sys2Proof.Machine.execAttest nonce s
  | .freezePointReached kind index => Sys2Proof.Machine.execFreezePointReached kind index s
  | .cctlWbComplete op => Sys2Proof.Machine.execCctlWbComplete op s
  | .prefFillComplete op => Sys2Proof.Machine.execPrefFillComplete op s
  | .xlinvAll => Sys2Proof.Machine.execXlinvAll s
  | .intervalBoundary => Sys2Proof.Machine.execIntervalBoundary s
  | .uePutComplete => Sys2Proof.Machine.execUePutComplete s
  | .deviceReset => Sys2Proof.Machine.execDeviceReset s

end Sys2Proof.Machine
end

