-- ==== Sys2Proof/Machine/Sequence.lean ====
section
/-!
DEFINITION. What may happen next in a state, how one of several moves is chosen (R204), and how the word of a packet is
fetched, decoded and executed (R35, R56). The steps of the machine that carry no encoding are moves beside it.
-/

namespace Sys2Proof.Machine

open Sys2Proof

/-! ### The word of a packet -/

/-- The packet whose word a scheduler executes in its present phase (R64). -/
def wordPacket (s : State) (core sched : Nat) : Option Cur :=
  let sc := vget (s.coreOf core).scheds sched {}
  let p := if sc.phase = 1 then sc.port1 else if sc.phase = 2 then sc.port2 else none
  p.map fun pk => { core := core, sched := sched, port2 := sc.phase == 2, pk := pk }

/-- What fetching an instruction comes to: the instruction and the state after its fetches, or, when the fetch faults,
waits, or finds no instruction, the state in which the packet has ended. -/
inductive Fetched where
  | run (i : Instr) (s : State)
  | stop (s : State)

/-- Fetches the words of an instruction one by one, no more than the clause has left, until they are one (R36, R45,
R56). A word after the first is fetched because the words before it ask for it. -/
def fetchFrom (c : Class) (h : Here) : Nat → List Word → State → Fetched
  | 0, _, s => .stop (s.fault h.c h.act fIllegalEncoding)
  | n + 1, ws, s =>
    match fetchWord s h.c.core h.t.asid (h.first.pc + BitVec.ofNat 56 (4 * ws.length)).toNat h.lead h.user with
    | .hold w =>
      if ws.isEmpty || asksMore c ws then .stop (s.hold h.c h.t.asid w)
      else .stop (s.fault h.c h.act fIllegalEncoding)
    | .trap f _ =>
      if ws.isEmpty || asksMore c ws then .stop (s.trapPacket h.c h.act f (allOwn h.act f))
      else .stop (s.fault h.c h.act fIllegalEncoding)
    | .ok (w, s1) =>
      match decode c (ws ++ [w]) with
      | .ok (i, _) => .run i s1
      | .error .illegalOpcode => .stop (s1.fault h.c h.act fIllegalOpcode)
      | .error .illegalEncoding => fetchFrom c h n (ws ++ [w]) s1

/-- The fetch of the instruction that a packet stands at. A clause context that names no class holds none (R33). -/
def fetchInstr (s : State) (h : Here) : Fetched :=
  match hdrClass h.hdr with
  | none => .stop (s.fault h.c h.act fIllegalEncoding)
  | some c => fetchFrom c h (min h.first.rem.toNat 4) [] s

/-- A scheduler executes the word of its packet. A port whose packet is of no group there holds nothing, and is
free. -/
def wordStep (s : State) (core sched : Nat) : Out :=
  match wordPacket s core sched with
  | none => .next s
  | some c =>
    match ({ s with cur := some c } : State).here? with
    | none => .next (s.setPort c none)
    | some h =>
      -- the fibres whose guard failed, left by the others, go on past the clause (R35)
      if h.act = 0 then .next (s.transfer c [])
      else match fetchInstr { s with cur := some c } h with
      | .run i s1 => exec i s1
      | .stop s1 => .next s1

/-! ### Moves -/

/-- A move: a scheduler executes a word; a step of the machine; an engine or Crozier goes on with an operation in hand,
by a sector, a K-step, a row, or an entry of its queue (R8, R221, R318, R315); a copy node moves its next sector (R358); a
request reaches the queue of the next router on its way (R181); or Crozier makes the entries in instance records whose pages
no longer migrate (R157). -/
inductive Move where
  | word (core sched : Nat)
  | event (i : Instr)
  | engine (op : Nat)
  | sector (die asid node : Nat)
  | hop (req : Nat)
  | entries
  deriving DecidableEq, Repr

/-- The state after an engine, or Crozier, has gone on with an operation. -/
def engineStep (s : State) (op : Nat) : Option State :=
  [copySector s op, mxStep s op, batchStep s op, leaseServe s op, graphServe s op].findSome? id

/-- The state after a running copy node has moved its next sector. -/
def sectorStep (s : State) (die asid node : Nat) : Option State :=
  ((s.crozOf die).running.find? fun r => r.asid = asid ∧ r.node = node).bind (nodeSector s die)

/-- The cores that are listed or hold a group, and are not frozen: with a frozen core its groups, teams, engines and tables
stand still (R425). -/
def coresOf (s : State) : List Nat :=
  (s.cores.map (·.cid) ++ s.groups.map (·.core)).eraseDups.filter fun c => !coreFrozen s c

/-- The dies that have something to do for Crozier. -/
def diesOf (s : State) : List Nat :=
  (s.crozs.map (·.die) ++ s.teams.flatMap (fun t => [t.launch.die, dieOf t.core % 8]) ++ s.notices.map (·.die)).eraseDups

/-- The clusters that are listed or hold a team. -/
def clustersOf (s : State) : List Nat := (s.clusters.map (·.num) ++ s.teams.map fun t => clusterNo t.core).eraseDups

/-- The region of a core runs on at its step: no change of it stands before its next cycle (R429). -/
abbrev regionSettled (s : State) (c : Nat) : Bool :=
  regionTarget s (clusterNo c) == (s.clusterOf (clusterNo c)).step

/-- Steps of a core, its schedulers and its tables. -/
def coreSteps (s : State) (c : Nat) : List Instr :=
  let k := s.coreOf c
  (if regionSettled s c then (List.range 4).map (.schedulerVote c) else []) ++ [.redEntryDrain c, .batchTimeout c] ++
  k.cop.map (fun x => .storePerform c x.seq) ++
  k.walks.flatMap (fun w => [.walkComplete c w.id, .walkMigrateReread c w.id]) ++
  ((openRetries s c).map (·.1)).eraseDups.map (.generationRetry c)

/-- Steps of a group and its fibres. -/
def groupSteps (g : Group) : List Instr :=
  [.rcvgRelease g.gid, .groupRestart g.gid, .groupSlotFree g.gid, .storePassCop g.gid] ++
  (lanesOf g.liveLanes).flatMap fun i =>
    [.deferredFault g.gid i, .waitcTimeout g.gid i, .waitcRetest g.gid i, .regionRollback g.gid i]

/-- Steps of a saved team's group: conditions its fibres wait for are tested still (R90, R93, R195). -/
def parkedSteps (g : Group) : List Instr :=
  (lanesOf g.liveLanes).flatMap fun i => [.waitcTimeout g.gid i, .waitcRetest g.gid i]

/-- Steps of a team. -/
def teamSteps (t : Team) : List Instr :=
  [.teamEnd t.tid, .teamStart t.tid, .yieldStop t.tid, .teamSaveComplete t.tid, .teamResume t.tid, .leaseExpiry t.tid] ++
  t.parked.flatMap parkedSteps

/-- Steps of an operation in flight. -/
def opSteps (o : Op) : List Instr :=
  [.gridBarrierArrive o.id, .fenceComplete o.id, .copyStart o.id, .copyComplete o.id, .stageWaitRelease o.id,
   .matrixOpStart o.id, .matrixOpComplete o.id, .batchComplete o.id, .cctlWbComplete o.id, .prefFillComplete o.id] ++
  (lanesOf o.lanes).map (.loadDataReturn o.id)

/-- Steps at the homes and on the way back. -/
def homeSteps (s : State) : List Instr :=
  s.reqs.flatMap (fun r => .atomicPerform r.id :: s.reqs.map fun q => .routerCombine r.id q.id) ++
  s.replies.flatMap (fun r => [.atomicReply r.id, .replySplit r.id]) ++
  s.touches.map fun t => .lineMigrateDone t.line

/-- Steps of a die's Crozier. -/
def crozSteps (s : State) (die : Nat) : List Instr :=
  let c := s.crozOf die
  [.readyNoticeReceive die, .placementDecision die] ++
  c.running.flatMap (fun r => [.copyNodeStart die r.node, .nodeComplete die r.node]) ++
  c.ready.map fun r => .nodeBlocking die r.node

/-- Steps of the fabric unit; every waiter of a request has its own time limit (R394). -/
def fabricSteps (s : State) : List Instr :=
  s.fabric.ins.flatMap (fun r => .remoteRequestServe r.id :: s.fabric.ins.map fun q => .ingressCombine r.id q.id) ++
  (s.fabric.out ++ s.fabric.ins).flatMap (fun r => r.waiters.map fun w => .remoteTimeout w.1 w.2) ++
  (if joined s then (List.range 15).flatMap fun p =>
    [.linkDown p, .linkRetrainAttempt p, .linkRetrainDone p (vget s.fabric.links p {}).healthy, .linkRetrainDone p 0]
   else [])

/-- Every step of the machine that could be taken, and the oldest event from outside. -/
def candidates (s : State) : List Instr :=
  (coresOf s).flatMap (coreSteps s) ++ (s.groups.filter fun g => !coreFrozen s g.core).flatMap groupSteps ++
  (s.teams.filter fun t => !(coreFrozen s t.core && t.holdsCore)).flatMap teamSteps ++
  (s.ops.filter fun o => !coreFrozen s o.core).flatMap opSteps ++ homeSteps s ++ s.ctxs.flatMap (fun c => [.xlgenBumpDone c.asid, .xlinvStage2Done c.asid]) ++
  (diesOf s).flatMap (crozSteps s) ++ (clustersOf s).flatMap (fun c => [.clockStepChange c, .droopWindowEnd c]) ++
  fabricSteps s ++ (if s.host.puts.isEmpty then [] else [.uePutComplete]) ++
  s.host.frozen.flatMap (fun f => [.freezePointReached f.kind f.index, .freezeTimeout f.kind f.index]) ++
  s.inputs.take 1

/-- The step can be taken: its conditions hold. -/
def canTake (s : State) (i : Instr) : Bool :=
  match exec i s with
  | .next _ => true
  | _ => false

/-- The words that can be executed. -/
def wordMoves (s : State) : List Move :=
  (coresOf s).flatMap fun c =>
    ((List.range 4).filter fun k => (wordPacket s c k).isSome).map fun k => .word c k

/-- Operations that an engine or Crozier can go on with. -/
def engineMoves (s : State) : List Move :=
  (((s.ops.filter fun o => !coreFrozen s o.core).map (·.id)).filter fun op => (engineStep s op).isSome).map .engine

/-- Copy nodes that can move a sector. -/
def sectorMoves (s : State) : List Move :=
  s.crozs.flatMap fun c => (c.running.filter fun r => (sectorStep s c.die r.asid r.node).isSome).map fun r =>
    .sector c.die r.asid r.node

/-- Requests that can reach their next router. -/
def hopMoves (s : State) : List Move := ((s.reqs.map (·.id)).filter fun id => (hopStep s id).isSome).map .hop

/-- All moves of a state. -/
def moves (s : State) : List Move :=
  wordMoves s ++ ((candidates s).filter (canTake s)).map .event ++ engineMoves s ++ sectorMoves s ++
    hopMoves s ++ if s.dueReady then [.entries] else []

/-- The move that comes next: the only one, or one of several by the free choice (log 2); none when there is none. -/
def nextMove (s : State) : Option Move × State :=
  match moves s with
  | [] => (none, s)
  | [m] => (some m, s)
  | l =>
    let (k, s1) := s.choose l.length
    (l[k]?, s1)

/-- Makes a move. Time passes before a step of the machine; when its conditions hold no more, nothing else happens. -/
def perform (s : State) : Move → Out
  | .word core sched => wordStep s core sched
  | .event i =>
    match exec i s.passTime with
    | .fault _ => .next s.passTime
    | r => r
  | .engine op => .next ((engineStep s.passTime op).getD s.passTime)
  | .sector die asid node => .next ((sectorStep s.passTime die asid node).getD s.passTime)
  | .hop req => .next ((hopStep s.passTime req).getD s.passTime)
  | .entries => .next s.passTime.flushDue

/-- What comes next: after a reset the boot ROM (R432); the boundary of an interval when it is due (R376); else the next
move, or time alone. -/
def nextOutcome (s : State) : Out :=
  if !s.sec.booted then .next (bootRom s)
  else if enabledIntervalBoundary s then exec .intervalBoundary s
  else match nextMove s with
    | (none, s1) => .next s1.passTime
    | (some m, s1) => perform s1 m

/-- The save areas of saved teams follow what a step changed of them (R25, R239). -/
def keepingAreas (before : State) : Out → Out
  | .next s => .next (State.syncSaved before s)
  | r => r

/-- One step of the machine. -/
def advanceMachine (s : State) : Out := keepingAreas s (nextOutcome s)

/-! ### Placing one instruction (the interface of the host) -/

/-- Where the placed code region lies. -/
abbrev placeVa : Nat := 2 ^ 32

/-- The words of a clause with one instruction: its header and as many words as the instruction takes. -/
def placedClause (nbits w : Nat) : Class × List Word :=
  let ws := tableWords nbits w
  match decodeAny ws with
  | none => (.I, ws.take (max 1 (nbits / 32)))
  | some (c, i) => (c, ws.take i.words)

/-- A context, a team of one group with one live fibre in privileged mode, and its packet on port 1 before the first
word of a clause that holds the instruction: what a launch, a vote and the fetch of the clause's header leave. The page
is in the core's TLB and the words are in memory. The boot ROM has run. -/
def placeInstr (s : State) (nbits w : Nat) : State :=
  let (c, ws) := placedClause nbits w
  let hdr := plainHdr c (BitVec.ofNat 4 ws.length)
  let base : Addr := BitVec.ofNat 56 placeVa
  let fibre : Fibre :=
    { status := .running, pc := base + 4, sp := 0x10000, fp := 0x10000, clause := hdr, rem := BitVec.ofNat 4 ws.length
      active := true, mode := true, stackHi := 0x10000 }
  let group : Group :=
    { gid := 1, tid := 1, window := 64, lanes := vset (Vector.replicate 32 {}) 0 fibre }
  let team : Team := { tid := 1, asid := 1, launch := { entry := base, privileged := true } }
  let packet : Packet := { gid := 1, lanes := 1 }
  let tr : Trans := { pa := placeVa, r := true, w := true, x := true, home := 3 }
  let core : Core :=
    { scheds := vset (Vector.replicate 4 {}) 0 { phase := 1, port1 := some packet }
      tlb := [{ asid := 1, page := placeVa, tr := tr }] }
  { s with
    mem := (hdr :: ws).zipIdx.foldl (fun m p => Mem.write32 m (placeVa + 4 * p.2) p.1) s.mem
    ctxs := [{ asid := 1, privileged := true, regions := [placeVa] }]
    groups := [group]
    teams := [team]
    cores := [core]
    sec := { s.sec with booted := true }
    serial := 2 }

end Sys2Proof.Machine
end

