-- ==== Sys2Proof/Safety.lean ====
section
/-!
DEFINITION. The terms in which claims are stated: when a word issues, what it reads, the state that a class I or
class F word leaves, how the words of an instruction are fetched, and which parts of the state are the same in two
states.
-/

namespace Sys2Proof.Machine

open Sys2Proof

/-! ### Correct rounding: the exact values and how a result stands to one (R116, R118, R119, R122, R123) -/

/-- The value of a pattern without its sign (R116); infinity's pattern counts as the power of two above every finite
number. -/
def Fmt.mag (f : Fmt) (n : Nat) : ℚ :=
  (if n < 2 ^ f.fb then (n : ℚ) else ((n % 2 ^ f.fb + 2 ^ f.fb : Nat) : ℚ)) *
    (2 : ℚ) ^ ((max 1 (n / 2 ^ f.fb) : Nat) - f.bias - (f.fb : Int))

/-- The sign of a pattern. -/
def Fmt.sign (f : Fmt) (b : Nat) : Bool := Nat.testBit b (f.eb + f.fb)

/-- The value of a finite pattern (R116). -/
def Fmt.value (f : Fmt) (b : Nat) : ℚ := (if f.sign b then -1 else 1) * f.mag (b % 2 ^ (f.eb + f.fb))

/-- A pattern of the format that is neither an infinity nor a NaN. -/
abbrev Fmt.Finite (f : Fmt) (b : Nat) : Prop := b < 2 ^ f.width ∧ b % 2 ^ (f.eb + f.fb) < f.inf

/-- A NaN of the format. -/
abbrev Fmt.Nan (f : Fmt) (b : Nat) : Prop := b < 2 ^ f.width ∧ f.inf < b % 2 ^ (f.eb + f.fb)

/-- The magnitude of a value of this sign rounds up: what a directed mode does to it. -/
def RM.outward (rm : RM) (s : Bool) : Bool := rm = .rdn && s || rm = .rup && !s

/-- `n` is the magnitude `a` rounded once: to the nearest, of two the even one; or to the next one outward; or to the next
one inward, which is finite. Infinity takes part as the power of two that its pattern counts as. -/
def Fmt.NearestMag (f : Fmt) (rm : RM) (s : Bool) (a : ℝ) (n : Nat) : Prop :=
  if rm = .rne then
    n ≤ f.inf ∧ ∀ j, j ≤ f.inf → j ≠ n →
      |(f.mag n : ℝ) - a| < |(f.mag j : ℝ) - a| ∨ |(f.mag n : ℝ) - a| = |(f.mag j : ℝ) - a| ∧ n % 2 = 0
  else if rm.outward s = true then n ≤ f.inf ∧ (a ≤ f.mag n ∨ n = f.inf) ∧ ∀ j, j < n → (f.mag j : ℝ) < a
  else n < f.inf ∧ (f.mag n : ℝ) ≤ a ∧ ∀ j, n < j → j < f.inf → a < f.mag j

/-- A magnitude that is below every normal number after it is rounded to the format's precision with no bound on the
exponent: what underflow is detected by (R119). -/
def Fmt.Tiny (f : Fmt) (rm : RM) (s : Bool) (a : ℝ) : Prop :=
  let least : ℝ := f.mag (2 ^ f.fb)
  let step := least / 2 ^ (f.fb + 1)
  if rm = .rne then a < least - step / 2 else if rm.outward s = true then a ≤ least - step else a < least

/-- The pattern and the flags of an exact value `v`, not zero, rounded once (R118, R119, R133). -/
def Fmt.Rounds (f : Fmt) (rm : RM) (v : ℝ) (r : Nat × BitVec 6) : Prop :=
  ∃ (s : Bool) (n : Nat), (s = true ↔ v < 0) ∧ r.1 = f.neg s + n ∧ f.NearestMag rm s |v| n ∧
    let inexact := n = f.inf ∨ (f.mag n : ℝ) ≠ |v|
    (r.2.getLsbD 4 = true ↔ inexact) ∧ (r.2.getLsbD 3 = true ↔ inexact ∧ f.Tiny rm s |v|) ∧
    (r.2.getLsbD 2 = true ↔ n = f.inf ∨ (f.mag f.inf : ℝ) ≤ |v|) ∧
    r.2.getLsbD 0 = false ∧ r.2.getLsbD 1 = false ∧ r.2.getLsbD 5 = false

/-- `n` is the exact value `v` rounded to an integer in a direction. -/
def IntegerOf (rm : RM) (v : ℚ) (n : Int) : Prop :=
  match rm with
  | .rtz => n = if v < 0 then ⌈v⌉ else ⌊v⌋
  | .rdn => n = ⌊v⌋
  | .rup => n = ⌈v⌉
  | .rne => |v - n| < 1 / 2 ∨ |v - n| = 1 / 2 ∧ n % 2 = 0

/-- The positive value that the `n` bits of `b` encode, most significant first (R122): a run of equal bits and the one that
ends it, `es` bits of exponent, and the fraction; missing bits read as 0. -/
def tapMag (es n b : Nat) : ℚ :=
  let r := Nat.testBit b (n - 1)
  let m := ((List.range n).takeWhile fun i => Nat.testBit b (n - 1 - i) = r).length
  let bit : Nat → Nat := fun i => if i + m + 1 < n ∧ Nat.testBit b (n - 2 - m - i) then 1 else 0
  let k : Int := if r then m - 1 else -m
  let e := ((List.range es).map fun i => bit i * 2 ^ (es - 1 - i)).sum
  let frac : ℚ := ((List.range n).map fun i => (bit (es + i) : ℚ) / 2 ^ (i + 1)).sum
  (2 : ℚ) ^ (k * 2 ^ es + e) * (1 + frac)

/-- The value of a tapered word that is not NaR (R122). -/
def Tap.value (t : Tap) (x : Nat) : ℚ :=
  if x = 0 then 0 else if x < t.nar then tapMag t.es (t.w - 1) x else -tapMag t.es (t.w - 1) (2 ^ t.w - x)

/-- A tapered word that is a real number. -/
abbrev Tap.Real (t : Tap) (x : Nat) : Prop := x < 2 ^ t.w ∧ x ≠ t.nar

/-- The boundary between a positive word and the next one: the word with one more bit, which is 1 (R123). -/
def Tap.boundary (t : Tap) (k : Nat) : ℝ := tapMag t.es t.w (2 * k + 1)

/-- `c` is the exact value `v`, not zero, rounded on its encoding, ties to even; never zero, never past maxpos (R123). -/
def Tap.Rounds (t : Tap) (v : ℝ) (c : Nat) : Prop :=
  ∃ k, 0 < k ∧ k < t.nar ∧ (0 < v → c = k) ∧ (v < 0 → c = 2 ^ t.w - k) ∧
    (k = 1 ∨ t.boundary (k - 1) < |v| ∨ t.boundary (k - 1) = |v| ∧ k % 2 = 0) ∧
    (k = t.nar - 1 ∨ |v| < t.boundary k ∨ |v| = t.boundary k ∧ k % 2 = 0)

/-! ### When a word issues -/

/-- The word `i` issues for the whole packet in hand: the packet is there, the word stands where its kind must (R37),
its registers lie in the window (R43), some fibre is active, no fibre is held (R40, R61), the packet is not held (R8,
R38, R47, R206), and no channel check fails (R200). -/
structure Issues (i : Instr) (s : State) (h : Here) : Prop where
  here : s.here? = some h
  place : isTransfer i = true → h.first.rem.toNat = i.words
  fit : fits i h.g.window = true
  active : h.act ≠ 0
  ready : laneReady s h.g i h.c.pk.lanes h.act = h.c.pk.lanes
  packet : packetReady s h.g h.t.tid i h.hdr h.act = true
  chans : chanUses (shape i) = [] ∨
    chanFault (s.coreOf h.c.core).chans h.t.tid (lanesOf h.act).length (chanUses (shape i)) = none

/-- The active fibres' operands can be read, and are `ins`; reading constant words leaves `s1` (R95, R152). -/
def Reads (i : Instr) (s : State) (h : Here) (ins : List LaneIn) (s1 : State) : Prop :=
  ∃ consts, readConsts s h (constWords (shape i).srcs) = .ok (consts, s1) ∧ ins = laneIns s1 h consts (shape i).srcs

/-- The checks of every active fibre's access pass (R151): its translation. -/
def AccessOk (s : State) (h : Here) (sp : Space) (n : Nat) (kind : AccKind) (remote : Bool) (l : List (Nat × Nat))
    (ts : List (Nat × Nat × Trans)) : Prop := accessAll s h sp n kind remote l = .ok ts

/-! ### What a class I or class F word leaves -/

/-- The state after a class I or class F word of which lane `ins[k]` computes `outs[k]`. -/
def vecDone (i : Instr) (h : Here) (ins : List LaneIn) (outs : List LaneOut) (s1 : State) : State :=
  (writeBack (popAll s1 h.c.core ins.length (shape i)) h (shape i) (List.zip (ins.map (·.lane)) outs)).advance h.c
    i.words

/-- Whenever `i` issues and reads its operands, it completes, and what it writes is `f` of the operands of the active
fibres. -/
def Yields (i : Instr) (f : Here → List LaneIn → List LaneOut) : Prop :=
  ∀ s h ins s1, Issues i s h → Reads i s h ins s1 → exec i s = .next (vecDone i h ins (f h ins) s1)

/-- Every fibre that the packet holds is one of the group in hand, and `outs` are for active ones. -/
def LanesOk (h : Here) (outs : List (Nat × LaneOut)) : Prop :=
  (outs.map (·.1)).Nodup ∧ ∀ p ∈ outs, p.1 < 32 ∧ h.act.getLsbD p.1 = true

/-- The word at place `k` of a value that covers several registers. -/
abbrev wordAt (v : Dword) (k : Nat) : Word := BitVec.ofNat 32 (v.toNat / 2 ^ (32 * k))

/-- The predicate that a list of writes leaves: the last write of it, if there is one, but for p0. -/
def predAfter (old : Bool) (p : Nat) (l : List (Nat × Bool)) : Bool :=
  p == 0 || ((l.reverse.find? fun q => q.1 == p).map (·.2)).getD old

/-- The major opcode of an encoded instruction (R53). -/
def opOf (i : Instr) : Nat := ((encode i).headD 0).toNat / 2 ^ 26

/-! ### Floating-point patterns -/

/-- An f32 pattern is a NaN, and a signalling one. -/
def f32IsNan (w : Word) : Bool := w.extractLsb' 23 8 == 255 && w.extractLsb' 0 23 != 0
def f32IsSignalling (w : Word) : Bool := f32IsNan w && !w.getLsbD 22
/-- An f32 pattern that is no NaN, as a number in the order of the values: the magnitude bits under the sign. -/
def f32Order (w : Word) : Int := if w.getLsbD 31 then -((w.toNat % 2 ^ 31 : Nat) : Int) else (w.toNat % 2 ^ 31 : Nat)

/-! ### Fetching an instruction -/

/-- The next `n` words from place `k` of the packet's clause, each as it is fetched (R35, R56). -/
def fetched (h : Here) (k : Nat) : Nat → State → Option (List Word × State)
  | 0, s => some ([], s)
  | n + 1, s =>
    match fetchWord s h.c.core h.t.asid (h.first.pc + BitVec.ofNat 56 (4 * k)).toNat h.lead h.user with
    | .ok (w, s1) => (fetched h (k + 1) n s1).map fun p => (w :: p.1, p.2)
    | _ => none

/-- `ws` are the words of one instruction `i` of class `c`: none of the shorter beginnings is an instruction or a
wrong opcode. -/
def OneInstr (c : Class) (ws : List Word) (i : Instr) : Prop :=
  ws ≠ [] ∧ (∃ n, decode c ws = .ok (i, n)) ∧
    ∀ k, 0 < k → k < ws.length → decode c (ws.take k) = .error .illegalEncoding

/-! ### What stays the same -/

/-- Memory, contexts, clock regions, Crozier, the fabric, the host's side, security, the governor's clock and time are
the same. -/
structure SameDevice (s t : State) : Prop where
  mem : t.mem = s.mem
  ctxs : t.ctxs = s.ctxs
  clusters : t.clusters = s.clusters
  crozs : t.crozs = s.crozs
  now : t.now = s.now
  inputs : t.inputs = s.inputs
  reqs : t.reqs = s.reqs
  replies : t.replies = s.replies
  echoes : t.echoes = s.echoes
  monitors : t.monitors = s.monitors
  notices : t.notices = s.notices
  due : t.due = s.due
  l2 : t.l2 = s.l2
  touches : t.touches = s.touches
  bad : t.bad = s.bad
  disturbed : t.disturbed = s.disturbed
  told : t.told = s.told
  unlocked : t.unlocked = s.unlocked
  stlb : t.stlb = s.stlb
  gvintlen : t.gvintlen = s.gvintlen
  gvintNext : t.gvintNext = s.gvintNext
  gvLast : t.gvLast = s.gvLast
  gvBound : t.gvBound = s.gvBound
  gvFirst : t.gvFirst = s.gvFirst
  gvTaken : t.gvTaken = s.gvTaken
  fabric : t.fabric = s.fabric
  host : t.host = s.host
  sec : t.sec = s.sec

/-- A read by a core through a cache that is not coherent (R152, R197) leaves the same machine, but for the core's
constant and instruction caches, and what a read at a home does there: the slices' lines and counters (R153 to R155), an
error that is gone (R29), and the model's count of free values. -/
structure SameButCaches (core : Nat) (s t : State) : Prop where
  now : t.now = s.now
  serial : t.serial = s.serial
  inputs : t.inputs = s.inputs
  mem : t.mem = s.mem
  cur : t.cur = s.cur
  groups : t.groups = s.groups
  teams : t.teams = s.teams
  ctxs : t.ctxs = s.ctxs
  crozs : t.crozs = s.crozs
  ops : t.ops = s.ops
  reqs : t.reqs = s.reqs
  replies : t.replies = s.replies
  echoes : t.echoes = s.echoes
  monitors : t.monitors = s.monitors
  notices : t.notices = s.notices
  due : t.due = s.due
  disturbed : t.disturbed = s.disturbed
  told : t.told = s.told
  unlocked : t.unlocked = s.unlocked
  stlb : t.stlb = s.stlb
  fabric : t.fabric = s.fabric
  host : t.host = s.host
  sec : t.sec = s.sec
  gv : (t.gvintlen, t.gvintNext, t.gvLast, t.gvBound, t.gvFirst, t.gvTaken) =
    (s.gvintlen, s.gvintNext, s.gvLast, s.gvBound, s.gvFirst, s.gvTaken)
  cores : ∀ c, c ≠ core → t.coreOf c = s.coreOf c
  here : ({ t.coreOf core with ccache := [], icache := [] } : Core) = { s.coreOf core with ccache := [], icache := [] }
  clusters : ∀ n, ({ t.clusterOf n with pinOvf := 0 } : Cluster) = { s.clusterOf n with pinOvf := 0 }

/-- A core's tables are the same, but for its schedulers' ports, its constant cache and its channels. -/
structure SameTables (k l : Core) : Prop where
  reds : l.reds = k.reds
  rlt : l.rlt = k.rlt
  cop : l.cop = k.cop
  copSeq : l.copSeq = k.copSeq
  epoch : l.epoch = k.epoch
  l1 : l.l1 = k.l1
  icache : l.icache = k.icache
  tlb : l.tlb = k.tlb
  walks : l.walks = k.walks
  fails : l.fails = k.fails
  beats : l.beats = k.beats
  cpwin : l.cpwin = k.cpwin
  cpwinb : l.cpwinb = k.cpwinb
  pins : l.pins = k.pins
  bqctl : l.bqctl = k.bqctl
  bqplan : l.bqplan = k.bqplan
  bqblock : l.bqblock = k.bqblock
  bqstat : l.bqstat = k.bqstat
  bqasid : l.bqasid = k.bqasid
  bqrows : l.bqrows = k.bqrows

/-- The parts of a fibre that only traps, returns from them, special registers, frame slices and regions write. -/
structure SameSystem (x y : Fibre) : Prop where
  mode : y.mode = x.mode
  epc : y.epc = x.epc
  estatus : y.estatus = x.estatus
  ecause : y.ecause = x.ecause
  eaddr : y.eaddr = x.eaddr
  einfo : y.einfo = x.einfo
  eclause : y.eclause = x.eclause
  esave : y.esave = x.esave
  sp : y.sp = x.sp
  fp : y.fp = x.fp
  stackLo : y.stackLo = x.stackLo
  stackHi : y.stackHi = x.stackHi
  succ : y.succ = x.succ
  rcvg : y.rcvg = x.rcvg
  phT : y.phT = x.phT
  phG : y.phG = x.phG
  marks : y.marks = x.marks
  region : y.region = x.region
  rgstat : y.rgstat = x.rgstat
  rollback : y.rollback = x.rollback
  rollNo : y.rollNo = x.rollNo
  wait : y.wait = x.wait

/-- The parts of a group that class I and class F words leave alone. -/
structure SameGroup (g k : Group) : Prop where
  gid : k.gid = g.gid
  tid : k.tid = g.tid
  core : k.core = g.core
  sched : k.sched = g.sched
  slot : k.slot = g.slot
  window : k.window = g.window
  flags : k.flags = g.flags
  cbase : k.cbase = g.cbase
  sq : k.sq = g.sq
  amark : k.amark = g.amark
  xlVa : k.xlVa = g.xlVa
  xlInfo : k.xlInfo = g.xlInfo
  rgfail : k.rgfail = g.rgfail
  rgEvents : k.rgEvents = g.rgEvents
  lostStore : k.lostStore = g.lostStore
  halted : k.halted = g.halted

/-- The sign field of a matrix instruction that has one. -/
def matrixSign : Instr → Option SignCv
  | .mzero _ cv _ | .mma _ cv .. | .mmac _ cv .. | .mload _ cv .. | .mstore _ cv .. | .mgather _ cv .. => some cv
  | _ => none

/-! ### What the words of the other classes leave -/

/-- Operand `k` of a lane. -/
abbrev laneOp (ins : List LaneIn) (k lane : Nat) : Dword := ((ins.find? fun x => x.lane = lane).map (·.s k)).getD 0

/-- Registers, scalars, predicates and FPCTL of a group are the same. -/
structure SameRegs (g k : Group) : Prop where
  scal : k.scal = g.scal
  fpctl : k.fpctl = g.fpctl
  regs : ∀ j, j < 32 → (k.lane j).regs = (g.lane j).regs
  preds : ∀ j, j < 32 → (k.lane j).preds = (g.lane j).preds

/-- The registers of trap entry are the same. -/
structure SameTrap (x y : Fibre) : Prop where
  mode : y.mode = x.mode
  epc : y.epc = x.epc
  estatus : y.estatus = x.estatus
  ecause : y.ecause = x.ecause
  eaddr : y.eaddr = x.eaddr
  einfo : y.einfo = x.einfo
  eclause : y.eclause = x.eclause
  esave : y.esave = x.esave

/-- Every fibre of the packet stands `n` words on; every other stands where it stood. -/
def StandsOn (h : Here) (n : Nat) (g : Group) : Prop :=
  ∀ j, j < 32 →
    (g.lane j).pc = (h.g.lane j).pc + (if h.c.pk.lanes.getLsbD j then BitVec.ofNat 56 (4 * n) else 0) ∧
    (g.lane j).rem = (h.g.lane j).rem - (if h.c.pk.lanes.getLsbD j then BitVec.ofNat 4 n else 0)

/-- Every fibre of the packet stands at the start of a clause that `f` gives; every other stands where it stood. -/
def StandsAt (h : Here) (f : Nat → Addr) (g : Group) : Prop :=
  ∀ j, j < 32 →
    (g.lane j).pc = (if h.c.pk.lanes.getLsbD j then f j else (h.g.lane j).pc) ∧
    (g.lane j).rem = (if h.c.pk.lanes.getLsbD j then 0 else (h.g.lane j).rem)

/-- The flags of the list have risen by one, the others are the same. -/
def FlagsRise (g k : Group) (l : List Nat) : Prop :=
  ∀ n, n < 12 → k.flag n = g.flag n + (if l.contains n then 1 else 0)

/-- What a word leaves that touches no memory: memory, teams, contexts, clusters, Crozier, the host's side, security
and time are the same, and so is every core but the packet's and every group but its own. -/
structure SameElse (s t : State) (h : Here) : Prop where
  mem : t.mem = s.mem
  teams : t.teams = s.teams
  ctxs : t.ctxs = s.ctxs
  clusters : t.clusters = s.clusters
  crozs : t.crozs = s.crozs
  host : t.host = s.host
  sec : t.sec = s.sec
  now : t.now = s.now
  inputs : t.inputs = s.inputs
  cores : ∀ c, c ≠ h.c.core → t.coreOf c = s.coreOf c
  groups : ∀ n, n ≠ h.g.gid → t.group? n = s.group? n

/-- A word has issued the operation `o`: it is the last in the order of issue and takes the next number (R65); it knows
its group, team, context and instruction; the others are as they were, but that their fibres may have gone on. -/
structure Starts (i : Instr) (h : Here) (s t : State) (o : Op) : Prop where
  last : t.ops.getLast? = some o
  others : (t.ops.dropLast).map (fun o => { o with still := 0 }) = s.ops.map fun o => { o with still := 0 }
  id : o.id = s.serial
  core : o.core = h.c.core
  gid : o.gid = h.g.gid
  tid : o.tid = h.t.tid
  asid : o.asid = h.t.asid
  user : o.user = h.user
  pc : o.pc = h.first.pc
  len : o.len = i.words

/-- A load issues (R172): an operation for every active fibre with its destination and its translated accesses, which
counts against the flags of the clause; nothing else changes after the operands are read (`s1`), and the packet goes
on. -/
def LoadIssues (i : Instr) (d : Dst) (off : Option Word) (size : Size) (sp : Space) (k : OpKind) : Prop :=
  ∀ s s1 h ins ts, Issues i s h → Reads i s h ins s1 →
    AccessOk s1 h sp (sizeBytes size) .load true (ins.map fun x => (x.lane, effAddr sp (x.s 0) off)) ts →
    otRoom s1 h.c.core (accsOf ts (fun _ => 0) fun _ => 0) = true →
    ∃ t o g, exec i s = .next t ∧ SameElse s1 t h ∧ Starts i h s t o ∧ o.kind = k ∧ o.lanes = h.act ∧
      o.dst = some (d, (sizeKind size).regs) ∧ o.preds = [] ∧ o.flags = setFlags h.hdr ∧
      (o.accs.map fun a => (a.lane, a.tr)) = ts.map (fun p => (p.1, p.2.2)) ∧
      (o.accs.map (·.va)) = (ts.map fun p => BitVec.ofNat 64 p.2.1) ∧
      t.group? h.g.gid = some g ∧ SameRegs h.g g ∧ StandsOn h i.words g ∧ FlagsRise h.g g (setFlags h.hdr) ∧ g.sq = h.g.sq

/-- A store issues (R172, R206): an operation of the active fibres, and at the tail of the group's store queue one entry
for each sector that they store to, with each fibre's store; no memory changes yet. Stores that an open region keeps in
its buffer (R403) are not of this form. -/
def StoreIssues (i : Instr) (data : Src) (off : Option Word) (size : Size) (pol : Policy) (sp : Space)
    (rel : Option Scope) : Prop :=
  ∀ s s1 h ins ts, Issues i s h → Reads i s h ins s1 →
    AccessOk s1 h sp (sizeBytes size) .store true (ins.map fun x => (x.lane, effAddr sp (x.s 1) off)) ts →
    (∀ p ∈ ts, buffers h p = false) → otRoom s1 h.c.core (accsOf ts (fun _ => 0) fun _ => 0) = true →
    let bytes := laneBytes (ins.map fun x => (x.lane, storeBytes h.g data (sizeBytes size) x))
    let recs := storeRecs s.serial (sp == .scratch) ts bytes
    sqRoom h.g (sectorEntries rel recs) = true →
    ∃ t o g es, exec i s = .next t ∧ SameElse s1 t h ∧ SameTables (s.coreOf h.c.core) (t.coreOf h.c.core) ∧
      Starts i h s t o ∧ o.kind = .store pol rel ∧ o.lanes = h.act ∧ o.dst = none ∧ o.flags = setFlags h.hdr ∧
      t.group? h.g.gid = some g ∧ SameRegs h.g g ∧ StandsOn h i.words g ∧ FlagsRise h.g g (setFlags h.hdr) ∧
      g.sq = h.g.sq ++ es ∧ (∀ e ∈ es, e.rel = rel) ∧ (∀ r, (∃ e ∈ es, r ∈ e.stores) ↔ r ∈ recs) ∧
      ∀ e ∈ es, ∀ q ∈ e.stores, ∀ r ∈ e.stores, q.sector = r.sector

/-! ### Frame slices (R326 to R344) -/

/-- The unit reaches a descriptor at once, to write it too (`w`) or not: it translates in the present generation, its
line is in place, no range lock stands against it, and its sector has no error (R29, R155, R217, R332). -/
structure DescAt (s : State) (h : Here) (lane va : Nat) (t : Trans) (w : Bool) : Prop where
  walk : xlateNow s h.t.asid va (.engine w) false lane = some (.ok t)
  still : lineMoving s t = false
  free : lockMet (s.coreOf h.c.core) (some h.t.asid) h.t.tid va 16 w = none
  good : s.bad.contains (t.key / 128) = false

/-- The state after the unit has read at an address of the heap, at its home. -/
abbrev afterRead (s : State) (h : Here) (va : Nat) (t : Trans) : State := (s.accessed h.t.asid va).touch t h.c.core

/-- The descriptor that the unit reads at an address. -/
abbrev descOf (s : State) (h : Here) (va : Nat) (t : Trans) : Quad :=
  BitVec.ofNat 128 (leNat (Mem.read (s.accessed h.t.asid va).mem t.key 16))

/-- A handle names slot `k` of the team's heap (R334). -/
structure NamesSlot (s : State) (h : Here) (hd : Word) (k : Nat) : Prop where
  on : heapOn (s.ctxOf h.t.asid) = true
  set : hd.getLsbD 31 = true
  asid : wbits hd 19 12 = h.t.asid
  slot : wbits hd 0 12 = k
  pos : 1 ≤ k
  le : k ≤ slotCount (s.ctxOf h.t.asid).slheapcfg

/-- A handle is live: it names a slot whose descriptor, read at once, is in use in the handle's generation (R334). -/
structure LiveAt (s : State) (h : Here) (lane : Nat) (hd : Word) (k : Nat) (t : Trans) (w : Bool) : Prop where
  names : NamesSlot s h hd k
  desc : DescAt s h lane (descVa (s.ctxOf h.t.asid) k) t w
  used : (descOf s h (descVa (s.ctxOf h.t.asid) k) t).getLsbD 8 = true
  gen : qbits (descOf s h (descVa (s.ctxOf h.t.asid) k) t) 0 7 = wbits hd 12 7

/-- The frames of a stack above the one at `f`, as the links `w` name them, rise up to the one at `top` (R336). -/
def Frames (x : Fibre) (w : Nat → Dword) (top : Nat) : Nat → List Nat → Prop
  | f, [] => f = top
  | f, up :: r => (x.stackHi - w f).toNat = up ∧ f < up ∧ up ≤ top ∧ Frames x w top up r

/-- The frames of a slice above the one at offset `k`, as its links name them by their offsets, up to the bottom frame,
whose link is all ones (R336). -/
def Links (l : List Dword) : Nat → List Nat → Prop
  | k, [] => l[k / 8]? = some (BitVec.allOnes 64)
  | k, up :: r => l[k / 8]? = some (BitVec.ofNat 64 up) ∧ k < up ∧ up < 2 ^ 16 ∧ up % 8 = 0 ∧ Links l up r

/-- One fibre of the packet is active. -/
def OnlyLane (h : Here) (j : Nat) : Prop := j < 32 ∧ ∀ m, m < 32 → h.act.getLsbD m = (m == j)

/-- The destination of an instruction with one active fibre holds a word. -/
def DstHolds (d : Dst) (g : Group) (j : Nat) (w : Word) : Prop :=
  (∀ r, d = .v r → (g.lane j).reg r.toNat = w) ∧ ∀ r, d = .s r → g.scalar r.toNat = w

end Sys2Proof.Machine
end

