-- ==== Sys2Proof/Certificates/Slice0/Obligations.lean ====
section
/-!
DEFINITION. The statements for the provers. Each says which rules of the manual it formalises; where one rests on a
choice of the model, it names the log entry.
-/

open Sys2Proof Sys2Proof.Machine

/-! ### Encoding and decoding -/

/-- Words that the manual writes out decode to the instructions it writes beside them: `ICMPS.lt p3, v4, #0` (R106),
`PLOG.and p3, p1, !p2` (R107), `FFMA.rtz v4, v1, v2, v3` (R131), `LD.32 v6, [v8+16]` and `STL.32.device [v8], v2`
(chapter on memory instructions), `CLK v4` (R236), `END target, #4` (R74), `MZERO at4, #4` (R301), `CPYI.canon.st th3,
v6, #0, v9` (R270), `RBEGIN p5, v16, #8` (R401), `BEAT #100` with its extension word (R374). -/
def Obligations.DecodesWordsOfTheManual : Prop :=
  decode .I [0x6C3808C0] = .ok (.icmps 3 2 (.v 4) (.inl 0), 1) ∧
  decode .I [0x74301050] = .ok (.plog 3 .and 1 false 2 true, 1) ∧
  decode .F [0x0C100202, 0x00000403] = .ok (.ffma (.v 4) (.v 1) (.v 2) (.v 3) false false .rtz, 2) ∧
  decode .M [0x00181088, 0x00000010] = .ok (.ld (.v 6) (.v 8) (some 16) .b32 .normal .global false, 2) ∧
  decode .M [0x0C04084C] = .ok (.stl (.v 2) (.v 8) .b32 .device, 1) ∧
  decode .C [0x54100000] = .ok (.clk (.v 4), 1) ∧
  decode .C [0x1E100006] = .ok (.endF (some (4, 6)), 1) ∧
  decode .X [0x00400600] = .ok (.mzero 4 none 3, 1) ∧
  decode .K [0x04640006, 0x03001200] = .ok (.cpyi 3 false false (.v 6) (.inl 0) (some (.v 9)) none, 2) ∧
  decode .G [0x04540400] = .ok (.rbegin 5 16 8, 1) ∧
  decode .G [0x000000E0, 0x00000064] = .ok (.beat (.ext 100), 2)

/-- Decoding the words of any well-formed instruction, under its class, gives it back with all its operands, and takes
all of its words. -/
def Obligations.DecodeOfEncode : Prop :=
  ∀ (i : Instr) (c : Sys2Proof.Class), i.cls = some c → i.wf = true → decode c (encode i) = .ok (i, i.words)

/-! ### Steps -/

/-- When the boot ROM has run and a scheduler's word is the next move, and the words from the packet's place on, as they are fetched, are those of
one instruction of the clause's class within what is left of the clause, the step executes exactly that instruction, in
the state after its fetches (R35, R56); where no fibre of the packet is active, the packet goes on past its clause (R35).
Beside it a step brings nothing but the save areas of saved teams up to date. A word fetched is the word in memory at the
translation of its address, unless the instruction cache still holds an older one (R197), and a fetch changes nothing
but caches and what a read at a home does. -/
def Obligations.StepExecutesDecodedInstruction : Prop :=
  (∀ (s s1 s2 : State) (core sched : Nat) (pk : Cur) (h : Here) (c : Sys2Proof.Class) (ws : List Word) (i : Instr),
    s.sec.booted = true → enabledIntervalBoundary s = false → nextMove s = (some (.word core sched), s1) →
    wordPacket s1 core sched = some pk → ({ s1 with cur := some pk } : State).here? = some h → h.act ≠ 0 →
    hdrClass h.hdr = some c → OneInstr c ws i → ws.length ≤ min h.first.rem.toNat 4 →
    fetched h 0 ws.length { s1 with cur := some pk } = some (ws, s2) → step s = keepingAreas s (exec i s2)) ∧
  (∀ (s s1 : State) (core sched : Nat) (pk : Cur) (h : Here),
    s.sec.booted = true → enabledIntervalBoundary s = false → nextMove s = (some (.word core sched), s1) →
    wordPacket s1 core sched = some pk → ({ s1 with cur := some pk } : State).here? = some h → h.act = 0 →
    step s = keepingAreas s (.next (s1.transfer pk []))) ∧
  (∀ s t : State, (∀ q ∈ t.teams, q.phase ≠ .saved) → keepingAreas s (.next t) = .next t) ∧
  (∀ (s : State) (core asid va lane : Nat) (user : Bool) (tr : Trans),
    translate s core asid va lane .fetch user = .ok tr → lineMoving s tr = false →
    s.bad.contains (tr.key / 128) = false → stale s asid tr = false →
    ∃ w t, fetchWord s core asid va lane user = .ok (w, t) ∧
      (w = Mem.read32 s.mem tr.key ∨
        ∃ l, cacheFind (s.coreOf core).icache asid va 4 = some l ∧ w = BitVec.ofNat 32 (leNat l))) ∧
  ∀ (s t : State) (core asid va lane : Nat) (user : Bool) (w : Word),
    fetchWord s core asid va lane user = .ok (w, t) → SameButCaches core s t

/-- The machine never stops: from every state a step leads to a next state. -/
def Obligations.EveryStepAnswersNext : Prop :=
  ∀ s : State, ∃ t, step s = .next t

/-- Every step keeps the canonical form of memory: addresses rise and no listed byte is 0 (the form is the model's,
log 3). -/
def Obligations.EveryStepKeepsMemoryCanonical : Prop :=
  ∀ s t : State, Mem.wf s.mem = true → step s = .next t → Mem.wf t.mem = true

/-! ### Reset and memory -/

/-- What device reset leaves, as the manual's tables state it: nothing is resident, time is 0 (R236), the measurement
registers are zero (R432), every region runs at step 0 (R23, R429), and the defaults of a fresh context's governor (R378),
of Crozier's tables (R373), of the fabric unit (R409), of the host's side (R425) and of a team (R293). That memory lists
nothing, each byte reading 0 (log 3), and that a context's generation is 0 (log 4) are the model's choices. -/
def Obligations.ResetLeaves : Prop :=
  State.reset.now = 0 ∧ State.reset.groups = [] ∧ State.reset.teams = [] ∧ State.reset.ctxs = [] ∧
  State.reset.mem = [] ∧ State.reset.ops = [] ∧
  (∀ n, n < 8 → vget State.reset.sec.mr n [] = List.replicate 64 0) ∧
  (∀ c, (State.reset.clusterOf c).step = 0) ∧
  State.reset.gvintlen = 128 ∧
  (∀ a, (State.reset.ctxOf a).gov.ctl = 0x00020000 ∧ (State.reset.ctxOf a).gov.imax = 0x7FFFFFFF ∧
    (State.reset.ctxOf a).gen = 0 ∧ (State.reset.ctxOf a).slheapcfg = 0) ∧
  (∀ d, (State.reset.crozOf d).savebw = 128000 ∧ (State.reset.crozOf d).block = 1000 ∧
    (State.reset.crozOf d).running = []) ∧
  State.reset.fabric.fxrto = 50 ∧ State.reset.host.frzmax = 1000 ∧ ({} : Team).mxshape = 0x1800000000000020

/-- A byte written to a canonical memory is read back, and no other byte changes. Bytes written from an address up are
read back there, and every byte outside them is as before. -/
def Obligations.MemoryReadsWhatWasWritten : Prop :=
  (∀ (m : List Host.Cell) (a b : Nat) (v : Byte), Mem.wf m = true →
     Mem.get (Mem.set m a v) b = if b = a then v else Mem.get m b) ∧
  (∀ (m : List Host.Cell) (a : Nat) (l : List Byte), Mem.wf m = true →
     Mem.read (Mem.write m a l) a l.length = l ∧
     ∀ b, b < a ∨ a + l.length ≤ b → Mem.get (Mem.write m a l) b = Mem.get m b)

/-! ### Class I -/

/-- R98: two-operand arithmetic and logic, with the opcodes of its table. -/
def Obligations.TwoOperandArithmetic : Prop :=
  ∀ (d : Dst) (a b : Src),
    (opOf (.iadd d a b) = 0x01 ∧ Yields (.iadd d a b) (bin32 fun x y => BitVec.ofNat 32 (x.toNat + y.toNat))) ∧
    (opOf (.isub d a b) = 0x02 ∧
      Yields (.isub d a b) (bin32 fun x y => BitVec.ofInt 32 ((x.toNat : Int) - (y.toNat : Int)))) ∧
    (opOf (.imul d a b) = 0x03 ∧ Yields (.imul d a b) (bin32 fun x y => BitVec.ofNat 32 (x.toNat * y.toNat))) ∧
    (opOf (.imulhs d a b) = 0x04 ∧
      Yields (.imulhs d a b) (bin32 fun x y => (BitVec.ofInt 64 (x.toInt * y.toInt)).extractLsb' 32 32)) ∧
    (opOf (.imulhn d a b) = 0x05 ∧
      Yields (.imulhn d a b) (bin32 fun x y => (BitVec.ofNat 64 (x.toNat * y.toNat)).extractLsb' 32 32)) ∧
    (opOf (.imin d a b) = 0x07 ∧ Yields (.imin d a b) (bin32 fun x y => if x.toInt ≤ y.toInt then x else y)) ∧
    (opOf (.imax d a b) = 0x08 ∧ Yields (.imax d a b) (bin32 fun x y => if x.toInt ≤ y.toInt then y else x)) ∧
    (opOf (.iminn d a b) = 0x09 ∧ Yields (.iminn d a b) (bin32 fun x y => if x.toNat ≤ y.toNat then x else y)) ∧
    (opOf (.imaxn d a b) = 0x0A ∧ Yields (.imaxn d a b) (bin32 fun x y => if x.toNat ≤ y.toNat then y else x)) ∧
    (opOf (.andI d a b) = 0x0D ∧ Yields (.andI d a b) (bin32 fun x y => x &&& y)) ∧
    (opOf (.orI d a b) = 0x0E ∧ Yields (.orI d a b) (bin32 fun x y => x ||| y)) ∧
    (opOf (.xorI d a b) = 0x0F ∧ Yields (.xorI d a b) (bin32 fun x y => x ^^^ y)) ∧
    (opOf (.andn d a b) = 0x10 ∧ Yields (.andn d a b) (bin32 fun x y => x &&& ~~~y)) ∧
    (opOf (.shl d a b) = 0x11 ∧
      Yields (.shl d a b) (bin32 fun x y => if y.toNat < 32 then BitVec.ofNat 32 (x.toNat * 2 ^ y.toNat) else 0)) ∧
    (opOf (.shr d a b) = 0x12 ∧
      Yields (.shr d a b) (bin32 fun x y => if y.toNat < 32 then BitVec.ofNat 32 (x.toNat / 2 ^ y.toNat) else 0)) ∧
    (opOf (.sar d a b) = 0x13 ∧
      Yields (.sar d a b) (bin32 fun x y =>
        if y.toNat < 32 then BitVec.ofInt 32 (x.toInt / 2 ^ y.toNat)
        else if x.getLsbD 31 then 0xFFFFFFFF else 0)) ∧
    (opOf (.rotl d a b) = 0x14 ∧
      Yields (.rotl d a b) (bin32 fun x y => (x <<< (y.toNat % 32)) ||| (x >>> (32 - y.toNat % 32)))) ∧
    ∀ i ∈ [Instr.iadd d a b, .isub d a b, .imul d a b, .imulhs d a b, .imulhn d a b, .imin d a b, .imax d a b,
        .iminn d a b, .imaxn d a b, .andI d a b, .orI d a b, .xorI d a b, .andn d a b, .shl d a b, .shr d a b, .sar d a b,
        .rotl d a b],
      (shape i).srcs.map (·.kind) = [.w32, .w32] ∧ (shape i).dst = some (d, .w32)

/-- R99: one-operand instructions, with the opcodes of its table. -/
def Obligations.OneOperandArithmetic : Prop :=
  ∃ clz brev : Word → Word,
    (∀ a, (clz a).toNat ≤ 32 ∧ a.toNat < 2 ^ (32 - (clz a).toNat) ∧
      (a ≠ 0 → 2 ^ (31 - (clz a).toNat) ≤ a.toNat)) ∧
    clz 0 = 32 ∧
    (∀ a k, k < 32 → (brev a).getLsbD (31 - k) = a.getLsbD k) ∧
    (∀ (w : Word) (ws : List Word), w.extractLsb' 0 9 ≠ 0 →
      w.toNat / 2 ^ 26 ∈ [0x00, 0x0B, 0x0C, 0x15, 0x16, 0x17] → decode .I (w :: ws) = .error .illegalEncoding) ∧
    ∀ (d : Dst) (a : Src),
      (opOf (.mov d a) = 0x00 ∧ Yields (.mov d a) (un32 fun x => x)) ∧
      (opOf (.iabs d a) = 0x0B ∧ Yields (.iabs d a) (un32 fun x => if 0 ≤ x.toInt then x else 0 - x)) ∧
      (opOf (.ineg d a) = 0x0C ∧ Yields (.ineg d a) (un32 fun x => 0 - x)) ∧
      (opOf (.popc d a) = 0x15 ∧
        Yields (.popc d a) (un32 fun x => BitVec.ofNat 32 ((List.range 32).countP fun k => x.getLsbD k))) ∧
      (opOf (.clz d a) = 0x16 ∧ Yields (.clz d a) (un32 clz)) ∧
      (opOf (.brev d a) = 0x17 ∧ Yields (.brev d a) (un32 brev))

/-- R100: 64-bit operands, with the opcodes of its table. -/
def Obligations.WideArithmetic : Prop :=
  ∀ (d : Dst) (a b : Src),
    (opOf (.iadd64 d a b) = 0x20 ∧
      Yields (.iadd64 d a b) (each fun x => out64 (BitVec.ofNat 64 ((x.s 0).toNat + (x.s 1).toNat)))) ∧
    (opOf (.isub64 d a b) = 0x21 ∧
      Yields (.isub64 d a b) (each fun x => out64 (BitVec.ofInt 64 (((x.s 0).toNat : Int) - ((x.s 1).toNat : Int))))) ∧
    (opOf (.shl64 d a b) = 0x22 ∧
      Yields (.shl64 d a b) (each fun x => out64
        (if (x.w 1).toNat < 64 then BitVec.ofNat 64 ((x.s 0).toNat * 2 ^ (x.w 1).toNat) else 0))) ∧
    (opOf (.shr64 d a b) = 0x23 ∧
      Yields (.shr64 d a b) (each fun x => out64
        (if (x.w 1).toNat < 64 then BitVec.ofNat 64 ((x.s 0).toNat / 2 ^ (x.w 1).toNat) else 0))) ∧
    (opOf (.imulw d a b) = 0x25 ∧
      Yields (.imulw d a b) (each fun x => out64 (BitVec.ofInt 64 ((x.w 0).toInt * (x.w 1).toInt)))) ∧
    (opOf (.iaddw d a b) = 0x26 ∧
      Yields (.iaddw d a b) (each fun x => out64 (BitVec.ofInt 64 (((x.s 0).toNat : Int) + (x.w 1).toInt)))) ∧
    (shape (.iadd64 d a b)).srcs.map (·.kind) = [.w64, .w64] ∧ (shape (.isub64 d a b)).srcs.map (·.kind) = [.w64, .w64] ∧
    (shape (.shl64 d a b)).srcs.map (·.kind) = [.w64, .w32] ∧ (shape (.shr64 d a b)).srcs.map (·.kind) = [.w64, .w32] ∧
    (shape (.imulw d a b)).srcs.map (·.kind) = [.w32, .w32] ∧ (shape (.iaddw d a b)).srcs.map (·.kind) = [.w64, .w32] ∧
    ∀ i ∈ [Instr.iadd64 d a b, .isub64 d a b, .shl64 d a b, .shr64 d a b, .imulw d a b, .iaddw d a b],
      (shape i).dst = some (d, .w64)

/-- R101 to R104: what `IMAD` in its three forms, `LEA`, `BFX`, `BFI` and `ISEL` write. R105: `CVTI` reads the low
bits of its source as the source type, shifts right towards minus infinity, and keeps the low bits or saturates to the
target type. -/
def Obligations.ThreeOperandFormsAndConversions : Prop :=
  (∃ bfi : Nat → Word → Word → Nat → Word,
     (∀ width base value pos k, k < 32 → (bfi width base value pos).getLsbD k =
       if pos ≤ k ∧ k < pos + width then value.getLsbD (k - pos) else base.getLsbD k) ∧
     ∀ (d : Dst) (a b c : Src),
       Yields (.imad d a b c .wrap)
         (each fun x => out32 (BitVec.ofNat 32 ((x.w 0).toNat * (x.w 1).toNat + (x.w 2).toNat))) ∧
       Yields (.imad d a b c .sat) (each fun x => out32 (BitVec.ofInt 32
         (max (-2 ^ 31) (min ((x.w 0).toInt * (x.w 1).toInt + (x.w 2).toInt) (2 ^ 31 - 1))))) ∧
       Yields (.imad d a b c .satn) (each fun x => out32 (BitVec.ofNat 32
         (min ((x.w 0).toNat * (x.w 1).toNat + (x.w 2).toNat) (2 ^ 32 - 1)))) ∧
       (∀ sh, Yields (.lea d a b c false sh) (each fun x => out64 (BitVec.ofInt 64
         (((x.s 0).toNat : Int) + (x.w 1).toInt * 2 ^ sh.toNat + (x.w 2).toInt)))) ∧
       (∀ sh, Yields (.lea d a b c true sh) (each fun x => out64 (BitVec.ofInt 64
         (((x.s 0).toNat : Int) + ((x.w 1).toNat : Int) * 2 ^ sh.toNat + (x.w 2).toInt)))) ∧
       Yields (.bfx d a b c false) (each fun x => out32
         (if 32 ≤ (x.w 1).toNat ∨ (x.w 2).toNat = 0 then 0
          else ((x.w 0).extractLsb' (x.w 1).toNat (min (x.w 2).toNat (32 - (x.w 1).toNat))).setWidth 32)) ∧
       Yields (.bfx d a b c true) (each fun x => out32
         (if 32 ≤ (x.w 1).toNat ∨ (x.w 2).toNat = 0 then 0
          else ((x.w 0).extractLsb' (x.w 1).toNat (min (x.w 2).toNat (32 - (x.w 1).toNat))).signExtend 32)) ∧
       (∀ width, Yields (.bfi d a b c width)
         (each fun x => out32 (bfi width.toNat (x.w 0) (x.w 1) (x.w 2).toNat))) ∧
       (∀ neg p, Yields (.isel d a b neg p)
         (each fun x => out32 (if xor (x.p p.toNat) neg then x.w 0 else x.w 1)))) ∧
  (∀ (d : Dst) (a b : Src) (sat : Bool) (tt fr : IntTy),
     Yields (.cvti d a b sat tt fr) (each fun x => out64
       (let v : Int := if intSgn fr then ((x.s 0).setWidth (intW fr)).toInt else (((x.s 0).setWidth (intW fr)).toNat : Int)
        let v := v / 2 ^ (x.w 1).toNat
        let r : BitVec (intW tt) := BitVec.ofInt (intW tt) (if sat then max (intLo tt) (min v (intHi tt)) else v)
        if intW tt = 64 then r.setWidth 64
        else ((if intSgn tt then r.signExtend 32 else r.setWidth 32 : Word)).setWidth 64)))

/-- R106 and R107: compares and `PLOG` write the predicate pd in every active fibre. R108: `PRD` reads half of the
predicate word, bit 0 of the low half as 1, and `PWR` writes one. -/
def Obligations.ComparesAndPredicates : Prop :=
  (∀ (pd : BitVec 6) (a b : Src),
     Yields (.icmps pd 0 a b) (each fun x => outP pd (decide ((x.w 0).toInt = (x.w 1).toInt))) ∧
     Yields (.icmps pd 1 a b) (each fun x => outP pd (decide ((x.w 0).toInt ≠ (x.w 1).toInt))) ∧
     Yields (.icmps pd 2 a b) (each fun x => outP pd (decide ((x.w 0).toInt < (x.w 1).toInt))) ∧
     Yields (.icmps pd 3 a b) (each fun x => outP pd (decide ((x.w 0).toInt ≤ (x.w 1).toInt))) ∧
     Yields (.icmpn pd 0 a b) (each fun x => outP pd (decide ((x.w 0).toNat = (x.w 1).toNat))) ∧
     Yields (.icmpn pd 1 a b) (each fun x => outP pd (decide ((x.w 0).toNat ≠ (x.w 1).toNat))) ∧
     Yields (.icmpn pd 2 a b) (each fun x => outP pd (decide ((x.w 0).toNat < (x.w 1).toNat))) ∧
     Yields (.icmpn pd 3 a b) (each fun x => outP pd (decide ((x.w 0).toNat ≤ (x.w 1).toNat))) ∧
     Yields (.icmp64 pd 0 a b) (each fun x => outP pd (decide (x.s 0 = x.s 1))) ∧
     Yields (.icmp64 pd 1 a b) (each fun x => outP pd (decide (x.s 0 ≠ x.s 1))) ∧
     Yields (.icmp64 pd 2 a b) (each fun x => outP pd (decide ((x.s 0).toInt < (x.s 1).toInt))) ∧
     Yields (.icmp64 pd 3 a b) (each fun x => outP pd (decide ((x.s 0).toNat < (x.s 1).toNat))) ∧
     ∀ (pa pb : BitVec 6) (na nb : Bool),
       Yields (.plog pd .and pa na pb nb) (each fun x => outP pd ((xor (x.p pa.toNat) na) && (xor (x.p pb.toNat) nb))) ∧
       Yields (.plog pd .or pa na pb nb) (each fun x => outP pd ((xor (x.p pa.toNat) na) || (xor (x.p pb.toNat) nb))) ∧
       Yields (.plog pd .xor pa na pb nb) (each fun x => outP pd (xor (xor (x.p pa.toNat) na) (xor (x.p pb.toNat) nb))) ∧
       Yields (.plog pd .mov pa na pb nb) (each fun x => outP pd (xor (x.p pa.toNat) na))) ∧
  (∃ prd : Bool → LaneIn → Word,
     (∀ h x k, k < 32 → (prd h x).getLsbD k = x.p (k + if h then 32 else 0)) ∧
     (∀ (d : Dst) (h : Bool), Yields (.prd d h) (each fun x => out32 (prd h x))) ∧
     ∀ (a : Src) (h : Bool), Yields (.pwr a h) (each fun x =>
       { pset := (List.range 32).map fun k => ((if h then 32 else 0) + k, (x.w 0).getLsbD k) }))

/-- R110: `SHFL` gives each active fibre the value of its source lane, or the fallback when the source lies beyond the
edge of the segment or is no active fibre of the packet. R111 to R113: `VOTE`, `BALLOT` and `ELECT` see the active
fibres of the packet. R114: `RAND` mixes its operands in the given number of rounds; `.n32` gives the low half, `.f32`
the top 24 bits as a fraction of 1, `.n64` all of it. -/
def Obligations.FibresShuffleVoteAndDraw : Prop :=
  (∀ (d : Dst) (a b c : Src) (w : SegW) (m : ShflMode),
     Yields (.shfl d a b c w m) (fun _ l => l.map fun x => out32
       (let n := segLanes w
        let base := x.lane / n * n
        let k := (x.w 1).toNat
        let j : Option Nat := match m with
          | .idx => some (base + k % n)
          | .up => if k ≤ x.lane - base then some (x.lane - k) else none
          | .down => if k ≤ base + n - 1 - x.lane then some (x.lane + k) else none
          | .xor => some (x.lane ^^^ (k % n))
        match j.bind fun j => l.find? fun y => y.lane = j with
        | some y => y.w 0
        | none => x.w 2))) ∧
  (∃ ballot : List LaneIn → Word,
     (∀ l k, k < 32 → (∀ x ∈ l, x.lane < 32) → (ballot l).getLsbD k = l.any fun x => x.lane == k && x.w 0 != 0) ∧
     ∀ (d : Dst) (a : Src) (pd : BitVec 6),
       Yields (.vote pd 0 a) (fun _ l => l.map fun _ => outP pd (l.all fun x => x.w 0 != 0)) ∧
       Yields (.vote pd 1 a) (fun _ l => l.map fun _ => outP pd (l.any fun x => x.w 0 != 0)) ∧
       Yields (.vote pd 2 a) (fun _ l => l.map fun _ => outP pd (!l.any fun x => x.w 0 != 0)) ∧
       Yields (.vote pd 3 a) (fun _ l => l.map fun _ => outP pd (l.all fun x => l.all fun y => x.w 0 == y.w 0)) ∧
       Yields (.ballot d a) (fun _ l => l.map fun _ => out32 (ballot l)) ∧
       Yields (.elect pd false) (fun _ l => l.map fun x => outP pd (l.all fun y => x.lane ≤ y.lane)) ∧
       Yields (.elect pd true) (fun _ l => l.map fun x => outP pd (l.all fun y => y.lane ≤ x.lane))) ∧
  (∀ (d : Dst) (a b c : Src) (r : RandRounds),
     let mix := fun (x : LaneIn) => (List.range (roundCount r)).foldl (fun (z : Dword) _ =>
         let z1 := z + ((x.w 0) ++ (x.w 0 ^^^ 0x5A5A5A5A))
         let z2 := (z1 ^^^ (z1 >>> 29)) * 0xB4F16A2D3C87E951
         z2 ^^^ (z2 >>> 32)) (x.w 2 ++ x.w 1)
     Yields (.rand d a b c .n32 r) (each fun x => out32 ((mix x).setWidth 32)) ∧
     Yields (.rand d a b c .n64 r) (each fun x => out64 (mix x)) ∧
     Yields (.rand d a b c .f32 r) (each fun x => out64 (BitVec.ofNat 64 (f32Frac24 ((mix x).toNat / 2 ^ 40)))) ∧
     ∀ n, n < 2 ^ 24 → ∃ m e, fmt32.unpack (f32Frac24 n) = .fin false m e ∧ (m : ℚ) * 2 ^ e = n / 2 ^ 24)

/-! ### What a class I or class F word writes -/

/-- A fibre-register destination: in every active fibre the registers that the destination covers hold the words of
its value, lowest first (R43), every other register of every fibre is as before, and every fibre of the packet stands
at its next word. A scalar destination receives the value of the lowest-numbered active fibre (R44, R97), and no
register of a fibre changes. A channel destination receives the values of the active fibres, one element each in their
order, behind the elements that it holds once the sources are popped, and no register changes (R47, R201). -/
def Obligations.RegisterResults : Prop :=
  (∀ (i : Instr) (h : Here) (ins : List LaneIn) (outs : List LaneOut) (s1 : State) (r : BitVec 6) (k : Kind),
     s1.group? h.g.gid = some h.g → h.c.pk.gid = h.g.gid → (shape i).dst = some (.v r, k) → r.toNat + k.regs ≤ 64 →
     outs.length = ins.length → LanesOk h (List.zip (ins.map (·.lane)) outs) →
     ∃ g, (vecDone i h ins outs s1).group? h.g.gid = some g ∧
       ∀ j, j < 32 →
         (∀ n, n < 64 → (g.lane j).reg n =
           match assoc (List.zip (ins.map (·.lane)) outs) j with
           | some o => if r.toNat ≤ n ∧ n < r.toNat + k.regs then wordAt o.val (n - r.toNat) else (h.g.lane j).reg n
           | none => (h.g.lane j).reg n) ∧
         (g.lane j).pc = (h.g.lane j).pc + (if h.c.pk.lanes.getLsbD j then BitVec.ofNat 56 (4 * i.words) else 0) ∧
         (g.lane j).rem = (h.g.lane j).rem - (if h.c.pk.lanes.getLsbD j then BitVec.ofNat 4 i.words else 0)) ∧
  (∀ (i : Instr) (h : Here) (ins : List LaneIn) (outs : List LaneOut) (s1 : State) (r : BitVec 5) (k : Kind) (o : LaneOut),
     s1.group? h.g.gid = some h.g → h.c.pk.gid = h.g.gid → (shape i).dst = some (.s r, k) → r.toNat + k.regs ≤ 32 →
     outs.length = ins.length → LanesOk h (List.zip (ins.map (·.lane)) outs) →
     assoc (List.zip (ins.map (·.lane)) outs) h.lead = some o →
     ∃ g, (vecDone i h ins outs s1).group? h.g.gid = some g ∧
       (∀ n, n < 32 → g.scalar n =
         if r.toNat ≤ n ∧ n < r.toNat + k.regs then wordAt o.val (n - r.toNat) else h.g.scalar n) ∧
       ∀ j n, j < 32 → n < 64 → (g.lane j).reg n = (h.g.lane j).reg n) ∧
  ∀ (i : Instr) (h : Here) (ins : List LaneIn) (outs : List LaneOut) (s1 : State) (ch : BitVec 5) (kd : Kind)
    (k : Channel) (t : Team),
    let s2 := popAll s1 h.c.core ins.length (shape i)
    s1.group? h.g.gid = some h.g → h.c.pk.gid = h.g.gid → (shape i).dst = some (.push ch, kd) →
    outs.length = ins.length → LanesOk h (List.zip (ins.map (·.lane)) outs) →
    assoc (s2.coreOf h.c.core).chans ch.toNat = some k → s1.team? h.t.tid = some t → Mem.wf t.scratch = true →
    k.count + outs.length ≤ k.depth →
    ∃ k1 t1 g, assoc ((vecDone i h ins outs s1).coreOf h.c.core).chans ch.toNat = some k1 ∧
      (vecDone i h ins outs s1).team? h.t.tid = some t1 ∧ (vecDone i h ins outs s1).group? h.g.gid = some g ∧
      k1.count = k.count + outs.length ∧
      (∀ n, n < k.count → k1.elem t1.scratch n = k.elem t.scratch n) ∧
      (∀ n o, outs[n]? = some o →
        k1.elem t1.scratch (k.count + n) = BitVec.ofNat 64 (o.val.toNat % 2 ^ (8 * k.width))) ∧
      g.scal = h.g.scal ∧ ∀ j n, j < 32 → n < 64 → (g.lane j).reg n = (h.g.lane j).reg n

/-- Predicates: each active fibre's take what the word writes, but p0 always reads true; every other predicate is as
before; and the group's FPCTL takes the union of the fibres' status flags (R50, R58, R97, R119). -/
def Obligations.PredicateAndFlagResults : Prop :=
  ∀ (i : Instr) (h : Here) (ins : List LaneIn) (outs : List LaneOut) (s1 : State),
    s1.group? h.g.gid = some h.g → h.c.pk.gid = h.g.gid → outs.length = ins.length →
    LanesOk h (List.zip (ins.map (·.lane)) outs) → (∀ o ∈ outs, ∀ q ∈ o.pset, q.1 < 64) →
    ∃ g, (vecDone i h ins outs s1).group? h.g.gid = some g ∧
      (∀ j p, j < 32 → p < 64 → (g.lane j).pred p =
        match assoc (List.zip (ins.map (·.lane)) outs) j with
        | some o => predAfter ((h.g.lane j).pred p) p o.pset
        | none => (h.g.lane j).pred p) ∧
      ∀ n, n < 32 → g.fpctl.getLsbD n =
        (h.g.fpctl.getLsbD n || (decide (8 ≤ n ∧ n < 14) && outs.any fun o => o.fl.getLsbD (n - 8)))

/-- The frame of class I and class F: such a word never touches memory, contexts, engines, homes, the fabric or the
host's side; of other cores and other groups it changes nothing, and of its own group nothing but registers, scalars,
predicates, FPCTL, and where its fibres stand; teams change only where a channel is pushed (R95, R132). Reading constant
words changes nothing but caches and what a read at a home does (R152), and an instruction that reads none reads no
memory. -/
def Obligations.VectorWordFrame : Prop :=
  (∀ (i : Instr) (s : State) (h : Here) (ins : List LaneIn) (s1 : State),
    Reads i s h ins s1 → SameButCaches h.c.core s s1 ∧ (constWords (shape i).srcs = [] → s1 = s)) ∧
  ∀ (i : Instr) (s : State) (h : Here) (ins : List LaneIn) (s1 : State),
    (i.cls = some .I ∨ i.cls = some .F) → Issues i s h → Reads i s h ins s1 →
    ∃ t, exec i s = .next t ∧ SameDevice s1 t ∧
      t.ops.map (fun o => { o with still := 0 }) = s.ops.map (fun o => { o with still := 0 }) ∧
      t.serial = s.serial ∧
      (∀ n, n ≠ h.g.gid → t.group? n = s.group? n) ∧
      (∀ c, c ≠ h.c.core → t.coreOf c = s.coreOf c) ∧ SameTables (s.coreOf h.c.core) (t.coreOf h.c.core) ∧
      (chanUses (shape i) = [] → t.teams = s.teams ∧ (t.coreOf h.c.core).chans = (s.coreOf h.c.core).chans) ∧
      ∃ g, t.group? h.g.gid = some g ∧ SameGroup h.g g ∧ ∀ j, j < 32 → SameSystem (h.g.lane j) (g.lane j)

/-- A channel is first in, first out: an element pushed where there is room becomes the youngest, the elements before it
keep their values, and dropping the oldest moves every other up (R47, R198 to R201). -/
def Obligations.ChannelIsFirstInFirstOut : Prop :=
  ∀ (s : State) (core ch tid : Nat) (v : Dword) (k : Channel) (t : Team),
    assoc (s.coreOf core).chans ch = some k → s.team? tid = some t → k.count < k.depth → Mem.wf t.scratch = true →
    ∃ k1 t1, assoc ((chanPush s core ch tid v).coreOf core).chans ch = some k1 ∧
      (chanPush s core ch tid v).team? tid = some t1 ∧ k1.count = k.count + 1 ∧
      k1.elem t1.scratch k.count = BitVec.ofNat 64 (v.toNat % 2 ^ (8 * k.width)) ∧
      (∀ n, n < k.count → k1.elem t1.scratch n = k.elem t.scratch n) ∧
      ∃ k2, assoc ((chanDrop s core ch 1).coreOf core).chans ch = some k2 ∧ k2.count = k.count - 1 ∧
        ∀ n, k2.elem t.scratch n = k.elem t.scratch (n + 1)

/-! ### Class F -/

/-- R135 and R143: `FABS` clears bit 31 and `FNEG` inverts it, no other bit changes and no flag is set; `TNEG` writes
0 − a modulo 2^32, which leaves 0 and NaR unchanged. -/
def Obligations.FloatSigns : Prop :=
  ∃ abs neg : Word → Word,
    (∀ a k, (abs a).getLsbD k = (a.getLsbD k && k != 31)) ∧
    (∀ a k, k < 32 → (neg a).getLsbD k = xor (a.getLsbD k) (k == 31)) ∧
    (0 : Word) - 0 = 0 ∧ (0 : Word) - 0x80000000 = 0x80000000 ∧
    (∀ (w : Word) (ws : List Word), w.extractLsb' 0 9 ≠ 0 → w.toNat / 2 ^ 26 ∈ [0x06, 0x07, 0x1D] →
      decode .F (w :: ws) = .error .illegalEncoding) ∧
    ∀ (d : Dst) (a : Src),
      (opOf (.fabs d a) = 0x06 ∧ (encode (.fabs d a)).headD 0 &&& 0x1FF = 0 ∧ Yields (.fabs d a) (un32 abs)) ∧
      (opOf (.fneg d a) = 0x07 ∧ (encode (.fneg d a)).headD 0 &&& 0x1FF = 0 ∧ Yields (.fneg d a) (un32 neg)) ∧
      (opOf (.tneg d a) = 0x1D ∧ (encode (.tneg d a)).headD 0 &&& 0x1FF = 0 ∧ Yields (.tneg d a) (un32 fun x => 0 - x))

/-- R134, R136 and R145: `FMIN` and `FMAX` with −0 below +0, `FCMP` with its NaN rules and flags, `TCMP` as signed
words. The value order of f32 patterns is that of their magnitudes under their signs. R141 and R146: `FCLASS` sets
exactly the bit of its operand's class, `FKEY` maps a NaN to 0 and orders the other values, and neither sets a flag.
-/
def Obligations.FloatComparesClassesAndKeys : Prop :=
  (∃ (mn mx : Word → Word → Word × BitVec 6) (cmp : BitVec 2 → Word → Word → Bool × BitVec 6),
     (∀ x y, f32IsNan x = false → f32IsNan y = false →
       let less := f32Order x < f32Order y ∨ (f32Order x = f32Order y ∧ x.getLsbD 31 = true)
       mn x y = (if less then x else y, 0) ∧ mx x y = (if less then y else x, 0) ∧
       cmp 0 x y = (decide (f32Order x = f32Order y), 0) ∧ cmp 1 x y = (decide (f32Order x < f32Order y), 0) ∧
       cmp 2 x y = (decide (f32Order x ≤ f32Order y), 0) ∧ cmp 3 x y = (false, 0)) ∧
     (∀ x y, f32IsNan x = true ∨ f32IsNan y = true →
       let nv : BitVec 6 := if f32IsSignalling x || f32IsSignalling y then 1 else 0
       (mn x y).2 = nv ∧ (mx x y).2 = nv ∧
       (mn x y).1 = (if f32IsNan x = false then x else if f32IsNan y = false then y else 0x7FC00000) ∧
       (mx x y).1 = (if f32IsNan x = false then x else if f32IsNan y = false then y else 0x7FC00000) ∧
       cmp 0 x y = (false, nv) ∧ cmp 1 x y = (false, 1) ∧ cmp 2 x y = (false, 1) ∧ cmp 3 x y = (true, nv)) ∧
     ∀ (d : Dst) (a b : Src) (pd : BitVec 6),
       Yields (.fmin d a b) (each fun x => { val := ((mn (x.w 0) (x.w 1)).1).setWidth 64, fl := (mn (x.w 0) (x.w 1)).2 }) ∧
       Yields (.fmax d a b) (each fun x => { val := ((mx (x.w 0) (x.w 1)).1).setWidth 64, fl := (mx (x.w 0) (x.w 1)).2 }) ∧
       (∀ cc, Yields (.fcmp pd cc a b) (each fun x => outPF pd (cmp cc (x.w 0) (x.w 1)))) ∧
       (∀ cc, Yields (.dcmp pd cc a b) (each fun x => outPF pd (fmt64.cmp cc.toNat (x.d 0) (x.d 1)))) ∧
       Yields (.tcmp pd 0 a b) (each fun x => outP pd (decide ((x.w 0).toInt = (x.w 1).toInt))) ∧
       Yields (.tcmp pd 1 a b) (each fun x => outP pd (decide ((x.w 0).toInt < (x.w 1).toInt))) ∧
       Yields (.tcmp pd 2 a b) (each fun x => outP pd (decide ((x.w 0).toInt ≤ (x.w 1).toInt))) ∧
       Yields (.tcmp pd 3 a b) (each fun x => outP pd (decide (x.w 0 = 0x80000000)))) ∧
  -- f64 compares as the values of its patterns, an infinity beyond every number, −0 equal to +0
  (∀ x y, x < 2 ^ 64 → y < 2 ^ 64 →
    (¬fmt64.Nan x → ¬fmt64.Nan y →
      fmt64.cmp 0 x y = (decide (fmt64.value x = fmt64.value y), 0) ∧
      fmt64.cmp 1 x y = (decide (fmt64.value x < fmt64.value y), 0) ∧
      fmt64.cmp 2 x y = (decide (fmt64.value x ≤ fmt64.value y), 0) ∧ fmt64.cmp 3 x y = (false, 0)) ∧
    (fmt64.Nan x ∨ fmt64.Nan y →
      let nv : BitVec 6 :=
        if fmt64.Nan x ∧ Nat.testBit x 51 = false ∨ fmt64.Nan y ∧ Nat.testBit y 51 = false then 1 else 0
      fmt64.cmp 0 x y = (false, nv) ∧ fmt64.cmp 1 x y = (false, 1) ∧ fmt64.cmp 2 x y = (false, 1) ∧
      fmt64.cmp 3 x y = (true, nv))) ∧
  (∃ cls key : Word → Word,
     (∀ w,
       let s := w.getLsbD 31
       let e := (w.extractLsb' 23 8).toNat
       let m := (w.extractLsb' 0 23).toNat
       cls w = BitVec.ofNat 32 (2 ^ (
         if e = 255 then (if m = 0 then (if s then 0 else 7) else if w.getLsbD 22 then 9 else 8)
         else if e = 0 then (if m = 0 then (if s then 3 else 4) else (if s then 2 else 5))
         else if s then 1 else 6))) ∧
     (∀ w, f32IsNan w = true → key w = 0) ∧
     (∀ v w, f32IsNan v = false → f32IsNan w = false →
       ((key v).toNat < (key w).toNat ↔
         f32Order v < f32Order w ∨ (f32Order v = f32Order w ∧ v.getLsbD 31 = true ∧ w.getLsbD 31 = false))) ∧
     (∀ w, f32IsNan w = false → 0 < (key w).toNat) ∧
     ∀ (d : Dst) (a : Src), Yields (.fclass d a) (un32 cls) ∧ Yields (.fkey d a) (un32 key))

/-- R133, R137 to R140 and R130: the rounding instructions of f32 and f64 complete with the operation's rounded result
and its flags; the rounding direction is the field's, or FPCTL's when it is dynamic (R118). The special operands of R137
give what its table states. Sums, products, fused products, reciprocals, roots, scaled values, conversions and integral
values are the exact results rounded once, with the flags of R119; zeros, NaNs and infinities are as R133 and R120 say. -/
def Obligations.FloatArithmetic : Prop :=
  (∀ (d : Dst) (a b c : Src) (nb nc : Bool) (r : Rnd) (conv : BitVec 4),
    Yields (.fadd d a b r) (eachRm r fun rm x => outF (fmt32.add rm false (x.f 0) (x.f 1))) ∧
    Yields (.fsub d a b r) (eachRm r fun rm x => outF (fmt32.add rm true (x.f 0) (x.f 1))) ∧
    Yields (.fmul d a b r) (eachRm r fun rm x => outF (fmt32.mul rm (x.f 0) (x.f 1))) ∧
    Yields (.ffma d a b c nb nc r) (eachRm r fun rm x => outF (fmt32.fma rm (x.f 0)
      (if nb then x.f 1 ^^^ 2 ^ 31 else x.f 1) (if nc then x.f 2 ^^^ 2 ^ 31 else x.f 2))) ∧
    Yields (.frcp d a r) (eachRm r fun rm x => outF (fmt32.rcp rm (x.f 0))) ∧
    Yields (.frsq d a r) (eachRm r fun rm x => outF (fmt32.rsq rm (x.f 0))) ∧
    Yields (.fsqrt d a r) (eachRm r fun rm x => outF (fmt32.sqrt rm (x.f 0))) ∧
    Yields (.frnd d a r) (eachRm r fun rm x => outF (fmt32.integral rm (x.f 0))) ∧
    Yields (.fscale d a b r) (eachRm r fun rm x => outF (fmt32.scale rm (x.f 0) (x.w 1).toInt)) ∧
    Yields (.fcvt d a conv r) (eachRm r fun rm x => outF (cvtVal conv rm (x.s 0))) ∧
    Yields (.fexp2 d a) (each fun x => outF (exp2F32 (x.f 0))) ∧
    Yields (.flog2 d a) (each fun x => outF (log2F32 (x.f 0))) ∧
    (∀ cos, Yields (.ftrig d a cos) (each fun x => outF (trigF32 cos (x.f 0)))) ∧
    Yields (.dadd d a b nb r) (eachRm r fun rm x => outF (fmt64.add rm false (x.d 0)
      (if nb then x.d 1 ^^^ 2 ^ 63 else x.d 1))) ∧
    Yields (.dmul d a b r) (eachRm r fun rm x => outF (fmt64.mul rm (x.d 0) (x.d 1))) ∧
    Yields (.dfma d a b c nb nc r) (eachRm r fun rm x => outF (fmt64.fma rm (x.d 0)
      (if nb then x.d 1 ^^^ 2 ^ 63 else x.d 1) (if nc then x.d 2 ^^^ 2 ^ 63 else x.d 2)))) ∧
  (∀ rm : RM,
    fmt32.rcp rm 0 = (0x7F800000, flDZ) ∧ fmt32.rsq rm 0 = (0x7F800000, flDZ) ∧ fmt32.sqrt rm 0 = (0, 0) ∧
    fmt32.rcp rm 0x80000000 = (0xFF800000, flDZ) ∧ fmt32.rsq rm 0x80000000 = (0xFF800000, flDZ) ∧
    fmt32.sqrt rm 0x80000000 = (0x80000000, 0) ∧
    fmt32.rcp rm 0x7F800000 = (0, 0) ∧ fmt32.rsq rm 0x7F800000 = (0, 0) ∧ fmt32.sqrt rm 0x7F800000 = (0x7F800000, 0) ∧
    fmt32.rcp rm 0xFF800000 = (0x80000000, 0) ∧ fmt32.rsq rm 0xFF800000 = (0x7FC00000, flNV) ∧
    fmt32.sqrt rm 0xFF800000 = (0x7FC00000, flNV) ∧
    fmt32.rsq rm 0xBF800000 = (0x7FC00000, flNV) ∧ fmt32.sqrt rm 0xBF800000 = (0x7FC00000, flNV)) ∧
  -- each result is the exact one, rounded once
  ∀ f ∈ [fmt32, fmt64], ∀ (rm : RM) (a b c : Nat), f.Finite a → f.Finite b → f.Finite c →
    let x := f.value a
    let y := f.value b
    let z := f.value c
    let zero := fun (s t : Bool) => (f.neg (if s = t then s else decide (rm = .rdn)), (0 : BitVec 6))
    (x + y ≠ 0 → f.Rounds rm (x + y : ℚ) (f.add rm false a b)) ∧
    (x + y = 0 → f.add rm false a b = zero (f.sign a) (f.sign b)) ∧
    (x - y ≠ 0 → f.Rounds rm (x - y : ℚ) (f.add rm true a b)) ∧
    (x - y = 0 → f.add rm true a b = zero (f.sign a) (!f.sign b)) ∧
    (x * y ≠ 0 → f.Rounds rm (x * y : ℚ) (f.mul rm a b)) ∧
    (x * y = 0 → f.mul rm a b = (f.neg (f.sign a != f.sign b), 0)) ∧
    (x * y + z ≠ 0 → f.Rounds rm (x * y + z : ℚ) (f.fma rm a b c)) ∧
    (x * y + z = 0 → f.fma rm a b c = zero (f.sign a != f.sign b) (f.sign c)) ∧
    (x ≠ 0 → f.Rounds rm (x⁻¹ : ℚ) (f.rcp rm a) ∧ (∀ n : Int, f.Rounds rm (x * 2 ^ n : ℚ) (f.scale rm a n)) ∧
      fmt32.Rounds rm x (f.convert fmt32 rm a) ∧ (f.convert fmt64 rm a).2 = 0 ∧ fmt64.value (f.convert fmt64 rm a).1 = x) ∧
    (0 < x → f.Rounds rm (√(x : ℝ)) (f.sqrt rm a) ∧ f.Rounds rm (1 / √(x : ℝ)) (f.rsq rm a)) ∧
    (∃ n, IntegerOf rm x n ∧ f.value (f.integral rm a).1 = n ∧ f.sign (f.integral rm a).1 = f.sign a ∧
      (f.integral rm a).2 = 0 ∧
      ∀ lo hi : Int, lo ≤ 0 → 0 < hi → f.toInt rm lo hi a =
        (max lo (min hi n), if n < lo ∨ hi < n then flNV else if (n : ℚ) = x then 0 else flNX)) ∧
    (∀ n : Int, n ≠ 0 → f.Rounds rm n (f.ofInt rm n)) ∧
    -- a NaN among the sources is the result, quiet; an infinity against a zero, or against the other one, is invalid
    (∀ d e, f.Nan d → e < 2 ^ f.width → ¬f.Nan e →
      let q := (d ||| 2 ^ (f.fb - 1), if Nat.testBit d (f.fb - 1) then 0 else flNV)
      f.add rm false d e = q ∧ f.add rm false e d = q ∧ f.add rm true d e = q ∧ f.add rm true e d = q ∧
      f.mul rm d e = q ∧ f.mul rm e d = q ∧ f.rcp rm d = q ∧ f.rsq rm d = q ∧ f.sqrt rm d = q ∧
      (∀ e', e' < 2 ^ f.width → ¬f.Nan e' → f.fma rm a d e' = q ∧ f.fma rm d a e' = q)) ∧
    ∀ s : Bool, f.add rm true (f.neg s + f.inf) (f.neg s + f.inf) = (f.dnan, flNV) ∧
      f.add rm false (f.neg s + f.inf) (f.neg (!s) + f.inf) = (f.dnan, flNV) ∧
      f.add rm false (f.neg s + f.inf) a = (f.neg s + f.inf, 0) ∧ f.add rm false a (f.neg s + f.inf) = (f.neg s + f.inf, 0) ∧
      (x = 0 → f.mul rm (f.neg s + f.inf) a = (f.dnan, flNV) ∧ f.mul rm a (f.neg s + f.inf) = (f.dnan, flNV)) ∧
      (x ≠ 0 → f.mul rm (f.neg s + f.inf) a = (f.neg (s != f.sign a) + f.inf, 0) ∧
        f.mul rm a (f.neg s + f.inf) = (f.neg (s != f.sign a) + f.inf, 0))

/-- R121, R123, R124, R126, R127, R142 and R144: the tapered instructions complete with the exact results rounded on their
encodings, and set no flag; a NaR source gives NaR; the encodings that R123 lists are those of their values; `TRCP` of 0
gives NaR and TN, of maxpos minpos, of minpos maxpos; conversion from and to IEEE rounds the value. -/
def Obligations.TaperedArithmetic : Prop :=
  (∀ (d : Dst) (a b c : Src) (nb nc : Bool),
    Yields (.tadd d a b) (each fun x => outF (tap32.add (x.f 0) (x.f 1))) ∧
    Yields (.tsub d a b) (each fun x => outF (tap32.add (x.f 0) (tap32.neg (x.f 1)))) ∧
    Yields (.tmul d a b) (each fun x => outF (tap32.mul (x.f 0) (x.f 1))) ∧
    Yields (.tfma d a b c nb nc) (each fun x => outF (tap32.fma (x.f 0)
      (if nb then tap32.neg (x.f 1) else x.f 1) (if nc then tap32.neg (x.f 2) else x.f 2))) ∧
    Yields (.trcp d a) (each fun x => outF (tap32.rcp (x.f 0))) ∧
    Yields (.trsq d a) (each fun x => outF (tap32.rsq (x.f 0)))) ∧
  (∀ w, w < 2 ^ 32 → (tap32.add 0x80000000 w).1 = 0x80000000 ∧ (tap32.add w 0x80000000).1 = 0x80000000 ∧
    (tap32.mul 0x80000000 w).1 = 0x80000000 ∧ (tap32.mul w 0x80000000).1 = 0x80000000) ∧
  (tap32.ofIeee fmt32 0x3F800000).1 = 0x40000000 ∧ (tap32.ofIeee fmt32 0xBF800000).1 = 0xC0000000 ∧
  (tap32.ofIeee fmt32 0x40000000).1 = 0x44000000 ∧ (tap32.ofIeee fmt32 0x40400000).1 = 0x46000000 ∧
  (tap32.ofIeee fmt32 0x3F000000).1 = 0x3C000000 ∧ (tap32.ofIeee fmt32 0x43800000).1 = 0x60000000 ∧
  (tap32.ofIeee fmt32 0x3F800001).1 = 0x40000008 ∧ (tap32.ofIeee fmt32 0x00000001).1 = 0x00000B00 ∧
  tap32.rcp 0 = (0x80000000, flTN) ∧ tap32.rsq 0 = (0x80000000, flTN) ∧ tap32.rsq 0xC0000000 = (0x80000000, flTN) ∧
  tap32.rcp 0x7FFFFFFF = (0x00000001, 0) ∧ tap32.rcp 0x00000001 = (0x7FFFFFFF, 0) ∧
  tap32.add 0x7FFFFFFF 0x7FFFFFFF = (0x7FFFFFFF, 0) ∧ tap32.mul 0x00000001 0x00000001 = (0x00000001, 0) ∧
  -- each result is the exact one, rounded once on its encoding; an exact zero is 0
  (∀ a b c, tap32.Real a → tap32.Real b → tap32.Real c →
    let x := tap32.value a
    let y := tap32.value b
    let z := tap32.value c
    let is := fun (v : ℝ) (r : Nat × BitVec 6) => r.2 = 0 ∧ (v = 0 → r.1 = 0) ∧ (v ≠ 0 → tap32.Rounds v r.1)
    is (x + y : ℚ) (tap32.add a b) ∧ tap32.value (tap32.neg b) = -y ∧ is (x * y : ℚ) (tap32.mul a b) ∧
    is (x * y + z : ℚ) (tap32.fma a b c) ∧ (x ≠ 0 → is (x⁻¹ : ℚ) (tap32.rcp a)) ∧
    (0 < x → is (1 / √(x : ℝ)) (tap32.rsq a)) ∧ (x < 0 → tap32.rsq a = (0x80000000, flTN)) ∧
    ∀ f ∈ [fmt32, fmt64], ∀ rm : RM, (x = 0 → tap32.toIeee f rm a = (0, 0)) ∧ (x ≠ 0 → f.Rounds rm x (tap32.toIeee f rm a))) ∧
  ∀ f ∈ [fmt32, fmt64], (∀ rm, tap32.toIeee f rm 0x80000000 = (f.dnan, 0)) ∧ ∀ b, b < 2 ^ f.width →
    (f.Finite b → (tap32.ofIeee f b).2 = 0 ∧ (f.value b = 0 → (tap32.ofIeee f b).1 = 0) ∧
      (f.value b ≠ 0 → tap32.Rounds (f.value b) (tap32.ofIeee f b).1)) ∧
    (¬f.Finite b → tap32.ofIeee f b =
      (0x80000000, if f.Nan b ∧ Nat.testBit b (f.fb - 1) = false then flTN ||| flNV else flTN))

/-! ### Class M -/

/-- Loads issue (R167, R172, R175, R176): `LD` of every space, `LDA`, `LDP`. The addresses are those of R167; the
checks of R151 pass and the outstanding table has room (R169). Stores issue (R172, R175, R206): `ST` to global memory
and to the scratchpad, `STL`, which carries its release scope with its entries. -/
def Obligations.LoadsAndStoresIssue : Prop :=
  ((∀ (x : Dword) (off : Option Word),
     effAddr .global x off = (x + (off.getD 0).signExtend 64).toNat ∧
     effAddr .scratch x off = ((x.setWidth 32 : Word) + off.getD 0).toNat) ∧
   ∀ (d : Dst) (a : Src) (off : Option Word) (size : Size) (pol : Policy) (sx : Bool) (sc : Scope),
     LoadIssues (.ld d a off size pol .global sx) d off size .global (.load size sx pol none none) ∧
     LoadIssues (.ld d a off size pol .scratch sx) d off size .scratch (.scratchLoad size sx) ∧
     LoadIssues (.ld d a off size pol .const sx) d off size .const (.constLoad size sx) ∧
     LoadIssues (.lda d a off size pol sc) d off size .global (.load size false pol (some sc) none) ∧
     LoadIssues (.ldp d a off size) d off size .global (.load size false .normal none (some false))) ∧
  (∀ (data a : Src) (off : Option Word) (size : Size) (pol : Policy) (sc : Scope),
     StoreIssues (.st data a off size pol .global) data off size pol .global none ∧
     StoreIssues (.st data a off size pol .scratch) data off size pol .scratch none ∧
     StoreIssues (.stl data a size sc) data none size .normal .global (some sc))

/-- `ATOM` issues (R178, R179, R181): an operation that will write its destination and p63; at a home of this device
every fibre asks for its own, but the additions to one address are one request with their sum. Nothing is performed
yet. `RED` places its fibres' operands in the atomic buffer of its scheduler (R185, R186), and a group's 64th packet
of them starts a flush of the team (R187); `REDF` starts one at once, and stays in flight only while something drains
(R188). -/
def Obligations.AtomicsAndReductionsIssue : Prop :=
  (∀ (d : Dst) (a b c : Src) (fn : AtomFn) (ord : Sys2Proof.Order) (sc : Scope) (w64 : Bool) (s s1 : State) (h : Here)
     (ins : List LaneIn) (ts : List (Nat × Nat × Trans)),
     let i : Instr := .atom d a b c fn ord sc w64
     let accs := accsOf ts (laneOp ins 1) (laneOp ins 2)
     Issues i s h → Reads i s h ins s1 →
     AccessOk s1 h .global (if w64 then 8 else 4) .atomic true (ins.map fun x => (x.lane, (x.s 0).toNat)) ts →
     (∀ p ∈ ts, buffers h p = false) → otRoom s1 h.c.core accs = true →
     ∃ t o g, exec i s = .next t ∧ SameElse s1 t h ∧ Starts i h s t o ∧ o.kind = .atom fn ord sc w64 ∧ o.lanes = h.act ∧
       o.accs = accs ∧ o.dst = some (d, if w64 then 2 else 1) ∧ o.preds = [63] ∧ o.flags = setFlags h.hdr ∧
       t.group? h.g.gid = some g ∧ SameRegs h.g g ∧ StandsOn h i.words g ∧ FlagsRise h.g g (setFlags h.hdr) ∧
       ∃ new, t.reqs = s.reqs ++ new ∧
         (∀ r ∈ new, r.fn = fn ∧ r.w64 = w64 ∧ r.asid = h.t.asid ∧ r.rejected = false) ∧
         (fn ≠ .add → (new.map fun r => (r.va, r.tr, r.op, r.cmp)) = accs.map fun x => (x.va, x.tr, x.op, x.cmp)) ∧
         (fn = .add → (new.map fun r => r.va) = (accs.map fun x => x.va).eraseDups ∧
           ∀ r ∈ new, r.op = (accs.filter fun x => x.va == r.va).foldl (fun n x => n + x.op) 0)) ∧
  ((∀ (a b : Src) (fn : AtomFn) (sc : Scope) (w64 : Bool) (s s1 : State) (h : Here) (ins : List LaneIn)
     (ts : List (Nat × Nat × Trans)),
     let i : Instr := .red a b fn sc w64
     let reds := ts.foldl (fun l p => foldRed l
       { sched := h.g.sched, gid := h.g.gid, tid := h.t.tid, home := h.g.homeSched, num := h.g.num,
         va := BitVec.ofNat 64 p.2.1, fn := fn, w64 := w64, scope := sc, value := laneOp ins 1 p.1, tr := p.2.2,
         id := s1.serial, privileged := (h.g.lane p.1).mode })
       (s.coreOf h.c.core).reds
     Issues i s h → Reads i s h ins s1 →
     AccessOk s1 h .global (if w64 then 8 else 4) .atomic true (ins.map fun x => (x.lane, (x.s 0).toNat)) ts →
     (∀ p ∈ ts, buffers h p = false) → otRoom s1 h.c.core (accsOf ts (fun _ => 0) fun _ => 0) = true →
     (reds.filter fun e => e.sched = h.g.sched).length ≤ 256 →
     ∃ t g, exec i s = .next t ∧ t.mem = s.mem ∧ t.teams = s.teams ∧ t.reqs = s.reqs ∧
       t.ops.length = s.ops.length ∧ t.group? h.g.gid = some g ∧ SameRegs h.g g ∧ StandsOn h i.words g ∧
       FlagsRise h.g g [] ∧
       (h.g.redCount + 1 ≠ 64 → SameElse s1 t h ∧ (t.coreOf h.c.core).reds = reds ∧ g.redCount = h.g.redCount + 1) ∧
       (h.g.redCount + 1 = 64 → g.redCount = 0 ∧
         ∀ e ∈ (t.coreOf h.t.core).reds, e.tid = h.t.tid → e.draining = true)) ∧
   ∀ (s : State) (h : Here), Issues .redf s h → s.op? s.serial = none →
     ∃ t g, exec .redf s = .next t ∧ t.mem = s.mem ∧ t.group? h.g.gid = some g ∧ SameRegs h.g g ∧ StandsOn h 1 g ∧
       g.redCount = 0 ∧ (∀ e ∈ (t.coreOf h.t.core).reds, e.tid = h.t.tid → e.draining = true) ∧
       (((s.coreOf h.t.core).reds.any fun e => e.tid == h.t.tid) = true → ∃ o, Starts .redf h s t o ∧ o.kind = .redf ∧
         o.flags = setFlags h.hdr ∧ FlagsRise h.g g (setFlags h.hdr)) ∧
       (((s.coreOf h.t.core).reds.any fun e => e.tid == h.t.tid) = false → t.ops.length = s.ops.length))

/-- `FENCE` and `PREF` issue as operations of their own (R191, R196), and `CCTL` does what its operation says to the
caches of its core: the line or all of the L1, a constant bank, the instruction cache, or the write-back of a line
(R197). `WAITC` tests the word of every fibre (R192, R193): one whose condition holds goes on at once with p63 clear,
any other waits under the operation; all stand at the next clause. The words are what the group's own stores and the
homes hold (R207). -/
def Obligations.FencesCacheControlAndWaits : Prop :=
  ((∀ (k : FenceKind) (sc : Scope) (s : State) (h : Here), Issues (.fence k sc) s h →
     ∃ t o g, exec (.fence k sc) s = .next t ∧ SameElse s t h ∧ SameTables (s.coreOf h.c.core) (t.coreOf h.c.core) ∧
       Starts (.fence k sc) h s t o ∧ o.kind = .fence k sc ∧ o.lanes = h.act ∧ o.flags = setFlags h.hdr ∧
       t.group? h.g.gid = some g ∧ SameRegs h.g g ∧ StandsOn h (Instr.fence k sc).words g ∧
       FlagsRise h.g g (setFlags h.hdr) ∧ g.sq = h.g.sq) ∧
   (∀ (a : Src) (off : Option Word) (line : Bool) (pol : Policy) (s s1 : State) (h : Here) (ins : List LaneIn),
     let i : Instr := .pref a off line pol
     let walked := (prefAccs s1 h off line ins).foldl (fun w x =>
       if (tlbFind w h.c.core h.t.asid x.va.toNat).isSome then w else w.accessed h.t.asid x.va.toNat) s1
     Issues i s h → Reads i s h ins s1 → otRoom s1 h.c.core (prefAccs s1 h off line ins) = true →
     ∃ t o gw g, exec i s = .next t ∧ SameElse walked t h ∧ SameTables (walked.coreOf h.c.core) (t.coreOf h.c.core) ∧
       Starts i h walked t o ∧ o.kind = .pref pol ∧ o.accs = prefAccs s1 h off line ins ∧
       o.dst = none ∧ walked.group? h.g.gid = some gw ∧ t.group? h.g.gid = some g ∧ SameRegs gw g ∧
       StandsOn h i.words g ∧ FlagsRise gw g (setFlags h.hdr)) ∧
   ∀ (a : Src) (op : CctlOp) (s s1 : State) (h : Here) (ins : List LaneIn) (ts : List (Nat × Nat × Trans)),
     let i : Instr := .cctl a op
     Issues i s h → Reads i s h ins s1 →
     (op = .l1line ∨ op = .wb → cctlCheck s1 h (ins.map fun x => (x.lane, (x.s 0).toNat)) = .ok ts) →
     (op = .wb → otRoom s1 h.c.core (accsOf ts (fun _ => 0) fun _ => 0) = true) →
     (op = .cbank → ∀ x ∈ ins, (x.w 0).toNat ≤ 15) →
     ∃ t g, exec i s = .next t ∧ SameElse s1 t h ∧ t.group? h.g.gid = some g ∧ SameRegs h.g g ∧ StandsOn h i.words g ∧
       FlagsRise h.g g (if op = .wb then setFlags h.hdr else []) ∧
       (∀ l, l ∈ (t.coreOf h.c.core).l1 ↔ l ∈ (s.coreOf h.c.core).l1 ∧ op ≠ .l1all ∧
         (op = .l1line → ∀ p ∈ ts, p.2.2.pa / 256 ≠ l.sector / 2)) ∧
       (t.coreOf h.c.core).icache = (if op = .icache then [] else (s.coreOf h.c.core).icache) ∧
       (∀ e, e ∈ (t.coreOf h.c.core).ccache ↔ e ∈ (s1.coreOf h.c.core).ccache ∧
         (op = .cbank → ¬(e.1.1 = h.t.asid ∧ ∃ x ∈ ins, e.1.2 / 512 = (x.w 0).toNat))) ∧
       (op = .wb → ∃ o, Starts i h s t o ∧ o.kind = .wb 0 ∧ o.accs = accsOf ts (fun _ => 0) fun _ => 0) ∧
       (op ≠ .wb → t.ops.length = s.ops.length)) ∧
  (∀ (d : Dst) (a b : Src) (cc : WaitCc) (sc : Scope) (w64 : Bool) (s s1 : State) (h : Here) (ins : List LaneIn)
     (ts : List (Nat × Nat × Trans)) (v : Nat → Dword),
     let i : Instr := .waitc d a b cc sc w64
     let n := if w64 then 8 else 4
     let accs := accsOf ts (laneOp ins 1) fun _ => 0
     Issues i s h → Reads i s h ins s1 →
     AccessOk s1 h .global n .load false (ins.map fun x => (x.lane, (x.s 0).toNat)) ts →
     (∀ x ∈ accs, stale s1 h.t.asid x.tr = false ∧ lineMoving s1 x.tr = false ∧
       readBefore s1 h.g.gid s1.serial x n = false ∧
       match coreSource s1 h.g s1.serial false x n with
       | .wait => False
       | .val l => v x.lane = BitVec.ofNat 64 (leNat l)
       | .home => s1.bad.contains (x.tr.key / 128) = false ∧ v x.lane = s1.wordAt x.tr.key w64) →
     otRoom s1 h.c.core accs = true → heldBack s1 h.g.gid s1.serial false = false → s1.op? s1.serial = none →
     ∃ t g, exec i s = .next t ∧ t.mem = s.mem ∧ t.group? h.g.gid = some g ∧
       StandsAt h (fun j => (h.g.lane j).clauseEnd) g ∧
       ∀ j, j < 32 → h.act.getLsbD j = true →
         if waitcHolds cc w64 (v j) (laneOp ins 1 j) = true then
           (g.lane j).wait = (h.g.lane j).wait ∧ (g.lane j).pred 63 = false ∧
           ∀ r, d = .v r → r.toNat + (if w64 then 2 else 1) ≤ 64 →
             (g.lane j).reg r.toNat = Sys2Proof.Machine.wordAt (v j) 0 ∧
             (w64 = true → (g.lane j).reg (r.toNat + 1) = Sys2Proof.Machine.wordAt (v j) 1)
         else ∃ e, (g.lane j).wait = some (.mon s.serial e) ∧ (e = true → (g.lane j).status = .parked))

/-- `CHCFG` (R199): its effect when its checks pass; the fault of each check that fails, where those before it pass, by
R225's code with the channel or the offset, which every active fibre takes, and no channel changes; and `CHSTAT`'s word
(R202). -/
def Obligations.ChannelsAreConfigured : Prop :=
  (∀ (base depth : Src) (w64 : Bool) (ch : BitVec 5) (s s1 : State) (h : Here) (ins : List LaneIn) (x : LaneIn),
    let i : Instr := .chcfg base depth w64 ch
    let k := s.coreOf h.c.core
    let w := if w64 then 8 else 4
    let b := (x.w 0).toNat
    let n := (x.w 1).toNat
    Issues i s h → Reads i s h ins s1 → ins.head? = some x →
    (∀ c, assoc k.chans ch.toNat = some c → c.owner = h.t.tid ∧ c.count = 0) →
    (n ≠ 0 → n ≤ 4096 ∧ (∃ e, n = 2 ^ e) ∧ b % w = 0 ∧ b + n * w ≤ h.t.scrSize ∧
      ∀ c ∈ k.chans, c.1 ≠ ch.toNat → c.2.owner = h.t.tid →
        overlap c.2.base (c.2.depth * c.2.width) b (n * w) = false) →
    ∃ t g, exec i s = .next t ∧ SameElse s1 t h ∧ t.group? h.g.gid = some g ∧ SameRegs h.g g ∧ StandsOn h i.words g ∧
      assoc (t.coreOf h.c.core).chans ch.toNat =
        (if n = 0 then none else some { owner := h.t.tid, w64 := w64, depth := n, base := b, count := 0, head := 0 }) ∧
      ∀ c, c ≠ ch.toNat → assoc (t.coreOf h.c.core).chans c = assoc k.chans c) ∧
  (∀ (base depth : Src) (w64 : Bool) (ch : BitVec 5) (s s1 : State) (h : Here) (ins : List LaneIn) (x : LaneIn),
    let k := s.coreOf h.c.core
    let w := if w64 then 8 else 4
    let b := (x.w 0).toNat
    let n := (x.w 1).toNat
    let traps := fun (code : Word) (info addr : Nat) =>
      ∃ t g, exec (.chcfg base depth w64 ch) s = .next t ∧ t.mem = s.mem ∧ t.group? h.g.gid = some g ∧ SameRegs h.g g ∧
        (t.coreOf h.c.core).chans = k.chans ∧ ∀ j, j < 32 → h.act.getLsbD j = true →
          (g.lane j).ecause = code ∧ ((g.lane j).einfo.extractLsb' 0 16).toNat = info ∧
          (g.lane j).eaddr = BitVec.ofNat 64 addr ∧ (g.lane j).pc = h.t.tvec.setWidth 56
    Issues (.chcfg base depth w64 ch) s h → Reads (.chcfg base depth w64 ch) s h ins s1 → ins.head? = some x →
    h.t.tvec ≠ 0 → (∀ j, j < 32 → h.act.getLsbD j = true → (h.g.lane j).estatus.getLsbD 15 = false) →
    -- CHANNEL_OWNER, and CHANNEL_STATE of a channel that holds elements
    (∀ c, assoc k.chans ch.toNat = some c →
      (c.owner ≠ h.t.tid → traps 0x15 ch.toNat 0) ∧ (c.owner = h.t.tid → 0 < c.count → traps 0x17 ch.toNat 0)) ∧
    ((∀ c, assoc k.chans ch.toNat = some c → c.owner = h.t.tid ∧ c.count = 0) → n ≠ 0 →
      -- CHANNEL_STATE of a depth
      (¬ (n ≤ 4096 ∧ ∃ e, n = 2 ^ e) → traps 0x17 ch.toNat 0) ∧
      (n ≤ 4096 → (∃ e, n = 2 ^ e) →
        -- SCRATCH_BOUNDS, and CHANNEL_STATE of a buffer that overlaps another
        (b % w ≠ 0 ∨ h.t.scrSize < b + n * w → traps 0x0C 0 b) ∧
        (b % w = 0 → b + n * w ≤ h.t.scrSize →
          (∃ c ∈ k.chans, c.1 ≠ ch.toNat ∧ c.2.owner = h.t.tid ∧
            overlap c.2.base (c.2.depth * c.2.width) b (n * w) = true) → traps 0x17 ch.toNat 0)))) ∧
  ∀ (d : Dst) (n : Src) (s s1 : State) (h : Here) (ins : List LaneIn),
    Issues (.chstat d n) s h → Reads (.chstat d n) s h ins s1 →
    ∃ f : Nat → Word,
      exec (.chstat d n) s = .next (vecDone (.chstat d n) h ins (ins.map fun x => out32 (f (x.w 0).toNat)) s1) ∧
      ∀ m, match assoc (s.coreOf h.c.core).chans m with
        | none => f m = 0
        | some c => c.depth ≤ 4096 → c.count ≤ 4096 →
          (f m).getLsbD 31 = true ∧ (f m).getLsbD 30 = decide (c.owner = h.t.tid) ∧ (f m).getLsbD 29 = c.w64 ∧
          ((f m).extractLsb' 16 13).toNat = c.depth ∧ ((f m).extractLsb' 13 3).toNat = 0 ∧
          ((f m).extractLsb' 0 13).toNat = c.count

/-! ### Class C -/

/-- `NOP`, `BRA` and `BRX` (R52, R80 to R82): a fibre that is active, and whose predicate holds, goes to its target,
which is a clause start (R31); every other fibre of the packet to the next clause; `NOP` goes on by a word. What a
call of some fibres leaves (R81): their stack pointers 8 lower, at the tail of the store queue the address of the next
clause for each, in 8 bytes, and the fibres at their targets. -/
def Obligations.TransfersCallsAndReturns : Prop :=
  ((∀ (s : State) (h : Here), Issues .nop s h →
     ∃ t g, exec .nop s = .next t ∧ SameElse s t h ∧ t.ops.length = s.ops.length ∧ t.group? h.g.gid = some g ∧
       SameRegs h.g g ∧ StandsOn h 1 g ∧ FlagsRise h.g g []) ∧
   (∀ (p : BitVec 6) (neg : Bool) (off : BitVec 19) (s : State) (h : Here), Issues (.bra p neg off) s h →
     let goes := fun j => h.act.getLsbD j && ((h.g.lane j).pred p.toNat != neg)
     ((∃ j, j < 32 ∧ goes j = true) → clauseStart s h.t (h.target off) = true) →
     ∃ t g, exec (.bra p neg off) s = .next t ∧ SameElse s t h ∧ t.ops.length = s.ops.length ∧
       t.group? h.g.gid = some g ∧ SameRegs h.g g ∧ FlagsRise h.g g [] ∧
       StandsAt h (fun j => if goes j then h.first.header + off.signExtend 56 * 4 else (h.g.lane j).clauseEnd) g) ∧
   ∀ (a : Src) (s s1 : State) (h : Here) (ins : List LaneIn), Issues (.brx a) s h → Reads (.brx a) s h ins s1 →
     (∀ x ∈ ins, clauseStart s1 h.t (x.s 0).toNat = true) →
     ∃ t g, exec (.brx a) s = .next t ∧ SameElse s1 t h ∧ t.ops.length = s.ops.length ∧ t.group? h.g.gid = some g ∧
       SameRegs h.g g ∧ FlagsRise h.g g [] ∧
       StandsAt h (fun j => if h.act.getLsbD j then (laneOp ins 0 j).setWidth 56 else (h.g.lane j).clauseEnd) g) ∧
  (let called := fun (i : Instr) (s s1 : State) (h : Here) (goes : Nat → Bool) (target : Nat → Addr) =>
     ∀ ts, (∀ j, j < 32 → goes j = true → clauseStart s1 h.t (target j).toNat = true ∧
         (h.g.lane j).stackLo.toNat + 8 ≤ (h.g.lane j).sp.toNat) →
       AccessOk s1 h .global 8 .store true
         (((lanesOf h.act).filter goes).map fun j => (j, ((h.g.lane j).sp - 8).toNat)) ts →
       let recs := storeRecs s.serial false ts fun _ => leBytes 8 h.first.clauseEnd.toNat
       otRoom s1 h.c.core (accsOf ts (fun _ => 0) fun _ => 0) = true → sqRoom h.g (sectorEntries none recs) = true →
       ∃ t g es, exec i s = .next t ∧ SameElse s1 t h ∧ t.group? h.g.gid = some g ∧ SameRegs h.g g ∧ FlagsRise h.g g [] ∧
         StandsAt h (fun j => if goes j then target j else (h.g.lane j).clauseEnd) g ∧
         (∀ j, j < 32 → (g.lane j).sp = (h.g.lane j).sp - (if goes j then 8 else 0) ∧ (g.lane j).fp = (h.g.lane j).fp) ∧
         g.sq = h.g.sq ++ es ∧ (∀ r, (∃ e ∈ es, r ∈ e.stores) ↔ r ∈ recs) ∧
         ((∃ j, j < 32 ∧ goes j = true) → ∃ o, Starts i h s t o ∧ o.kind = .store .normal none ∧ o.flags = [])
   (∀ (p : BitVec 6) (neg : Bool) (off : BitVec 19) (s : State) (h : Here), Issues (.call p neg off) s h →
     called (.call p neg off) s s h (fun j => h.act.getLsbD j && ((h.g.lane j).pred p.toNat != neg))
       fun _ => h.first.header + off.signExtend 56 * 4) ∧
   (∀ (a : Src) (s s1 : State) (h : Here) (ins : List LaneIn), Issues (.callx a) s h → Reads (.callx a) s h ins s1 →
     (∀ x ∈ ins, (x.s 0).toNat < 2 ^ 56) →
     called (.callx a) s s1 h (fun j => h.act.getLsbD j) fun j => (laneOp ins 0 j).setWidth 56) ∧
   -- the pop of `RET` is an operation that holds its fibres until the return address is there
   (∀ (s : State) (h : Here) (ts : List (Nat × Nat × Trans)), Issues .ret s h →
     AccessOk s h .global 8 .load true ((lanesOf h.act).map fun i => (i, (h.g.lane i).sp.toNat)) ts →
     otRoom s h.c.core (accsOf ts (fun _ => 0) fun _ => 0) = true →
     ∃ t g o, exec .ret s = .next t ∧ SameElse s t h ∧ Starts .ret h s t o ∧ o.kind = .ret ∧ o.lanes = h.act ∧
       o.holds = true ∧ o.flags = [] ∧ o.accs = accsOf ts (fun _ => 0) (fun _ => 0) ∧ t.group? h.g.gid = some g ∧
       SameRegs h.g g ∧ ∀ j, j < 32 → (g.lane j).sp = (h.g.lane j).sp ∧
         (g.lane j).pc = (if h.c.pk.lanes.getLsbD j && !h.act.getLsbD j then (h.g.lane j).clauseEnd else (h.g.lane j).pc)) ∧
   ∀ (s : State) (o : Op) (lane v : Nat) (tm : Team) (g : Group), s.team? o.tid = some tm → s.group? o.gid = some g →
     lane < 32 → clauseStart s tm v = true →
     ∃ k, (returnTo s o lane v).group? o.gid = some k ∧ (k.lane lane).pc = BitVec.ofNat 56 v ∧ (k.lane lane).rem = 0 ∧
       (k.lane lane).sp = (g.lane lane).sp + 8 ∧ (k.lane lane).active = false ∧ ∀ j, j ≠ lane → k.lane j = g.lane j)

/-- Fibres start and end. `FORK` (R72, R73) gives each active fibre in turn the lowest free lane, whose fibre starts
at the target with the first registers of its parent, or tells it by its predicate that there is none; `END` (R74)
ends the active fibres and keeps their successor; `RCVG` (R71) makes the packet wait. `SPAWN` (R78, R79): with room
for it, and the group's stores passed, a child group of the team stands in a free slot, its fibres in the lanes of the
active ones at the target with 8 registers each; without, only the predicate tells. -/
def Obligations.FibresForkEndAndSpawn : Prop :=
  ((∀ (g : Group) (pd : BitVec 6) (n : Nat) (target : Addr) (mode : Bool) (i : Nat) (r : List Nat),
     forkLanes g pd n target mode (i :: r) = forkLanes (forkLanes g pd n target mode [i]) pd n target mode r ∧
     (i < 32 → (g.lane i).status.free = false →
       (∀ k, k < 32 → (g.lane k).status.free = false) →
         ∀ k, k < 32 → (forkLanes g pd n target mode [i]).lane k =
           if k = i then (g.lane i).setPred pd.toNat false else g.lane k) ∧
     (∀ j, i < 32 → (g.lane i).status.free = false → j < 32 → (g.lane j).status.free = true →
       (∀ k, k < j → (g.lane k).status.free = false) →
         let k := forkLanes g pd n target mode [i]
         (k.lane j).status = g.released ∧ (k.lane j).pc = target ∧ (k.lane j).rem = 0 ∧ (k.lane j).mode = mode ∧
         (k.lane j).preds = 1 ∧ (k.lane j).sp = (g.lane j).stackHi.setWidth 56 ∧ (k.lane j).fp = (k.lane j).sp ∧
         (∀ m, m < 64 → (k.lane j).reg m = if m < n then (g.lane i).reg m else 0) ∧ (k.lane i).pred pd.toNat = true ∧
         ∀ m, m < 32 → m ≠ i → m ≠ j → k.lane m = g.lane m)) ∧
   (∀ (pd : BitVec 6) (n : BitVec 7) (off : BitVec 19) (s : State) (h : Here), Issues (.fork pd n off) s h →
     clauseStart s h.t (h.target off) = true →
     let k := forkLanes h.g pd n.toNat (BitVec.ofNat 56 (h.target off)) h.t.launch.privileged (lanesOf h.act)
     ∃ t g, exec (.fork pd n off) s = .next t ∧ SameElse s t h ∧ t.group? h.g.gid = some g ∧ FlagsRise h.g g [] ∧
       ∀ j, j < 32 → (g.lane j).regs = (k.lane j).regs ∧ (g.lane j).preds = (k.lane j).preds ∧
         (g.lane j).status.live = (k.lane j).status.live ∧
         (g.lane j).pc = (k.lane j).pc + (if h.c.pk.lanes.getLsbD j then 8 else 0)) ∧
   (∀ (succ : Option (BitVec 7 × BitVec 18)) (s : State) (h : Here), Issues (.endF succ) s h →
     (∀ p, succ = some p → clauseStart s h.t (h.target p.2) = true) →
     ∃ t g, exec (.endF succ) s = .next t ∧ SameElse s t h ∧ t.group? h.g.gid = some g ∧ SameRegs h.g g ∧
       FlagsRise h.g g [] ∧ ∀ j, j < 32 →
         if h.act.getLsbD j = true then
           (g.lane j).status = (if succ.isSome then .endedSucc else .ended) ∧
           (g.lane j).succ = succ.map fun p => (BitVec.ofNat 56 (h.target p.2), p.1)
         else (g.lane j).pc = if h.c.pk.lanes.getLsbD j then (h.g.lane j).clauseEnd else (h.g.lane j).pc) ∧
   ∀ (s : State) (h : Here), Issues .rcvg s h →
     ∃ t g, exec .rcvg s = .next t ∧ SameElse s t h ∧ t.group? h.g.gid = some g ∧ SameRegs h.g g ∧ FlagsRise h.g g [] ∧
       ∀ j, j < 32 → (g.lane j).pc = (h.g.lane j).pc ∧
         (h.c.pk.lanes.getLsbD j = true → (g.lane j).status = .rcvg ∧ (g.lane j).rcvg = (h.g.lane j).pc)) ∧
  (∀ (pd : BitVec 6) (off : BitVec 19) (s : State) (h : Here), Issues (.spawn pd off) s h →
     clauseStart s h.t (h.target off) = true → (spawnOk s h.g h.t = true → performedAt s h.g.gid s.serial .team = true) →
     ∃ t g, exec (.spawn pd off) s = .next t ∧ t.mem = s.mem ∧ t.teams = s.teams ∧ t.ops.length = s.ops.length ∧
       (∀ n, n ≠ h.g.gid → n ≠ s.serial → t.group? n = s.group? n) ∧ t.group? h.g.gid = some g ∧ StandsOn h 1 g ∧
       FlagsRise h.g g [] ∧ (∀ j, j < 32 → (g.lane j).regs = (h.g.lane j).regs ∧
         (h.act.getLsbD j = true → (g.lane j).pred pd.toNat = (pd == 0 || spawnOk s h.g h.t))) ∧
       (spawnOk s h.g h.t = false → t.groups.length = s.groups.length) ∧
       (spawnOk s h.g h.t = true → ∃ k, t.groups.getLast? = some k ∧ t.groups.length = s.groups.length + 1 ∧
         k.gid = s.serial ∧ k.tid = h.t.tid ∧ k.core = h.g.core ∧ k.window = h.g.window ∧ k.scal = h.g.scal ∧
         (∀ m ∈ s.groups, m.tid = h.t.tid → m.num ≠ k.num) ∧
         (∀ m ∈ s.groups, m.core = k.core → m.sched = k.sched → m.slot ≠ k.slot) ∧
         ∀ j, j < 32 →
           if h.act.getLsbD j = true then
             (k.lane j).status = k.released ∧ (k.lane j).pc = BitVec.ofNat 56 (h.target off) ∧
             (k.lane j).mode = h.t.launch.privileged ∧
             ∀ m, m < 64 → (k.lane j).reg m = if m < 8 then (h.g.lane j).reg m else 0
           else (k.lane j).status = .empty))

/-- What the cycle's end does to fibres: `RCVG_RELEASE` lets the fibres at the lowest `RCVG` go on once every live fibre
waits at one (R71); `GROUP_RESTART` starts every lane of a group without live fibres at the successor of its lowest lane
that has one, with the registers that its own successor keeps (R76); `GROUP_SLOT_FREE` frees an ended group's slot
(R77). -/
def Obligations.GroupsAreReleasedAndRestarted : Prop :=
  (∀ (s : State) (gid : Nat) (g : Group), s.group? gid = some g → enabledRcvgRelease s gid = true →
    ∃ t k a, exec (.rcvgRelease gid) s = .next t ∧ SameDevice s t ∧ t.group? gid = some k ∧
      (∃ j, j < 32 ∧ (g.lane j).status = .rcvg ∧ (g.lane j).rcvg.toNat = a) ∧
      (∀ j, j < 32 → (g.lane j).status = .rcvg → a ≤ (g.lane j).rcvg.toNat) ∧
      ∀ j, j < 32 → if (g.lane j).status = .rcvg ∧ (g.lane j).rcvg.toNat = a then
        (k.lane j).status = g.released ∧ (k.lane j).pc = BitVec.ofNat 56 (a + 4) ∧ (k.lane j).regs = (g.lane j).regs
      else k.lane j = g.lane j) ∧
  (∀ (s : State) (gid : Nat) (g : Group) (l : Nat) (p : Addr × BitVec 7), s.group? gid = some g →
    enabledGroupRestart s gid = true → l < 32 → (g.lane l).status = .endedSucc →
    (∀ j, j < l → (g.lane j).status ≠ .endedSucc) → (g.lane l).succ = some p →
    ∃ t k, exec (.groupRestart gid) s = .next t ∧ SameDevice s t ∧ t.group? gid = some k ∧
      ∀ j, j < 32 → (k.lane j).status = g.released ∧ (k.lane j).pc = p.1 ∧ (k.lane j).rem = 0 ∧
        (k.lane j).sp = (g.lane j).stackHi.setWidth 56 ∧
        ∀ m, m < 64 → (k.lane j).reg m =
          if (g.lane j).status = .endedSucc ∧ m < (((g.lane j).succ.map fun q => q.2.toNat).getD 0)
          then (g.lane j).reg m else 0) ∧
  ∀ (s : State) (gid : Nat), enabledGroupSlotFree s gid = true →
    ∃ t, exec (.groupSlotFree gid) s = .next t ∧ SameDevice s t ∧ t.teams = s.teams ∧ t.cores = s.cores ∧
      t.group? gid = none ∧ ∀ n, n ≠ gid → t.group? n = s.group? n

/-- Team barriers (R86, R87): each active fibre arrives once; the phase moves on with the arrival that completes the
count, and nobody waits for a phase that has gone by. `BARA` goes on, `BAR` waits for the phase of its arrival, `BARW`
for that of the fibre's last arrival. An arrival needs the group's earlier stores at team scope (R88). Grid barriers
and yield points (R82, R86, R89): a grid-scope `BARA` or `BAR` sends one barrier atomic and holds its fibres until the
home has replied; `BARW` waits while the entry's phase is that of the fibre's last arrival (its group is resident, and no
saved team's); `YIELD` stops its fibres
under a drain request and is otherwise no more than a word. -/
def Obligations.BarriersAndYield : Prop :=
  ((∀ (e : Nat) (l : List Nat) (b : Bar), 0 < e → b.c + l.length ≤ e → b.c = 0 ∨ b.expected = e → l ≠ [] →
     (arrivals e l b).1 = (if b.c + l.length = e then { c := 0, expected := e, phase := b.phase + 1 }
       else { c := b.c + l.length, expected := e, phase := b.phase }) ∧
     (arrivals e l b).2 = l.map fun i => (i, b.phase.getLsbD 0)) ∧
   (∀ (b : BitVec 4) (count : Src) (wait : Bool) (s s1 : State) (h : Here) (ins : List LaneIn) (x : LaneIn),
     let i : Instr := if wait then .bar b false count else .bara b false count
     let bar := vget h.t.bars b.toNat {}
     let e := (x.w 0).toNat
     Issues i s h → Reads i s h ins s1 → ins.head? = some x → 0 < e → e ≤ 1024 → bar.c = 0 ∨ e = bar.expected →
     performedAt s1 h.g.gid s1.serial .team = true →
     ∃ t g tm, exec i s = .next t ∧ t.mem = s.mem ∧ t.ops.length = s.ops.length ∧ t.team? h.t.tid = some tm ∧
       t.group? h.g.gid = some g ∧ SameRegs h.g g ∧ StandsOn h i.words g ∧ FlagsRise h.g g [] ∧
       vget tm.bars b.toNat {} = (arrivals e (lanesOf h.act) bar).1 ∧
       (∀ k, k < 16 → k ≠ b.toNat → vget tm.bars k {} = vget h.t.bars k {}) ∧
       (wait = true → bar.c + (lanesOf h.act).length < e → ∀ j, j < 32 → h.act.getLsbD j = true →
         (g.lane j).wait = some (.barT b)) ∧
       (wait = true → bar.c + (lanesOf h.act).length = e → ∀ j, j < 32 → h.act.getLsbD j = true →
         (g.lane j).wait = none) ∧
       ((wait = true ∨ ∀ n k, s.group? n = some k → k.tid = h.t.tid → ∀ j, j < 32 → (k.lane j).wait = some (.barT b) →
           (k.lane j).phT.getLsbD b.toNat = bar.phase.getLsbD 0) →
         ∀ n k, t.group? n = some k → k.tid = h.t.tid → ∀ j, j < 32 → (k.lane j).wait = some (.barT b) →
           (k.lane j).phT.getLsbD b.toNat = (vget tm.bars b.toNat {}).phase.getLsbD 0)) ∧
   ∀ (b : BitVec 4) (s : State) (h : Here), Issues (.barw b false) s h →
     ∃ t g, exec (.barw b false) s = .next t ∧ t.mem = s.mem ∧ t.teams = s.teams ∧ t.ops.length = s.ops.length ∧
       t.group? h.g.gid = some g ∧ SameRegs h.g g ∧ StandsOn h 1 g ∧ FlagsRise h.g g [] ∧
       ∀ j, j < 32 → h.act.getLsbD j = true →
         (g.lane j).wait = if (h.g.lane j).phT.getLsbD b.toNat = (vget h.t.bars b.toNat {}).phase.getLsbD 0
           then some (.barT b) else none) ∧
  ((∀ (b : BitVec 4) (count : Src) (wait : Bool) (s s1 : State) (h : Here) (ins : List LaneIn) (x : LaneIn),
     let i : Instr := if wait then .bar b true count else .bara b true count
     let e := (x.w 0).toNat
     Issues i s h → Reads i s h ins s1 → ins.head? = some x → 0 < e → e ≤ 2 ^ 31 - 1 →
     ∃ t g o, exec i s = .next t ∧ SameElse s1 t h ∧ Starts i h s t o ∧ o.kind = .barGrid b wait e ∧ o.lanes = h.act ∧
       o.holds = true ∧ o.flags = [] ∧ (o.accs.map fun a => a.va) = [BitVec.ofNat 64 (h.t.gridBar.toNat + 16 * b.toNat)] ∧
       t.group? h.g.gid = some g ∧ SameRegs h.g g ∧ StandsOn h i.words g ∧ FlagsRise h.g g []) ∧
   (∀ (b : BitVec 4) (s : State) (h : Here) (tr : Trans), Issues (.barw b true) s h →
     translate s h.c.core h.t.asid (h.t.barEntry b) h.lead .load false = .ok tr → lineMoving s tr = false →
     stale s h.t.asid tr = false → s.bad.contains (tr.key / 128) = false →
     heldBack s h.g.gid s.serial false = false → (∀ q ∈ s.teams, ∀ k ∈ q.parked, k.gid ≠ h.g.gid) →
     ∃ t g, exec (.barw b true) s = .next t ∧ t.mem = s.mem ∧ t.teams = s.teams ∧ t.group? h.g.gid = some g ∧
       SameRegs h.g g ∧ StandsOn h 1 g ∧ FlagsRise h.g g [] ∧ ∀ j, j < 32 → h.act.getLsbD j = true →
         (g.lane j).wait = if (h.g.lane j).phG.getLsbD b.toNat = (Mem.read32 s.mem (tr.key + 12)).getLsbD 0
           then some (.barG b) else none) ∧
   ∀ (s : State) (h : Here), Issues .yield s h →
     ∃ t g, exec .yield s = .next t ∧ SameElse s t h ∧ t.ops.length = s.ops.length ∧ t.group? h.g.gid = some g ∧
       SameRegs h.g g ∧ StandsOn h 1 g ∧ FlagsRise h.g g [] ∧ ∀ j, j < 32 →
         (g.lane j).wait = if h.t.drain && h.c.pk.lanes.getLsbD j then some .atYield else (h.g.lane j).wait)

/-! ### Traps -/

/-- R227: trap entry of fibres that have no live record, with a handler: each saves where it resumes, its clause,
mode, place in the clause and demotion, takes the cause, address and information of its fault, and goes to the handler
in privileged mode, undemoted; nothing else of it changes, and no other fibre, group, team or memory. R229: a fault of
a fibre with a live record, or without a handler, is fatal: every group of its team halts; a live record only takes
the new cause into ECAUSE[15:8], another is written as at trap entry, and neither fibre moves. -/
def Obligations.TakingATrap : Prop :=
  (∀ (s : State) (gid : Nat) (lanes : BitVec 32) (base : FaultRec) (own : List (Nat × FaultRec)) (g : Group) (tm : Team),
     s.group? gid = some g → s.team? g.tid = some tm → tm.tvec ≠ 0 → base.xl = none →
     (∀ j, j < 32 → lanes.getLsbD j = true → (g.lane j).estatus.getLsbD 15 = false) →
     let t := s.takeTrap gid lanes base own
     t.mem = s.mem ∧ t.teams = s.teams ∧ t.ops = s.ops ∧ t.cores = s.cores ∧ (∀ n, n ≠ gid → t.group? n = s.group? n) ∧
     ∃ k, t.group? gid = some k ∧ SameRegs g k ∧ ∀ j, j < 32 →
       if lanes.getLsbD j = true then
         let x := g.lane j
         let f := laneFault base own j
         let r := f.resume.getD (x.pc, x.rem, x.clause)
         let y := k.lane j
         y.epc = r.1.setWidth 64 ∧ y.eclause = r.2.2 ∧ y.ecause = f.cause.setWidth 32 ∧ y.eaddr = f.addr ∧
         y.einfo = f.info ∧ y.estatus.getLsbD 15 = true ∧ y.estatus.getLsbD 14 = x.mode ∧
         y.estatus.getLsbD 13 = (r.2.1 != 0) ∧ y.estatus.getLsbD 12 = x.demoted ∧
         y.estatus.extractLsb' 0 4 = r.2.1 ∧ y.estatus.extractLsb' 4 8 = 0 ∧ y.estatus.extractLsb' 16 16 = 0 ∧
         y.mode = true ∧ y.demoted = false ∧ y.pc = tm.tvec.setWidth 56 ∧ y.rem = 0 ∧ y.sp = x.sp ∧ y.fp = x.fp
       else k.lane j = g.lane j) ∧
  (∀ (s : State) (gid : Nat) (lanes : BitVec 32) (base : FaultRec) (own : List (Nat × FaultRec)) (g : Group) (tm : Team)
     (j : Nat),
     s.group? gid = some g → s.team? g.tid = some tm → j < 32 → lanes.getLsbD j = true →
     (g.lane j).estatus.getLsbD 15 = true ∨ tm.tvec = 0 →
     let t := s.takeTrap gid lanes base own
     let f := laneFault base own j
     (∀ n k, t.group? n = some k → k.tid = tm.tid → k.halted = true) ∧
     ∃ k, t.group? gid = some k ∧ (k.lane j).pc = (g.lane j).pc ∧ (k.lane j).mode = (g.lane j).mode ∧
       (if (g.lane j).estatus.getLsbD 15 = true then
         (k.lane j).ecause.extractLsb' 8 8 = f.cause ∧ (k.lane j).ecause.extractLsb' 0 8 = (g.lane j).ecause.extractLsb' 0 8 ∧
         (k.lane j).epc = (g.lane j).epc ∧ (k.lane j).eaddr = (g.lane j).eaddr ∧ (k.lane j).einfo = (g.lane j).einfo ∧
         (k.lane j).estatus = (g.lane j).estatus
       else (k.lane j).ecause = f.cause.setWidth 32 ∧ (k.lane j).estatus.getLsbD 15 = true))

/-- `TRAP` and `BRKPT` (R234): an active fibre without a live record takes cause 0x38 with the code, and resumes at
the next clause, or cause 0x39, and resumes at the next word; with a debugger attached `BRKPT` halts its group
instead. `RTE` (R235): in privileged mode a fibre with a live record whose EPC is a place to resume takes back its
mode, demotion and clause and goes there, and its record is no longer live; in user mode `RTE` raises PRIVILEGE. -/
def Obligations.TrapsBreakpointsAndReturns : Prop :=
  ((∀ (code : BitVec 16) (s : State) (h : Here), Issues (.trap code) s h → h.t.tvec ≠ 0 →
     (∀ j, j < 32 → h.act.getLsbD j = true → (h.g.lane j).estatus.getLsbD 15 = false) →
     ∃ t g, exec (.trap code) s = .next t ∧ SameElse s t h ∧ t.group? h.g.gid = some g ∧ SameRegs h.g g ∧
       FlagsRise h.g g [] ∧ ∀ j, j < 32 →
         if h.act.getLsbD j = true then
           (g.lane j).ecause = 0x38 ∧ (g.lane j).einfo = code.setWidth 32 ∧ (g.lane j).eaddr = 0 ∧
           (g.lane j).epc = h.first.clauseEnd.setWidth 64 ∧ (g.lane j).estatus.getLsbD 13 = false ∧
           (g.lane j).estatus.getLsbD 14 = (h.g.lane j).mode ∧ (g.lane j).mode = true ∧
           (g.lane j).pc = h.t.tvec.setWidth 56 ∧ (g.lane j).rem = 0
         else (g.lane j).pc = if h.c.pk.lanes.getLsbD j then (h.g.lane j).clauseEnd else (h.g.lane j).pc) ∧
   (∀ (s : State) (h : Here), Issues .brkpt s h → h.t.dbgctl.getLsbD 0 = false → h.t.tvec ≠ 0 →
     (∀ j, j < 32 → h.act.getLsbD j = true → (h.g.lane j).estatus.getLsbD 15 = false) →
     ∃ t g, exec .brkpt s = .next t ∧ SameElse s t h ∧ t.group? h.g.gid = some g ∧ SameRegs h.g g ∧ FlagsRise h.g g [] ∧
       ∀ j, j < 32 → h.act.getLsbD j = true →
         (g.lane j).ecause = 0x39 ∧ (g.lane j).epc = (h.first.pc + 4).setWidth 64 ∧ (g.lane j).eclause = h.hdr ∧
         (g.lane j).estatus.getLsbD 13 = (h.first.rem != 1) ∧
         (g.lane j).estatus.extractLsb' 0 4 = h.first.rem - 1 ∧ (g.lane j).pc = h.t.tvec.setWidth 56) ∧
   ∀ (s : State) (h : Here), Issues .brkpt s h → h.t.dbgctl.getLsbD 0 = true →
     ∃ t g, exec .brkpt s = .next t ∧ t.mem = s.mem ∧ t.teams = s.teams ∧ t.host.dbgpc = h.first.pc.setWidth 64 ∧
       t.group? h.g.gid = some g ∧ SameRegs h.g g ∧ StandsOn h 1 g ∧ g.halted = true ∧
       ∀ j, j < 32 → h.act.getLsbD j = true → (g.lane j).status = .halted ∧ SameTrap (h.g.lane j) (g.lane j)) ∧
  ((∀ (s : State) (h : Here), Issues .rte s h → h.user = false →
     (∀ j, j < 32 → h.act.getLsbD j = true → (h.g.lane j).estatus.getLsbD 15 = true ∧ (h.g.lane j).epc.toNat % 4 = 0 ∧
       ((h.g.lane j).estatus.getLsbD 13 = true ∨ clauseStart s h.t (h.g.lane j).epc.toNat = true)) →
     ∃ t g, exec .rte s = .next t ∧ SameElse s t h ∧ t.group? h.g.gid = some g ∧ SameRegs h.g g ∧ FlagsRise h.g g [] ∧
       ∀ j, j < 32 → h.act.getLsbD j = true →
         let x := h.g.lane j
         let y := g.lane j
         y.mode = x.estatus.getLsbD 14 ∧ y.demoted = x.estatus.getLsbD 12 ∧ y.clause = x.eclause ∧
         y.pc = x.epc.setWidth 56 ∧ y.rem = (if x.estatus.getLsbD 13 then x.estatus.extractLsb' 0 4 else 0) ∧
         y.active = x.estatus.getLsbD 13 ∧ (∀ n, n < 32 → y.estatus.getLsbD n = (x.estatus.getLsbD n && n != 15)) ∧
         y.epc = x.epc ∧ y.ecause = x.ecause ∧ y.eaddr = x.eaddr ∧ y.einfo = x.einfo ∧ y.sp = x.sp) ∧
   ∀ (s : State) (h : Here), Issues .rte s h → h.user = true → h.t.tvec ≠ 0 →
     (∀ j, j < 32 → h.act.getLsbD j = true → (h.g.lane j).estatus.getLsbD 15 = false) →
     ∃ t g, exec .rte s = .next t ∧ t.mem = s.mem ∧ t.group? h.g.gid = some g ∧ SameRegs h.g g ∧
       ∀ j, j < 32 → h.act.getLsbD j = true →
         (g.lane j).ecause = 3 ∧ (g.lane j).epc = (h.g.lane j).pc.setWidth 64 ∧ (g.lane j).pc = h.t.tvec.setWidth 56)

/-! ### System registers -/

/-- `RDSYS` of a fibre register destination (R55, R231 to R233): every active fibre reads its own value; what the
registers of a fibre, a group and a team hold; a number that names no register reads 0, and one from 0x700 raises
ILLEGAL_SYSREG with it. `CLK` reads the device's clock (R236). `WRSYS` (R5, R55, R117, R231 to R233): each active
fibre writes its own fibre-held register; a register of a group, team, context, core or region takes the lowest active
fibre's value. User mode may not write what R231 reserves. -/
def Obligations.SystemRegisters : Prop :=
  ((∀ (d : Dst) (s s1 : State) (h : Here) (ins : List LaneIn), Issues (.clk d) s h → Reads (.clk d) s h ins s1 →
     exec (.clk d) s = .next (vecDone (.clk d) h ins (ins.map fun _ => out64 (BitVec.ofNat 64 s.now)) s1)) ∧
   (∀ (d : Dst) (n : BitVec 12) (s : State) (h : Here), Issues (.rdsys d n) s h → n.toNat < 0x700 →
     ∃ t g up, exec (.rdsys d n) s = .next t ∧ SameElse s t h ∧ t.group? h.g.gid = some g ∧ StandsOn h 1 g ∧
       FlagsRise h.g g [] ∧ (∀ j, j < 32 → (g.lane j).preds = (h.g.lane j).preds ∧ SameTrap (h.g.lane j) (g.lane j)) ∧
       (∀ r : BitVec 6, d = .v r → r.toNat + (sysKind n (Dst.even d)).regs ≤ 64 → ∀ j m, j < 32 → m < 64 →
         (g.lane j).reg m =
           if h.act.getLsbD j ∧ r.toNat ≤ m ∧ m < r.toNat + (sysKind n (Dst.even d)).regs
           then wordAt (sysRead s h j n.toNat up) (m - r.toNat) else (h.g.lane j).reg m) ∧
       ∀ r : BitVec 5, d = .s r → r.toNat + (sysKind n (Dst.even d)).regs ≤ 32 → ∀ m, m < 32 →
         g.scalar m = if r.toNat ≤ m ∧ m < r.toNat + (sysKind n (Dst.even d)).regs
           then wordAt (sysRead s h h.lead n.toNat up) (m - r.toNat) else h.g.scalar m) ∧
   (∀ (s : State) (h : Here) (lane up : Nat),
     let x := h.g.lane lane
     let rd := fun n => sysRead s h lane n up
     rd 0x002 = BitVec.ofNat 64 h.t.teamNo ∧ rd 0x003 = BitVec.ofNat 64 h.t.nteams ∧ rd 0x010 = h.t.gridBar ∧
     rd 0x011 = x.stackLo ∧ rd 0x012 = x.stackHi ∧ rd 0x020 = h.g.fpctl.setWidth 64 ∧ rd 0x021 = h.g.cbase.setWidth 64 ∧
     rd 0x022 = (if x.mode then 1 else 0) ∧ rd 0x030 = h.t.tvec ∧ rd 0x031 = x.epc ∧ rd 0x032 = x.estatus.setWidth 64 ∧
     rd 0x033 = x.ecause.setWidth 64 ∧ rd 0x034 = x.eaddr ∧ rd 0x035 = x.einfo.setWidth 64 ∧
     rd 0x036 = x.eclause.setWidth 64 ∧ rd 0x038 = (vget x.esave 0 0).setWidth 64 ∧ rd 0x03F = 0 ∧ rd 0x044 = 0 ∧
     rd 0x310 = x.sp.setWidth 64 ∧ rd 0x311 = x.fp.setWidth 64) ∧
   ∀ (d : Dst) (n : BitVec 12) (s : State) (h : Here), Issues (.rdsys d n) s h → 0x700 ≤ n.toNat → h.t.tvec ≠ 0 →
     (∀ j, j < 32 → h.act.getLsbD j = true → (h.g.lane j).estatus.getLsbD 15 = false) →
     ∃ t g, exec (.rdsys d n) s = .next t ∧ t.group? h.g.gid = some g ∧ SameRegs h.g g ∧
       ∀ j, j < 32 → h.act.getLsbD j = true → (g.lane j).ecause = 4 ∧ (g.lane j).einfo = n.setWidth 32) ∧
  ((∀ (n : BitVec 12) (a : Src) (s s1 : State) (h : Here) (ins : List LaneIn),
     let i : Instr := .wrsys n a
     let v := ((ins.head?).map fun x => x.s 0).getD 0
     Issues i s h → Reads i s h ins s1 → n.toNat < 0x700 → (h.user = true → userWrites n.toNat = true) →
     writeWaits s1 h.c.core n.toNat v = false → (n.toNat = 0x030 → v.toNat % 4 = 0) → n.toNat ≠ 0x301 →
     (n.toNat = 0x250 → bqctlWaits s1 h.c.core h.t.asid (v.setWidth 32) = false) →
     ∃ t g, exec i s = .next t ∧ t.group? h.g.gid = some g ∧ StandsOn h i.words g ∧
       (n.toNat ∉ [0x107, 0x108, 0x250] ∨ s1.monitors = [] →
         (∀ j, j < 32 → (g.lane j).regs = (h.g.lane j).regs) ∧ g.scal = h.g.scal) ∧
       (fibreHeld n.toNat = true → SameElse s1 t h ∧ g.fpctl = h.g.fpctl ∧ ∀ j, j < 32 →
         let x := h.g.lane j
         let y := g.lane j
         let w := laneOp ins 0 j
         if h.act.getLsbD j = true then
           (n = 0x031 → y.epc = w) ∧ (n = 0x032 → y.estatus = w.setWidth 32 &&& 0xF00F) ∧
           (n = 0x033 → y.ecause = w.setWidth 32 &&& 0xFFFF) ∧ (n = 0x034 → y.eaddr = w) ∧
           (n = 0x035 → y.einfo = w.setWidth 32) ∧ (n = 0x036 → y.eclause = w.setWidth 32) ∧
           (∀ k, k < 4 → n.toNat = 0x038 + k → vget y.esave k 0 = w.setWidth 32) ∧
           (n = 0x310 → y.sp = w.setWidth 56) ∧ (n = 0x311 → y.fp = w.setWidth 56)
         else SameTrap x y ∧ y.sp = x.sp ∧ y.fp = x.fp) ∧
       (n = 0x020 → SameElse s1 t h ∧ ∀ k, k < 32 → g.fpctl.getLsbD k =
         (decide (k < 2) && v.getLsbD k || decide (8 ≤ k ∧ k < 14) && h.g.fpctl.getLsbD k && !v.getLsbD k)) ∧
       (n = 0x021 → SameElse s1 t h ∧ g.cbase = v.setWidth 32 &&& 0xFFFFC) ∧
       (n = 0x030 → ∃ tm, t.team? h.t.tid = some tm ∧ tm.tvec = v) ∧
       (n = 0x103 → v.getLsbD 0 = true → (t.ctxOf h.t.asid).bump = true) ∧
       (n.toNat ∈ [0x000, 0x022, 0x03F, 0x0FF, 0x312, 0x6FF] → SameElse s1 t h ∧ SameRegs h.g g)) ∧
   -- SLHEAPCFG, whose write also makes the heap when it enables it
   (∀ (a : Src) (s s1 : State) (h : Here) (ins : List LaneIn) (tr : Trans),
     let i : Instr := .wrsys 0x301 a
     let c := s1.ctxOf h.t.asid
     let cfg := slheapcfgValue c ((((ins.head?).map fun (x : LaneIn) => x.s 0).getD 0).setWidth 32)
     let rises := cfg.getLsbD 31 && !heapOn c
     let count := slotCount cfg
     Issues i s h → Reads i s h ins s1 → h.user = false →
     (rises = true → xlateNow s1 h.t.asid (heapBase c) (.engine true) false = some (.ok tr) ∧
       ∀ k, k ≤ 16 * (count + 1) / 256 → lineMoving s1 { tr with pa := tr.pa + 256 * k } = false) →
     ∃ t g, exec i s = .next t ∧ t.group? h.g.gid = some g ∧ StandsOn h i.words g ∧
       (t.ctxOf h.t.asid).slheapcfg = cfg ∧
       t.mem = if rises then Mem.write (s1.accessed h.t.asid (heapBase c)).mem tr.key
         ((List.range (count + 1)).flatMap fun k => leBytes 16 ((if k = count then 0 else k + 1) * 2 ^ 112)) else s1.mem) ∧
   ∀ (n : BitVec 12) (a : Src) (s : State) (h : Here), Issues (.wrsys n a) s h → h.t.tvec ≠ 0 →
     (∀ j, j < 32 → h.act.getLsbD j = true → (h.g.lane j).estatus.getLsbD 15 = false) →
     0x700 ≤ n.toNat ∨ h.user = true ∧ userWrites n.toNat = false →
     ∃ t g, exec (.wrsys n a) s = .next t ∧ t.group? h.g.gid = some g ∧ SameRegs h.g g ∧
       ∀ j, j < 32 → h.act.getLsbD j = true →
         (g.lane j).ecause = (if 0x700 ≤ n.toNat then 4 else 3) ∧ (g.lane j).pc = h.t.tvec.setWidth 56)

/-! ### Frame slices -/

/-- A slice instruction all of whose active fibres complete (R344) leaves each with what its own part left: the
registers, SP, FP and marks of every fibre and memory are those (`s1`, with the results in the destination), and the
packet stands as `pcs` says. One fibre's part of `MARK`, `SDROP`, `SDROP.hold` and `SINFO` (R330, R342, R343): a mark's
record goes 8 bytes below the old SP, over the previous mark's depth and the frame's, and becomes the newest mark; a
handle that is not live raises SLICE_OWNER, but `SINFO` reads it as 0; a live one gains or loses one reference, and
`SINFO` tells its frames and size. -/
def Obligations.FrameSlices : Prop :=
  (let done := fun (i : Instr) (s s1 : State) (h : Here) (pcs : Group → Group → Prop) =>
     ∀ k, s1.group? h.g.gid = some k → ∃ t g, exec i s = .next t ∧ t.mem = s1.mem ∧ t.ctxs = s1.ctxs ∧
       t.group? h.g.gid = some g ∧ g.scal = k.scal ∧
       (∀ j, j < 32 → (g.lane j).regs = (k.lane j).regs ∧ (g.lane j).sp = (k.lane j).sp ∧
         (g.lane j).fp = (k.lane j).fp ∧ (g.lane j).marks = (k.lane j).marks) ∧ pcs k g
   let on := fun (h : Here) (n : Nat) (k g : Group) => ∀ j, j < 32 →
     (g.lane j).pc = (k.lane j).pc + (if h.c.pk.lanes.getLsbD j then BitVec.ofNat 56 (4 * n) else 0)
   let handle := fun (ins : List LaneIn) (j : Nat) => ((ins.find? fun x => x.lane = j).map fun x => x.w 0).getD 0
   (∀ (d : Dst) (id : BitVec 16) (s s1 : State) (h : Here) (vals : List (Nat × Nat)), Issues (.mark d id) s h →
     eachLane (markLane h id s.serial) (lanesOf h.act) s.fresh = .ok ([], vals) s1 →
     done (.mark d id) s (sliceDst s1 h (some d) vals) h (on h 1)) ∧
   (∀ (d : Dst) (id : BitVec 16) (off : BitVec 19) (s s1 : State) (h : Here) (vals : List (Nat × Nat)),
     Issues (.cut d id off) s h → eachLane (cutLane h id (h.target off)) (lanesOf h.act) s = .ok ([], vals) s1 →
     done (.cut d id off) s (sliceDst s1 h (some d) vals) h (on h 2)) ∧
   (∀ (a : Src) (s s0 s1 : State) (h : Here) (ins : List LaneIn) (vals : List (Nat × Nat)),
     Issues (.graft a) s h → Reads (.graft a) s h ins s0 →
     eachLane (graftLane h s0.serial (handle ins)) (lanesOf h.act) s0.fresh = .ok ([], vals) s1 →
     -- a control transfer: the fibres stand where their return words say
     done (.graft a) s s1 h fun k g => ∀ j, j < 32 → (g.lane j).pc =
       if h.act.getLsbD j then (k.lane j).pc else if h.c.pk.lanes.getLsbD j then (k.lane j).clauseEnd else (k.lane j).pc) ∧
   (∀ (d : Dst) (a : Src) (s s0 s1 : State) (h : Here) (ins : List LaneIn) (vals : List (Nat × Nat)),
     (Issues (.sdrop d a) s h → Reads (.sdrop d a) s h ins s0 →
       eachLane (dropLane h (handle ins)) (lanesOf h.act) s0 = .ok ([], vals) s1 →
       done (.sdrop d a) s (sliceDst s1 h (some d) vals) h (on h 1)) ∧
     (Issues (.sdropHold d a) s h → Reads (.sdropHold d a) s h ins s0 →
       eachLane (holdLane h (handle ins)) (lanesOf h.act) s0 = .ok ([], vals) s1 →
       done (.sdropHold d a) s (sliceDst s1 h (some d) vals) h (on h 1)) ∧
     (Issues (.sinfo d a) s h → Reads (.sinfo d a) s h ins s0 →
       eachLane (infoLane h (handle ins)) (lanesOf h.act) s0 = .ok ([], vals) s1 →
       done (.sinfo d a) s (sliceDst s1 h (some d) vals) h (on h 1)))) ∧
  ((∀ (h : Here) (id : BitVec 16) (op : Nat) (s : State) (i : Nat) (g : Group) (tr : Trans),
     let x := g.lane i
     let r := x.sp - 8
     s.group? h.g.gid = some g → i < 32 → x.sp.toNat % 8 = 0 → x.fp.toNat % 8 = 0 →
     x.stackLo.toNat + 8 ≤ x.sp.toNat → (x.depth r).toNat < 2 ^ 27 → (x.depth x.fp).toNat < 2 ^ 27 →
     accessOne s h .global 8 .store false i r.toNat = .ok tr →
     ∃ s1 k, markLane h id op s i = .ok 0 s1 ∧ s1.mem = s.mem ∧ s1.group? h.g.gid = some k ∧ k.sq = g.sq ∧
       SameRegs g k ∧ (k.lane i).sp = r ∧ (k.lane i).fp = x.fp ∧ (k.lane i).pc = x.pc ∧
       (k.lane i).marks.head? = some { depth := (x.depth r).setWidth 32, id := id } ∧
       ∃ e b, k.entering = g.entering ++ [e] ∧
         e.stores = [{ op := op, lane := i, va := r.setWidth 64, tr := tr, bytes := b, scratch := false }] ∧
         b = leBytes 8 (id.toNat * 2 ^ 48 +
           (((x.marks.head?).map fun m => m.depth.toNat).getD 0 / 8) % 2 ^ 24 * 2 ^ 24 + (x.depth x.fp).toNat / 8)) ∧
   (∀ (h : Here) (hd : Nat → Word) (s s1 : State) (i : Nat),
     (liveSlot s h i (hd i) true = .ok none s1 →
       dropLane h hd s i = .trap (plainFault fSliceOwner) s1 ∧ holdLane h hd s i = .trap (plainFault fSliceOwner) s1) ∧
     (liveSlot s h i (hd i) false = .ok none s1 → infoLane h hd s i = .ok 0 s1)) ∧
   ∀ (h : Here) (hd : Nat → Word) (s s1 : State) (i k : Nat) (q : Quad) (t : Trans),
     let refs := qbits q 96 16
     (liveSlot s h i (hd i) true = .ok (some (k, q, t)) s1 →
       (2 ≤ refs → ∃ s2, dropLane h hd s i = .ok (BitVec.ofNat 32 (refs - 1)) s2) ∧
       (refs < 2 → ∀ s2, pushSlot s1 h i k (setBits (setBits (setBits q 96 16 0) 8 1 0) 0 7 (qbits q 0 7 + 1)) t =
         .ok () s2 → dropLane h hd s i = .ok 0 s2) ∧
       ∃ s2, holdLane h hd s i = .ok (BitVec.ofNat 32 (min (refs + 1) 65535)) s2) ∧
     (liveSlot s h i (hd i) false = .ok (some (k, q, t)) s1 →
       infoLane h hd s i = .ok (BitVec.ofNat 32 (qbits q 64 16 * 65536 + qbits q 80 16)) s1))

/-- Slice instructions complete (R344). `MARK` does in every active fibre whose stack takes the record (R329, R330);
`SINFO` does in fibres whose handles name no slot, and, like `SDROP` and `SDROP.hold`, in one whose handle is live (R342,
R343). `CUT` (R335, R336): a fibre that stands above a mark that the unit holds, its frames linked up to the mark and its
words at hand, with a free slot behind the header of an enabled heap, moves them into the slot, each link an offset,
under a new descriptor; its stack ends above the mark, whose record gives its frame, and the newer marks are gone.
`GRAFT` (R339, R340): a live slice that the fibre's stack takes is stored below its SP with its links made those of that
stack, at the bottom frame the fibre's own frame and the next clause, and the fibre goes to its return word; only the stores have still to be made. -/
def Obligations.SliceInstructionsComplete : Prop :=
  ((∀ (d : Dst) (id : BitVec 16) (s : State) (h : Here) (tr : Nat → Trans), Issues (.mark d id) s h →
      (∀ j, j < 32 → h.act.getLsbD j = true →
        let x := h.g.lane j
        x.sp.toNat % 8 = 0 ∧ x.fp.toNat % 8 = 0 ∧ x.stackLo.toNat + 8 ≤ x.sp.toNat ∧
        (x.depth (x.sp - 8)).toNat < 2 ^ 27 ∧ (x.depth x.fp).toNat < 2 ^ 27 ∧
        accessOne s h .global 8 .store false j (x.sp - 8).toNat = .ok (tr j)) →
      ∃ t g, exec (.mark d id) s = .next t ∧ SameElse s t h ∧ t.group? h.g.gid = some g ∧ StandsOn h 1 g ∧
        (∀ j, j < 32 → (g.lane j).fp = (h.g.lane j).fp ∧
          if h.act.getLsbD j = true then
            (g.lane j).sp = (h.g.lane j).sp - 8 ∧
            (g.lane j).marks = ({ depth := ((h.g.lane j).depth ((h.g.lane j).sp - 8)).setWidth 32, id := id } ::
              (h.g.lane j).marks).take 16 ∧
            DstHolds d g j 0
          else (g.lane j).sp = (h.g.lane j).sp ∧ (g.lane j).marks = (h.g.lane j).marks) ∧
        g.sq ++ g.entering = h.g.sq ++ h.g.entering ++ (lanesOf h.act).map fun j =>
          let x := h.g.lane j
          { stores := [{ op := s.serial, lane := j, va := (x.sp - 8).setWidth 64, tr := tr j, scratch := false
                         bytes := leBytes 8 (id.toNat * 2 ^ 48 +
                           (((x.marks.head?).map fun m => m.depth.toNat).getD 0 / 8) % 2 ^ 24 * 2 ^ 24 +
                           (x.depth x.fp).toNat / 8) }], rel := none }) ∧
   (∀ (d : Dst) (a : Src) (s s0 : State) (h : Here) (ins : List LaneIn), Issues (.sinfo d a) s h →
      Reads (.sinfo d a) s h ins s0 → (∀ x ∈ ins, ∀ k, ¬NamesSlot s0 h (x.w 0) k) →
      ∃ t g, exec (.sinfo d a) s = .next t ∧ SameElse s0 t h ∧ t.group? h.g.gid = some g ∧ StandsOn h 1 g ∧
        FlagsRise h.g g [] ∧ ∀ j, j < 32 → h.act.getLsbD j = true → DstHolds d g j 0) ∧
   (∀ (d : Dst) (a : Src) (s s0 : State) (h : Here) (ins : List LaneIn) (j k : Nat) (tr th : Trans),
     let i : Instr := .sdrop d a
     let c := s0.ctxOf h.t.asid
     let q := descOf s0 h (descVa c k) tr
     let s1 := afterRead s0 h (descVa c k) tr
     let q0 := descOf s1 h (descVa c 0) th
     Issues i s h → Reads i s h ins s0 → OnlyLane h j → LiveAt s0 h j ((laneOp ins 0 j).setWidth 32) k tr true →
     qbits q 96 16 ≤ 1 → DescAt s1 h j (descVa c 0) th true →
     -- the last reference: the slot is free, at the head of the list, in its next generation
     ∃ t g, exec i s = .next t ∧ t.ctxs = s.ctxs ∧ t.group? h.g.gid = some g ∧ StandsOn h 1 g ∧ DstHolds d g j 0 ∧
       t.mem = Mem.write (Mem.write (s1.accessed h.t.asid (descVa c 0)).mem tr.key
         (leBytes 16 (setBits (setBits (setBits (setBits q 96 16 0) 8 1 0) 0 7 (qbits q 0 7 + 1)) 112 16
           (qbits q0 112 16)).toNat)) th.key (leBytes 16 (headerNext q0 k false).toNat)) ∧
   ∀ (d : Dst) (a : Src) (s s0 : State) (h : Here) (ins : List LaneIn) (j k : Nat) (tr : Trans) (i : Instr),
     i ∈ [Instr.sdrop d a, .sdropHold d a, .sinfo d a] → Issues i s h → Reads i s h ins s0 → OnlyLane h j →
     LiveAt s0 h j ((laneOp ins 0 j).setWidth 32) k tr (decide (i ≠ .sinfo d a)) →
     let va := descVa (s0.ctxOf h.t.asid) k
     let q := descOf s0 h va tr
     let refs := qbits q 96 16
     (i = .sdrop d a → 2 ≤ refs) →
     ∃ t g, exec i s = .next t ∧ t.ctxs = s.ctxs ∧ t.group? h.g.gid = some g ∧ StandsOn h 1 g ∧
       (i = .sinfo d a → DstHolds d g j (BitVec.ofNat 32 (qbits q 64 16 * 65536 + qbits q 80 16)) ∧
         t.mem = (s0.accessed h.t.asid va).mem) ∧
       (i = .sdropHold d a → DstHolds d g j (BitVec.ofNat 32 (min (refs + 1) 65535)) ∧
         t.mem = Mem.write (s0.accessed h.t.asid va).mem tr.key (leBytes 16 (setBits q 96 16 (min (refs + 1) 65535)).toNat)) ∧
       (i = .sdrop d a → DstHolds d g j (BitVec.ofNat 32 (refs - 1)) ∧
         t.mem = Mem.write (s0.accessed h.t.asid va).mem tr.key (leBytes 16 (setBits q 96 16 (refs - 1)).toNat))) ∧
  ((∀ (d : Dst) (id : BitVec 16) (off : BitVec 19) (s : State) (h : Here) (j : Nat) (m : Mark) (w : Nat → Dword)
      (fs : List Nat) (t0 tk td tq : Trans),
      let i : Instr := .cut d id off
      let x := h.g.lane j
      let c := s.ctxOf h.t.asid
      let sp := x.sp.toNat
      let fp := x.fp.toNat
      let r := (x.atDepth (m.depth.setWidth 64)).toNat
      let size := r - sp + 8
      let below := (x.marks.dropWhile fun n => !n.has id).drop 1
      let prev := dbits (w r) 24 24
      let pv := (x.atDepth (BitVec.ofNat 64 (8 * prev))).toNat
      -- the free slot, and the states between the unit's reads and writes
      let k := qbits (descOf s h (descVa c 0) t0) 112 16
      let s1 := afterRead s h (descVa c 0) t0
      let s2 := afterRead s1 h (descVa c k) tk
      let s3 := writeDesc s2 h t0
        (headerNext (descOf s h (descVa c 0) t0) (qbits (descOf s1 h (descVa c k) tk) 112 16) true)
      let s4 := s3.accessed h.t.asid (dataVa c k)
      let q := descOf s4 h (descVa c k) tq
      let word := fun (n : Nat) =>
        if n = 0 then BitVec.ofNat 64 (h.target off)
        else
          let va := sp + 8 * (n - 1)
          if va = r - 16 then BitVec.allOnes 64
          else if va ∈ fp :: fs then x.stackHi - w va - BitVec.ofNat 64 sp + 8 else w va
      Issues i s h → OnlyLane h j → clauseStart s h.t (h.target off) = true → heapOn c = true →
      sp % 8 = 0 → fp % 8 = 0 → x.marks.find? (fun n => n.has id) = some m → dbits (w r) 48 16 = id.toNat →
      sp ≤ fp → fp + 16 ≤ r → Frames x w (r - 16) fp fs → fs.length < 2 ^ 24 → size ≤ slotSize c.slheapcfg →
      (∀ va, (va ∈ fp :: fs ∨ va = r ∨ (sp ≤ va ∧ va < r ∧ va % 8 = 0)) → stackRead s h j va = .ok (w va) s) →
      (below = [] → prev ≠ 0 → stackRead s h j pv = .ok (w pv) s) →
      DescAt s h j (descVa c 0) t0 true → k ≠ 0 → DescAt s1 h j (descVa c k) tk false →
      xlateNow s3 h.t.asid (dataVa c k) (.engine true) false j = some (.ok td) →
      (∀ n, n ≤ size / 256 → lineMoving s3 { td with pa := td.pa + 256 * n } = false) →
      lockMet (s3.coreOf h.c.core) (some h.t.asid) h.t.tid (dataVa c k) size true = none →
      DescAt s4 h j (descVa c k) tq true →
      ∃ t g, exec i s = .next t ∧ t.ctxs = s.ctxs ∧ t.group? h.g.gid = some g ∧ StandsOn h 2 g ∧
        (g.lane j).sp = BitVec.ofNat 56 (r + 8) ∧ (g.lane j).fp = x.atDepth (BitVec.ofNat 64 (8 * dbits (w r) 0 24)) ∧
        (g.lane j).marks = (if below = [] ∧ prev ≠ 0 then
          [{ depth := BitVec.ofNat 32 (8 * prev), id := (w pv).extractLsb' 48 16 }] else below) ∧
        DstHolds d g j (BitVec.ofNat 32 (2 ^ 31 + h.t.asid % 4096 * 2 ^ 19 + qbits q 0 7 * 2 ^ 12 + k)) ∧
        t.mem = Mem.write (Mem.write (s4.accessed h.t.asid (descVa c k)).mem td.key
            ((List.range (size / 8)).flatMap fun n => leBytes 8 (word n).toNat)) tq.key
          (leBytes 16 (qbits q 112 16 * 2 ^ 112 + 2 ^ 96 + size * 2 ^ 80 + (fs.length + 1) % 65536 * 2 ^ 64 +
            (fp - sp + 8) * 2 ^ 48 + 2 ^ 8 + qbits q 0 7))) ∧
   ∀ (a : Src) (s s0 : State) (h : Here) (ins : List LaneIn) (j k : Nat) (tq td : Trans) (tr : Nat → Trans),
     let i : Instr := .graft a
     let x := h.g.lane j
     let s1 := s0.fresh
     let c := s1.ctxOf h.t.asid
     let q := descOf s1 h (descVa c k) tq
     let size := qbits q 80 16
     let base := x.sp.toNat - size
     let s2 := afterRead s1 h (descVa c k) tq
     let s3 := afterRead s2 h (dataVa c k) td
     let data := wordsOf (Mem.read s3.mem td.key size)
     let words := relink x base h.first.clauseEnd (size / 8) (qbits q 48 16) data
     Issues i s h → Reads i s h ins s0 → OnlyLane h j → LiveAt s1 h j ((laneOp ins 0 j).setWidth 32) k tq false →
     x.sp.toNat % 8 = 0 → x.fp.toNat % 8 = 0 → x.stackLo.toNat + size ≤ x.sp.toNat →
     xlateNow s2 h.t.asid (dataVa c k) (.engine false) false j = some (.ok td) →
     (∀ n, n ≤ size / 256 → lineMoving s2 { td with pa := td.pa + 256 * n } = false) →
     lockMet (s2.coreOf h.c.core) (some h.t.asid) h.t.tid (dataVa c k) size false = none →
     (∀ n, 128 * n < size → s2.bad.contains ((td.key + 128 * n) / 128) = false) →
     (∀ n, n < size / 8 → accessOne s3 h .global 8 .store false j (base + 8 * n) = .ok (tr n)) →
     ∃ t g g3, exec i s = .next t ∧ t.ctxs = s.ctxs ∧ t.mem = s3.mem ∧ t.group? h.g.gid = some g ∧
       s3.group? h.g.gid = some g3 ∧ g.scal = g3.scal ∧
       (∀ n, n < 32 → (g.lane n).regs = (g3.lane n).regs ∧
         (g.lane n).pc = if n = j then ((data[0]?).getD 0).setWidth 56
           else if h.c.pk.lanes.getLsbD n then (h.g.lane n).clauseEnd else (h.g.lane n).pc) ∧
       (g.lane j).rem = 0 ∧ (g.lane j).sp = BitVec.ofNat 56 (base + 8) ∧
       (g.lane j).fp = BitVec.ofNat 56 (base + qbits q 48 16) ∧ (g.lane j).marks = x.marks ∧
       -- what the rewritten words are: each link the depth of the frame above, at the bottom the fibre's own, and the site
       (∀ fs, qbits q 48 16 % 8 = 0 → Links data (qbits q 48 16) fs →
         let bottom := (qbits q 48 16 :: fs).getLast (List.cons_ne_nil _ _)
         bottom + 16 ≤ size → words.length = size / 8 ∧ ∀ n, n < size / 8 → words[n]? = some (
           if 8 * n = bottom then x.stackHi - x.fp.setWidth 64
           else if 8 * n = bottom + 8 then h.first.clauseEnd.setWidth 64
           else if 8 * n ∈ qbits q 48 16 :: fs then x.stackHi - (BitVec.ofNat 64 base + (data[n]?).getD 0)
           else (data[n]?).getD 0)) ∧
       g.sq ++ g.entering = h.g.sq ++ h.g.entering ++ sectorEntries none (words.zipIdx.map fun p =>
         { op := s0.serial, lane := j, va := BitVec.ofNat 64 (base + 8 * p.2), tr := tr p.2, bytes := leBytes 8 p.1.toNat }))

/-! ### The matrix engine -/

/-- Convergence registers (R84, R85): `CVSET` gives one its count; `SIGN` and a signed matrix instruction add the
active fibres; the operation captured last waits until the count is complete, and then issues while the register is
cleared. `MZERO`, `MMA`, `MMAC`, `MLOAD`, `MSTORE` and `MGATHER` issue (R292, R299): one operation with the shape at
issue and the operands of the lowest active fibre, or of the highest when it is signed, behind the copies that its
handles raise; a signature that does not complete its register's count only captures it (R85). -/
def Obligations.MatrixInstructionsIssueAndConverge : Prop :=
  ((∀ (cv : BitVec 4) (n : Src) (s s1 : State) (h : Here) (ins : List LaneIn) (x : LaneIn),
     let i : Instr := .cvset cv n
     let r := vget h.t.cv cv.toNat {}
     Issues i s h → Reads i s h ins s1 → ins.head? = some x → 1 ≤ (x.w 0).toNat → (x.w 0).toNat ≤ 1024 →
     r.c = 0 ∨ r.n ≤ r.c →
     ∃ t g tm, exec i s = .next t ∧ t.mem = s.mem ∧ t.groups.length = s.groups.length ∧ t.group? h.g.gid = some g ∧
       SameRegs h.g g ∧ StandsOn h i.words g ∧ t.team? h.t.tid = some tm ∧
       vget tm.cv cv.toNat {} = { n := (x.w 0).toNat, c := 0, captured := none } ∧
       ∀ k, k < 16 → k ≠ cv.toNat → vget tm.cv k {} = vget h.t.cv k {}) ∧
   (∀ (cv : BitVec 4) (s : State) (h : Here),
     let r := vget h.t.cv cv.toNat {}
     let a := (lanesOf h.act).length
     Issues (.sign cv) s h → r.n ≠ 0 → h.t.lost = false →
     (r.c + a < r.n → ∃ t g tm, exec (.sign cv) s = .next t ∧ t.mem = s.mem ∧ t.ops.length = s.ops.length ∧
       t.group? h.g.gid = some g ∧ SameRegs h.g g ∧ StandsOn h 1 g ∧ t.team? h.t.tid = some tm ∧
       vget tm.cv cv.toNat {} = { n := r.n, c := r.c + a, captured := r.captured }) ∧
     ∀ q s2, r.c + a = r.n → r.captured = some q → mxIssue (.sign cv) s (s.advance h.c 1) h q = .done s2 →
       ∃ t tm o, exec (.sign cv) s = .next t ∧ t.mem = s.mem ∧ t.ops.getLast? = some o ∧
         o.kind = .matrix (mxAtIssue h.t q) ∧ o.gid = q.gid ∧ o.flags = q.flags ∧ t.team? h.t.tid = some tm ∧
         vget tm.cv cv.toNat {} = { n := 0, c := 0, captured := none })) ∧
  (∀ (i : Instr) (cv : SignCv) (s s1 : State) (h : Here) (ins : List LaneIn) (x : LaneIn),
     let q : MxReq := { instr := i, gid := h.g.gid, flags := setFlags h.hdr, ops := x.a }
     let issued := fun (t s2 : State) (g : Group) (o : Op) => t.mem = s.mem ∧ t.ops = s2.ops ∧ t.cores = s2.cores ∧
       t.ops.getLast? = some o ∧ o.kind = .matrix (mxAtIssue h.t q) ∧ o.gid = h.g.gid ∧ o.tid = h.t.tid ∧
       o.flags = setFlags h.hdr ∧ t.group? h.g.gid = some g ∧ SameRegs h.g g ∧ StandsOn h i.words g ∧
       FlagsRise h.g g (setFlags h.hdr)
     matrixSign i = some cv → Issues i s h → h.t.lost = false → Reads i s h ins s1 →
     (cv = none → ins.head? = some x → ∀ s2, mxIssue i s1 (s1.advance h.c i.words) h q = .done s2 →
       ∃ t g o, exec i s = .next t ∧ issued t s2 g o) ∧
     ∀ c, cv = some c → ins.getLast? = some x →
       let r := vget h.t.cv c.toNat {}
       let a := (lanesOf h.act).length
       r.n ≠ 0 →
       (r.c + a < r.n → ∃ t g tm, exec i s = .next t ∧ t.mem = s.mem ∧ t.ops.length = s.ops.length ∧
         t.group? h.g.gid = some g ∧ SameRegs h.g g ∧ StandsOn h i.words g ∧ t.team? h.t.tid = some tm ∧
         vget tm.cv c.toNat {} = { n := r.n, c := r.c + a, captured := some q }) ∧
       ∀ s2, r.c + a = r.n → mxIssue i s1 (s1.advance h.c i.words) h q = .done s2 →
         ∃ t g o tm, exec i s = .next t ∧ issued t s2 g o ∧ t.team? h.t.tid = some tm ∧
           vget tm.cv c.toNat {} = { n := 0, c := 0, captured := none })

/-- The other class X words: `MSHAPE` stores its two words as the shape (R294, R295); `MFENCE` goes on at once when the
team has no earlier matrix operation, and holds its fibres otherwise (R317); `BENQ` puts a row for each active fibre
into the cluster's queue, or tells by its predicate that the queue is not the context's (R315); `MRESET` abandons every
operation of a core's engine and marks the teams lost that hold sub-tiles there (R319, R320). -/
def Obligations.MatrixControlWords : Prop :=
  (∀ (mt nt : BitVec 4) (fa fb : MxForm) (acc : MxAcc) (sa sb q : Bool) (k : BitVec 16) (s : State) (h : Here),
    let i : Instr := .mshape mt nt fa fb acc sa sb q k
    Issues i s h → h.t.lost = false → (q = true → h.t.launch.factor4 = true) →
    ∃ t g tm, exec i s = .next t ∧ t.mem = s.mem ∧ t.ops.length = s.ops.length ∧ t.group? h.g.gid = some g ∧
      SameRegs h.g g ∧ StandsOn h 2 g ∧ t.team? h.t.tid = some tm ∧
      [tm.mxshape.extractLsb' 32 32, tm.mxshape.extractLsb' 0 32] = encode i) ∧
  (∀ (s : State) (h : Here), Issues .mfence s h → h.t.lost = false →
    ∃ t g, exec .mfence s = .next t ∧ t.mem = s.mem ∧ t.teams = s.teams ∧ t.group? h.g.gid = some g ∧ SameRegs h.g g ∧
      StandsOn h 1 g ∧ (matrixBefore s h.t.tid s.serial = false → t.ops.length = s.ops.length) ∧
      (matrixBefore s h.t.tid s.serial = true → ∃ o, Starts .mfence h s t o ∧ o.holds = true ∧ o.lanes = h.act ∧
        o.kind = .stageWait .mfence 0)) ∧
  (∀ (pd : BitVec 6) (row res : Src) (s s1 : State) (h : Here) (ins : List LaneIn),
    let i : Instr := .benq pd row res
    let k := s.coreOf (queueCore h.c.core)
    let ok := k.bqOn && k.bqasid == h.t.asid
    Issues i s h → h.t.lost = false → Reads i s h ins s1 → (ok = true → k.bqrows.length + ins.length < 128) →
    ∃ t g, exec i s = .next t ∧ t.mem = s.mem ∧ t.teams = s.teams ∧ t.group? h.g.gid = some g ∧ StandsOn h i.words g ∧
      (∀ j, j < 32 → (g.lane j).regs = (h.g.lane j).regs ∧
        (h.act.getLsbD j = true → (g.lane j).pred pd.toNat = (pd == 0 || ok))) ∧
      (ok = false → t.ops.length = s.ops.length ∧ (t.coreOf (queueCore h.c.core)).bqrows = k.bqrows) ∧
      (ok = true → (∃ o, Starts i h s t o ∧ o.kind = .benq ∧ o.lanes = h.act) ∧
        ((t.coreOf (queueCore h.c.core)).bqrows.map fun r => (r.op, r.row, r.res)) =
          (k.bqrows.map fun r => (r.op, r.row, r.res)) ++ ins.map fun x => (s.serial, x.s 0, x.s 1))) ∧
  ∀ (a : Src) (s s1 : State) (h : Here) (ins : List LaneIn) (x : LaneIn),
    Issues (.mreset a) s h → h.user = false → h.t.lost = false → Reads (.mreset a) s h ins s1 → ins.head? = some x →
    ∃ t, exec (.mreset a) s = .next t ∧ (s.disturbed = [] → t.mem = s.mem) ∧
      (2048 ≤ (x.w 0).toNat → t.ops.length = s.ops.length ∧ t.teams = s.teams) ∧
      ((x.w 0).toNat < 2048 → (t.coreOf (x.w 0).toNat).bqrows = [] ∧
        (∀ o ∈ t.ops, o.core = (x.w 0).toNat →
          match o.kind with | .matrix _ => False | .batch .. => False | _ => True) ∧
        ∀ m ∈ t.teams, m.core = (x.w 0).toNat → m.resident = true ∨ m.phase = .starting → 0 < m.nsub →
          m.lost = true ∧ m.subs = [])

/-! ### Class K -/

/-- Tile handles and copies (R266 to R268, R270, R272, R274): `THDL` stores the descriptor and whether it is valid; a
copy whose checks pass is one operation with what it read at issue, and its ranges lock the range-lock table (R216)
before anything is moved. -/
def Obligations.CopiesIssue : Prop :=
  (∀ (th : BitVec 5) (r : BitVec 6) (s : State) (h : Here), Issues (.thdl th (.v r)) s h →
    let d : Quad := BitVec.ofNat 128 ((h.g.lane h.lead).wide r.toNat 4)
    ∃ t g tm, exec (.thdl th (.v r)) s = .next t ∧ t.mem = s.mem ∧ t.ops.length = s.ops.length ∧
      t.group? h.g.gid = some g ∧ SameRegs h.g g ∧ StandsOn h 1 g ∧ FlagsRise h.g g [] ∧ t.team? h.t.tid = some tm ∧
      vget tm.th th.toNat {} = { desc := d, valid := descValid d (vget h.t.fm (descFm d) 0) } ∧
      (∀ k, k < 32 → k ≠ th.toNat → vget tm.th k {} = vget h.t.th k {}) ∧ tm.scratch = h.t.scratch) ∧
  let issues := fun (i : Instr) (th : BitVec 5) (f : LaneIn → CopyReq) =>
    ∀ s s1 h ins x, Issues i s h → Reads i s h ins s1 → ins.head? = some x →
      let c := copyAtIssue h th x (f x)
      copyFault s1 h c = none → (copyRanges h c).length ≤ (rltFree s h.c.core 0 56).length →
      ∃ t g o, exec i s = .next t ∧ SameElse s1 t h ∧ Starts i h s t o ∧ o.kind = .copy c ∧ o.flags = setFlags h.hdr ∧
        o.lanes = h.act ∧ t.group? h.g.gid = some g ∧ SameRegs h.g g ∧ StandsOn h i.words g ∧
        FlagsRise h.g g (setFlags h.hdr) ∧ c.desc = (vget h.t.th th.toNat {}).desc ∧ c.off = (x.w 0).toNat ∧
        c.i0 = dbits (x.s 1) 16 16 ∧ c.j0 = dbits (x.s 1) 0 16 ∧ c.dir = (f x).dir ∧ c.status = (f x).status ∧
        ∀ r ∈ copyRanges h c, r.lo < r.hi → ∃ e ∈ (t.coreOf h.c.core).rlt,
          e.op = s.serial ∧ e.dest = r.dest ∧ e.asid = r.asid ∧ e.lo = r.lo ∧ e.hi = r.hi ∧ e.entry < 56
  (∀ (th : BitVec 5) (plain bulk : Bool) (off origin : Src) (status : Option Src) (stage : Option (BitVec 3 × Src)),
    issues (.cpyi th plain bulk off origin status stage) th (cpyiReq plain bulk status stage)) ∧
  (∀ (th : BitVec 5) (bulk tf : Bool) (off origin : Src) (status : Option Src) (sr : Option (Src × Src))
    (am : Option (Scope × Src)),
    issues (.cpyo th bulk tf off origin status sr am) th (cpyoReq bulk tf status sr am)) ∧
  ∀ (th : BitVec 5) (plain quad : Bool) (off origin : Src) (status : Option Src) (stage : Option (BitVec 3 × Src))
    (mask : BitVec 8), issues (.cpym th plain quad off origin status stage mask) th (cpymReq plain quad status stage mask)

/-- Stages and leases: the four stage instructions join the stage table with the lowest active fibre's sequence number,
and will write p63 and the offset (R281, R282); what they do to the slot when they are served; `LEASE` joins the requests
to the die's pool; the pool serves the first of them that may be served once its nanosecond is past: the team takes a
free bulk engine of the die, or keeps the one it has, for the period, and its predicate tells (R286, R287); `LFREE` gives
it back once no bulk copy of the team is under way. -/
def Obligations.StagesAndLeases : Prop :=
  let joins := fun (i : Instr) (dst : Option (Dst × Nat)) (preds : List (BitVec 6)) =>
    ∀ s s1 h ins x, Issues i s h → Reads i s h ins s1 → ins.head? = some x →
      ∃ t g o, exec i s = .next t ∧ SameElse s1 t h ∧ SameTables (s.coreOf h.c.core) (t.coreOf h.c.core) ∧
        Starts i h s t o ∧ o.kind = .stageWait i (x.w 0) ∧ o.dst = dst ∧ o.preds = preds ∧ o.flags = setFlags h.hdr ∧
        o.lanes = h.act ∧ t.group? h.g.gid = some g ∧ SameRegs h.g g ∧ StandsOn h i.words g ∧
        FlagsRise h.g g (setFlags h.hdr)
  (∀ (d : Dst) (n : BitVec 3) (q : Src), joins (.stgpWait d n q) (some (d, 1)) [63] ∧ joins (.stgpFill n q) none [63] ∧
    joins (.stgc d n q) (some (d, 1)) [63] ∧ joins (.stgr n q) none [63]) ∧
  (∀ (d : Dst) (n : BitVec 3) (q : Src) (st : Stage) (seq : Word), st.cfg.getLsbD 31 = true →
    let k := seq.toNat % st.depth
    (st.slot k).n = seq →
    ((st.slot k).full = false → stageAct (.stgpWait d n q) st seq = some (false, some (st.off k), st) ∧
      stageAct (.stgc d n q) st seq = none ∧
      stageAct (.stgpFill n q) st seq = some (false, none, { st with slots := st.slots.set k { n := seq, full := true } }) ∧
      stageAct (.stgr n q) st seq = some (true, none, st)) ∧
    ((st.slot k).full = true → stageAct (.stgpWait d n q) st seq = some (true, none, st) ∧
      stageAct (.stgc d n q) st seq = some (false, some (st.off k), st) ∧
      stageAct (.stgpFill n q) st seq = some (true, none, st) ∧
      stageAct (.stgr n q) st seq = some (false, none,
        { st with slots := st.slots.set k { n := seq + BitVec.ofNat 32 st.depth, full := false } }))) ∧
  (∀ (pd : BitVec 6) (p : Src), joins (.lease pd p) none [pd]) ∧
  (∀ (pd : BitVec 6) (p : Src) (w : Word) (s : State) (o : Op) (t : Team),
    let e := match t.lease with
      | some l => some l.1
      | none => freeEngine s (dieOf o.core)
    let us := if w = 0 then 50 else min 1000 w.toNat
    s.op? o.id = some o → o.kind = .stageWait (.lease pd p) w → o.preds = [pd] → s.team? o.tid = some t → t.tid = o.tid →
    t.phase = .running → t.leaseEnding = false → o.since < s.now →
    (∀ q ∈ s.ops, (leaseOf q).isSome → dieOf q.core = dieOf o.core → leaseRipe s q = true → leaseBefore s q o = false) →
    ∃ u tm, leaseServe s o.id = some u ∧ u.mem = s.mem ∧ u.op? o.id = none ∧ u.team? o.tid = some tm ∧
      tm.leaseEnding = false ∧
      tm.lease = (match e with | some n => some (n, s.now + 1000 * us) | none => t.lease) ∧
      ∀ g, s.group? o.gid = some g → g.gid = o.gid → ∃ k, u.group? o.gid = some k ∧ ∀ j, j < 32 →
        (k.lane j).regs = (g.lane j).regs ∧ ((o.mask).getLsbD j = true → (k.lane j).pred pd.toNat = (pd == 0 || e.isSome))) ∧
  ∀ (s : State) (h : Here), Issues .lfree s h →
    ∃ t g, exec .lfree s = .next t ∧ t.mem = s.mem ∧ t.group? h.g.gid = some g ∧ SameRegs h.g g ∧ StandsOn h 1 g ∧
      (s.ops.any (fun o => o.tid == h.t.tid && match o.kind with | .copy c => c.bulk | _ => false) = false →
        ∃ tm, t.team? h.t.tid = some tm ∧ tm.lease = none)

/-! ### Graphs, events, beats and regions -/

/-- `LAUNCH`, `GDEC`, `GCOND` and `EVENT` (R361 to R363, R407) join Crozier's queue of the core; of them `GDEC` asks at
once for one addition of the negated amounts for each count word. Crozier serves the first of the queue once the group's
earlier accesses are performed: `LAUNCH` creates an instance for each active fibre in ascending order, whose address it
gets, or p63; `GCOND` writes the condition beside the count and takes one from it; `EVENT` puts a record for the host
and completes with the put, or at once where there is no ring. -/
def Obligations.GraphInstructionsIssue : Prop :=
  let joins := fun (i : Instr) (s s1 : State) (h : Here) (dst : Option (Dst × Nat)) (preds : List (BitVec 6))
      (accs : List Access) =>
    ∃ t g o, exec i s = .next t ∧ SameElse s1 t h ∧ SameTables (s.coreOf h.c.core) (t.coreOf h.c.core) ∧
      Starts i h s t o ∧ o.kind = .graph i ∧ o.dst = dst ∧ o.preds = preds ∧ o.lanes = h.act ∧ o.accs = accs ∧
      o.flags = setFlags h.hdr ∧ t.reqs = s1.reqs ∧ t.group? h.g.gid = some g ∧ SameRegs h.g g ∧ StandsOn h i.words g ∧
      FlagsRise h.g g (setFlags h.hdr)
  -- Crozier's turn for operation `o`
  let turn := fun (s : State) (o : Op) (sc : Scope) => s.op? o.id = some o ∧ crozFrozen s (dieOf o.core) = false ∧
    graphFirst s o.core o.id = true ∧ performedAt s o.gid o.id sc = true
  (∀ (d : Dst) (tmpl arg : Src) (s s1 : State) (h : Here) (ins : List LaneIn) (ts : List (Nat × Nat × Trans)),
    let i : Instr := .launch d tmpl arg
    Issues i s h → Reads i s h ins s1 →
    AccessOk s1 h .global 4 .atomic true (ins.map fun x => (x.lane, (x.s 0).toNat)) ts →
    joins i s s1 h (some (d, 2)) [63] (ins.map fun x => { lane := x.lane, va := x.s 0, op := x.s 1 })) ∧
  (∀ (d : Dst) (tmpl arg : Src) (s s2 : State) (o : Op) (t : Team) (made : List (Nat × Option Nat)),
    turn s o .device → o.kind = .graph (.launch d tmpl arg) → o.dst = some (d, 2) → s.team? o.tid = some t →
    (∀ a ∈ o.accs, ∀ p, arenaOf s o.asid a.va.toNat = some p → crozFrozen s p.1 = false) →
    (o.accs.map (·.lane)).Nodup → launchAll t o.accs [] s = .done made none s2 →
    ∃ u, graphServe s o.id = some u ∧ u.mem = s2.mem ∧ u.notices = s2.notices ∧ u.crozs = s2.crozs ∧
      u.op? o.id = none ∧ made.map (·.1) = o.accs.map (·.lane) ∧
      ∀ g, s2.group? o.gid = some g → ∃ k, u.group? o.gid = some k ∧
        ∀ j v, j < 32 → assoc made j = some v → (k.lane j).pred 63 = v.isNone ∧
          ∀ r : BitVec 6, d = .v r → r.toNat + 2 ≤ 64 → ∀ m, m < 64 → (k.lane j).reg m =
            match v with
            | some a => if r.toNat ≤ m ∧ m < r.toNat + 2 then wordAt (BitVec.ofNat 64 a) (m - r.toNat) else (g.lane j).reg m
            | none => (g.lane j).reg m) ∧
  -- the instance that a fibre's `LAUNCH` creates
  (∀ (s s1 s2 : State) (t : Team) (tmpl arg die k slot : Nat) (a : Arena) (hd nodes : List Byte),
    let n := rec32 hd 0
    let inst := dbits a.pool 0 56 + slot * (1024 * wbits a.own 0 8)
    let s3 := s2.updCroz die fun c => { c with arenas := vset c.arenas k { a with taken := a.taken ++ [slot] } }
    arenaOf s t.asid tmpl = some (die, k, a) → tmpl % 256 = 0 → headerOk hd = true →
    rangeMigrates s t.asid tmpl 256 = false → rangeStage2 s t.asid tmpl 256 false = none →
    rangeBad s t.asid tmpl 256 = (false, s1) → vread s1 t.asid tmpl 256 = some hd →
    256 + 384 * n ≤ 1024 * wbits a.own 0 8 → slot < wbits a.own 8 12 → slot ∉ a.taken → (∀ j, j < slot → j ∈ a.taken) →
    rangeMigrates s1 t.asid (tmpl + 256) (128 * n) = false → rangeMigrates s1 t.asid inst (256 + 384 * n) = false →
    rangeStage2 s1 t.asid (tmpl + 256) (128 * n) false = none → rangeStage2 s1 t.asid inst (256 + 384 * n) true = none →
    rangeBad s1 t.asid (tmpl + 256) (128 * n) = (false, s2) → vread s2 t.asid (tmpl + 256) (128 * n) = some nodes →
    nodes.length = 128 * n →
    ∃ (b : List Byte) (u : State), createInstance s t tmpl arg = .done (some inst) none u ∧ b.length = 256 + 384 * n ∧
      -- the instance record
      rec32 b 0 = 0 ∧ rec32 b 4 = 0 ∧ rec64 b 8 = tmpl % 2 ^ 64 ∧ rec64 b 0x10 = arg % 2 ^ 64 ∧ rec32 b 0x18 = 0 ∧
      rec64 b 0x20 = rec64 hd 0x10 ∧ rec32 b 0x28 = rec32 hd 0x18 ∧ rec32 b 0x2C = rec32 hd 8 ∧ rec32 b 0x30 = n ∧
      rec32 b 0x34 = 1 ∧
      -- the node records, each with its index, and the barrier blocks
      (∀ i x, i < n → x < 128 → b.getD (256 + 128 * i + x) 0 =
        if 8 ≤ x ∧ x < 12 then BitVec.ofNat 8 (i / 256 ^ (x - 8)) else nodes.getD (128 * i + x) 0) ∧
      (∀ x, 256 + 128 * n ≤ x → b.getD x 0 = 0) ∧
      ((∀ i, i < n → rec32 nodes (128 * i) ≠ 0) → u = vwrite s3 t.asid inst b) ∧
      u.crozs = s3.crozs ∧
      u.notices = (vwrite s3 t.asid inst b).notices ++ (((List.range n).filter fun i => rec32 nodes (128 * i) = 0).map fun i =>
        { die := die, asid := t.asid, node := inst + 256 + 128 * i })) ∧
  (∀ (d : Dst) (node amount : Src) (s s1 : State) (h : Here) (ins : List LaneIn) (ts : List (Nat × Nat × Trans)),
    let i : Instr := .gdec d node amount
    let accs := accsOf ts (fun j => (((ins.find? fun x => x.lane = j).map fun x => (-(x.w 1) : Word).setWidth 64)).getD 0)
      fun _ => 0
    Issues i s h → Reads i s h ins s1 →
    AccessOk s1 h .global 4 .atomic true (ins.map fun x => (x.lane, (x.s 0).toNat)) ts → otRoom s1 h.c.core accs = true →
    ∃ t g o, exec i s = .next t ∧ SameElse s1 t h ∧ Starts i h s t o ∧ o.kind = .graph i ∧ o.dst = some (d, 1) ∧
      o.preds = [63] ∧ o.lanes = h.act ∧ t.group? h.g.gid = some g ∧ SameRegs h.g g ∧ StandsOn h i.words g ∧
      FlagsRise h.g g (setFlags h.hdr) ∧
      ∃ new, t.reqs = s.reqs ++ new ∧ (new.map fun r => r.va) = (accs.map fun x => x.va).eraseDups ∧
        ∀ r ∈ new, r.fn = .add ∧ r.w64 = false ∧ r.op = (accs.filter fun x => x.va == r.va).foldl (fun n x => n + x.op) 0) ∧
  (∀ (node value : Src) (s s1 : State) (h : Here) (ins : List LaneIn) (x : LaneIn) (ts : List (Nat × Nat × Trans)),
    let i : Instr := .gcond node value
    Issues i s h → Reads i s h ins s1 → ins.head? = some x →
    AccessOk s1 h .global 4 .atomic false [(x.lane, (x.s 0).toNat)] ts →
    joins i s s1 h none [] [{ lane := x.lane, va := x.s 0, op := (x.w 1).zx }]) ∧
  (∀ (node value : Src) (s s1 : State) (o : Op) (a : Access) (tr : Trans),
    let va := a.va.toNat
    turn s o .device → o.kind = .graph (.gcond node value) → o.accs.head? = some a →
    xlateNow s o.asid va .atomic o.user a.lane = some (.ok tr) → lineMoving s tr = false →
    copAt s o.core o.asid va tr.key 36 = false → badSector (s.accessed o.asid va) tr.key = (false, s1) →
    ∃ u, graphServe s o.id = some u ∧ u.op? o.id = none ∧
      u.mem = (atomHome (vwrite s1 o.asid (va + 0x20) (leBytes 4 a.op.lo.toNat)) o.asid va tr .add false 0xFFFFFFFF 0
        [0xFFFFFFFF] s1.serial).2.mem) ∧
  (∀ (code : BitVec 16) (a : Src) (s s1 : State) (h : Here) (ins : List LaneIn) (x : LaneIn),
    let i : Instr := .event code a
    Issues i s h → Reads i s h ins s1 → ins.head? = some x → joins i s s1 h none [] [{ op := x.s 0 }]) ∧
  ∀ (code : BitVec 16) (src : Src) (s : State) (o : Op) (a : Access) (t : Team),
    let idx := nodeIndex t.launch.inst t.launch.node
    let s2 := eventRecord s o.asid t.launch.inst idx code.toNat a.op
    turn s o .system → o.kind = .graph (.event code src) → o.accs.head? = some a → s.team? o.tid = some t →
    instReady s o.asid t.launch.inst = true →
    ∃ u, graphServe s o.id = some u ∧ u.mem = s2.mem ∧ u.host.puts = s2.host.puts ∧
      (s2.host.puts = s.host.puts → u.op? o.id = none) ∧
      ∀ p, s2.host.puts = s.host.puts ++ [p] → ∃ q, u.op? o.id = some q ∧ q.kind = .event p.id ∧ q.flags = o.flags ∧
        q.lanes = o.lanes

/-- `BEAT` (R375) adds the lowest active fibre's count, at most 65535, to the context's accumulator of the core, which
stops at its greatest value. Remote regions (R401, R402, R404, R405): `RBEGIN` opens one with a checkpoint of the
registers it names and its predicate clear; `RABORT` rolls open ones back, which restores the checkpoint, sets the
predicate and returns to the word after `RBEGIN`; `RCOMMIT` closes those with nothing buffered at once and holds the
fibres of the others. Fibres without a region go on past `RABORT` and `RCOMMIT`. -/
def Obligations.BeatsAndRegions : Prop :=
  (∀ (n : Src) (s s1 : State) (h : Here) (ins : List LaneIn) (x : LaneIn),
     let i : Instr := .beat n
     Issues i s h → Reads i s h ins s1 → ins.head? = some x →
     ∃ t g, exec i s = .next t ∧ SameElse s1 t h ∧ t.ops.length = s.ops.length ∧ t.group? h.g.gid = some g ∧
       SameRegs h.g g ∧ StandsOn h i.words g ∧ FlagsRise h.g g [] ∧
       assoc (t.coreOf h.c.core).beats h.t.asid =
         some (min (((assoc (s.coreOf h.c.core).beats h.t.asid).getD 0) + min (x.w 0).toNat 65535) (2 ^ 32 - 1)) ∧
       ∀ a, a ≠ h.t.asid → assoc (t.coreOf h.c.core).beats a = assoc (s.coreOf h.c.core).beats a) ∧
  ((∀ (pd f : BitVec 6) (n : BitVec 7) (s : State) (h : Here), Issues (.rbegin pd f n) s h →
     (∀ j, j < 32 → h.act.getLsbD j = true → (h.g.lane j).region = none) →
     ∃ t g, exec (.rbegin pd f n) s = .next t ∧ SameElse s t h ∧ t.ops.length = s.ops.length ∧
       t.group? h.g.gid = some g ∧ StandsOn h 1 g ∧ FlagsRise h.g g [] ∧ g.rgfail = h.g.rgfail ∧
       ∀ j, j < 32 → (g.lane j).regs = (h.g.lane j).regs ∧
         if h.act.getLsbD j = true then (g.lane j).pred pd.toNat = (pd == 0) ∧
           ∃ r, (g.lane j).region = some r ∧ r.resume = (h.g.lane j).pc + 4 ∧ r.pd = pd ∧ r.f = f ∧ r.buf = [] ∧
             r.ckpt = (List.range n.toNat).map fun k => (h.g.lane j).reg (f.toNat + k)
         else (g.lane j).region = (h.g.lane j).region) ∧
   (∀ (x : Fibre) (cause : Nat) (st : FStatus) (r : Region), x.region = some r → r.f.toNat + r.ckpt.length ≤ 64 →
     let y := x.rolledBack cause st
     y.region = none ∧ y.pc = r.resume ∧ y.pred r.pd.toNat = true ∧ y.status = st ∧ y.wait = none ∧
     ∀ m, m < 64 → y.reg m = if r.f.toNat ≤ m then (r.ckpt[m - r.f.toNat]?).getD (x.reg m) else x.reg m) ∧
   (∀ (s : State) (h : Here), Issues .rabort s h →
     ∃ t g, exec .rabort s = .next t ∧ t.mem = s.mem ∧ t.group? h.g.gid = some g ∧ ∀ j, j < 32 →
       h.c.pk.lanes.getLsbD j = true →
       match (h.g.lane j).region with
       | some r => h.act.getLsbD j = true → (g.lane j).region = none ∧ (g.lane j).pc = r.resume ∧
           (g.lane j).pred r.pd.toNat = true
       | none => (g.lane j).pc = (h.g.lane j).pc + 4 ∧ (g.lane j).regs = (h.g.lane j).regs) ∧
   ∀ (s : State) (h : Here), Issues .rcommit s h → performedAt s h.g.gid s.serial .system = true →
     s.op? s.serial = none →
     let opened := fun j => h.act.getLsbD j && (h.g.lane j).region.isSome
     ∃ t g, exec .rcommit s = .next t ∧ t.mem = s.mem ∧ t.group? h.g.gid = some g ∧ SameRegs h.g g ∧ StandsOn h 1 g ∧
       ((∀ j, j < 32 → opened j = true → ∃ r, (h.g.lane j).region = some r ∧ r.buf = []) →
         t.ops.length = s.ops.length ∧ ∀ j, j < 32 →
           (g.lane j).region = if opened j then none else (h.g.lane j).region) ∧
       ((∃ j r b, j < 32 ∧ opened j = true ∧ (h.g.lane j).region = some r ∧ r.buf.head? = some b ∧ b.performed = false) →
         ∃ o ∈ t.ops, o.id = s.serial ∧ o.kind = .commit 0 ∧ o.holds = true ∧ ∀ j, j < 32 → o.lanes.getLsbD j = opened j))

/-! ### Events of the memory system -/

/-- `STORE_PASS_COP` and `STORE_PERFORM` (R205, R206, R159): the head of a store queue passes as a whole; its global
stores join the core's pending set in order, each in pieces of at most 8 bytes (R168), and its scratchpad stores are
written; nothing is performed yet. A store of the current generation is performed at its home and leaves the pending
set, and the bytes it writes are exactly its own; one of an older generation is rejected and stays; one to a peer is
asked for there in its turn, and leaves with the peer's reply (R223). -/
def Obligations.StoresPassAndArePerformed : Prop :=
  (∀ (s : State) (gid : Nat) (g : Group) (e : SqEntry) (rest : List SqEntry), s.group? gid = some g →
    g.sq = e :: rest → g.entering = [] → enabledStorePassCop s gid = true →
    ∃ t k, exec (.storePassCop gid) s = .next t ∧ t.mem = s.mem ∧ t.ctxs = s.ctxs ∧ t.group? gid = some k ∧ k.sq = rest ∧
      ((∀ r ∈ e.stores, r.scratch = false) → t.teams.map (·.scratch) = s.teams.map (·.scratch) ∧
        ((t.coreOf g.core).cop.map fun c => (c.rec_, c.gid, c.rejected)) =
          ((s.coreOf g.core).cop.map fun c => (c.rec_, c.gid, c.rejected)) ++
            (e.stores.flatMap StoreRec.pieces).map fun r => (r, gid, false)) ∧
      ((∀ r ∈ e.stores, r.scratch = true) → (t.coreOf g.core).cop = (s.coreOf g.core).cop ∧
        ∀ tm, s.team? g.tid = some tm → ∃ tn, t.team? g.tid = some tn ∧
          tn.scratch = (e.stores.flatMap StoreRec.pieces).foldl (fun m r => Mem.write m r.va.toNat r.bytes) tm.scratch)) ∧
  ∀ (s : State) (core seq : Nat) (c : CopStore), (s.coreOf core).cop.find? (fun d => d.seq = seq) = some c →
    enabledStorePerform s core seq = true →
    ∃ t, exec (.storePerform core seq) s = .next t ∧ t.ctxs = s.ctxs ∧
      if c.rec_.tr.pa ≥ 2 ^ 64 then
        t.mem = s.mem ∧
        (c.sent = true → (t.coreOf core).cop = (s.coreOf core).cop.filter fun d => d.seq ≠ seq) ∧
        (c.sent = false → t.ops = s.ops ∧ t.groups = s.groups ∧
          (t.coreOf core).cop = ((s.coreOf core).cop.map fun d => if d.seq = seq then { d with sent := true } else d) ∧
          ∃ r ∈ t.fabric.out ++ t.fabric.ins, r.id = s.serial ∧ r.kind = .store c.rec_.bytes ∧ r.seq = some seq ∧
            r.off = c.rec_.va.toNat % 2 ^ 48)
      else if stale s c.asid c.rec_.tr = false then
        t.mem = Mem.write s.mem c.rec_.tr.key c.rec_.bytes ∧
        (t.coreOf core).cop = (s.coreOf core).cop.filter fun d => d.seq ≠ seq
      else t.mem = s.mem ∧ t.groups = s.groups ∧ t.ops = s.ops ∧ (t.coreOf core).cop = (s.coreOf core).cop.map fun d =>
        if d.seq = seq then { d with rejected := true } else d

/-- `LOAD_DATA_RETURN` (R207): the value comes from the group's own store when one holds it, else from the home, which an
L1 sector that holds it may stand for, or from the scratchpad. The lanes that this device serves take their values
together, when the last of them has come, which is the model's reading of R61 (DEDUCED, log 26): until then no register
changes; then the destination of each takes its value, widened as R172 says, no other register changes, and the lane's
load is over. -/
def Obligations.LoadsReturnTheirValue : Prop :=
  (∀ l : List Byte, l.length = 1 →
    loadValue .b8 false l = leNat l ∧ loadValue .b8 true l = ((BitVec.ofNat 8 (leNat l)).signExtend 32).toNat) ∧
  (∀ l : List Byte, l.length = 2 →
    loadValue .b16 false l = leNat l ∧ loadValue .b16 true l = ((BitVec.ofNat 16 (leNat l)).signExtend 32).toNat) ∧
  (∀ (sx : Bool) (l : List Byte), loadValue .b32 sx l = leNat l ∧ loadValue .b64 sx l = leNat l ∧
    loadValue .b128 sx l = leNat l) ∧
  ∀ (s : State) (id lane : Nat) (o : Op) (a : Access) (g : Group) (tm : Team) (size : Size) (sx : Bool) (r : BitVec 6)
    (n : Nat) (l : List Byte),
    let others := o.accs.filter fun b => b.lane != lane && o.lanes.getLsbD b.lane && decide (b.tr.pa < 2 ^ 64)
    s.op? id = some o → o.acc? lane = some a → (o.accs.filter fun b => b.tr.pa / 128 = a.tr.pa / 128) = [a] →
    loadReady s o a = true → (o.accs.map (·.lane)).Nodup → (∀ b ∈ o.accs, b.lane < 32) → a.tr.pa < 2 ^ 64 → s.group? o.gid = some g → s.team? g.tid = some tm → lane < 32 →
    o.dst = some (.v r, n) → r.toNat + n ≤ 64 →
    -- where the value comes from
    ((∃ pol acq, o.kind = .load size sx pol acq none) ∧ coreSource s g id false a (sizeBytes size) = .val l ∨
     (∃ pol acq, o.kind = .load size sx pol acq none) ∧ coreSource s g id false a (sizeBytes size) = .home ∧
       stale s o.asid a.tr = false ∧
       (∀ x, (s.coreOf o.core).sector? (a.tr.pa / 128) = some x →
         (x.bytes.drop (a.tr.pa % 128)).take (sizeBytes size) = Mem.read s.mem a.tr.key (sizeBytes size)) ∧
       s.bad.contains (a.tr.key / 128) = false ∧ l = Mem.read s.mem a.tr.key (sizeBytes size) ∨
     o.kind = .scratchLoad size sx ∧ coreSource s g id true a (sizeBytes size) = .val l ∨
     o.kind = .scratchLoad size sx ∧ coreSource s g id true a (sizeBytes size) = .home ∧
       l = Mem.read tm.scratch a.va.toNat (sizeBytes size)) →
    ∃ t k, exec (.loadDataReturn id lane) s = .next t ∧ t.mem = s.mem ∧ t.group? o.gid = some k ∧
      ((∃ b ∈ others, b.got = none) → SameRegs g k ∧ ∃ q b, t.op? id = some q ∧ q.lanes = o.lanes ∧
        q.acc? lane = some b ∧ b.got = some l) ∧
      ((∀ b ∈ others, b.got.isSome) →
        (∀ p, t.op? id = some p → p.lanes.getLsbD lane = false ∧ ∀ b ∈ others, p.lanes.getLsbD b.lane = false) ∧
        ∀ j m, j < 32 → m < 64 → (k.lane j).reg m =
          match if j = lane then some l else (others.find? fun b => b.lane == j).bind (·.got) with
          | some v => if r.toNat ≤ m ∧ m < r.toNat + n then
              BitVec.ofNat 32 (loadValue size sx v / 2 ^ (32 * (m - r.toNat))) else (g.lane j).reg m
          | none => (g.lane j).reg m)

/-- `ATOMIC_PERFORM` (R178, R180) writes the new value of its table at the word's home, in one step with the read of the
old one, which goes back in a reply; a request of an older generation is returned to its requesters (R159); one to a peer
leaves for it (R393). An addition to a count word of an arena also moves its node (R16), which is not of this form. -/
def Obligations.AtomicsArePerformed : Prop :=
  (∀ a b c : Word,
    let f := fun fn => (atomVal fn false (a.setWidth 64) (b.setWidth 64) (c.setWidth 64)).setWidth 32
    f .add = a + b ∧ f .min = (if a.toInt ≤ b.toInt then a else b) ∧ f .max = (if a.toInt ≤ b.toInt then b else a) ∧
    f .minn = (if a.toNat ≤ b.toNat then a else b) ∧ f .maxn = (if a.toNat ≤ b.toNat then b else a) ∧ f .and = a &&& b ∧
    f .or = a ||| b ∧ f .xor = a ^^^ b ∧ f .exch = b ∧ f .cas = (if a = c then b else a) ∧
    f .fadd = BitVec.ofNat 32 (fmt32.add .rne false a.toNat b.toNat).1 ∧
    (fmt32.Finite a.toNat → fmt32.Finite b.toNat → fmt32.value a.toNat + fmt32.value b.toNat ≠ 0 → ∃ fl,
      fmt32.Rounds .rne (fmt32.value a.toNat + fmt32.value b.toNat : ℚ) ((f .fadd).toNat, fl))) ∧
  (∀ a b c : Dword,
    let f := fun fn => atomVal fn true a b c
    f .add = a + b ∧ f .min = (if a.toInt ≤ b.toInt then a else b) ∧ f .max = (if a.toInt ≤ b.toInt then b else a) ∧
    f .minn = (if a.toNat ≤ b.toNat then a else b) ∧ f .maxn = (if a.toNat ≤ b.toNat then b else a) ∧ f .and = a &&& b ∧
    f .or = a ||| b ∧ f .xor = a ^^^ b ∧ f .exch = b ∧ f .cas = (if a = c then b else a) ∧
    f .kmax = (if a.toNat < b.toNat then b else a)) ∧
  ∀ (s : State) (id : Nat) (r : Req), s.req? id = some r → enabledAtomicPerform s id = true →
    (r.tr.pa ≥ 2 ^ 64 → ∃ t q, exec (.atomicPerform id) s = .next t ∧ t.mem = s.mem ∧ t.replies = s.replies ∧
      t.reqs = (s.reqs.filter fun q => q.id ≠ id) ∧ q ∈ t.fabric.out ++ t.fabric.ins ∧ q.id = s.serial ∧
      q.kind = .atom r.fn r.w64 r.op r.cmp ∧ q.tree = some r.tree ∧ q.off = r.va.toNat % 2 ^ 48) ∧
    (r.tr.pa < 2 ^ 64 → stale s r.asid r.tr = true → ∃ t, exec (.atomicPerform id) s = .next t ∧ t.mem = s.mem ∧ t.replies = s.replies ∧
      ∃ new, t.reqs = (s.reqs.filter fun q => q.id ≠ id) ++ new ∧ (new.map (·.tree)) = r.tree.parts.map .part ∧
        ∀ q ∈ new, q.rejected = true ∧ q.va = r.va ∧ q.fn = r.fn) ∧
    (r.tr.pa < 2 ^ 64 → stale s r.asid r.tr = false → s.bad.contains (r.tr.key / 128) = false → arenaDie s r.asid r.va.toNat = none →
      let old := s.wordAt r.tr.key r.w64
      ∃ t p, exec (.atomicPerform id) s = .next t ∧
        t.mem = Mem.write s.mem r.tr.key (leBytes (if r.w64 then 8 else 4) (atomVal r.fn r.w64 old r.op r.cmp).toNat) ∧
        t.reqs = (s.reqs.filter fun q => q.id ≠ id) ∧ t.replies = s.replies ++ [p] ∧ p.req = id ∧ p.old = old ∧
        p.tree = r.tree ∧ p.fault = none ∧ p.lost = false)

/-- `ROUTER_COMBINE` (R181, R183) joins two additions to one word that wait at one port, whose table has room, into one
of their sum, the first that came standing first; `REPLY_SPLIT` (R182, R184) gives the
first of two joined the old value and the second the value after the first; `ATOMIC_REPLY` (R179, R182) gives the lanes
of a packet the values they would have seen one after another, with p63 clear, or, when the old value was lost, sets
p63. -/
def Obligations.CombinedAtomicsActInOrder : Prop :=
  (∀ (s : State) (x y : Nat) (a b : Req), s.req? x = some a → s.req? y = some b → enabledRouterCombine s x y = true →
    ∃ t, exec (.routerCombine x y) s = .next t ∧ t.mem = s.mem ∧ t.ops = s.ops ∧ t.groups = s.groups ∧
      a.fn = .add ∧ b.fn = .add ∧ a.va = b.va ∧ a.port = b.port ∧ sorusUsed s a.port < 64 ∧
      (a.arrived < b.arrived ∨ a.arrived = b.arrived ∧ a.input ≤ b.input) ∧
      (∃ q, t.req? x = some q ∧ q.op = a.op + b.op ∧ q.tree = .join a.port a.tree b.tree ∧ q.va = a.va ∧ q.tr = a.tr ∧
        q.fn = .add ∧ q.w64 = a.w64 ∧ q.asid = a.asid) ∧ t.req? y = none ∧
      ∀ z, z ≠ x → z ≠ y → t.req? z = s.req? z) ∧
  (∀ (s : State) (id n : Nat) (p : Reply) (a b : ReqTree), s.reply? id = some p → p.tree = .join n a b →
    ∃ t q r, exec (.replySplit id) s = .next t ∧ t.mem = s.mem ∧ t.groups = s.groups ∧ t.ops = s.ops ∧
      t.replies = (s.replies.filter fun q => q.id ≠ id) ++ [q, r] ∧ q.id = id ∧ q.tree = a ∧ r.tree = b ∧ q.old = p.old ∧
      (p.w64 = true → r.old = p.old + a.sum) ∧
      (p.w64 = false → r.old.setWidth 32 = p.old.setWidth 32 + (a.sum.setWidth 32 : Word)) ∧ q.lost = r.lost ∧
      ((s.echoes.any fun e => e.req == p.req && decide (s.now < e.until_)) = true → q.lost = p.lost)) ∧
  (∀ (l : List (Nat × Dword)) (old : Dword) (k : Nat) (x : Nat × Dword),
    ((laneOlds true true old l)[k]? = some x → x.2 = (l.take k).foldl (fun n y => n + y.2) old) ∧
    ((laneOlds false true old l)[k]? = some x → x.2 = old)) ∧
  ∀ (s : State) (rep : Nat) (p : Reply) (q : ReqPart) (id : Nat) (l : List (Nat × Dword)) (o : Op) (g : Group)
    (fn : AtomFn) (ord : Sys2Proof.Order) (sc : Scope) (w64 : Bool) (r : BitVec 6),
    s.reply? rep = some p → p.tree = .part q → q.frm = .lanes id l → p.fault = none → s.op? id = some o →
    o.kind = .atom fn ord sc w64 → s.group? o.gid = some g → (l.map (·.1)).Nodup → (∀ x ∈ l, x.1 < 32) →
    o.dst = some (.v r, if w64 then 2 else 1) → r.toNat + (if w64 then 2 else 1) ≤ 64 →
    ∃ t k, exec (.atomicReply rep) s = .next t ∧ t.mem = s.mem ∧ t.group? o.gid = some k ∧ t.reply? rep = none ∧
      (∀ j m, j < 32 → m < 64 → (k.lane j).reg m =
        match assoc (laneOlds (fn == .add) w64 p.old l) j with
        | some v => if p.lost = false ∧ r.toNat ≤ m ∧ m < r.toNat + (if w64 then 2 else 1)
            then wordAt v (m - r.toNat) else (g.lane j).reg m
        | none => (g.lane j).reg m) ∧
      (∀ x ∈ l, (k.lane x.1).pred 63 = p.lost) ∧
      ∀ y, t.op? id = some y → ∀ x ∈ l, y.lanes.getLsbD x.1 = false

/-- `FENCE_COMPLETE` (R191, R210), `PREF_FILL_COMPLETE` (R196), `CCTL_WB_COMPLETE` (R197) and `RED_ENTRY_DRAIN` (R187,
R188): the operation is over and its flags fall; an acquire fence at cluster scope or wider moves the group's epoch on; a
prefetch that reads its home fills the L1 where its policy lets it; a write-back leaves no sector of its lines dirty; a
drained reduction is performed at its word's home and leaves its buffer. -/
def Obligations.OperationsComplete : Prop :=
  let ends := fun (i : Instr) (s : State) (o : Op) (p : State → Prop) =>
    ∃ t, exec i s = .next t ∧ t.mem = s.mem ∧ t.teams.map (·.tid) = s.teams.map (·.tid) ∧ t.op? o.id = none ∧
      (∀ n, n ≠ o.id → t.op? n = s.op? n) ∧
      (∀ g, s.group? o.gid = some g → ∃ k, t.group? o.gid = some k ∧ SameRegs g k ∧
        ∀ n, n < 12 → k.flag n = (o.flags.foldl Group.decFlag g).flag n) ∧ p t
  (∀ (s : State) (id : Nat) (o : Op) (k : FenceKind) (sc : Scope), s.op? id = some o → o.kind = .fence k sc →
    enabledFenceComplete s id = true →
    ends (.fenceComplete id) s o fun t => ∀ g, s.group? o.gid = some g → k ≠ .rel → wideScope sc = true →
      ∃ g1, t.group? o.gid = some g1 ∧ g1.amark = (s.coreOf g.core).epoch + 1 ∧
        (t.coreOf g.core).epoch = (s.coreOf g.core).epoch + 1) ∧
  (∀ (s : State) (id : Nat) (o : Op), s.op? id = some o → enabledPrefFillComplete s id = true →
    ends (.prefFillComplete id) s o fun t => ∀ a pol l0 s1, o.accs = [a] → o.kind = .pref pol →
      readHome s o.asid a.tr o.core 1 pol = (.bytes l0, s1) →
      let base := a.tr.key / 128 * 128
      ((pol = .normal ∨ pol = .keep) → cacheable s1 a.tr o.core = true →
        ∃ l, (t.coreOf o.core).sector? (a.tr.pa / 128) = some l ∧
          l.bytes = overlay (s.coreOf o.core).cop a.tr.asid ((a.va.toNat / 256 * 256 + a.tr.pa % 256) % 2 ^ 56 / 128 * 128) base
            (Mem.read s.mem base 128) ∧ l.stamp = (s.coreOf o.core).epoch) ∧
      ((pol = .stream ∨ pol = .nol1) → (s.coreOf o.core).sector? (a.tr.pa / 128) = none →
        (t.coreOf o.core).sector? (a.tr.pa / 128) = none)) ∧
  (∀ (s : State) (id : Nat) (o : Op), s.op? id = some o → enabledCctlWbComplete s id = true →
    ends (.cctlWbComplete id) s o fun t => t.l2.length = s.l2.length ∧ ∀ (k : Nat) (l : L2Line), s.l2[k]? = some l →
      t.l2[k]? = some (if o.accs.any (fun a => a.tr.pa / 256 == l.line) then { l with dirty := 0 } else l)) ∧
  ∀ (s : State) (core : Nat) (e : RedEntry) (tm : Team) (tr : Trans), nextRed s core = some e → s.team? e.tid = some tm →
    isRemote e.va.toNat = false → enabledRedEntryDrain s core = true →
    xlateNow s tm.asid e.va.toNat .atomic (!e.privileged) = some (.ok tr) → s.bad.contains (tr.key / 128) = false →
    arenaDie s tm.asid e.va.toNat = none →
    let s1 := s.accessed tm.asid e.va.toNat
    ∃ t, exec (.redEntryDrain core) s = .next t ∧ (t.coreOf core).reds = (s.coreOf core).reds.erase e ∧
      t.mem = Mem.write s1.mem tr.key
        (leBytes (if e.w64 then 8 else 4) (atomVal e.fn e.w64 (s1.wordAt tr.key e.w64) e.value 0).toNat)

/-- `WAITC_TIMEOUT`, `WAITC_RETEST` (R193, R194) and `GRID_BARRIER_ARRIVE` (R87, R89): a fibre whose time is up goes on
with the word as it reads at its home and p63 set; one whose re-test holds goes on with p63 clear, and one whose re-test fails raises
the group's back-off level, at most to 7; a grid arrival counts its fibres in the entry of the barrier, whose phase moves
on with the last of them. -/
def Obligations.WaitingFibresGoOn : Prop :=
  let released := fun (i : Instr) (s : State) (gid lane : Nat) (o : Op) (a : Access) (g : Group) (w64 late : Bool) =>
    ∃ t k, exec i s = .next t ∧ t.mem = s.mem ∧ t.group? gid = some k ∧ (k.lane lane).wait = none ∧
      (k.lane lane).pred 63 = late ∧ k.backoff = 0 ∧ (∀ p, t.op? o.id = some p → p.lanes.getLsbD lane = false) ∧
      ∀ r n, o.dst = some (.v r, n) → r.toNat + n ≤ 64 → ∀ j m, j < 32 → m < 64 → (k.lane j).reg m =
        if j = lane ∧ r.toNat ≤ m ∧ m < r.toNat + n then wordAt (s.wordAt a.tr.key w64) (m - r.toNat) else (g.lane j).reg m
  (∀ (s : State) (gid lane : Nat) (o : Op) (a : Access) (g : Group) (cc : WaitCc) (sc : Scope) (w64 : Bool),
    s.group? gid = some g → lane < 32 → waitOf s gid lane = some (o, a) → o.gid = gid → o.kind = .waitc cc sc w64 →
    stale s o.asid a.tr = false → s.bad.contains (a.tr.key / 128) = false →
    (enabledWaitcTimeout s gid lane = true → released (.waitcTimeout gid lane) s gid lane o a g w64 true) ∧
    (enabledWaitcRetest s gid lane = true →
      (waitcHolds cc w64 (s.wordAt a.tr.key w64) a.op = true →
        released (.waitcRetest gid lane) s gid lane o a g w64 false) ∧
      (waitcHolds cc w64 (s.wordAt a.tr.key w64) a.op = false →
        ∃ t k, exec (.waitcRetest gid lane) s = .next t ∧ t.mem = s.mem ∧ t.ops = s.ops ∧ t.group? gid = some k ∧
          k.lanes = g.lanes ∧ k.backoff.toNat = min 7 (g.backoff.toNat + 1)))) ∧
  ∀ (s : State) (id : Nat) (o : Op) (b : BitVec 4) (wait : Bool) (n : Nat) (a : Access) (rest : List Access) (tr : Trans),
    s.op? id = some o → o.kind = .barGrid b wait n → o.accs = a :: rest → enabledGridBarrierArrive s id = true →
    xlateNow s o.asid a.va.toNat .atomic false = some (.ok tr) → s.bad.contains (tr.key / 128) = false →
    let s1 := s.accessed o.asid a.va.toNat
    (barRead s1 tr.key).c = 0 ∨ n = (barRead s1 tr.key).expected →
    ∃ t, exec (.gridBarrierArrive id) s = .next t ∧ t.op? id = none ∧
      t.mem = Mem.write s1.mem tr.key (barBytes (arrivals n (lanesOf o.lanes) (barRead s1 tr.key)).1)

/-- `DEFERRED_FAULT` and `GENERATION_RETRY` (R159, R227): a fibre takes the oldest fault of an earlier instruction at its
packet boundary, with the address and information that it found, and resumes where that fault says; a load that was
returned for its generation takes its new translation, and the walk marks the leaves it used as accessed. -/
def Obligations.DeferredFaultsAndRetries : Prop :=
  (∀ (s : State) (gid lane : Nat) (g : Group) (tm : Team) (f : FaultRec) (rest : List FaultRec), s.group? gid = some g →
    s.team? g.tid = some tm → lane < 32 → enabledDeferredFault s gid lane = true → (g.lane lane).defer = f :: rest →
    tm.tvec ≠ 0 → (∀ j, j < 32 → (g.lane j).estatus.getLsbD 15 = false) →
    ∃ t k, exec (.deferredFault gid lane) s = .next t ∧ t.mem = s.mem ∧ t.ops = s.ops ∧ t.group? gid = some k ∧
      SameRegs g k ∧
      let x := g.lane lane
      let y := k.lane lane
      let r := f.resume.getD (x.pc, x.rem, x.clause)
      y.defer = rest ∧ y.ecause = f.cause.setWidth 32 ∧ y.eaddr = f.addr ∧ y.einfo = f.info ∧ y.epc = r.1.setWidth 64 ∧
      y.eclause = r.2.2 ∧ y.estatus.getLsbD 15 = true ∧ y.estatus.getLsbD 14 = x.mode ∧ y.mode = true ∧
      y.pc = tm.tvec.setWidth 56 ∧ y.rem = 0) ∧
  ∀ (s : State) (core id : Nat) (o : Op) (a : Access) (w : WalkRes) (tr : Trans) (size : Size) (sx : Bool) (pol : Policy)
    (acq : Option Scope) (poll : Option Bool),
    s.op? id = some o → o.kind = .load size sx pol acq poll → o.accs = [a] → a.rejected = true →
    (∀ c ∈ (s.coreOf core).cop, c.rejected = false) → (∀ r ∈ s.reqs, r.rejected = false) →
    enabledGenerationRetry s core id = true → walk s o.asid a.va.toNat = .ok w →
    xlateNow s o.asid a.va.toNat .load (o.users.getLsbD a.lane) a.lane true = some (.ok tr) →
    ∃ t q, exec (.generationRetry core id) s = .next t ∧ t.mem = (s.setAccessed w.leaves).mem ∧
      t.groups = (s.setAccessed w.leaves).groups ∧ t.op? id = some q ∧ q.accs = [{ a with rejected := false, tr := tr }] ∧ q.kind = o.kind ∧ q.lanes = o.lanes

/-- `SCHEDULER_VOTE` (R62 to R64): of the groups with ready paths, the one of the best service class is chosen, of one
class the oldest placed, of those the lowest slot. Of its ready paths the one of the lowest PC goes to port 1, and to port 2
the one of the next PC, or in its place the path of the greatest skip count that has reached P − 1; two paths of class M
do not go together, and then the path of the lowest PC, or the override, goes alone. Packets started in the middle of
their clauses are here followed to their ports. -/
def Obligations.VotesChooseByClassAgeSlot : Prop :=
  (∀ (s : State) (l : List (Group × Team × List Path)) (b : Group × Team × List Path), chosen s l = some b →
    b ∈ l ∧ ∀ a ∈ l,
      let x := a.1.sclass s
      let y := b.1.sclass s
      ¬ (x < y ∨ (x = y ∧ (a.1.age < b.1.age ∨ (a.1.age = b.1.age ∧ a.1.slot < b.1.slot))))) ∧
  (∀ (s : State) (g : Group) (t : Team) (l : List Path) (p q : Path), pair s g t l = (some p, some q) →
    p ∈ l ∧ q ∈ l ∧ ¬ (p.cls s g t = some .M ∧ q.cls s g t = some .M)) ∧
  (∀ (s : State) (g : Group) (t : Team) (m : BitVec 32) (p q : Path) (r : List Path), g.ready s t m = p :: q :: r →
    (∀ x ∈ q :: r, p.pc.toNat ≤ x.pc.toNat) ∧ (∀ x ∈ r, q.pc.toNat ≤ x.pc.toNat) ∧
    ((∀ x ∈ q :: r, x.skip g + 1 < g.pcCount) → pair s g t (p :: q :: r) =
      if p.cls s g t = some .M ∧ q.cls s g t = some .M then (some p, none) else (some p, some q)) ∧
    ((∃ x ∈ q :: r, g.pcCount ≤ x.skip g + 1) → ∃ o ∈ q :: r, g.pcCount ≤ o.skip g + 1 ∧
      (∀ x ∈ q :: r, x.skip g ≤ o.skip g ∧ (x.skip g = o.skip g → o.pc.toNat ≤ x.pc.toNat)) ∧
      pair s g t (p :: q :: r) =
        if p.cls s g t = some .M ∧ o.cls s g t = some .M then (some o, none) else (some p, some o))) ∧
  ∀ (s : State) (core sched : Nat) (g : Group) (t : Team) (l : List Path) (p : Path) (q : Option Path),
    let s0 : State := { s with groups := s.groups.map fun g => if g.core = core ∧ g.sched = sched then g.settle else g }
    let sc := vget (s.coreOf core).scheds sched {}
    enabledSchedulerVote s core sched = true → sc.port1 = none → sc.port2 = none → stepPacket s0 core sched = none →
    droopOpen s0 core = true → chosen s0 (ballots s0 core sched) = some (g, t, l) → pair s0 g t l = (some p, q) →
    s0.group? g.gid = some g → p.rem ≠ 0 → (∀ x, q = some x → x.rem ≠ 0 ∧ x.lanes ≠ 0 ∧ ∀ j, x.lanes.getLsbD j = true →
      (g.lane j).status = .running ∧ (g.lane j).wait = none) → t.lostNow = false →
    ∃ u, exec (.schedulerVote core sched) s = .next u ∧ u.mem = s.mem ∧ u.teams = s.teams ∧ u.ops = s.ops ∧
      vget (u.coreOf core).scheds sched {} = { phase := 1, port1 := some { gid := g.gid, lanes := p.lanes },
                                               port2 := q.map fun x => { gid := g.gid, lanes := x.lanes } }

/-- Walks, generations, invalidations, the core-pinned window and line moves (R155 to R164): a walk that ends installs
its translation and marks its leaves, or keeps its failure; one that meets a migrating leaf reads it again 1 µs later; a
bump becomes current everywhere at once; an invalidation drops exactly the TLB entries it names, and stage 2's waits for
the walks before it; a line that moved is held, with its sectors, by the cluster that touched it. -/
def Obligations.TranslationsChange : Prop :=
  (∀ (s : State) (core id : Nat) (w : Walk), (s.coreOf core).walk? id = some w → w.stale = false →
    (enabledWalkComplete s core id = true →
      (∀ r, walk s w.asid w.va = .ok r → ∃ t e, exec (.walkComplete core id) s = .next t ∧
        t.mem = (s.setAccessed r.leaves).mem ∧ t.groups = (s.setAccessed r.leaves).groups ∧
        (t.coreOf core).walk? id = none ∧ e ∈ (t.coreOf core).tlb ∧ (t.coreOf core).tlb.length ≤ 512 ∧
        (∀ x ∈ (t.coreOf core).tlb, x = e ∨ x ∈ (s.coreOf core).tlb) ∧
        ((s.coreOf core).tlb.length < 512 → ∀ x ∈ (s.coreOf core).tlb, x ∈ (t.coreOf core).tlb) ∧ e.asid = w.asid ∧ e.page = r.page ∧ e.big = r.big ∧
        e.tr.gen = (s.ctxOf w.asid).gen ∧ e.tr.home = r.tr.home ∧ (e.tr.r, e.tr.w, e.tr.x, e.tr.u) =
          (r.tr.r, r.tr.w, r.tr.x, r.tr.u)) ∧
      ∀ lv s2 cause gpa, walk s w.asid w.va = .error (.bad lv s2 cause gpa) → ∃ t,
        exec (.walkComplete core id) s = .next t ∧ t.mem = s.mem ∧ t.groups = s.groups ∧
        (t.coreOf core).tlb = (s.coreOf core).tlb ∧ (t.coreOf core).fails = (s.coreOf core).fails ++
          [{ asid := w.asid, page := w.va / 2 ^ 16, level := lv, s2 := s2, cause := cause, gpa := gpa }]) ∧
    (enabledWalkMigrateReread s core id = true → ∃ t v, exec (.walkMigrateReread core id) s = .next t ∧ t.mem = s.mem ∧
      (t.coreOf core).walk? id = some v ∧ v.reread = if migrates s w then some (s.now + 1000) else none)) ∧
  (∀ (s : State) (asid : Nat),
    (s.inputs.head? = some (.xlgenBump asid) → ∃ t, exec (.xlgenBump asid) s = .next t ∧ t.inputs = s.inputs.drop 1 ∧
      (t.ctxOf asid).bump = true ∧ (t.ctxOf asid).gen = (s.ctxOf asid).gen ∧ ∀ b, b ≠ asid → t.ctxOf b = s.ctxOf b) ∧
    ((s.ctxOf asid).bump = true → ∃ t, exec (.xlgenBumpDone asid) s = .next t ∧ t.mem = s.mem ∧
      (t.ctxOf asid).gen = (s.ctxOf asid).gen + 1 ∧ (t.ctxOf asid).bump = false ∧ (∀ b, b ≠ asid → t.ctxOf b = s.ctxOf b) ∧
      ((s.ctxOf asid).gen = 0xFFFF → ∀ c, ∀ e ∈ (t.coreOf c).tlb, e.asid ≠ asid)) ∧
    ((s.ctxOf asid).inv = true → staleWalks s asid = false → ∃ t, exec (.xlinvStage2Done asid) s = .next t ∧
      t.mem = s.mem ∧ (t.ctxOf asid).inv = false) ∧
    (s.inputs.head? = some (.xlinvStage2 asid) → (s.ctxOf asid).inv = false → ∃ t,
      exec (.xlinvStage2 asid) s = .next t ∧ t.mem = s.mem ∧ (t.ctxOf asid).inv = true ∧
      (∀ c, (∀ e ∈ (t.coreOf c).tlb, e.asid ≠ asid) ∧ ∀ w ∈ (t.coreOf c).walks, w.asid = asid → w.stale = true) ∧
      ∀ p ∈ t.stlb, p.2.asid ≠ asid)) ∧
  (∀ (s : State) (i : Instr) (gone : TlbEntry → Prop), s.inputs.head? = some i →
    ((∃ asid page, i = .xlinvPage asid page ∧ ∀ e, gone e ↔ e.hit asid (page * 65536) = true) ∨
     (∃ asid, i = .xlinvAsid asid ∧ ∀ e, gone e ↔ e.asid = asid) ∨ (i = .xlinvAll ∧ ∀ e, gone e ↔ True)) →
    ∃ t, exec i s = .next t ∧ t.inputs = s.inputs.drop 1 ∧ t.mem = s.mem ∧ t.ctxs = s.ctxs ∧ t.groups = s.groups ∧
      ∀ c e, (e ∈ (t.coreOf c).tlb ↔ e ∈ (s.coreOf c).tlb ∧ ¬ gone e) ∧
        ∀ d, ((d, e) ∈ t.stlb ↔ (d, e) ∈ s.stlb ∧ ¬ gone e)) ∧
  (∀ (s : State) (core : Nat) (win winb : Dword), s.inputs.head? = some (.cpwinWrite core win winb) →
    cpwinWaits s core win winb = false → ∃ t, exec (.cpwinWrite core win winb) s = .next t ∧ t.inputs = s.inputs.drop 1 ∧
      (t.coreOf core).cpwin.extractLsb' 16 40 = win.extractLsb' 16 40 ∧
      ((t.coreOf core).cpwin.extractLsb' 0 2).toNat = min 2 (win.extractLsb' 0 2).toNat ∧
      (t.coreOf core).cpwinb.extractLsb' 16 40 = winb.extractLsb' 16 40 ∧
      (win.extractLsb' 0 2 = 0 → (s.coreOf core).pins = [] → t.mem = s.mem) ∧
      -- a page that leaves is written back, one that enters is loaded
      (∀ p f, Mem.wf s.mem = true → win.extractLsb' 0 2 = 0 → (s.coreOf core).pins = [(p, some f)] → f + 65536 ≤ 2 ^ 52 →
        ∀ x, x < 65536 → Mem.get t.mem (f + x) = Mem.get s.mem (2 ^ 52 * (1 + core) + f + x)) ∧
      ∀ asid f, Mem.wf s.mem = true → win.extractLsb' 0 2 = 1 → (s.coreOf core).pins = [] →
        pinFrame s core (win.extractLsb' 16 40).toNat = some (asid, f) → f + 65536 ≤ 2 ^ 52 →
        (∀ r, walk s asid ((win.extractLsb' 16 40).toNat * 65536) = .ok r → ∀ l ∈ r.leaves, l < 2 ^ 52) →
        ∀ x, x < 65536 → Mem.get t.mem (2 ^ 52 * (1 + core) + f + x) = Mem.get s.mem (f + x)) ∧
  ∀ (s : State) (line : Nat) (m : Touch), enabledLineMigrateDone s line = true →
    s.touches.find? (fun l => l.line = line && l.moving) = some m →
    ∃ t, exec (.lineMigrateDone line) s = .next t ∧ t.mem = s.mem ∧ t.groups = s.groups ∧
      (∀ l ∈ t.touches, l.line = line → l.moving = false ∧ l.count = 0 ∧ l.holder = m.cluster ∧
        m.cluster ≠ sliceHash (256 * line)) ∧
      (∀ l, l.line ≠ line → (l ∈ t.touches → l ∈ s.touches) ∧
        (l ∈ s.touches → l.holder = sliceHash (256 * l.line) → l ∈ t.touches)) ∧
      ∀ x, s.l2.find? (fun x => x.line = line && x.slice = m.holder) = some x → { x with slice := m.cluster } ∈ t.l2

/-- The engines' events (R218 to R221, R267, R275, R278 to R280, R282, R287): `COPY_START`, with which a multicast names
its members and locks their ranges; a sector of a started copy, read from global memory with what the core's pending
stores hold, or written there; `COPY_COMPLETE`, which after its data releases the ranges and writes the status word, or
the error register when there is none; `STAGE_WAIT_RELEASE`, which does what R282 says to the slot and writes p63 and the
offset; `LEASE_EXPIRY`; `STGCFG_WRITE` and `FMT_WRITE`. -/
def Obligations.CopiesStagesAndLeasesProceed : Prop :=
  (∀ (s : State) (id : Nat) (o : Op) (c : CopyReq) (t : Team), copyOf s id = some (o, c, t) →
    (enabledCopyStart s id = true → c.dir ≠ .mcast → ∃ u, exec (.copyStart id) s = .next u ∧
      u.mem = s.mem ∧ u.teams = s.teams ∧ u.groups = s.groups ∧ u.cores = s.cores ∧
      u.op? id = some { o with kind := .copy { c with started := true } }) ∧
    (enabledCopyStart s id = true → c.dir = .mcast → ∃ u, exec (.copyStart id) s = .next u ∧
      u.mem = s.mem ∧ u.teams = s.teams ∧ u.groups = s.groups ∧
      u.op? id = some { o with kind := .copy { c with
        started := true, targets := (mcastTargets s t c).1, skipped := (mcastTargets s t c).2 } } ∧
      (c.refused = true → u.cores = s.cores) ∧
      (c.refused = false → 0 < c.spBytes → ((mcastOthers s o (mcastTargets s t c).1).map (·.core)).Nodup →
        ∀ q ∈ mcastOthers s o (mcastTargets s t c).1, ∃ e ∈ (u.coreOf q.core).rlt, e.op = id ∧ e.dest = true ∧
          e.asid = none ∧ e.tid = q.tid ∧ e.lo = c.off ∧ e.hi = c.off + c.spBytes ∧ 56 ≤ e.entry)) ∧
    (∀ i va n tr, c.started = true → c.refused = false → c.fail = none → t.phase ≠ .saved →
      engineFrozen s o.core = false → c.pieces[c.pos]? = some (i, va, n) →
      let s1 := s.accessed o.asid (va % 2 ^ 56)
      let reads := fun (w : Bool) => xlateNow s o.asid (va % 2 ^ 56) (.engine w) o.user = some (.ok tr)
      lineMoving s tr = false →
      (c.dir ≠ .compress → reads false → s.bad.contains (tr.key / 128) = false →
        ∃ u, copySector s id = some u ∧ u.mem = s1.mem ∧ u.teams = s1.teams ∧ u.op? id = some { o with kind := .copy { c with
          pos := c.pos + 1
          got := joinLine c.got i (overlayAt (s.coreOf o.core).cop o.asid (va % 2 ^ 56) tr.key (Mem.read s1.mem tr.key n)) } }) ∧
      (c.dir = .compress → reads true → copAt s o.core o.asid (va % 2 ^ 56) tr.key n = false →
        ∃ u, copySector s id = some u ∧ u.op? id = some { o with kind := .copy { c with pos := c.pos + 1 } } ∧
          u.mem = Mem.write s1.mem tr.key (((lineOut t.scratch c i).drop (va - c.lineAt i)).take n))) ∧
    (enabledCopyComplete s id = true → c.refused = true → c.feeds = none → c.status = none →
      ∃ u m, exec (.copyComplete id) s = .next u ∧ u.mem = s.mem ∧ u.op? id = none ∧ u.team? o.tid = some m ∧
        m.cperr = errRecord t.cperr 1 ∧ m.scratch = t.scratch ∧ ∀ k, ∀ r ∈ (u.coreOf k).rlt, r.op ≠ id) ∧
    ∀ s1 t1 off, enabledCopyComplete s id = true → c.refused = false → c.feeds = none → c.stage = none →
      c.status = some off → copyData s o c t = .done () none s1 → s1.team? o.tid = some t1 → t1.phase ≠ .saved →
      ∃ u m, exec (.copyComplete id) s = .next u ∧ u.mem = s1.mem ∧ u.op? id = none ∧ u.team? o.tid = some m ∧
        m.scratch = Mem.write t1.scratch off (leBytes 4 (2 ^ 31 + c.skipped.toNat * 2 ^ 16)) ∧ m.cperr = t1.cperr ∧
        ∀ k, ∀ r ∈ (u.coreOf k).rlt, r.op ≠ id) ∧
  (∀ (s : State) (id : Nat) (o : Op) (i : Instr) (seq : Word) (t : Team) (g : Group) (p : Bool) (d : Option Nat)
    (st : Stage), s.op? id = some o → o.kind = .stageWait i seq → s.team? o.tid = some t → s.group? o.gid = some g →
    enabledStageWaitRelease s id = true → stageAct i (vget t.stages (stageNum i) {}) seq = some (p, d, st) →
    ∃ u k m, exec (.stageWaitRelease id) s = .next u ∧ u.mem = s.mem ∧ u.op? id = none ∧ u.group? o.gid = some k ∧
      u.team? o.tid = some m ∧ vget m.stages (stageNum i) {} = st ∧
      (∀ n, n < 8 → n ≠ stageNum i → vget m.stages n {} = vget t.stages n {}) ∧ m.scratch = t.scratch ∧
      ∀ j, j < 32 → (o.mask.getLsbD j = true → (k.lane j).pred 63 = p) ∧
        ∀ (r : BitVec 6), o.dst = some (.v r, 1) → ∀ n, n < 64 → (k.lane j).reg n =
          match d with
          | some v => if o.mask.getLsbD j ∧ n = r.toNat then BitVec.ofNat 32 v else (g.lane j).reg n
          | none => (g.lane j).reg n) ∧
  (∀ (s : State) (tid : Nat) (t : Team), s.team? tid = some t → enabledLeaseExpiry s tid = true →
    ∃ u m, exec (.leaseExpiry tid) s = .next u ∧ u.mem = s.mem ∧ u.groups.length = s.groups.length ∧ u.team? tid = some m ∧
      if s.ops.any (fun o => o.tid == tid && match o.kind with | .copy c => c.bulk | _ => false)
      then m.lease = t.lease ∧ m.leaseEnding = true else m.lease = none ∧ m.leaseEnding = false) ∧
  ∀ (s : State) (tid n : Nat) (v : Word) (t : Team), s.team? tid = some t → n < 8 →
    (s.inputs.head? = some (.stgcfgWrite tid n v) →
      let depth := (v.extractLsb' 27 4).toNat + 1
      let size := (v.extractLsb' 17 10).toNat
      let fits := size ≠ 0 ∧ 256 * ((v.extractLsb' 7 10).toNat + depth * size) ≤ t.scrSize
      ∃ u m, exec (.stgcfgWrite tid n v) s = .next u ∧ u.inputs = s.inputs.drop 1 ∧ u.mem = s.mem ∧ u.groups = s.groups ∧
        u.team? tid = some m ∧ (vget m.stages n {}).cfg = (if fits then v else v &&& 0x7FFFFFFF) &&& 0xFFFFFF80 ∧
        (∀ k, k < depth → (vget m.stages n {}).slot k = { n := BitVec.ofNat 32 k, full := false }) ∧
        ∀ k, k < 8 → k ≠ n → vget m.stages k {} = vget t.stages k {}) ∧
    (s.inputs.head? = some (.fmtWrite tid n v) →
      ∃ u m, exec (.fmtWrite tid n v) s = .next u ∧ u.inputs = s.inputs.drop 1 ∧ u.mem = s.mem ∧ u.groups = s.groups ∧
        u.team? tid = some m ∧ vget m.fm n 0 = fmStored v ∧ ∀ k, k < 8 → k ≠ n → vget m.fm k 0 = vget t.fm k 0)

/-- The matrix engine's events (R301, R302, R307, R314 to R316, R318): `MATRIX_OP_START`; a K-step of a running multiply;
`MATRIX_OP_COMPLETE`, after which the team has what the operation's effect left, a zeroed sub-tile reads zero, a loaded
one holds its image, and a raised copy that failed is recorded instead; `BATCH_TIMEOUT` forms a batch of the oldest rows,
whose rows run one after another, each computed and then written sector by sector, `BATCH_COMPLETE` counts it, and `BQCTL_ENABLE` and `BQCTL_DISABLE` open and close the
queue. -/
def Obligations.MatrixEngineProceeds : Prop :=
  (∀ (s : State) (id : Nat) (o : Op), s.op? id = some o → enabledMatrixOpStart s id = true →
    ∃ u p, exec (.matrixOpStart id) s = .next u ∧ u.mem = s.mem ∧ u.teams = s.teams ∧ u.groups = s.groups ∧
      u.cores = s.cores ∧ u.op? id = some p ∧ (∀ q, o.kind = .matrix q → p.kind = .matrix { q with started := true }) ∧
      ∀ l b, o.kind = .batch l b → p.kind = .batch l true) ∧
  (∀ (s : State) (id : Nat) (o : Op) (q : MxReq) (t : Team), matrixOf s id = some (o, q, t) →
    (∀ d b z rows, multiplyOf t q = some (d, b, z, rows) → q.started = true → q.failed = none → t.phase = .running →
      engineFrozen s o.core = false → mxEarlier s o.core id = false → q.next < (MxShape.of q.shape).steps →
      ∃ u m, mxStep s id = some u ∧ u.mem = s.mem ∧ u.cores = s.cores ∧ u.groups = s.groups ∧
        u.op? id = some { o with kind := .matrix { q with next := q.next + 1 } } ∧ u.team? o.tid = some m ∧
        m = kStep (MxShape.of q.shape) d b z q.next t.scratch rows t) ∧
    (∀ c va, q.failed = some (c, va) → enabledMatrixOpComplete s id = true →
      ∃ u m, exec (.matrixOpComplete id) s = .next u ∧ u.op? id = none ∧ (∀ k, ∀ r ∈ (u.coreOf k).rlt, r.op ≠ id) ∧
        u.mem = s.mem ∧ u.team? o.tid = some m ∧ m.mxerr = errRecord t.mxerr c ∧ m.subs = t.subs ∧ m.scratch = t.scratch) ∧
    ∀ s1, q.failed = none → mxEffect s o q t = .done () none s1 → enabledMatrixOpComplete s id = true →
      ∃ u, exec (.matrixOpComplete id) s = .next u ∧ u.op? id = none ∧ (∀ k, ∀ r ∈ (u.coreOf k).rlt, r.op ≠ id) ∧
        u.mem = s1.mem ∧
        (u.teams.map fun t => (t.tid, t.subs, t.scratch, t.mxstat, t.mxerr)) =
          (s1.teams.map fun t => (t.tid, t.subs, t.scratch, t.mxstat, t.mxerr)) ∧
        (∀ d cv n1, q.instr = .mzero d cv n1 → ∃ m, u.team? o.tid = some m ∧ ∀ k e, k ≤ n1.toNat → e < 256 →
          ((m.sub (d.toNat + k))[e]?).getD 0 = 0) ∧
        ∀ d cv tr n1 a x, q.instr = .mload d cv tr n1 a → q.ops.head? = some x → ∃ m, u.team? o.tid = some m ∧
          ∀ k e, k ≤ n1.toNat → e < 256 → ((m.sub (d.toNat + k))[e]?).getD 0 =
            Mem.read32 t.scratch (x.toNat % 2 ^ 32 + 1024 * k + 4 * (if tr then e % 16 * 16 + e / 16 else e))) ∧
  (∀ (s : State) (core : Nat), enabledBatchTimeout s core = true →
    ∃ u o, exec (.batchTimeout core) s = .next u ∧ u.mem = s.mem ∧ u.teams = s.teams ∧
      (u.coreOf core).bqrows = (s.coreOf core).bqrows.drop 128 ∧ u.ops = s.ops ++ [o] ∧
      o.kind = .batch ((s.coreOf core).bqrows.take 128) false ∧ o.core = core) ∧
  (∀ (s s1 : State) (id : Nat) (o x : Op) (r : BqRow) (rest : List BqRow), s.op? id = some o →
    o.kind = .batch (r :: rest) true → engineFrozen s o.core = false → mxEarlier s o.core id = false →
    s.op? r.op = some x → r.op ≠ id →
    let left := fun (l : List Byte) => (sectorPieces r.res.toNat l.length).drop r.pos
    let written := fun (l : List Byte) (ps : List (Nat × Nat)) =>
      engWritePieces x.asid x.core x.user r.res.toNat l ps { s with tick := s.tick + l.length }
    -- its results are computed; then a sector of them is written; the last one ends the row
    (∀ l, r.out = none → runRow s o.core o.asid (s.coreOf o.core).bqblock x r = .done l none s1 →
      ∃ u p, batchStep s id = some u ∧ u.mem = s1.mem ∧ u.op? id = some p ∧
        p.kind = .batch ({ r with out := some l } :: rest) true) ∧
    (∀ l s2, r.out = some l → s.disturbed = [] → written l (left l) = .done () none s2 → 2 ≤ (left l).length →
      written l ((left l).take 1) = .done () none s1 →
      ∃ u p, batchStep s id = some u ∧ u.mem = s1.mem ∧ u.op? id = some p ∧
        p.kind = .batch ({ r with pos := r.pos + 1 } :: rest) true) ∧
    ∀ l, r.out = some l → s.disturbed = [] → written l (left l) = .done () none s1 → (left l).length ≤ 1 →
      ∃ u p, batchStep s id = some u ∧ u.mem = s1.mem ∧ u.op? id = some p ∧ p.kind = .batch rest true) ∧
  (∀ (s : State) (id : Nat) (o : Op), s.op? id = some o → o.kind = .batch [] true →
    enabledBatchComplete s id = true →
    ∃ u, exec (.batchComplete id) s = .next u ∧ u.op? id = none ∧
      (u.coreOf o.core).bqstat.toNat = ((s.coreOf o.core).bqstat.toNat + 1) % 2 ^ 16) ∧
  ∀ (s : State) (core asid : Nat) (v : Word), core % 8 = 0 →
    (∀ (l : List Byte) (s1 : State), s.inputs.head? = some (.bqctlEnable core asid v) →
      let plan := (s.coreOf core).bqplan.toNat % 2 ^ 56
      rangeMigrates s asid plan 16 = false →
      rangeBad { s with inputs := s.inputs.drop 1 } asid plan 16 = (false, s1) → vread s1 asid plan 16 = some l →
      planOk (BitVec.ofNat 128 (leNat l)) = true →
      ((s.teams.filter fun t => t.core = core && t.phase != .saved && t.phase != .ended).map (·.nsub)).sum +
        (if (s.coreOf core).bqOn then 0 else bqHolds s core) ≤ 56 →
      ∃ u, exec (.bqctlEnable core asid v) s = .next u ∧ u.inputs = s.inputs.drop 1 ∧ u.mem = s1.mem ∧ u.ops = s1.ops ∧
        (u.coreOf core).bqctl = 0x80000000 ||| (v &&& 0xFFF) ∧ (u.coreOf core).bqasid = asid ∧
        (u.coreOf core).bqblock = BitVec.ofNat 128 (leNat l)) ∧
    (s.inputs.head? = some (.bqctlDisable core v) →
      ∃ u, exec (.bqctlDisable core v) s = .next u ∧ u.inputs = s.inputs.drop 1 ∧ u.mem = s.mem ∧
        (u.coreOf core).bqctl = v &&& 0xFFF ∧ (u.coreOf core).bqrows = (s.coreOf core).bqrows.drop 128 ∧
        u.ops.length = s.ops.length + (if (s.coreOf core).bqrows = [] then 0 else 1))

/-! ### Events of Crozier -/

/-- Nodes move through Crozier (R17, R353 to R358, R364, R373, R407): a notice whose node is a well-formed grid puts it
last into the ready queue, of a kind that does not exist, or with a bit set that shall be zero, fails it with BAD_NODE,
and a record that cannot be read is told to the host; the oldest copy node takes the free bulk engine; a reported put
lets its `EVENT` go on; an arena that is switched off loses its queued nodes; a decision places teams with their identity
when nothing is to be tidied; a unit that stood at its head for too long blocks; a node that is done leaves Crozier, and
its instance counts one active node less. -/
def Obligations.NodesMoveThroughCrozier : Prop :=
  (∀ (s s1 : State) (die : Nat) (n : Notice), crozFrozen s die = false →
    s.notices.find? (fun n => n.die = die) = some n →
    readNode { s with notices := s.notices.erase n } n.asid n.node = .done none none s1 →
    exec (.readyNoticeReceive die) s = .next (deviceEvent s1 0xF7 (BitVec.ofNat 64 n.node))) ∧
  (∀ (s s1 s2 : State) (die : Nat) (n : Notice) (b : List Byte) (count : Word), crozFrozen s die = false →
    s.notices.find? (fun n => n.die = die) = some n →
    readNode { s with notices := s.notices.erase n } n.asid n.node = .done (some b) none s1 →
    (arenaDie s1 n.asid n.node).isSome = true → instReady s1 n.asid (nodeInst n.node b) = true →
    rangeStage2 s1 n.asid (nodeInst n.node b) 64 true = none →
    recordBad s1 n.asid (nodeInst n.node b) = (false, s2) → cancelled s2 n.asid (nodeInst n.node b) = false →
    vread32 s2 n.asid (nodeInst n.node b + 0x30) = some count →
    (nodeSuccs b ≤ 8 → nodeKind b = 0 → zerosOk b = true → (∀ k ∈ nodeUsed b, k < count.toNat) →
      clauseStart? s2 n.asid (rec64 b 0x20) = some true → gridBodyOk b = true →
      ∃ t r, exec (.readyNoticeReceive die) s = .next t ∧ t.mem = s2.mem ∧ t.notices = s2.notices ∧
        ((t.crozOf die).ready.map fun q => (q.node, q.asid, q.cls)) =
          ((s2.crozOf die).ready.map fun q => (q.node, q.asid, q.cls)) ++ [(r.node, r.asid, r.cls)] ∧
        (t.crozOf die).ready.getLast? = some r ∧ r.node = n.node ∧ r.asid = n.asid ∧ r.body = b ∧
        r.cls = max (s2.ctxOf n.asid).cls (nodeClass b)) ∧
    (5 < nodeKind b ∨ zerosOk b = false → exec (.readyNoticeReceive die) s =
      .next (failNode s2 n.asid (nodeInst n.node b) (recIndex b) 5))) ∧
  (∀ (s : State) (die node : Nat) (r : Running), runningOf s die node Running.waits = some r →
    runningOf s die node (fun q => q.asid == r.asid) = some r → enabledCopyNodeStart s die node = true →
    cancelled s r.asid r.inst = false →
    ∃ t, exec (.copyNodeStart die node) s = .next t ∧ t.mem = (s.accessed r.asid r.inst).mem ∧
      t.groups = (s.accessed r.asid r.inst).groups ∧
      runningOf t die node (fun q => q.asid == r.asid) = some { r with engine := freeEngine s die, cid := s.serial }) ∧
  (∀ (s : State) (p : Put) (rest : List Put), s.host.puts = p :: rest →
    ∃ t, exec .uePutComplete s = .next t ∧ t.mem = s.mem ∧ t.host = { s.host with puts := rest } ∧
      (∀ o ∈ t.ops, o.kind ≠ .event p.id) ∧ t.teams.map (·.tid) = s.teams.map (·.tid)) ∧
  (∀ (s : State) (die k : Nat), k < 16 → s.inputs.head? = some (.arenaDisable die k) →
    let a := vget (s.crozOf die).arenas k {}
    let inside := fun (asid va : Nat) => a.size.getLsbD 63 = true ∧ asid = (a.own.extractLsb' 20 12).toNat ∧
      (a.base.extractLsb' 0 56).toNat ≤ va ∧ va < (a.base.extractLsb' 0 56).toNat + (a.size.extractLsb' 0 44).toNat
    ∃ t, exec (.arenaDisable die k) s = .next t ∧ t.inputs = s.inputs.drop 1 ∧
      t.teams.map (·.tid) = s.teams.map (·.tid) ∧ t.groups.map (·.gid) = s.groups.map (·.gid) ∧
      (vget (t.crozOf die).arenas k {}).size = a.size &&& 0xFFFFFFFFFFF ∧
      (∀ r ∈ (t.crozOf die).ready, ¬ inside r.asid r.node) ∧
      ∀ n, n < 16 → n ≠ k → vget (t.crozOf die).arenas n {} = vget (s.crozOf die).arenas n {}) ∧
  (∀ (s : State) (die : Nat), enabledPlacementDecision s die = true →
    ∃ t, exec (.placementDecision die) s = .next t ∧ ∀ u, tidyQueues s die = none →
      placeFirst s die (List.range 4) = some u → t = u) ∧
  (∀ (s : State) (die at_ core k : Nat) (r : Running),
    let u := placeTeam die r at_ s (core, k)
    ∃ t, u.teams = s.teams ++ [t] ∧ t.tid = s.serial ∧ t.asid = r.asid ∧ t.core = core ∧ t.phase = .starting ∧
      t.teamNo = k ∧ t.gridId = r.gridId ∧ t.sclass = r.cls ∧ t.tvec = (s.ctxOf r.asid).tvec ∧ t.startAt = at_ ∧
      t.launch.entry = BitVec.ofNat 56 (rec64 r.body 0x20) ∧ t.launch.privileged = (s.ctxOf r.asid).privileged ∧
      u.mem = s.mem ∧ u.groups.length = s.groups.length + (gridWindows r.body).length ∧
      ∀ g ∈ u.groups, g ∈ s.groups ∨ g.tid = t.tid ∧ g.core = core ∧ ∀ j, j < 32 → (g.lane j).status = .empty) ∧
  (∀ (s : State) (die node : Nat), enabledNodeBlocking s die node = true →
    ∃ t, exec (.nodeBlocking die node) s = .next t ∧ t.mem = s.mem ∧ t.teams = s.teams ∧
      (t.crozOf die).ready = (s.crozOf die).ready.map fun r =>
        if r.node = node && headWaited s (s.crozOf die) r then { r with blocking := true } else r) ∧
  ∀ (s : State) (die node : Nat) (r : Running), runningOf s die node (fun q => (nodeOf s die q).isSome) = some r →
    crozFrozen s die = false → nodeUsed r.body = [] → r.kind = 0 ∧ r.failed = false ∨ r.kind = 5 →
    let s0 : State := if r.kind = 0 then
      { s with teams := s.teams.filter fun t => !(t.asid == r.asid && t.launch.node == node) } else s
    ∃ t, exec (.nodeComplete die node) s = .next t ∧ t = activeDown (dropRunning s0 die r) r.asid r.inst ∧
      runningOf t die node (fun q => q.asid == r.asid) = none ∧
      (r.kind = 0 → ∀ m ∈ t.teams, ¬ (m.asid = r.asid ∧ m.launch.node = node))

/-- Teams start, end, and are saved and resumed (R25, R60, R77, R82, R187, R222, R239, R240, R289, R365): at its start
every lane of the team's groups stands at the entry in the launch's mode, its registers 0, which is the model's choice
(R58 gives a starting fibre none, log 4); at its end its channels and
lease return and its reductions drain; at a yield point a drained team begins its save; a copy that a save abandons is
kept to start again, and frees its ranges; after the save the team's core is free of its groups and channels, which its
record keeps, and after a flush the team is gone; a resumed team is as its save area holds it, on its new core, and its
groups acquire together. -/
def Obligations.TeamsStartStopAndResume : Prop :=
  (∀ (s : State) (tid : Nat) (t : Team), s.team? tid = some t → enabledTeamStart s tid = true →
    ∃ u m, exec (.teamStart tid) s = .next u ∧ u.mem = s.mem ∧ u.team? tid = some m ∧ m.phase = .running ∧
      m.started = s.now ∧ m.core = t.core ∧ m.scratch = t.scratch ∧
      ∀ gid g, s.group? gid = some g → ∃ k, u.group? gid = some k ∧ if g.tid = tid then
        ∀ j, j < 32 → (k.lane j).status = .running ∧ (k.lane j).pc = t.launch.entry ∧ (k.lane j).rem = 0 ∧
          (k.lane j).mode = t.launch.privileged ∧ (k.lane j).preds = 1 ∧ (∀ n, n < 64 → (k.lane j).reg n = 0) ∧
          (k.lane j).sp = (g.lane j).stackHi.setWidth 56 ∧ (k.lane j).fp = (g.lane j).stackHi.setWidth 56 ∧
          (k.lane j).estatus = 0
      else k = g) ∧
  (∀ (s : State) (tid : Nat) (t : Team), s.team? tid = some t → enabledTeamEnd s tid = true →
    ∃ u m, exec (.teamEnd tid) s = .next u ∧ u.mem = s.mem ∧ (∀ o ∈ s.ops, o.tid ≠ tid → o ∈ u.ops) ∧
      (∀ o ∈ u.ops, o ∈ s.ops) ∧ u.team? tid = some m ∧ m.phase = .ended ∧
      m.lease = none ∧ (∀ c ∈ (u.coreOf t.core).chans, c.2.owner ≠ tid) ∧
      ∀ e ∈ (u.coreOf t.core).reds, e.tid = tid → e.draining = true) ∧
  (∀ (s : State) (tid : Nat) (t : Team), s.team? tid = some t → enabledYieldStop s tid = true →
    (∀ o ∈ s.ops, o.tid = tid → abandons s o = false) →
    ∃ u m, exec (.yieldStop tid) s = .next u ∧ u.mem = s.mem ∧ u.cores = s.cores ∧ (∀ o ∈ s.ops, o.tid ≠ tid → o ∈ u.ops) ∧
      (∀ o ∈ u.ops, o ∈ s.ops) ∧ u.team? tid = some m ∧ m.phase = .saving ∧ m.drain = false ∧ m.flushing = false ∧
      (s.ops.any (fun o => o.tid == tid && match o.kind with | .copy c => c.bulk | _ => false) = false → m.lease = none) ∧
      ∀ gid g, s.group? gid = some g →
        ∃ k, u.group? gid = some k ∧ SameRegs g k ∧ ∀ j, j < 32 → (k.lane j).pc = (g.lane j).pc ∧
          (k.lane j).wait = (g.lane j).wait) ∧
  (∀ (s : State) (o : Op) (c : CopyReq), s.op? o.id = some o → o.kind = .copy c →
    (abandonCopy s o).op? o.id = some o.kept ∧ ∀ k, ∀ r ∈ ((abandonCopy s o).coreOf k).rlt, r.op ≠ o.id) ∧
  (∀ (s : State) (tid : Nat) (t : Team), s.team? tid = some t → enabledTeamSaveComplete s tid = true →
    (t.flushing = false → ∃ u m, exec (.teamSaveComplete tid) s = .next u ∧ u.team? tid = some m ∧ m.phase = .saved ∧
      m.scratch = t.scratch ∧ m.subs = t.subs ∧ m.lease = none ∧ m.drain = false ∧
      m.parked.map (·.gid) = (s.teamGroups tid).map (·.gid) ∧ (∀ g ∈ u.groups, g.tid ≠ tid) ∧
      (s.monitors = [] → m.parked = s.teamGroups tid ∧ ∀ g ∈ u.groups, g ∈ s.groups) ∧
      (∀ c ∈ (u.coreOf t.core).chans, c.2.owner ≠ tid) ∧
      (∀ c ∈ (s.coreOf t.core).chans, c.2.owner = tid → c ∈ m.parkedChans) ∧
      (m.preempt.extractLsb' 0 16).toNat = min 65535 ((t.preempt.extractLsb' 0 16).toNat + 1)) ∧
    (t.flushing = true → ∃ u, exec (.teamSaveComplete tid) s = .next u ∧ u.mem = s.mem ∧ (∀ m ∈ u.teams, m.tid ≠ tid) ∧
      ∀ g ∈ u.groups, g.tid ≠ tid)) ∧
  (∀ (s : State) (tid : Nat) (t : Team) (u : State), s.team? tid = some t → enabledTeamResume s tid = true →
    nextResume s t.launch.die = some (tid, u) → exec (.teamResume tid) s = .next u) ∧
  ∀ (s s1 : State) (core : Nat) (t : Team), rangeBad s t.asid t.launch.saveBase (savedBytes s t) = (false, s1) →
    s1.team? t.tid = some t → (s1.groups.all fun g => g.tid ≠ t.tid) = true →
    let r := (restored s1 t).1
    (r.parked.map (·.gid)).Nodup → (∀ g ∈ r.parked, g.tid = t.tid ∧ s1.group? g.gid = none) →
    let u := resumeTeam s (core, t)
    u.mem = s1.mem ∧ (∀ c ∈ r.parkedChans, c ∈ (u.coreOf core).chans) ∧
    (∃ m, u.team? t.tid = some m ∧ m.core = core ∧ m.parked = [] ∧ m.scratch = r.scratch ∧ m.subs = r.subs ∧
      (m.phase = .running ∨ m.phase = .starting)) ∧
    ∀ g ∈ r.parked, ∃ k, u.group? g.gid = some k ∧ k.core = core ∧ SameRegs g k ∧ k.flags = g.flags ∧
      k.amark = (s1.coreOf core).epoch + 1 ∧
      ∀ j, j < 32 → (k.lane j).pc = (g.lane j).pc ∧ (k.lane j).status = (g.lane j).status ∧
        (k.lane j).wait = if (g.lane j).wait = some .atYield then none else (g.lane j).wait

/-! ### Events of the governor -/

/-- The governor's registers, boundaries and records (R332, R376 to R380, R382, R384, R386): what outside writes of its
registers keep; the law moves the active actuator by the truncated sum of its gains, inside its bounds, holds the integral at a
bound, and hands off to the next or the last actuator when the count of errors at a bound has come to H; which orders and
bounds a write keeps; a pool never grants more than it has; a boundary takes the beats of every core, which a frozen
governor leaves for its thaw, the model's reading of R425 (log 18); a context that is
taken off the device leaves its record, from which it is restored; SLHEAPCFG writes the descriptor table as EN rises. -/
def Obligations.GovernorRunsItsLoops : Prop :=
  (∀ (s : State) (asid : Nat) (v : Word), s.gvPend = false →
    let g := (s.ctxOf asid).gov
    let kept := fun (i : Instr) (p : Gov → Prop) => s.inputs.head? = some i →
      ∃ t, exec i s = .next t ∧ t.inputs = s.inputs.drop 1 ∧ t.mem = s.mem ∧ t.groups = s.groups ∧
        (∀ b, b ≠ asid → t.ctxOf b = s.ctxOf b) ∧ p (t.ctxOf asid).gov
    kept (.gvctlWrite asid v) (fun k => k.ctl = v &&& 0xC00FFFFF ∧ k.integ = g.integ ∧ k.pos = g.pos ∧
      (v.getLsbD 31 = true → g.ctl.getLsbD 31 = false → (GvStat.of k.stat).act = 0 ∧ (GvStat.of k.stat).h = 0)) ∧
    kept (.gvorderWrite asid v) (fun k => if orderOk v then k.order = v &&& 0x7FFFF ∧ k.integ = 0 ∧ k.pos = g.pos else k = g) ∧
    ∀ a, a < 5 →
      kept (.gvposWrite asid a v) (fun k => k.integ = g.integ ∧ k.bnd = g.bnd ∧
        k.posOf a = max (g.lo a) (min (v.extractLsb' 0 16).toNat (g.hi a)) ∧ ∀ b, b < 5 → b ≠ a → k.posOf b = g.posOf b) ∧
      kept (.gvbndWrite asid a v) (fun k => k.pos = g.pos ∧
        ∀ b, b < 5 → vget k.bnd b 0 = if b = a ∧ bndOk a v = true then v else vget g.bnd b 0)) ∧
  (∀ (s : State) (v : Word), s.gvPend = false → s.inputs.head? = some (.gvintlenWrite v) →
    let n := (v.extractLsb' 0 11).toNat
    ∃ t, exec (.gvintlenWrite v) s = .next t ∧ t.inputs = s.inputs.drop 1 ∧ t.mem = s.mem ∧ t.gvintlen = s.gvintlen ∧
      t.gvintNext = if 16 ≤ n ∧ n ≤ 1024 then v &&& 0x7FF else s.gvintNext) ∧
  (∀ (g : Gov) (m : Nat), g.imax.toNat < 2 ^ 31 →
    let st := GvStat.of g.stat
    let a := orderSlot g.order st.act
    let e : Int := max (-(2 ^ 31)) (min ((g.target.extractLsb' 0 16).toNat - (m : Int)) (2 ^ 31 - 1))
    let held := (0 < e ∧ (g.posOf a = g.hi a ∨ st.imp.testBit a = true)) ∨ (e < 0 ∧ g.posOf a = g.lo a)
    let i : Int := if held then g.integ.toInt else max (-(g.imax.toNat : Int)) (min (g.integ.toInt + e) g.imax.toNat)
    let u : Int := Int.tdiv ((g.gain.extractLsb' 16 16).toNat * e + (g.gain.extractLsb' 0 16).toNat * i) 256
    let pos : Int := max (g.lo a : Int) (min (g.posOf a + u) (g.hi a))
    (a < 5 → ((g.law m).posOf a : Int) = pos) ∧
    (∀ b, b < 5 → b ≠ a → (g.law m).posOf b = g.posOf b) ∧ (g.law m).meas = BitVec.ofNat 32 m ∧
    (g.law m).bnd = g.bnd ∧ (g.law m).order = g.order ∧ (g.law m).count = g.count ∧
    -- the handoff
    let bound := (0 < e ∧ (pos = g.hi a ∨ st.imp.testBit a = true)) ∨ (e < 0 ∧ pos = g.lo a)
    let sign := if 0 < e then 0 else 1
    let again := 0 < st.h ∧ sign = st.hs
    let h := if bound then (if again then min (st.h + 1) 15 else 1) else 0
    let due := (g.ctl.extractLsb' 16 4).toNat ≠ 0 ∧ (g.ctl.extractLsb' 16 4).toNat ≤ h
    let on := due ∧ sign = 0 ∧ st.act + 1 < (g.order.extractLsb' 16 3).toNat
    let back := due ∧ sign = 1 ∧ 0 < st.act
    (g.law m).integ.toInt = (if on ∨ back then 0 else i) ∧
    GvStat.of (g.law m).stat = { st with
      act := if on then st.act + 1 else if back then st.act - 1 else st.act
      hs := if bound ∧ ¬ again then sign else st.hs
      h := if on ∨ back then 0 else h
      hand := if on ∨ back then (st.hand + 1) % 256 else st.hand }) ∧
  (∀ v : Word,
    let n := (v.extractLsb' 16 3).toNat
    let code := fun (k : Nat) => v.toNat / 2 ^ (3 * k) % 8
    orderOk v = true ↔ 1 ≤ n ∧ n ≤ 5 ∧ ∀ j, j < n → code j ≤ 4 ∧ ∀ k, k < j → code k ≠ code j) ∧
  (∀ (a : Nat) (v : Word) (lo hi : Nat), (a, lo, hi) ∈ [(0, 1, 64), (1, 1, 256), (2, 1, 16), (3, 1, 64), (4, 0, 9)] →
    (bndOk a v = true ↔ (v.extractLsb' 0 16).toNat ≤ (v.extractLsb' 16 16).toNat ∧ lo ≤ (v.extractLsb' 0 16).toNat ∧
      (v.extractLsb' 16 16).toNat ≤ hi)) ∧
  (∀ (c : Nat) (l : List Demand), (l.map (·.asid)).Nodup → ((allocate c l).map (·.2)).sum ≤ c) ∧
  (∀ s : State, s.nextBoundary ≤ s.now →
    ∃ t e, exec .intervalBoundary s = .next t ∧ t.mem = s.mem ∧ t.groups = s.groups ∧ t.gvLast = s.nextBoundary ∧
      t.gvBound = s.gvBound + 1 ∧ t.gvintlen = s.gvintNext ∧
      t.gvFirst = (s.gvintNext != s.gvintlen) ∧ (∀ c, (t.coreOf c).beats = []) ∧
      (handOver s).gvTaken = s.gvTaken ++ [e] ∧
      (s.govFrozen = true → t.gvTaken = s.gvTaken ++ [e] ∧ ∀ a, (t.ctxOf a).gov = (s.ctxOf a).gov) ∧
      (s.govFrozen = false → s.gvPend = false → lawsWait (collect (handOver s) e) e = false → t.gvPend = false ∧
        ∀ k ∈ s.ctxs, s.ctxOf k.asid = k →
          (t.ctxOf k.asid).gov.count = k.gov.count + BitVec.ofNat 64 (beatsOf s k.asid))) ∧
  (∀ (s : State) (asid : Nat), s.gvPend = false → loopWaits s asid = false →
    let at_ := ((s.ctxOf asid).gov.save.extractLsb' 8 48).toNat * 256
    (s.inputs.head? = some (.contextRemove asid) → ∃ t, exec (.contextRemove asid) s = .next t ∧
      t.inputs = s.inputs.drop 1 ∧ (t.ctxOf asid).removed = true ∧
      t.mem = (vwrite s asid at_ (loopRecord (s.ctxOf asid))).mem) ∧
    ∀ r s1, s.inputs.head? = some (.contextRestore asid) →
      rangeBad { s with inputs := s.inputs.drop 1 } asid at_ 256 = (false, s1) → vread s1 asid at_ 256 = some r →
      ∃ t, exec (.contextRestore asid) s = .next t ∧ t.inputs = s.inputs.drop 1 ∧ t.mem = s1.mem ∧
        t.ctxOf asid = (s.ctxOf asid).restored r (decide (s.gvLast < s.now))) ∧
  (∀ (c : Ctx) (fresh : Bool),
    let d := c.restored (loopRecord c) fresh
    d.gov.gain = c.gov.gain ∧ d.gov.integ = c.gov.integ ∧ d.gov.meas = c.gov.meas ∧
    (∀ a, a < 5 → d.gov.posOf a = c.gov.posOf a) ∧
    d.gov.res = c.gov.res ∧ d.gov.count = c.gov.count ∧ d.cls = c.cls % 4 ∧ d.removed = false ∧ d.gov.granted = false ∧
    (orderOk c.gov.order = true → d.gov.order = c.gov.order &&& 0x7FFFF) ∧
    ((∀ a, a < 5 → bndOk a (vget c.gov.bnd a 0) = true) → d.gov.bnd = c.gov.bnd) ∧
    (orderOk c.gov.order = false ∨ (∃ a, a < 5 ∧ bndOk a (vget c.gov.bnd a 0) = false) → d.gov.ctl.getLsbD 31 = false)) ∧
  ∀ (s : State) (asid : Nat) (v : Word) (tr : Trans), s.inputs.head? = some (.slheapcfgEnable asid v) →
    let n := (v.extractLsb' 4 12).toNat
    v.getLsbD 31 = true → n ≠ 0 → heapOn (s.ctxOf asid) = false →
    xlateNow s asid (heapBase (s.ctxOf asid)) (.engine true) false = some (.ok tr) →
    (∀ k, k ≤ 16 * (n + 1) / 256 → lineMoving s { tr with pa := tr.pa + 256 * k } = false) →
    ∃ t, exec (.slheapcfgEnable asid v) s = .next t ∧ t.inputs = s.inputs.drop 1 ∧
      (t.ctxOf asid).slheapcfg = BitVec.ofNat 32 (2 ^ 31 + n * 16 + min (v.extractLsb' 0 3).toNat 4) ∧
      t.mem = Mem.write (s.accessed asid (heapBase (s.ctxOf asid))).mem tr.key
        ((List.range (n + 1)).flatMap fun k => leBytes 16 ((if k = n then 0 else k + 1) * 2 ^ 112))

/-! ### Events of the fabric -/

/-- Remote requests and regions (R393, R394, R399, R402, R404): a fibre that is to roll back returns to its region's
resume point with its predicate set; a request of a peer is done at its address in the job's window and answered; two
additions that meet at the ingress are joined in the order of their arrival, into a record of the first one's input, whose
table the model gives it (log 26), and a peer's requests carry identities from 2^64 on (log 22); a store that gets no
answer in time is counted in FXERR and reported to its group later, and a load's fibre takes DATA_ERROR. A failure event
counts once in RGFAIL for a group. -/
def Obligations.RemoteRequestsAreServed : Prop :=
  (∀ (s : State) (gid lane : Nat) (g : Group), s.group? gid = some g → lane < 32 →
    enabledRegionRollback s gid lane = true →
    ∃ t k, exec (.regionRollback gid lane) s = .next t ∧ t.mem = s.mem ∧ t.group? gid = some k ∧
      (k.lane lane).region = none ∧ (k.lane lane).rollback = none ∧
      (∀ r, (g.lane lane).region = some r → (k.lane lane).pc = r.resume ∧ (k.lane lane).pred r.pd.toNat = true ∧
        (k.lane lane).wait = none ∧ k.rgfail.toNat =
          if g.rgEvents.contains (g.lane lane).rollNo then g.rgfail.toNat else min (2 ^ 32 - 1) (g.rgfail.toNat + 1))) ∧
  (∀ (s : State) (id : Nat) (r : Remote) (c : Ctx) (tr : Trans), s.fabric.ins.find? (fun r => r.id = id) = some r →
    enabledRemoteRequestServe s id = true → r.peer = ownDevice s → (∀ x ∈ s.fabric.records, ∀ n ∈ r.names, x.1 ≠ n) →
    s.ctxs.find? (fun c => r.job != 0 && wbits c.fxjob 0 16 == r.job) = some c → r.off < dbits c.fxwinsz 0 48 →
    let va := dbits c.fxwin 16 40 * 65536 + r.off
    isRemote va = false → s.bad.contains (tr.key / 128) = false →
    xlateNow s c.asid va (match r.kind with | .load _ => .load | .store _ => .store | .atom .. => .atomic)
      (!r.privileged) = some (.ok tr) →
    let answer := fun (t : State) (l : List Byte) => r.tree = none → 2 ^ 64 ≤ id → ∃ a, t.fabric.sent = s.fabric.sent ++ [a] ∧
      a.id = id ∧ a.value = l ∧ a.cause = none
    let s1 := s.accessed c.asid va
    ∃ t, exec (.remoteRequestServe id) s = .next t ∧ t.fabric.ins = s.fabric.ins.erase r ∧
      (∀ n, r.kind = .load n → t.mem = s1.mem ∧ answer t (Mem.read s1.mem tr.key n)) ∧
      (∀ b, r.kind = .store b → t.mem = Mem.write s1.mem tr.key b ∧ answer t []) ∧
      ∀ fn w op cmp, r.kind = .atom fn w op cmp → arenaDie s c.asid va = none →
        t.mem = Mem.write s1.mem tr.key (leBytes (wordBytes w) (atomVal fn w (s1.wordAt tr.key w) op cmp).toNat) ∧
        answer t (leBytes (wordBytes w) (s1.wordAt tr.key w).toNat)) ∧
  (∀ (s : State) (x y : Nat) (a b : Remote) (u v : ReqTree), s.fabric.ins.find? (·.id = x) = some a →
    s.fabric.ins.find? (·.id = y) = some b → a.tree = some u → b.tree = some v → enabledIngressCombine s x y = true →
    ∃ t, exec (.ingressCombine x y) s = .next t ∧ t.mem = s.mem ∧ t.ops = s.ops ∧ a.off = b.off ∧
      sorusUsed s (inputPort a.input) < 64 ∧ (a.arrived < b.arrived ∨ a.arrived = b.arrived ∧ a.input ≤ b.input) ∧
      t.fabric.ins.find? (·.id = x) =
        some { a with kind := .atom .add a.kind.w64 (a.addend + b.addend) 0, tree := some (.join (inputPort a.input) u v),
                      ids := a.ids ++ b.ids, sent := max a.sent b.sent } ∧
      t.fabric.ins.find? (·.id = y) = none) ∧
  ∀ (s : State) (id lane : Nat) (r : Remote) (o : Op) (g : Group), lateRequest s id lane = some r → r.commit = false →
    s.op? r.op = some o → s.group? o.gid = some g →
    (∀ b q tm, r.kind = .store b → r.seq = some q → s.team? o.tid = some tm →
      ∃ t m, exec (.remoteTimeout id lane) s = .next t ∧ t.mem = s.mem ∧ t.team? o.tid = some m ∧
        m.fxerr.getLsbD 15 = true ∧ (m.fxerr.extractLsb' 16 16).toNat = min 65535 ((tm.fxerr.extractLsb' 16 16).toNat + 1) ∧
        (∀ x ∈ t.fabric.out, x.id ≠ r.id) ∧ ∀ c ∈ (t.coreOf o.core).cop, c.seq ≠ q) ∧
    (∀ n, r.kind = .load n → r.lane < 32 → (g.lane r.lane).region = none → (g.lane r.lane).status.live = true →
      ∃ t k f, exec (.remoteTimeout id lane) s = .next t ∧ t.mem = s.mem ∧ t.group? o.gid = some k ∧
        (k.lane r.lane).defer = (g.lane r.lane).defer ++ [f] ∧ f.cause = fDataError ∧ f.addr = BitVec.ofNat 64 r.va ∧
        ∀ x ∈ t.fabric.out, x.id ≠ r.id)

/-- Links and the fabric's tables (R393, R395, R396, R404, R408, R421): a flit of 256 bytes whose CRC holds and whose turn it
is, is delivered, and the next number expected, one that fails its check is to be replayed; a link that went down makes the open regions that name its
peer fail, is tried again, and comes up at the largest power of two of its healthy lanes; a beat flit for the coming
boundary is kept once; FXCFG is taken only while every link is down. -/
def Obligations.LinksCarryFlits : Prop :=
  (∀ (s : State) (p : Nat) (header tail : Dword) (payload : List Byte),
    let b := wireFlit header tail payload
    let l := vget s.fabric.links p {}
    let seq : BitVec 12 := BitVec.ofNat 12 (leNat (b.take 2) % 4096)
    let code := leNat (b.take 2) / 4096
    let good := b.length = 256 ∧ leNat ((b.drop 248).take 4) = crc32 (b.take 248)
    s.inputs.head? = some (.flitReceive p header tail none payload) → p < 15 → l.up = true → l.retrain = none → fabricFrozen s = false →
    ∃ t, exec (.flitReceive p header tail none payload) s = .next t ∧ t.inputs = s.inputs.drop 1 ∧ t.mem = s.mem ∧
      (vget t.fabric.links p {}).lastRx = s.now ∧
      (¬ good → (vget t.fabric.links p {}).tries = l.tries + 1 ∧ (vget t.fabric.links p {}).expect = l.expect ∧
        t.fabric.ins = s.fabric.ins) ∧
      (good → seq ≠ l.expect → (vget t.fabric.links p {}).expect = l.expect ∧ t.fabric.ins = s.fabric.ins) ∧
      (good → seq = l.expect → (vget t.fabric.links p {}).expect = l.expect + 1 ∧
        (vget t.fabric.links p {}).tries = 0 ∧
        ∀ r, parsePayload s p code (payload.take 240) = .request r → t.fabric.ins = s.fabric.ins ++ [r])) ∧
  (∀ (s : State) (p : Nat),
    (enabledLinkDown s p = true → ∃ t, exec (.linkDown p) s = .next t ∧ t.mem = s.mem ∧ t.ops = s.ops ∧
      (vget t.fabric.links p {}).up = false ∧ (vget t.fabric.links p {}).lanes = 0 ∧
      ∀ gid g, s.group? gid = some g → ∃ k, t.group? gid = some k ∧ SameRegs g k ∧ ∀ j r, j < 32 →
        (g.lane j).region = some r → (g.lane j).committing = false →
        (k.lane j).rollback = if r.peers.getLsbD (peerOf s p) then some ((g.lane j).rollback.getD 1) else (g.lane j).rollback) ∧
    (enabledLinkRetrainAttempt s p = true → ∃ t, exec (.linkRetrainAttempt p) s = .next t ∧ t.mem = s.mem ∧
      t.groups = s.groups ∧ (vget t.fabric.links p {}).retrain = some s.now ∧ (vget t.fabric.links p {}).up = false) ∧
    ∀ healthy, enabledLinkRetrainDone s p healthy = true → ∃ t, exec (.linkRetrainDone p healthy) s = .next t ∧
      t.mem = s.mem ∧ t.groups = s.groups ∧ (vget t.fabric.links p {}).retrain = none ∧
      (healthy ≠ 0 → (vget t.fabric.links p {}).up = true ∧ ∀ e, healthy < 16 → 2 ^ e ≤ healthy → healthy < 2 ^ (e + 1) →
        (vget t.fabric.links p {}).lanes = 2 ^ e)) ∧
  (∀ (s : State) (job member count : Nat), let b := (s.gvBound + 1) % 2 ^ 32
    s.inputs.head? = some (.beatFlitReceive job b member count) →
    ∃ t, exec (.beatFlitReceive job b member count) s = .next t ∧ t.inputs = s.inputs.drop 1 ∧ t.mem = s.mem ∧
      t.fabric.counts = s.fabric.counts ++
        (if s.fabric.counts.any fun x => x.1 == job && x.2.1 == b && x.2.2.1 == member then []
         else [(job, b, member, count % 2 ^ 32)])) ∧
  (∀ (s : State) (v : Word), s.inputs.head? = some (.fxcfgWrite v) →
    ∃ t, exec (.fxcfgWrite v) s = .next t ∧ t.inputs = s.inputs.drop 1 ∧ t.mem = s.mem ∧
      t.fabric.fxdev = if (List.range 15).any fun p => (vget s.fabric.links p {}).up then s.fabric.fxdev
        else 0x100 ||| (v &&& 0xFF)) ∧
  ∀ (s : State) (k : Nat) (v : Dword), s.inputs.head? = some (.jobTableWrite k v) → s.gvPend = false → k < 64 →
    ∃ t, exec (.jobTableWrite k v) s = .next t ∧ t.inputs = s.inputs.drop 1 ∧ t.mem = s.mem ∧
      vget t.fabric.jobs k 0 = v &&& 0xFFFFFFFF ∧ ∀ n, n < 64 → n ≠ k → vget t.fabric.jobs n 0 = vget s.fabric.jobs n 0

/-! ### Events of the device -/

/-- Clock regions, droop, freezes and errors (R23, R238, R425, R428, R429): a region stops and then runs at the step it is
to run at; a droop is counted and stretches the region's cycles; a critical margin raises an event; a unit that is to
freeze holds once its point is reached and leaves its freeze when thawed or too late; an error adds one to its source's
count of the window, and at the threshold retires a unit. That the stop lasts 1500 ns, the most that R429 allows (log 7),
and that the ring's address stands at 0x51000 of the management window (log 10) are the model's choices. -/
def Obligations.RegionsFreezesAndErrors : Prop :=
  (∀ (s : State) (n : Nat),
    let c := s.clusterOf n
    let left := fun (t : State) => t.mem = s.mem ∧ t.groups = s.groups ∧ t.teams = s.teams ∧
      ∀ m, m ≠ n → t.clusterOf m = s.clusterOf m
    (enabledClockStepChange s n = true → ∃ t, exec (.clockStepChange n) s = .next t ∧ left t ∧
      (c.change = none → (t.clusterOf n).step = c.step ∧
        (t.clusterOf n).change = some (regionTarget s n, s.now + 1500)) ∧
      ∀ k e, c.change = some (k, e) → (t.clusterOf n).step = k ∧ (t.clusterOf n).change = none) ∧
    (enabledDroopWindowEnd s n = true → ∃ t, exec (.droopWindowEnd n) s = .next t ∧ left t ∧
      (t.clusterOf n).droopWin = 0 ∧ (t.clusterOf n).stretch = 0 ∧ (t.clusterOf n).droopcnt = c.droopcnt) ∧
    (s.inputs.head? = some (.droopDetect n) → n < 256 → ∃ t, exec (.droopDetect n) s = .next t ∧
      t.inputs = s.inputs.drop 1 ∧ left t ∧ (t.clusterOf n).droopcnt.toNat = min (2 ^ 32 - 1) (c.droopcnt.toNat + 1) ∧
      (t.clusterOf n).droopWin = c.cycles + 64) ∧
    ∀ m, s.inputs.head? = some (.marginChange n m) → n < 256 → s.gvPend = false → ∃ t, exec (.marginChange n m) s = .next t ∧
      t.inputs = s.inputs.drop 1 ∧ left t ∧ (t.clusterOf n).margin = m ∧ (m ≠ 0 → t.host = s.host) ∧
      (m = 0 → Mem.read64 s.host.mgmt 0x51000 ≠ 0 → t.host.puts.length = s.host.puts.length + 1)) ∧
  (∀ (s : State) (k n : Nat),
    let at_ := fun (f : Freeze) => f.kind = k ∧ f.index = n
    (s.inputs.head? = some (.freeze k n) → ∃ t, exec (.freeze k n) s = .next t ∧ t.inputs = s.inputs.drop 1 ∧
      t.mem = s.mem ∧ t.groups = s.groups ∧ (∃ f ∈ t.host.frozen, at_ f) ∧ ∀ f, ¬ at_ f → (f ∈ t.host.frozen ↔ f ∈ s.host.frozen)) ∧
    (s.inputs.head? = some (.thaw k n) → ∃ t, exec (.thaw k n) s = .next t ∧ t.inputs = s.inputs.drop 1 ∧
      t.mem = s.mem ∧ t.groups = s.groups ∧ ∀ f, f ∈ t.host.frozen ↔ f ∈ s.host.frozen ∧ ¬ at_ f) ∧
    (enabledFreezePointReached s k n = true → ∃ t, exec (.freezePointReached k n) s = .next t ∧ t.mem = s.mem ∧
      t.groups = s.groups ∧ t.host.frzst.extractLsb' 62 2 = 2 ∧ t.host.frzst.extractLsb' 0 62 = s.host.frzst.extractLsb' 0 62 ∧
      frozenUnit t k n = true) ∧
    (enabledFreezeTimeout s k n = true → ∃ t, exec (.freezeTimeout k n) s = .next t ∧ t.mem = s.mem ∧
      t.groups = s.groups ∧ frozenUnit t k n = false ∧ t.host.frzst.getLsbD 62 = true)) ∧
  (∀ (e : ErrSrc) (now : Nat),
    let w := 1000 * max 1 (e.win.extractLsb' 0 20).toNat
    let old := if now / w = e.since / w then (e.cnt.extractLsb' 0 16).toNat else 0
    ((e.hit now).1.cnt.extractLsb' 0 16).toNat = min (old + 1) 65535 ∧
    ((e.hit now).1.cnt.extractLsb' 16 16) = e.cnt.extractLsb' 16 16 ∧ (e.hit now).1.thr = e.thr ∧
    ((e.hit now).2 = true ↔ (e.thr.extractLsb' 0 16) ≠ 0 ∧ (e.thr.extractLsb' 0 16).toNat ≤ old + 1)) ∧
  ∀ (s : State) (n k : Nat), s.inputs.head? = some (.errorReport n k) → n < 256 → k < 4 →
    let e := ((s.clusterOf n).src k).hit s.now
    ∃ t, exec (.errorReport n k) s = .next t ∧ t.inputs = s.inputs.drop 1 ∧ t.mem = s.mem ∧ t.groups = s.groups ∧
      (e.2 = false → (t.clusterOf n).src k = e.1 ∧ t.host = s.host) ∧
      (e.2 = true → 0 < sparesLeft (4 * n + k) e.1 → (t.clusterOf n).src k = e.1.retire) ∧
      (e.2 = true → sparesLeft (4 * n + k) e.1 = 0 → (t.clusterOf n).src k = e.1) ∧
      ∀ j, j < 4 → j ≠ k → (t.clusterOf n).src j = (s.clusterOf n).src j

/-- The debug block (R91, R230, R420) acts on the group in a slot of a core while it is not busy: HALT halts its running
fibres at their packet boundaries, RESUME lets the halted ones run, STEP and STEP.ALL give one ready path or all of them
to issue, ATTACH and DETACH write DBGCTL.BRKEN, DISCARD ends a halted team with all it has on the core. None of them
changes a register or a byte of memory. -/
def Obligations.DebuggerCommandsGroups : Prop :=
  ∀ (s : State) (core slot : Nat) (g : Group) (t : Team), dbgBusy s = false → groupIn s core slot = some g →
    s.group? g.gid = some g → s.team? g.tid = some t →
    let kept := fun (i : Instr) (p : State → Group → Prop) => s.inputs.head? = some i →
      ∃ u k, exec i s = .next u ∧ u.inputs = s.inputs.drop 1 ∧ u.mem = s.mem ∧ u.ops = s.ops ∧ u.group? g.gid = some k ∧
        SameRegs g k ∧ (∀ n, n ≠ g.gid → u.group? n = s.group? n) ∧ (∀ j, j < 32 → (k.lane j).pc = (g.lane j).pc) ∧ p u k
    let ready := haltedReady { s with inputs := s.inputs.drop 1 } g t
    kept (.dbgHalt core slot) (fun _ k => k.halted = true ∧ ∀ j, j < 32 → (k.lane j).status =
      if (g.lane j).status = .running ∧ (portLanes s g.gid g.core g.sched).getLsbD j = false then .halted
      else (g.lane j).status) ∧
    kept (.dbgResume core slot) (fun _ k => k.halted = false ∧ ∀ j, j < 32 → (k.lane j).status =
      if (g.lane j).status = .halted then .running else (g.lane j).status) ∧
    kept (.dbgStep core slot) (fun _ k => (g.halted = false → k.steps = g.steps) ∧
      (g.halted = true → k.steps.length = min 1 ready.length ∧ ∀ m ∈ k.steps, ∃ p ∈ ready, p.lanes = m)) ∧
    kept (.dbgStepAll core slot) (fun _ k => (g.halted = false → k.steps = g.steps) ∧
      (g.halted = true → k.steps = ready.map (·.lanes))) ∧
    (∀ on : Bool, kept (if on then .dbgAttach core slot else .dbgDetach core slot) fun u k => k = g ∧
      ∃ m, u.team? g.tid = some m ∧ m.dbgctl.getLsbD 0 = on ∧
        ∀ n, 0 < n → n < 32 → m.dbgctl.getLsbD n = t.dbgctl.getLsbD n) ∧
    (s.inputs.head? = some (.dbgDiscard core slot) → (s.teamGroups t.tid).all (·.halted) = true →
      ∃ u m, exec (.dbgDiscard core slot) s = .next u ∧ u.inputs = s.inputs.drop 1 ∧ u.mem = s.mem ∧
        u.team? t.tid = some m ∧ m.phase = .ended ∧ m.lease = none ∧ (∀ k ∈ u.groups, k ∈ s.groups ∧ k.tid ≠ t.tid) ∧
        (∀ o ∈ u.ops, o.tid = t.tid → match o.kind with | .batch .. => True | _ => False) ∧
        ∀ c ∈ (u.coreOf t.core).chans, c.2.owner ≠ t.tid)

/-- The host's accesses (R415 to R418): through an enabled window a put writes the context's memory, a get returns it, an
atomic of the four that are performed exchanges a word, all inside the window and by the context's translation with the U
bit ignored; what a window does not allow fails as a whole, which is the model's reading (log 23); a packet that the
device does not support, shown by a key of 65536 or more (the model's choice, log 5), is counted; a put of 8 aligned bytes
to the management window writes its register. One sector at a time is stated. -/
def Obligations.HostReachesWindows : Prop :=
  (∀ (s : State) (key off tag : Nat) (w : Window) (va : Nat) (r : WalkRes) (tr : Trans) (n : Nat), key < 65536 → key ≠ 0 →
    windowOf s key = some w → off < w.len → off + n ≤ w.len → w.base + off + n ≤ 2 ^ 56 →
    sectorPieces (w.base + off) n = [(va, n)] → va = w.base + off → isRemote va = false → walk s w.asid va = .ok r →
    lineMoving s tr = false →
    let m := (s.setAccessed r.leaves).mem
    let said := fun (t : State) (l : List Byte) => t.inputs = s.inputs.drop 1 ∧
      t.host.answers = s.host.answers ++ [{ tag := tag, ok := true, data := l }]
    (∀ data : List Byte, s.inputs.head? = some (.hostRmaPut key off data tag) → data.length = n → w.w = true →
      xlateNow s w.asid va .store false = some (.ok tr) →
      ∃ t, exec (.hostRmaPut key off data tag) s = .next t ∧ said t [] ∧ t.mem = Mem.write m tr.key data) ∧
    (s.inputs.head? = some (.hostRmaGet key off n tag) → w.r = true → xlateNow s w.asid va .load false = some (.ok tr) →
      s.bad.contains (tr.key / 128) = false →
      ∃ t, exec (.hostRmaGet key off n tag) s = .next t ∧ said t (Mem.read m tr.key n) ∧ t.mem = m) ∧
    ∀ (fn : AtomFn) (w64 : Bool) (v c : Dword), s.inputs.head? = some (.hostRmaAtomic key off (some fn) w64 v c tag) →
      fn = .add ∨ fn = .exch ∨ fn = .cas ∨ fn = .or → n = wordBytes w64 → off % n = 0 → w.w = true → w.r = true →
      xlateNow s w.asid va .atomic false = some (.ok tr) → s.bad.contains (tr.key / 128) = false →
      arenaDie s w.asid va = none →
      let old : Dword := BitVec.ofNat 64 (leNat (Mem.read m tr.key n))
      ∃ t, exec (.hostRmaAtomic key off (some fn) w64 v c tag) s = .next t ∧ said t (leBytes n old.toNat) ∧
        t.mem = Mem.write m tr.key (leBytes n (atomVal fn w64 old v c).toNat)) ∧
  (∀ (s : State) (key off tag : Nat) (data : List Byte), s.inputs.head? = some (.hostRmaPut key off data tag) →
    (key < 65536 → key ≠ 0 → (∀ w, windowOf s key = some w → w.w = false ∨ w.len < off + data.length ∨ w.len ≤ off) →
      ∃ t, exec (.hostRmaPut key off data tag) s = .next t ∧ t.mem = s.mem ∧ t.groups = s.groups ∧
        t.host.answers = s.host.answers ++ [{ tag := tag, ok := false, data := [] }]) ∧
    (65536 ≤ key → ∃ t, exec (.hostRmaPut key off data tag) s = .next t ∧ t.mem = s.mem ∧ t.groups = s.groups ∧
        t.host.uedrop = s.host.uedrop + 1)) ∧
  ∀ (s : State) (tag : Nat) (v : Dword), s.inputs.head? = some (.mgmtWrite 0x80010 (leBytes 8 v.toNat) tag) →
    ∃ t, exec (.mgmtWrite 0x80010 (leBytes 8 v.toNat) tag) s = .next t ∧ t.inputs = s.inputs.drop 1 ∧ t.mem = s.mem ∧
      t.groups = s.groups ∧ t.host.frzmax = v.setWidth 32 ∧
      t.host.answers = s.host.answers ++ [{ tag := tag, ok := true, data := [] }]

/-- Firmware, measurement, attestation and reset (R429, R431 to R433): an image is accepted only when its version is not
below the fused counter and its signature verifies, and a rejected one raises an event; a measurement register becomes the hash of itself and the data, and
no other changes; a report has 736 bytes, the signed fields first; after a device reset nothing is resident, time is 0,
the measurement registers are zero, and the image accepted last is in force, with which the boot ROM extends MR0 as the
next thing. That memory keeps its bytes (log 12), that the boot ROM comes first of all (log 5), where an image stands, and
that 0x51000 holds the address of the event ring (log 10) are the model's choices. -/
def Obligations.SecurityAndReset : Prop :=
  (∀ (st : State) (version : Nat) (image : List Byte) (r s : Nat),
    st.inputs.head? = some (.firmwareImageLoad version image r s) →
    let good := st.sec.counter ≤ version ∧ verifies Config.rootKey image r s = true
    ∃ t, exec (.firmwareImageLoad version image r s) st = .next t ∧ t.inputs = st.inputs.drop 1 ∧ t.mem = st.mem ∧
      t.groups = st.groups ∧ t.sec.fwVersion = st.sec.fwVersion ∧ t.sec.mr = st.sec.mr ∧
      (good → t.sec.pending = some (version, image) ∧ t.host = st.host) ∧
      (¬ good → t.sec = st.sec ∧ (Mem.read64 st.host.mgmt 0x51000 ≠ 0 →
        t.host.puts.length = st.host.puts.length + 1))) ∧
  (∀ (s : State) (n : Nat) (data : List Byte), s.inputs.head? = some (.mrExtend n data) → n < 8 →
    ∃ t, exec (.mrExtend n data) s = .next t ∧ t.inputs = s.inputs.drop 1 ∧ t.mem = s.mem ∧
      vget t.sec.mr n [] = sha512 (vget s.sec.mr n [] ++ data) ∧ (vget t.sec.mr n []).length = 64 ∧
      ∀ k, k < 8 → k ≠ n → vget t.sec.mr k [] = vget s.sec.mr k []) ∧
  (∀ (s : State) (nonce : List Byte), s.inputs.head? = some (.attest nonce) →
    (∀ k, k < 8 → (vget s.sec.mr k []).length = 64) →
    ∃ t sig, exec (.attest nonce) s = .next t ∧ t.inputs = s.inputs.drop 1 ∧ t.mem = s.mem ∧
      t.sec.report = reportBody s nonce ++ sig ∧ t.sec.report.length = 736 ∧ sig.length = 132 ∧
      t.sec.mr = s.sec.mr ∧ ∀ k, k < 64 → k < nonce.length → t.sec.report[540 + k]? = nonce[k]?) ∧
  ∀ s : State, s.inputs.head? = some .deviceReset →
    ∃ t, exec .deviceReset s = .next t ∧ t.inputs = s.inputs.drop 1 ∧ t.now = 0 ∧ t.groups = [] ∧ t.teams = [] ∧
      t.ctxs = [] ∧ t.ops = [] ∧ t.cores = [] ∧ t.mem = s.mem ∧ t.cur = none ∧
      (∀ n, n < 8 → vget t.sec.mr n [] = List.replicate 64 0) ∧ t.sec.pending = none ∧
      t.sec.counter = s.sec.counter ∧ (∀ v h, s.sec.pending = some (v, h) → t.sec.fwVersion = v ∧ t.sec.image = h) ∧
      (s.sec.pending = none → t.sec.fwVersion = s.sec.fwVersion ∧ t.sec.image = s.sec.image) ∧
      ∃ u, nextOutcome t = .next u ∧ u.mem = t.mem ∧ u.groups = t.groups ∧ u.sec.booted = true ∧
        vget u.sec.mr 0 [] = sha512 (List.replicate 64 0 ++ t.sec.image) ∧ u.sec.image = t.sec.image ∧
        ∀ n, 2 ≤ n → n < 8 → vget u.sec.mr n [] = vget t.sec.mr n []
end

