-- ==== Sys2Proof/Laws/Issue.lean ====
section
/-!
SUPPORT. What the shared ways of doing an instruction come to: issuing a word, reading its operands, checking its
accesses, a machine step whose conditions hold, an event from outside.
-/

namespace Sys2Proof.Machine

open Sys2Proof

/-- With a packet in hand, a word always answers a next state. -/
theorem issue_isNext {i : Instr} {s : State} {h : Here} (hh : s.here? = some h) (k : Here → State) :
    ∃ t, issue i s k = .next t := by
  simp only [issue, withPacket, hh]; exact ⟨_, rfl⟩

/-- A word that issues for its whole packet does what it does with that packet. -/
theorem issue_next {i : Instr} {s : State} {h : Here} (hi : Issues i s h) (k : Here → State) :
    issue i s k = .next (k h) := by
  obtain ⟨hh, hp, hf, ha, hr, hk, hc⟩ := hi
  have hplace : (isTransfer i && h.first.rem.toNat != i.words) = false := by
    cases ht : isTransfer i
    · rfl
    · simp [hp ht]
  simp only [issue, withPacket, hh]
  simp only [hplace, hf, Bool.not_true, Bool.or_false, Bool.false_eq_true, if_false, hr]
  simp only [ha, if_false, hk, Bool.not_true, Bool.false_eq_true]
  rcases hc with hc | hc
  · simp [hc]
  · simp only [hc]; split <;> simp_all

/-- Operands that can be read are read. -/
theorem withOperands_reads {i : Instr} {s : State} {h : Here} {ins : List LaneIn} {s1 : State}
    (hr : Reads i s h ins s1) (k : List LaneIn → State → State) : withOperands i s h k = k ins s1 := by
  obtain ⟨consts, h1, h2⟩ := hr
  simp only [withOperands, h1, h2]

/-- Accesses that pass their checks go on. -/
theorem withAccess_ok {s : State} {h : Here} {sp : Space} {n : Nat} {kind : AccKind} {remote : Bool}
    {l : List (Nat × Nat)} {ts : List (Nat × Nat × Trans)} (ha : AccessOk s h sp n kind remote l ts)
    (k : List (Nat × Nat × Trans) → State) : withAccess s h sp n kind remote l k = k ts := by
  simp only [AccessOk] at ha
  simp only [withAccess, ha]

/-- A class I or class F word that issues and reads its operands writes its results and goes on. -/
theorem vecExec_next {i : Instr} {f : Here → List LaneIn → List LaneOut} {s : State} {h : Here} {ins : List LaneIn}
    {s1 : State} (hi : Issues i s h) (hr : Reads i s h ins s1) :
    vecExec i f s = .next (vecDone i h ins (f h ins) s1) := by
  obtain ⟨consts, h1, h2⟩ := hr
  simp only [vecExec, issue_next hi, h1, ← h2, vecDone]

/-- A step of the machine whose conditions hold. -/
theorem whenEnabled_next {b : Bool} (hb : b = true) (s : State) (f : State → State) :
    whenEnabled b s f = .next (f s) := by
  simp [whenEnabled, hb]

/-- The oldest event from outside. -/
theorem fromOutside_next {i : Instr} {s : State} (hi : s.inputs.head? = some i) (f : State → State) :
    fromOutside i s f = .next (f { s with inputs := s.inputs.drop 1 }) := by
  simp [fromOutside, whenEnabled, hi]

end Sys2Proof.Machine
end

