-- ==== Sys2Proof/Laws/Memory.lean ====
section
/-!
SUPPORT. Every operation over memory keeps the canonical form (log 3), and the memory after reset has it.
-/

namespace Sys2Proof.Machine

open Sys2Proof

/-- A canonical memory from a higher address on is one from a lower address on. -/
theorem Mem.wfFrom_mono {lo lo' : Nat} (h : lo ≤ lo') : ∀ {m : List Host.Cell}, Mem.wfFrom lo' m → Mem.wfFrom lo m
  | [], _ => rfl
  | _ :: _, hm => by simp only [Mem.wfFrom, Bool.and_eq_true, decide_eq_true_eq] at hm ⊢; exact ⟨⟨by omega, hm.1.2⟩, hm.2⟩

/-- A byte written at or above the first address keeps the form. -/
theorem Mem.set_wfFrom {lo a : Nat} {v : Byte} (h : lo ≤ a) :
    ∀ {m : List Host.Cell}, Mem.wfFrom lo m → Mem.wfFrom lo (Mem.set m a v)
  | [], _ => by
    unfold Mem.set
    split_ifs with hv
    · rfl
    · simp only [Mem.wfFrom, Bool.and_eq_true, decide_eq_true_eq, bne_iff_ne]; exact ⟨⟨h, hv⟩, trivial⟩
  | (b, x) :: r, hm => by
    simp only [Mem.wfFrom, Bool.and_eq_true, decide_eq_true_eq, bne_iff_ne] at hm
    obtain ⟨⟨hb, hx⟩, hr⟩ := hm
    unfold Mem.set
    split_ifs with h1 h2 h3 h4 <;>
      try simp only [Mem.wfFrom, Bool.and_eq_true, decide_eq_true_eq, bne_iff_ne]
    · exact Mem.wfFrom_mono (by omega) hr
    · exact ⟨⟨h, h2⟩, h1 ▸ hr⟩
    · exact ⟨⟨hb, hx⟩, hr⟩
    · exact ⟨⟨h, h4⟩, ⟨by omega, hx⟩, hr⟩
    · exact ⟨⟨hb, hx⟩, Mem.set_wfFrom (by omega) hr⟩

/-- Writing a byte keeps the form. -/
theorem Mem.set_wf {m : List Host.Cell} (a : Nat) (v : Byte) (h : Mem.wf m) : Mem.wf (Mem.set m a v) :=
  Mem.set_wfFrom (Nat.zero_le a) h

/-- Writing bytes keeps the form. -/
theorem Mem.write_wf {m : List Host.Cell} (a : Nat) (l : List Byte) (h : Mem.wf m) : Mem.wf (Mem.write m a l) := by
  induction l generalizing m a with
  | nil => exact h
  | cons v r ih => exact ih (a + 1) (Mem.set_wf a v h)

/-- Leaving cells out keeps the form. -/
theorem Mem.filter_wfFrom (p : Host.Cell → Bool) {lo : Nat} :
    ∀ {m : List Host.Cell}, Mem.wfFrom lo m → Mem.wfFrom lo (m.filter p)
  | [], _ => rfl
  | (b, x) :: r, hm => by
    simp only [Mem.wfFrom, Bool.and_eq_true, decide_eq_true_eq, bne_iff_ne] at hm
    obtain ⟨⟨hb, hx⟩, hr⟩ := hm
    by_cases hp : p (b, x)
    · simp only [List.filter_cons_of_pos hp, Mem.wfFrom, Bool.and_eq_true, decide_eq_true_eq, bne_iff_ne]
      exact ⟨⟨hb, hx⟩, Mem.filter_wfFrom p hr⟩
    · simp only [List.filter_cons_of_neg hp]
      exact Mem.filter_wfFrom p (Mem.wfFrom_mono (by omega) hr)

/-- Clearing a range keeps the form. -/
theorem Mem.clear_wf {m : List Host.Cell} (a n : Nat) (h : Mem.wf m) : Mem.wf (Mem.clear m a n) :=
  Mem.filter_wfFrom _ h

/-- A fold whose steps keep the form keeps it. -/
theorem Mem.foldl_wf {α : Type} (f : List Host.Cell → α → List Host.Cell)
    (hf : ∀ m x, Mem.wf m → Mem.wf (f m x)) (l : List α) {m : List Host.Cell} (h : Mem.wf m) : Mem.wf (l.foldl f m) := by
  induction l generalizing m with
  | nil => exact h
  | cons x r ih => exact ih (hf m x h)

/-- Moving a range keeps the form. -/
theorem Mem.moveTo_wf {m : List Host.Cell} (src dst n : Nat) (h : Mem.wf m) : Mem.wf (Mem.moveTo m src dst n) :=
  Mem.foldl_wf _ (fun _ _ hm => Mem.set_wf _ _ hm) _ (Mem.clear_wf _ _ (Mem.clear_wf _ _ h))

/-- Copying a range keeps the form. -/
theorem Mem.copyTo_wf {m : List Host.Cell} (src dst n : Nat) (h : Mem.wf m) : Mem.wf (Mem.copyTo m src dst n) :=
  Mem.foldl_wf _ (fun _ _ hm => Mem.set_wf _ _ hm) _ (Mem.clear_wf _ _ h)

/-- The memory after reset is canonical. -/
theorem reset_mem_wf : Mem.wf State.reset.mem = true := rfl

end Sys2Proof.Machine
end

