-- ==== Sys2Proof/Laws/State.lean ====
section
/-!
SUPPORT. What an update of one table of the state leaves of every field: one lemma per field and update.
-/

namespace Sys2Proof.Machine

open Sys2Proof

variable (s : State)

/-! ### Rewriting a group -/

@[simp] theorem State.updGroup_now (gid : Nat) (f : Group → Group) : (s.updGroup gid f).now = s.now := rfl
@[simp] theorem State.updGroup_tick (gid : Nat) (f : Group → Group) : (s.updGroup gid f).tick = s.tick := rfl
@[simp] theorem State.updGroup_serial (gid : Nat) (f : Group → Group) : (s.updGroup gid f).serial = s.serial := rfl
@[simp] theorem State.updGroup_inputs (gid : Nat) (f : Group → Group) : (s.updGroup gid f).inputs = s.inputs := rfl
@[simp] theorem State.updGroup_mem (gid : Nat) (f : Group → Group) : (s.updGroup gid f).mem = s.mem := rfl
@[simp] theorem State.updGroup_cur (gid : Nat) (f : Group → Group) : (s.updGroup gid f).cur = s.cur := rfl
@[simp] theorem State.updGroup_teams (gid : Nat) (f : Group → Group) : (s.updGroup gid f).teams = s.teams := rfl
@[simp] theorem State.updGroup_cores (gid : Nat) (f : Group → Group) : (s.updGroup gid f).cores = s.cores := rfl
@[simp] theorem State.updGroup_ctxs (gid : Nat) (f : Group → Group) : (s.updGroup gid f).ctxs = s.ctxs := rfl
@[simp] theorem State.updGroup_clusters (gid : Nat) (f : Group → Group) : (s.updGroup gid f).clusters = s.clusters := rfl
@[simp] theorem State.updGroup_crozs (gid : Nat) (f : Group → Group) : (s.updGroup gid f).crozs = s.crozs := rfl
@[simp] theorem State.updGroup_ops (gid : Nat) (f : Group → Group) : (s.updGroup gid f).ops = s.ops := rfl
@[simp] theorem State.updGroup_reqs (gid : Nat) (f : Group → Group) : (s.updGroup gid f).reqs = s.reqs := rfl
@[simp] theorem State.updGroup_replies (gid : Nat) (f : Group → Group) : (s.updGroup gid f).replies = s.replies := rfl
@[simp] theorem State.updGroup_echoes (gid : Nat) (f : Group → Group) : (s.updGroup gid f).echoes = s.echoes := rfl
@[simp] theorem State.updGroup_monitors (gid : Nat) (f : Group → Group) : (s.updGroup gid f).monitors = s.monitors := rfl
@[simp] theorem State.updGroup_notices (gid : Nat) (f : Group → Group) : (s.updGroup gid f).notices = s.notices := rfl
@[simp] theorem State.updGroup_due (gid : Nat) (f : Group → Group) : (s.updGroup gid f).due = s.due := rfl
@[simp] theorem State.updGroup_l2 (gid : Nat) (f : Group → Group) : (s.updGroup gid f).l2 = s.l2 := rfl
@[simp] theorem State.updGroup_touches (gid : Nat) (f : Group → Group) : (s.updGroup gid f).touches = s.touches := rfl
@[simp] theorem State.updGroup_bad (gid : Nat) (f : Group → Group) : (s.updGroup gid f).bad = s.bad := rfl
@[simp] theorem State.updGroup_disturbed (gid : Nat) (f : Group → Group) : (s.updGroup gid f).disturbed = s.disturbed := rfl
@[simp] theorem State.updGroup_told (gid : Nat) (f : Group → Group) : (s.updGroup gid f).told = s.told := rfl
@[simp] theorem State.updGroup_unlocked (gid : Nat) (f : Group → Group) : (s.updGroup gid f).unlocked = s.unlocked := rfl
@[simp] theorem State.updGroup_stlb (gid : Nat) (f : Group → Group) : (s.updGroup gid f).stlb = s.stlb := rfl
@[simp] theorem State.updGroup_gvintlen (gid : Nat) (f : Group → Group) : (s.updGroup gid f).gvintlen = s.gvintlen := rfl
@[simp] theorem State.updGroup_gvintNext (gid : Nat) (f : Group → Group) : (s.updGroup gid f).gvintNext = s.gvintNext := rfl
@[simp] theorem State.updGroup_gvLast (gid : Nat) (f : Group → Group) : (s.updGroup gid f).gvLast = s.gvLast := rfl
@[simp] theorem State.updGroup_gvBound (gid : Nat) (f : Group → Group) : (s.updGroup gid f).gvBound = s.gvBound := rfl
@[simp] theorem State.updGroup_gvFirst (gid : Nat) (f : Group → Group) : (s.updGroup gid f).gvFirst = s.gvFirst := rfl
@[simp] theorem State.updGroup_gvTaken (gid : Nat) (f : Group → Group) : (s.updGroup gid f).gvTaken = s.gvTaken := rfl
@[simp] theorem State.updGroup_fabric (gid : Nat) (f : Group → Group) : (s.updGroup gid f).fabric = s.fabric := rfl
@[simp] theorem State.updGroup_host (gid : Nat) (f : Group → Group) : (s.updGroup gid f).host = s.host := rfl
@[simp] theorem State.updGroup_sec (gid : Nat) (f : Group → Group) : (s.updGroup gid f).sec = s.sec := rfl

/-! ### Rewriting a group, saved or not -/

@[simp] theorem State.updAny_now (gid : Nat) (f : Group → Group) : (s.updAny gid f).now = s.now := rfl
@[simp] theorem State.updAny_tick (gid : Nat) (f : Group → Group) : (s.updAny gid f).tick = s.tick := rfl
@[simp] theorem State.updAny_serial (gid : Nat) (f : Group → Group) : (s.updAny gid f).serial = s.serial := rfl
@[simp] theorem State.updAny_inputs (gid : Nat) (f : Group → Group) : (s.updAny gid f).inputs = s.inputs := rfl
@[simp] theorem State.updAny_mem (gid : Nat) (f : Group → Group) : (s.updAny gid f).mem = s.mem := rfl
@[simp] theorem State.updAny_cur (gid : Nat) (f : Group → Group) : (s.updAny gid f).cur = s.cur := rfl
@[simp] theorem State.updAny_cores (gid : Nat) (f : Group → Group) : (s.updAny gid f).cores = s.cores := rfl
@[simp] theorem State.updAny_ctxs (gid : Nat) (f : Group → Group) : (s.updAny gid f).ctxs = s.ctxs := rfl
@[simp] theorem State.updAny_clusters (gid : Nat) (f : Group → Group) : (s.updAny gid f).clusters = s.clusters := rfl
@[simp] theorem State.updAny_crozs (gid : Nat) (f : Group → Group) : (s.updAny gid f).crozs = s.crozs := rfl
@[simp] theorem State.updAny_ops (gid : Nat) (f : Group → Group) : (s.updAny gid f).ops = s.ops := rfl
@[simp] theorem State.updAny_reqs (gid : Nat) (f : Group → Group) : (s.updAny gid f).reqs = s.reqs := rfl
@[simp] theorem State.updAny_replies (gid : Nat) (f : Group → Group) : (s.updAny gid f).replies = s.replies := rfl
@[simp] theorem State.updAny_echoes (gid : Nat) (f : Group → Group) : (s.updAny gid f).echoes = s.echoes := rfl
@[simp] theorem State.updAny_monitors (gid : Nat) (f : Group → Group) : (s.updAny gid f).monitors = s.monitors := rfl
@[simp] theorem State.updAny_notices (gid : Nat) (f : Group → Group) : (s.updAny gid f).notices = s.notices := rfl
@[simp] theorem State.updAny_due (gid : Nat) (f : Group → Group) : (s.updAny gid f).due = s.due := rfl
@[simp] theorem State.updAny_l2 (gid : Nat) (f : Group → Group) : (s.updAny gid f).l2 = s.l2 := rfl
@[simp] theorem State.updAny_touches (gid : Nat) (f : Group → Group) : (s.updAny gid f).touches = s.touches := rfl
@[simp] theorem State.updAny_bad (gid : Nat) (f : Group → Group) : (s.updAny gid f).bad = s.bad := rfl
@[simp] theorem State.updAny_disturbed (gid : Nat) (f : Group → Group) : (s.updAny gid f).disturbed = s.disturbed := rfl
@[simp] theorem State.updAny_told (gid : Nat) (f : Group → Group) : (s.updAny gid f).told = s.told := rfl
@[simp] theorem State.updAny_unlocked (gid : Nat) (f : Group → Group) : (s.updAny gid f).unlocked = s.unlocked := rfl
@[simp] theorem State.updAny_stlb (gid : Nat) (f : Group → Group) : (s.updAny gid f).stlb = s.stlb := rfl
@[simp] theorem State.updAny_gvintlen (gid : Nat) (f : Group → Group) : (s.updAny gid f).gvintlen = s.gvintlen := rfl
@[simp] theorem State.updAny_gvintNext (gid : Nat) (f : Group → Group) : (s.updAny gid f).gvintNext = s.gvintNext := rfl
@[simp] theorem State.updAny_gvLast (gid : Nat) (f : Group → Group) : (s.updAny gid f).gvLast = s.gvLast := rfl
@[simp] theorem State.updAny_gvBound (gid : Nat) (f : Group → Group) : (s.updAny gid f).gvBound = s.gvBound := rfl
@[simp] theorem State.updAny_gvFirst (gid : Nat) (f : Group → Group) : (s.updAny gid f).gvFirst = s.gvFirst := rfl
@[simp] theorem State.updAny_gvTaken (gid : Nat) (f : Group → Group) : (s.updAny gid f).gvTaken = s.gvTaken := rfl
@[simp] theorem State.updAny_fabric (gid : Nat) (f : Group → Group) : (s.updAny gid f).fabric = s.fabric := rfl
@[simp] theorem State.updAny_host (gid : Nat) (f : Group → Group) : (s.updAny gid f).host = s.host := rfl
@[simp] theorem State.updAny_sec (gid : Nat) (f : Group → Group) : (s.updAny gid f).sec = s.sec := rfl

/-! ### Rewriting a team -/

@[simp] theorem State.updTeam_now (tid : Nat) (f : Team → Team) : (s.updTeam tid f).now = s.now := rfl
@[simp] theorem State.updTeam_tick (tid : Nat) (f : Team → Team) : (s.updTeam tid f).tick = s.tick := rfl
@[simp] theorem State.updTeam_serial (tid : Nat) (f : Team → Team) : (s.updTeam tid f).serial = s.serial := rfl
@[simp] theorem State.updTeam_inputs (tid : Nat) (f : Team → Team) : (s.updTeam tid f).inputs = s.inputs := rfl
@[simp] theorem State.updTeam_mem (tid : Nat) (f : Team → Team) : (s.updTeam tid f).mem = s.mem := rfl
@[simp] theorem State.updTeam_cur (tid : Nat) (f : Team → Team) : (s.updTeam tid f).cur = s.cur := rfl
@[simp] theorem State.updTeam_groups (tid : Nat) (f : Team → Team) : (s.updTeam tid f).groups = s.groups := rfl
@[simp] theorem State.updTeam_cores (tid : Nat) (f : Team → Team) : (s.updTeam tid f).cores = s.cores := rfl
@[simp] theorem State.updTeam_ctxs (tid : Nat) (f : Team → Team) : (s.updTeam tid f).ctxs = s.ctxs := rfl
@[simp] theorem State.updTeam_clusters (tid : Nat) (f : Team → Team) : (s.updTeam tid f).clusters = s.clusters := rfl
@[simp] theorem State.updTeam_crozs (tid : Nat) (f : Team → Team) : (s.updTeam tid f).crozs = s.crozs := rfl
@[simp] theorem State.updTeam_ops (tid : Nat) (f : Team → Team) : (s.updTeam tid f).ops = s.ops := rfl
@[simp] theorem State.updTeam_reqs (tid : Nat) (f : Team → Team) : (s.updTeam tid f).reqs = s.reqs := rfl
@[simp] theorem State.updTeam_replies (tid : Nat) (f : Team → Team) : (s.updTeam tid f).replies = s.replies := rfl
@[simp] theorem State.updTeam_echoes (tid : Nat) (f : Team → Team) : (s.updTeam tid f).echoes = s.echoes := rfl
@[simp] theorem State.updTeam_monitors (tid : Nat) (f : Team → Team) : (s.updTeam tid f).monitors = s.monitors := rfl
@[simp] theorem State.updTeam_notices (tid : Nat) (f : Team → Team) : (s.updTeam tid f).notices = s.notices := rfl
@[simp] theorem State.updTeam_due (tid : Nat) (f : Team → Team) : (s.updTeam tid f).due = s.due := rfl
@[simp] theorem State.updTeam_l2 (tid : Nat) (f : Team → Team) : (s.updTeam tid f).l2 = s.l2 := rfl
@[simp] theorem State.updTeam_touches (tid : Nat) (f : Team → Team) : (s.updTeam tid f).touches = s.touches := rfl
@[simp] theorem State.updTeam_bad (tid : Nat) (f : Team → Team) : (s.updTeam tid f).bad = s.bad := rfl
@[simp] theorem State.updTeam_disturbed (tid : Nat) (f : Team → Team) : (s.updTeam tid f).disturbed = s.disturbed := rfl
@[simp] theorem State.updTeam_told (tid : Nat) (f : Team → Team) : (s.updTeam tid f).told = s.told := rfl
@[simp] theorem State.updTeam_unlocked (tid : Nat) (f : Team → Team) : (s.updTeam tid f).unlocked = s.unlocked := rfl
@[simp] theorem State.updTeam_stlb (tid : Nat) (f : Team → Team) : (s.updTeam tid f).stlb = s.stlb := rfl
@[simp] theorem State.updTeam_gvintlen (tid : Nat) (f : Team → Team) : (s.updTeam tid f).gvintlen = s.gvintlen := rfl
@[simp] theorem State.updTeam_gvintNext (tid : Nat) (f : Team → Team) : (s.updTeam tid f).gvintNext = s.gvintNext := rfl
@[simp] theorem State.updTeam_gvLast (tid : Nat) (f : Team → Team) : (s.updTeam tid f).gvLast = s.gvLast := rfl
@[simp] theorem State.updTeam_gvBound (tid : Nat) (f : Team → Team) : (s.updTeam tid f).gvBound = s.gvBound := rfl
@[simp] theorem State.updTeam_gvFirst (tid : Nat) (f : Team → Team) : (s.updTeam tid f).gvFirst = s.gvFirst := rfl
@[simp] theorem State.updTeam_gvTaken (tid : Nat) (f : Team → Team) : (s.updTeam tid f).gvTaken = s.gvTaken := rfl
@[simp] theorem State.updTeam_fabric (tid : Nat) (f : Team → Team) : (s.updTeam tid f).fabric = s.fabric := rfl
@[simp] theorem State.updTeam_host (tid : Nat) (f : Team → Team) : (s.updTeam tid f).host = s.host := rfl
@[simp] theorem State.updTeam_sec (tid : Nat) (f : Team → Team) : (s.updTeam tid f).sec = s.sec := rfl

/-! ### Rewriting an operation -/

@[simp] theorem State.updOp_now (id : Nat) (f : Op → Op) : (s.updOp id f).now = s.now := rfl
@[simp] theorem State.updOp_tick (id : Nat) (f : Op → Op) : (s.updOp id f).tick = s.tick := rfl
@[simp] theorem State.updOp_serial (id : Nat) (f : Op → Op) : (s.updOp id f).serial = s.serial := rfl
@[simp] theorem State.updOp_inputs (id : Nat) (f : Op → Op) : (s.updOp id f).inputs = s.inputs := rfl
@[simp] theorem State.updOp_mem (id : Nat) (f : Op → Op) : (s.updOp id f).mem = s.mem := rfl
@[simp] theorem State.updOp_cur (id : Nat) (f : Op → Op) : (s.updOp id f).cur = s.cur := rfl
@[simp] theorem State.updOp_groups (id : Nat) (f : Op → Op) : (s.updOp id f).groups = s.groups := rfl
@[simp] theorem State.updOp_teams (id : Nat) (f : Op → Op) : (s.updOp id f).teams = s.teams := rfl
@[simp] theorem State.updOp_cores (id : Nat) (f : Op → Op) : (s.updOp id f).cores = s.cores := rfl
@[simp] theorem State.updOp_ctxs (id : Nat) (f : Op → Op) : (s.updOp id f).ctxs = s.ctxs := rfl
@[simp] theorem State.updOp_clusters (id : Nat) (f : Op → Op) : (s.updOp id f).clusters = s.clusters := rfl
@[simp] theorem State.updOp_crozs (id : Nat) (f : Op → Op) : (s.updOp id f).crozs = s.crozs := rfl
@[simp] theorem State.updOp_reqs (id : Nat) (f : Op → Op) : (s.updOp id f).reqs = s.reqs := rfl
@[simp] theorem State.updOp_replies (id : Nat) (f : Op → Op) : (s.updOp id f).replies = s.replies := rfl
@[simp] theorem State.updOp_echoes (id : Nat) (f : Op → Op) : (s.updOp id f).echoes = s.echoes := rfl
@[simp] theorem State.updOp_monitors (id : Nat) (f : Op → Op) : (s.updOp id f).monitors = s.monitors := rfl
@[simp] theorem State.updOp_notices (id : Nat) (f : Op → Op) : (s.updOp id f).notices = s.notices := rfl
@[simp] theorem State.updOp_due (id : Nat) (f : Op → Op) : (s.updOp id f).due = s.due := rfl
@[simp] theorem State.updOp_l2 (id : Nat) (f : Op → Op) : (s.updOp id f).l2 = s.l2 := rfl
@[simp] theorem State.updOp_touches (id : Nat) (f : Op → Op) : (s.updOp id f).touches = s.touches := rfl
@[simp] theorem State.updOp_bad (id : Nat) (f : Op → Op) : (s.updOp id f).bad = s.bad := rfl
@[simp] theorem State.updOp_disturbed (id : Nat) (f : Op → Op) : (s.updOp id f).disturbed = s.disturbed := rfl
@[simp] theorem State.updOp_told (id : Nat) (f : Op → Op) : (s.updOp id f).told = s.told := rfl
@[simp] theorem State.updOp_unlocked (id : Nat) (f : Op → Op) : (s.updOp id f).unlocked = s.unlocked := rfl
@[simp] theorem State.updOp_stlb (id : Nat) (f : Op → Op) : (s.updOp id f).stlb = s.stlb := rfl
@[simp] theorem State.updOp_gvintlen (id : Nat) (f : Op → Op) : (s.updOp id f).gvintlen = s.gvintlen := rfl
@[simp] theorem State.updOp_gvintNext (id : Nat) (f : Op → Op) : (s.updOp id f).gvintNext = s.gvintNext := rfl
@[simp] theorem State.updOp_gvLast (id : Nat) (f : Op → Op) : (s.updOp id f).gvLast = s.gvLast := rfl
@[simp] theorem State.updOp_gvBound (id : Nat) (f : Op → Op) : (s.updOp id f).gvBound = s.gvBound := rfl
@[simp] theorem State.updOp_gvFirst (id : Nat) (f : Op → Op) : (s.updOp id f).gvFirst = s.gvFirst := rfl
@[simp] theorem State.updOp_gvTaken (id : Nat) (f : Op → Op) : (s.updOp id f).gvTaken = s.gvTaken := rfl
@[simp] theorem State.updOp_fabric (id : Nat) (f : Op → Op) : (s.updOp id f).fabric = s.fabric := rfl
@[simp] theorem State.updOp_host (id : Nat) (f : Op → Op) : (s.updOp id f).host = s.host := rfl
@[simp] theorem State.updOp_sec (id : Nat) (f : Op → Op) : (s.updOp id f).sec = s.sec := rfl

/-! ### Rewriting a core -/

@[simp] theorem State.updCore_now (c : Nat) (f : Core → Core) : (s.updCore c f).now = s.now := rfl
@[simp] theorem State.updCore_tick (c : Nat) (f : Core → Core) : (s.updCore c f).tick = s.tick := rfl
@[simp] theorem State.updCore_serial (c : Nat) (f : Core → Core) : (s.updCore c f).serial = s.serial := rfl
@[simp] theorem State.updCore_inputs (c : Nat) (f : Core → Core) : (s.updCore c f).inputs = s.inputs := rfl
@[simp] theorem State.updCore_mem (c : Nat) (f : Core → Core) : (s.updCore c f).mem = s.mem := rfl
@[simp] theorem State.updCore_cur (c : Nat) (f : Core → Core) : (s.updCore c f).cur = s.cur := rfl
@[simp] theorem State.updCore_groups (c : Nat) (f : Core → Core) : (s.updCore c f).groups = s.groups := rfl
@[simp] theorem State.updCore_teams (c : Nat) (f : Core → Core) : (s.updCore c f).teams = s.teams := rfl
@[simp] theorem State.updCore_ctxs (c : Nat) (f : Core → Core) : (s.updCore c f).ctxs = s.ctxs := rfl
@[simp] theorem State.updCore_clusters (c : Nat) (f : Core → Core) : (s.updCore c f).clusters = s.clusters := rfl
@[simp] theorem State.updCore_crozs (c : Nat) (f : Core → Core) : (s.updCore c f).crozs = s.crozs := rfl
@[simp] theorem State.updCore_ops (c : Nat) (f : Core → Core) : (s.updCore c f).ops = s.ops := rfl
@[simp] theorem State.updCore_reqs (c : Nat) (f : Core → Core) : (s.updCore c f).reqs = s.reqs := rfl
@[simp] theorem State.updCore_replies (c : Nat) (f : Core → Core) : (s.updCore c f).replies = s.replies := rfl
@[simp] theorem State.updCore_echoes (c : Nat) (f : Core → Core) : (s.updCore c f).echoes = s.echoes := rfl
@[simp] theorem State.updCore_monitors (c : Nat) (f : Core → Core) : (s.updCore c f).monitors = s.monitors := rfl
@[simp] theorem State.updCore_notices (c : Nat) (f : Core → Core) : (s.updCore c f).notices = s.notices := rfl
@[simp] theorem State.updCore_due (c : Nat) (f : Core → Core) : (s.updCore c f).due = s.due := rfl
@[simp] theorem State.updCore_l2 (c : Nat) (f : Core → Core) : (s.updCore c f).l2 = s.l2 := rfl
@[simp] theorem State.updCore_touches (c : Nat) (f : Core → Core) : (s.updCore c f).touches = s.touches := rfl
@[simp] theorem State.updCore_bad (c : Nat) (f : Core → Core) : (s.updCore c f).bad = s.bad := rfl
@[simp] theorem State.updCore_disturbed (c : Nat) (f : Core → Core) : (s.updCore c f).disturbed = s.disturbed := rfl
@[simp] theorem State.updCore_told (c : Nat) (f : Core → Core) : (s.updCore c f).told = s.told := rfl
@[simp] theorem State.updCore_unlocked (c : Nat) (f : Core → Core) : (s.updCore c f).unlocked = s.unlocked := rfl
@[simp] theorem State.updCore_stlb (c : Nat) (f : Core → Core) : (s.updCore c f).stlb = s.stlb := rfl
@[simp] theorem State.updCore_gvintlen (c : Nat) (f : Core → Core) : (s.updCore c f).gvintlen = s.gvintlen := rfl
@[simp] theorem State.updCore_gvintNext (c : Nat) (f : Core → Core) : (s.updCore c f).gvintNext = s.gvintNext := rfl
@[simp] theorem State.updCore_gvLast (c : Nat) (f : Core → Core) : (s.updCore c f).gvLast = s.gvLast := rfl
@[simp] theorem State.updCore_gvBound (c : Nat) (f : Core → Core) : (s.updCore c f).gvBound = s.gvBound := rfl
@[simp] theorem State.updCore_gvFirst (c : Nat) (f : Core → Core) : (s.updCore c f).gvFirst = s.gvFirst := rfl
@[simp] theorem State.updCore_gvTaken (c : Nat) (f : Core → Core) : (s.updCore c f).gvTaken = s.gvTaken := rfl
@[simp] theorem State.updCore_fabric (c : Nat) (f : Core → Core) : (s.updCore c f).fabric = s.fabric := rfl
@[simp] theorem State.updCore_host (c : Nat) (f : Core → Core) : (s.updCore c f).host = s.host := rfl
@[simp] theorem State.updCore_sec (c : Nat) (f : Core → Core) : (s.updCore c f).sec = s.sec := rfl

/-! ### Rewriting a context -/

@[simp] theorem State.updCtx_now (a : Nat) (f : Ctx → Ctx) : (s.updCtx a f).now = s.now := rfl
@[simp] theorem State.updCtx_tick (a : Nat) (f : Ctx → Ctx) : (s.updCtx a f).tick = s.tick := rfl
@[simp] theorem State.updCtx_serial (a : Nat) (f : Ctx → Ctx) : (s.updCtx a f).serial = s.serial := rfl
@[simp] theorem State.updCtx_inputs (a : Nat) (f : Ctx → Ctx) : (s.updCtx a f).inputs = s.inputs := rfl
@[simp] theorem State.updCtx_mem (a : Nat) (f : Ctx → Ctx) : (s.updCtx a f).mem = s.mem := rfl
@[simp] theorem State.updCtx_cur (a : Nat) (f : Ctx → Ctx) : (s.updCtx a f).cur = s.cur := rfl
@[simp] theorem State.updCtx_groups (a : Nat) (f : Ctx → Ctx) : (s.updCtx a f).groups = s.groups := rfl
@[simp] theorem State.updCtx_teams (a : Nat) (f : Ctx → Ctx) : (s.updCtx a f).teams = s.teams := rfl
@[simp] theorem State.updCtx_cores (a : Nat) (f : Ctx → Ctx) : (s.updCtx a f).cores = s.cores := rfl
@[simp] theorem State.updCtx_clusters (a : Nat) (f : Ctx → Ctx) : (s.updCtx a f).clusters = s.clusters := rfl
@[simp] theorem State.updCtx_crozs (a : Nat) (f : Ctx → Ctx) : (s.updCtx a f).crozs = s.crozs := rfl
@[simp] theorem State.updCtx_ops (a : Nat) (f : Ctx → Ctx) : (s.updCtx a f).ops = s.ops := rfl
@[simp] theorem State.updCtx_reqs (a : Nat) (f : Ctx → Ctx) : (s.updCtx a f).reqs = s.reqs := rfl
@[simp] theorem State.updCtx_replies (a : Nat) (f : Ctx → Ctx) : (s.updCtx a f).replies = s.replies := rfl
@[simp] theorem State.updCtx_echoes (a : Nat) (f : Ctx → Ctx) : (s.updCtx a f).echoes = s.echoes := rfl
@[simp] theorem State.updCtx_monitors (a : Nat) (f : Ctx → Ctx) : (s.updCtx a f).monitors = s.monitors := rfl
@[simp] theorem State.updCtx_notices (a : Nat) (f : Ctx → Ctx) : (s.updCtx a f).notices = s.notices := rfl
@[simp] theorem State.updCtx_due (a : Nat) (f : Ctx → Ctx) : (s.updCtx a f).due = s.due := rfl
@[simp] theorem State.updCtx_l2 (a : Nat) (f : Ctx → Ctx) : (s.updCtx a f).l2 = s.l2 := rfl
@[simp] theorem State.updCtx_touches (a : Nat) (f : Ctx → Ctx) : (s.updCtx a f).touches = s.touches := rfl
@[simp] theorem State.updCtx_bad (a : Nat) (f : Ctx → Ctx) : (s.updCtx a f).bad = s.bad := rfl
@[simp] theorem State.updCtx_disturbed (a : Nat) (f : Ctx → Ctx) : (s.updCtx a f).disturbed = s.disturbed := rfl
@[simp] theorem State.updCtx_told (a : Nat) (f : Ctx → Ctx) : (s.updCtx a f).told = s.told := rfl
@[simp] theorem State.updCtx_unlocked (a : Nat) (f : Ctx → Ctx) : (s.updCtx a f).unlocked = s.unlocked := rfl
@[simp] theorem State.updCtx_stlb (a : Nat) (f : Ctx → Ctx) : (s.updCtx a f).stlb = s.stlb := rfl
@[simp] theorem State.updCtx_gvintlen (a : Nat) (f : Ctx → Ctx) : (s.updCtx a f).gvintlen = s.gvintlen := rfl
@[simp] theorem State.updCtx_gvintNext (a : Nat) (f : Ctx → Ctx) : (s.updCtx a f).gvintNext = s.gvintNext := rfl
@[simp] theorem State.updCtx_gvLast (a : Nat) (f : Ctx → Ctx) : (s.updCtx a f).gvLast = s.gvLast := rfl
@[simp] theorem State.updCtx_gvBound (a : Nat) (f : Ctx → Ctx) : (s.updCtx a f).gvBound = s.gvBound := rfl
@[simp] theorem State.updCtx_gvFirst (a : Nat) (f : Ctx → Ctx) : (s.updCtx a f).gvFirst = s.gvFirst := rfl
@[simp] theorem State.updCtx_gvTaken (a : Nat) (f : Ctx → Ctx) : (s.updCtx a f).gvTaken = s.gvTaken := rfl
@[simp] theorem State.updCtx_fabric (a : Nat) (f : Ctx → Ctx) : (s.updCtx a f).fabric = s.fabric := rfl
@[simp] theorem State.updCtx_host (a : Nat) (f : Ctx → Ctx) : (s.updCtx a f).host = s.host := rfl
@[simp] theorem State.updCtx_sec (a : Nat) (f : Ctx → Ctx) : (s.updCtx a f).sec = s.sec := rfl

/-! ### Rewriting a cluster -/

@[simp] theorem State.updCluster_now (c : Nat) (f : Cluster → Cluster) : (s.updCluster c f).now = s.now := rfl
@[simp] theorem State.updCluster_tick (c : Nat) (f : Cluster → Cluster) : (s.updCluster c f).tick = s.tick := rfl
@[simp] theorem State.updCluster_serial (c : Nat) (f : Cluster → Cluster) : (s.updCluster c f).serial = s.serial := rfl
@[simp] theorem State.updCluster_inputs (c : Nat) (f : Cluster → Cluster) : (s.updCluster c f).inputs = s.inputs := rfl
@[simp] theorem State.updCluster_mem (c : Nat) (f : Cluster → Cluster) : (s.updCluster c f).mem = s.mem := rfl
@[simp] theorem State.updCluster_cur (c : Nat) (f : Cluster → Cluster) : (s.updCluster c f).cur = s.cur := rfl
@[simp] theorem State.updCluster_groups (c : Nat) (f : Cluster → Cluster) : (s.updCluster c f).groups = s.groups := rfl
@[simp] theorem State.updCluster_teams (c : Nat) (f : Cluster → Cluster) : (s.updCluster c f).teams = s.teams := rfl
@[simp] theorem State.updCluster_cores (c : Nat) (f : Cluster → Cluster) : (s.updCluster c f).cores = s.cores := rfl
@[simp] theorem State.updCluster_ctxs (c : Nat) (f : Cluster → Cluster) : (s.updCluster c f).ctxs = s.ctxs := rfl
@[simp] theorem State.updCluster_crozs (c : Nat) (f : Cluster → Cluster) : (s.updCluster c f).crozs = s.crozs := rfl
@[simp] theorem State.updCluster_ops (c : Nat) (f : Cluster → Cluster) : (s.updCluster c f).ops = s.ops := rfl
@[simp] theorem State.updCluster_reqs (c : Nat) (f : Cluster → Cluster) : (s.updCluster c f).reqs = s.reqs := rfl
@[simp] theorem State.updCluster_replies (c : Nat) (f : Cluster → Cluster) : (s.updCluster c f).replies = s.replies := rfl
@[simp] theorem State.updCluster_echoes (c : Nat) (f : Cluster → Cluster) : (s.updCluster c f).echoes = s.echoes := rfl
@[simp] theorem State.updCluster_monitors (c : Nat) (f : Cluster → Cluster) : (s.updCluster c f).monitors = s.monitors := rfl
@[simp] theorem State.updCluster_notices (c : Nat) (f : Cluster → Cluster) : (s.updCluster c f).notices = s.notices := rfl
@[simp] theorem State.updCluster_due (c : Nat) (f : Cluster → Cluster) : (s.updCluster c f).due = s.due := rfl
@[simp] theorem State.updCluster_l2 (c : Nat) (f : Cluster → Cluster) : (s.updCluster c f).l2 = s.l2 := rfl
@[simp] theorem State.updCluster_touches (c : Nat) (f : Cluster → Cluster) : (s.updCluster c f).touches = s.touches := rfl
@[simp] theorem State.updCluster_bad (c : Nat) (f : Cluster → Cluster) : (s.updCluster c f).bad = s.bad := rfl
@[simp] theorem State.updCluster_disturbed (c : Nat) (f : Cluster → Cluster) : (s.updCluster c f).disturbed = s.disturbed := rfl
@[simp] theorem State.updCluster_told (c : Nat) (f : Cluster → Cluster) : (s.updCluster c f).told = s.told := rfl
@[simp] theorem State.updCluster_unlocked (c : Nat) (f : Cluster → Cluster) : (s.updCluster c f).unlocked = s.unlocked := rfl
@[simp] theorem State.updCluster_stlb (c : Nat) (f : Cluster → Cluster) : (s.updCluster c f).stlb = s.stlb := rfl
@[simp] theorem State.updCluster_gvintlen (c : Nat) (f : Cluster → Cluster) : (s.updCluster c f).gvintlen = s.gvintlen := rfl
@[simp] theorem State.updCluster_gvintNext (c : Nat) (f : Cluster → Cluster) : (s.updCluster c f).gvintNext = s.gvintNext := rfl
@[simp] theorem State.updCluster_gvLast (c : Nat) (f : Cluster → Cluster) : (s.updCluster c f).gvLast = s.gvLast := rfl
@[simp] theorem State.updCluster_gvBound (c : Nat) (f : Cluster → Cluster) : (s.updCluster c f).gvBound = s.gvBound := rfl
@[simp] theorem State.updCluster_gvFirst (c : Nat) (f : Cluster → Cluster) : (s.updCluster c f).gvFirst = s.gvFirst := rfl
@[simp] theorem State.updCluster_gvTaken (c : Nat) (f : Cluster → Cluster) : (s.updCluster c f).gvTaken = s.gvTaken := rfl
@[simp] theorem State.updCluster_fabric (c : Nat) (f : Cluster → Cluster) : (s.updCluster c f).fabric = s.fabric := rfl
@[simp] theorem State.updCluster_host (c : Nat) (f : Cluster → Cluster) : (s.updCluster c f).host = s.host := rfl
@[simp] theorem State.updCluster_sec (c : Nat) (f : Cluster → Cluster) : (s.updCluster c f).sec = s.sec := rfl

/-! ### Rewriting a die's Crozier -/

@[simp] theorem State.updCroz_now (d : Nat) (f : Croz → Croz) : (s.updCroz d f).now = s.now := rfl
@[simp] theorem State.updCroz_tick (d : Nat) (f : Croz → Croz) : (s.updCroz d f).tick = s.tick := rfl
@[simp] theorem State.updCroz_serial (d : Nat) (f : Croz → Croz) : (s.updCroz d f).serial = s.serial := rfl
@[simp] theorem State.updCroz_inputs (d : Nat) (f : Croz → Croz) : (s.updCroz d f).inputs = s.inputs := rfl
@[simp] theorem State.updCroz_mem (d : Nat) (f : Croz → Croz) : (s.updCroz d f).mem = s.mem := rfl
@[simp] theorem State.updCroz_cur (d : Nat) (f : Croz → Croz) : (s.updCroz d f).cur = s.cur := rfl
@[simp] theorem State.updCroz_groups (d : Nat) (f : Croz → Croz) : (s.updCroz d f).groups = s.groups := rfl
@[simp] theorem State.updCroz_teams (d : Nat) (f : Croz → Croz) : (s.updCroz d f).teams = s.teams := rfl
@[simp] theorem State.updCroz_cores (d : Nat) (f : Croz → Croz) : (s.updCroz d f).cores = s.cores := rfl
@[simp] theorem State.updCroz_ctxs (d : Nat) (f : Croz → Croz) : (s.updCroz d f).ctxs = s.ctxs := rfl
@[simp] theorem State.updCroz_clusters (d : Nat) (f : Croz → Croz) : (s.updCroz d f).clusters = s.clusters := rfl
@[simp] theorem State.updCroz_ops (d : Nat) (f : Croz → Croz) : (s.updCroz d f).ops = s.ops := rfl
@[simp] theorem State.updCroz_reqs (d : Nat) (f : Croz → Croz) : (s.updCroz d f).reqs = s.reqs := rfl
@[simp] theorem State.updCroz_replies (d : Nat) (f : Croz → Croz) : (s.updCroz d f).replies = s.replies := rfl
@[simp] theorem State.updCroz_echoes (d : Nat) (f : Croz → Croz) : (s.updCroz d f).echoes = s.echoes := rfl
@[simp] theorem State.updCroz_monitors (d : Nat) (f : Croz → Croz) : (s.updCroz d f).monitors = s.monitors := rfl
@[simp] theorem State.updCroz_notices (d : Nat) (f : Croz → Croz) : (s.updCroz d f).notices = s.notices := rfl
@[simp] theorem State.updCroz_due (d : Nat) (f : Croz → Croz) : (s.updCroz d f).due = s.due := rfl
@[simp] theorem State.updCroz_l2 (d : Nat) (f : Croz → Croz) : (s.updCroz d f).l2 = s.l2 := rfl
@[simp] theorem State.updCroz_touches (d : Nat) (f : Croz → Croz) : (s.updCroz d f).touches = s.touches := rfl
@[simp] theorem State.updCroz_bad (d : Nat) (f : Croz → Croz) : (s.updCroz d f).bad = s.bad := rfl
@[simp] theorem State.updCroz_disturbed (d : Nat) (f : Croz → Croz) : (s.updCroz d f).disturbed = s.disturbed := rfl
@[simp] theorem State.updCroz_told (d : Nat) (f : Croz → Croz) : (s.updCroz d f).told = s.told := rfl
@[simp] theorem State.updCroz_unlocked (d : Nat) (f : Croz → Croz) : (s.updCroz d f).unlocked = s.unlocked := rfl
@[simp] theorem State.updCroz_stlb (d : Nat) (f : Croz → Croz) : (s.updCroz d f).stlb = s.stlb := rfl
@[simp] theorem State.updCroz_gvintlen (d : Nat) (f : Croz → Croz) : (s.updCroz d f).gvintlen = s.gvintlen := rfl
@[simp] theorem State.updCroz_gvintNext (d : Nat) (f : Croz → Croz) : (s.updCroz d f).gvintNext = s.gvintNext := rfl
@[simp] theorem State.updCroz_gvLast (d : Nat) (f : Croz → Croz) : (s.updCroz d f).gvLast = s.gvLast := rfl
@[simp] theorem State.updCroz_gvBound (d : Nat) (f : Croz → Croz) : (s.updCroz d f).gvBound = s.gvBound := rfl
@[simp] theorem State.updCroz_gvFirst (d : Nat) (f : Croz → Croz) : (s.updCroz d f).gvFirst = s.gvFirst := rfl
@[simp] theorem State.updCroz_gvTaken (d : Nat) (f : Croz → Croz) : (s.updCroz d f).gvTaken = s.gvTaken := rfl
@[simp] theorem State.updCroz_fabric (d : Nat) (f : Croz → Croz) : (s.updCroz d f).fabric = s.fabric := rfl
@[simp] theorem State.updCroz_host (d : Nat) (f : Croz → Croz) : (s.updCroz d f).host = s.host := rfl
@[simp] theorem State.updCroz_sec (d : Nat) (f : Croz → Croz) : (s.updCroz d f).sec = s.sec := rfl

/-! ### Time -/

@[simp] theorem State.passTime_serial : s.passTime.serial = s.serial := rfl
@[simp] theorem State.passTime_inputs : s.passTime.inputs = s.inputs := rfl
@[simp] theorem State.passTime_mem : s.passTime.mem = s.mem := rfl
@[simp] theorem State.passTime_cur : s.passTime.cur = s.cur := rfl
@[simp] theorem State.passTime_groups : s.passTime.groups = s.groups := rfl
@[simp] theorem State.passTime_teams : s.passTime.teams = s.teams := rfl
@[simp] theorem State.passTime_cores : s.passTime.cores = s.cores := rfl
@[simp] theorem State.passTime_ctxs : s.passTime.ctxs = s.ctxs := rfl
@[simp] theorem State.passTime_crozs : s.passTime.crozs = s.crozs := rfl
@[simp] theorem State.passTime_ops : s.passTime.ops = s.ops := rfl
@[simp] theorem State.passTime_reqs : s.passTime.reqs = s.reqs := rfl
@[simp] theorem State.passTime_replies : s.passTime.replies = s.replies := rfl
@[simp] theorem State.passTime_echoes : s.passTime.echoes = s.echoes := rfl
@[simp] theorem State.passTime_monitors : s.passTime.monitors = s.monitors := rfl
@[simp] theorem State.passTime_notices : s.passTime.notices = s.notices := rfl
@[simp] theorem State.passTime_due : s.passTime.due = s.due := rfl
@[simp] theorem State.passTime_l2 : s.passTime.l2 = s.l2 := rfl
@[simp] theorem State.passTime_touches : s.passTime.touches = s.touches := rfl
@[simp] theorem State.passTime_bad : s.passTime.bad = s.bad := rfl
@[simp] theorem State.passTime_disturbed : s.passTime.disturbed = s.disturbed := rfl
@[simp] theorem State.passTime_told : s.passTime.told = s.told := rfl
@[simp] theorem State.passTime_unlocked : s.passTime.unlocked = s.unlocked := rfl
@[simp] theorem State.passTime_stlb : s.passTime.stlb = s.stlb := rfl
@[simp] theorem State.passTime_gvintlen : s.passTime.gvintlen = s.gvintlen := rfl
@[simp] theorem State.passTime_gvintNext : s.passTime.gvintNext = s.gvintNext := rfl
@[simp] theorem State.passTime_gvLast : s.passTime.gvLast = s.gvLast := rfl
@[simp] theorem State.passTime_gvBound : s.passTime.gvBound = s.gvBound := rfl
@[simp] theorem State.passTime_gvFirst : s.passTime.gvFirst = s.gvFirst := rfl
@[simp] theorem State.passTime_gvTaken : s.passTime.gvTaken = s.gvTaken := rfl
@[simp] theorem State.passTime_fabric : s.passTime.fabric = s.fabric := rfl
@[simp] theorem State.passTime_host : s.passTime.host = s.host := rfl
@[simp] theorem State.passTime_sec : s.passTime.sec = s.sec := rfl

/-! ### Finding what was rewritten -/

/-- A group found after a rewriting that keeps numbers. -/
theorem State.updGroup_group? (gid n : Nat) (f : Group → Group) (hf : ∀ g, (f g).gid = g.gid) :
    (s.updGroup gid f).group? n = (s.group? n).map fun g => if g.gid = gid then f g else g := by
  simp only [State.group?, State.updGroup, List.find?_map]
  congr 2
  funext g
  simp only [Function.comp_apply]
  split <;> simp [hf]

/-- A team found after a rewriting that keeps numbers. -/
theorem State.updTeam_team? (tid n : Nat) (f : Team → Team) (hf : ∀ t, (f t).tid = t.tid) :
    (s.updTeam tid f).team? n = (s.team? n).map fun t => if t.tid = tid then f t else t := by
  simp only [State.team?, State.updTeam, List.find?_map]
  congr 2
  funext t
  simp only [Function.comp_apply]
  split <;> simp [hf]

end Sys2Proof.Machine
end

