-- ==== Sys2Proof/Laws/Line.lean ====
section
/-!
SUPPORT. What filling, evicting and reading at a home may change: lines and forwarding entries of the slices, the
clusters' counters, sectors known to be bad, and the choices made; never memory, groups, teams or operations.
-/

namespace Sys2Proof.Machine

open Sys2Proof

variable (s : State)

/-- The slices may differ, and choices have been made; everything else is the same. -/
def HomesOnly (s t : State) : Prop :=
  ∃ lines moved cls bad n, t = { s with l2 := lines, touches := moved, clusters := cls, bad := bad, tick := n }

theorem HomesOnly.refl : HomesOnly s s := ⟨_, _, _, _, _, rfl⟩

theorem HomesOnly.trans {s t u : State} (h : HomesOnly s t) (k : HomesOnly t u) : HomesOnly s u := by
  obtain ⟨_, _, _, _, _, rfl⟩ := h
  obtain ⟨_, _, _, _, _, rfl⟩ := k
  exact ⟨_, _, _, _, _, rfl⟩

theorem HomesOnly.mem {s t : State} (h : HomesOnly s t) : t.mem = s.mem := by obtain ⟨_, _, _, _, _, rfl⟩ := h; rfl
theorem HomesOnly.groups {s t : State} (h : HomesOnly s t) : t.groups = s.groups := by obtain ⟨_, _, _, _, _, rfl⟩ := h; rfl
theorem HomesOnly.teams {s t : State} (h : HomesOnly s t) : t.teams = s.teams := by obtain ⟨_, _, _, _, _, rfl⟩ := h; rfl
theorem HomesOnly.cores {s t : State} (h : HomesOnly s t) : t.cores = s.cores := by obtain ⟨_, _, _, _, _, rfl⟩ := h; rfl
theorem HomesOnly.ops {s t : State} (h : HomesOnly s t) : t.ops = s.ops := by obtain ⟨_, _, _, _, _, rfl⟩ := h; rfl

/-- A choice advances the counter of choices only. -/
theorem State.choose_only (n : Nat) : HomesOnly s (s.choose n).2 := by
  unfold State.choose
  split
  · exact .refl s
  · exact ⟨_, _, _, _, _, rfl⟩

theorem State.evict_only (l : L2Line) : HomesOnly s (s.evict l) := ⟨_, _, _, _, _, rfl⟩

theorem State.evictTo_only (p : L2Line → Bool) (n fuel : Nat) : HomesOnly s (s.evictTo p n fuel) := by
  induction fuel generalizing s with
  | zero => exact .refl s
  | succ fuel ih =>
    simp only [State.evictTo]
    have pick (m k : Nat) : HomesOnly s (if m = 0 then (0, s) else s.choose k).2 := by
      split
      · exact .refl s
      · exact s.choose_only k
    split
    · exact .refl s
    · split
      · exact ((pick _ _).trans (State.evict_only _ _)).trans (ih _)
      · exact pick _ _

theorem State.l2Enter_only (l : L2Line) : HomesOnly s (s.l2Enter l) :=
  .trans (s.evictTo_only _ _ _) ⟨_, _, _, _, _, rfl⟩

theorem State.allocate_only (l : L2Line) : HomesOnly s (s.allocate l) :=
  .trans (s.evictTo_only _ _ _) (State.l2Enter_only _ _)

/-- Placing a sector in the L2 touches the homes only. -/
theorem State.l2Place_only (t : Trans) (w : Bool) (rank : Option Nat) : HomesOnly s (s.l2Place t w rank) := by
  simp only [State.l2Place]
  split
  · exact .refl s
  · split
    · exact ⟨_, _, _, _, _, rfl⟩
    · split
      · split
        · exact ⟨_, _, _, _, _, rfl⟩
        · exact s.l2Enter_only _
      · split
        · exact .refl s
        · exact s.allocate_only _

/-- So does an access that a home serves. -/
theorem State.touch_only (t : Trans) (core : Nat) (pol : Policy) : HomesOnly s (s.touch t core pol) :=
  .trans (t := { s with touches := if t.home = 0 then touched s (t.pa / 256) (clusterNo core) else s.touches })
    ⟨_, _, _, _, _, rfl⟩ (State.l2Place_only _ _ _ _)

theorem badSector_only (key : Nat) : HomesOnly s (badSector s key).2 := by
  unfold badSector
  split
  · have h := s.choose_only 2
    revert h
    generalize s.choose 2 = c
    obtain ⟨k, t⟩ := c
    intro h
    match k with
    | 0 => exact h
    | _ + 1 => exact h.trans ⟨_, _, _, _, _, rfl⟩
  · exact .refl s

/-- A read at a home changes the homes only, and its bytes are those of memory. -/
theorem readHome_only (asid : Nat) (t : Trans) (core n : Nat) (pol : Policy) :
    HomesOnly s (readHome s asid t core n pol).2 := by
  unfold readHome
  split
  · exact .refl s
  · have h := badSector_only s t.key
    revert h
    generalize badSector s t.key = c
    obtain ⟨b, u⟩ := c
    intro h
    cases b
    · exact h.trans (u.touch_only _ _ _)
    · exact h

theorem readHome_bytes {asid : Nat} {t : Trans} {core n : Nat} {pol : Policy} {l : List Byte} {u : State}
    (h : readHome s asid t core n pol = (.bytes l, u)) : l = Mem.read s.mem t.key n := by
  have m := (badSector_only s t.key).mem
  revert h m
  unfold readHome
  split
  · intro h; cases h
  · generalize badSector s t.key = c
    obtain ⟨b, v⟩ := c
    intro h m
    cases b
    · cases h; exact congrArg (Mem.read · t.key n) m
    · cases h

/-- A fold whose steps leave memory alone leaves it alone. -/
theorem State.foldl_mem {α : Type} (f : State → α → State) (hf : ∀ s x, (f s x).mem = s.mem) (l : List α) (s : State) :
    (l.foldl f s).mem = s.mem := by
  induction l generalizing s with
  | nil => rfl
  | cons x r ih => exact (ih _).trans (hf s x)

@[simp] theorem State.finishLanes_mem (id : Nat) (m : BitVec 32) : (s.finishLanes id m).mem = s.mem := by
  unfold State.finishLanes
  split
  · rfl
  · split <;> rfl

@[simp] theorem acquireWide_mem (gid : Nat) : (acquireWide s gid).mem = s.mem := by
  unfold acquireWide
  split <;> rfl

@[simp] theorem acquire_mem (gid : Nat) (sc : Scope) : (acquire s gid sc).mem = s.mem := by
  unfold acquire
  split
  · exact acquireWide_mem _ _
  · rfl

theorem releaseWaitc_mem (o : Op) (sc : Scope) (lane : Nat) (t : Trans) (v : Nat) (out : Bool) :
    (releaseWaitc s o sc lane t v out).mem = s.mem := by
  simp only [releaseWaitc, State.sweepMonitors, acquire_mem, State.finishLanes_mem, State.updAny_mem]
  split <;> rfl

/-- Firing monitors releases fibres, and leaves memory alone. -/
theorem fireMonitors_mem (key n : Nat) : (fireMonitors s key n).mem = s.mem := by
  refine State.foldl_mem _ (fun s m => ?_) _ s
  split
  · split
    · simp only [fireBarG]
      split
      · rfl
      · split
        · rfl
        · simp only [State.sweepMonitors, acquireWide_mem, State.updAny_mem]
    · rfl
  · split
    · refine State.foldl_mem _ (fun s o => ?_) _ s
      simp only [fireWaitc]
      split
      · rfl
      · split
        · refine State.foldl_mem _ (fun s a => ?_) _ s
          split
          · exact releaseWaitc_mem _ _ _ _ _ _ _
          · rfl
        · rfl
    · rfl

/-- Setting accessed bits keeps the memory's form. -/
theorem State.setAccessed_wf (l : List Nat) (h : Mem.wf s.mem) : Mem.wf (s.setAccessed l).mem := by
  induction l generalizing s with
  | nil => exact h
  | cons a r ih =>
    refine ih _ ?_
    dsimp only
    split
    · exact h
    · rw [fireMonitors_mem]
      exact Mem.set_wf _ _ h

/-- Filling a sector of an L1 changes the caches of cores only. -/
theorem State.fillL1_only (core : Nat) (t : Trans) (va : Nat) (a : Bool) : ∃ ks, s.fillL1 core t va a = { s with cores := ks } := ⟨_, rfl⟩

theorem State.storeL1_only (core : Nat) (t : Trans) (b : List Byte) (drop : Bool) :
    ∃ ks, s.storeL1 core t b drop = { s with cores := ks } := ⟨_, rfl⟩

/-- With no error and no monitor anywhere, a walk's marks bring neither. -/
theorem State.setAccessed_calm (l : List Nat) : ∀ s : State, s.bad = [] → s.monitors = [] →
    (s.setAccessed l).bad = [] ∧ (s.setAccessed l).monitors = [] := by
  induction l with
  | nil => exact fun s hb hm => ⟨hb, hm⟩
  | cons a l ih =>
    intro s hb hm
    have step : s.setAccessed (a :: l) = (if (Mem.get s.mem a).getLsbD 4 then s
        else fireMonitors { s with mem := Mem.set s.mem a (Mem.get s.mem a ||| 0x10) } a 1).setAccessed l := rfl
    rw [step]
    split
    · exact ih s hb hm
    · have calm : fireMonitors { s with mem := Mem.set s.mem a (Mem.get s.mem a ||| 0x10) } a 1
          = { s with mem := Mem.set s.mem a (Mem.get s.mem a ||| 0x10) } := by simp [fireMonitors, hm]
      rw [calm]
      exact ih _ hb hm

end Sys2Proof.Machine
end

