-- ==== Sys2Proof/Laws/Packet.lean ====
section
/-!
SUPPORT. What ending a packet, going on after a word, a control transfer, halting and taking a trap may change: each
said once, as the fields of the state it can touch.
-/

namespace Sys2Proof.Machine

open Sys2Proof

variable (s : State)

/-- Giving a port back touches the scheduler and the word in hand only. -/
theorem State.setPort_only (c : Cur) (p : Option Packet) :
    ∃ ks, s.setPort c p = { s with cores := ks, cur := none } := ⟨_, rfl⟩

/-- Ending a packet touches its group, its scheduler and the word in hand only. -/
theorem State.endPacket_only (c : Cur) (lanes : BitVec 32) :
    ∃ gs ks, s.endPacket c lanes = { s with groups := gs, cores := ks, cur := none } := ⟨_, _, rfl⟩

/-- Going on after a word touches the group, the scheduler, the marks of operations under way and the word in hand. -/
theorem State.advance_only (c : Cur) (n : Nat) :
    ∃ gs ks os, s.advance c n = { s with groups := gs, cores := ks, ops := os, cur := none } := by
  simp only [State.advance]
  split
  · exact ⟨_, _, _, rfl⟩
  · split <;> exact ⟨_, _, _, rfl⟩

/-- A control transfer touches the same fields as going on does. -/
theorem State.transfer_only (c : Cur) (targets : List (Nat × Addr)) :
    ∃ gs ks os, s.transfer c targets = { s with groups := gs, cores := ks, ops := os, cur := none } :=
  ⟨_, _, _, rfl⟩

/-- Halting a group touches the groups only. -/
theorem State.haltGroup_only (gid : Nat) : ∃ gs, s.haltGroup gid = { s with groups := gs } := by
  simp only [State.haltGroup]
  split
  · exact ⟨s.groups, rfl⟩
  · exact ⟨_, rfl⟩

/-- Halting a team touches the groups only. -/
theorem State.haltTeam_only (tid : Nat) : ∃ gs, s.haltTeam tid = { s with groups := gs } := by
  simp only [State.haltTeam]
  generalize s.teamGroups tid = l
  induction l generalizing s with
  | nil => exact ⟨s.groups, rfl⟩
  | cons g l ih =>
    obtain ⟨gs, h⟩ := s.haltGroup_only g.gid
    rw [List.foldl_cons, h]
    obtain ⟨gs', h'⟩ := ih { s with groups := gs }
    exact ⟨gs', h'⟩

/-- A fault in a live trap record marks that record and moves nothing (R229). -/
theorem Fibre.take_live (x : Fibre) (tvec : Dword) (f : FaultRec) (h : x.estatus.getLsbD 15 = true) :
    x.take tvec f = { x with ecause := setBits x.ecause 8 8 f.cause.toNat } := by
  simp only [Fibre.take, h, if_true]

/-- A fault with no handler is recorded, and the fibre stays where it is (R229). -/
theorem Fibre.take_noHandler (x : Fibre) (f : FaultRec) (h : x.estatus.getLsbD 15 = false) :
    x.take 0 f = x.record f := by
  simp only [Fibre.take, h, Bool.false_eq_true, if_false, if_true]

/-- A fault with a handler is recorded, and the fibre goes to the handler in supervisor mode (R227). -/
theorem Fibre.take_handler (x : Fibre) (tvec : Dword) (f : FaultRec) (h : x.estatus.getLsbD 15 = false)
    (hv : tvec ≠ 0) :
    x.take tvec f = { x.record f with mode := true, demoted := false, demWait := 0, pc := tvec.setWidth 56, rem := 0,
                                      active := false } := by
  simp only [Fibre.take, h, Bool.false_eq_true, if_false, hv]

/-- Trap entry that is fatal for no fibre touches the groups only. -/
theorem State.takeTrap_only {gid : Nat} {lanes : BitVec 32} {base : FaultRec} {own : List (Nat × FaultRec)}
    {g : Group} {t : Team} (hg : s.group? gid = some g) (ht : s.teamOf? gid = some t)
    (hf : ((lanesOf lanes).any fun i => (g.lane i).fatal t.tvec) = false) :
    ∃ gs, s.takeTrap gid lanes base own = { s with groups := gs } := by
  simp only [State.takeTrap, hg, ht, hf, Bool.false_eq_true, if_false]
  exact ⟨_, rfl⟩

/-- Where nothing is in error, a range is read without one (R29). -/
theorem rangeBad_calm (s : State) (asid va n : Nat) (hb : s.bad = []) (hm : s.monitors = []) :
    (rangeBad s asid va n).1 = false := by
  have one : ∀ (s : State) (a : Nat), s.bad = [] → s.monitors = [] →
      (recordBad s asid a).1 = false ∧ (recordBad s asid a).2.bad = [] ∧ (recordBad s asid a).2.monitors = [] := by
    intro s a hb hm
    unfold recordBad
    split
    · next w hw =>
      obtain ⟨h1, h2⟩ := State.setAccessed_calm w.leaves s hb hm
      simp [badSector, State.accessed, hw, h1, h2]
    · exact ⟨rfl, hb, hm⟩
  have all : ∀ (l : List Nat) (f : Nat → Nat) (p : Bool × State), p.1 = false → p.2.bad = [] → p.2.monitors = [] →
      (l.foldl (fun (p : Bool × State) k => if p.1 then p else recordBad p.2 asid (f k)) p).1 = false := by
    intro l f
    induction l with
    | nil => exact fun p h _ _ => h
    | cons k l ih =>
      intro p h1 h2 h3
      obtain ⟨g1, g2, g3⟩ := one p.2 (f k) h2 h3
      simpa [List.foldl_cons, h1] using ih _ g1 g2 g3
  exact all _ (fun k => va / 128 * 128 + 128 * k) (false, s) rfl hb hm

end Sys2Proof.Machine
end

