-- ==== Sys2Proof/Laws/PerInstr.lean ====
section
/-!
SUPPORT. A law of every instruction as syntax: an encoded instruction takes one to four words (R46), a step of the
machine none.
-/

namespace Sys2Proof.Laws.Words

open Sys2Proof

/-- One to four words of an encoded instruction, none of a step of the machine. -/
def Statement (i : Instr) : Prop :=
  (i.cls = none → encode i = []) ∧ (i.cls.isSome = true → 1 ≤ i.words ∧ i.words ≤ 4)

/-- There is at most one extension word (R45). -/
theorem extOf_length (l : List Src) : (extOf l).length ≤ 1 := by
  simp only [extOf, List.length_take]; omega

/-- A word, and an extension word at most. -/
theorem one {w : Word} {s : List Src} : 1 ≤ (w :: extOf s).length ∧ (w :: extOf s).length ≤ 4 := by
  have := extOf_length s
  simp only [List.length_cons]; omega

/-- Two words, and an extension word at most. -/
theorem two {w x : Word} {s : List Src} : 1 ≤ (w :: x :: extOf s).length ∧ (w :: x :: extOf s).length ≤ 4 := by
  have := extOf_length s
  simp only [List.length_cons]; omega

/-- Three words, and an extension word at most. -/
theorem three {w x y : Word} {s : List Src} :
    1 ≤ (w :: x :: y :: extOf s).length ∧ (w :: x :: y :: extOf s).length ≤ 4 := by
  have := extOf_length s
  simp only [List.length_cons]; omega

/-- A word alone, or two. -/
theorem alone {w : Word} : 1 ≤ [w].length ∧ [w].length ≤ 4 := ⟨Nat.le_refl 1, Nat.le_add_left 1 3⟩
theorem pair {w x : Word} : 1 ≤ [w, x].length ∧ [w, x].length ≤ 4 := ⟨Nat.le_add_left 1 1, Nat.le_add_left 2 2⟩

/-- A word, an offset word if there is one, and an extension word at most. -/
theorem bound_off {w : Word} {o : Option Word} {s : List Src} :
    1 ≤ (w :: (o.toList ++ extOf s)).length ∧ (w :: (o.toList ++ extOf s)).length ≤ 4 := by
  have := extOf_length s
  cases o <;> simp only [Option.toList, List.length_cons, List.length_append, List.length_nil] <;> omega

/-- A step of the machine. -/
theorem ofNone {i : Instr} (h : encode i = []) (hc : i.cls = none) : Statement i :=
  ⟨fun _ => h, fun h1 => absurd h1 (by simp [hc])⟩

/-- An encoded instruction. -/
theorem ofSome {i : Instr} (hc : i.cls.isSome = true) (h : 1 ≤ i.words ∧ i.words ≤ 4) : Statement i :=
  ⟨fun h1 => absurd hc (by simp [h1]), fun _ => h⟩

theorem mov (d : Dst) (a : Src) : Statement (.mov d a) := ofSome rfl one
theorem iadd (d : Dst) (a b : Src) : Statement (.iadd d a b) := ofSome rfl one
theorem isub (d : Dst) (a b : Src) : Statement (.isub d a b) := ofSome rfl one
theorem imul (d : Dst) (a b : Src) : Statement (.imul d a b) := ofSome rfl one
theorem imulhs (d : Dst) (a b : Src) : Statement (.imulhs d a b) := ofSome rfl one
theorem imulhn (d : Dst) (a b : Src) : Statement (.imulhn d a b) := ofSome rfl one
theorem imad (d : Dst) (a b c : Src) (m : MadMode) : Statement (.imad d a b c m) := ofSome rfl two
theorem imin (d : Dst) (a b : Src) : Statement (.imin d a b) := ofSome rfl one
theorem imax (d : Dst) (a b : Src) : Statement (.imax d a b) := ofSome rfl one
theorem iminn (d : Dst) (a b : Src) : Statement (.iminn d a b) := ofSome rfl one
theorem imaxn (d : Dst) (a b : Src) : Statement (.imaxn d a b) := ofSome rfl one
theorem iabs (d : Dst) (a : Src) : Statement (.iabs d a) := ofSome rfl one
theorem ineg (d : Dst) (a : Src) : Statement (.ineg d a) := ofSome rfl one
theorem andI (d : Dst) (a b : Src) : Statement (.andI d a b) := ofSome rfl one
theorem orI (d : Dst) (a b : Src) : Statement (.orI d a b) := ofSome rfl one
theorem xorI (d : Dst) (a b : Src) : Statement (.xorI d a b) := ofSome rfl one
theorem andn (d : Dst) (a b : Src) : Statement (.andn d a b) := ofSome rfl one
theorem shl (d : Dst) (a b : Src) : Statement (.shl d a b) := ofSome rfl one
theorem shr (d : Dst) (a b : Src) : Statement (.shr d a b) := ofSome rfl one
theorem sar (d : Dst) (a b : Src) : Statement (.sar d a b) := ofSome rfl one
theorem rotl (d : Dst) (a b : Src) : Statement (.rotl d a b) := ofSome rfl one
theorem popc (d : Dst) (a : Src) : Statement (.popc d a) := ofSome rfl one
theorem clz (d : Dst) (a : Src) : Statement (.clz d a) := ofSome rfl one
theorem brev (d : Dst) (a : Src) : Statement (.brev d a) := ofSome rfl one
theorem bfx (d : Dst) (a pos width : Src) (sx : Bool) : Statement (.bfx d a pos width sx) := ofSome rfl two
theorem bfi (d : Dst) (base value pos : Src) (width : BitVec 6) : Statement (.bfi d base value pos width) := ofSome rfl two
theorem isel (d : Dst) (a b : Src) (neg : Bool) (p : BitVec 6) : Statement (.isel d a b neg p) := ofSome rfl two
theorem icmps (pd : BitVec 6) (cc : BitVec 2) (a b : Src) : Statement (.icmps pd cc a b) := ofSome rfl one
theorem icmpn (pd : BitVec 6) (cc : BitVec 2) (a b : Src) : Statement (.icmpn pd cc a b) := ofSome rfl one
theorem plog (pd : BitVec 6) (fn : PlogFn) (pa : BitVec 6) (na : Bool) (pb : BitVec 6) (nb : Bool) : Statement (.plog pd fn pa na pb nb) := ofSome rfl alone
theorem prd (d : Dst) (h : Bool) : Statement (.prd d h) := ofSome rfl alone
theorem pwr (a : Src) (h : Bool) : Statement (.pwr a h) := ofSome rfl one
theorem iadd64 (d : Dst) (a b : Src) : Statement (.iadd64 d a b) := ofSome rfl one
theorem isub64 (d : Dst) (a b : Src) : Statement (.isub64 d a b) := ofSome rfl one
theorem shl64 (d : Dst) (a b : Src) : Statement (.shl64 d a b) := ofSome rfl one
theorem shr64 (d : Dst) (a b : Src) : Statement (.shr64 d a b) := ofSome rfl one
theorem lea (d : Dst) (base index offset : Src) (n : Bool) (sh : BitVec 3) : Statement (.lea d base index offset n sh) := ofSome rfl two
theorem imulw (d : Dst) (a b : Src) : Statement (.imulw d a b) := ofSome rfl one
theorem iaddw (d : Dst) (a b : Src) : Statement (.iaddw d a b) := ofSome rfl one
theorem icmp64 (pd : BitVec 6) (cc : BitVec 2) (a b : Src) : Statement (.icmp64 pd cc a b) := ofSome rfl one
theorem shfl (d : Dst) (a b c : Src) (w : SegW) (m : ShflMode) : Statement (.shfl d a b c w m) := ofSome rfl two
theorem vote (pd : BitVec 6) (cc : BitVec 2) (a : Src) : Statement (.vote pd cc a) := ofSome rfl one
theorem ballot (d : Dst) (a : Src) : Statement (.ballot d a) := ofSome rfl one
theorem elect (pd : BitVec 6) (hi : Bool) : Statement (.elect pd hi) := ofSome rfl alone
theorem cvti (d : Dst) (a sh : Src) (sat : Bool) (tt fr : IntTy) : Statement (.cvti d a sh sat tt fr) := ofSome rfl two
theorem rand (d : Dst) (key counter stream : Src) (out : RandOut) (rounds : RandRounds) : Statement (.rand d key counter stream out rounds) := ofSome rfl two
theorem fadd (d : Dst) (a b : Src) (rnd : Rnd) : Statement (.fadd d a b rnd) := ofSome rfl two
theorem fsub (d : Dst) (a b : Src) (rnd : Rnd) : Statement (.fsub d a b rnd) := ofSome rfl two
theorem fmul (d : Dst) (a b : Src) (rnd : Rnd) : Statement (.fmul d a b rnd) := ofSome rfl two
theorem ffma (d : Dst) (a b c : Src) (nb nc : Bool) (rnd : Rnd) : Statement (.ffma d a b c nb nc rnd) := ofSome rfl two
theorem fmin (d : Dst) (a b : Src) : Statement (.fmin d a b) := ofSome rfl one
theorem fmax (d : Dst) (a b : Src) : Statement (.fmax d a b) := ofSome rfl one
theorem fabs (d : Dst) (a : Src) : Statement (.fabs d a) := ofSome rfl one
theorem fneg (d : Dst) (a : Src) : Statement (.fneg d a) := ofSome rfl one
theorem fcmp (pd : BitVec 6) (cc : BitVec 2) (a b : Src) : Statement (.fcmp pd cc a b) := ofSome rfl one
theorem frcp (d : Dst) (a : Src) (rnd : Rnd) : Statement (.frcp d a rnd) := ofSome rfl two
theorem frsq (d : Dst) (a : Src) (rnd : Rnd) : Statement (.frsq d a rnd) := ofSome rfl two
theorem fsqrt (d : Dst) (a : Src) (rnd : Rnd) : Statement (.fsqrt d a rnd) := ofSome rfl two
theorem fexp2 (d : Dst) (a : Src) : Statement (.fexp2 d a) := ofSome rfl one
theorem flog2 (d : Dst) (a : Src) : Statement (.flog2 d a) := ofSome rfl one
theorem ftrig (d : Dst) (a : Src) (cos : Bool) : Statement (.ftrig d a cos) := ofSome rfl two
theorem frnd (d : Dst) (a : Src) (rnd : Rnd) : Statement (.frnd d a rnd) := ofSome rfl two
theorem fcvt (d : Dst) (a : Src) (conv : BitVec 4) (rnd : Rnd) : Statement (.fcvt d a conv rnd) := ofSome rfl two
theorem fclass (d : Dst) (a : Src) : Statement (.fclass d a) := ofSome rfl one
theorem fkey (d : Dst) (a : Src) : Statement (.fkey d a) := ofSome rfl one
theorem fscale (d : Dst) (a n : Src) (rnd : Rnd) : Statement (.fscale d a n rnd) := ofSome rfl two
theorem dadd (d : Dst) (a b : Src) (nb : Bool) (rnd : Rnd) : Statement (.dadd d a b nb rnd) := ofSome rfl two
theorem dmul (d : Dst) (a b : Src) (rnd : Rnd) : Statement (.dmul d a b rnd) := ofSome rfl two
theorem dfma (d : Dst) (a b c : Src) (nb nc : Bool) (rnd : Rnd) : Statement (.dfma d a b c nb nc rnd) := ofSome rfl two
theorem dcmp (pd : BitVec 6) (cc : BitVec 2) (a b : Src) : Statement (.dcmp pd cc a b) := ofSome rfl one
theorem tadd (d : Dst) (a b : Src) : Statement (.tadd d a b) := ofSome rfl one
theorem tsub (d : Dst) (a b : Src) : Statement (.tsub d a b) := ofSome rfl one
theorem tmul (d : Dst) (a b : Src) : Statement (.tmul d a b) := ofSome rfl one
theorem tfma (d : Dst) (a b c : Src) (nb nc : Bool) : Statement (.tfma d a b c nb nc) := ofSome rfl two
theorem tcmp (pd : BitVec 6) (cc : BitVec 2) (a b : Src) : Statement (.tcmp pd cc a b) := ofSome rfl one
theorem tneg (d : Dst) (a : Src) : Statement (.tneg d a) := ofSome rfl one
theorem trcp (d : Dst) (a : Src) : Statement (.trcp d a) := ofSome rfl one
theorem trsq (d : Dst) (a : Src) : Statement (.trsq d a) := ofSome rfl one
theorem ld (d : Dst) (a : Src) (off : Option Word) (size : Size) (pol : Policy) (sp : Space) (sx : Bool) : Statement (.ld d a off size pol sp sx) := ofSome rfl bound_off
theorem st (data a : Src) (off : Option Word) (size : Size) (pol : Policy) (sp : Space) : Statement (.st data a off size pol sp) := ofSome rfl bound_off
theorem lda (d : Dst) (a : Src) (off : Option Word) (size : Size) (pol : Policy) (scope : Scope) : Statement (.lda d a off size pol scope) := ofSome rfl bound_off
theorem stl (data a : Src) (size : Size) (scope : Scope) : Statement (.stl data a size scope) := ofSome rfl one
theorem ldp (d : Dst) (a : Src) (off : Option Word) (size : Size) : Statement (.ldp d a off size) := ofSome rfl bound_off
theorem atom (d : Dst) (a b c : Src) (fn : AtomFn) (ord : Order) (scope : Scope) (w64 : Bool) : Statement (.atom d a b c fn ord scope w64) := ofSome rfl two
theorem red (a b : Src) (fn : AtomFn) (scope : Scope) (w64 : Bool) : Statement (.red a b fn scope w64) := ofSome rfl two
theorem redf : Statement (.redf) := ofSome rfl alone
theorem fence (k : FenceKind) (scope : Scope) : Statement (.fence k scope) := ofSome rfl pair
theorem waitc (d : Dst) (a b : Src) (cc : WaitCc) (scope : Scope) (w64 : Bool) : Statement (.waitc d a b cc scope w64) := ofSome rfl two
theorem pref (a : Src) (off : Option Word) (line : Bool) (pol : Policy) : Statement (.pref a off line pol) := ofSome rfl bound_off
theorem cctl (a : Src) (op : CctlOp) : Statement (.cctl a op) := ofSome rfl two
theorem chcfg (base depth : Src) (w64 : Bool) (ch : BitVec 5) : Statement (.chcfg base depth w64 ch) := ofSome rfl two
theorem chstat (d : Dst) (n : Src) : Statement (.chstat d n) := ofSome rfl one
theorem nop : Statement (.nop) := ofSome rfl alone
theorem bra (p : BitVec 6) (neg : Bool) (off : BitVec 19) : Statement (.bra p neg off) := ofSome rfl alone
theorem brx (a : Src) : Statement (.brx a) := ofSome rfl one
theorem call (p : BitVec 6) (neg : Bool) (off : BitVec 19) : Statement (.call p neg off) := ofSome rfl alone
theorem callx (a : Src) : Statement (.callx a) := ofSome rfl one
theorem ret : Statement (.ret) := ofSome rfl alone
theorem fork (pd : BitVec 6) (n : BitVec 7) (off : BitVec 19) : Statement (.fork pd n off) := ofSome rfl pair
theorem endF (succ : Option (BitVec 7 × BitVec 18)) : Statement (.endF succ) := ofSome rfl (by cases succ <;> exact alone)
theorem spawn (pd : BitVec 6) (off : BitVec 19) : Statement (.spawn pd off) := ofSome rfl alone
theorem rcvg : Statement (.rcvg) := ofSome rfl alone
theorem bara (b : BitVec 4) (grid : Bool) (count : Src) : Statement (.bara b grid count) := ofSome rfl one
theorem barw (b : BitVec 4) (grid : Bool) : Statement (.barw b grid) := ofSome rfl alone
theorem bar (b : BitVec 4) (grid : Bool) (count : Src) : Statement (.bar b grid count) := ofSome rfl one
theorem cvset (cv : BitVec 4) (n : Src) : Statement (.cvset cv n) := ofSome rfl one
theorem sign (cv : BitVec 4) : Statement (.sign cv) := ofSome rfl alone
theorem yield : Statement (.yield) := ofSome rfl alone
theorem trap (code : BitVec 16) : Statement (.trap code) := ofSome rfl alone
theorem brkpt : Statement (.brkpt) := ofSome rfl alone
theorem rte : Statement (.rte) := ofSome rfl alone
theorem rdsys (d : Dst) (n : BitVec 12) : Statement (.rdsys d n) := ofSome rfl alone
theorem wrsys (n : BitVec 12) (a : Src) : Statement (.wrsys n a) := ofSome rfl one
theorem clk (d : Dst) : Statement (.clk d) := ofSome rfl alone
theorem mark (d : Dst) (id : BitVec 16) : Statement (.mark d id) := ofSome rfl alone
theorem cut (d : Dst) (id : BitVec 16) (off : BitVec 19) : Statement (.cut d id off) := ofSome rfl pair
theorem graft (a : Src) : Statement (.graft a) := ofSome rfl one
theorem sdrop (d : Dst) (a : Src) : Statement (.sdrop d a) := ofSome rfl one
theorem sdropHold (d : Dst) (a : Src) : Statement (.sdropHold d a) := ofSome rfl one
theorem sinfo (d : Dst) (a : Src) : Statement (.sinfo d a) := ofSome rfl one
theorem mzero (at_ : BitVec 6) (cv : SignCv) (n1 : BitVec 6) : Statement (.mzero at_ cv n1) := ofSome rfl alone
theorem mma (at_ : BitVec 6) (cv : SignCv) (z ha hb : Bool) (a b origin : Src) (tha thb : BitVec 5) : Statement (.mma at_ cv z ha hb a b origin tha thb) := ofSome rfl two
theorem mmac (at_ : BitVec 6) (cv : SignCv) (z hb : Bool) (b : Src) (as_ : BitVec 6) (sh : BitVec 5) (thb : BitVec 5) (origin : Src) : Statement (.mmac at_ cv z hb b as_ sh thb origin) := ofSome rfl two
theorem mload (at_ : BitVec 6) (cv : SignCv) (t : Bool) (n1 : BitVec 5) (a : Src) : Statement (.mload at_ cv t n1 a) := ofSome rfl one
theorem mstore (at_ : BitVec 6) (cv : SignCv) (t : Bool) (n1 : BitVec 5) (a : Src) (conv : MxConv) (am : Option Scope) (sh : BitVec 5) (addr : Src) : Statement (.mstore at_ cv t n1 a conv am sh addr) := ofSome rfl two
theorem mgather (at_ : BitVec 6) (cv : SignCv) (z : Bool) (a b list : Src) : Statement (.mgather at_ cv z a b list) := ofSome rfl two
theorem mshape (mt nt : BitVec 4) (fa fb : MxForm) (acc : MxAcc) (sa sb q : Bool) (k : BitVec 16) : Statement (.mshape mt nt fa fb acc sa sb q k) := ofSome rfl pair
theorem benq (pd : BitVec 6) (row res : Src) : Statement (.benq pd row res) := ofSome rfl one
theorem mfence : Statement (.mfence) := ofSome rfl alone
theorem mreset (a : Src) : Statement (.mreset a) := ofSome rfl one
theorem thdl (th : BitVec 5) (q : Src) : Statement (.thdl th q) := ofSome rfl one
theorem cpyi (th : BitVec 5) (plain bulk : Bool) (off origin : Src) (status : Option Src) (stage : Option (BitVec 3 × Src)) : Statement (.cpyi th plain bulk off origin status stage) := ofSome rfl two
theorem cpyo (th : BitVec 5) (bulk tf : Bool) (off origin : Src) (status : Option Src) (sr : Option (Src × Src)) (am : Option (Scope × Src)) : Statement (.cpyo th bulk tf off origin status sr am) := ofSome rfl three
theorem cpym (th : BitVec 5) (plain quad : Bool) (off origin : Src) (status : Option Src) (stage : Option (BitVec 3 × Src)) (mask : BitVec 8) : Statement (.cpym th plain quad off origin status stage mask) := ofSome rfl three
theorem stgpWait (d : Dst) (stage : BitVec 3) (seq : Src) : Statement (.stgpWait d stage seq) := ofSome rfl one
theorem stgpFill (stage : BitVec 3) (seq : Src) : Statement (.stgpFill stage seq) := ofSome rfl one
theorem stgc (d : Dst) (stage : BitVec 3) (seq : Src) : Statement (.stgc d stage seq) := ofSome rfl one
theorem stgr (stage : BitVec 3) (seq : Src) : Statement (.stgr stage seq) := ofSome rfl one
theorem lease (pd : BitVec 6) (period : Src) : Statement (.lease pd period) := ofSome rfl one
theorem lfree : Statement (.lfree) := ofSome rfl alone
theorem launch (d : Dst) (tmpl arg : Src) : Statement (.launch d tmpl arg) := ofSome rfl one
theorem gdec (d : Dst) (node amount : Src) : Statement (.gdec d node amount) := ofSome rfl one
theorem gcond (node value : Src) : Statement (.gcond node value) := ofSome rfl one
theorem beat (n : Src) : Statement (.beat n) := ofSome rfl one
theorem rbegin (pd : BitVec 6) (f : BitVec 6) (n : BitVec 7) : Statement (.rbegin pd f n) := ofSome rfl alone
theorem rcommit : Statement (.rcommit) := ofSome rfl alone
theorem rabort : Statement (.rabort) := ofSome rfl alone
theorem event (code : BitVec 16) (a : Src) : Statement (.event code a) := ofSome rfl one
theorem schedulerVote (core sched : Nat) : Statement (.schedulerVote core sched) := ofNone rfl rfl
theorem deferredFault (gid lane : Nat) : Statement (.deferredFault gid lane) := ofNone rfl rfl
theorem rcvgRelease (gid : Nat) : Statement (.rcvgRelease gid) := ofNone rfl rfl
theorem groupRestart (gid : Nat) : Statement (.groupRestart gid) := ofNone rfl rfl
theorem groupSlotFree (gid : Nat) : Statement (.groupSlotFree gid) := ofNone rfl rfl
theorem teamEnd (tid : Nat) : Statement (.teamEnd tid) := ofNone rfl rfl
theorem gridBarrierArrive (op : Nat) : Statement (.gridBarrierArrive op) := ofNone rfl rfl
theorem storePassCop (gid : Nat) : Statement (.storePassCop gid) := ofNone rfl rfl
theorem storePerform (core seq : Nat) : Statement (.storePerform core seq) := ofNone rfl rfl
theorem generationRetry (core op : Nat) : Statement (.generationRetry core op) := ofNone rfl rfl
theorem loadDataReturn (op lane : Nat) : Statement (.loadDataReturn op lane) := ofNone rfl rfl
theorem atomicPerform (req : Nat) : Statement (.atomicPerform req) := ofNone rfl rfl
theorem atomicReply (rep : Nat) : Statement (.atomicReply rep) := ofNone rfl rfl
theorem routerCombine (first second : Nat) : Statement (.routerCombine first second) := ofNone rfl rfl
theorem replySplit (rep : Nat) : Statement (.replySplit rep) := ofNone rfl rfl
theorem redEntryDrain (core : Nat) : Statement (.redEntryDrain core) := ofNone rfl rfl
theorem fenceComplete (op : Nat) : Statement (.fenceComplete op) := ofNone rfl rfl
theorem waitcTimeout (gid lane : Nat) : Statement (.waitcTimeout gid lane) := ofNone rfl rfl
theorem waitcRetest (gid lane : Nat) : Statement (.waitcRetest gid lane) := ofNone rfl rfl
theorem walkComplete (core walk : Nat) : Statement (.walkComplete core walk) := ofNone rfl rfl
theorem walkMigrateReread (core walk : Nat) : Statement (.walkMigrateReread core walk) := ofNone rfl rfl
theorem lineMigrateDone (line : Nat) : Statement (.lineMigrateDone line) := ofNone rfl rfl
theorem xlgenBump (asid : Nat) : Statement (.xlgenBump asid) := ofNone rfl rfl
theorem xlgenBumpDone (asid : Nat) : Statement (.xlgenBumpDone asid) := ofNone rfl rfl
theorem xlinvPage (asid page : Nat) : Statement (.xlinvPage asid page) := ofNone rfl rfl
theorem xlinvAsid (asid : Nat) : Statement (.xlinvAsid asid) := ofNone rfl rfl
theorem xlinvStage2 (asid : Nat) : Statement (.xlinvStage2 asid) := ofNone rfl rfl
theorem xlinvStage2Done (asid : Nat) : Statement (.xlinvStage2Done asid) := ofNone rfl rfl
theorem cpwinWrite (core : Nat) (win winb : Dword) : Statement (.cpwinWrite core win winb) := ofNone rfl rfl
theorem copyStart (op : Nat) : Statement (.copyStart op) := ofNone rfl rfl
theorem copyComplete (op : Nat) : Statement (.copyComplete op) := ofNone rfl rfl
theorem stageWaitRelease (op : Nat) : Statement (.stageWaitRelease op) := ofNone rfl rfl
theorem stgcfgWrite (tid n : Nat) (value : Word) : Statement (.stgcfgWrite tid n value) := ofNone rfl rfl
theorem fmtWrite (tid n : Nat) (value : Word) : Statement (.fmtWrite tid n value) := ofNone rfl rfl
theorem leaseExpiry (tid : Nat) : Statement (.leaseExpiry tid) := ofNone rfl rfl
theorem matrixOpStart (op : Nat) : Statement (.matrixOpStart op) := ofNone rfl rfl
theorem matrixOpComplete (op : Nat) : Statement (.matrixOpComplete op) := ofNone rfl rfl
theorem batchTimeout (core : Nat) : Statement (.batchTimeout core) := ofNone rfl rfl
theorem batchComplete (op : Nat) : Statement (.batchComplete op) := ofNone rfl rfl
theorem bqctlEnable (core asid : Nat) (value : Word) : Statement (.bqctlEnable core asid value) := ofNone rfl rfl
theorem bqctlDisable (core : Nat) (value : Word) : Statement (.bqctlDisable core value) := ofNone rfl rfl
theorem slheapcfgEnable (asid : Nat) (value : Word) : Statement (.slheapcfgEnable asid value) := ofNone rfl rfl
theorem readyNoticeReceive (die : Nat) : Statement (.readyNoticeReceive die) := ofNone rfl rfl
theorem copyNodeStart (die node : Nat) : Statement (.copyNodeStart die node) := ofNone rfl rfl
theorem placementDecision (die : Nat) : Statement (.placementDecision die) := ofNone rfl rfl
theorem teamStart (tid : Nat) : Statement (.teamStart tid) := ofNone rfl rfl
theorem nodeBlocking (die node : Nat) : Statement (.nodeBlocking die node) := ofNone rfl rfl
theorem nodeComplete (die node : Nat) : Statement (.nodeComplete die node) := ofNone rfl rfl
theorem yieldStop (tid : Nat) : Statement (.yieldStop tid) := ofNone rfl rfl
theorem teamSaveComplete (tid : Nat) : Statement (.teamSaveComplete tid) := ofNone rfl rfl
theorem teamResume (tid : Nat) : Statement (.teamResume tid) := ofNone rfl rfl
theorem arenaDisable (die arena : Nat) : Statement (.arenaDisable die arena) := ofNone rfl rfl
theorem gvctlWrite (asid : Nat) (value : Word) : Statement (.gvctlWrite asid value) := ofNone rfl rfl
theorem gvorderWrite (asid : Nat) (value : Word) : Statement (.gvorderWrite asid value) := ofNone rfl rfl
theorem gvposWrite (asid a : Nat) (value : Word) : Statement (.gvposWrite asid a value) := ofNone rfl rfl
theorem gvbndWrite (asid a : Nat) (value : Word) : Statement (.gvbndWrite asid a value) := ofNone rfl rfl
theorem gvintlenWrite (value : Word) : Statement (.gvintlenWrite value) := ofNone rfl rfl
theorem contextRemove (asid : Nat) : Statement (.contextRemove asid) := ofNone rfl rfl
theorem contextRestore (asid : Nat) : Statement (.contextRestore asid) := ofNone rfl rfl
theorem beatFlitReceive (job boundary member count : Nat) : Statement (.beatFlitReceive job boundary member count) := ofNone rfl rfl
theorem clockStepChange (cluster : Nat) : Statement (.clockStepChange cluster) := ofNone rfl rfl
theorem droopDetect (cluster : Nat) : Statement (.droopDetect cluster) := ofNone rfl rfl
theorem droopWindowEnd (cluster : Nat) : Statement (.droopWindowEnd cluster) := ofNone rfl rfl
theorem marginChange (cluster : Nat) (margin : BitVec 2) : Statement (.marginChange cluster margin) := ofNone rfl rfl
theorem flitReceive (port : Nat) (header tail : BitVec 64) (burst : Option (BitVec 3)) (payload : List (BitVec 8)) : Statement (.flitReceive port header tail burst payload) := ofNone rfl rfl
theorem linkDown (port : Nat) : Statement (.linkDown port) := ofNone rfl rfl
theorem linkRetrainAttempt (port : Nat) : Statement (.linkRetrainAttempt port) := ofNone rfl rfl
theorem linkRetrainDone (port : Nat) (healthy : Nat) : Statement (.linkRetrainDone port healthy) := ofNone rfl rfl
theorem ingressCombine (first second : Nat) : Statement (.ingressCombine first second) := ofNone rfl rfl
theorem remoteRequestServe (req : Nat) : Statement (.remoteRequestServe req) := ofNone rfl rfl
theorem remoteTimeout (op lane : Nat) : Statement (.remoteTimeout op lane) := ofNone rfl rfl
theorem regionRollback (gid lane : Nat) : Statement (.regionRollback gid lane) := ofNone rfl rfl
theorem fxcfgWrite (value : Word) : Statement (.fxcfgWrite value) := ofNone rfl rfl
theorem jobTableWrite (entry : Nat) (value : Dword) : Statement (.jobTableWrite entry value) := ofNone rfl rfl
theorem hostRmaPut (key : Nat) (off : Nat) (data : List (BitVec 8)) (tag : Nat) : Statement (.hostRmaPut key off data tag) := ofNone rfl rfl
theorem hostRmaGet (key : Nat) (off size : Nat) (tag : Nat) : Statement (.hostRmaGet key off size tag) := ofNone rfl rfl
theorem hostRmaAtomic (key : Nat) (off : Nat) (fn : Option AtomFn) (w64 : Bool) (value cmp : Dword) (tag : Nat) : Statement (.hostRmaAtomic key off fn w64 value cmp tag) := ofNone rfl rfl
theorem mgmtWrite (off : Nat) (data : List (BitVec 8)) (tag : Nat) : Statement (.mgmtWrite off data tag) := ofNone rfl rfl
theorem dbgHalt (core slot : Nat) : Statement (.dbgHalt core slot) := ofNone rfl rfl
theorem dbgResume (core slot : Nat) : Statement (.dbgResume core slot) := ofNone rfl rfl
theorem dbgStep (core slot : Nat) : Statement (.dbgStep core slot) := ofNone rfl rfl
theorem dbgStepAll (core slot : Nat) : Statement (.dbgStepAll core slot) := ofNone rfl rfl
theorem dbgAttach (core slot : Nat) : Statement (.dbgAttach core slot) := ofNone rfl rfl
theorem dbgDetach (core slot : Nat) : Statement (.dbgDetach core slot) := ofNone rfl rfl
theorem dbgDiscard (core slot : Nat) : Statement (.dbgDiscard core slot) := ofNone rfl rfl
theorem freeze (kind index : Nat) : Statement (.freeze kind index) := ofNone rfl rfl
theorem thaw (kind index : Nat) : Statement (.thaw kind index) := ofNone rfl rfl
theorem freezeTimeout (kind index : Nat) : Statement (.freezeTimeout kind index) := ofNone rfl rfl
theorem errorReport (unit source : Nat) : Statement (.errorReport unit source) := ofNone rfl rfl
theorem firmwareImageLoad (version : Nat) (image : List (BitVec 8)) (r s : Nat) : Statement (.firmwareImageLoad version image r s) := ofNone rfl rfl
theorem mrExtend (n : Nat) (data : List (BitVec 8)) : Statement (.mrExtend n data) := ofNone rfl rfl
theorem attest (nonce : List (BitVec 8)) : Statement (.attest nonce) := ofNone rfl rfl
theorem freezePointReached (kind index : Nat) : Statement (.freezePointReached kind index) := ofNone rfl rfl
theorem cctlWbComplete (op : Nat) : Statement (.cctlWbComplete op) := ofNone rfl rfl
theorem prefFillComplete (op : Nat) : Statement (.prefFillComplete op) := ofNone rfl rfl
theorem xlinvAll : Statement (.xlinvAll) := ofNone rfl rfl
theorem intervalBoundary : Statement (.intervalBoundary) := ofNone rfl rfl
theorem uePutComplete : Statement (.uePutComplete) := ofNone rfl rfl
theorem deviceReset : Statement (.deviceReset) := ofNone rfl rfl

end Sys2Proof.Laws.Words
end

