-- ==== Sys2Proof/Tests/Slice0.lean ====
section
/-!
SUPPORT. The model's own tests: ill-formed terms that WellFormed refuses, words of the manual that decode to their
instructions, single words and events on a small state, and a state that meets the hypotheses of each statement.
-/

namespace Sys2Proof.Tests

set_option Elab.async false

open Sys2Proof Sys2Proof.Machine

/-! ### A small state -/

/-- Page tables that map the first three pages of an address space to 0x10000, 0x60000 and 0x70000, with home slice 0 and every
permission (R156). -/
def tables : List Host.Cell :=
  [(0x20000, 1), (0x20002, 3), (0x30000, 1), (0x30002, 4), (0x40000, 1), (0x40002, 5),
   (0x50000, 0xE9), (0x50001, 0x41), (0x50002, 1), (0x50008, 0xE9), (0x50009, 0x41), (0x5000A, 6),
   (0x50010, 0xE9), (0x50011, 0x41), (0x50012, 7)]

/-- The translation of that page. -/
def page0 : TlbEntry :=
  { asid := 1, tr := { pa := 0x10000, home := 1, r := true, w := true, x := true, u := true, asid := 1 } }

/-- A fibre that stands at 0x1004 with `n` words of its clause left; v0 to v2 hold `a`. -/
def fib (hdr : Word) (n : BitVec 4) (a : Word × Word × Word) : Fibre :=
  { status := .running, pc := 0x1004, clause := hdr, rem := n, active := true, mode := true, sp := 0x2100,
    fp := 0x2100, stackLo := 0x2000, stackHi := 0x2200,
    regs := (((Vector.replicate 64 0).set 0 a.1).set 1 a.2.1).set 2 a.2.2 }

/-- A group of two fibres in lanes 0 and 1. -/
def grp (x y : Fibre) : Group :=
  { gid := 1, tid := 1, window := 64, lanes := ((Vector.replicate 32 {}).set 0 x).set 1 y }

/-- One team of one group on core 0, whose packet of both fibres is in hand. -/
def st (g : Group) (t : Team := {}) (k : Core := {}) (c : Ctx := {}) : State :=
  { cur := some { pk := { gid := 1, lanes := 3 } }, serial := 10, mem := tables
    groups := [g], teams := [{ t with tid := 1, asid := 1, scrSize := 4096, launch := { t.launch with entry := 0x1000 } }]
    cores := [{ k with tlb := [page0], scheds := k.scheds.set 0 { phase := 1, port1 := some { gid := 1, lanes := 3 } } }]
    ctxs := [{ c with asid := 1, xlroot := 0x20000, regions := [0x1000] }] }

/-- A header of `n` words that raises flags 2 and 5 (R32). -/
def hdr (n : BitVec 4) : Word := n.setWidth 32 <<< 28 ||| 0x4A0

/-- The two fibres before the `n` words of their clause, with v0 to v2 as given. -/
def two (n : BitVec 4) (a b : Word × Word × Word) : State := st (grp (fib (hdr n) n a) (fib (hdr n) n b))

/-- The packet in hand of a state that has one. -/
def hereOf (s : State) : Here := (s.here?).getD { c := {}, g := {}, t := {} }

/-- The word issues for the packet in hand, as one Bool. -/
def canIssue (i : Instr) (s : State) : Bool :=
  let h := hereOf s
  s.here?.isSome && (!isTransfer i || h.first.rem.toNat == i.words) && fits i h.g.window && h.act != 0 &&
  laneReady s h.g i h.c.pk.lanes h.act == h.c.pk.lanes && packetReady s h.g h.t.tid i h.hdr h.act &&
  ((chanUses (shape i)).isEmpty ||
    (chanFault (s.coreOf h.c.core).chans h.t.tid (lanesOf h.act).length (chanUses (shape i))).isNone)

theorem issues_of {i : Instr} {s : State} (hc : canIssue i s = true) : Issues i s (hereOf s) := by
  simp only [canIssue, Bool.and_eq_true, Bool.or_eq_true, List.isEmpty_iff, Option.isNone_iff_eq_none,
    Bool.not_eq_true', beq_iff_eq, bne_iff_ne, ne_eq] at hc
  obtain ⟨⟨⟨⟨⟨⟨h1, h2⟩, h3⟩, h4⟩, h5⟩, h6⟩, h7⟩ := hc
  refine ⟨?_, fun ht => ?_, h3, h4, h5, h6, h7⟩
  · cases hs : s.here? with
    | none => simp [hs] at h1
    | some h => simp [hereOf, hs]
  · rcases h2 with h2 | h2
    · simp [ht] at h2
    · exact h2

/-- The operands that the word reads, when it names no constant word. -/
def insOf (i : Instr) (s : State) : List LaneIn := laneIns s (hereOf s) [] (shape i).srcs

theorem reads_of {i : Instr} {s : State} (hc : constWords (shape i).srcs = []) :
    Reads i s (hereOf s) (insOf i s) s := ⟨[], by rw [hc]; rfl, rfl⟩

/-- The word issues and its operands are read. -/
def Ready (i : Instr) (s : State) : Prop := Issues i s (hereOf s) ∧ Reads i s (hereOf s) (insOf i s) s

theorem ready_of {i : Instr} {s : State} (hc : (canIssue i s && (constWords (shape i).srcs).isEmpty) = true) :
    Ready i s := by
  simp only [Bool.and_eq_true, List.isEmpty_iff] at hc
  exact ⟨issues_of hc.1, reads_of hc.2⟩

/-- The next state of an outcome, or reset. -/
def after (o : Host.Outcome State Fault Refusal) : State :=
  match o with
  | .next t => t
  | _ => .reset

/-- Register `n` of lane `j` of group 1. -/
def regOf (s : State) (j n : Nat) : Word := (((s.group? 1).getD {}).lane j).reg n

/-- The accesses of the packet in hand after their checks; none when a check fails. -/
def accOf (s : State) (sp : Space) (n : Nat) (k : AccKind) (l : List (Nat × Nat)) : List (Nat × Nat × Trans) :=
  match accessAll s (hereOf s) sp n k true l with
  | .ok ts => ts
  | _ => []

theorem accessOk_of {s : State} {sp : Space} {n : Nat} {k : AccKind} {l : List (Nat × Nat)}
    (hc : (match accessAll s (hereOf s) sp n k true l with | .ok _ => true | _ => false) = true) :
    AccessOk s (hereOf s) sp n k true l (accOf s sp n k l) := by
  simp only [AccessOk, accOf]
  split <;> simp_all

/-- The addresses in operand `k` of each lane, and an offset. -/
def addrs (i : Instr) (s : State) (k : Nat) (sp : Space := .global) (off : Option Word := none) : List (Nat × Nat) :=
  (insOf i s).map fun x => (x.lane, effAddr sp (x.s k) off)

/-- The plain addresses in operand 0 of each lane. -/
def plain (i : Instr) (s : State) : List (Nat × Nat) := (insOf i s).map fun x => (x.lane, (x.s 0).toNat)


/-! ### Steps and decoding -/

/-- A placed `ICMPS.lt p3, v4, #0`. -/
def placed : State := State.reset.withFetchWord 32 0x6C3808C0
theorem moves_placed : moves placed = [.word 0 0] := by decide +kernel
def placedHere : Here :=
  match wordPacket placed 0 0 with
  | some pk => hereOf { placed with cur := some pk }
  | none => hereOf placed
theorem test_placed : ((wordPacket placed 0 0).isSome = true) ∧ hdrClass placedHere.hdr = some .I ∧
    (fetched placedHere 0 1 { placed with cur := wordPacket placed 0 0 }).map (·.1) = some [0x6C3808C0] := by
  refine ⟨?_, ?_, ?_⟩ <;> decide +kernel
theorem wit_step : enabledIntervalBoundary placed = false ∧ nextMove placed = (some (.word 0 0), placed) ∧
    OneInstr .I [0x6C3808C0] (.icmps 3 2 (.v 4) (.inl 0)) ∧ 1 ≤ min placedHere.first.rem.toNat 4 := by
  refine ⟨by decide +kernel, ?_, ⟨by simp, ⟨1, by rfl⟩, fun k h1 h2 => ?_⟩, by decide +kernel⟩
  · simp only [nextMove, moves_placed]
  · simp at h2; omega
theorem wit_canonical : Mem.wf placed.mem = true := by decide +kernel
theorem wit_fetch : (match translate placed 0 1 (2 ^ 32 + 4) 0 .fetch false with
      | .ok tr => !lineMoving placed tr && !placed.bad.contains (tr.key / 128) && !stale placed 1 tr
      | _ => false) = true := by decide +kernel
theorem wit_keeping : ∀ q ∈ placed.teams, q.phase ≠ .saved := by decide +kernel
/-- No fibre of the packet is active. -/
def placedPast : State := { placed with groups := placed.groups.map fun g => { g with lanes := mapLanes g.lanes fun _ x => { x with active := false } } }
theorem wit_step_past : enabledIntervalBoundary placedPast = false ∧ moves placedPast = [.word 0 0] ∧
    ((wordPacket placedPast 0 0).map fun pk => (({ placedPast with cur := some pk } : State).here?.map (·.act))) = some (some 0) := by
  refine ⟨?_, ?_, ?_⟩ <;> decide +kernel
theorem wit_booted : placed.sec.booted = true ∧ placedPast.sec.booted = true := by decide +kernel
theorem wit_encode : (Instr.rbegin 5 16 8).cls = some .G ∧ (Instr.rbegin 5 16 8).wf = true := by decide

/-! ### Ill-formed terms, one for each check -/

theorem test_illFormed : ([
    .mov (.v 0) (.inl 32),                                      -- the literal code that stands for an extension word (R42)
    .iadd64 (.v 1) (.v 0) (.v 2), .iadd64 (.v 0) (.v 1) (.v 2), -- an odd pair (R43)
    .iadd64 (.v 0) (.s 1) (.v 2), .iadd64 (.v 0) (.c 1) (.v 2),
    .iadd (.v 0) (.ext 1) (.ext 2),                             -- two extension words (R45)
    .iadd (.v 0) (.pop 1) (.peek 1),                            -- a channel popped and peeked (R47)
    .ld (.v 2) (.v 0) none .b128 .normal .global false,         -- a quadruple not aligned
    .ld (.s 4) (.v 0) none .b128 .normal .global false,         -- 128 bits into scalars
    .ld (.v 4) (.v 0) none .b32 .normal .global true,           -- sign extension of 32 bits
    .ld (.v 4) (.v 0) none .b32 .keep .scratch false,           -- a policy of the scratchpad
    .st (.v 4) (.v 0) none .b32 .keep .const,
    .lda (.v 4) (.v 0) none .b128 .normal .device, .stl (.v 4) (.v 0) .b128 .device,
    .ldp (.v 4) (.v 0) none .b8,
    .atom (.v 4) (.v 0) (.v 2) (.v 0) .fadd .rlx .device true,  -- fadd on 64 bits, kmax on 32, a third operand without cas
    .atom (.v 4) (.v 0) (.v 2) (.v 0) .kmax .rlx .device false,
    .atom (.v 4) (.v 0) (.v 2) (.v 3) .add .rlx .device false,
    .red (.v 0) (.v 2) .exch .device false,
    .cctl (.v 1) .l1all,
    .mma 0 none false false false (.v 0) (.v 1) (.v 0) 3 0,     -- a handle that is not used
    .mma 0 none false false false (.v 0) (.v 1) (.v 2) 0 0,
    .mmac 0 none false false (.v 1) 4 0 2 (.v 0),
    .mstore 0 none false 0 (.v 2) .raw (some .device) 0 (.v 4), -- a maximum of raw words, a shift of f32 forms
    .mstore 0 none false 0 (.v 2) .f16 none 1 (.v 0),
    .mshape 0 0 .ci8 .k16 .i32 false false false 32,            -- families that differ, a wrong accumulator, K of 0
    .mshape 0 0 .ci8 .ci8 .f32 false false false 32, .mshape 0 0 .ci8 .ci8 .i32 false false false 0,
    .bfi (.v 0) (.v 1) (.v 2) (.v 3) 33,
    .plog 3 .mov 1 false 2 false,
    .tcmp 3 3 (.v 0) (.v 1),
    .fork 5 65 0, .endF (some (65, 0)), .rbegin 5 60 5, .event 0xFF (.v 0),
    .schedulerVote 0 0] : List Instr).all (fun i => !i.wf) = true := by decide +kernel
/-- Registers and counts beyond a window of 16. -/
theorem test_window : ([.mov (.v 16) (.v 0), .mov (.v 0) (.v 16), .fork 5 17 0, .rbegin 5 12 5] : List Instr).all
    (fun i => i.wf && fits i 64 && !fits i 16) = true := by decide +kernel

/-! ### Words of the manual -/

/-- Words that the manual writes out beside their instructions ("encodes as"). -/
theorem test_words :
    decode .F [0x40180000, 0x00002000] = .ok (.fcvt (.v 6) (.v 0) 2 .dyn, 2) ∧
    decode .F [0x70340805] = .ok (.tcmp 3 1 (.v 4) (.v 5), 1) ∧
    decode .M [0x04040864, 8] = .ok (.st (.v 2) (.v 8) (some 8) .b64 .normal .global, 2) ∧
    decode .M [0x08181083] = .ok (.lda (.v 6) (.v 8) none .b32 .normal .device, 1) ∧
    decode .M [0x141010C1, 0x01800000] = .ok (.atom (.v 4) (.v 8) (.inl 1) (.v 0) .add .rlx .device false, 2) ∧
    decode .M [0x20000000, 0x00001800] = .ok (.fence .full .device, 2) ∧
    decode .M [0x241410C1, 0x05800000] = .ok (.waitc (.v 5) (.v 8) (.inl 1) .eq .device false, 2) ∧
    decode .C [0x400000FF] = .ok (.trap 0xFF, 1) ∧
    decode .C [0x4C100800] = .ok (.rdsys (.v 4) 0x020, 1) ∧ decode .C [0x50080003] = .ok (.wrsys 0x020 (.v 3), 1) := by
  decide +kernel
theorem test_words_engines :
    decode .K [0x00600008] = .ok (.thdl 3 (.v 8), 1) ∧
    decode .K [0x1010400A] = .ok (.stgpWait (.v 4) 1 (.v 10), 1) ∧ decode .K [0x1002400A] = .ok (.stgpFill 1 (.v 10), 1) ∧
    decode .K [0x1C5000C0] = .ok (.lease 5 (.inl 0), 1) ∧ decode .K [0x20000000] = .ok (.lfree, 1) ∧
    decode .X [0x1801B400, 0x00000020] = .ok (.mshape 0 0 .ci8 .ci8 .i32 false false false 32, 2) ∧
    decode .X [0x040080C0, 0x00000E00] = .ok (.mma 0 (some 0) false false false (.inl 0) (.v 7) (.v 0) 0 0, 2) ∧
    decode .X [0x1C50100A] = .ok (.benq 5 (.v 8) (.v 10), 1) ∧ decode .X [0x24000002] = .ok (.mreset (.v 2), 1) := by
  decide +kernel
theorem test_words_slices :
    decode .C [0x58500007] = .ok (.mark (.v 20) 7, 1) ∧ decode .C [0x60000014] = .ok (.graft (.v 20), 1) ∧
    decode .C [0x64540014] = .ok (.sdrop (.v 21) (.v 20), 1) ∧ decode .C [0x68580014] = .ok (.sinfo (.v 22) (.v 20), 1) ∧
    decode .G [0x000000C1] = .ok (.beat (.inl 1), 1) ∧ decode .G [0x00000043] = .ok (.beat (.s 3), 1) ∧
    decode .G [0x08000000] = .ok (.rcommit, 1) ∧ decode .G [0x0C000000] = .ok (.rabort, 1) ∧
    decode .G [0x10048C04] = .ok (.event 0x123 (.v 4), 1) ∧
    decode .I [0xA00400C1, 0x00000AC0] = .ok (.shfl (.v 1) (.v 0) (.inl 1) (.inl 0) .w16 .up, 2) := by decide +kernel
/-- The header of 12 words of class I without flags (R32), one of no class, and opcodes that no class has (R53). -/
theorem test_headers : hdrOk 0xC0001FE0 = true ∧ hdrCount 0xC0001FE0 = 12 ∧ hdrClass 0xC0001FE0 = some .I ∧
    hdrOk 0xCE001FE0 = false ∧ decode .G [0x14000000] = .error .illegalOpcode ∧
    decode .I [0x00000001, 0] ≠ .error .illegalOpcode ∧ decode .I [0x04000000] = .ok (.iadd (.v 0) (.v 0) (.v 0), 1) := by
  decide +kernel

/-! ### Classes I and F -/

/-- Instructions of class I that write a register. -/
def intWords : List Instr :=
  [.mov (.v 10) (.v 0), .iadd (.v 10) (.v 0) (.v 2), .isub (.v 10) (.v 0) (.v 2), .imul (.v 10) (.v 0) (.v 2), .imulhs (.v 10) (.v 0) (.v 2), .imulhn (.v 10) (.v 0) (.v 2), .imad (.v 10) (.v 0) (.v 2) (.v 1) .sat, .imin (.v 10) (.v 0) (.v 2),
   .imax (.v 10) (.v 0) (.v 2), .iminn (.v 10) (.v 0) (.v 2), .imaxn (.v 10) (.v 0) (.v 2), .iabs (.v 10) (.v 0), .ineg (.v 10) (.v 0), .andI (.v 10) (.v 0) (.v 2), .orI (.v 10) (.v 0) (.v 2), .xorI (.v 10) (.v 0) (.v 2), .andn (.v 10) (.v 0) (.v 2),
   .shl (.v 10) (.v 0) (.v 2), .shr (.v 10) (.v 0) (.v 2), .sar (.v 10) (.v 0) (.v 2), .rotl (.v 10) (.v 0) (.v 2), .popc (.v 10) (.v 0), .clz (.v 10) (.v 0), .brev (.v 10) (.v 0), .bfx (.v 10) (.v 0) (.v 2) (.v 1) true]
/-- The other instructions of class I. -/
def intWords2 : List Instr :=
  [.bfi (.v 10) (.v 0) (.v 2) (.v 1) 7, .isel (.v 10) (.v 0) (.v 2) false 3, .icmps 3 2 (.v 0) (.v 2), .icmpn 3 2 (.v 0) (.v 2), .plog 3 .and 1 false 2 true, .prd (.v 10) true,
   .pwr (.v 0) true, .iadd64 (.v 10) (.v 0) (.v 2), .isub64 (.v 10) (.v 0) (.v 2), .shl64 (.v 10) (.v 0) (.v 2), .shr64 (.v 10) (.v 0) (.v 2), .lea (.v 10) (.v 0) (.v 2) (.v 1) true 3, .imulw (.v 10) (.v 0) (.v 2),
   .iaddw (.v 10) (.v 0) (.v 2), .icmp64 3 2 (.v 0) (.v 2), .shfl (.v 10) (.v 0) (.v 2) (.v 1) .w16 .up, .vote 3 1 (.v 0), .ballot (.v 10) (.v 0), .elect 3 true,
   .cvti (.v 10) (.v 0) (.v 2) true .i8 .n32, .rand (.v 10) (.v 0) (.v 2) (.v 1) .n64 .r4]
/-- Instructions of class F on f32. -/
def fltWords : List Instr :=
  [.fadd (.v 10) (.v 0) (.v 2) .rne, .fsub (.v 10) (.v 0) (.v 2) .rtz, .fmul (.v 10) (.v 0) (.v 2) .dyn, .ffma (.v 10) (.v 0) (.v 2) (.v 1) true false .rup, .fmin (.v 10) (.v 0) (.v 2), .fmax (.v 10) (.v 0) (.v 2),
   .fabs (.v 10) (.v 0), .fneg (.v 10) (.v 0), .fcmp 3 2 (.v 0) (.v 2), .frcp (.v 10) (.v 0) .rne, .frsq (.v 10) (.v 0) .rne, .fsqrt (.v 10) (.v 0) .rne, .fexp2 (.v 10) (.v 0), .flog2 (.v 10) (.v 0),
   .ftrig (.v 10) (.v 0) true, .frnd (.v 10) (.v 0) .rdn, .fcvt (.v 10) (.v 0) 0 .rne, .fclass (.v 10) (.v 0), .fkey (.v 10) (.v 0), .fscale (.v 10) (.v 0) (.v 2) .rne]
/-- Instructions of class F on f64 and tapered numbers. -/
def fltWords2 : List Instr :=
  [.dadd (.v 10) (.v 0) (.v 2) false .rne, .dmul (.v 10) (.v 0) (.v 2) .rne, .dfma (.v 10) (.v 0) (.v 2) (.v 4) false true .rne, .dcmp 3 2 (.v 0) (.v 2), .tadd (.v 10) (.v 0) (.v 2), .tsub (.v 10) (.v 0) (.v 2),
   .tmul (.v 10) (.v 0) (.v 2), .tfma (.v 10) (.v 0) (.v 2) (.v 1) true true, .tcmp 3 2 (.v 0) (.v 2), .tneg (.v 10) (.v 0), .trcp (.v 10) (.v 0), .trsq (.v 10) (.v 0)]
/-- One of every instruction of class I and class F. -/
def vecWords : List Instr := (intWords ++ intWords2) ++ (fltWords ++ fltWords2)
/-- The word issues and its operands are read, before a clause of its own. -/
def vecReady (i : Instr) : Bool :=
  canIssue i (two (BitVec.ofNat 4 i.words) (7, 8, 9) (1, 2, 3)) && (constWords (shape i).srcs).isEmpty
theorem vecWords_ready : vecWords.all vecReady = true := by decide +kernel
theorem wit_yields : ∀ i ∈ vecWords, Ready i (two (BitVec.ofNat 4 i.words) (7, 8, 9) (1, 2, 3)) := by
  intro i hi
  have h : vecReady i = true := List.all_eq_true.mp vecWords_ready i hi
  exact ready_of h

/-- Two fibres before `n` words. -/
def vec1 (n : BitVec 4) : State := two n (7, 8, 9) (1, 2, 3)
def outs1 : List LaneOut := (insOf (.iadd (.v 10) (.v 0) (.v 2)) (vec1 1)).map fun _ => { val := 5, pset := [(3, true)], fl := 1 }
theorem wit_results : (vec1 1).group? (hereOf (vec1 1)).g.gid = some (hereOf (vec1 1)).g ∧
    (hereOf (vec1 1)).c.pk.gid = (hereOf (vec1 1)).g.gid ∧ outs1.length = (insOf (.iadd (.v 10) (.v 0) (.v 2)) (vec1 1)).length ∧
    LanesOk (hereOf (vec1 1)) (List.zip ((insOf (.iadd (.v 10) (.v 0) (.v 2)) (vec1 1)).map (·.lane)) outs1) ∧
    (assoc (List.zip ((insOf (.iadd (.v 10) (.v 0) (.v 2)) (vec1 1)).map (·.lane)) outs1) (hereOf (vec1 1)).lead).isSome = true ∧
    (∀ o ∈ outs1, ∀ q ∈ o.pset, q.1 < 64) := by
  refine ⟨by decide +kernel, by decide +kernel, by decide +kernel, ⟨by decide +kernel, by decide +kernel⟩, by decide +kernel, by decide +kernel⟩

/-- The value of v10 in lane 0 after a word, where v0 to v2 hold what is given; by hand from R98 to R105. -/
def v10 (i : Instr) (x : Word × Word × Word) : Word := regOf (after (exec i (two (BitVec.ofNat 4 i.words) x x))) 0 10
theorem test_integer :
    [v10 (.isub (.v 10) (.v 0) (.v 1)) (3, 5, 0), v10 (.imulhs (.v 10) (.v 0) (.v 1)) (0xFFFFFFFF, 2, 0),
     v10 (.imulhn (.v 10) (.v 0) (.v 1)) (0xFFFFFFFF, 2, 0), v10 (.sar (.v 10) (.v 0) (.v 1)) (0x80000000, 40, 0),
     v10 (.shl (.v 10) (.v 0) (.v 1)) (1, 32, 0), v10 (.iabs (.v 10) (.v 0)) (0x80000000, 0, 0),
     v10 (.clz (.v 10) (.v 0)) (0, 0, 0), v10 (.imad (.v 10) (.v 0) (.v 1) (.v 2) .sat) (0x7FFFFFFF, 2, 0),
     v10 (.bfx (.v 10) (.v 0) (.v 1) (.v 2) true) (0x80, 4, 4), v10 (.cvti (.v 10) (.v 0) (.v 1) true .i8 .i32) (300, 0, 0)] =
    [0xFFFFFFFE, 0xFFFFFFFF, 1, 0xFFFFFFFF, 0, 0x80000000, 32, 0x7FFFFFFF, 0xFFFFFFF8, 127] := by decide +kernel
/-- 1 + 1, 1 - 1, 3 · 0.5, the reciprocal of 4, the root of 4, the class of -0, 1.5 to f16 (R135 to R147). -/
theorem test_float :
    [v10 (.fadd (.v 10) (.v 0) (.v 1) .rne) (0x3F800000, 0x3F800000, 0), v10 (.fsub (.v 10) (.v 0) (.v 1) .rne) (0x3F800000, 0x3F800000, 0),
     v10 (.fmul (.v 10) (.v 0) (.v 1) .rne) (0x40400000, 0x3F000000, 0), v10 (.frcp (.v 10) (.v 0) .rne) (0x40800000, 0, 0),
     v10 (.fsqrt (.v 10) (.v 0) .rne) (0x40800000, 0, 0), v10 (.fneg (.v 10) (.v 0)) (0x3F800000, 0, 0)] =
    [0x40000000, 0, 0x3FC00000, 0x3E800000, 0x40000000, 0xBF800000] := by decide +kernel
theorem wit_finite : ∀ f ∈ [fmt32, fmt64], f.Finite 0 ∧ f.Finite 1 ∧ f.Finite (f.inf / 2) ∧ f.Finite (f.inf - 1) ∧
    f.Nan f.dnan ∧ f.Nan (f.inf + 1) ∧ ¬f.Nan f.inf ∧ ¬f.Finite f.inf ∧ f.inf < 2 ^ f.width ∧ f.value 0 = 0 ∧ 0 < f.value 1 := by
  decide +kernel
theorem wit_tapered : tap32.Real 0 ∧ tap32.Real 1 ∧ tap32.Real 0x7FFFFFFF ∧ tap32.Real 0xFFFFFFFF ∧ tap32.value 0 = 0 ∧
    0 < tap32.value 0x40000000 ∧ tap32.value 0xC0000000 < 0 := by decide +kernel
/-- The largest numbers, the least ones, and values of the tables of R121 and R123. -/
theorem test_values : fmt32.value 0x3FC00000 = 3 / 2 ∧ fmt32.value 0x80000001 = -1 / 2 ^ 149 ∧ fmt64.value 0x4008000000000000 = 3 ∧
    fmt32.mag fmt32.inf = 2 ^ 128 ∧ tap32.value 0x7FFFFFFF = 2 ^ 240 ∧ tap32.value 0xFFFFFFFF = -1 / 2 ^ 240 ∧
    tap32.value 0x46000000 = 3 ∧ tap32.value 0x40000008 = 1 + 1 / 2 ^ 23 ∧ tapMag 3 32 (2 * 0x7FFFFFFE + 1) = 2 ^ 236 := by
  decide +kernel

/-! ### Class M -/

/-- Two fibres whose v0 names 0x3000 and 0x3040, and v2 holds data. -/
def mem2 (n : BitVec 4) (x y : Word) : State := two n (0x3000, 0, x) (0x3040, 0, y)
/-- Two fibres whose v0 names offsets 0x10 and 0x14 of the scratchpad. -/
def scr2 (n : BitVec 4) (x y : Word) : State := two n (0x10, 0, x) (0x14, 0, y)

def ld32 (sp : Space) : Instr := .ld (.v 6) (.v 0) (some 16) .b32 .normal sp false
/-- Constant bank 0 is mapped at address 0x4000 (R165). -/
def cst2 : State := st (grp (fib (hdr 2) 2 (0x10, 0, 0)) (fib (hdr 2) 2 (0x20, 0, 0))) {} {}
  { cbank := (Vector.replicate 16 0).set 0 0x0000000000004001 }

theorem wit_load_global : Ready (ld32 .global) (mem2 2 1 2) ∧
    AccessOk (mem2 2 1 2) (hereOf (mem2 2 1 2)) .global 4 .load true (addrs (ld32 .global) (mem2 2 1 2) 0 .global (some 16))
      (accOf (mem2 2 1 2) .global 4 .load (addrs (ld32 .global) (mem2 2 1 2) 0 .global (some 16))) ∧
    otRoom (mem2 2 1 2) 0 (accsOf (accOf (mem2 2 1 2) .global 4 .load
      (addrs (ld32 .global) (mem2 2 1 2) 0 .global (some 16))) (fun _ => 0) fun _ => 0) = true :=
  ⟨ready_of (by decide), accessOk_of (by decide), by decide⟩
theorem wit_load_scratch : Ready (ld32 .scratch) (scr2 2 1 2) ∧
    AccessOk (scr2 2 1 2) (hereOf (scr2 2 1 2)) .scratch 4 .load true (addrs (ld32 .scratch) (scr2 2 1 2) 0 .scratch (some 16))
      (accOf (scr2 2 1 2) .scratch 4 .load (addrs (ld32 .scratch) (scr2 2 1 2) 0 .scratch (some 16))) :=
  ⟨ready_of (by decide), accessOk_of (by decide)⟩
theorem wit_load_const : Ready (ld32 .const) cst2 ∧
    AccessOk cst2 (hereOf cst2) .const 4 .load true (addrs (ld32 .const) cst2 0 .const (some 16))
      (accOf cst2 .const 4 .load (addrs (ld32 .const) cst2 0 .const (some 16))) :=
  ⟨ready_of (by decide), accessOk_of (by decide)⟩

def st32 (sp : Space) : Instr := .st (.v 2) (.v 0) none .b32 .normal sp
def stl32 : Instr := .stl (.v 2) (.v 0) .b32 .device
theorem wit_store : Ready (st32 .global) (mem2 1 1 2) ∧
    AccessOk (mem2 1 1 2) (hereOf (mem2 1 1 2)) .global 4 .store true (addrs (st32 .global) (mem2 1 1 2) 1)
      (accOf (mem2 1 1 2) .global 4 .store (addrs (st32 .global) (mem2 1 1 2) 1)) ∧
    (∀ p ∈ accOf (mem2 1 1 2) .global 4 .store (addrs (st32 .global) (mem2 1 1 2) 1), buffers (hereOf (mem2 1 1 2)) p = false) ∧
    sqRoom (hereOf (mem2 1 1 2)).g (sectorEntries none (storeRecs 10 false
      (accOf (mem2 1 1 2) .global 4 .store (addrs (st32 .global) (mem2 1 1 2) 1)) fun _ => [])) = true :=
  ⟨ready_of (by decide), accessOk_of (by decide), by decide, by decide⟩
theorem wit_stl : Ready stl32 (mem2 1 1 2) := ready_of (by decide)

def atom32 (fn : AtomFn) : Instr := .atom (.v 6) (.v 0) (.v 2) (.inl 0) fn .acqrel .device false
theorem wit_atom : Ready (atom32 .add) (mem2 2 1 2) ∧
    AccessOk (mem2 2 1 2) (hereOf (mem2 2 1 2)) .global 4 .atomic true (plain (atom32 .add) (mem2 2 1 2))
      (accOf (mem2 2 1 2) .global 4 .atomic (plain (atom32 .add) (mem2 2 1 2))) :=
  ⟨ready_of (by decide), accessOk_of (by decide)⟩
def red32 : Instr := .red (.v 0) (.v 2) .add .device false
theorem wit_red : Ready red32 (mem2 1 1 2) ∧
    AccessOk (mem2 1 1 2) (hereOf (mem2 1 1 2)) .global 4 .atomic true (plain red32 (mem2 1 1 2))
      (accOf (mem2 1 1 2) .global 4 .atomic (plain red32 (mem2 1 1 2))) :=
  ⟨ready_of (by decide), accessOk_of (by decide)⟩
theorem wit_red_room : otRoom (mem2 1 1 2) 0 (accsOf (accOf (mem2 1 1 2) .global 4 .atomic (plain red32 (mem2 1 1 2))) (fun _ => 0) fun _ => 0) = true ∧
    ∀ p ∈ accOf (mem2 1 1 2) .global 4 .atomic (plain red32 (mem2 1 1 2)), buffers (hereOf (mem2 1 1 2)) p = false := by decide +kernel
/-- The 63rd `RED` since the last flush has issued. -/
def red63 : State := st { grp (fib (hdr 1) 1 (0x3000, 0, 1)) (fib (hdr 1) 1 (0x3040, 0, 1)) with redCount := 63 }
theorem wit_red_64 : Ready red32 red63 ∧ (hereOf red63).g.redCount + 1 = 64 := ⟨ready_of (by decide), by decide⟩
theorem wit_redf : Issues .redf (mem2 1 1 2) (hereOf (mem2 1 1 2)) ∧ (mem2 1 1 2).op? (mem2 1 1 2).serial = none :=
  ⟨issues_of (by decide), by decide⟩
/-- A buffered reduction of the team. -/
def redHeld : State := st (grp (fib (hdr 1) 1 (0x3000, 0, 1)) (fib (hdr 1) 1 (0x3040, 0, 1))) {}
  { reds := [{ gid := 1, tid := 1, va := 0x3000, value := 5 }] }
theorem wit_redf_drains : Issues .redf redHeld (hereOf redHeld) ∧
    ((redHeld.coreOf 0).reds.any fun e => e.tid == 1) = true := ⟨issues_of (by decide), by decide⟩

theorem wit_fence : Issues (.fence .full .device) (mem2 1 1 2) (hereOf (mem2 1 1 2)) := issues_of (by decide)
def pref1 : Instr := .pref (.v 0) none true .normal
theorem wit_pref : Ready pref1 (mem2 1 1 2) ∧
    otRoom (mem2 1 1 2) 0 (prefAccs (mem2 1 1 2) (hereOf (mem2 1 1 2)) none true (insOf pref1 (mem2 1 1 2))) = true :=
  ⟨ready_of (by decide), by decide⟩
/-- A core that caches a sector of 0x3000, a constant word and an instruction. -/
def cached : State := st (grp (fib (hdr 1) 1 (0x3000, 0, 1)) (fib (hdr 1) 1 (0x3040, 0, 1))) {}
  { l1 := [{ sector := 0x13000 / 128 }, { sector := 7 }], ccache := [((1, 0), [5]), ((1, 5), [])], icache := [((1, 0x20), [3])] }
theorem wit_cctl : (∀ op : CctlOp, op ≠ .cbank → Ready (.cctl (.v 0) op) cached) ∧
    cctlCheck cached (hereOf cached) (plain (.cctl (.v 0) .wb) cached) = .ok ((plain (.cctl (.v 0) .wb) cached).map fun p =>
      (p.1, p.2, page0.at_ p.2)) ∧
    Ready (.cctl (.inl 0) .cbank) cached ∧ ∀ x ∈ insOf (.cctl (.inl 0) .cbank) cached, (x.w 0).toNat ≤ 15 :=
  ⟨fun op _ => by cases op <;> exact ready_of (by decide), by rfl, ready_of (by decide), by decide⟩
def waitc1 : Instr := .waitc (.v 6) (.v 0) (.inl 1) .eq .device false
theorem wit_waitc : Ready waitc1 (mem2 2 1 2) ∧
    AccessOk (mem2 2 1 2) (hereOf (mem2 2 1 2)) .global 4 .load false (plain waitc1 (mem2 2 1 2))
      ((plain waitc1 (mem2 2 1 2)).map fun p => (p.1, p.2, page0.at_ p.2)) ∧
    (∀ x ∈ accsOf ((plain waitc1 (mem2 2 1 2)).map fun p => (p.1, p.2, page0.at_ p.2)) (laneOp (insOf waitc1 (mem2 2 1 2)) 1)
        fun _ => 0, stale (mem2 2 1 2) 1 x.tr = false ∧ lineMoving (mem2 2 1 2) x.tr = false ∧
      readBefore (mem2 2 1 2) 1 10 x 4 = false ∧
      coreSource (mem2 2 1 2) (hereOf (mem2 2 1 2)).g 10 false x 4 = .home) ∧
    heldBack (mem2 2 1 2) 1 10 false = false ∧ (mem2 2 1 2).op? 10 = none :=
  ⟨ready_of (by decide), rfl, by decide, by decide, by decide⟩

def chcfg1 : Instr := .chcfg (.ext 0x40) (.ext 16) false 3
theorem wit_chcfg : Ready chcfg1 (mem2 3 1 2) ∧ (insOf chcfg1 (mem2 3 1 2)).head?.isSome = true ∧
    16 ≤ 4096 ∧ (∃ e, 16 = 2 ^ e) ∧ 0x40 % 4 = 0 ∧ 0x40 + 16 * 4 ≤ (hereOf (mem2 3 1 2)).t.scrSize :=
  ⟨ready_of (by decide), by decide, by decide, ⟨4, by decide⟩, by decide, by decide⟩
/-- Channel 3 of the team holds two elements. -/
def chans1 : State := st (grp (fib (hdr 1) 1 (3, 0, 1)) (fib (hdr 1) 1 (4, 0, 1))) { scratch := [(0x40, 7), (0x44, 9)] }
  { chans := [(3, { owner := 1, depth := 16, base := 0x40, count := 2 })] }
theorem wit_chstat : Ready (.chstat (.v 6) (.v 0)) chans1 ∧ (chans1.coreOf 0).chans.length = 1 :=
  ⟨ready_of (by decide), by decide⟩
theorem wit_channel : ∃ k t, assoc (chans1.coreOf 0).chans 3 = some k ∧ chans1.team? 1 = some t ∧ k.count < k.depth ∧
    Mem.wf t.scratch = true := ⟨_, _, rfl, rfl, by decide, by decide⟩
theorem test_pop : regOf (after (exec (.iadd (.v 6) (.pop 3) (.inl 1)) chans1)) 0 6 = 8 ∧
    regOf (after (exec (.iadd (.v 6) (.pop 3) (.inl 1)) chans1)) 1 6 = 10 := by decide

theorem wit_push : Ready (.iadd (.push 3) (.pop 3) (.v 0)) chans1 ∧
    (shape (.iadd (.push 3) (.pop 3) (.v 0))).dst.map (·.1) = some (.push 3) ∧
    ((assoc ((popAll chans1 0 2 (shape (.iadd (.push 3) (.pop 3) (.v 0)))).coreOf 0).chans 3).map fun k => (k.count, k.depth)) =
      some (0, 16) ∧ (chans1.team? 1).isSome = true :=
  ⟨ready_of (by decide), by decide, by decide, by decide⟩
/-- Lane 0's 7 + 3 and lane 1's 9 + 4 stand in the channel behind nothing. -/
theorem test_push :
    let t := after (exec (.iadd (.push 3) (.pop 3) (.v 0)) chans1)
    (assoc (t.coreOf 0).chans 3).map (fun k => (List.range k.count).map (k.elem ((t.team? 1).getD {}).scratch)) = some [10, 13] := by
  decide
/-- Two fibres with a trap handler before `CHCFG`, and the channels of their core. -/
def configuring (l : List (Nat × Channel)) : State :=
  st (grp (fib (hdr 3) 3 (7, 8, 9)) (fib (hdr 3) 3 (1, 2, 3))) { tvec := 0x1000 } { chans := l }
def chcfgOf (base depth : Word) : Instr := .chcfg (.ext base) (.ext depth) false 3
/-- A channel of another team, one that holds elements, a depth of 3, a buffer past the allocation, and one that overlaps. -/
theorem wit_chcfg_faults :
    Ready (chcfgOf 0x40 16) (configuring [(3, { owner := 2 })]) ∧ Ready (chcfgOf 0x40 16) (configuring [(3, { owner := 1, count := 2 })]) ∧
    Ready (chcfgOf 0x40 3) (configuring []) ∧ (¬ ∃ e, 3 = 2 ^ e) ∧ Ready (chcfgOf 0xFF0 16) (configuring []) ∧ 4096 < 0xFF0 + 16 * 4 ∧
    Ready (chcfgOf 0x40 16) (configuring [(5, { owner := 1, depth := 16, base := 0x60 })]) ∧
    overlap 0x60 (16 * 4) 0x40 (16 * 4) = true ∧ (hereOf (configuring [])).t.tvec ≠ 0 :=
  ⟨ready_of (by decide), ready_of (by decide), ready_of (by decide), fun ⟨e, he⟩ => by
      rcases e with _ | _ | e
      · simp at he
      · simp at he
      · omega,
    ready_of (by decide), by decide, ready_of (by decide), by decide, by decide⟩
theorem test_chcfg_faults : [(chcfgOf 0x40 16, [(3, ({ owner := 2 } : Channel))]), (chcfgOf 0x40 16, [(3, { owner := 1, count := 2 })]),
      (chcfgOf 0x40 3, []), (chcfgOf 0xFF0 16, []), (chcfgOf 0x40 16, [(5, { owner := 1, depth := 16, base := 0x60 })])].map
      (fun p => ((((after (exec p.1 (configuring p.2))).group? 1).getD {}).lane 0).ecause) = [0x15, 0x17, 0x17, 0x0C, 0x17] := by
  decide +kernel

/-! ### Class C -/

/-- Two fibres before the last word of a clause whose header stands at 0x1000, a clause start. -/
def ctl : State := two 1 (0x1000, 0, 1) (0x1000, 0, 2)
theorem wit_nop : Issues .nop ctl (hereOf ctl) := issues_of (by decide)
theorem wit_bra : Issues (.bra 0 false 0) ctl (hereOf ctl) ∧ clauseStart ctl (hereOf ctl).t ((hereOf ctl).target (0 : BitVec 19)) = true :=
  ⟨issues_of (by decide), by decide⟩
theorem wit_brx : Ready (.brx (.v 0)) ctl ∧ ∀ x ∈ insOf (.brx (.v 0)) ctl, clauseStart ctl (hereOf ctl).t (x.s 0).toNat = true :=
  ⟨ready_of (by decide), by decide⟩
theorem wit_call : Issues (.call 0 false 0) ctl (hereOf ctl) ∧
    (∀ j, j < 32 → (hereOf ctl).act.getLsbD j = true →
      ((hereOf ctl).g.lane j).stackLo.toNat + 8 ≤ ((hereOf ctl).g.lane j).sp.toNat) ∧
    AccessOk ctl (hereOf ctl) .global 8 .store true [(0, 0x20F8), (1, 0x20F8)]
      (accOf ctl .global 8 .store [(0, 0x20F8), (1, 0x20F8)]) :=
  ⟨issues_of (by decide), by decide, accessOk_of (by decide)⟩
theorem wit_callx : Ready (.callx (.v 0)) ctl ∧ ∀ x ∈ insOf (.callx (.v 0)) ctl, (x.s 0).toNat < 2 ^ 56 :=
  ⟨ready_of (by decide), by decide⟩
theorem wit_ret : Issues .ret ctl (hereOf ctl) ∧ AccessOk ctl (hereOf ctl) .global 8 .load true [(0, 0x2100), (1, 0x2100)]
    (accOf ctl .global 8 .load [(0, 0x2100), (1, 0x2100)]) := ⟨issues_of (by decide), accessOk_of (by decide)⟩
theorem wit_return : ∃ t g, ctl.team? 1 = some t ∧ ctl.group? 1 = some g ∧ clauseStart ctl t 0x1000 = true :=
  ⟨_, _, rfl, rfl, by decide⟩

theorem wit_fork : Issues (.fork 5 2 0) (two 2 (7, 8, 9) (1, 2, 3)) (hereOf (two 2 (7, 8, 9) (1, 2, 3))) ∧
    ((hereOf (two 2 (7, 8, 9) (1, 2, 3))).g.lane 0).status.free = false ∧
    ((hereOf (two 2 (7, 8, 9) (1, 2, 3))).g.lane 2).status.free = true := ⟨issues_of (by decide), by decide, by decide⟩
/-- A group whose every lane runs. -/
def fullGroup : Group := { gid := 1, tid := 1, lanes := Vector.replicate 32 (fib 0 2 (0, 0, 0)) }
theorem wit_fork_full : ∀ k, k < 32 → (fullGroup.lane k).status.free = false := by decide
theorem test_fork : ((((after (exec (.fork 5 2 0) (two 2 (7, 8, 9) (1, 2, 3)))).group? 1).getD {}).lane 3).reg 1 = 2 ∧
    ((((after (exec (.fork 5 2 0) (two 2 (7, 8, 9) (1, 2, 3)))).group? 1).getD {}).lane 3).reg 2 = 0 := by decide
theorem wit_end : Issues (.endF none) ctl (hereOf ctl) ∧ Issues (.endF (some (4, 0))) ctl (hereOf ctl) ∧
    clauseStart ctl (hereOf ctl).t ((hereOf ctl).target (0 : BitVec 18)) = true :=
  ⟨issues_of (by decide), issues_of (by decide), by decide⟩
theorem wit_rcvg : Issues .rcvg ctl (hereOf ctl) := issues_of (by decide)
/-- A team with room for a child group. -/
def roomy : State := st (grp (fib (hdr 1) 1 (7, 8, 9)) (fib (hdr 1) 1 (1, 2, 3))) { launch := { saveSz := 1000000 } } {}
  { gov := { granted := true, grant := #v[8, 1, 1, 1, 1] } }
theorem wit_spawn : Issues (.spawn 5 0) roomy (hereOf roomy) ∧ spawnOk roomy (hereOf roomy).g (hereOf roomy).t = true ∧
    performedAt roomy 1 10 .team = true := ⟨issues_of (by decide), by decide, by decide⟩
theorem wit_spawn_full : Issues (.spawn 5 0) ctl (hereOf ctl) ∧ spawnOk ctl (hereOf ctl).g (hereOf ctl).t = false :=
  ⟨issues_of (by decide), by decide⟩

/-- The group of a state with other lanes, between two cycles of its scheduler. -/
def idle (g : Group) (t : Team := {}) (k : Core := {}) (c : Ctx := {}) : State :=
  { st g t k c with cur := none, cores := [{ k with tlb := [page0] }] }
def atRcvg : Fibre := { fib (hdr 2) 2 (7, 8, 9) with status := .rcvg, rcvg := 0x1004 }
theorem wit_rcvgRelease : (idle (grp atRcvg { atRcvg with rcvg := 0x1010 })).group? 1 ≠ none ∧
    enabledRcvgRelease (idle (grp atRcvg { atRcvg with rcvg := 0x1010 })) 1 = true := by decide
def succ2 : Fibre := { fib (hdr 2) 2 (7, 8, 9) with status := .endedSucc, succ := some (0x1000, 2) }
theorem wit_groupRestart : enabledGroupRestart (idle (grp succ2 { succ2 with status := .ended })) 1 = true ∧
    (((grp succ2 { succ2 with status := .ended }).lane 0)).succ = some (0x1000, 2) := by decide
theorem wit_groupSlotFree : enabledGroupSlotFree (idle (grp { succ2 with status := .ended } {})) 1 = true := by decide

def bar1 (c : Nat) : State := st (grp (fib (hdr 2) 2 (7, 8, 9)) (fib (hdr 2) 2 (1, 2, 3)))
  { bars := (Vector.replicate 16 {}).set 3 { c := c, expected := 4 }, gridBar := 0x5000 }
theorem wit_bara : Ready (.bara 3 false (.inl 4)) (bar1 0) ∧ performedAt (bar1 0) 1 10 .team = true ∧
    (insOf (.bara 3 false (.inl 4)) (bar1 0)).head?.isSome = true := ⟨ready_of (by decide), by decide, by decide⟩
theorem wit_bar_completes : Ready (.bar 3 false (.inl 4)) (bar1 2) ∧ (vget (hereOf (bar1 2)).t.bars 3 {}).c + 2 = 4 :=
  ⟨ready_of (by decide), by decide⟩
theorem wit_arrivals : 0 < 4 ∧ ({ c := 2, expected := 4 } : Bar).c + [0, 1].length ≤ 4 := by decide
theorem wit_barw : Issues (.barw 3 false) (bar1 2) (hereOf (bar1 2)) := issues_of (by decide)
theorem wit_bar_grid : Ready (.bara 3 true (.inl 4)) (bar1 0) := ready_of (by decide)
theorem wit_barw_grid : Issues (.barw 3 true) (bar1 0) (hereOf (bar1 0)) ∧
    translate (bar1 0) 0 1 ((hereOf (bar1 0)).t.barEntry 3) 0 .load false = .ok (page0.at_ 0x5030) ∧
    lineMoving (bar1 0) (page0.at_ 0x5030) = false ∧ stale (bar1 0) 1 (page0.at_ 0x5030) = false ∧
    (bar1 0).bad.contains (0x15030 / 128) = false ∧ heldBack (bar1 0) 1 10 false = false ∧
    ∀ q ∈ (bar1 0).teams, ∀ k ∈ q.parked, k.gid ≠ 1 :=
  ⟨issues_of (by decide), by rfl, by decide, by decide, by decide, by decide, by decide⟩
theorem wit_yield : Issues .yield ctl (hereOf ctl) := issues_of (by decide)
/-- A team that Crozier asks to drain. -/
def draining : State := st (grp (fib (hdr 1) 1 (7, 8, 9)) (fib (hdr 1) 1 (1, 2, 3))) { drain := true }
theorem wit_yield_drain : Issues .yield draining (hereOf draining) ∧ (hereOf draining).t.drain = true :=
  ⟨issues_of (by decide), by decide⟩

/-! ### Traps and special registers -/

/-- The fibres of `ctl` with a trap handler at 0x1000, and a trap record of user mode in lane 1. -/
def handler : State := st (grp (fib (hdr 1) 1 (7, 8, 9)) (fib (hdr 1) 1 (1, 2, 3))) { tvec := 0x1000 }
def live (x : Fibre) : Fibre := { x with estatus := 0x8000, epc := 0x1000, eclause := hdr 2 }
def inTrap : State := st (grp (live (fib (hdr 1) 1 (7, 8, 9))) (live (fib (hdr 1) 1 (1, 2, 3)))) { tvec := 0x1000 }
theorem wit_takeTrap : handler.group? 1 ≠ none ∧ ((handler.team? 1).getD {}).tvec ≠ 0 ∧
    ∀ j, j < 32 → (((handler.group? 1).getD {}).lane j).estatus.getLsbD 15 = false := by decide
theorem wit_fatal_live : (((inTrap.group? 1).getD {}).lane 0).estatus.getLsbD 15 = true := by decide
theorem wit_fatal_noHandler : ((ctl.team? 1).getD {}).tvec = 0 := by decide
theorem wit_trap : Issues (.trap 7) handler (hereOf handler) ∧ (hereOf handler).t.tvec ≠ 0 ∧
    ∀ j, j < 32 → (hereOf handler).act.getLsbD j = true → ((hereOf handler).g.lane j).estatus.getLsbD 15 = false :=
  ⟨issues_of (by decide), by decide, by decide⟩
theorem wit_brkpt : Issues .brkpt handler (hereOf handler) ∧ (hereOf handler).t.dbgctl.getLsbD 0 = false ∧
    (hereOf handler).t.tvec ≠ 0 := ⟨issues_of (by decide), by decide, by decide⟩
def attached : State := st (grp (fib (hdr 1) 1 (7, 8, 9)) (fib (hdr 1) 1 (1, 2, 3))) { tvec := 0x1000, dbgctl := 1 }
theorem wit_brkpt_attached : Issues .brkpt attached (hereOf attached) ∧ (hereOf attached).t.dbgctl.getLsbD 0 = true :=
  ⟨issues_of (by decide), by decide⟩
theorem wit_rte : Issues .rte inTrap (hereOf inTrap) ∧ (hereOf inTrap).user = false ∧
    ∀ j, j < 32 → (hereOf inTrap).act.getLsbD j = true → ((hereOf inTrap).g.lane j).estatus.getLsbD 15 = true ∧
      ((hereOf inTrap).g.lane j).epc.toNat % 4 = 0 ∧
      clauseStart inTrap (hereOf inTrap).t ((hereOf inTrap).g.lane j).epc.toNat = true :=
  ⟨issues_of (by decide), by decide, by decide⟩
/-- Fibres in user mode, with a trap handler. -/
def userMode (n : BitVec 4) : State :=
  st (grp { fib (hdr n) n (7, 8, 9) with mode := false } { fib (hdr n) n (1, 2, 3) with mode := false }) { tvec := 0x1000 }
theorem wit_rte_user : Issues .rte (userMode 1) (hereOf (userMode 1)) ∧ (hereOf (userMode 1)).user = true ∧
    (hereOf (userMode 1)).t.tvec ≠ 0 := ⟨issues_of (by decide), by decide, by decide⟩
theorem test_trap : (((((after (exec (.trap 0xFF) handler)).group? 1).getD {}).lane 0).ecause,
    ((((after (exec (.trap 0xFF) handler)).group? 1).getD {}).lane 0).einfo) = (0x38, 0xFF) := by decide

theorem wit_clk : Ready (.clk (.v 6)) handler := ready_of (by decide)
theorem wit_rdsys : Issues (.rdsys (.v 6) 0x031) handler (hereOf handler) ∧ Issues (.rdsys (.s 6) 0x002) handler (hereOf handler) ∧
    (0x031 : BitVec 12).toNat < 0x700 ∧ 6 + (sysKind 0x031 true).regs ≤ 64 :=
  ⟨issues_of (by decide), issues_of (by decide), by decide, by decide⟩
theorem wit_rdsys_illegal : Issues (.rdsys (.v 6) 0x700) handler (hereOf handler) ∧ 0x700 ≤ (0x700 : BitVec 12).toNat :=
  ⟨issues_of (by decide), by decide⟩
theorem wit_wrsys : Ready (.wrsys 0x020 (.v 0)) handler ∧ Ready (.wrsys 0x031 (.v 0)) handler ∧
    Ready (.wrsys 0x030 (.inl 0)) handler ∧ Ready (.wrsys 0x103 (.inl 1)) handler ∧
    Ready (.wrsys 0x312 (.inl 1)) handler ∧ (hereOf handler).user = false ∧ handler.gvPend = false :=
  ⟨ready_of (by decide), ready_of (by decide), ready_of (by decide), ready_of (by decide), ready_of (by decide),
    by decide, by decide⟩
theorem wit_wrsys_user : Issues (.wrsys 0x030 (.inl 0)) (userMode 1) (hereOf (userMode 1)) ∧
    (hereOf (userMode 1)).user = true ∧ userWrites 0x030 = false ∧ Ready (.wrsys 0x020 (.inl 0)) (userMode 1) ∧
    userWrites 0x020 = true := ⟨issues_of (by decide), by decide, by decide, ready_of (by decide), by decide⟩

theorem wit_wrsys_free : ∀ n ∈ [0x020, 0x030, 0x031, 0x103, 0x107, 0x250, 0x312], writeWaits handler 0 n 0 = false ∧ handler.monitors = [] := by
  decide +kernel

/-! ### Frame slices -/

/-- Whether every lane's part completes. -/
def allOk (r : Sl (List (Nat × FaultRec) × List (Nat × Nat))) : Bool :=
  match r with
  | .ok ([], _) _ => true
  | _ => false
theorem allOk_of {r : Sl (List (Nat × FaultRec) × List (Nat × Nat))} (h : allOk r = true) : ∃ v s, r = .ok ([], v) s := by
  unfold allOk at h
  split at h
  · exact ⟨_, _, rfl⟩
  · simp at h

/-- A fibre with one frame, above it the record of mark 7, 16 bytes over SP; v0 holds a handle. -/
def marked (n : BitVec 4) : Fibre :=
  { fib (hdr n) n (0x80080001, 0, 0) with marks := [{ depth := 0xF0, id := 7 }] }
/-- A heap of four slots at 0x10000, of which slot 1 is live with three references. -/
def heap (n : BitVec 4) : State :=
  { st (grp (marked n) (marked n)) {} {} { slheap := 0x10000, slheapcfg := 0x80000040 } with
    mem := tables.take 6 |> fun l => (([(0x12110, 0x10), (0x12116, 7)] ++ l ++ tables.drop 6) ++
      [(0x6000E, 2), (0x60011, 1), (0x60016, 8), (0x60018, 1), (0x6001A, 24), (0x6001C, 3), (0x6002E, 3), (0x6003E, 4),
       (0x70401, 0x10)]) ++ (List.range 8).map fun k => (0x70408 + k, 0xFF) }
theorem wit_mark : Issues (.mark (.v 6) 9) (heap 1) (hereOf (heap 1)) ∧
    ∃ v s1, eachLane (markLane (hereOf (heap 1)) 9 10) (lanesOf (hereOf (heap 1)).act) (heap 1).fresh = .ok ([], v) s1 :=
  ⟨issues_of (by decide), allOk_of (by decide +kernel)⟩
theorem wit_cut : Issues (.cut (.v 6) 7 0) (heap 2) (hereOf (heap 2)) ∧
    ∃ v s1, eachLane (cutLane (hereOf (heap 2)) 7 ((hereOf (heap 2)).target (0 : BitVec 19)))
      (lanesOf (hereOf (heap 2)).act) (heap 2) = .ok ([], v) s1 := ⟨issues_of (by decide), allOk_of (by decide +kernel)⟩
theorem wit_graft : Ready (.graft (.v 0)) (heap 1) ∧
    ∃ v s1, eachLane (graftLane (hereOf (heap 1)) 10 fun _ => 0x80080001) (lanesOf (hereOf (heap 1)).act) (heap 1).fresh =
      .ok ([], v) s1 := ⟨ready_of (by decide), allOk_of (by decide +kernel)⟩
theorem wit_sdrop : Ready (.sdrop (.v 6) (.v 0)) (heap 1) ∧ Ready (.sdropHold (.v 6) (.v 0)) (heap 1) ∧
    Ready (.sinfo (.v 6) (.v 0)) (heap 1) ∧
    (∃ v s1, eachLane (dropLane (hereOf (heap 1)) fun _ => 0x80080001) [0, 1] (heap 1) = .ok ([], v) s1) ∧
    (∃ v s1, eachLane (holdLane (hereOf (heap 1)) fun _ => 0x80080001) [0, 1] (heap 1) = .ok ([], v) s1) ∧
    (∃ v s1, eachLane (infoLane (hereOf (heap 1)) fun _ => 0x80080001) [0, 1] (heap 1) = .ok ([], v) s1) :=
  ⟨ready_of (by decide), ready_of (by decide), ready_of (by decide), allOk_of (by decide +kernel), allOk_of (by decide +kernel),
    allOk_of (by decide +kernel)⟩
/-- The translation of that page. -/
def tr0 (va : Nat) : Trans := page0.at_ va
theorem wit_markLane : (heap 1).group? 1 ≠ none ∧ ((marked 1).sp.toNat % 8 = 0 ∧ (marked 1).fp.toNat % 8 = 0) ∧
    (marked 1).stackLo.toNat + 8 ≤ (marked 1).sp.toNat ∧ ((marked 1).depth ((marked 1).sp - 8)).toNat < 2 ^ 27 ∧
    ((marked 1).depth (marked 1).fp).toNat < 2 ^ 27 ∧ ∀ j, j < 2 →
      accessOne (heap 1) (hereOf (heap 1)) .global 8 .store false j 0x20F8 = .ok (tr0 0x20F8) := by
  refine ⟨by decide, by decide, by decide, by decide, by decide, fun j hj => ?_⟩
  obtain rfl | rfl : j = 0 ∨ j = 1 := by omega
  · rfl
  · rfl

/-- One such fibre, whose store queue holds the words at its frame and at the mark. -/
def alone (n : BitVec 4) : State :=
  let rec8 := fun (va : Nat) (v : Dword) =>
    ({ op := 4, lane := 0, va := BitVec.ofNat 64 va, tr := tr0 va, bytes := leBytes 8 v.toNat } : StoreRec)
  { heap n with
    cur := some { pk := { gid := 1, lanes := 1 } }
    groups := [{ grp (marked n) {} with sq := [{ stores := [rec8 0x2100 0, rec8 0x2108 5, rec8 0x2110 0x0007000000000010] }] }]
    cores := [{ tlb := [page0], scheds := ({} : Core).scheds.set 0 { phase := 1, port1 := some { gid := 1, lanes := 1 } } }] }
/-- The words that its stack holds. -/
def stackWord (va : Nat) : Dword := if va = 0x2110 then 0x0007000000000010 else if va = 0x2108 then 5 else 0
theorem only_of {h : Here} (hc : h.act = 1) : OnlyLane h 0 := by
  refine ⟨by decide, fun m hm => ?_⟩
  rw [hc]
  revert m
  decide
/-- A descriptor of the heap is within reach, to be written too (`w`) or not. -/
def descNear (s : State) (va pa : Nat) (w : Bool) : Bool :=
  decide (xlateNow s 1 va (.engine w) false 0 = some (.ok { (tr0 0) with pa := pa })) &&
    !lineMoving s { (tr0 0) with pa := pa } && (lockMet (s.coreOf 0) (some 1) 1 va 16 w).isNone &&
    !s.bad.contains (({ (tr0 0) with pa := pa } : Trans).key / 128)
/-- The translation of a place of the heap. -/
def heapTr (pa : Nat) : Trans := { tr0 0 with pa := pa }
theorem desc_of {s : State} {h : Here} {va pa : Nat} {w : Bool} (ha : h.t.asid = 1) (ht : h.t.tid = 1) (hk : h.c.core = 0)
    (hc : descNear s va pa w = true) : DescAt s h 0 va (heapTr pa) w := by
  simp only [descNear, Bool.and_eq_true, decide_eq_true_eq, Bool.not_eq_true', Option.isNone_iff_eq_none] at hc
  obtain ⟨⟨⟨h1, h2⟩, h3⟩, h4⟩ := hc
  exact ⟨by rw [ha]; exact h1, h2, by rw [ha, ht, hk]; exact h3, h4⟩

theorem wit_sinfo_none : Ready (.sinfo (.v 6) (.v 0)) (two 1 (7, 8, 9) (1, 2, 3)) ∧
    ∀ x ∈ insOf (.sinfo (.v 6) (.v 0)) (two 1 (7, 8, 9) (1, 2, 3)), ∀ k,
      ¬NamesSlot (two 1 (7, 8, 9) (1, 2, 3)) (hereOf (two 1 (7, 8, 9) (1, 2, 3))) (x.w 0) k :=
  ⟨ready_of (by decide), fun _ _ _ hn => absurd hn.on (by decide)⟩
theorem names1 (s : State) (h : Here) (ha : h.t.asid = 1) (hc : s.ctxOf 1 = (alone 1).ctxOf 1) : NamesSlot s h 0x80080001 1 where
  on := by rw [ha, hc]; decide
  set := by decide
  asid := by rw [ha]; decide
  slot := by decide
  pos := by decide
  le := by rw [ha, hc]; decide
theorem wit_live : (∀ i ∈ [Instr.sdrop (.v 6) (.v 0), .sdropHold (.v 6) (.v 0), .sinfo (.v 6) (.v 0)], Ready i (alone 1) ∧
      (laneOp (insOf i (alone 1)) 0 0).setWidth 32 = (0x80080001 : Word)) ∧ OnlyLane (hereOf (alone 1)) 0 ∧
    (∀ w, LiveAt (alone 1) (hereOf (alone 1)) 0 0x80080001 1 (heapTr 0x60010) w) ∧
    2 ≤ qbits (descOf (alone 1) (hereOf (alone 1)) (descVa ((alone 1).ctxOf 1) 1) (heapTr 0x60010)) 96 16 := by
  refine ⟨fun i hi => ?_, only_of (by decide), fun w => ⟨names1 _ _ (by decide) rfl,
    desc_of (by decide) (by decide) (by decide) (by revert w; decide +kernel), by decide +kernel, by decide +kernel⟩,
    by decide +kernel⟩
  simp only [List.mem_cons, List.not_mem_nil, or_false] at hi
  rcases hi with rfl | rfl | rfl <;> exact ⟨ready_of (by decide), by decide⟩
/-- The states of `CUT` between the unit's reads and writes. -/
def cut1 : State := afterRead (alone 2) (hereOf (alone 2)) 0x10000 (heapTr 0x60000)
def cut2 : State := afterRead cut1 (hereOf (alone 2)) 0x10020 (heapTr 0x60020)
def cut3 : State := writeDesc cut2 (hereOf (alone 2)) (heapTr 0x60000)
  (headerNext (descOf (alone 2) (hereOf (alone 2)) 0x10000 (heapTr 0x60000))
    (qbits (descOf cut1 (hereOf (alone 2)) 0x10020 (heapTr 0x60020)) 112 16) true)
theorem wit_cut_completes : Issues (.cut (.v 6) 7 0) (alone 2) (hereOf (alone 2)) ∧ OnlyLane (hereOf (alone 2)) 0 ∧
    clauseStart (alone 2) (hereOf (alone 2)).t ((hereOf (alone 2)).target (0 : BitVec 19)) = true ∧
    heapOn ((alone 2).ctxOf 1) = true ∧ (marked 2).marks.find? (fun n => n.id = 7) = some { depth := 0xF0, id := 7 } ∧
    ((marked 2).atDepth 0xF0).toNat = 0x2110 ∧ dbits (stackWord 0x2110) 48 16 = 7 ∧ dbits (stackWord 0x2110) 24 24 = 0 ∧
    Frames (marked 2) stackWord 0x2100 0x2100 [] ∧ 0x18 ≤ slotSize 0x80000040 :=
  ⟨issues_of (by decide), only_of (by decide), by decide, by decide, by decide, by decide, by decide, by decide, rfl, by decide⟩
theorem wit_cut_words : ∀ va ∈ [0x2100, 0x2108, 0x2110],
    stackRead (alone 2) (hereOf (alone 2)) 0 va = .ok (stackWord va) (alone 2) := by
  intro va hv
  simp only [List.mem_cons, List.not_mem_nil, or_false] at hv
  rcases hv with rfl | rfl | rfl <;> rfl
theorem wit_cut_heap : descVa ((alone 2).ctxOf 1) 0 = 0x10000 ∧ descVa ((alone 2).ctxOf 1) 2 = 0x10020 ∧
    dataVa ((alone 2).ctxOf 1) 2 = 0x20800 ∧ DescAt (alone 2) (hereOf (alone 2)) 0 0x10000 (heapTr 0x60000) true ∧
    qbits (descOf (alone 2) (hereOf (alone 2)) 0x10000 (heapTr 0x60000)) 112 16 = 2 ∧
    DescAt cut1 (hereOf (alone 2)) 0 0x10020 (heapTr 0x60020) false ∧
    xlateNow cut3 1 0x20800 (.engine true) false 0 = some (.ok (heapTr 0x70800)) ∧
    (∀ n, n ≤ 0 → lineMoving cut3 { heapTr 0x70800 with pa := 0x70800 + 256 * n } = false) ∧
    lockMet (cut3.coreOf 0) (some 1) 1 0x20800 0x18 true = none ∧
    DescAt (cut3.accessed 1 0x20800) (hereOf (alone 2)) 0 0x10020 (heapTr 0x60020) true := by
  refine ⟨by decide, by decide, by decide, desc_of (by decide) (by decide) (by decide) (by decide +kernel), by decide +kernel,
    desc_of (by decide) (by decide) (by decide) (by decide +kernel), by decide +kernel, fun n hn => ?_, by decide +kernel,
    desc_of (by decide) (by decide) (by decide) (by decide +kernel)⟩
  obtain rfl : n = 0 := by omega
  decide +kernel
/-- The states of `GRAFT` after its reads. -/
def graft1 : State := (alone 1).fresh
def graft2 : State := afterRead graft1 (hereOf (alone 1)) 0x10010 (heapTr 0x60010)
def graft3 : State := afterRead graft2 (hereOf (alone 1)) 0x20400 (heapTr 0x70400)
theorem wit_graft_completes : Ready (.graft (.v 0)) (alone 1) ∧ OnlyLane (hereOf (alone 1)) 0 ∧
    LiveAt graft1 (hereOf (alone 1)) 0 0x80080001 1 (heapTr 0x60010) false ∧
    qbits (descOf graft1 (hereOf (alone 1)) 0x10010 (heapTr 0x60010)) 80 16 = 24 ∧ (marked 1).stackLo.toNat + 24 ≤ (marked 1).sp.toNat ∧
    xlateNow graft2 1 0x20400 (.engine false) false 0 = some (.ok (heapTr 0x70400)) ∧ lineMoving graft2 (heapTr 0x70400) = false ∧
    lockMet (graft2.coreOf 0) (some 1) 1 0x20400 24 false = none ∧ graft2.bad.contains (0x70400 / 128) = false ∧
    ∀ n ∈ [0, 1, 2], accessOne graft3 (hereOf (alone 1)) .global 8 .store false 0 (0x20E8 + 8 * n) = .ok (tr0 (0x20E8 + 8 * n)) := by
  refine ⟨ready_of (by decide), only_of (by decide), ⟨names1 _ _ (by decide) rfl, desc_of (by decide) (by decide) (by decide) (by decide +kernel), by decide +kernel,
    by decide +kernel⟩, by decide +kernel, by decide, by decide +kernel, by decide +kernel, by decide +kernel, by decide +kernel,
    fun n hn => ?_⟩
  simp only [List.mem_cons, List.not_mem_nil, or_false] at hn
  rcases hn with rfl | rfl | rfl <;> rfl
theorem wit_liveSlot_dead : ∀ w, ∃ s1, liveSlot (heap 1) (hereOf (heap 1)) 0 0 w = .ok none s1 := fun w => by
  cases w <;> exact ⟨_, rfl⟩
/-- The slice has one reference left. -/
def lastRef : State := { alone 1 with mem := (alone 1).mem.map fun p => if p.1 = 0x6001C then (p.1, 1) else p }
theorem wit_sdrop_last : Ready (.sdrop (.v 6) (.v 0)) lastRef ∧ OnlyLane (hereOf lastRef) 0 ∧
    LiveAt lastRef (hereOf lastRef) 0 0x80080001 1 (heapTr 0x60010) true ∧
    qbits (descOf lastRef (hereOf lastRef) (descVa (lastRef.ctxOf 1) 1) (heapTr 0x60010)) 96 16 ≤ 1 ∧
    descVa (lastRef.ctxOf 1) 0 = 0x10000 ∧
    DescAt (afterRead lastRef (hereOf lastRef) 0x10010 (heapTr 0x60010)) (hereOf lastRef) 0 0x10000 (heapTr 0x60000) true := by
  refine ⟨ready_of (by decide), only_of (by decide), ⟨names1 _ _ (by decide) rfl,
    desc_of (by decide) (by decide) (by decide) (by decide +kernel), by decide +kernel, by decide +kernel⟩, by decide +kernel,
    by decide +kernel, desc_of (by decide) (by decide) (by decide) (by decide +kernel)⟩
theorem test_sdrop_last : regOf (after (exec (.sdrop (.v 6) (.v 0)) lastRef)) 0 6 = 0 ∧
    Mem.get (after (exec (.sdrop (.v 6) (.v 0)) lastRef)).mem 0x6000E = 1 := by decide +kernel
theorem wit_links_of_slice : Links (wordsOf (Mem.read graft3.mem (heapTr 0x70400).key 24)) 8 [] ∧
    qbits (descOf graft1 (hereOf (alone 1)) 0x10010 (heapTr 0x60010)) 48 16 = 8 ∧
    ([8] : List Nat).getLast (by decide) + 16 ≤ 24 := ⟨by unfold Links; decide +kernel, by decide +kernel, by decide⟩

/-- A handle of a live slice for a lane, its slot read to be written or not. -/
def liveOk (s : State) (w : Bool) : Bool :=
  match liveSlot s (hereOf s) 0 0x80080001 w with
  | .ok (some (k, q, t)) s1 =>
    if qbits q 96 16 < 2 then
      (match pushSlot s1 (hereOf s) 0 k (setBits (setBits (setBits q 96 16 0) 8 1 0) 0 7 (qbits q 0 7 + 1)) t with
       | .ok _ _ => true | _ => false)
    else true
  | _ => false
theorem wit_liveSlot : ∀ w, liveOk (heap 1) w = true ∧ liveOk lastRef w = true := by decide +kernel
theorem test_sinfo : regOf (after (exec (.sinfo (.v 6) (.v 0)) (heap 1))) 0 6 = 0x00010018 := by decide +kernel
theorem test_sdrop : regOf (after (exec (.sdrop (.v 6) (.v 0)) (heap 1))) 0 6 = 2 ∧
    regOf (after (exec (.sdrop (.v 6) (.v 0)) (heap 1))) 1 6 = 1 := by decide +kernel

/-! ### The matrix engine -/

/-- A team with 16 sub-tiles, and convergence register 2 set for `n` fibres with `c` counted. -/
def mx (w : BitVec 4) (n c : Nat) : State := st (grp (fib (hdr w) w (0, 0x800, 0x400)) (fib (hdr w) w (0, 0x800, 0x400)))
  { nsub := 16, scratch := [(0x400, 16), (0x402, 16)], cv := (Vector.replicate 16 {}).set 2 { n := n, c := c } }
theorem wit_cvset : Ready (.cvset 2 (.inl 4)) (mx 1 0 0) ∧ (insOf (.cvset 2 (.inl 4)) (mx 1 0 0)).head?.isSome = true :=
  ⟨ready_of (by decide), by decide⟩
theorem wit_sign : Issues (.sign 2) (mx 1 4 0) (hereOf (mx 1 4 0)) := issues_of (by decide)
def zeroReq : MxReq := { instr := .mzero 0 none 3, gid := 1, flags := [2, 5], ops := [] }
/-- The register holds a captured operation, and two signatures are missing. -/
def mxCaptured : State := st (grp (fib (hdr 1) 1 (0x100, 0, 0)) (fib (hdr 1) 1 (0x100, 0, 0)))
  { nsub := 16, cv := (Vector.replicate 16 {}).set 2 { n := 4, c := 2, captured := some zeroReq } }
/-- The issue of a matrix operation is done. -/
def mxDone (r : MxIssue) : Bool :=
  match r with
  | .done _ => true
  | _ => false
theorem mxDone_of {r : MxIssue} (h : mxDone r = true) : ∃ s, r = .done s := by
  cases r <;> simp [mxDone] at h ⊢
theorem wit_sign_completes : Issues (.sign 2) mxCaptured (hereOf mxCaptured) ∧
    ∃ s2, mxIssue (.sign 2) mxCaptured (mxCaptured.advance (hereOf mxCaptured).c 1) (hereOf mxCaptured) zeroReq = .done s2 :=
  ⟨issues_of (by decide), mxDone_of (by decide +kernel)⟩

/-- One of each matrix instruction that issues to the engine, and two that sign. -/
def mxWords : List Instr :=
  [.mzero 0 none 3, .mload 0 none false 0 (.v 2), .mstore 0 none false 0 (.v 2) .raw none 0 (.v 0),
   .mma 0 none false false false (.v 0) (.v 1) (.v 0) 0 0, .mmac 0 none false false (.v 1) 4 0 0 (.v 0),
   .mgather 0 none false (.v 0) (.v 1) (.v 2)]
def mxSigned : List Instr := [.mzero 0 (some 2) 3, .mload 0 (some 2) false 0 (.v 2)]

/-- The request of a matrix instruction's lowest active fibre. -/
def mxReq (i : Instr) (s : State) (x : LaneIn) : MxReq :=
  { instr := i, gid := 1, flags := setFlags (hereOf s).hdr, ops := x.a }
def mxOn (n c : Nat) (i : Instr) : State := mx (BitVec.ofNat 4 i.words) n c

theorem wit_matrix_issues : ∀ i ∈ mxWords, i.wf = true ∧ matrixSign i = some none ∧ Ready i (mxOn 4 0 i) ∧
    (hereOf (mxOn 4 0 i)).t.lost = false ∧ ∃ x, (insOf i (mxOn 4 0 i)).head? = some x ∧
      ∃ s2, mxIssue i (mxOn 4 0 i) ((mxOn 4 0 i).advance (hereOf (mxOn 4 0 i)).c i.words) (hereOf (mxOn 4 0 i))
        (mxReq i (mxOn 4 0 i) x) = .done s2 := by
  intro i hi
  simp only [mxWords, List.mem_cons, List.not_mem_nil, or_false] at hi
  rcases hi with rfl | rfl | rfl | rfl | rfl | rfl <;>
    exact ⟨by decide, by decide, ready_of (by decide), by decide, _, rfl, mxDone_of (by decide +kernel)⟩
theorem wit_matrix_signs : ∀ i ∈ mxSigned, matrixSign i = some (some 2) ∧ Ready i (mxOn 4 0 i) ∧ Ready i (mxOn 4 2 i) ∧
    ∃ x, (insOf i (mxOn 4 2 i)).getLast? = some x ∧
      ∃ s2, mxIssue i (mxOn 4 2 i) ((mxOn 4 2 i).advance (hereOf (mxOn 4 2 i)).c i.words) (hereOf (mxOn 4 2 i))
        (mxReq i (mxOn 4 2 i) x) = .done s2 := by
  intro i hi
  simp only [mxSigned, List.mem_cons, List.not_mem_nil, or_false] at hi
  rcases hi with rfl | rfl <;>
    exact ⟨by decide, ready_of (by decide), ready_of (by decide), _, rfl, mxDone_of (by decide +kernel)⟩

def mshape1 : Instr := .mshape 0 0 .ci8 .ci8 .i32 false false false 32
theorem wit_mshape : Issues mshape1 (mx 2 4 0) (hereOf (mx 2 4 0)) := issues_of (by decide)
theorem wit_mfence : Issues .mfence (mx 1 4 0) (hereOf (mx 1 4 0)) ∧ matrixBefore (mx 1 4 0) 1 10 = false :=
  ⟨issues_of (by decide), by decide⟩
/-- A matrix operation of the team is under way. -/
def mxBusy : State := { mx 1 4 0 with ops := [{ id := 4, gid := 1, tid := 1, asid := 1, kind := .matrix zeroReq }] }
theorem wit_mfence_waits : Issues .mfence mxBusy (hereOf mxBusy) ∧ matrixBefore mxBusy 1 10 = true :=
  ⟨issues_of (by decide), by decide⟩
def benq1 : Instr := .benq 5 (.v 0) (.v 2)
/-- The batch-forming queue of the cluster belongs to the context, or is closed. -/
def bq (on : Bool) : State := st (grp (fib (hdr 1) 1 (0x3000, 0, 0x3100)) (fib (hdr 1) 1 (0x3200, 0, 0x3300))) {}
  { bqctl := if on then 0x80000000 else 0, bqasid := 1 }
theorem wit_benq : Ready benq1 (bq true) ∧ Ready benq1 (bq false) ∧ ((bq true).coreOf 0).bqrows.length + 2 < 128 :=
  ⟨ready_of (by decide), ready_of (by decide), by decide⟩
theorem wit_mreset : Ready (.mreset (.inl 0)) mxBusy ∧ (hereOf mxBusy).user = false ∧
    (insOf (.mreset (.inl 0)) mxBusy).head?.isSome = true := ⟨ready_of (by decide), by decide, by decide⟩

theorem wit_mreset_none : Ready (.mreset (.ext 0x10000)) (mx 2 4 0) ∧ (hereOf (mx 2 4 0)).user = false ∧
    ((insOf (.mreset (.ext 0x10000)) (mx 2 4 0)).head?.map fun x => (x.w 0).toNat) = some 0x10000 ∧ (mx 2 4 0).disturbed = [] :=
  ⟨ready_of (by decide), by decide, by decide, by decide⟩
theorem test_mreset : ((after (exec (.mreset (.inl 0)) mxBusy)).ops, ((after (exec (.mreset (.inl 0)) mxBusy)).team? 1).map (·.lost)) =
    ([], some true) := by decide +kernel

/-! ### Class K -/

/-- Handle 3 names two lines of four f32 elements at 0x3000; v0 holds 0x100. -/
def tile (n : BitVec 4) (t : Team := {}) : State :=
  st (grp (fib (hdr n) n (0x100, 0, 0)) (fib (hdr n) n (0x100, 0, 0)))
    { t with th := (Vector.replicate 32 {}).set 3 { desc := 0x00000010000400020000000000003000, valid := true } }
def cpyi1 : Instr := .cpyi 3 true false (.v 0) (.inl 0) none none
def cpyo1 : Instr := .cpyo 3 false false (.v 0) (.inl 0) none none none
def cpym1 : Instr := .cpym 3 true false (.v 0) (.inl 0) none none 1
theorem wit_thdl : Issues (.thdl 3 (.v 8)) (tile 1) (hereOf (tile 1)) := issues_of (by decide)
/-- The request that a copy makes. -/
def copyReq (f : LaneIn → CopyReq) (s : State) (i : Instr) : CopyReq :=
  copyAtIssue (hereOf s) 3 ((insOf i s).headD { lane := 0, a := [], preds := 0 }) (f ((insOf i s).headD { lane := 0, a := [], preds := 0 }))
theorem wit_cpyi : Ready cpyi1 (tile 2) ∧ (insOf cpyi1 (tile 2)).head?.isSome = true ∧
    copyFault (tile 2) (hereOf (tile 2)) (copyReq (cpyiReq true false none none) (tile 2) cpyi1) = none ∧
    (copyRanges (hereOf (tile 2)) (copyReq (cpyiReq true false none none) (tile 2) cpyi1)).length ≤ (rltFree (tile 2) 0 0 56).length :=
  ⟨ready_of (by decide), by decide, by decide, by decide⟩
theorem wit_cpyo : Ready cpyo1 (tile 2) ∧
    copyFault (tile 2) (hereOf (tile 2)) (copyReq (cpyoReq false false none none none) (tile 2) cpyo1) = none :=
  ⟨ready_of (by decide), by decide⟩
theorem wit_cpym : Ready cpym1 (tile 2) ∧
    copyFault (tile 2) (hereOf (tile 2)) (copyReq (cpymReq true false none none 1) (tile 2) cpym1) = none :=
  ⟨ready_of (by decide), by decide⟩

def stages : List Instr := [.stgpWait (.v 6) 1 (.inl 0), .stgpFill 1 (.inl 0), .stgc (.v 6) 1 (.inl 0), .stgr 1 (.inl 0)]
theorem wit_stages : ∀ i ∈ stages, Ready i (tile 2) ∧ (insOf i (tile 2)).head?.isSome = true := by
  intro i hi
  simp only [stages, List.mem_cons, List.not_mem_nil, or_false] at hi
  rcases hi with rfl | rfl | rfl | rfl <;> exact ⟨ready_of (by decide), by decide⟩
/-- Stage 1 has two slots of 256 bytes; the first is as `full` says. -/
def stage1 (full : Bool) : Stage := { cfg := 0x88020000, slots := [{ n := 0, full := full }, { n := 1 }] }
theorem wit_stageAct : (stage1 true).cfg.getLsbD 31 = true ∧ ((stage1 true).slot (0 % (stage1 true).depth)).n = 0 ∧
    ((stage1 true).slot 0).full = true ∧ ((stage1 false).slot 0).full = false := by decide
theorem wit_lease : Ready (.lease 5 (.inl 0)) (tile 1) ∧ (insOf (.lease 5 (.inl 0)) (tile 1)).head?.isSome = true :=
  ⟨ready_of (by decide), by decide⟩
theorem wit_lfree : Issues .lfree (tile 1 { lease := some (0, 5000) }) (hereOf (tile 1 { lease := some (0, 5000) })) ∧
    (tile 1 { lease := some (0, 5000) }).ops.any (fun o => o.tid == 1) = false := ⟨issues_of (by decide), by decide⟩

/-- Fibres whose v0 names a template at 0x3000, or a node at 0x3100. -/
def graph : State := st (grp (fib (hdr 1) 1 (0x3000, 0, 5)) (fib (hdr 1) 1 (0x3100, 0, 7))) { launch := { inst := 0x6000, node := 0x6100 } }
def launch1 : Instr := .launch (.v 6) (.v 0) (.inl 0)
theorem wit_launch : Ready launch1 graph ∧ AccessOk graph (hereOf graph) .global 4 .atomic true (plain launch1 graph)
      (accOf graph .global 4 .atomic (plain launch1 graph)) := ⟨ready_of (by decide), accessOk_of (by decide)⟩
def gdec1 : Instr := .gdec (.v 6) (.v 0) (.v 2)
theorem wit_gdec : Ready gdec1 graph ∧ AccessOk graph (hereOf graph) .global 4 .atomic true (plain gdec1 graph)
      (accOf graph .global 4 .atomic (plain gdec1 graph)) := ⟨ready_of (by decide), accessOk_of (by decide)⟩
def gcond1 : Instr := .gcond (.v 0) (.v 2)
theorem wit_gcond : Ready gcond1 graph ∧ (insOf gcond1 graph).head?.isSome = true ∧
    accessAll graph (hereOf graph) .global 4 .atomic false [(0, 0x3000)] = .ok [(0, 0x3000, page0.at_ 0x3000)] :=
  ⟨ready_of (by decide), by decide, by rfl⟩
/-- An operation of lane 0 in Crozier's queue of the core. -/
def graphOp (i : Instr) : Op :=
  { id := 4, gid := 1, tid := 1, asid := 1, mask := 1, lanes := 1, kind := .graph i, accs := [{ lane := 0, va := 0x3000, op := 1 }]
    dst := if i = launch1 then some (.v 6, 2) else none, preds := if i = launch1 then [63] else [] }
def asksCroz (i : Instr) : State := { graph with cur := none, ops := [graphOp i] }
/-- It is that operation's turn. -/
def turnOf (i : Instr) (sc : Scope) : Bool :=
  let s := asksCroz i
  !crozFrozen s 0 && graphFirst s 0 4 && performedAt s 1 4 sc && (s.op? 4 == some (graphOp i))
theorem wit_launch_served : turnOf launch1 .device = true ∧ arenaOf (asksCroz launch1) 1 0x3000 = none ∧
    (((asksCroz launch1).team? 1).map fun t => match launchAll t (graphOp launch1).accs [] (asksCroz launch1) with
      | .done _ _ _ => true | _ => false) = some true := by
  refine ⟨?_, ?_, ?_⟩ <;> decide +kernel
theorem wit_gcond_served : turnOf gcond1 .device = true ∧
    xlateNow (asksCroz gcond1) 1 0x3000 .atomic false 0 = some (.ok { pa := 0x13000, home := 1, r := true, w := true, x := true, u := true, asid := 1 }) ∧
    lineMoving (asksCroz gcond1) { pa := 0x13000, home := 1, r := true, w := true, x := true, u := true, asid := 1 } = false ∧
    copAt (asksCroz gcond1) 0 1 0x3000 0x13000 36 = false ∧
    (badSector ((asksCroz gcond1).accessed 1 0x3000) 0x13000).1 = false := by refine ⟨?_, ?_, ?_, ?_, ?_⟩ <;> decide +kernel
theorem wit_event_served : turnOf (.event 0x123 (.v 2)) .system = true ∧ ((asksCroz (.event 0x123 (.v 2))).team? 1).isSome = true ∧
    instReady (asksCroz (.event 0x123 (.v 2))) 1 0x6000 = true := by refine ⟨?_, ?_, ?_⟩ <;> decide +kernel

/-! ### Class G -/

theorem wit_beat : Ready (.beat (.inl 5)) (tile 1) ∧ (insOf (.beat (.inl 5)) (tile 1)).head?.isSome = true :=
  ⟨ready_of (by decide), by decide⟩
theorem wit_rbegin : Issues (.rbegin 5 0 2) (tile 2) (hereOf (tile 2)) ∧
    ∀ j, j < 32 → ((hereOf (tile 2)).g.lane j).region = none := ⟨issues_of (by decide), by decide⟩
/-- A fibre inside a region that keeps v0 and v1 and resumes at 0x1008, with what it has buffered. -/
def inside (buf : List RegOp) : Fibre :=
  { fib (hdr 1) 1 (7, 8, 9) with region := some { resume := 0x1008, pd := 5, f := 0, n := 2, ckpt := [1, 2], buf := buf } }
def region (buf : List RegOp) : State := st (grp (inside buf) (fib (hdr 1) 1 (1, 2, 3)))
theorem wit_rolledBack : (inside []).region ≠ none ∧ 0 + [(1 : Word), 2].length ≤ 64 := by decide
theorem wit_rabort : Issues .rabort (region []) (hereOf (region [])) := issues_of (by decide)
theorem wit_rcommit : Issues .rcommit (region []) (hereOf (region [])) ∧ performedAt (region []) 1 10 .system = true ∧
    (region []).op? 10 = none := ⟨issues_of (by decide), by decide, by decide⟩
theorem wit_rcommit_buffered : Issues .rcommit (region [{ va := 0xE1000000003000 }]) (hereOf (region [{ va := 0xE1000000003000 }])) ∧
    ((((region [{ va := 0xE1000000003000 }]).group? 1).getD {}).lane 0).region ≠ none := ⟨issues_of (by decide), by decide⟩
theorem wit_event : Ready (.event 0x123 (.v 2)) graph ∧ (insOf (.event 0x123 (.v 2)) graph).head?.isSome = true :=
  ⟨ready_of (by decide), by decide⟩

/-! ### Events of the memory system -/

/-- A group at rest whose fibres run, with what is given. -/
def rest (g : Group → Group := id) (t : Team := {}) (k : Core := {}) (c : Ctx := {}) : State :=
  idle (g (grp (fib (hdr 2) 2 (7, 8, 9)) (fib (hdr 2) 2 (1, 2, 3)))) t k c

def store1 (va : Nat) : StoreRec := { op := 4, lane := 0, va := BitVec.ofNat 64 va, tr := tr0 va, bytes := [1, 2, 3, 4] }
def queued : State := rest (fun g => { g with sq := [{ stores := [store1 0x3000, store1 0x3004] }] })
theorem wit_storePass : ((queued.group? 1).getD {}).sq.length = 1 ∧ ((queued.group? 1).getD {}).entering = [] ∧
    enabledStorePassCop queued 1 = true := by decide +kernel
def queuedScratch : State := rest (fun g => { g with sq := [{ stores := [{ store1 0x40 with scratch := true, tr := { pa := 0x40 } }] }] })
theorem wit_storePass_scratch : enabledStorePassCop queuedScratch 1 = true := by decide +kernel
def pending (gen : BitVec 16) (pa : Nat) : State :=
  rest id {} { copSeq := 4, cop := [{ seq := 3, gid := 1, tid := 1, asid := 1, rec_ := { store1 0x3000 with tr := { tr0 0x3000 with gen := gen, pa := pa } } }] }
theorem wit_storePerform : enabledStorePerform (pending 0 0x13000) 0 3 = true ∧ enabledStorePerform (pending 7 0x13000) 0 3 = true ∧
    (((pending 0 0x13000).coreOf 0).cop.find? fun d => d.seq = 3).isSome = true := by decide +kernel

theorem wit_storePerform_peer : enabledStorePerform (pending 0 (2 ^ 64)) 0 3 = true ∧
    (((pending 0 (2 ^ 64)).coreOf 0).cop.all fun c => !c.sent) = true := by decide +kernel

/-- A load of lane 0 from 0x3000 into v6 is in flight. -/
def loadOp (k : OpKind) (va : Nat) : Op :=
  { id := 4, gid := 1, tid := 1, asid := 1, mask := 1, lanes := 1, dst := some (.v 6, 1), kind := k,
    accs := [{ lane := 0, va := BitVec.ofNat 64 va, tr := tr0 va }] }
def loading : State := { rest with ops := [loadOp (.load .b32 false .normal none none) 0x3000] }
theorem wit_loadReturn : enabledLoadDataReturn loading 4 0 = true ∧ coreSource loading ((loading.group? 1).getD {}) 4 false
      { lane := 0, va := 0x3000, tr := tr0 0x3000 } 4 = .home ∧ (loading.coreOf 0).sector? (0x13000 / 128) = none :=
  ⟨by decide +kernel, by decide +kernel, by decide +kernel⟩
def forwarding : State := { rest (fun g => { g with sq := [{ stores := [{ store1 0x3000 with op := 3 }] }] }) with
  ops := [loadOp (.load .b32 false .normal none none) 0x3000] }
theorem wit_loadReturn_own : enabledLoadDataReturn forwarding 4 0 = true ∧ coreSource forwarding ((forwarding.group? 1).getD {}) 4 false
      { lane := 0, va := 0x3000, tr := tr0 0x3000 } 4 = .val [1, 2, 3, 4] := ⟨by decide +kernel, by decide +kernel⟩
def loadingScratch : State := { rest id { scratch := [(0x40, 9)] } with
  ops := [{ loadOp (.scratchLoad .b32 false) 0x40 with accs := [{ lane := 0, va := 0x40, tr := { pa := 0x40 } }] }] }
theorem wit_loadReturn_scratch : enabledLoadDataReturn loadingScratch 4 0 = true := by decide +kernel
theorem test_loadReturn : regOf (after (exec (.loadDataReturn 4 0) forwarding)) 0 6 = 0x04030201 ∧
    regOf (after (exec (.loadDataReturn 4 0) loadingScratch)) 0 6 = 9 := by decide +kernel

/-- Lanes 0 and 1 load from two sectors; lane 1 has its word, or not yet. -/
def loadingTwo (got : Option (List Byte)) : State :=
  { rest with mem := Mem.write tables 0x13000 [4, 3, 2, 1]
              ops := [{ loadOp (.load .b32 false .normal none none) 0x3000 with
                        mask := 3, lanes := 3, accs := [{ lane := 0, va := 0x3000, tr := tr0 0x3000 },
                          { lane := 1, va := 0x3080, tr := tr0 0x3080, got := got }] }] }
theorem wit_loadTogether : ∀ got ∈ [none, some [9, 0, 0, 0]],
    ((loadingTwo got).op? 4).map (fun o => (o.accs.filter fun b => b.tr.pa / 128 = (tr0 0x3000).pa / 128).map (·.lane)) = some [0] ∧
    ((loadingTwo got).op? 4).map (fun o => o.accs.map fun a => loadReady (loadingTwo got) o a) = some [true, got.isNone] ∧
    stale (loadingTwo got) 1 (tr0 0x3000) = false ∧
    coreSource (loadingTwo got) (((loadingTwo got).group? 1).getD {}) 4 false { lane := 0, va := 0x3000, tr := tr0 0x3000 } 4 = .home := by
  decide +kernel
/-- The first value waits; then both are written. -/
theorem test_loadTogether :
    regOf (after (exec (.loadDataReturn 4 0) (loadingTwo none))) 0 6 = 0 ∧
    regOf (after (exec (.loadDataReturn 4 0) (loadingTwo (some [9, 0, 0, 0])))) 0 6 = 0x01020304 ∧
    regOf (after (exec (.loadDataReturn 4 0) (loadingTwo (some [9, 0, 0, 0])))) 1 6 = 9 := by decide +kernel
/-- Requests of lane 0's and lane 1's additions to one word. -/
def part (lane : Nat) (v : Dword) : ReqTree := .part { frm := .lanes 4 [(lane, v)], tid := 1, sum := v }
def req (id : Nat) (gen : BitVec 16) (v : Dword) (lane : Nat) : Req :=
  { id := id, asid := 1, va := 0x3000, tr := { tr0 0x3000 with gen := gen }, op := v, tree := part lane v }
def atomOp : Op := { loadOp (.atom .add .rlx .device false) 0x3000 with mask := 3, lanes := 3, preds := [63] }
def asked (gen : BitVec 16) : State := { rest with reqs := [req 20 gen 5 0, req 21 gen 7 1], ops := [atomOp] }
theorem wit_atomicPerform : enabledAtomicPerform (asked 0) 20 = true ∧ enabledAtomicPerform (asked 7) 20 = true ∧
    arenaDie (asked 0) 1 0x3000 = none ∧ (asked 0).bad.contains (0x13000 / 128) = false ∧
    enabledAtomicPerform { asked 0 with reqs := [{ req 20 0 5 0 with tr := { pa := 2 ^ 64 } }] } 20 = true := by decide +kernel
/-- Two groups add to one word. -/
def askedTwice : State :=
  { asked 0 with
    reqs := [req 20 0 5 0, { req 21 0 7 1 with tree := .part { frm := .lanes 5 [(1, 7)], tid := 1, sum := 7 } }]
    ops := [atomOp, { atomOp with id := 5, gid := 2 }] }
/-- Both stand in the queue of their first port. -/
def meetTwice : State := { askedTwice with reqs := askedTwice.reqs.map fun q => { q with hops := 1 } }
theorem wit_routerCombine : enabledRouterCombine meetTwice 20 21 = true := by decide +kernel
def replied : State := { rest with ops := [atomOp], replies := [{ id := 30, req := 20, old := 100, tree := .join 2 (part 0 5) (part 1 7) }],
                                   echoes := [{ req := 20, old := 100, until_ := 5000 }] }
theorem wit_replySplit : (replied.reply? 30).isSome = true ∧
    (replied.echoes.any fun e => e.req == 20 && decide (replied.now < e.until_)) = true := by decide +kernel
def replied1 : State := { rest with ops := [atomOp], replies := [{ id := 30, req := 20, old := 100, tree := part 0 5 }] }
theorem wit_atomicReply : (replied1.reply? 30).isSome = true ∧ (replied1.op? 4).isSome = true ∧ ([(0, (5 : Dword))].map (·.1)).Nodup := by
  decide +kernel
theorem test_replySplit : (after (exec (.replySplit 30) replied)).replies.map (fun p => p.old) = [100, 105] := by decide +kernel

/-! ### Operations that complete -/

def fencing : State := { rest (fun g => g.incFlag 2) with
  ops := [{ loadOp (.fence .full .device) 0 with accs := [], dst := none, flags := [2] }] }
theorem wit_fenceComplete : enabledFenceComplete fencing 4 = true := by decide +kernel
/-- The translation of 0x3000 as if its page had a home on the die. -/
def onDie : Trans := { tr0 0x3000 with home := 0 }
def prefetching (pol : Policy) : State :=
  { rest with ops := [{ loadOp (.pref pol) 0x3000 with dst := none, accs := [{ lane := 0, va := 0x3000, tr := onDie }] }] }
theorem wit_prefFill : enabledPrefFillComplete (prefetching .normal) 4 = true ∧ enabledPrefFillComplete (prefetching .nol1) 4 = true ∧
    (match readHome (prefetching .normal) 1 onDie 0 1 .normal with | (.bytes _, s1) => cacheable s1 onDie 0 | _ => false) = true ∧
    ((prefetching .nol1).coreOf 0).sector? (0x13000 / 128) = none := by refine ⟨?_, ?_, ?_, ?_⟩ <;> decide +kernel
def writingBack : State :=
  { rest with ops := [{ loadOp (.wb 0) 0x3000 with dst := none }], l2 := [{ line := 0x13000 / 256, valid := 3, dirty := 3 }, { line := 7, dirty := 1 }] }
theorem wit_cctlWb : enabledCctlWbComplete writingBack 4 = true := by decide +kernel
def reducing : State := rest id {} { reds := [{ gid := 1, tid := 1, va := 0x3000, value := 5, draining := true, tr := tr0 0x3000, privileged := true }] }
theorem wit_redDrain : (nextRed reducing 0).isSome = true ∧ enabledRedEntryDrain reducing 0 = true ∧
    xlateNow reducing 1 0x3000 .atomic false = some (.ok { pa := 0x13000, home := 1, r := true, w := true, x := true, u := true, asid := 1 }) :=
  ⟨by decide +kernel, by decide +kernel, by decide +kernel⟩

/-- Lane 0 waits for the word at 0x3000, until time `till`, under a monitor entry or without. -/
def waiting (till : Dword) (v : Dword) (bumped : Bool) : State :=
  { rest (fun g => g.setLane 0 { g.lane 0 with status := .parked, wait := some (.mon 4 bumped) }) with
    now := 1000, ops := [{ loadOp (.waitc .eq .device false) 0x3000 with preds := [63], accs := [{ lane := 0, va := 0x3000, tr := tr0 0x3000, op := v, cmp := till }] }]
    monitors := [{ pa := 0x13000, gid := 1 }] }
theorem wit_waitcTimeout : enabledWaitcTimeout (waiting 500 1 true) 1 0 = true ∧ (waitOf (waiting 500 1 true) 1 0).isSome = true ∧
    stale (waiting 500 1 true) 1 (tr0 0x3000) = false ∧ (waiting 500 1 true).bad.contains (0x13000 / 128) = false := by
  decide +kernel
theorem wit_waitcRetest : enabledWaitcRetest (waiting 0 0 false) 1 0 = true ∧ enabledWaitcRetest (waiting 0 1 false) 1 0 = true ∧
    waitcHolds .eq false 0 0 = true ∧ waitcHolds .eq false 0 1 = false := by decide +kernel
def arriving : State := { rest id { gridBar := 0x5000 } with
  ops := [{ loadOp (.barGrid 3 false 4) 0x5030 with mask := 3, lanes := 3, dst := none, holds := true }] }
theorem wit_gridArrive : enabledGridBarrierArrive arriving 4 = true ∧ (barRead arriving 0x15030).c = 0 := by decide +kernel
def deferred : State := rest (fun g => g.setLane 0 { g.lane 0 with defer := [{ cause := 0x10, addr := 0x3000 }] }) { tvec := 0x1000 }
theorem wit_deferredFault : enabledDeferredFault deferred 1 0 = true := by decide +kernel
def returned : State := { rest with
  ops := [{ loadOp (.load .b32 false .normal none none) 0x3000 with accs := [{ lane := 0, va := 0x3000, tr := tr0 0x3000, rejected := true }] }] }
theorem wit_generationRetry : enabledGenerationRetry returned 0 4 = true ∧ (∃ w, walk returned 1 0x3000 = .ok w) := by
  exact ⟨by decide +kernel, _, rfl⟩

theorem wit_stale : stale (pending 0 0x13000) 1 { tr0 0x3000 with gen := 0, pa := 0x13000 } = false ∧
    stale (pending 7 0x13000) 1 { tr0 0x3000 with gen := 7, pa := 0x13000 } = true ∧
    stale (asked 0) 1 (tr0 0x3000) = false ∧ stale (asked 7) 1 { tr0 0x3000 with gen := 7 } = true ∧
    stale (waiting 500 1 true) 1 (tr0 0x3000) = false ∧ stale (bar1 0) 1 (page0.at_ 0x5030) = false := by decide +kernel
/-- The group's fibres stand at the start of a clause, or inside one. -/
theorem wit_vote : enabledSchedulerVote rest 0 0 = true ∧ stepPacket rest 0 0 = none ∧ droopOpen rest 0 = true := by
  decide +kernel

/-- Two paths inside their clauses, of class I or of class M; lane 1's has been passed over `y` times. -/
def votes (m : Bool) (y : BitVec 5) : State :=
  let f := fun (x : Fibre) => if m then { x with clause := x.clause ||| 0x04000000 } else x
  rest fun g => (g.setLane 0 (f (g.lane 0))).setLane 1 (f { g.lane 1 with pc := 0x1104, skip := y })
/-- The ready paths of the group, and how they are paired. -/
def voteOf (s : State) : List Path × Option Path × Option Path :=
  let g := (s.group? 1).getD {}
  let l := g.ready s ((s.team? 1).getD {}) (votable s g)
  (l, pair s g ((s.team? 1).getD {}) l)
theorem wit_votes : ∀ m y, y ∈ [(0 : BitVec 5), 1] →
    enabledSchedulerVote (votes m y) 0 0 = true ∧ stepPacket (votes m y) 0 0 = none ∧ droopOpen (votes m y) 0 = true ∧
    (votes m y).groups.map Group.settle = (votes m y).groups ∧
    ((chosen (votes m y) (ballots (votes m y) 0 0)).map fun b => (b.1.gid, b.2.2)) = some (1, (voteOf (votes m y)).1) ∧
    (voteOf (votes m y)).1.map (fun p => (p.rem, p.lanes)) = [(2, 1), (2, 2)] ∧
    ((voteOf (votes m y)).1.drop 1).map (fun p => p.skip (((votes m y).group? 1).getD {})) = [y.toNat] ∧
    (((votes m y).group? 1).getD {}).pcCount = 2 ∧
    ∀ j, j < 2 → ((((votes m y).group? 1).getD {}).lane j).status = .running ∧ ((((votes m y).group? 1).getD {}).lane j).wait = none := by
  decide +kernel
/-- Both go; of two class M paths only the first, or the one passed over P − 1 times. -/
theorem test_votes : [(false, 0), (false, 1), (true, 0), (true, (1 : BitVec 5))].map (fun p =>
      ((voteOf (votes p.1 p.2)).2.1.map (·.pc), (voteOf (votes p.1 p.2)).2.2.map (·.pc))) =
    [(some 0x1004, some 0x1104), (some 0x1004, some 0x1104), (some 0x1004, none), (some 0x1104, none)] := by decide +kernel

/-! ### Translation, engines -/

/-- A walk for an address of context 1, and what lies first among the outside writes. -/
def walking (va : Nat) (l : List Instr := []) (stale : Bool := false) : State :=
  { rest id {} { walks := [{ id := 3, asid := 1, va := va, gid := 1, stale := stale }] } { bump := true, inv := true } with inputs := l }
theorem wit_walk : enabledWalkComplete (walking 0x13000) 0 3 = true ∧ (∃ r, walk (walking 0x13000) 1 0x13000 = .ok r) :=
  ⟨by decide +kernel, _, rfl⟩
theorem wit_walk_fails : enabledWalkComplete (walking 0x50000000) 0 3 = true ∧
    (∃ lv c g, walk (walking 0x50000000) 1 0x50000000 = .error (.bad lv false c g)) := ⟨by decide +kernel, _, _, _, rfl⟩
/-- The leaf of the first page migrates. -/
def migrating : State := { walking 0x3000 with mem := Mem.write tables 0x50000 [0xED] }
theorem wit_walk_rereads : enabledWalkMigrateReread migrating 0 3 = true ∧ migrates migrating
    ((((migrating.coreOf 0).walk? 3)).getD {}) = true := by decide +kernel
theorem wit_xlgen : (walking 0 [.xlgenBump 1]).inputs.head? = some (.xlgenBump 1) ∧ ((walking 0).ctxOf 1).bump = true ∧
    ((walking 0).ctxOf 1).inv = true ∧ staleWalks (walking 0) 1 = false ∧
    ({ rest with inputs := [.xlinvStage2 1] }.ctxOf 1).inv = false := by decide
theorem wit_xlinv : ∀ e : TlbEntry, (e.asid = 1 ↔ e.asid = 1) := fun _ => Iff.rfl
def touched : State := { rest with touches := [{ line := 5, count := 3, cluster := 7, holder := 0, moving := true }, { line := 6 }] }
theorem wit_lineMigrate : enabledLineMigrateDone touched 5 = true := by decide

/-- Page 1's home is core 0's window; what is pinned, and what is written to it. -/
def pinning (l : List (Nat × Option Nat)) (i : Instr) : State :=
  { rest id {} { pins := l } with mem := tables.map fun p => if p.1 = 0x50009 then (p.1, 0x81) else p, inputs := [i] }
theorem wit_cpwin : cpwinWaits (pinning [] (.cpwinWrite 0 0x10001 0)) 0 0x10001 0 = false ∧
    pinFrame (pinning [] (.cpwinWrite 0 0x10001 0)) 0 1 = some (1, 0x60000) ∧ Mem.wf (pinning [] (.cpwinWrite 0 0x10001 0)).mem = true ∧
    (∃ r, walk (pinning [] (.cpwinWrite 0 0x10001 0)) 1 0x10000 = .ok r ∧ r.leaves = [0x50008]) ∧
    cpwinWaits (pinning [(1, some 0x60000)] (.cpwinWrite 0 0 0)) 0 0 0 = false ∧
    ((pinning [(1, some 0x60000)] (.cpwinWrite 0 0 0)).coreOf 0).pins = [(1, some 0x60000)] ∧ 0x60000 + 65536 ≤ 2 ^ 52 := by
  refine ⟨by decide +kernel, by decide +kernel, by decide +kernel, ⟨_, rfl, rfl⟩, by decide +kernel, by decide +kernel, by decide⟩
/-- A copy of the handle's lines, waiting or under way, on the team of `tile`. -/
def copying (c : CopyReq) : State :=
  { tile 2 with cur := none
                ops := [{ id := 4, gid := 1, tid := 1, asid := 1, mask := 1, lanes := 1,
                          kind := .copy { c with desc := 0x00000010000400020000000000003000, off := 0x100, l := 2, k := 4 } }] }
theorem wit_copyStart : enabledCopyStart (copying {}) 4 = true ∧ (copyOf (copying {}) 4).isSome = true ∧
    enabledCopyStart (copying { dir := .mcast, mask := 3 }) 4 = true := by decide +kernel
/-- The copy's team and another of its grid on core 1, the members of a multicast. -/
def pairOn : State :=
  let s := copying { dir := .mcast, mask := 3 }
  { s with teams := s.teams ++ s.teams.map fun t => { t with tid := 2, core := 1 } }
theorem wit_mcast : enabledCopyStart pairOn 4 = true ∧
    ((copyOf pairOn 4).map fun q => (mcastOthers pairOn q.1 (mcastTargets pairOn q.2.2 q.2.1).1).map (·.core)) = some [1] := by
  decide +kernel
/-- The first sector of a started copy is next. -/
theorem wit_copySector : ∀ dir ∈ [CopyDir.expand, .compress],
    ((copyOf (copying { dir := dir, started := true }) 4).bind fun q => q.2.1.pieces[q.2.1.pos]?) = some (0, 0x3000, 16) ∧
    xlateNow (copying { dir := dir, started := true }) 1 0x3000 (.engine (dir == .compress)) false =
      some (.ok { pa := 0x13000, home := 1, r := true, w := true, x := true, u := true, asid := 1 }) ∧
    copAt (copying { dir := dir, started := true }) 0 1 0x3000 0x13000 16 = false ∧
    (copySector (copying { dir := dir, started := true }) 4).isSome = true := by decide +kernel
theorem wit_copyRefused : enabledCopyComplete (copying { started := true, refused := true }) 4 = true ∧
    (copyOf (copying { started := true, refused := true }) 4).isSome = true := by decide +kernel
/-- Both lines have been read. -/
def started1 : State := copying { started := true, status := some 0x800, pos := 2, got := List.replicate 2 (List.replicate 16 0) }
def copied : State :=
  match copyOf started1 4 with
  | some (o, c, t) => match copyData started1 o c t with | .done _ none u => u | _ => started1
  | none => started1
/-- Handle 3 names two lines of f32: the copy is done without a fault. -/
theorem wit_copyComplete : enabledCopyComplete started1 4 = true ∧
    (match copyOf started1 4 with
     | some (o, c, t) => match copyData started1 o c t with | .done _ none _ => true | _ => false
     | none => false) = true ∧ ((copied.team? 1).map (·.phase)) = some .running := by
  refine ⟨?_, ?_, ?_⟩ <;> decide +kernel
def stageWaits (i : Instr) (full : Bool) : State :=
  { tile 2 { stages := (Vector.replicate 8 {}).set 1 (stage1 full) } with
    cur := none
    ops := [{ id := 4, gid := 1, tid := 1, asid := 1, mask := 1, lanes := 1, dst := some (.v 6, 1), preds := [63], kind := .stageWait i 0 }] }
theorem wit_stageRelease : enabledStageWaitRelease (stageWaits (.stgpWait (.v 6) 1 (.inl 0)) false) 4 = true ∧
    (stageAct (.stgpWait (.v 6) 1 (.inl 0)) (stage1 false) 0).isSome = true := by decide +kernel
def leased (busy : Bool) : State :=
  { (if busy then copying { started := true, bulk := true } else tile 2) with
    cur := none, now := 9000
    teams := [{ tid := 1, asid := 1, lease := some (1, 5000) }] }
/-- A request for the pool, a nanosecond old. -/
def leasing : State :=
  { tile 1 with cur := none, now := 9000
                ops := [{ id := 4, gid := 1, tid := 1, asid := 1, mask := 3, lanes := 3, preds := [5], since := 8000
                          kind := .stageWait (.lease 5 (.inl 0)) 0 }] }
theorem wit_leaseServe : (leaseServe leasing 4).isSome = true ∧ ((leasing.team? 1).map fun t => (t.phase, t.leaseEnding)) = some (.running, false) ∧
    (leasing.ops.all fun q => leaseRipe leasing q && !leaseBefore leasing q q) = true := by refine ⟨?_, ?_, ?_⟩ <;> decide +kernel
theorem wit_lease_expiry : enabledLeaseExpiry (leased true) 1 = true ∧ enabledLeaseExpiry (leased false) 1 = true := by decide
def writes (l : List Instr) : State := { tile 2 with cur := none, inputs := l }
theorem wit_stgcfg : (writes [.stgcfgWrite 1 2 0x88020000]).inputs.head? = some (.stgcfgWrite 1 2 0x88020000) ∧
    (2 : Nat) < 8 ∧ ((writes []).team? 1).isSome = true := by decide

/-- One matrix operation of a team with 16 sub-tiles. -/
def engine (q : MxReq) : State :=
  { mx 1 4 0 with cur := none, ops := [{ id := 4, gid := 1, tid := 1, asid := 1, kind := .matrix { q with gid := 1 } }] }
theorem wit_matrixStart : enabledMatrixOpStart (engine zeroReq) 4 = true := by decide +kernel
/-- The operation's effect is done. -/
def effectDone (s : State) : Bool :=
  match matrixOf s 4 with
  | some (o, q, t) => (match mxEffect s o q t with | .done _ none _ => true | _ => false)
  | none => false
def loadReq : MxReq := { instr := .mload 2 none true 1 (.v 2), ops := [0x400] }
theorem wit_matrixComplete : enabledMatrixOpComplete (engine { zeroReq with started := true }) 4 = true ∧
    effectDone (engine { zeroReq with started := true }) = true ∧
    enabledMatrixOpComplete (engine { loadReq with started := true }) 4 = true ∧
    effectDone (engine { loadReq with started := true }) = true ∧
    enabledMatrixOpComplete (engine { zeroReq with started := true, failed := some (2, 0x3000) }) 4 = true := by
  refine ⟨?_, ?_, ?_, ?_, ?_⟩ <;> decide +kernel
/-- The next K-step of a multiply. -/
def stepping : State := engine { instr := .mma 0 none false false false (.v 0) (.v 1) (.v 0) 0 0, ops := [0, 0x800], started := true
                                 shape := ({} : Team).mxshape }
theorem wit_mxStep : (mxStep stepping 4).isSome = true ∧ mxEarlier stepping 0 4 = false ∧
    ((matrixOf stepping 4).bind fun q => multiplyOf q.2.2 q.2.1).isSome = true := by refine ⟨?_, ?_, ?_⟩ <;> decide +kernel
/-- Two rows queued since cycle 0 on core 0's cluster, whose clock stands at 5000. -/
def batching : State :=
  { rest id {} { bqrows := [{ gid := 1, op := 4, row := 0x3000, res := 0x3100 }, { gid := 1, op := 4, row := 0x3200, res := 0x3300 }],
                 bqctl := 0x80000000, bqasid := 1 } with clusters := [{ num := 0, cycles := 5000 }] }
theorem wit_batchTimeout : enabledBatchTimeout batching 0 = true := by decide
/-- A plan of one 16-column multiplication by weights at 0x6000, and a batch of no rows under way for it. -/
def plan1 : Quad := BitVec.ofNat 128 (0x3100 + 16 * 2 ^ 72 + 1 * 2 ^ 80)
def formed : State := { batching with ops := [{ id := 4, gid := 9, tid := 9, asid := 1, lanes := 1, kind := .batch [] true }] }
/-- A batch of one row of a packet of the team. -/
def rowing : State :=
  { batching with cores := batching.cores.map fun k => { k with bqblock := plan1 }
                  ops := [{ id := 4, gid := 9, tid := 9, asid := 1, lanes := 1, kind := .batch [{ gid := 1, op := 5, row := 0x3000, res := 0x3200 }] true },
                          { id := 5, gid := 1, tid := 1, asid := 1, lanes := 1, kind := .benq }] }
theorem wit_batchStep : mxEarlier rowing 0 4 = false ∧
    ((rowing.op? 5).map fun x => (match runRow rowing 0 1 plan1 x { gid := 1, op := 5, row := 0x3000, res := 0x3200 } with
      | .done _ none _ => true | _ => false)) = some true := by refine ⟨?_, ?_⟩ <;> decide +kernel
/-- The row's results, 32 bytes at `res`, are computed, and `k` sectors of them are written. -/
def rowDone (res : Dword) (k : Nat) : BqRow := { gid := 1, op := 5, row := 0x3000, res := res, out := some (List.replicate 32 7), pos := k }
def rowing2 (r : BqRow) : State := { rowing with ops := rowing.ops.map fun o => if o.id = 4 then { o with kind := .batch [r] true } else o }
theorem wit_batchWrites : (∀ r ∈ [rowDone 0x3270 0, rowDone 0x3270 1, rowDone 0x3200 0],
      mxEarlier (rowing2 r) 0 4 = false ∧ engineFrozen (rowing2 r) 0 = false ∧ (rowing2 r).disturbed = [] ∧
      (match engWritePieces 1 0 false r.res.toNat (List.replicate 32 7) ((sectorPieces r.res.toNat 32).drop r.pos)
          { rowing2 r with tick := (rowing2 r).tick + 32 } with
        | .done _ none _ => true | _ => false) = true) ∧
    [rowDone 0x3270 0, rowDone 0x3270 1, rowDone 0x3200 0].map (fun r => ((sectorPieces r.res.toNat 32).drop r.pos).length) = [2, 1, 1] := by
  refine ⟨?_, ?_⟩ <;> decide +kernel
theorem wit_batchComplete : enabledBatchComplete formed 4 = true := by decide +kernel
/-- A plan block at 0x3000 in memory, and the write that opens the queue. -/
def opening : State :=
  { rest id {} { bqplan := 0x3000 } with mem := Mem.write tables 0x13000 (leBytes 16 plan1.toNat), inputs := [.bqctlEnable 0 1 0x64] }
theorem wit_bqctl : (rangeBad opening 1 (((opening.coreOf 0).bqplan.toNat) % 2 ^ 56) 16).1 = false ∧ (∃ l, vread opening 1 (((opening.coreOf 0).bqplan.toNat) % 2 ^ 56) 16 = some l ∧
    planOk (BitVec.ofNat 128 (leNat l)) = true) ∧ ((opening.teams.filter fun t => t.core = 0 && t.phase != .saved && t.phase != .ended).map (·.nsub)).sum ≤ 56 :=
  ⟨by decide +kernel, ⟨_, rfl, by decide +kernel⟩, by decide⟩

/-! ### Crozier -/

/-- A node record of one kind: a grid of one team whose only group enters at 0x1000 (R354, R357). -/
def nodeRec (kind : Nat) : List Byte :=
  leBytes 4 0 ++ leBytes 4 (kind * 2 ^ 28 + 2 ^ 26) ++ List.replicate 24 0 ++ leBytes 8 0x1000 ++ List.replicate 8 0 ++
    leBytes 4 1 ++ leBytes 4 (2 ^ 21) ++ leBytes 4 (2 ^ 25 + 2 ^ 12 + 1) ++ List.replicate 28 0 ++ leBytes 4 1000000 ++
    List.replicate 36 0
/-- An instance of one node at 0x3000 with one active node; arena 0 of die 0 holds it. -/
def instMem (kind : Nat) : List Host.Cell :=
  Mem.write (Mem.write (Mem.write tables 0x13004 (leBytes 4 1)) 0x13030 (leBytes 4 1 ++ leBytes 4 1)) 0x13100 (nodeRec kind)
def arena1 : Arena := { base := 0x3000, size := 0x8000000000004000, pool := 0x5000, own := 0x00100201 }
def croz1 : Croz := { die := 0, arenas := (Vector.replicate 16 {}).set 0 arena1 }
def gov1 : Gov := { granted := true, grant := #v[8, 8, 1, 1, 1] }
/-- The die's Crozier with what is given, and no team. -/
def crozier (kind : Nat) (z : Croz → Croz := id) (n : List Notice := []) : State :=
  { rest id {} {} { gov := gov1 } with mem := instMem kind, crozs := [z croz1], notices := n, teams := [], groups := [], now := 5000000 }
def notice1 : Notice := { die := 0, asid := 1, node := 0x3100 }
def ready1 : Machine.Ready := { node := 0x3100, asid := 1, body := nodeRec 0, cls := 1, since := 0 }
def running1 (kind : Nat) : Running := { node := 0x3100, inst := 0x3000, asid := 1, body := nodeRec kind, kind := kind, cls := 1 }

/-- What a Crozier reads of the node, and whether it can take it. -/
def readBy (s : State) (good : List Byte → State → Bool) : Bool :=
  match readNode { s with notices := s.notices.erase notice1 } 1 0x3100 with
  | .done (some b) _ s1 =>
    let (bad, s2) := recordBad s1 1 (nodeInst 0x3100 b)
    (arenaDie s1 1 0x3100).isSome && instReady s1 1 (nodeInst 0x3100 b) &&
      (rangeStage2 s1 1 (nodeInst 0x3100 b) 64 true).isNone && !bad && !cancelled s2 1 (nodeInst 0x3100 b) &&
      vread32 s2 1 (nodeInst 0x3100 b + 0x30) == some 1 && good b s2
  | _ => false
/-- A well-formed grid. -/
def goodGrid (b : List Byte) (s : State) : Bool :=
  nodeSuccs b == 0 && nodeKind b == 0 && zerosOk b && (nodeUsed b).isEmpty && clauseStart? s 1 (rec64 b 0x20) == some true && gridBodyOk b
theorem wit_notice : readBy (crozier 0 id [notice1]) goodGrid = true ∧ crozFrozen (crozier 0 id [notice1]) 0 = false ∧
    readBy (crozier 9 id [notice1]) (fun b _ => 5 < nodeKind b) = true := by refine ⟨?_, ?_, ?_⟩ <;> decide +kernel
/-- A notice of a node that no table maps. -/
theorem wit_notice_unread :
    (match readNode { crozier 0 id [{ notice1 with node := 0x50000000 }] with notices := [] } 1 0x50000000 with
      | .done none _ _ => true | _ => false) = true := by
  decide +kernel
def copyWaits : State := crozier 1 fun z => { z with running := [running1 1] }
theorem wit_copyNode : enabledCopyNodeStart copyWaits 0 0x3100 = true ∧ runningOf copyWaits 0 0x3100 Running.waits = some (running1 1) ∧
    runningOf copyWaits 0 0x3100 (fun q => q.asid == 1) = some (running1 1) ∧
    cancelled copyWaits 1 0x3000 = false := by refine ⟨?_, ?_, ?_, ?_⟩ <;> decide +kernel
def putting : State := { crozier 0 with host := { puts := [{ id := 8 }] }, ops := [{ id := 4, kind := .event 8 }] }
theorem wit_put : putting.host.puts.length = 1 := by decide
theorem wit_arenaDisable : ({ crozier 0 with inputs := [.arenaDisable 0 0] }).inputs.head? = some (.arenaDisable 0 0) := by decide
def placing : State := crozier 0 fun z => { z with ready := [{ ready1 with head := some 0 }] }
theorem wit_placement : enabledPlacementDecision placing 0 = true ∧ (tidyQueues placing 0).isNone = true ∧
    (placeFirst placing 0 (List.range 4)).isSome = true := by refine ⟨?_, ?_, ?_⟩ <;> decide +kernel
theorem wit_blocking : enabledNodeBlocking placing 0 0x3100 = true := by decide +kernel
def gridDone : State := { crozier 0 (fun z => { z with running := [running1 0] }) with
  teams := [{ tid := 3, asid := 1, phase := .ended, launch := { node := 0x3100 } }] }
def updateDone : State := crozier 5 fun z => { z with running := [running1 5] }
theorem wit_nodeComplete : enabledNodeComplete gridDone 0 0x3100 = true ∧ (runningOf gridDone 0 0x3100 fun q => (nodeOf gridDone 0 q).isSome).isSome = true ∧
    nodeUsed (nodeRec 0) = [] ∧ enabledNodeComplete updateDone 0 0x3100 = true := by refine ⟨?_, ?_, ?_, ?_⟩ <;> decide +kernel

/-- A team about to start, whose group's lanes are empty. -/
def startingTeam : State := { rest (fun g => { g with lanes := Vector.replicate 32 { stackLo := 0x2000, stackHi := 0x2200 } })
  { phase := .starting } with groups := [{ (grp {} {}) with lanes := Vector.replicate 32 { stackLo := 0x2000, stackHi := 0x2200 } }] }
theorem wit_teamStart : enabledTeamStart startingTeam 1 = true := by decide
def endingTeam : State := { rest id {} { chans := [(3, { owner := 1 })], reds := [{ gid := 1, tid := 1, va := 0x3000 }] } with groups := [] }
theorem wit_teamEnd : enabledTeamEnd endingTeam 1 = true := by decide
def yielding : State :=
  let x : Fibre := { fib (hdr 2) 2 (7, 8, 9) with status := .parked, wait := some .atYield }
  idle (grp x x) { drain := true }
theorem wit_yieldStop : enabledYieldStop yielding 1 = true := by decide +kernel
def saving : State := { yielding with teams := yielding.teams.map fun t => { t with phase := .saving, age := 4 } }
theorem wit_teamSave : enabledTeamSaveComplete saving 1 = true ∧ saving.monitors = [] ∧
    enabledTeamSaveComplete { saving with teams := saving.teams.map fun t => { t with flushing := true } } 1 = true := by
  refine ⟨?_, ?_, ?_⟩ <;> decide +kernel
/-- A team that was saved, with its group. -/
def savedTeam : State :=
  { crozier 0 with teams := yielding.teams.map fun t => { t with phase := .saved, parked := [(yielding.group? 1).getD {}], parkedChans := [(3, {})] } }
theorem wit_teamResume : enabledTeamResume savedTeam 1 = true ∧ (nextResume savedTeam 0).isSome = true := by
  refine ⟨?_, ?_⟩ <;> decide +kernel
theorem wit_resume : (savedTeam.groups.all fun g => g.tid ≠ 1) = true ∧
    ((restored savedTeam ((savedTeam.team? 1).getD {})).1.parked.map (·.gid)).Nodup ∧
    ∀ g ∈ (restored savedTeam ((savedTeam.team? 1).getD {})).1.parked, g.tid = 1 ∧ (savedTeam.group? g.gid).isNone = true := by
  refine ⟨?_, ?_, ?_⟩ <;> decide +kernel

/-- A template of one node at 0x3000, which the arena of `crozier` holds. -/
def making : State :=
  { crozier 0 with mem := Mem.write (Mem.write (Mem.write tables 0x13000 (leBytes 4 1)) 0x13004 (leBytes 4 1)) 0x13100 (nodeRec 0) }
def maker : Team := { tid := 1, asid := 1, launch := { inst := 0x3000 } }
/-- After the header, and the nodes, are read. -/
def making1 : State := (rangeBad making 1 0x3000 256).2
def making2 : State := (rangeBad making1 1 0x3100 128).2
theorem wit_createInstance : arenaOf making 1 0x3000 = some (0, 0, arena1) ∧
    ((vread making1 1 0x3000 256).map fun l => (headerOk l, rec32 l 0)) = some (true, 1) ∧
    rangeMigrates making 1 0x3000 256 = false ∧ rangeStage2 making 1 0x3000 256 false = none ∧
    (rangeBad making 1 0x3000 256).1 = false ∧ 256 + 384 * 1 ≤ 1024 * wbits arena1.own 0 8 ∧
    0 < wbits arena1.own 8 12 ∧ arena1.taken = [] ∧ dbits arena1.pool 0 56 = 0x5000 ∧
    rangeMigrates making1 1 0x3100 128 = false ∧ rangeMigrates making1 1 0x5000 640 = false ∧
    rangeStage2 making1 1 0x3100 128 false = none ∧ rangeStage2 making1 1 0x5000 640 true = none ∧
    (rangeBad making1 1 0x3100 128).1 = false ∧ ((vread making2 1 0x3100 128).map (·.length)) = some 128 := by
  refine ⟨?_, ?_, ?_, ?_, ?_, ?_, ?_, ?_, ?_, ?_, ?_, ?_, ?_, ?_, ?_⟩ <;> decide +kernel
/-- The address that a fibre gets, the instance's first words, and the nodes that are noticed. -/
def madeOf (r : Eng (Option Nat)) : Option Nat × List Byte × List Nat :=
  match r with
  | .done a none u => (a, Mem.read u.mem 0x15000 64, u.notices.map (·.node))
  | _ => (none, [], [])
theorem test_createInstance : madeOf (createInstance making maker 0x3000 5) = (some 0x5000,
    leBytes 4 0 ++ leBytes 4 1 ++ leBytes 8 0x3000 ++ leBytes 8 5 ++ List.replicate 24 0 ++ leBytes 4 1 ++ leBytes 4 1 ++ List.replicate 8 0,
    [0x5100]) := by decide +kernel

theorem wit_resume_area : (rangeBad savedTeam 1 ((savedTeam.team? 1).getD {}).launch.saveBase (savedBytes savedTeam ((savedTeam.team? 1).getD {}))).1 = false :=
  rangeBad_calm _ _ _ _ rfl rfl

/-! ### The governor -/

def atBoundary : State := { rest id {} { beats := [(1, 5)] } { gov := gov1 } with now := 20000000 }
theorem wit_boundary : atBoundary.nextBoundary ≤ atBoundary.now ∧ atBoundary.gvPend = false ∧ atBoundary.govFrozen = false ∧
    ((handOver atBoundary).gvTaken.all fun e => !lawsWait (collect (handOver atBoundary) e) e) = true ∧
    { atBoundary with host := { frozen := [{ kind := 2, reached := true }] } }.govFrozen = true ∧
    ∀ k ∈ atBoundary.ctxs, atBoundary.ctxOf k.asid = k := by
  refine ⟨?_, ?_, ?_, ?_, ?_, ?_⟩ <;> decide +kernel
theorem wit_allocate : ([{ asid := 1, cls := 3, d := 2, res := 0, floor := 1 }] : List Demand).map (·.asid) |>.Nodup := by decide
theorem wit_law : ({} : Gov).imax.toNat < 2 ^ 31 := by decide
/-- A handoff is one error away, at the upper bound and at the lower. -/
def lawful (act hs : Nat) (pos : Word) : Gov :=
  { ctl := 0x80020000, order := 0x00020008, target := 100, gain := 0x00010001, imax := 1000
    bnd := #v[0x00400001, 0x01000001, 0x00100001, 0x00400001, 0x00090000], pos := #v[pos, pos, 1, 1, 0]
    stat := GvStat.word { act := act, hs := hs, h := 1, imp := 0, miss := 0, hand := 0 } }
theorem wit_handoff : (lawful 0 0 64).imax.toNat < 2 ^ 31 ∧ orderOk (lawful 0 0 64).order = true := by decide
theorem test_handoff : GvStat.of ((lawful 0 0 64).law 10).stat = { act := 1, hs := 0, h := 0, imp := 0, miss := 0, hand := 1 } ∧
    GvStat.of ((lawful 1 1 1).law 1000).stat = { act := 0, hs := 1, h := 0, imp := 0, miss := 0, hand := 1 } := by decide +kernel
def given (i : Instr) : State := { rest id {} {} { gov := { gov1 with save := 0x3000, res := #v[1, 2, 3, 4, 5] } } with inputs := [i] }
theorem wit_restore : (given (.contextRestore 1)).inputs.head? = some (.contextRestore 1) ∧
    (vread (given (.contextRestore 1)) 1 ((((given (.contextRestore 1)).ctxOf 1).gov.save.extractLsb' 8 48).toNat * 256) 256).isSome = true :=
  ⟨rfl, by decide +kernel⟩
theorem wit_heap : heapOn ((given (.slheapcfgEnable 1 0x80000022)).ctxOf 1) = false ∧ ((0x80000022 : Word).extractLsb' 4 12).toNat = 2 ∧
    xlateNow (given (.slheapcfgEnable 1 0x80000022)) 1 (heapBase ((given (.slheapcfgEnable 1 0x80000022)).ctxOf 1)) (.engine true) false =
      some (.ok (heapTr 0x10000)) ∧ lineMoving (given (.slheapcfgEnable 1 0x80000022)) (heapTr 0x10000) = false := by
  refine ⟨?_, ?_, ?_, ?_⟩ <;> decide +kernel
/-- `WRSYS` to SLHEAPCFG that makes the heap. -/
def raising : State := st (grp (fib (hdr 1) 1 (0x80000022, 0, 0)) (fib (hdr 1) 1 (0x80000022, 0, 0)))
theorem wit_wrsys_heap : Ready (.wrsys 0x301 (.v 0)) raising ∧ (hereOf raising).user = false ∧
    xlateNow raising 1 (heapBase (raising.ctxOf 1)) (.engine true) false = some (.ok (heapTr 0x10000)) ∧
    lineMoving raising (heapTr 0x10000) = false ∧ Ready (.wrsys 0x250 (.inl 0)) handler ∧ bqctlWaits handler 0 1 0 = false :=
  ⟨ready_of (by decide), by decide, by decide +kernel, by decide, ready_of (by decide), by decide⟩

/-! ### The fabric -/

/-- A fibre in a region, which is to roll back. -/
def rolling : State := rest fun g => g.setLane 0 { g.lane 0 with
  region := some { resume := 0x1008, pd := 5, f := 0, n := 2, ckpt := [1, 2], buf := [] }, rollback := some 2 }
theorem wit_rollback : enabledRegionRollback rolling 1 0 = true ∧ ((((rolling.group? 1).getD {}).lane 0).region).isSome = true := by
  decide +kernel
/-- Requests of device 2 on this one, device 0 of a fabric of 4, in job 9, whose window is the first page of context 1. -/
def asking (l : List Remote) (k : Core := {}) : State :=
  { rest id {} k { fxjob := 9, fxwin := 0, fxwinsz := 0x10000 } with fabric := { fxdev := 0x130, ins := l }, now := 1000000 }
def ask (id off : Nat) (k : RemoteKind) (t : Option ReqTree := none) : Remote :=
  { id := id, peer := 0, job := 9, off := off, kind := k, tree := t, input := 2, sent := 999990 }
theorem wit_serve : ∀ k ∈ [RemoteKind.load 4, .store [1, 2, 3, 4], .atom .add false 5 0],
    enabledRemoteRequestServe (asking [ask (3 * 2 ^ 64) 0x3000 k]) (3 * 2 ^ 64) = true ∧
    xlateNow (asking [ask (3 * 2 ^ 64) 0x3000 k]) 1 0x3000 .atomic false =
      some (.ok { pa := 0x13000, home := 1, r := true, w := true, x := true, u := true, asid := 1 }) := by decide +kernel
theorem wit_serve_new : ∀ x ∈ (asking [ask (3 * 2 ^ 64) 0x3000 (.load 4)]).fabric.records, ∀ n ∈ (ask (3 * 2 ^ 64) 0x3000 (.load 4)).names, x.1 ≠ n := by
  decide +kernel
def meeting : State := asking [ask 20 0x3000 (.atom .add false 5 0) (some (part 0 5)), { ask 21 0x3000 (.atom .add false 7 0) (some (part 1 7)) with input := 3 }]
theorem wit_ingress : enabledIngressCombine meeting 20 21 = true := by decide +kernel
/-- A store and a load of lane 0 that device 1 has not answered. -/
def unanswered (k : RemoteKind) : State :=
  { asking [] { copSeq := 4, cop := [{ seq := 3, gid := 1, tid := 1, asid := 1, rec_ := store1 0x3000 }] } with
    fabric := { fxdev := 0x130, out := [{ ask 20 0x3000 k with peer := 1, op := 4, lane := 0, seq := some 3, sent := 0 }] }
    ops := [loadOp (.load .b32 false .normal none none) 0x3000] }
theorem wit_timeout : (lateRequest (unanswered (.load 4)) 4 0).isSome = true ∧
    (lateRequest (unanswered (.store [1, 2, 3, 4])) 4 0).isSome = true ∧
    ((((unanswered (.load 4)).group? 1).getD {}).lane 0).status.live = true := by decide +kernel
/-- Port 2 is up, or down for a while. -/
def port (l : Link) (i : List Instr := []) : State :=
  { rolling with fabric := { fxdev := 0x130, links := (Vector.replicate 15 {}).set 2 l }, now := 1000000, inputs := i }
/-- The first bytes of a request flit of number 6, whose CRC over zeros behind them stays as it is. -/
def flitHead : List Byte := [6, 0, 0x86, 0x4A, 0x7C, 0xE8]
/-- A request flit for a load, with its CRC. -/
def flit6 : List Byte := (flitHead ++ List.replicate 242 0) ++ (List.replicate 4 0xFF ++ List.replicate 4 0)
theorem crc_zeros (n : Nat) : crc32 (flitHead ++ List.replicate n 0) = 0xFFFFFFFF := by
  have h : ∀ (f : Nat → Byte → Nat) (a : Nat) (l : List Byte), l.foldl f a = 0 → f 0 0 = 0 →
      (l ++ List.replicate n 0).foldl f a = 0 := by
    intro f a l hl hf
    rw [List.foldl_append, hl]
    clear hl
    induction n with
    | zero => rfl
    | succ k ih => rw [List.replicate_succ, List.foldl_cons, hf, ih]
  exact congrArg (· ^^^ 0xFFFFFFFF) (h _ _ _ (by decide +kernel) (by decide))
def flit (b : List Byte) : Instr :=
  .flitReceive 2 (BitVec.ofNat 64 (leNat (b.take 8))) (BitVec.ofNat 64 (leNat (b.drop 248))) none ((b.drop 8).take 240)
/-- The bytes that such a flit has. -/
def flitOf : Instr → List Byte
  | .flitReceive _ h t _ l => wireFlit h t l
  | _ => []
/-- A clean flit, in its turn and out of it, and one whose CRC fails. -/
theorem wit_flit : (port { up := true, lanes := 8, expect := 6 } [flit flit6]).inputs.head? = some (flit flit6) ∧
    fabricFrozen (port { up := true }) = false ∧ flitOf (flit flit6) = flit6 ∧ flit6.length = 256 ∧
    flitOf (flit (flit6.set 248 0)) = flit6.set 248 0 ∧
    leNat ((flit6.drop 248).take 4) = crc32 (flit6.take 248) ∧ leNat (flit6.take 2) % 4096 = 6 ∧
    leNat (((flit6.set 248 0).drop 248).take 4) ≠ crc32 ((flit6.set 248 0).take 248) ∧
    (match parsePayload (port { up := true }) 2 0 ((flit6.drop 8).take 240) with | .request _ => true | _ => false) = true := by
  have h : flit6.take 248 = flitHead ++ List.replicate 242 0 ∧ (flit6.set 248 0).take 248 = flitHead ++ List.replicate 242 0 := by
    constructor <;> decide +kernel
  refine ⟨rfl, ?_, ?_, ?_, ?_, ?_, ?_, ?_, ?_⟩
  · decide +kernel
  · decide +kernel
  · decide +kernel
  · decide +kernel
  · rw [h.1, crc_zeros]; decide +kernel
  · decide +kernel
  · rw [h.2, crc_zeros]; decide +kernel
  · decide +kernel
theorem wit_links : enabledLinkDown (port { up := true, lanes := 8, tries := 9 }) 2 = true ∧
    enabledLinkRetrainAttempt (port {}) 2 = true ∧ enabledLinkRetrainDone (port { retrain := some 5 }) 2 8 = true ∧
    enabledLinkRetrainDone (port { retrain := some 5 }) 2 0 = true := by decide +kernel

/-! ### The device -/

/-- Cluster 0's clock region, and what lies first among the outside writes. -/
def region0 (c : Cluster) (l : List Instr := []) : State :=
  { rest id {} {} { gov := { gov1 with grant := #v[8, 8, 1, 1, 5] } } with
    clusters := [{ c with num := 0 }], now := 7000, inputs := l, host := { mgmt := [(0x51000, 1)] } }
theorem wit_clock : enabledClockStepChange (region0 {}) 0 = true ∧
    enabledClockStepChange (region0 { change := some (5, 9) }) 0 = true ∧
    enabledDroopWindowEnd (region0 { droopWin := 5, cycles := 9, stretch := 1 }) 0 = true ∧
    Mem.read64 (region0 {} [.marginChange 0 0]).host.mgmt 0x51000 ≠ 0 := by decide +kernel
theorem wit_margin : (region0 {} [.marginChange 0 0]).gvPend = false := by decide
def freezing (f : Freeze) (l : List Instr := []) : State :=
  { rest with host := { frozen := [f], frzmax := 2 }, now := 9000, inputs := l }
theorem wit_freeze : enabledFreezePointReached (freezing { kind := 0, index := 3 }) 0 3 = true ∧
    enabledFreezeTimeout (freezing { kind := 0, index := 3, reached := true, since := 5 }) 0 3 = true := by decide +kernel
def failing (thr : Word) : State := region0 { errthr := Vector.replicate 4 thr } [.errorReport 0 1]
theorem wit_error : (((failing 0).clusterOf 0).src 1 |>.hit 7000).2 = false ∧ (((failing 1).clusterOf 0).src 1 |>.hit 7000).2 = true := by
  decide
/-- The group halted, with a command of the debug block. -/
def debugging (i : Instr) (halted : Bool) : State :=
  { rest (fun g => { g with halted := halted, lanes := g.lanes.map fun x => if halted ∧ x.status = .running then { x with status := .halted } else x }) with
    inputs := [i] }
theorem wit_debug : dbgBusy (debugging (.dbgHalt 0 0) false) = false ∧
    (groupIn (debugging (.dbgHalt 0 0) false) 0 0) = (debugging (.dbgHalt 0 0) false).group? 1 ∧
    ((debugging (.dbgDiscard 0 0) true).teamGroups 1).all (·.halted) = true := by decide +kernel

/-! ### The host -/

/-- Window 1 is the first page of context 1, for both. -/
def hosted (i : Instr) : State :=
  { rest with host := { mgmt := Mem.write [] 0x40000 (leBytes 8 (2 ^ 63 + 2 ^ 62 + 2 ^ 61 + 2 ^ 48) ++ leBytes 8 0 ++ leBytes 8 0x10000) }
              inputs := [i] }
def put1 : Instr := .hostRmaPut 1 0x3000 [1, 2, 3, 4] 77
theorem wit_window : windowOf (hosted put1) 1 = some { asid := 1, base := 0, len := 0x10000, w := true, r := true } ∧
    sectorPieces 0x3000 4 = [(0x3000, 4)] ∧
    xlateNow (hosted put1) 1 0x3000 .atomic false = some (.ok { pa := 0x13000, home := 1, r := true, w := true, x := true, u := true, asid := 1 }) ∧
    lineMoving (hosted put1) { pa := 0x13000, home := 1, r := true, w := true, x := true, u := true, asid := 1 } = false ∧
    (match walk (hosted put1) 1 0x3000 with | .ok _ => true | _ => false) = true := by
  refine ⟨?_, ?_, ?_, ?_, ?_⟩ <;> decide +kernel
theorem wit_window_no : windowOf (hosted put1) 2 = none := by decide +kernel
theorem wit_hosted (i : Instr) : (hosted i).inputs.head? = some i := rfl
def secure : Security := { mr := Vector.replicate 8 (List.replicate 64 0) }
theorem wit_attest : ∀ k, k < 8 → (vget secure.mr k []).length = 64 := by decide
/-- A device reset, with an image accepted before it. -/
def resetting : State := { rest with inputs := [.deviceReset], sec := { pending := some (3, [1, 2]) } }
theorem wit_deviceReset : resetting.inputs.head? = some .deviceReset ∧ resetting.sec.pending = some (3, [1, 2]) := by decide

end Sys2Proof.Tests
end

section
/-!
SUPPORT. Entries of the keyed tables after a rewriting, the bits of a word after some of them are written, and the
elements of a vector after one is replaced.
-/

namespace Sys2Proof.Machine

open Sys2Proof

variable (s : State)

/-- The table update of `updCluster` and its like: what the entry of a number is afterwards. -/
theorem find?_keyed_update {α : Type} (key : α → Nat) (f : α → α) (hf : ∀ x, key (f x) = key x) (l : List α)
    (c : Nat) (d : α) (hd : key d = c) (n : Nat) (e : α) :
    ((if l.any fun k => key k = c then l.map fun k => if key k = c then f k else k else l ++ [f d]).find?
      fun k => key k = n).getD e =
    if n = c then f ((l.find? fun k => key k = c).getD d) else (l.find? fun k => key k = n).getD e := by
  have hkey : ∀ x, key (if key x = c then f x else x) = key x := fun x => by split <;> simp [hf]
  split
  · next hany =>
    simp only [List.find?_map, Function.comp_def, hkey]
    by_cases hn : n = c
    · subst hn
      have hsome : (l.find? fun k => key k = n).isSome := List.find?_isSome.mpr (by simpa using hany)
      obtain ⟨x, hx⟩ := Option.isSome_iff_exists.mp hsome
      have hxn : key x = n := by simpa using List.find?_some hx
      simp [hx, hxn]
    · simp only [hn, if_false]
      cases hx : l.find? (fun k => decide (key k = n)) with
      | none => rfl
      | some x =>
        have hxn : key x = n := by simpa using List.find?_some hx
        simp [hxn, hn]
  · next hany =>
    have hnone : (l.find? fun k => decide (key k = c)) = none := by simpa using hany
    by_cases hn : n = c
    · subst hn; simp [List.find?_append, hnone, hf, hd]
    · have hdn : key (f d) ≠ n := by rw [hf, hd]; exact fun h => hn h.symm
      simp [List.find?_append, hn, hdn]

/-- A cluster found after a rewriting that keeps numbers. -/
theorem State.updCluster_clusterOf (c n : Nat) (f : Cluster → Cluster) (hf : ∀ x, (f x).num = x.num) :
    (s.updCluster c f).clusterOf n = if n = c then f (s.clusterOf c) else s.clusterOf n :=
  find?_keyed_update Cluster.num f hf s.clusters c (freshCluster s.now c) rfl n (freshCluster s.now n)

/-- A die's Crozier found after a rewriting that keeps numbers. -/
theorem State.updCroz_crozOf (d n : Nat) (f : Croz → Croz) (hf : ∀ x, (f x).die = x.die) :
    (s.updCroz d f).crozOf n = if n = d then f (s.crozOf d) else s.crozOf n :=
  find?_keyed_update Croz.die f hf s.crozs d { die := d } rfl n { die := n }

/-! ### Bits written over a range -/

theorem getLsbD_setBits {w : Nat} (x : BitVec w) (lo len v n : Nat) (hn : n < w) :
    (setBits x lo len v).getLsbD n = if lo ≤ n ∧ n < lo + len then v.testBit (n - lo) else x.getLsbD n := by
  simp only [setBits, BitVec.getLsbD_or, BitVec.getLsbD_and, BitVec.getLsbD_not, hn, decide_true, Bool.true_and,
    BitVec.getLsbD_ofNat, Nat.testBit_mul_two_pow, Nat.testBit_mod_two_pow, Nat.testBit_two_pow_sub_one]
  by_cases hlo : lo ≤ n
  · have hlen : n - lo < len ↔ n < lo + len := by omega
    by_cases hhi : n < lo + len <;> simp [hlo, hlen, hhi]
  · simp [hlo]

theorem extractLsb'_setBits_same {w : Nat} (x : BitVec w) (lo len v : Nat) (h : lo + len ≤ w) :
    (setBits x lo len v).extractLsb' lo len = BitVec.ofNat len v := by
  refine BitVec.eq_of_getLsbD_eq fun i hi => ?_
  have hin : lo ≤ lo + i ∧ lo + i < lo + len := by omega
  simp only [BitVec.getLsbD_extractLsb', hi, getLsbD_setBits x lo len v (lo + i) (by omega), if_pos hin,
    Nat.add_sub_cancel_left, BitVec.getLsbD_ofNat]

theorem extractLsb'_setBits_apart {w : Nat} (x : BitVec w) (lo len v a n : Nat) (h : a + n ≤ w)
    (hd : a + n ≤ lo ∨ lo + len ≤ a) : (setBits x lo len v).extractLsb' a n = x.extractLsb' a n := by
  refine BitVec.eq_of_getLsbD_eq fun i hi => ?_
  have hout : ¬ (lo ≤ a + i ∧ a + i < lo + len) := by omega
  simp only [BitVec.getLsbD_extractLsb', getLsbD_setBits x lo len v (a + i) (by omega), if_neg hout]

/-- Bits of a word, as the statements and as the model write them. -/
theorem toNat_extractLsb'_eq_nbits {w : Nat} (x : BitVec w) (lo len : Nat) :
    (x.extractLsb' lo len).toNat = nbits x.toNat lo len := by
  rw [BitVec.extractLsb'_toNat, Nat.shiftRight_eq_div_pow]

/-! ### Elements of a vector -/

theorem vget_vset_same {α : Type} {n : Nat} (v : Vector α n) (i : Nat) (x d : α) (h : i < n) :
    vget (vset v i x) i d = x := by
  simp [vget, vset, h]

theorem vget_vset_other {α : Type} {n : Nat} (v : Vector α n) (i j : Nat) (x d : α) (h : i ≠ j) :
    vget (vset v i x) j d = vget v j d := by
  by_cases hi : i < n <;> simp [vget, vset, hi, h]

end Sys2Proof.Machine
end

section
/-!
SUPPORT. Events of the device (O57): clock regions, droop, margin and freezes.
-/

namespace Sys2Proof.Machine

open Sys2Proof

variable (s : State)

/-! ### Reports to the host -/

/-- A device event enters a put at most, with its number and the count of events. -/
theorem deviceEvent_only (code : Nat) (p : Dword) :
    ∃ ps e n, deviceEvent s code p = { s with host := { s.host with puts := ps, evSeq := e }, serial := n } := by
  by_cases hr : Mem.read64 s.host.mgmt 0x51000 = 0
  · exact ⟨s.host.puts, s.host.evSeq, s.serial, by simp only [deviceEvent, hr, if_true]⟩
  · exact ⟨_, _, _, by simp only [deviceEvent, hr, if_false, State.put]; rfl⟩

/-- With a ring, a device event is one put more. -/
theorem deviceEvent_puts_length (code : Nat) (p : Dword) (h : Mem.read64 s.host.mgmt 0x51000 ≠ 0) :
    (deviceEvent s code p).host.puts.length = s.host.puts.length + 1 := by
  simp only [deviceEvent, h, if_false, State.put, List.length_append, List.length_singleton]

@[simp] theorem deviceEvent_mem (code : Nat) (p : Dword) : (deviceEvent s code p).mem = s.mem := by
  obtain ⟨_, _, _, h⟩ := deviceEvent_only s code p; rw [h]
@[simp] theorem deviceEvent_groups (code : Nat) (p : Dword) : (deviceEvent s code p).groups = s.groups := by
  obtain ⟨_, _, _, h⟩ := deviceEvent_only s code p; rw [h]
@[simp] theorem deviceEvent_frozen (code : Nat) (p : Dword) :
    (deviceEvent s code p).host.frozen = s.host.frozen := by
  obtain ⟨_, _, _, h⟩ := deviceEvent_only s code p; rw [h]
@[simp] theorem deviceEvent_frzst (code : Nat) (p : Dword) : (deviceEvent s code p).host.frzst = s.host.frzst := by
  obtain ⟨_, _, _, h⟩ := deviceEvent_only s code p; rw [h]

/-- A choice draws one free value at most. -/
theorem State.choose_ticks (n : Nat) : ∃ k, (s.choose n).2 = { s with tick := k } := by
  unfold State.choose
  split
  · exact ⟨_, rfl⟩
  · exact ⟨_, rfl⟩

theorem errorEvent_only (ev : Option Nat) :
    ∃ ps e n k, errorEvent s ev = { s with host := { s.host with puts := ps, evSeq := e }, serial := n, tick := k } := by
  cases ev with
  | none => exact ⟨_, _, _, _, rfl⟩
  | some code =>
    obtain ⟨ps, e, n, h⟩ := deviceEvent_only s.freePayload.2 code s.freePayload.1
    exact ⟨ps, e, n, s.tick + 2, h⟩

theorem spoil_only : ∃ b k, spoil s = { s with bad := b, tick := k } := by
  obtain ⟨k, h⟩ := s.choose_ticks 2
  simp only [spoil, h]
  split
  · exact ⟨s.bad, k, rfl⟩
  · exact ⟨_, _, rfl⟩

/-! ### Clock regions (R3, R23, R238, R429) -/

/-- A move of region `n` leaves memory, groups, teams and every other region as they were. -/
def RegionOnly (s : State) (n : Nat) (t : State) : Prop :=
  t.mem = s.mem ∧ t.groups = s.groups ∧ t.teams = s.teams ∧ ∀ m, m ≠ n → t.clusterOf m = s.clusterOf m

theorem State.updCluster_regionOnly (n : Nat) (f : Cluster → Cluster) (hf : ∀ x, (f x).num = x.num) :
    RegionOnly s n (s.updCluster n f) :=
  ⟨rfl, rfl, rfl, fun m hm => by rw [s.updCluster_clusterOf n m f hf, if_neg hm]⟩

/-- A region found after its own rewriting. -/
theorem State.updCluster_clusterOf_same (n : Nat) (f : Cluster → Cluster) (hf : ∀ x, (f x).num = x.num) :
    (s.updCluster n f).clusterOf n = f (s.clusterOf n) := by
  rw [s.updCluster_clusterOf n n f hf, if_pos rfl]

/-- A region that is to run at step `k` begins a change of its step, or ends the one that it has begun (R429). -/
def Cluster.changeStep (now k : Nat) (c : Cluster) : Cluster :=
  match c.change with
  | none => { c with change := some (k, now + 1500) }
  | some (j, _) => { c with step := j, change := none }

theorem Cluster.changeStep_num (now k : Nat) (c : Cluster) : (c.changeStep now k).num = c.num := by
  unfold Cluster.changeStep; split <;> rfl

theorem exec_clockStepChange {n : Nat} (h : enabledClockStepChange s n = true) :
    exec (.clockStepChange n) s = .next (s.updCluster n (Cluster.changeStep s.now (regionTarget s n))) := by
  show execClockStepChange n s = _
  exact whenEnabled_next h s _

theorem exec_droopWindowEnd {n : Nat} (h : enabledDroopWindowEnd s n = true) :
    exec (.droopWindowEnd n) s = .next (s.updCluster n fun c => { c with droopWin := 0, stretch := 0 }) := by
  show execDroopWindowEnd n s = _
  exact whenEnabled_next h s _

/-- The step change of a region begins or ends. -/
theorem clockStepChange_spec (n : Nat) (h : enabledClockStepChange s n = true) :
    ∃ t, exec (.clockStepChange n) s = .next t ∧ RegionOnly s n t ∧
      ((s.clusterOf n).change = none → (t.clusterOf n).step = (s.clusterOf n).step ∧
        (t.clusterOf n).change = some (regionTarget s n, s.now + 1500)) ∧
      ∀ k e, (s.clusterOf n).change = some (k, e) → (t.clusterOf n).step = k ∧ (t.clusterOf n).change = none := by
  have hnum := Cluster.changeStep_num s.now (regionTarget s n)
  refine ⟨_, exec_clockStepChange s h, s.updCluster_regionOnly n _ hnum, fun hc => ?_, fun k e hc => ?_⟩
  · simp only [s.updCluster_clusterOf_same n _ hnum, Cluster.changeStep, hc, and_self]
  · simp only [s.updCluster_clusterOf_same n _ hnum, Cluster.changeStep, hc, and_self]

/-- The window of a droop ends. -/
theorem droopWindowEnd_spec (n : Nat) (h : enabledDroopWindowEnd s n = true) :
    ∃ t, exec (.droopWindowEnd n) s = .next t ∧ RegionOnly s n t ∧ (t.clusterOf n).droopWin = 0 ∧
      (t.clusterOf n).stretch = 0 ∧ (t.clusterOf n).droopcnt = (s.clusterOf n).droopcnt := by
  refine ⟨_, exec_droopWindowEnd s h, s.updCluster_regionOnly n _ fun _ => rfl, ?_⟩
  simp only [s.updCluster_clusterOf_same n (fun c => { c with droopWin := 0, stretch := 0 }) fun _ => rfl, and_self]

/-- A count of 32 bits that saturates. -/
theorem toNat_satIncr (x : Word) :
    (if x = 0xFFFFFFFF then x else x + 1).toNat = min (2 ^ 32 - 1) (x.toNat + 1) := by
  have := x.isLt
  split
  · next h => subst h; rfl
  · next h =>
    have : x.toNat ≠ 0xFFFFFFFF := fun e => h (BitVec.eq_of_toNat_eq e)
    rw [BitVec.toNat_add_of_lt] <;> simp <;> omega

/-- A region in which a droop is seen: it is counted, `k` of the next cycles are stretched, and a window opens (R238). -/
def Cluster.droop (k : Nat) (c : Cluster) : Cluster :=
  { c with
    droopcnt := if c.droopcnt = 0xFFFFFFFF then c.droopcnt else c.droopcnt + 1
    droops := c.droops + 1, stretch := k, droopWin := c.cycles + 64 }

theorem exec_droopDetect {n : Nat} (h : s.inputs.head? = some (.droopDetect n)) (hn : n < 256) :
    ∃ k tick, exec (.droopDetect n) s =
      .next (State.updCluster { s with inputs := s.inputs.drop 1, tick := tick } n (Cluster.droop k)) := by
  obtain ⟨tick, htick⟩ := State.choose_ticks { s with inputs := s.inputs.drop 1 } 9
  refine ⟨(State.choose { s with inputs := s.inputs.drop 1 } 9).1, tick, ?_⟩
  show execDroopDetect n s = _
  simp only [execDroopDetect, fromOutside_next h, if_neg (show ¬ 256 ≤ n by omega), htick]
  rfl

/-- A droop is counted and opens its window. -/
theorem droopDetect_spec (n : Nat) (h : s.inputs.head? = some (.droopDetect n)) (hn : n < 256) :
    ∃ t, exec (.droopDetect n) s = .next t ∧ t.inputs = s.inputs.drop 1 ∧ RegionOnly s n t ∧
      (t.clusterOf n).droopcnt.toNat = min (2 ^ 32 - 1) ((s.clusterOf n).droopcnt.toNat + 1) ∧
      (t.clusterOf n).droopWin = (s.clusterOf n).cycles + 64 := by
  obtain ⟨k, tick, hexec⟩ := exec_droopDetect s h hn
  refine ⟨_, hexec, rfl, State.updCluster_regionOnly _ n _ fun _ => rfl, ?_⟩
  rw [State.updCluster_clusterOf_same _ n (Cluster.droop k) fun _ => rfl]
  exact ⟨toNat_satIncr _, rfl⟩

/-- The state in which the margin of region `n` is taken up from outside. -/
def marginTaken (s : State) (n : Nat) (m : BitVec 2) : State :=
  State.updCluster { s with inputs := s.inputs.drop 1 } n fun c => { c with margin := m }

theorem exec_marginChange {n : Nat} {m : BitVec 2} (h : s.inputs.head? = some (.marginChange n m)) (hn : n < 256)
    (hp : s.gvPend = false) :
    exec (.marginChange n m) s = .next (if m = 0 then
      deviceEvent (marginTaken s n m).freePayload.2 0xF2 (marginTaken s n m).freePayload.1 else marginTaken s n m) := by
  show execMarginChange n m s = _
  rw [execMarginChange, hp, if_neg Bool.false_ne_true, fromOutside_next h, if_neg (show ¬ 256 ≤ n by omega)]
  rfl

/-- A region's margin is taken up, and a critical one is told to the host. -/
theorem marginChange_spec (n : Nat) (m : BitVec 2) (h : s.inputs.head? = some (.marginChange n m)) (hn : n < 256)
    (hp : s.gvPend = false) :
    ∃ t, exec (.marginChange n m) s = .next t ∧ t.inputs = s.inputs.drop 1 ∧ RegionOnly s n t ∧
      (t.clusterOf n).margin = m ∧ (m ≠ 0 → t.host = s.host) ∧
      (m = 0 → Mem.read64 s.host.mgmt 0x51000 ≠ 0 → t.host.puts.length = s.host.puts.length + 1) := by
  have hregion : RegionOnly s n (marginTaken s n m) :=
    State.updCluster_regionOnly { s with inputs := s.inputs.drop 1 } n _ fun _ => rfl
  have hmargin : ((marginTaken s n m).clusterOf n).margin = m := by
    rw [marginTaken, State.updCluster_clusterOf_same _ n (fun c => { c with margin := m }) fun _ => rfl]
  refine ⟨_, exec_marginChange s h hn hp, ?_⟩
  by_cases hm : m = 0
  · obtain ⟨ps, e, k, he⟩ := deviceEvent_only (marginTaken s n m).freePayload.2 0xF2 (marginTaken s n m).freePayload.1
    have hput := deviceEvent_puts_length (marginTaken s n m).freePayload.2 0xF2 (marginTaken s n m).freePayload.1
    rw [if_pos hm]
    refine ⟨?_, ?_, ?_, fun h0 => absurd hm h0, fun _ => hput⟩
    · rw [he]; rfl
    · rw [he]; exact hregion
    · rw [he]; exact hmargin
  · rw [if_neg hm]
    exact ⟨rfl, hregion, hmargin, fun _ => rfl, fun h0 => absurd h0 hm⟩

/-! ### Freezes (R425) -/

/-- A unit asks for its freeze. -/
theorem freeze_spec (k n : Nat) (h : s.inputs.head? = some (.freeze k n)) :
    ∃ t, exec (.freeze k n) s = .next t ∧ t.inputs = s.inputs.drop 1 ∧ t.mem = s.mem ∧ t.groups = s.groups ∧
      (∃ f ∈ t.host.frozen, f.kind = k ∧ f.index = n) ∧
      ∀ f, ¬ (f.kind = k ∧ f.index = n) → (f ∈ t.host.frozen ↔ f ∈ s.host.frozen) := by
  have hexec : exec (.freeze k n) s = .next (askFreeze { s with inputs := s.inputs.drop 1 } k n) := by
    show execFreeze k n s = _
    exact fromOutside_next h _
  refine ⟨_, hexec, ?_⟩
  unfold askFreeze
  split
  · next hany =>
    obtain ⟨f, hf, hat⟩ := List.any_eq_true.mp hany
    exact ⟨rfl, rfl, rfl, ⟨f, hf, by simpa using hat⟩, fun _ _ => Iff.rfl⟩
  · refine ⟨rfl, rfl, rfl, ⟨_, List.mem_append_right _ (List.mem_singleton_self _), rfl, rfl⟩, fun f hf => ?_⟩
    have hne : f ≠ { kind := k, index := n, since := s.now } := fun e => hf (by subst e; exact ⟨rfl, rfl⟩)
    simp [hne]

/-- What stays frozen when a unit is thawed. -/
theorem mem_thawUnit_frozen (k n : Nat) (f : Freeze) :
    f ∈ (thawUnit s k n).host.frozen ↔ f ∈ s.host.frozen ∧ ¬ (f.kind = k ∧ f.index = n) := by
  simp [thawUnit, imp_iff_not_or]

theorem thaw_spec (k n : Nat) (h : s.inputs.head? = some (.thaw k n)) :
    ∃ t, exec (.thaw k n) s = .next t ∧ t.inputs = s.inputs.drop 1 ∧ t.mem = s.mem ∧ t.groups = s.groups ∧
      ∀ f, f ∈ t.host.frozen ↔ f ∈ s.host.frozen ∧ ¬ (f.kind = k ∧ f.index = n) := by
  have hexec : exec (.thaw k n) s = .next (thawUnit { s with inputs := s.inputs.drop 1 } k n) := by
    show execThaw k n s = _
    exact fromOutside_next h _
  exact ⟨_, hexec, rfl, rfl, rfl, mem_thawUnit_frozen { s with inputs := s.inputs.drop 1 } k n⟩

/-- The freeze of a unit after its point is reached, when the point is taken at `now` with an image (R425, R426). -/
def Freeze.reach (k n now : Nat) (image : List Byte) (f : Freeze) : Freeze :=
  if f.kind = k ∧ f.index = n then { f with reached := true, since := now, image := image } else f

theorem exec_freezePointReached {k n : Nat} (h : enabledFreezePointReached s k n = true) :
    exec (.freezePointReached k n) s = .next { s with host := { s.host with
      frzst := setBits s.host.frzst 62 2 2, frozen := s.host.frozen.map (Freeze.reach k n s.now (apertureBytes s k n)) } } := by
  show execFreezePointReached k n s = _
  exact whenEnabled_next h s _

/-- A unit holds once its freeze point is reached. -/
theorem freezePointReached_spec (k n : Nat) (h : enabledFreezePointReached s k n = true) :
    ∃ t, exec (.freezePointReached k n) s = .next t ∧ t.mem = s.mem ∧ t.groups = s.groups ∧
      t.host.frzst.extractLsb' 62 2 = 2 ∧ t.host.frzst.extractLsb' 0 62 = s.host.frzst.extractLsb' 0 62 ∧
      frozenUnit t k n = true := by
  refine ⟨_, exec_freezePointReached s h, rfl, rfl, extractLsb'_setBits_same _ 62 2 2 (by omega),
    extractLsb'_setBits_apart _ 62 2 2 0 62 (by omega) (by omega), ?_⟩
  obtain ⟨f, hf, hat⟩ := List.any_eq_true.mp (Bool.and_eq_true _ _ ▸ h).1
  have hunit : f.kind = k ∧ f.index = n := by
    simp only [Bool.and_eq_true, beq_iff_eq] at hat
    exact hat.1
  exact List.any_eq_true.mpr ⟨_, List.mem_map_of_mem hf, by simp [Freeze.reach, hunit]⟩

/-- The state in which a unit has left a freeze that lasted too long, before its event: FRZST[62] tells of it. -/
def freezeEnded (s : State) (k n : Nat) : State :=
  { thawUnit s k n with
    host := { (thawUnit s k n).host with frzst := setBits (thawUnit s k n).host.frzst 62 1 1 }, tick := s.tick + 2 }

theorem exec_freezeTimeout {k n : Nat} (h : enabledFreezeTimeout s k n = true) :
    exec (.freezeTimeout k n) s = .next (deviceEvent (freezeEnded s k n) 0xF5 (thawUnit s k n).freePayload.1) := by
  show execFreezeTimeout k n s = _
  exact whenEnabled_next h s _

theorem freezeEnded_late (k n : Nat) : (freezeEnded s k n).host.frzst.getLsbD 62 = true := by
  simp only [freezeEnded]
  rw [getLsbD_setBits _ 62 1 1 62 (by omega)]
  simp

/-- A unit that is frozen for too long leaves its freeze. -/
theorem freezeTimeout_spec (k n : Nat) (h : enabledFreezeTimeout s k n = true) :
    ∃ t, exec (.freezeTimeout k n) s = .next t ∧ t.mem = s.mem ∧ t.groups = s.groups ∧ frozenUnit t k n = false ∧
      t.host.frzst.getLsbD 62 = true := by
  refine ⟨_, exec_freezeTimeout s h, deviceEvent_mem _ _ _, deviceEvent_groups _ _ _, ?_, ?_⟩
  · rw [frozenUnit, deviceEvent_frozen]
    refine List.any_eq_false.mpr fun f hf => ?_
    have hout := ((mem_thawUnit_frozen s k n f).mp hf).2
    simp only [Bool.and_eq_true, beq_iff_eq]
    tauto
  · rw [deviceEvent_frzst]
    exact freezeEnded_late s k n

end Sys2Proof.Machine
end

section
/-!
Events of the device (O57): error sources, and the statement.
-/

namespace Sys2Proof.Machine

open Sys2Proof

variable (s : State)

/-! ### Errors (R428) -/

/-- Errors that a source has counted in the window in which `now` lies. -/
theorem hit_spec (e : ErrSrc) (now : Nat) :
    let w := 1000 * max 1 (e.win.extractLsb' 0 20).toNat
    let old := if now / w = e.since / w then (e.cnt.extractLsb' 0 16).toNat else 0
    ((e.hit now).1.cnt.extractLsb' 0 16).toNat = min (old + 1) 65535 ∧
    ((e.hit now).1.cnt.extractLsb' 16 16) = e.cnt.extractLsb' 16 16 ∧ (e.hit now).1.thr = e.thr ∧
    ((e.hit now).2 = true ↔ (e.thr.extractLsb' 0 16) ≠ 0 ∧ (e.thr.extractLsb' 0 16).toNat ≤ old + 1) := by
  have hthr : e.thr.extractLsb' 0 16 = 0 ↔ wbits e.thr 0 16 = 0 := by
    rw [wbits, ← toNat_extractLsb'_eq_nbits, ← BitVec.toNat_inj]; rfl
  simp only [toNat_extractLsb'_eq_nbits e.win, toNat_extractLsb'_eq_nbits e.cnt, toNat_extractLsb'_eq_nbits e.thr, ErrSrc.hit]
  refine ⟨?_, extractLsb'_setBits_apart _ 0 16 _ 16 16 (by omega) (by omega), trivial, ?_⟩
  · rw [extractLsb'_setBits_same _ 0 16 _ (by omega), BitVec.toNat_ofNat]
    exact Nat.mod_eq_of_lt (by omega)
  · rw [Ne, hthr, Bool.and_eq_true, bne_iff_ne, decide_eq_true_eq]

theorem Cluster.src_setSrc_same (c : Cluster) (k : Nat) (e : ErrSrc) (h : k < 4) : (c.setSrc k e).src k = e := by
  simp only [Cluster.src, Cluster.setSrc, vget_vset_same _ _ _ _ h]

theorem Cluster.src_setSrc_other (c : Cluster) (k j : Nat) (e : ErrSrc) (h : k ≠ j) :
    (c.setSrc k e).src j = c.src j := by
  simp only [Cluster.src, Cluster.setSrc, vget_vset_other _ _ _ _ _ h]

/-- A source after an error that meets no threshold, one that retires a unit, and one that finds no spare. -/
theorem onError_below (k : Nat) (e : ErrSrc) (now : Nat) (h : (e.hit now).2 = false) :
    onError k e now = ((e.hit now).1, none) := by
  simp [onError, h]

theorem onError_retires (k : Nat) (e : ErrSrc) (now : Nat) (h : (e.hit now).2 = true)
    (hs : 0 < sparesLeft k (e.hit now).1) : onError k e now = ((e.hit now).1.retire, some 0xF0) := by
  simp [onError, h, hs]

theorem onError_spent (k : Nat) (e : ErrSrc) (now : Nat) (h : (e.hit now).2 = true)
    (hs : sparesLeft k (e.hit now).1 = 0) : onError k e now = ((e.hit now).1, some 0xF1) := by
  simp [onError, h, hs]

/-- The state in which source `k` of cluster `n` has become `e` by an error reported from outside. -/
def sourceCounted (s : State) (n k : Nat) (e : ErrSrc) : State :=
  State.updCluster { s with inputs := s.inputs.drop 1 } n fun c => c.setSrc k e

theorem exec_errorReport {n k : Nat} (h : s.inputs.head? = some (.errorReport n k)) (hn : n < 256) (hk : k < 4) :
    let r := onError (4 * n + k) ((s.clusterOf n).src k) s.now
    exec (.errorReport n k) s = .next (if sparesLeft (4 * n + k) r.1 = 0
      then spoil (errorEvent (sourceCounted s n k r.1) r.2) else errorEvent (sourceCounted s n k r.1) r.2) := by
  show execErrorReport n k s = _
  rw [execErrorReport, fromOutside_next h, if_pos hk, if_neg (show ¬ 256 ≤ n by omega)]
  rfl

/-- An error of a cluster's source rewrites that source by `onError`; besides, records for the host, free values and
the sectors in error may change, and with no event the host's side does not. -/
theorem errorReport_only {n k : Nat} (h : s.inputs.head? = some (.errorReport n k)) (hn : n < 256) (hk : k < 4) :
    let r := onError (4 * n + k) ((s.clusterOf n).src k) s.now
    ∃ b host serial tick, exec (.errorReport n k) s = .next { sourceCounted s n k r.1 with
        bad := b, host := host, serial := serial, tick := tick } ∧ (r.2 = none → host = s.host) := by
  intro r
  obtain ⟨ps, e, m, j, hev⟩ := errorEvent_only (sourceCounted s n k r.1) r.2
  have hhost : r.2 = none → (errorEvent (sourceCounted s n k r.1) r.2).host = s.host := fun hr => by rw [hr]; rfl
  obtain ⟨b, j', hsp⟩ := spoil_only (errorEvent (sourceCounted s n k r.1) r.2)
  rw [exec_errorReport s h hn hk]
  split
  · exact ⟨b, _, m, j', by rw [hsp, hev], hhost⟩
  · exact ⟨s.bad, _, m, j, by rw [hev]; rfl, hhost⟩

/-- The sources of a cluster after an error of one of them. -/
theorem errorReport_spec (n k : Nat) (h : s.inputs.head? = some (.errorReport n k)) (hn : n < 256) (hk : k < 4) :
    let e := ((s.clusterOf n).src k).hit s.now
    ∃ t, exec (.errorReport n k) s = .next t ∧ t.inputs = s.inputs.drop 1 ∧ t.mem = s.mem ∧ t.groups = s.groups ∧
      (e.2 = false → (t.clusterOf n).src k = e.1 ∧ t.host = s.host) ∧
      (e.2 = true → 0 < sparesLeft (4 * n + k) e.1 → (t.clusterOf n).src k = e.1.retire) ∧
      (e.2 = true → sparesLeft (4 * n + k) e.1 = 0 → (t.clusterOf n).src k = e.1) ∧
      ∀ j, j < 4 → j ≠ k → (t.clusterOf n).src j = (s.clusterOf n).src j := by
  intro e
  obtain ⟨b, host, serial, tick, hexec, hhost⟩ := errorReport_only s h hn hk
  have hcl := s.updCluster_clusterOf_same n
    (fun c => c.setSrc k (onError (4 * n + k) ((s.clusterOf n).src k) s.now).1) fun _ => rfl
  have hsrc := (congrArg (Cluster.src · k) hcl).trans (Cluster.src_setSrc_same _ k _ hk)
  refine ⟨_, hexec, rfl, rfl, rfl, fun he => ?_, fun he hs => ?_, fun he hs => ?_, fun j _ hj => ?_⟩
  · have hon := onError_below (4 * n + k) _ s.now he
    exact ⟨hsrc.trans (congrArg Prod.fst hon), hhost (congrArg Prod.snd hon)⟩
  · exact hsrc.trans (congrArg Prod.fst (onError_retires _ _ s.now he hs))
  · exact hsrc.trans (congrArg Prod.fst (onError_spent _ _ s.now he hs))
  · exact (congrArg (Cluster.src · j) hcl).trans (Cluster.src_setSrc_other _ k j _ (Ne.symm hj))

/-- Settles O57: each event of a region, a freeze or an error source, by what it leaves. -/
theorem regionsFreezesAndErrors : Obligations.RegionsFreezesAndErrors :=
  ⟨fun s n => ⟨clockStepChange_spec s n, droopWindowEnd_spec s n, droopDetect_spec s n, marginChange_spec s n⟩,
    fun s k n => ⟨freeze_spec s k n, thaw_spec s k n, freezePointReached_spec s k n, freezeTimeout_spec s k n⟩,
    hit_spec, errorReport_spec⟩

end Sys2Proof.Machine
end

section
/-!
Starts of teams (O53).
-/

namespace Sys2Proof.Machine

open Sys2Proof

/-! ### Starts of teams (R365) -/

/-- Team 1 is about to start; beside its one group another team's group carries the same number. -/
def twinGroups : State :=
  { groups := [{ gid := 1, tid := 2 }, { gid := 1, tid := 1 }], teams := [{ tid := 1, phase := .starting }] }

theorem twinGroups_starts : enabledTeamStart twinGroups 1 = true := by decide +kernel

/-- The acquire of team 1's start finds its groups by number, so it also marks the first group, which is team 2's. -/
theorem teamStart_marks_twin {u : State} (hu : exec (.teamStart 1) twinGroups = .next u) :
    (u.group? 1).map (·.amark) = some 1 := by
  have hrun : (match exec (.teamStart 1) twinGroups with
    | .next u => (u.group? 1).map (·.amark)
    | _ => none) = some 1 := by decide +kernel
  rwa [hu] at hrun

/-- Refutes O53: no hypothesis of its first clause keeps the numbers of groups apart, and in `twinGroups` the start of
team 1 changes the acquire mark of a group of team 2, which the clause says stays as it was. -/
theorem not_teamsStartStopAndResume : ¬ Obligations.TeamsStartStopAndResume := by
  unfold Obligations.TeamsStartStopAndResume
  rintro ⟨hstart, -⟩
  obtain ⟨u, m, hu, -, -, -, -, -, -, hgroups⟩ := hstart twinGroups 1 _ rfl twinGroups_starts
  obtain ⟨k, hk, hkept⟩ := hgroups 1 { gid := 1, tid := 2 } rfl
  have hsame : k = { gid := 1, tid := 2 } := hkept
  have hmark := teamStart_marks_twin hu
  rw [hk, hsame] at hmark
  exact absurd hmark (by decide)

end Sys2Proof.Machine
end

section
/-!
SUPPORT. What accesses that no packet makes leave as it was, and with them what Crozier enters into the records of
graphs.
-/

namespace Sys2Proof.Machine

open Sys2Proof

variable (s : State)

/-! ### What accesses without a packet keep -/

/-- A team but for the groups that it keeps while it is saved. -/
def Team.unparked (t : Team) : Team := { t with parked := [] }

/-- From `s` to `t` no event from outside is taken, no Crozier changes, groups keep their numbers, and teams change in
their parked groups alone. So it is with every access that no packet makes, and with what comes of it: accessed bits,
monitors that fire, lines at the homes, records for the host. -/
structure AccessKeeps (s t : State) : Prop where
  inputs : t.inputs = s.inputs
  crozs : t.crozs = s.crozs
  gids : t.groups.map (·.gid) = s.groups.map (·.gid)
  teams : t.teams.map Team.unparked = s.teams.map Team.unparked

theorem AccessKeeps.refl : AccessKeeps s s := ⟨rfl, rfl, rfl, rfl⟩

theorem AccessKeeps.trans {s t u : State} (h : AccessKeeps s t) (k : AccessKeeps t u) : AccessKeeps s u :=
  ⟨k.inputs.trans h.inputs, k.crozs.trans h.crozs, k.gids.trans h.gids, k.teams.trans h.teams⟩

theorem HomesOnly.keeps {s t : State} (h : HomesOnly s t) : AccessKeeps s t := by
  obtain ⟨_, _, _, _, _, rfl⟩ := h
  exact ⟨rfl, rfl, rfl, rfl⟩

/-- A fold whose steps keep them keeps them. -/
theorem AccessKeeps.foldl {α : Type} {f : State → α → State} (hf : ∀ s x, AccessKeeps s (f s x)) (l : List α)
    (s : State) : AccessKeeps s (l.foldl f s) := by
  induction l generalizing s with
  | nil => exact .refl s
  | cons x r ih => exact (hf s x).trans (ih _)

/-- What a rewriting that leaves unparked teams alone leaves of any other part of them. -/
theorem AccessKeeps.teams_map {s t : State} (h : AccessKeeps s t) {α : Type} (f : Team → α)
    (hf : ∀ q, f q.unparked = f q) : t.teams.map f = s.teams.map f := by
  have hcomp : ∀ l : List Team, l.map f = (l.map Team.unparked).map f := fun l => by
    rw [List.map_map]
    exact List.map_congr_left fun q _ => (hf q).symm
  rw [hcomp t.teams, h.teams, ← hcomp]

/-- Rewriting groups by a function that keeps numbers, resident ones and those of saved teams. -/
theorem keeps_of_groups (f k : Group → Group) (hf : ∀ g, (f g).gid = g.gid) :
    AccessKeeps s { s with groups := s.groups.map f, teams := s.teams.map fun t => { t with parked := t.parked.map k } } := by
  refine ⟨rfl, rfl, ?_, ?_⟩
  · simp only [List.map_map]
    exact List.map_congr_left fun g _ => hf g
  · simp only [List.map_map]
    exact List.map_congr_left fun t _ => rfl

theorem foldl_gid {α : Type} (f : Group → α → Group) (hf : ∀ g x, (f g x).gid = g.gid) (l : List α) (g : Group) :
    (l.foldl f g).gid = g.gid := by
  induction l generalizing g with
  | nil => rfl
  | cons x r ih => exact (ih _).trans (hf g x)

@[simp] theorem Group.setScalar_gid (g : Group) (r n v : Nat) : (g.setScalar r n v).gid = g.gid := by
  refine foldl_gid _ (fun _ _ => ?_) _ _
  rfl

@[simp] theorem Group.lowered_gid (g : Group) (fs : List Nat) : (fs.foldl Group.decFlag g).gid = g.gid := by
  refine foldl_gid _ (fun _ _ => ?_) _ _
  rfl

@[simp] theorem Group.writeDst_gid (g : Group) (d : Dst) (n lead : Nat) (vals : List (Nat × Nat)) :
    (g.writeDst d n lead vals).gid = g.gid := by
  cases d with
  | v r =>
    refine foldl_gid _ (fun _ _ => ?_) _ _
    rfl
  | s r =>
    simp only [Group.writeDst]
    split
    · exact g.setScalar_gid _ _ _
    · rfl
  | push c => rfl

theorem State.updAny_keeps (gid : Nat) (f : Group → Group) (hf : ∀ g, (f g).gid = g.gid) :
    AccessKeeps s (s.updAny gid f) :=
  keeps_of_groups s _ _ fun g => by split <;> simp [hf]

theorem State.updGroup_keeps (gid : Nat) (f : Group → Group) (hf : ∀ g, (f g).gid = g.gid) :
    AccessKeeps s (s.updGroup gid f) := by
  refine ⟨rfl, rfl, ?_, rfl⟩
  simp only [State.updGroup, List.map_map]
  refine List.map_congr_left fun g _ => ?_
  simp only [Function.comp_apply]
  split <;> simp [hf]

theorem State.updCore_keeps (c : Nat) (f : Core → Core) : AccessKeeps s (s.updCore c f) := ⟨rfl, rfl, rfl, rfl⟩

theorem State.lowerFlags_keeps (gid : Nat) (fs : List Nat) : AccessKeeps s (s.lowerFlags gid fs) :=
  keeps_of_groups s _ _ fun g => by split <;> simp

theorem withOps_keeps (l : List Op) : AccessKeeps s { s with ops := l } := ⟨rfl, rfl, rfl, rfl⟩

theorem State.finishLanes_keeps (id : Nat) (m : BitVec 32) : AccessKeeps s (s.finishLanes id m) := by
  unfold State.finishLanes
  split
  · exact .refl s
  · split
    · exact (s.lowerFlags_keeps _ _).trans (withOps_keeps _ _)
    · exact withOps_keeps _ _

theorem State.sweepMonitors_keeps : AccessKeeps s s.sweepMonitors := ⟨rfl, rfl, rfl, rfl⟩

theorem acquireWide_keeps (gid : Nat) : AccessKeeps s (acquireWide s gid) := by
  unfold acquireWide
  split
  · exact .refl s
  · exact (s.updCore_keeps _ _).trans (State.updGroup_keeps _ _ _ fun _ => rfl)

theorem acquire_keeps (gid : Nat) (sc : Scope) : AccessKeeps s (acquire s gid sc) := by
  unfold acquire
  split
  · exact acquireWide_keeps s gid
  · exact .refl s

theorem releaseWaitc_keeps (o : Op) (sc : Scope) (lane : Nat) (t : Trans) (v : Nat) (out : Bool) :
    AccessKeeps s (releaseWaitc s o sc lane t v out) := by
  simp only [releaseWaitc]
  refine .trans ?_ (State.sweepMonitors_keeps _)
  refine .trans ?_ (acquire_keeps _ _ _)
  refine .trans ?_ (State.finishLanes_keeps _ _ _)
  refine .trans (t := if (s.group? o.gid).isSome then _ else s) ?_ (State.updAny_keeps _ _ _ fun g => ?_)
  · split
    · exact s.updCore_keeps _ _
    · exact .refl s
  · split
    · exact g.writeDst_gid _ _ _ _
    · rfl

theorem fireWaitc_keeps (id key : Nat) : AccessKeeps s (fireWaitc s id key) := by
  simp only [fireWaitc]
  split
  · exact .refl s
  · split
    · refine .foldl (fun s a => ?_) _ s
      split
      · exact releaseWaitc_keeps _ _ _ _ _ _ _
      · exact .refl s
    · exact .refl s

theorem fireBarG_keeps (gid key : Nat) (b : BitVec 4) : AccessKeeps s (fireBarG s gid key b) := by
  simp only [fireBarG]
  split
  · exact .refl s
  · split
    · exact .refl s
    · refine .trans ?_ (State.sweepMonitors_keeps _)
      refine .trans (State.updAny_keeps _ _ _ fun _ => ?_) (acquireWide_keeps _ _)
      rfl

theorem fireMonitors_keeps (key n : Nat) : AccessKeeps s (fireMonitors s key n) := by
  refine .foldl (fun s m => ?_) _ s
  split
  · split
    · exact fireBarG_keeps _ _ _ _
    · exact .refl s
  · split
    · exact .foldl (fun s o => fireWaitc_keeps s _ _) _ s
    · exact .refl s

theorem withMem_keeps (m : List Host.Cell) : AccessKeeps s { s with mem := m } := ⟨rfl, rfl, rfl, rfl⟩

theorem State.setAccessed_keeps (l : List Nat) : AccessKeeps s (s.setAccessed l) := by
  refine .foldl (fun s a => ?_) l s
  dsimp only
  split
  · exact .refl s
  · exact (withMem_keeps s _).trans (fireMonitors_keeps _ _ _)

theorem State.accessed_keeps (asid va : Nat) : AccessKeeps s (s.accessed asid va) := by
  unfold State.accessed
  split
  · exact s.setAccessed_keeps _
  · exact .refl s

theorem State.l2Write_keeps (t : Trans) (n : Nat) (rank : Option Nat) : AccessKeeps s (s.l2Write t n rank) := by
  unfold State.l2Write
  split
  · exact .refl s
  · exact .foldl (fun s _ => (s.l2Place_only _ _ _).keeps) _ s

theorem State.writeHome_keeps (t : Trans) (l : List Byte) (rank : Option Nat) : AccessKeeps s (s.writeHome t l rank) :=
  ((s.l2Write_keeps t l.length rank).trans (withMem_keeps _ _)).trans (fireMonitors_keeps _ _ _)

theorem vwritePages_keeps (asid k : Nat) (s : State) (va : Nat) (l : List Byte) :
    AccessKeeps s (vwritePages asid k s va l) := by
  induction k generalizing s va l with
  | zero => exact .refl s
  | succ k ih =>
    have page : AccessKeeps s (match walk s asid va with
        | .error _ => s
        | .ok w => if w.tr.w then (s.accessed asid va).writeHome w.tr (l.take (65536 - va % 65536))
          else s.accessed asid va) := by
      split
      · exact .refl s
      · split
        · exact (s.accessed_keeps _ _).trans (State.writeHome_keeps _ _ _ _)
        · exact s.accessed_keeps _ _
    simp only [vwritePages]
    split
    · exact page
    · exact page.trans (ih _ _ _)

/-- A write of a context's memory by a party that has no packet. -/
theorem vwrite_keeps (asid va : Nat) (l : List Byte) : AccessKeeps s (vwrite s asid va l) := by
  unfold vwrite
  split
  · exact .refl s
  · exact vwritePages_keeps _ _ _ _ _

theorem recordBad_keeps (asid inst : Nat) : AccessKeeps s (recordBad s asid inst).2 := by
  unfold recordBad
  split
  · exact (s.accessed_keeps _ _).trans (badSector_only _ _).keeps
  · exact .refl s

/-! ### What Crozier's entries into records keep -/

theorem deviceEvent_keeps (code : Nat) (p : Dword) : AccessKeeps s (deviceEvent s code p) := by
  obtain ⟨_, _, _, h⟩ := deviceEvent_only s code p
  rw [h]
  exact ⟨rfl, rfl, rfl, rfl⟩

theorem logAppend_keeps (asid base size : Nat) (r : List Byte) : AccessKeeps s (logAppend s asid base size r) := by
  simp only [logAppend]
  split
  · split
    · exact vwrite_keeps _ _ _ _
    · exact (vwrite_keeps _ _ _ _).trans (vwrite_keeps _ _ _ _)
  · exact .refl s

theorem State.log_keeps (asid base size : Nat) (r : List Byte) : AccessKeeps s (s.log asid base size r) := by
  have hrec := recordBad_keeps s asid base
  simp only [State.log]
  split
  · exact ⟨rfl, rfl, rfl, rfl⟩
  · split
    · next h => exact (h ▸ hrec).trans (deviceEvent_keeps _ _ _)
    · next h => exact (h ▸ hrec).trans (logAppend_keeps _ _ _ _ _)

theorem putRecord_keeps (asid : Nat) (ring : Dword) (ringlog : Nat) (seq : Word) (r : List Byte) :
    AccessKeeps s (putRecord s asid ring ringlog seq r) := by
  have hput : AccessKeeps s (s.put ring ringlog seq r) := ⟨rfl, rfl, rfl, rfl⟩
  simp only [putRecord]
  split
  · exact hput
  · split
    · exact hput
    · split
      · exact hput
      · exact s.log_keeps _ _ _ _

theorem eventNow_keeps (asid inst node code : Nat) (p : Dword) : AccessKeeps s (eventNow s asid inst node code p) := by
  simp only [eventNow]
  split
  · split
    · exact .refl s
    · exact (vwrite_keeps _ _ _ _).trans (putRecord_keeps _ _ _ _ _ _)
  · exact .refl s

theorem State.freePayload_keeps : AccessKeeps s s.freePayload.2 := ⟨rfl, rfl, rfl, rfl⟩

/-- A graph's count of active nodes falls; with the last one a pool slot may return besides. -/
theorem downNow_cases (asid inst : Nat) (quiet : Bool) :
    ∃ t, AccessKeeps s t ∧
      (downNow s asid inst quiet = t ∨ quiet = false ∧ downNow s asid inst quiet = poolFree t asid inst) := by
  unfold downNow
  split
  · next n st _ _ =>
    have hw := vwrite_keeps s asid (inst + 4) (leBytes 4 (n - 1).toNat)
    by_cases hlast : n = 1 ∧ !quiet
    · have hq : quiet = false := by simpa using hlast.2
      rw [if_pos hlast]
      exact ⟨_, (hw.trans (State.freePayload_keeps _)).trans (eventNow_keeps _ _ _ _ _ _), .inr ⟨hq, rfl⟩⟩
    · rw [if_neg hlast]
      exact ⟨_, hw, .inl rfl⟩
  · exact ⟨s, .refl s, .inl rfl⟩

theorem withDue_keeps (l : List Due) : AccessKeeps s { s with due := l } := ⟨rfl, rfl, rfl, rfl⟩

/-- An entry of a node that is active no more, when it is made. -/
theorem makeDown_cases (asid inst : Nat) (quiet : Bool) :
    ∃ t, AccessKeeps s t ∧ (Due.make s (.down asid inst quiet) = t ∨
      quiet = false ∧ Due.make s (.down asid inst quiet) = poolFree t asid inst) := by
  have hrec := recordBad_keeps s asid inst
  unfold Due.make
  generalize hr : recordBad s ((Due.down asid inst quiet).record s).1 ((Due.down asid inst quiet).record s).2 = r
  obtain ⟨bad, s1⟩ := r
  have hr : recordBad s asid inst = (bad, s1) := hr
  rw [hr] at hrec
  cases bad with
  | true => exact ⟨_, hrec.trans (deviceEvent_keeps _ _ _), .inl rfl⟩
  | false =>
    obtain ⟨t, ht, hdown⟩ := downNow_cases s1 asid inst quiet
    exact ⟨t, hrec.trans ht, hdown⟩

/-- A node of a graph is active no more, at once or once the record's page is in place. -/
theorem activeDown_cases (asid inst : Nat) (quiet : Bool) :
    ∃ t, AccessKeeps s t ∧
      (activeDown s asid inst quiet = t ∨ quiet = false ∧ activeDown s asid inst quiet = poolFree t asid inst) := by
  unfold activeDown State.enter
  split
  · exact makeDown_cases s asid inst quiet
  · exact ⟨_, withDue_keeps s _, .inl rfl⟩

/-- A node that raises no events leaves Crozier as it is. -/
theorem activeDown_quiet_keeps (asid inst : Nat) : AccessKeeps s (activeDown s asid inst true) := by
  obtain ⟨t, ht, h | ⟨hq, -⟩⟩ := activeDown_cases s asid inst true
  · exact h ▸ ht
  · exact absurd hq (by decide)

theorem poolFree_crozOf (asid inst die : Nat) :
    ((poolFree s asid inst).crozOf die).running = (s.crozOf die).running ∧
    ((poolFree s asid inst).crozOf die).ready = (s.crozOf die).ready := by
  simp only [State.crozOf, poolFree, List.find?_map, Function.comp_def]
  cases s.crozs.find? fun k => k.die = die with
  | none => exact ⟨rfl, rfl⟩
  | some c => exact ⟨rfl, rfl⟩

/-- A node that is active no more leaves the running nodes of every Crozier. -/
theorem activeDown_running (asid inst die : Nat) (quiet : Bool) :
    ((activeDown s asid inst quiet).crozOf die).running = (s.crozOf die).running := by
  obtain ⟨t, ht, h | ⟨-, h⟩⟩ := activeDown_cases s asid inst quiet
  · rw [h, State.crozOf, State.crozOf, ht.crozs]
  · rw [h, (poolFree_crozOf t asid inst die).1, State.crozOf, State.crozOf, ht.crozs]

/-- It leaves the teams too, but for their parked groups. -/
theorem activeDown_teams (asid inst : Nat) (quiet : Bool) :
    (activeDown s asid inst quiet).teams.map Team.unparked = s.teams.map Team.unparked := by
  obtain ⟨t, ht, h | ⟨-, h⟩⟩ := activeDown_cases s asid inst quiet
  · rw [h, ht.teams]
  · rw [h]; exact ht.teams

end Sys2Proof.Machine
end

section
/-!
SUPPORT. Events of Crozier (O52): notices and copy nodes.
-/

namespace Sys2Proof.Machine

open Sys2Proof

variable (s : State)

/-! ### Notices (R16, R17, R353 to R355, R364) -/

theorem crozOf_congr {s t : State} (h : t.crozs = s.crozs) (d : Nat) : t.crozOf d = s.crozOf d := by
  rw [State.crozOf, State.crozOf, h]

theorem exec_readyNoticeReceive {die : Nat} {t : State} (hf : crozFrozen s die = false)
    (h : noticeResult s die = some t) : exec (.readyNoticeReceive die) s = .next t := by
  have hen : enabledReadyNoticeReceive s die = true := by rw [enabledReadyNoticeReceive, hf, h]; rfl
  show execReadyNoticeReceive die s = _
  rw [execReadyNoticeReceive, whenEnabled_next hen, h]
  rfl

/-- A record that cannot be read is told to the host. -/
theorem noticeResult_unread {s1 : State} {die : Nat} {n : Notice} (hn : s.notices.find? (fun n => n.die = die) = some n)
    (hr : readNode { s with notices := s.notices.erase n } n.asid n.node = .done none none s1) :
    noticeResult s die = some (deviceEvent s1 0xF7 (BitVec.ofNat 64 n.node)) := by
  unfold noticeResult
  rw [hn]
  dsimp only
  rw [hr]
  rfl

/-- A record of an arena is started. -/
theorem noticeResult_node {s1 : State} {die : Nat} {n : Notice} {b : List Byte}
    (hn : s.notices.find? (fun n => n.die = die) = some n)
    (hr : readNode { s with notices := s.notices.erase n } n.asid n.node = .done (some b) none s1)
    (ha : (arenaDie s1 n.asid n.node).isSome = true) :
    noticeResult s die = (startNode s1 die n.asid n.node b).step s n.asid := by
  have ha' : (arenaDie s1 n.asid n.node).isNone = false := by
    obtain ⟨d, hd⟩ := Option.isSome_iff_exists.mp ha
    rw [hd]
    rfl
  unfold noticeResult
  rw [hn]
  dsimp only
  rw [hr]
  simp only [Eng.bind, ha', Bool.false_eq_true, if_false]

/-- A record breaks the common rules: too many successors, no such kind, a bit set that shall be zero, a successor that
its graph does not have. -/
abbrev nodeBad (s : State) (asid inst : Nat) (b : List Byte) : Bool :=
  8 < nodeSuccs b || 5 < nodeKind b || !zerosOk b || (nodeUsed b).any (instNodes s asid inst ≤ ·)

/-- The node of a graph that can be read and is not cancelled fails, or acts by its kind. -/
theorem startNode_read {s2 : State} {die asid va : Nat} {b : List Byte} (hready : instReady s asid (nodeInst va b) = true)
    (hs2 : rangeStage2 s asid (nodeInst va b) 64 true = none)
    (hrec : recordBad s asid (nodeInst va b) = (false, s2)) (hc : cancelled s2 asid (nodeInst va b) = false) :
    startNode s die asid va b = if nodeBad s2 asid (nodeInst va b) b
      then gone (failNode s2 asid (nodeInst va b) (recIndex b) 5) else nodeByKind s2 die asid va b := by
  have hwait : (!instReady s asid (nodeInst va b)) = false := by rw [hready]; rfl
  unfold startNode
  rw [if_neg (by rw [hwait]; exact Bool.false_ne_true), hs2]
  dsimp only
  rw [hrec]
  dsimp only
  rw [hc, if_neg Bool.false_ne_true]

/-- The ready entry of a grid node. -/
def gridEntry (s : State) (asid va : Nat) (b : List Byte) : Ready :=
  { node := va, asid := asid, body := b, cls := max (s.ctxOf asid).cls (nodeClass b), since := s.now }

/-- A well-formed grid node is queued last. -/
theorem nodeByKind_grid {die asid va : Nat} {b : List Byte} (hk : nodeKind b = 0)
    (he : clauseStart? s asid (rec64 b 0x20) = some true) (hb : gridBodyOk b = true) :
    nodeByKind s die asid va b = gone ((s.updReady die fun l => l ++ [gridEntry s asid va b]).updCtx
      asid fun c => { c with queued := true }) := by
  unfold nodeByKind
  rw [hk]
  dsimp only
  rw [he]
  dsimp only
  rw [hb]
  rfl

/-- Putting heads in place changes since when entries stand there and whether they block, nothing else. -/
theorem fixHeads_eq_map (now : Nat) (l : List Ready) :
    ∃ f : Ready → Ready, fixHeads now l = l.map f ∧ ∀ r, ∃ hd bl, f r = { r with head := hd, blocking := bl } := by
  refine ⟨_, rfl, fun r => ?_⟩
  split
  · split
    · exact ⟨some now, r.blocking, rfl⟩
    · exact ⟨r.head, r.blocking, rfl⟩
  · exact ⟨none, false, rfl⟩

/-- A property of entries that does not speak of heads survives their putting in place. -/
theorem fixHeads_map {α : Type} (now : Nat) (l : List Ready) (p : Ready → α)
    (hp : ∀ r hd bl, p { r with head := hd, blocking := bl } = p r) : (fixHeads now l).map p = l.map p := by
  obtain ⟨f, hf, hr⟩ := fixHeads_eq_map now l
  rw [hf, List.map_map]
  refine List.map_congr_left fun r _ => ?_
  obtain ⟨hd, bl, h⟩ := hr r
  rw [Function.comp_apply, h, hp]

/-- A die's Crozier found after its own rewriting. -/
theorem State.updCroz_crozOf_same (d : Nat) (f : Croz → Croz) (hf : ∀ x, (f x).die = x.die) :
    (s.updCroz d f).crozOf d = f (s.crozOf d) := by
  rw [s.updCroz_crozOf d d f hf, if_pos rfl]

theorem State.updReady_crozOf (die : Nat) (f : List Ready → List Ready) :
    (s.updReady die f).crozOf die = { s.crozOf die with ready := fixHeads s.now (f (s.crozOf die).ready) } :=
  s.updCroz_crozOf_same die (fun c => { c with ready := fixHeads s.now (f c.ready) }) fun _ => rfl

/-- A notice whose record cannot be read. -/
theorem readyNotice_unread (s s1 : State) (die : Nat) (n : Notice) (hf : crozFrozen s die = false)
    (hn : s.notices.find? (fun n => n.die = die) = some n)
    (hr : readNode { s with notices := s.notices.erase n } n.asid n.node = .done none none s1) :
    exec (.readyNoticeReceive die) s = .next (deviceEvent s1 0xF7 (BitVec.ofNat 64 n.node)) :=
  exec_readyNoticeReceive s hf (noticeResult_unread s hn hr)

/-- A notice whose record can be read, in a graph that can be read and is not cancelled. -/
theorem readyNotice_node (s s1 s2 : State) (die : Nat) (n : Notice) (b : List Byte) (count : Word)
    (hf : crozFrozen s die = false) (hn : s.notices.find? (fun n => n.die = die) = some n)
    (hr : readNode { s with notices := s.notices.erase n } n.asid n.node = .done (some b) none s1)
    (ha : (arenaDie s1 n.asid n.node).isSome = true) (hready : instReady s1 n.asid (nodeInst n.node b) = true)
    (hs2 : rangeStage2 s1 n.asid (nodeInst n.node b) 64 true = none)
    (hrec : recordBad s1 n.asid (nodeInst n.node b) = (false, s2))
    (hc : cancelled s2 n.asid (nodeInst n.node b) = false)
    (hcount : vread32 s2 n.asid (nodeInst n.node b + 0x30) = some count) :
    (nodeSuccs b ≤ 8 → nodeKind b = 0 → zerosOk b = true → (∀ k ∈ nodeUsed b, k < count.toNat) →
      clauseStart? s2 n.asid (rec64 b 0x20) = some true → gridBodyOk b = true →
      ∃ t r, exec (.readyNoticeReceive die) s = .next t ∧ t.mem = s2.mem ∧ t.notices = s2.notices ∧
        ((t.crozOf die).ready.map fun q => (q.node, q.asid, q.cls)) =
          ((s2.crozOf die).ready.map fun q => (q.node, q.asid, q.cls)) ++ [(r.node, r.asid, r.cls)] ∧
        (t.crozOf die).ready.getLast? = some r ∧ r.node = n.node ∧ r.asid = n.asid ∧ r.body = b ∧
        r.cls = max (s2.ctxOf n.asid).cls (nodeClass b)) ∧
    (5 < nodeKind b ∨ zerosOk b = false → exec (.readyNoticeReceive die) s =
      .next (failNode s2 n.asid (nodeInst n.node b) (recIndex b) 5)) := by
  have hstart := startNode_read s1 (die := die) hready hs2 hrec hc
  have hnode := noticeResult_node s hn hr ha
  refine ⟨fun hsucc hkind hzero hused hentry hbody => ?_, fun hbad => ?_⟩
  · have hnodes : instNodes s2 n.asid (nodeInst n.node b) = count.toNat := by rw [instNodes, hcount]; rfl
    have hgood : nodeBad s2 n.asid (nodeInst n.node b) b = false := by
      simp only [nodeBad, hnodes, hkind, hzero, Bool.or_eq_false_iff, List.any_eq_false, decide_eq_true_eq,
        decide_eq_false_iff_not, not_le, not_lt, Bool.not_true, and_true, Nat.zero_le]
      exact ⟨hsucc, hused⟩
    rw [hgood, if_neg Bool.false_ne_true, nodeByKind_grid s2 hkind hentry hbody] at hstart
    rw [hstart] at hnode
    obtain ⟨f, hfix, hfields⟩ := fixHeads_eq_map s2.now ((s2.crozOf die).ready ++ [gridEntry s2 n.asid n.node b])
    obtain ⟨hd, bl, hlast⟩ := hfields (gridEntry s2 n.asid n.node b)
    have hq := congrArg Croz.ready (s2.updReady_crozOf die fun l => l ++ [gridEntry s2 n.asid n.node b])
    refine ⟨_, f (gridEntry s2 n.asid n.node b), exec_readyNoticeReceive s hf hnode, rfl, rfl, ?_, ?_, ?_⟩
    · refine (congrArg (List.map _) hq).trans ?_
      rw [fixHeads_map _ _ _ fun _ _ _ => rfl, List.map_append, hlast]
      rfl
    · refine (congrArg List.getLast? hq).trans ?_
      rw [hfix, List.map_append, List.map_singleton, List.getLast?_concat]
    · rw [hlast]
      exact ⟨rfl, rfl, rfl, rfl⟩
  · have hbad' : nodeBad s2 n.asid (nodeInst n.node b) b = true := by
      rcases hbad with h | h <;> simp [nodeBad, h]
    rw [hbad', if_pos rfl] at hstart
    rw [hstart] at hnode
    exact exec_readyNoticeReceive s hf hnode

/-! ### Copy nodes (R358) -/

/-- A running node that was found is at the node's address and meets the condition. -/
theorem runningOf_some {s : State} {die node : Nat} {p : Running → Bool} {r : Running}
    (h : runningOf s die node p = some r) : r.node = node ∧ p r = true := by
  simpa using List.find?_some h

/-- A running node found after it was replaced by one of the same address and context. -/
theorem runningOf_updRunning {die node : Nat} {r q : Running} (hn : q.node = r.node) (ha : q.asid = r.asid)
    (h : runningOf s die node (fun x => x.asid == r.asid) = some r) :
    runningOf (updRunning s die r fun _ => q) die node (fun x => x.asid == r.asid) = some q := by
  obtain ⟨hnode, -⟩ := runningOf_some h
  have hkey : ∀ x : Running, ((if x.node = r.node ∧ x.asid = r.asid then q else x).node == node &&
      (if x.node = r.node ∧ x.asid = r.asid then q else x).asid == r.asid) = (x.node == node && x.asid == r.asid) := by
    intro x
    split
    · next hx => rw [hn, ha, hx.1, hx.2]
    · rfl
  rw [runningOf] at h
  rw [runningOf, updRunning, State.updCroz_crozOf_same _ _ (fun c => { c with running := c.running.map fun x =>
    if x.node = r.node ∧ x.asid = r.asid then q else x }) fun _ => rfl]
  simp only [List.find?_map, Function.comp_def, hkey, h, Option.map_some, and_self, if_true]

/-- A copy node as it takes the free engine of its die. -/
def Running.begun (s : State) (die : Nat) (r : Running) : Running := { r with engine := freeEngine s die, cid := s.serial }

/-- The state in which a copy node has begun, but for its entry among the running nodes. -/
def copyBegun (s : State) (die : Nat) (r : Running) : State :=
  { (s.accessed r.asid r.inst).fresh with
    unlocked := (s.accessed r.asid r.inst).unlocked ++ if r.refused then [] else (r.begun s die).ranges }

theorem exec_copyNodeStart {die node : Nat} {r : Running} (hr : runningOf s die node Running.waits = some r)
    (he : enabledCopyNodeStart s die node = true) (hc : cancelled s r.asid r.inst = false) :
    exec (.copyNodeStart die node) s = .next (updRunning (copyBegun s die r) die r fun _ => r.begun s die) := by
  show execCopyNodeStart die node s = _
  rw [execCopyNodeStart, whenEnabled_next he, hr]
  dsimp only
  rw [hc, if_neg Bool.false_ne_true]
  rfl

/-- The oldest copy node takes the free bulk engine. -/
theorem copyNodeStart_spec (s : State) (die node : Nat) (r : Running) (hr : runningOf s die node Running.waits = some r)
    (ha : runningOf s die node (fun q => q.asid == r.asid) = some r) (he : enabledCopyNodeStart s die node = true)
    (hc : cancelled s r.asid r.inst = false) :
    ∃ t, exec (.copyNodeStart die node) s = .next t ∧ t.mem = (s.accessed r.asid r.inst).mem ∧
      t.groups = (s.accessed r.asid r.inst).groups ∧
      runningOf t die node (fun q => q.asid == r.asid) = some { r with engine := freeEngine s die, cid := s.serial } := by
  have hcroz : (copyBegun s die r).crozOf die = s.crozOf die :=
    crozOf_congr (s.accessed_keeps r.asid r.inst).crozs die
  refine ⟨_, exec_copyNodeStart s hr he hc, rfl, rfl, runningOf_updRunning (q := r.begun s die) _ rfl rfl ?_⟩
  rw [runningOf, hcroz]
  exact ha

end Sys2Proof.Machine
end

section
/-!
Events of Crozier (O52): puts, arenas, placement, blocking and completion, and the statement.
-/

namespace Sys2Proof.Machine

open Sys2Proof

variable (s : State)

/-! ### Reported puts (R407) -/

@[simp] theorem State.finishLanes_host (id : Nat) (m : BitVec 32) : (s.finishLanes id m).host = s.host := by
  unfold State.finishLanes
  split
  · rfl
  · split <;> rfl

/-- An operation that completes as a whole is in flight no more. -/
theorem State.finishOp_ops (id : Nat) : (s.finishOp id).ops = s.ops.filter fun q => q.id ≠ id := by
  unfold State.finishOp State.finishLanes
  split
  · next hnone =>
    refine (List.filter_eq_self.mpr fun q hq => ?_).symm
    simpa using List.find?_eq_none.mp hnone q hq
  · next o _ =>
    rw [if_pos (show without o.lanes (BitVec.allOnes 32) = 0 by simp [without])]

theorem mem_foldl_finishOp (l : List Op) (s : State) (q : Op) :
    q ∈ (l.foldl (fun s o => s.finishOp o.id) s).ops ↔ q ∈ s.ops ∧ ∀ o ∈ l, q.id ≠ o.id := by
  induction l generalizing s with
  | nil => simp
  | cons o r ih =>
    rw [List.foldl_cons, ih, State.finishOp_ops]
    simp [and_assoc]

theorem foldl_finishOp_host (l : List Op) (s : State) : (l.foldl (fun s o => s.finishOp o.id) s).host = s.host := by
  induction l generalizing s with
  | nil => rfl
  | cons o r ih => rw [List.foldl_cons, ih, State.finishLanes_host]

/-- The state in which the oldest put is reported, `rest` being those after it. -/
def putReported (s : State) (rest : List Put) : State := { s with host := { s.host with puts := rest } }

theorem exec_uePutComplete {p : Put} {rest : List Put} (h : s.host.puts = p :: rest) :
    exec .uePutComplete s = .next ((s.ops.filter fun o => o.kind == .event p.id).foldl (fun s o => s.finishOp o.id)
      (putReported s rest)) := by
  have hen : enabledUePutComplete s = true := by rw [enabledUePutComplete, h]; rfl
  show execUePutComplete s = _
  rw [execUePutComplete, whenEnabled_next hen, h]
  rfl

/-- The oldest put is reported, and the `EVENT`s that wait for it complete. -/
theorem uePutComplete_spec (s : State) (p : Put) (rest : List Put) (h : s.host.puts = p :: rest) :
    ∃ t, exec .uePutComplete s = .next t ∧ t.mem = s.mem ∧ t.host = { s.host with puts := rest } ∧
      (∀ o ∈ t.ops, o.kind ≠ .event p.id) ∧ t.teams.map (·.tid) = s.teams.map (·.tid) := by
  have hkeeps : AccessKeeps (putReported s rest) _ := .foldl (fun s o => s.finishLanes_keeps o.id (BitVec.allOnes 32))
    (s.ops.filter fun o => o.kind == .event p.id) _
  refine ⟨_, exec_uePutComplete s h, State.foldl_mem _ (fun _ _ => State.finishLanes_mem _ _ _) _ _,
    foldl_finishOp_host _ _, fun o ho hkind => ?_, hkeeps.teams_map (·.tid) fun _ => rfl⟩
  obtain ⟨hmem, hout⟩ := (mem_foldl_finishOp _ _ _).mp ho
  exact hout o (List.mem_filter.mpr ⟨hmem, by simpa using hkind⟩) rfl

/-! ### Arenas (R373) -/

/-- An arena that is on holds an address of a context. -/
def Arena.holds (a : Arena) (asid va : Nat) : Bool :=
  a.size.getLsbD 63 && asid == wbits a.own 20 12 && dbits a.base 0 56 ≤ va && va < dbits a.base 0 56 + dbits a.size 0 44

theorem Arena.holds_iff (a : Arena) (asid va : Nat) : a.holds asid va = true ↔
    a.size.getLsbD 63 = true ∧ asid = (a.own.extractLsb' 20 12).toNat ∧ (a.base.extractLsb' 0 56).toNat ≤ va ∧
      va < (a.base.extractLsb' 0 56).toNat + (a.size.extractLsb' 0 44).toNat := by
  simp only [Arena.holds, toNat_extractLsb'_eq_nbits, Bool.and_eq_true, beq_iff_eq, decide_eq_true_eq, and_assoc]

/-- The size of an arena that is switched off: the bits above it, EN among them, are clear. -/
theorem size_off (v : Dword) : BitVec.ofNat 64 (dbits v 0 44) = v &&& 0xFFFFFFFFFFF := by
  refine BitVec.eq_of_toNat_eq ?_
  have hmask : (0xFFFFFFFFFFF : Dword).toNat = 2 ^ 44 - 1 := rfl
  rw [BitVec.toNat_ofNat, BitVec.toNat_and, hmask, Nat.and_two_pow_sub_one_eq_mod, dbits, nbits]
  omega

/-- A Crozier with an arena off and its queued nodes dropped. -/
def Croz.arenaOff (now k : Nat) (v : Dword) (c : Croz) : Croz :=
  let a := vget c.arenas k {}
  { c with
    ready := fixHeads now (c.ready.filter fun r => !a.holds r.asid r.node)
    running := c.running.filter fun r => !(r.waits && a.holds r.asid r.node)
    arenas := vset c.arenas k { a with size := BitVec.ofNat 64 (dbits v 0 44) } }

/-- Switching an arena off changes its Crozier, and besides makes entries in records that no node's events follow. -/
theorem arenaOff_cases (die k : Nat) (v : Dword) :
    ∃ s2 : State, AccessKeeps s2 (arenaOff s die k v) ∧ s2.inputs = s.inputs ∧ s2.teams = s.teams ∧
      s2.groups = s.groups ∧
      s2.crozOf die = (s.crozOf die).arenaOff s.now k v := by
  refine ⟨_, AccessKeeps.foldl (fun s p => activeDown_quiet_keeps s _ _) _ _, rfl, rfl, rfl, ?_⟩
  refine (State.updCroz_crozOf_same _ die _ fun _ => ?_).trans ?_
  · rfl
  · rw [State.updReady_crozOf]
    rfl

theorem exec_arenaDisable {die k : Nat} (hk : k < 16) (h : s.inputs.head? = some (.arenaDisable die k)) :
    exec (.arenaDisable die k) s =
      .next (arenaOff { s with inputs := s.inputs.drop 1 } die k (vget (s.crozOf die).arenas k {}).size) := by
  show execArenaDisable die k s = _
  rw [execArenaDisable, fromOutside_next h, if_pos hk]
  rfl

/-- An arena that is switched off keeps no ready node. -/
theorem Croz.arenaOff_ready (now k : Nat) (v : Dword) (c : Croz) :
    ∀ r ∈ (c.arenaOff now k v).ready, (vget c.arenas k {}).holds r.asid r.node = false := by
  intro r hr
  obtain ⟨f, hfix, hfields⟩ := fixHeads_eq_map now (c.ready.filter fun r => !(vget c.arenas k {}).holds r.asid r.node)
  simp only [Croz.arenaOff, hfix, List.mem_map, List.mem_filter, Bool.not_eq_true'] at hr
  obtain ⟨q, ⟨-, hq⟩, rfl⟩ := hr
  obtain ⟨hd, bl, h⟩ := hfields q
  rw [h]
  exact hq

/-- An arena is switched off. -/
theorem arenaDisable_spec (s : State) (die k : Nat) (hk : k < 16) (h : s.inputs.head? = some (.arenaDisable die k)) :
    let a := vget (s.crozOf die).arenas k {}
    let inside := fun (asid va : Nat) => a.size.getLsbD 63 = true ∧ asid = (a.own.extractLsb' 20 12).toNat ∧
      (a.base.extractLsb' 0 56).toNat ≤ va ∧ va < (a.base.extractLsb' 0 56).toNat + (a.size.extractLsb' 0 44).toNat
    ∃ t, exec (.arenaDisable die k) s = .next t ∧ t.inputs = s.inputs.drop 1 ∧
      t.teams.map (·.tid) = s.teams.map (·.tid) ∧ t.groups.map (·.gid) = s.groups.map (·.gid) ∧
      (vget (t.crozOf die).arenas k {}).size = a.size &&& 0xFFFFFFFFFFF ∧
      (∀ r ∈ (t.crozOf die).ready, ¬ inside r.asid r.node) ∧
      ∀ n, n < 16 → n ≠ k → vget (t.crozOf die).arenas n {} = vget (s.crozOf die).arenas n {} := by
  intro a inside
  obtain ⟨s2, hkeeps, hinputs, hteams, hgroups, hcroz⟩ :=
    arenaOff_cases { s with inputs := s.inputs.drop 1 } die k a.size
  have hoff := (crozOf_congr hkeeps.crozs die).trans hcroz
  refine ⟨_, exec_arenaDisable s hk h, hkeeps.inputs.trans hinputs, ?_, ?_, ?_, fun r hr hin => ?_, fun n hn hne => ?_⟩
  · rw [hkeeps.teams_map (·.tid) fun _ => rfl, hteams]
  · rw [hkeeps.gids, hgroups]
  · rw [hoff, Croz.arenaOff, vget_vset_same _ _ _ _ hk]
    exact size_off _
  · rw [hoff] at hr
    have hout : a.holds r.asid r.node = false := Croz.arenaOff_ready _ _ _ _ r hr
    rw [(Arena.holds_iff a r.asid r.node).mpr hin] at hout
    exact absurd hout (by decide)
  · rw [hoff, Croz.arenaOff, vget_vset_other _ _ _ _ _ (Ne.symm hne)]
    rfl

/-! ### Placement (R364, R365) -/

/-- A decision with nothing to tidy places the first candidate that finds a place. -/
theorem placementDecision_spec (s : State) (die : Nat) (h : enabledPlacementDecision s die = true) :
    ∃ t, exec (.placementDecision die) s = .next t ∧ ∀ u, tidyQueues s die = none →
      placeFirst s die (List.range 4) = some u → t = u := by
  have hexec : exec (.placementDecision die) s = .next ((placementResult s die).getD s) := by
    show execPlacementDecision die s = _
    exact whenEnabled_next h s _
  refine ⟨_, hexec, fun u htidy hplace => ?_⟩
  rw [placementResult, htidy, hplace]
  rfl

theorem vget_mapLanes {α : Type} {n : Nat} (v : Vector α n) (f : Nat → α → α) (i : Nat) (d : α) (h : i < n) :
    vget (mapLanes v f) i d = f i (vget v i d) := by
  simp [vget, mapLanes, h]

/-- A lane of a group some of whose lanes are rewritten. -/
theorem Group.updLanes_lane (g : Group) (m : BitVec 32) (f : Nat → Fibre → Fibre) (i : Nat) (h : i < 32) :
    (g.updLanes m f).lane i = if m.getLsbD i then f i (g.lane i) else g.lane i :=
  vget_mapLanes _ _ _ _ h

/-- A group that is seated is the last of the groups, on its core, its lanes as before but for their windows. -/
theorem seatGroup_groups (core : Nat) (first : Bool) (g : Group) :
    ∃ k, (seatGroup core first s g).groups = s.groups ++ [k] ∧ k.tid = g.tid ∧ k.core = core ∧
      ∀ j, j < 32 → (k.lane j).status = (g.lane j).status := by
  refine ⟨_, rfl, rfl, rfl, fun j hj => ?_⟩
  refine (congrArg Fibre.status (Group.updLanes_lane g (BitVec.allOnes 32) _ j hj)).trans ?_
  split <;> rfl

/-- Groups that are seated one after the other. -/
theorem foldl_seatGroup (core : Nat) (first : Bool) (l : List Group) (s : State) :
    (l.foldl (seatGroup core first) s).teams = s.teams ∧ (l.foldl (seatGroup core first) s).mem = s.mem ∧
    (l.foldl (seatGroup core first) s).groups.length = s.groups.length + l.length ∧
    ∀ k ∈ (l.foldl (seatGroup core first) s).groups, k ∈ s.groups ∨
      ∃ g ∈ l, k.tid = g.tid ∧ k.core = core ∧ ∀ j, j < 32 → (k.lane j).status = (g.lane j).status := by
  induction l generalizing s with
  | nil => exact ⟨rfl, rfl, rfl, fun k hk => .inl hk⟩
  | cons g r ih =>
    obtain ⟨hteams, hmem, hlen, hin⟩ := ih (seatGroup core first s g)
    obtain ⟨k, hk, hseated⟩ := seatGroup_groups s core first g
    refine ⟨hteams, hmem, ?_, fun x hx => ?_⟩
    · rw [List.foldl_cons, hlen, hk, List.length_append, List.length_singleton, List.length_cons]
      omega
    · rcases hin x hx with hold | ⟨q, hq, hnew⟩
      · rw [hk, List.mem_append, List.mem_singleton] at hold
        rcases hold with hold | rfl
        · exact .inl hold
        · exact .inr ⟨g, List.mem_cons_self, hseated⟩
      · exact .inr ⟨q, List.mem_cons_of_mem _ hq, hnew⟩

/-- Every element of a list zipped by a function comes from two elements. -/
theorem mem_zipWith {α β γ : Type} {f : α → β → γ} {l : List α} {m : List β} {x : γ} (h : x ∈ List.zipWith f l m) :
    ∃ a b, x = f a b := by
  rw [← List.map_uncurry_zip_eq_zipWith] at h
  obtain ⟨p, -, rfl⟩ := List.mem_map.mp h
  exact ⟨p.1, p.2, rfl⟩

/-- A team of a grid is placed with its identity, its groups seated with empty lanes. -/
theorem placeTeam_spec (s : State) (die at_ core k : Nat) (r : Running) :
    let u := placeTeam die r at_ s (core, k)
    ∃ t, u.teams = s.teams ++ [t] ∧ t.tid = s.serial ∧ t.asid = r.asid ∧ t.core = core ∧ t.phase = .starting ∧
      t.teamNo = k ∧ t.gridId = r.gridId ∧ t.sclass = r.cls ∧ t.tvec = (s.ctxOf r.asid).tvec ∧ t.startAt = at_ ∧
      t.launch.entry = BitVec.ofNat 56 (rec64 r.body 0x20) ∧ t.launch.privileged = (s.ctxOf r.asid).privileged ∧
      u.mem = s.mem ∧ u.groups.length = s.groups.length + (gridWindows r.body).length ∧
      ∀ g ∈ u.groups, g ∈ s.groups ∨ g.tid = t.tid ∧ g.core = core ∧ ∀ j, j < 32 → (g.lane j).status = .empty := by
  intro u
  simp only [u, placeTeam]
  generalize hgs : List.zipWith _ (List.range (gridWindows r.body).length) (gridWindows r.body) = gs
  have hnew : ∀ g ∈ gs, g.tid = s.serial ∧ ∀ j, j < 32 → (g.lane j).status = .empty := by
    intro g hg
    rw [← hgs] at hg
    obtain ⟨n, w, rfl⟩ := mem_zipWith hg
    refine ⟨rfl, fun j hj => ?_⟩
    rw [Group.updLanes_lane _ _ _ _ hj]
    split <;> simp
  have hlen : gs.length = (gridWindows r.body).length := by rw [← hgs]; simp
  obtain ⟨hteams, hmem, hcount, hin⟩ := foldl_seatGroup core true gs (State.updCtx _ r.asid _)
  refine ⟨_, hteams, rfl, rfl, rfl, rfl, rfl, rfl, rfl, rfl, rfl, rfl, rfl, hmem,
    hcount.trans (by rw [hlen]; rfl), fun g hg => ?_⟩
  rcases hin g hg with hold | ⟨q, hq, htid, hcore, hlanes⟩
  · exact .inl hold
  · obtain ⟨hqtid, hqlanes⟩ := hnew q hq
    exact .inr ⟨htid.trans hqtid, hcore, fun j hj => (hlanes j hj).trans (hqlanes j hj)⟩

/-- A Crozier whose units at a node that stood at their head for too long block. -/
def Croz.withBlocking (s : State) (node : Nat) (z : Croz) : Croz :=
  { z with ready := z.ready.map fun r =>
      if r.node = node && headWaited s z r then { r with blocking := true } else r }

theorem exec_nodeBlocking {die node : Nat} (h : enabledNodeBlocking s die node = true) :
    exec (.nodeBlocking die node) s = .next (s.updCroz die (Croz.withBlocking s node)) := by
  show execNodeBlocking die node s = _
  exact whenEnabled_next h s _

/-- A unit that stood at its head for too long blocks. -/
theorem nodeBlocking_spec (s : State) (die node : Nat) (h : enabledNodeBlocking s die node = true) :
    ∃ t, exec (.nodeBlocking die node) s = .next t ∧ t.mem = s.mem ∧ t.teams = s.teams ∧
      (t.crozOf die).ready = (s.crozOf die).ready.map fun r =>
        if r.node = node && headWaited s (s.crozOf die) r then { r with blocking := true } else r :=
  ⟨_, exec_nodeBlocking s h, rfl, rfl,
    congrArg Croz.ready (s.updCroz_crozOf_same die (Croz.withBlocking s node) fun _ => rfl)⟩

/-! ### Completion (R353, R355, R356) -/

/-- The first element of a kind that has a value gives the value of the first that has one among those of the kind. -/
theorem findSome?_filter_of_find? {α β : Type} {p : α → Bool} {f : α → Option β} {l : List α} {r : α} {t : β}
    (h : (l.find? fun q => p q && (f q).isSome) = some r) (ht : f r = some t) : (l.filter p).findSome? f = some t := by
  induction l with
  | nil => cases h
  | cons q l ih =>
    by_cases hp : p q = true
    · rw [List.filter_cons_of_pos hp, List.findSome?_cons]
      cases hq : f q with
      | none => exact ih (by rwa [List.find?_cons_of_neg (by simp [hq])] at h)
      | some v =>
        rw [List.find?_cons_of_pos (by simp [hp, hq]), Option.some.injEq] at h
        rw [← ht, ← h, hq]
    · rw [List.filter_cons_of_neg hp]
      exact ih (by rwa [List.find?_cons_of_neg (by simp [hp])] at h)

/-- The node that completes at an address is the first that can. -/
theorem exec_nodeComplete {die node : Nat} {r : Running} {t : State}
    (hr : runningOf s die node (fun q => (nodeOf s die q).isSome) = some r) (hf : crozFrozen s die = false)
    (ht : nodeOf s die r = some t) : exec (.nodeComplete die node) s = .next t := by
  have hresult : nodeResult s die node = some t := findSome?_filter_of_find? hr ht
  have hen : enabledNodeComplete s die node = true := by rw [enabledNodeComplete, hf, hresult]; rfl
  show execNodeComplete die node s = _
  rw [execNodeComplete, whenEnabled_next hen, hresult]
  rfl

/-- A node without successors that has not failed leaves Crozier. -/
theorem closeNode_leaf {die : Nat} {r : Running} (h : nodeUsed r.body = []) :
    closeNode s die r 0 = gone (activeDown (dropRunning s die r) r.asid r.inst) := by
  rw [closeNode, h]
  rfl

/-- The state without the teams of a grid node. -/
def withoutGrid (s : State) (r : Running) : State :=
  { s with teams := s.teams.filter fun t => !(t.asid == r.asid && t.launch.node == r.node) }

/-- A grid that has not failed leaves with its teams. -/
theorem nodeOf_grid {die : Nat} {r : Running} (hk : r.kind = 0) (hfail : r.failed = false) (hu : nodeUsed r.body = [])
    (hsome : (nodeOf s die r).isSome = true) :
    nodeOf s die r = some (activeDown (dropRunning (withoutGrid s r) die r) r.asid r.inst) := by
  have hcases : nodeEnd s die r = .wait ∨ nodeEnd s die r = closeNode (withoutGrid s r) die r 0 := by
    simp only [nodeEnd, hk, hfail]
    split
    · exact .inr rfl
    · exact .inl rfl
  rcases hcases with hwait | hclose
  · rw [nodeOf, hwait] at hsome
    exact absurd hsome Bool.false_ne_true
  · rw [nodeOf, hclose, closeNode_leaf _ hu]
    rfl

/-- A governor-update node leaves at once. -/
theorem nodeOf_update {die : Nat} {r : Running} (hk : r.kind = 5) (hu : nodeUsed r.body = []) :
    nodeOf s die r = some (activeDown (dropRunning s die r) r.asid r.inst) := by
  have hclose : nodeEnd s die r = closeNode s die r 0 := by simp only [nodeEnd, hk]
  rw [nodeOf, hclose, closeNode_leaf _ hu]
  rfl

/-- A node that left is no more among the running ones. -/
theorem runningOf_dropped (die : Nat) (r : Running) :
    runningOf (activeDown (dropRunning s die r) r.asid r.inst) die r.node (fun q => q.asid == r.asid) = none := by
  rw [runningOf, activeDown_running, dropRunning, State.updCroz_crozOf_same _ _
    (fun c => { c with running := c.running.filter fun q => !(q.node == r.node && q.asid == r.asid) }) fun _ => rfl]
  refine List.find?_eq_none.mpr fun q hq hat => ?_
  have hout := (List.mem_filter.mp hq).2
  rw [hat] at hout
  exact absurd hout Bool.false_ne_true

/-- A node that is done leaves Crozier. -/
theorem nodeComplete_spec (s : State) (die node : Nat) (r : Running)
    (hr : runningOf s die node (fun q => (nodeOf s die q).isSome) = some r) (hf : crozFrozen s die = false)
    (hu : nodeUsed r.body = []) (hkind : r.kind = 0 ∧ r.failed = false ∨ r.kind = 5) :
    let s0 : State := if r.kind = 0 then
      { s with teams := s.teams.filter fun t => !(t.asid == r.asid && t.launch.node == node) } else s
    ∃ t, exec (.nodeComplete die node) s = .next t ∧ t = activeDown (dropRunning s0 die r) r.asid r.inst ∧
      runningOf t die node (fun q => q.asid == r.asid) = none ∧
      (r.kind = 0 → ∀ m ∈ t.teams, ¬ (m.asid = r.asid ∧ m.launch.node = node)) := by
  obtain ⟨rfl, hsome⟩ := runningOf_some hr
  intro s0
  have hnode : nodeOf s die r = some (activeDown (dropRunning s0 die r) r.asid r.inst) := by
    rcases hkind with ⟨hk, hfail⟩ | hk
    · rw [nodeOf_grid s hk hfail hu hsome]
      simp only [s0, hk, if_true, withoutGrid]
    · rw [nodeOf_update s hk hu]
      simp only [s0, hk, OfNat.ofNat_ne_zero, if_false]
  refine ⟨_, exec_nodeComplete s hr hf hnode, rfl, runningOf_dropped s0 die r, fun hk m hm hgrid => ?_⟩
  have hteams := activeDown_teams (dropRunning s0 die r) r.asid r.inst false
  have hmem : m.unparked ∈ (dropRunning s0 die r).teams.map Team.unparked := hteams ▸ List.mem_map_of_mem hm
  obtain ⟨q, hq, hqm⟩ := List.mem_map.mp hmem
  have hasid : q.asid = m.asid := (congrArg Team.asid hqm : _)
  have hlaunch : q.launch = m.launch := (congrArg Team.launch hqm : _)
  have hs0 : (dropRunning s0 die r).teams = s.teams.filter fun t => !(t.asid == r.asid && t.launch.node == r.node) := by
    simp only [s0, hk, if_true]
    rfl
  rw [hs0, List.mem_filter, hasid, hlaunch, hgrid.1, hgrid.2] at hq
  simp at hq

/-- Settles O52: each event of Crozier, by what it leaves. -/
theorem nodesMoveThroughCrozier : Obligations.NodesMoveThroughCrozier :=
  ⟨readyNotice_unread, readyNotice_node, copyNodeStart_spec, uePutComplete_spec, arenaDisable_spec,
    placementDecision_spec, placeTeam_spec, nodeBlocking_spec, nodeComplete_spec⟩

end Sys2Proof.Machine
end

section
/-!
SUPPORT. Fields of words that are written as fields side by side, and operands read back from their fields (O2).
-/

namespace Sys2Proof

open Sys2Proof.Machine

/-! ### Fields of a word -/

/-- A field above the last part of a word is one of the rest of it. -/
@[simp] theorem extractLsb'_append_of_le {n m : Nat} (x : BitVec n) (y : BitVec m) (lo len : Nat) (h : m ≤ lo) :
    BitVec.extractLsb' lo len (@HAppend.hAppend _ _ (no_index (BitVec (n + m))) _ x y) = x.extractLsb' (lo - m) len :=
  BitVec.extractLsb'_append_eq_of_le h

/-- A field within the last part of a word is one of that part. -/
@[simp] theorem extractLsb'_append_of_add_le {n m : Nat} (x : BitVec n) (y : BitVec m) (lo len : Nat)
    (h : lo + len ≤ m) :
    BitVec.extractLsb' lo len (@HAppend.hAppend _ _ (no_index (BitVec (n + m))) _ x y) = y.extractLsb' lo len :=
  BitVec.extractLsb'_append_eq_of_add_le h

@[simp] theorem getElem_append_of_le {n m : Nat} (x : BitVec n) (y : BitVec m) (i : Nat) (h : i < n + m)
    (hi : m ≤ i) : (@HAppend.hAppend _ _ (no_index (BitVec (n + m))) _ x y)[i]'h = x[i - m] := by
  simp [BitVec.getElem_append, Nat.not_lt.mpr hi]

@[simp] theorem getElem_append_of_lt {n m : Nat} (x : BitVec n) (y : BitVec m) (i : Nat) (h : i < n + m)
    (hi : i < m) : (@HAppend.hAppend _ _ (no_index (BitVec (n + m))) _ x y)[i]'h = y[i] := by
  simp [BitVec.getElem_append, hi]

/-- A field within two last parts that are zero. -/
@[simp] theorem extractLsb'_zeros {n m k : Nat} (x : BitVec n) (lo len : Nat) (h : lo + len ≤ m + k) :
    BitVec.extractLsb' lo len (@HAppend.hAppend _ _ (no_index (BitVec (n + m + k))) _
      (@HAppend.hAppend _ _ (no_index (BitVec (n + m))) _ x (0#m)) (0#k)) = 0#len := by
  refine BitVec.eq_of_getLsbD_eq fun i hi => ?_
  simp only [BitVec.getLsbD_extractLsb', BitVec.getLsbD_append, BitVec.getLsbD_zero]
  grind

/-! ### Enumerated fields -/

@[simp] theorem Size.ofBits_toBits (x : Size) : Size.ofBits x.toBits = some x := by cases x <;> rfl
@[simp] theorem Policy.ofBits_toBits (x : Policy) : Policy.ofBits x.toBits = x := by cases x <;> rfl
@[simp] theorem Space.ofBits_toBits (x : Space) : Space.ofBits x.toBits = some x := by cases x <;> rfl
@[simp] theorem Scope.ofBits_toBits (x : Scope) : Scope.ofBits x.toBits = some x := by cases x <;> rfl
@[simp] theorem Order.ofBits_toBits (x : Order) : Order.ofBits x.toBits = x := by cases x <;> rfl
@[simp] theorem AtomFn.ofBits_toBits (x : AtomFn) : AtomFn.ofBits x.toBits = some x := by cases x <;> rfl
@[simp] theorem WaitCc.ofBits_toBits (x : WaitCc) : WaitCc.ofBits x.toBits = some x := by cases x <;> rfl
@[simp] theorem Rnd.ofBits_toBits (x : Rnd) : Rnd.ofBits x.toBits = some x := by cases x <;> rfl
@[simp] theorem IntTy.ofBits_toBits (x : IntTy) : IntTy.ofBits x.toBits = x := by cases x <;> rfl
@[simp] theorem PlogFn.ofBits_toBits (x : PlogFn) : PlogFn.ofBits x.toBits = x := by cases x <;> rfl
@[simp] theorem ShflMode.ofBits_toBits (x : ShflMode) : ShflMode.ofBits x.toBits = x := by cases x <;> rfl
@[simp] theorem SegW.ofBits_toBits (x : SegW) : SegW.ofBits x.toBits = some x := by cases x <;> rfl
@[simp] theorem RandOut.ofBits_toBits (x : RandOut) : RandOut.ofBits x.toBits = some x := by cases x <;> rfl
@[simp] theorem RandRounds.ofBits_toBits (x : RandRounds) : RandRounds.ofBits x.toBits = x := by cases x <;> rfl
@[simp] theorem MadMode.ofBits_toBits (x : MadMode) : MadMode.ofBits x.toBits = some x := by cases x <;> rfl
@[simp] theorem FenceKind.ofBits_toBits (x : FenceKind) : FenceKind.ofBits x.toBits = some x := by cases x <;> rfl
@[simp] theorem CctlOp.ofBits_toBits (x : CctlOp) : CctlOp.ofBits x.toBits = some x := by cases x <;> rfl
@[simp] theorem MxForm.ofBits_toBits (x : MxForm) : MxForm.ofBits x.toBits = some x := by cases x <;> rfl
@[simp] theorem MxAcc.ofBits_toBits (x : MxAcc) : MxAcc.ofBits x.toBits = some x := by cases x <;> rfl
@[simp] theorem MxConv.ofBits_toBits (x : MxConv) : MxConv.ofBits x.toBits = some x := by cases x <;> rfl

/-- The sign field of a matrix instruction (R299). -/
@[simp] theorem signOf_wX (op at_ : BitVec 6) (cv : SignCv) (mid : BitVec 6) (s : BitVec 9) :
    signOf (wX op at_ cv mid s) = some cv := by
  cases cv <;> simp [signOf, wX, signBits]

/-! ### Operands (R41, R42, R45) -/

@[simp] theorem Dst.ofBits_toBits (d : Dst) : Dst.ofBits d.toBits = some d := by
  cases d <;> simp [Dst.ofBits]

/-- The extension word that a list of sources carries, or 0. -/
def extWord (l : List Src) : Word := (extOf l).headD 0

/-- A source that is a literal in an extension word. -/
def Src.isExt : Src → Bool
  | .ext _ => true
  | _ => false

/-- A source that its field and the extension word `e` give back. -/
def Src.Fits (e : Word) : Src → Prop
  | .ext x => x = e
  | .inl x => x ≠ 0b100000
  | _ => True

/-- Sources that one extension word serves. -/
def Literals (l : List Src) : Prop := ∀ a ∈ l, a.Fits (extWord l)

/-- An inline literal other than the reserved one does not announce an extension word. -/
theorem inl_ne_extCode {x : BitVec 6} (h : x ≠ 0b100000) : (Src.inl x).toBits ≠ extCode := fun hc =>
  h (by simpa using congrArg (BitVec.extractLsb' 0 6) hc)

theorem Src.Fits.ofBits_toBits {e : Word} {a : Src} (h : a.Fits e) : Src.ofBits a.toBits e = some a := by
  cases a with
  | inl x => simpa [Src.ofBits] using inl_ne_extCode h
  | ext x => obtain rfl : x = e := h; simp [Src.ofBits]
  | v | s | c | pop | peek => simp [Src.ofBits]

/-- Only a literal in an extension word announces one. -/
theorem Src.Fits.announces {e : Word} {a : Src} (h : a.Fits e) : (a.toBits == extCode) = a.isExt := by
  cases a with
  | inl x => simpa [Src.isExt] using inl_ne_extCode h
  | ext x => rfl
  | v n | c n =>
    refine beq_eq_false_iff_ne.mpr fun hc => ?_
    simpa using congrArg (BitVec.extractLsb' 6 3) hc
  | s n | pop n | peek n =>
    refine beq_eq_false_iff_ne.mpr fun hc => ?_
    simpa using congrArg (BitVec.extractLsb' 5 4) hc

theorem extOf_isEmpty (l : List Src) : (extOf l).isEmpty = !l.any Src.isExt := by
  induction l with
  | nil => rfl
  | cons a l ih => cases a <;> simp_all [extOf, Src.isExt]

/-- The extension word of some sources stands behind the words before it, when the fields announce one as the sources
do. -/
theorem takeExt_append (pre : List Word) {l : List Src} {fs : List (BitVec 9)}
    (h : fs.any (· == extCode) = l.any Src.isExt) :
    takeExt (pre ++ extOf l) pre.length fs = some (extWord l, (pre ++ extOf l).length) := by
  have hempty := extOf_isEmpty l
  have hlen := Laws.Words.extOf_length l
  rw [takeExt, h, extWord]
  cases hx : extOf l with
  | nil => simp_all
  | cons e r =>
    obtain rfl : r = [] := by
      rw [hx] at hlen
      exact List.eq_nil_of_length_eq_zero (by simpa using hlen)
    simp_all

theorem Literals.announce {l : List Src} (h : Literals l) :
    (l.map Src.toBits).any (· == extCode) = l.any Src.isExt := by
  rw [List.any_map, Bool.eq_iff_iff, List.any_eq_true, List.any_eq_true]
  exact exists_congr fun a => and_congr_right fun ha => by rw [Function.comp_apply, (h a ha).announces]

/-- The extension word behind one, two or three words. -/
theorem Literals.takeExt_one {l : List Src} (h : Literals l) {fs : List (BitVec 9)} (w : Word)
    (hf : fs = l.map Src.toBits) : takeExt (w :: extOf l) 1 fs = some (extWord l, (extOf l).length + 1) :=
  takeExt_append [w] (hf ▸ h.announce)
theorem Literals.takeExt_two {l : List Src} (h : Literals l) {fs : List (BitVec 9)} (w x : Word)
    (hf : fs = l.map Src.toBits) : takeExt (w :: x :: extOf l) 2 fs = some (extWord l, (extOf l).length + 1 + 1) :=
  takeExt_append [w, x] (hf ▸ h.announce)

theorem Literals.ofBits {l : List Src} (h : Literals l) {a : Src} (ha : a ∈ l) :
    Src.ofBits a.toBits (extWord l) = some a := (h a ha).ofBits_toBits

/-- The extension word of sources of which at most one is a literal in one. -/
theorem extWord_of_mem {x : Word} : ∀ {l : List Src}, .ext x ∈ l → l.countP Src.isExt ≤ 1 → extWord l = x
  | a :: l, hx, hcount => by
    rcases List.mem_cons.mp hx with rfl | hmem
    · rfl
    · have hpos : 0 < l.countP Src.isExt := List.countP_pos_iff.mpr ⟨_, hmem, rfl⟩
      rw [List.countP_cons] at hcount
      cases a with
      | ext y =>
        have : 1 < 1 := by simp only [Src.isExt, if_true] at hcount; omega
        exact absurd this (Nat.lt_irrefl 1)
      | v | s | c | inl | pop | peek => exact extWord_of_mem (l := l) hmem (by omega)

theorem extCount_eq (l : List Opd) : extCount l = (l.map Opd.src).countP Src.isExt := by
  rw [extCount, ← List.countP_eq_length_filter, List.countP_map]
  rfl

/-- The sources of a shape within the operand rules share one extension word. -/
theorem literals_of_ok {sh : Shape} (h : sh.ok = true) : Literals (sh.srcs.map Opd.src) := by
  simp only [Shape.ok, Bool.and_eq_true, decide_eq_true_eq] at h
  obtain ⟨⟨⟨hall, hcount⟩, -⟩, -⟩ := h
  intro a ha
  cases a with
  | inl x =>
    obtain ⟨o, ho, hsrc⟩ := List.mem_map.mp ha
    have hok := List.all_eq_true.mp hall o ho
    simp only [Opd.ok, hsrc, Bool.and_eq_true, bne_iff_ne] at hok
    exact hok.1.2
  | ext x => exact (extWord_of_mem ha (extCount_eq _ ▸ hcount)).symm
  | v | s | c | pop | peek => trivial

/-- The sources of a well-formed instruction share one extension word. -/
theorem literals_of_wf {i : Instr} (h : i.wf = true) {l : List Src} (hl : (shape i).srcs.map Opd.src = l) :
    Literals l := by
  simp only [Instr.wf, encodable, Bool.and_eq_true] at h
  obtain ⟨⟨⟨⟨-, hok⟩, -⟩, -⟩, -⟩ := h
  exact hl ▸ literals_of_ok hok

/-- Behind the sources, a field that is not in use holds v0. -/
theorem Literals.append_unused {l : List Src} (h : Literals l) (n : Nat) :
    Literals (l ++ List.replicate n (.v 0)) := by
  have hext : extWord (l ++ List.replicate n (.v 0)) = extWord l := by
    simp [extWord, extOf, List.filterMap_append]
  intro a ha
  rw [hext]
  rcases List.mem_append.mp ha with ha | ha
  · exact h a ha
  · rw [List.eq_of_mem_replicate ha]
    trivial

end Sys2Proof
end

section
/-!
SUPPORT. The formats of classes I and F (R49), and their instructions read back (O2).
-/

namespace Sys2Proof

open Sys2Proof.Machine

variable {op : BitVec 6} {d : Dst} {a b c : Src} {md : BitVec 7}

theorem decA1_encA1 (f : Dst → Src → Instr) (h : Literals [a]) :
    decA1 (encA1 op d a) (wA op d.toBits a.toBits 0) f = some (f d a, (encA1 op d a).length) := by
  simp [decA1, h.takeExt_one, h.ofBits]

theorem decA2_encA2 (f : Dst → Src → Src → Instr) (h : Literals [a, b]) :
    decA2 (encA2 op d a b) (wA op d.toBits a.toBits b.toBits) f = some (f d a b, (encA2 op d a b).length) := by
  simp [decA2, h.takeExt_one, h.ofBits]

theorem decA0_encA0 (f : Src → Instr) (h : Literals [a]) :
    decA0 (wA op 0 a.toBits 0 :: extOf [a]) (wA op 0 a.toBits 0) f =
      some (f a, (wA op 0 a.toBits 0 :: extOf [a]).length) := by
  simp [decA0, h.takeExt_one, h.ofBits]

theorem decP_encP {pd : BitVec 6} {cc : BitVec 2} (f : BitVec 6 → BitVec 2 → Src → Src → Instr)
    (h : Literals [a, b]) :
    decP (encP op pd cc a b) (wP op pd cc a.toBits b.toBits) f = some (f pd cc a b, (encP op pd cc a b).length) := by
  simp [decP, h.takeExt_one, h.ofBits]

theorem decA3_encA3 {f : Dst → Src → Src → Src → BitVec 7 → Option Instr} {i : Instr} (h : Literals [a, b, c])
    (hf : f d a b c md = some i) :
    decA3 (encA3 op d a b c md) (wA op d.toBits a.toBits b.toBits) f = some (i, (encA3 op d a b c md).length) := by
  simp [decA3, modWord, h.takeExt_two, h.ofBits, hf]
theorem decA3b_encA3b {f : Dst → Src → Src → BitVec 7 → Option Instr} {i : Instr} (h : Literals [a, b])
    (hf : f d a b md = some i) :
    decA3b (encA3b op d a b md) (wA op d.toBits a.toBits b.toBits) f = some (i, (encA3b op d a b md).length) := by
  simp [decA3b, modWord, h.takeExt_two, h.ofBits, hf]
theorem decA3a_encA3a {f : Dst → Src → BitVec 7 → Option Instr} {i : Instr} (h : Literals [a])
    (hf : f d a md = some i) :
    decA3a (encA3a op d a md) (wA op d.toBits a.toBits 0) f = some (i, (encA3a op d a md).length) := by
  simp [decA3a, modWord, h.takeExt_two, h.ofBits, hf]



theorem opcode_wA (x : BitVec 8) (y z : BitVec 9) : fld (wA op x y z) 26 6 = op := by simp
theorem opcode_wP (pd : BitVec 6) (cc : BitVec 2) (y z : BitVec 9) : fld (wP op pd cc y z) 26 6 = op := by simp


theorem wf_iff (i : Instr) : i.wf = true ↔
    i.cls.isSome = true ∧ (shape i).ok = true ∧ memOk i = true ∧ mxOk i = true ∧ fieldOk i = true := by
  simp only [Instr.wf, encodable, Bool.and_eq_true, and_assoc]

/-- `TCMP` without a second operand holds v0 there (R144). -/
theorem literals_tcmp {pd : BitVec 6} {cc : BitVec 2} {a b : Src} (hwf : (Instr.tcmp pd cc a b).wf = true) :
    Literals [a, b] := by
  obtain ⟨-, -, -, -, hfield⟩ := (wf_iff _).mp hwf
  by_cases hcc : cc = 3
  · obtain rfl : b = .v 0 := by
      change (cc != 3 || b == .v 0) = true at hfield
      simpa [hcc] using hfield
    exact (literals_of_wf hwf (l := [a]) (by subst hcc; rfl)).append_unused 1
  · refine literals_of_wf hwf (l := [a, b]) ?_
    show (if cc = 3 then [oT a] else [oT a, oT b]).map Opd.src = [a, b]
    rw [if_neg hcc]
    rfl

theorem decI_encode (i : Instr) (hc : i.cls = some .I) (hwf : i.wf = true) :
    decI (encode i) ((encode i).headD 0) = some (i, i.words) := by
  cases i
  case mov d a | iabs d a | ineg d a | popc d a | clz d a | brev d a | ballot d a =>
    show decI (encA1 _ d a) (wA _ d.toBits a.toBits 0) = some (_, (encA1 _ d a).length)
    rw [decI, opcode_wA]
    exact decA1_encA1 _ (literals_of_wf hwf rfl)
  case iadd d a b | isub d a b | imul d a b | imulhs d a b | imulhn d a b | imin d a b | imax d a b | iminn d a b
      | imaxn d a b | andI d a b | orI d a b | xorI d a b | andn d a b | shl d a b | shr d a b | sar d a b
      | rotl d a b | iadd64 d a b | isub64 d a b | shl64 d a b | shr64 d a b | imulw d a b | iaddw d a b =>
    show decI (encA2 _ d a b) (wA _ d.toBits a.toBits b.toBits) = some (_, (encA2 _ d a b).length)
    rw [decI, opcode_wA]
    exact decA2_encA2 _ (literals_of_wf hwf rfl)
  case imad d a b c _ | bfx d a b c _ | bfi d a b c _ | lea d a b c _ _ | shfl d a b c _ _ | rand d a b c _ _ =>
    show decI (encA3 _ d a b c _) (wA _ d.toBits a.toBits b.toBits) = some (_, (encA3 _ d a b c _).length)
    rw [decI, opcode_wA]
    exact decA3_encA3 (literals_of_wf hwf rfl) (by simp)
  case isel d a b _ _ | cvti d a b _ _ _ =>
    show decI (encA3b _ d a b _) (wA _ d.toBits a.toBits b.toBits) = some (_, (encA3b _ d a b _).length)
    rw [decI, opcode_wA]
    exact decA3b_encA3b (literals_of_wf hwf rfl) (by simp)
  case icmps pd cc a b | icmpn pd cc a b | icmp64 pd cc a b =>
    show decI (encP _ pd cc a b) (wP _ pd cc a.toBits b.toBits) = some (_, (encP _ pd cc a b).length)
    rw [decI, opcode_wP]
    exact decP_encP _ (literals_of_wf hwf rfl)
  case vote pd cc a =>
    have h := literals_of_wf hwf (l := [a]) rfl
    show decI (wP _ pd cc a.toBits 0 :: extOf [a]) (wP _ pd cc a.toBits 0) = some (_, (extOf [a]).length + 1)
    rw [decI, opcode_wP]
    simp [h.takeExt_one, h.ofBits]
  case elect pd hi =>
    show decI [wP _ pd _ 0 0] (wP _ pd ((0 : BitVec 1) ++ b1 hi) 0 0) = some (_, 1)
    rw [decI, opcode_wP]
    simp
  case prd d hi =>
    show decI [wA _ d.toBits _ 0] (wA _ d.toBits ((0b01100000 : BitVec 8) ++ b1 hi) 0) = some (_, 1)
    rw [decI, opcode_wA]
    simp
  case pwr a hi =>
    have h := literals_of_wf hwf (l := [a]) rfl
    show decI (wA _ 0 a.toBits ((0b01100000 : BitVec 8) ++ b1 hi) :: extOf [a])
      (wA _ 0 a.toBits ((0b01100000 : BitVec 8) ++ b1 hi)) = some (_, (extOf [a]).length + 1)
    rw [decI, opcode_wA]
    simp [h.takeExt_one, h.ofBits]
  case plog pd fn pa na pb nb =>
    show decI [(0x1D : BitVec 6) ++ pd ++ fn.toBits ++ pa ++ b1 na ++ pb ++ b1 nb ++ (0 : BitVec 4)]
      ((0x1D : BitVec 6) ++ pd ++ fn.toBits ++ pa ++ b1 na ++ pb ++ b1 nb ++ (0 : BitVec 4)) = some (_, 1)
    simp [decI]
  all_goals cases hc

theorem decF_encode (i : Instr) (hc : i.cls = some .F) (hwf : i.wf = true) :
    decF (encode i) ((encode i).headD 0) = some (i, i.words) := by
  cases i
  case fabs d a | fneg d a | fexp2 d a | flog2 d a | fclass d a | fkey d a | tneg d a | trcp d a | trsq d a =>
    show decF (encA1 _ d a) (wA _ d.toBits a.toBits 0) = some (_, (encA1 _ d a).length)
    rw [decF, opcode_wA]
    exact decA1_encA1 _ (literals_of_wf hwf rfl)
  case fmin d a b | fmax d a b | tadd d a b | tsub d a b | tmul d a b =>
    show decF (encA2 _ d a b) (wA _ d.toBits a.toBits b.toBits) = some (_, (encA2 _ d a b).length)
    rw [decF, opcode_wA]
    exact decA2_encA2 _ (literals_of_wf hwf rfl)
  case ffma d a b c _ _ _ | dfma d a b c _ _ _ =>
    show decF (encA3 _ d a b c _) (wA _ d.toBits a.toBits b.toBits) = some (_, (encA3 _ d a b c _).length)
    rw [decF, opcode_wA]
    exact decA3_encA3 (literals_of_wf hwf rfl) (by simp [negRnd])
  case tfma d a b c _ _ =>
    show decF (encA3 _ d a b c _) (wA _ d.toBits a.toBits b.toBits) = some (_, (encA3 _ d a b c _).length)
    rw [decF, opcode_wA]
    exact decA3_encA3 (literals_of_wf hwf rfl) (by simp [negRnd, Rnd.ofBits])
  case fadd d a b _ | fsub d a b _ | fmul d a b _ | fscale d a b _ | dmul d a b _ =>
    show decF (encA3b _ d a b _) (wA _ d.toBits a.toBits b.toBits) = some (_, (encA3b _ d a b _).length)
    rw [decF, opcode_wA]
    exact decA3b_encA3b (literals_of_wf hwf rfl) (by simp [rndOnly])
  case dadd d a b _ _ =>
    show decF (encA3b _ d a b _) (wA _ d.toBits a.toBits b.toBits) = some (_, (encA3b _ d a b _).length)
    rw [decF, opcode_wA]
    exact decA3b_encA3b (literals_of_wf hwf rfl) (by simp [negRnd])
  case frcp d a _ | frsq d a _ | fsqrt d a _ | frnd d a _ | ftrig d a _ | fcvt d a _ _ =>
    show decF (encA3a _ d a _) (wA _ d.toBits a.toBits 0) = some (_, (encA3a _ d a _).length)
    rw [decF, opcode_wA]
    exact decA3a_encA3a (literals_of_wf hwf rfl) (by simp [rndOnly])
  case fcmp pd cc a b | dcmp pd cc a b =>
    show decF (encP _ pd cc a b) (wP _ pd cc a.toBits b.toBits) = some (_, (encP _ pd cc a b).length)
    rw [decF, opcode_wP]
    exact decP_encP _ (literals_of_wf hwf rfl)
  case tcmp pd cc a b =>
    show decF (encP _ pd cc a b) (wP _ pd cc a.toBits b.toBits) = some (_, (encP _ pd cc a b).length)
    rw [decF, opcode_wP]
    exact decP_encP _ (literals_tcmp hwf)
  all_goals cases hc

end Sys2Proof
end

section
/-!
SUPPORT. The instructions of classes M, C and G read back (O2).
-/

namespace Sys2Proof

open Sys2Proof.Machine

variable {op : BitVec 6} {d : Dst} {a b : Src}

theorem Order.ofBits_zero : Order.ofBits 0#2 = .rlx := rfl
theorem Order.ofBits_one : Order.ofBits 1#2 = .acq := rfl

/-- An atomic other than a compare-and-swap holds v0 in its third source (R178). -/
theorem literals_atom {d : Dst} {a b c : Src} {fn : AtomFn} {ord : Order} {sc : Scope} {w : Bool}
    (hwf : (Instr.atom d a b c fn ord sc w).wf = true) : Literals [a, b, c] := by
  obtain ⟨-, -, hmem, -, -⟩ := (wf_iff _).mp hwf
  by_cases hfn : fn = .cas
  · subst hfn
    exact literals_of_wf hwf rfl
  · obtain rfl : c = .v 0 := by
      change ((fn != .fadd || !w) && (fn != .kmax || w) && (fn == .cas || c == .v 0)) = true at hmem
      rw [Bool.and_eq_true] at hmem
      simpa [hfn] using hmem.2
    refine Literals.append_unused (l := [a, b]) (literals_of_wf hwf ?_) 1
    cases fn with
    | cas => exact absurd rfl hfn
    | _ => rfl

/-- `CCTL` of a whole cache holds v0 in its source (R197). -/
theorem literals_cctl {a : Src} {op : CctlOp} (hwf : (Instr.cctl a op).wf = true) : Literals [a] := by
  obtain ⟨-, -, hmem, -, -⟩ := (wf_iff _).mp hwf
  cases op with
  | l1line | wb | cbank => exact literals_of_wf hwf rfl
  | l1all | icache =>
    obtain rfl : a = .v 0 := by simpa [memOk] using hmem
    exact (literals_of_wf hwf (l := []) rfl).append_unused 1

theorem takeOff_append (w : Word) (off : Option Word) (l : List Word) :
    takeOff (w :: (off.toList ++ l)) 1 off.isSome = some (off, 1 + off.toList.length) := by
  cases off <;> simp [takeOff]

theorem Literals.takeExt_off {l : List Src} (h : Literals l) {fs : List (BitVec 9)} (w : Word) (off : Option Word)
    (hf : fs = l.map Src.toBits) : takeExt (w :: (off.toList ++ extOf l)) (1 + off.toList.length) fs =
      some (extWord l, (off.toList ++ extOf l).length + 1) := by
  rw [Nat.add_comm 1, ← List.length_cons (a := w)]
  exact takeExt_append (w :: off.toList) (hf ▸ h.announce)

theorem decM_encode (i : Instr) (hc : i.cls = some .M) (hwf : i.wf = true) :
    decM (encode i) ((encode i).headD 0) = some (i, i.words) := by
  cases i
  case ld d a off sz pol sp sx =>
    have h := literals_of_wf hwf (l := [a]) rfl
    show decM (wM 0 d.toBits a.toBits sz.toBits pol.toBits off.isSome (sp.toBits ++ b1 sx) :: (off.toList ++ extOf [a]))
      (wM 0 d.toBits a.toBits sz.toBits pol.toBits off.isSome (sp.toBits ++ b1 sx)) =
        some (_, (off.toList ++ extOf [a]).length + 1)
    simp [decM, takeOff_append, h.takeExt_off, h.ofBits]
  case st v a off sz pol sp =>
    have h := literals_of_wf hwf (l := [v, a]) rfl
    show decM (((0x01 : BitVec 6) ++ v.toBits ++ a.toBits ++ sz.toBits ++ pol.toBits ++ b1 off.isSome ++ sp.toBits) ::
      (off.toList ++ extOf [v, a]))
      ((0x01 : BitVec 6) ++ v.toBits ++ a.toBits ++ sz.toBits ++ pol.toBits ++ b1 off.isSome ++ sp.toBits) =
        some (_, (off.toList ++ extOf [v, a]).length + 1)
    simp [decM, takeOff_append, h.takeExt_off, h.ofBits]
  case lda d a off sz pol sc =>
    have h := literals_of_wf hwf (l := [a]) rfl
    show decM (wM 2 d.toBits a.toBits sz.toBits pol.toBits off.isSome sc.toBits :: (off.toList ++ extOf [a]))
      (wM 2 d.toBits a.toBits sz.toBits pol.toBits off.isSome sc.toBits) =
        some (_, (off.toList ++ extOf [a]).length + 1)
    simp [decM, takeOff_append, h.takeExt_off, h.ofBits]
  case stl v a sz sc =>
    have h := literals_of_wf hwf (l := [v, a]) rfl
    show decM (((0x03 : BitVec 6) ++ v.toBits ++ a.toBits ++ sz.toBits ++ sc.toBits ++ (0 : BitVec 2)) :: extOf [v, a])
      ((0x03 : BitVec 6) ++ v.toBits ++ a.toBits ++ sz.toBits ++ sc.toBits ++ (0 : BitVec 2)) =
        some (_, (extOf [v, a]).length + 1)
    simp [decM, h.takeExt_one, h.ofBits]
  case ldp d a off sz =>
    have h := literals_of_wf hwf (l := [a]) rfl
    show decM (wM 4 d.toBits a.toBits sz.toBits 0 off.isSome 0 :: (off.toList ++ extOf [a]))
      (wM 4 d.toBits a.toBits sz.toBits 0 off.isSome 0) = some (_, (off.toList ++ extOf [a]).length + 1)
    simp [decM, takeOff_append, h.takeExt_off, h.ofBits]
  case atom d a b c fn ord sc w =>
    have h := literals_atom hwf
    show decM (wA 5 d.toBits a.toBits b.toBits :: wAT fn.toBits ord.toBits sc.toBits w c.toBits :: extOf [a, b, c])
      (wA 5 d.toBits a.toBits b.toBits) = some (_, (extOf [a, b, c]).length + 1 + 1)
    simp [decM, atWord, h.takeExt_two, h.ofBits]
  case red a b fn sc w =>
    have h := literals_of_wf hwf (l := [a, b]) rfl
    show decM (wA 6 0 a.toBits b.toBits :: wAT fn.toBits 0 sc.toBits w 0 :: extOf [a, b])
      (wA 6 0 a.toBits b.toBits) = some (_, (extOf [a, b]).length + 1 + 1)
    simp [decM, atWord, h.takeExt_two, h.ofBits, Order.ofBits_zero]
  case redf => rfl
  case fence k sc =>
    show decM [0x20000000, wMod (k.toBits ++ sc.toBits ++ (0 : BitVec 2)) 0] 0x20000000 = some (_, 2)
    simp [decM, modWord]
  case waitc d a b cc sc w =>
    have h := literals_of_wf hwf (l := [a, b]) rfl
    show decM (wA 9 d.toBits a.toBits b.toBits :: wAT cc.toBits 1 sc.toBits w 0 :: extOf [a, b])
      (wA 9 d.toBits a.toBits b.toBits) = some (_, (extOf [a, b]).length + 1 + 1)
    simp [decM, atWord, h.takeExt_two, h.ofBits, Order.ofBits_one]
  case pref a off line pol =>
    have h := literals_of_wf hwf (l := [a]) rfl
    show decM (wM 0x0A 0 a.toBits ((0 : BitVec 2) ++ b1 line) pol.toBits off.isSome 0 :: (off.toList ++ extOf [a]))
      (wM 0x0A 0 a.toBits ((0 : BitVec 2) ++ b1 line) pol.toBits off.isSome 0) =
        some (_, (off.toList ++ extOf [a]).length + 1)
    simp [decM, takeOff_append, h.takeExt_off, h.ofBits]
  case cctl a op =>
    have h := literals_cctl hwf
    show decM (wA 0x0B 0 a.toBits 0 :: wMod ((0 : BitVec 4) ++ op.toBits) 0 :: extOf [a]) (wA 0x0B 0 a.toBits 0) =
      some (_, (extOf [a]).length + 1 + 1)
    simp [decM, modWord, h.takeExt_two, h.ofBits]
  case chcfg a b w ch =>
    have h := literals_of_wf hwf (l := [a, b]) rfl
    show decM (wA 0x0C 0 a.toBits b.toBits :: wMod ((0 : BitVec 1) ++ b1 w ++ ch) 0 :: extOf [a, b])
      (wA 0x0C 0 a.toBits b.toBits) = some (_, (extOf [a, b]).length + 1 + 1)
    simp [decM, modWord, h.takeExt_two, h.ofBits]
  case chstat d a =>
    show decM (encA1 _ d a) (wA _ d.toBits a.toBits 0) = some (_, (encA1 _ d a).length)
    rw [decM, opcode_wA]
    exact decA1_encA1 _ (literals_of_wf hwf rfl)
  all_goals cases hc

/-- A source in the last field of the only word beside its literal. -/
theorem decS_last {w : Word} (hw : fld w 0 9 = a.toBits) (f : Src → Instr) (h : Literals [a]) :
    decS (w :: extOf [a]) w f = some (f a, (extOf [a]).length + 1) := by
  simp [decS, hw, h.takeExt_one, h.ofBits]

theorem decDS_wDS (f : Dst → Src → Instr) (mid : BitVec 9) (h : Literals [a]) :
    decDS (wDS op d.toBits mid a.toBits :: extOf [a]) (wDS op d.toBits mid a.toBits) f =
      some (f d a, (extOf [a]).length + 1) := by
  simp [decDS, h.takeExt_one, h.ofBits]


theorem decC_encode (i : Instr) (hc : i.cls = some .C) (hwf : i.wf = true) :
    decC (encode i) ((encode i).headD 0) = some (i, i.words) := by
  cases i
  case nop | ret | rcvg | yield | brkpt | rte => rfl
  case bra p neg off =>
    show decC [(0x01 : BitVec 6) ++ p ++ b1 neg ++ off] ((0x01 : BitVec 6) ++ p ++ b1 neg ++ off) = some (_, 1)
    simp [decC]
  case call p neg off =>
    show decC [(0x03 : BitVec 6) ++ p ++ b1 neg ++ off] ((0x03 : BitVec 6) ++ p ++ b1 neg ++ off) = some (_, 1)
    simp [decC]
  case brx a | callx a =>
    show decC (wA _ 0 a.toBits 0 :: extOf [a]) (wA _ 0 a.toBits 0) = some (_, (extOf [a]).length + 1)
    rw [decC, opcode_wA]
    exact decA0_encA0 _ (literals_of_wf hwf rfl)
  case fork pd n off =>
    show decC [(0x06 : BitVec 6) ++ pd ++ n ++ (0 : BitVec 13), (0 : BitVec 13) ++ off]
      ((0x06 : BitVec 6) ++ pd ++ n ++ (0 : BitVec 13)) = some (_, 2)
    simp [decC]
  case endF succ =>
    rcases succ with _ | ⟨k, off⟩
    · rfl
    · show decC [(0x07 : BitVec 6) ++ (1 : BitVec 1) ++ k ++ off] ((0x07 : BitVec 6) ++ (1 : BitVec 1) ++ k ++ off) =
        some (_, 1)
      simp [decC]
  case spawn pd off =>
    show decC [(0x08 : BitVec 6) ++ pd ++ (0 : BitVec 1) ++ off] ((0x08 : BitVec 6) ++ pd ++ (0 : BitVec 1) ++ off) =
      some (_, 1)
    simp [decC]
  case bara b g c =>
    show decC (((0x0A : BitVec 6) ++ b ++ b1 g ++ (0 : BitVec 12) ++ c.toBits) :: extOf [c])
      ((0x0A : BitVec 6) ++ b ++ b1 g ++ (0 : BitVec 12) ++ c.toBits) = some (_, (extOf [c]).length + 1)
    simp [decC, decS_last, literals_of_wf hwf (l := [c]) rfl]
  case bar b g c =>
    show decC (((0x0C : BitVec 6) ++ b ++ b1 g ++ (0 : BitVec 12) ++ c.toBits) :: extOf [c])
      ((0x0C : BitVec 6) ++ b ++ b1 g ++ (0 : BitVec 12) ++ c.toBits) = some (_, (extOf [c]).length + 1)
    simp [decC, decS_last, literals_of_wf hwf (l := [c]) rfl]
  case barw b g =>
    show decC [(0x0B : BitVec 6) ++ b ++ b1 g ++ (0 : BitVec 21)] ((0x0B : BitVec 6) ++ b ++ b1 g ++ (0 : BitVec 21)) =
      some (_, 1)
    simp [decC]
  case cvset cv n =>
    show decC (((0x0D : BitVec 6) ++ cv ++ (0 : BitVec 13) ++ n.toBits) :: extOf [n])
      ((0x0D : BitVec 6) ++ cv ++ (0 : BitVec 13) ++ n.toBits) = some (_, (extOf [n]).length + 1)
    simp [decC, decS_last, literals_of_wf hwf (l := [n]) rfl]
  case sign cv =>
    show decC [(0x0E : BitVec 6) ++ cv ++ (0 : BitVec 22)] ((0x0E : BitVec 6) ++ cv ++ (0 : BitVec 22)) = some (_, 1)
    simp [decC]
  case trap code =>
    show decC [(0x10 : BitVec 6) ++ (0 : BitVec 10) ++ code] ((0x10 : BitVec 6) ++ (0 : BitVec 10) ++ code) =
      some (_, 1)
    simp [decC]
  case rdsys d n =>
    show decC [(0x13 : BitVec 6) ++ d.toBits ++ n ++ (0 : BitVec 6)]
      ((0x13 : BitVec 6) ++ d.toBits ++ n ++ (0 : BitVec 6)) = some (_, 1)
    simp [decC]
  case wrsys n a =>
    show decC (((0x14 : BitVec 6) ++ n ++ (0 : BitVec 5) ++ a.toBits) :: extOf [a])
      ((0x14 : BitVec 6) ++ n ++ (0 : BitVec 5) ++ a.toBits) = some (_, (extOf [a]).length + 1)
    simp [decC, decS_last, literals_of_wf hwf (l := [a]) rfl]
  case clk d =>
    show decC [wA 0x15 d.toBits 0 0] (wA 0x15 d.toBits 0 0) = some (_, 1)
    simp [decC]
  case mark d id =>
    show decC [(0x16 : BitVec 6) ++ d.toBits ++ (0 : BitVec 2) ++ id]
      ((0x16 : BitVec 6) ++ d.toBits ++ (0 : BitVec 2) ++ id) = some (_, 1)
    simp [decC]
  case cut d id off =>
    show decC [(0x17 : BitVec 6) ++ d.toBits ++ (0 : BitVec 2) ++ id, (0 : BitVec 13) ++ off]
      ((0x17 : BitVec 6) ++ d.toBits ++ (0 : BitVec 2) ++ id) = some (_, 2)
    simp [decC]
  case graft a =>
    show decC (wDS 0x18 0 0 a.toBits :: extOf [a]) (wDS 0x18 0 0 a.toBits) = some (_, (extOf [a]).length + 1)
    simp [decC, decS_last, literals_of_wf hwf (l := [a]) rfl]
  case sdrop d a =>
    show decC (wDS 0x19 d.toBits 0 a.toBits :: extOf [a]) (wDS 0x19 d.toBits 0 a.toBits) =
      some (_, (extOf [a]).length + 1)
    simp [decC, decDS_wDS, literals_of_wf hwf (l := [a]) rfl]
  case sdropHold d a =>
    show decC (wDS 0x19 d.toBits 0x100 a.toBits :: extOf [a]) (wDS 0x19 d.toBits 0x100 a.toBits) =
      some (_, (extOf [a]).length + 1)
    simp [decC, decDS_wDS, literals_of_wf hwf (l := [a]) rfl]
  case sinfo d a =>
    show decC (wDS 0x1A d.toBits 0 a.toBits :: extOf [a]) (wDS 0x1A d.toBits 0 a.toBits) =
      some (_, (extOf [a]).length + 1)
    simp [decC, decDS_wDS, literals_of_wf hwf (l := [a]) rfl]
  all_goals cases hc

theorem decG_encode (i : Instr) (hc : i.cls = some .G) (hwf : i.wf = true) :
    decG (encode i) ((encode i).headD 0) = some (i, i.words) := by
  cases i
  case rcommit | rabort => rfl
  case beat n =>
    show decG (wDS 0 0 0 n.toBits :: extOf [n]) (wDS 0 0 0 n.toBits) = some (_, (extOf [n]).length + 1)
    simp [decG, decS_last, literals_of_wf hwf (l := [n]) rfl]
  case rbegin pd f n =>
    show decG [(0x01 : BitVec 6) ++ pd ++ f ++ n ++ (0 : BitVec 7)]
      ((0x01 : BitVec 6) ++ pd ++ f ++ n ++ (0 : BitVec 7)) = some (_, 1)
    simp [decG]
  case event code a =>
    show decG (((0x04 : BitVec 6) ++ code ++ (0 : BitVec 1) ++ a.toBits) :: extOf [a])
      ((0x04 : BitVec 6) ++ code ++ (0 : BitVec 1) ++ a.toBits) = some (_, (extOf [a]).length + 1)
    simp [decG, decS_last, literals_of_wf hwf (l := [a]) rfl]
  all_goals cases hc

end Sys2Proof
end

section
/-!
SUPPORT. The instructions of class X read back, and operands that may be absent (O2).
-/

namespace Sys2Proof

open Sys2Proof.Machine

variable {op : BitVec 6}

/-- Sources of which the last stands in use only when `on`, and is v0 otherwise. -/
theorem literals_of_wf_opt {i : Instr} (hwf : i.wf = true) {on : Bool} {l : List Src} {o : Src} {k : Opd}
    (hsrc : (shape i).srcs.map Opd.src = l ++ (if on then [k] else []).map Opd.src) (hk : k.src = o)
    (hoff : on = false → o = .v 0) : Literals (l ++ [o]) := by
  cases on with
  | false =>
    rw [hoff rfl]
    exact (literals_of_wf hwf (hsrc.trans (List.append_nil l))).append_unused 1
  | true => exact literals_of_wf hwf (hsrc.trans (by simp [hk]))

/-- Without a handle, `MMA` holds v0 in its origin (R299). -/
theorem literals_mma {at_ : BitVec 6} {cv : SignCv} {z ha hb : Bool} {a b o : Src} {tha thb : BitVec 5}
    (hwf : (Instr.mma at_ cv z ha hb a b o tha thb).wf = true) : Literals [a, b, o] := by
  obtain ⟨-, -, -, hmx, -⟩ := (wf_iff _).mp hwf
  refine literals_of_wf_opt hwf (l := [a, b]) (on := ha || hb) (k := t64 o) List.map_append rfl fun hon => ?_
  change ((ha || tha == 0) && (hb || thb == 0) && (ha || hb || o == .v 0)) = true at hmx
  rw [Bool.and_eq_true, hon] at hmx
  simpa using hmx.2

theorem literals_mmac {at_ : BitVec 6} {cv : SignCv} {z hb : Bool} {b o : Src} {as_ : BitVec 6} {sh thb : BitVec 5}
    (hwf : (Instr.mmac at_ cv z hb b as_ sh thb o).wf = true) : Literals [b, o] := by
  obtain ⟨-, -, -, hmx, -⟩ := (wf_iff _).mp hwf
  refine literals_of_wf_opt hwf (l := [b]) (on := hb) (k := t64 o) List.map_append rfl fun hon => ?_
  change (hb || (thb == 0 && o == .v 0)) = true at hmx
  simp only [hon, Bool.false_or, Bool.and_eq_true, beq_iff_eq] at hmx
  exact hmx.2

/-- Without additions, `MSTORE` holds v0 in its address (R303). -/
theorem literals_mstore {at_ : BitVec 6} {cv : SignCv} {t : Bool} {n1 sh : BitVec 5} {a addr : Src} {conv : MxConv}
    {am : Option Scope} (hwf : (Instr.mstore at_ cv t n1 a conv am sh addr).wf = true) : Literals [a, addr] := by
  obtain ⟨-, -, -, hmx, -⟩ := (wf_iff _).mp hwf
  refine literals_of_wf_opt hwf (l := [a]) (on := am.isSome) (k := t64 addr) List.map_append rfl fun hon => ?_
  change ((am.isSome || addr == .v 0) && !(am.isSome && (conv == .raw || conv == .raw64)) &&
    (sh == 0 || conv == .i8 || conv == .i16)) = true at hmx
  simp only [hon, Bool.false_or, Bool.and_eq_true, beq_iff_eq] at hmx
  exact hmx.1.1

theorem opcode_wX (at_ : BitVec 6) (cv : SignCv) (mid : BitVec 6) (s : BitVec 9) :
    fld (wX op at_ cv mid s) 26 6 = op := by
  simp

theorem decX_encode (i : Instr) (hc : i.cls = some .X) (hwf : i.wf = true) :
    decX (encode i) ((encode i).headD 0) = some (i, i.words) := by
  cases i
  case mfence => rfl
  case mzero at_ cv n1 =>
    show decX [wX 0x00 at_ cv n1 0] (wX 0x00 at_ cv n1 0) = some (_, 1)
    rw [decX, opcode_wX]
    simp
  case mma at_ cv z ha hb a b o tha thb =>
    have h := literals_mma hwf
    show decX (wX 0x01 at_ cv (b1 z ++ b1 ha ++ b1 hb ++ (0 : BitVec 3)) a.toBits ::
      (tha ++ thb ++ (0 : BitVec 4) ++ b.toBits ++ o.toBits) :: extOf [a, b, o])
      (wX 0x01 at_ cv (b1 z ++ b1 ha ++ b1 hb ++ (0 : BitVec 3)) a.toBits) = some (_, (extOf [a, b, o]).length + 1 + 1)
    rw [decX, opcode_wX]
    simp [h.takeExt_two, h.ofBits]
  case mmac at_ cv z hb b as_ sh thb o =>
    have h := literals_mmac hwf
    show decX (wX 0x02 at_ cv (b1 z ++ (0 : BitVec 1) ++ b1 hb ++ (0 : BitVec 3)) b.toBits ::
      (as_ ++ sh ++ thb ++ (0 : BitVec 7) ++ o.toBits) :: extOf [b, o])
      (wX 0x02 at_ cv (b1 z ++ (0 : BitVec 1) ++ b1 hb ++ (0 : BitVec 3)) b.toBits) =
        some (_, (extOf [b, o]).length + 1 + 1)
    rw [decX, opcode_wX]
    simp [h.takeExt_two, h.ofBits]
  case mload at_ cv t n1 a =>
    show decX (wX 0x03 at_ cv (b1 t ++ n1) a.toBits :: extOf [a]) (wX 0x03 at_ cv (b1 t ++ n1) a.toBits) =
      some (_, (extOf [a]).length + 1)
    rw [decX, opcode_wX]
    simp [decS_last, literals_of_wf hwf (l := [a]) rfl]
  case mstore at_ cv t n1 a conv am sh addr =>
    have h := literals_mstore hwf
    show decX (wX 0x04 at_ cv (b1 t ++ n1) a.toBits ::
      (conv.toBits ++ b1 am.isSome ++ (am.elim 0 Scope.toBits : BitVec 3) ++ sh ++ (0 : BitVec 11) ++ addr.toBits) ::
        extOf [a, addr]) (wX 0x04 at_ cv (b1 t ++ n1) a.toBits) = some (_, (extOf [a, addr]).length + 1 + 1)
    rw [decX, opcode_wX]
    cases am <;> simp [h.takeExt_two, h.ofBits]
  case mgather at_ cv z a b l =>
    have h := literals_of_wf hwf (l := [a, b, l]) rfl
    show decX (wX 0x05 at_ cv (b1 z ++ (0 : BitVec 5)) a.toBits :: ((0 : BitVec 14) ++ b.toBits ++ l.toBits) ::
      extOf [a, b, l]) (wX 0x05 at_ cv (b1 z ++ (0 : BitVec 5)) a.toBits) = some (_, (extOf [a, b, l]).length + 1 + 1)
    rw [decX, opcode_wX]
    simp [h.takeExt_two, h.ofBits]
  case mshape mt nt fa fb acc sa sb q k =>
    show decX [(0x06 : BitVec 6) ++ mt ++ nt ++ fa.toBits ++ fb.toBits ++ acc.toBits ++ b1 sa ++ b1 sb ++ b1 q ++
        (0 : BitVec 7), (0 : BitVec 16) ++ k]
      ((0x06 : BitVec 6) ++ mt ++ nt ++ fa.toBits ++ fb.toBits ++ acc.toBits ++ b1 sa ++ b1 sb ++ b1 q ++
        (0 : BitVec 7)) = some (_, 2)
    simp [decX]
  case benq pd row res =>
    have h := literals_of_wf hwf (l := [row, res]) rfl
    show decX (wP 0x07 pd 0 row.toBits res.toBits :: extOf [row, res]) (wP 0x07 pd 0 row.toBits res.toBits) =
      some (_, (extOf [row, res]).length + 1)
    rw [decX, opcode_wP]
    simp [h.takeExt_one, h.ofBits]
  case mreset a =>
    show decX (wDS 0x09 0 0 a.toBits :: extOf [a]) (wDS 0x09 0 0 a.toBits) = some (_, (extOf [a]).length + 1)
    simp [decX, decS_last, literals_of_wf hwf (l := [a]) rfl]
  all_goals cases hc

/-- The field of an operand that may be absent (R48). -/
abbrev optBits (o : Option Src) : BitVec 9 := o.elim 0 Src.toBits

/-- A list of operands that may be absent announces an extension word as those present do. -/
theorem announce_optBits {l : List (Option Src)} (h : Literals (l.filterMap id)) :
    (l.map optBits).any (· == extCode) = (l.filterMap id).any Src.isExt := by
  rw [← h.announce]
  clear h
  induction l with
  | nil => rfl
  | cons o l ih =>
    cases o with
    | none => exact ih
    | some a => exact congrArg (a.toBits == extCode || ·) ih

theorem optSrc_optBits {l : List Src} (h : Literals l) {o : Option Src} (ho : ∀ a, o = some a → a ∈ l) :
    optSrc o.isSome (optBits o) (extWord l) = some o := by
  cases o with
  | none => rfl
  | some a => simp [optSrc, optBits, h.ofBits (ho a rfl)]

end Sys2Proof
end

section
/-!
The instructions of class K read back, and the statement (O2).
-/

namespace Sys2Proof

open Sys2Proof.Machine

variable {op : BitVec 6}

/-- The extension word of operands that may be absent. -/
theorem takeExt_optional (pre : List Word) {l : List (Option Src)} {fs : List (BitVec 9)}
    (h : Literals (l.filterMap id)) (hf : fs = l.map optBits) :
    takeExt (pre ++ extOf (l.filterMap id)) pre.length fs =
      some (extWord (l.filterMap id), (pre ++ extOf (l.filterMap id)).length) :=
  takeExt_append pre (hf ▸ announce_optBits h)

/-- The operands of `CPYI` and `CPYM` (R270, R274). -/
abbrev copyOpds (off o : Src) (st : Option Src) (sg : Option (BitVec 3 × Src)) : List (Option Src) :=
  [some off, some o, st, sg.map (·.2)]

theorem copyOpds_eq (off o : Src) (st : Option Src) (sg : Option (BitVec 3 × Src)) :
    [off, o] ++ st.toList ++ sg.toList.map (·.2) = (copyOpds off o st sg).filterMap id := by
  cases st <;> cases sg <;> rfl

/-- A copy whose parts are read is read. -/
theorem decCopy_of {ws : List Word} {w m e : Word} {k n : Nat} {a b : Src} {st sg : Option Src}
    (f : BitVec 5 → Bool → Bool → Src → Src → Option Src → Option (BitVec 3 × Src) → Instr)
    (hm : ws[1]? = some m)
    (hext : takeExt ws k [fld w 0 9, fld m 18 9, fld m 9 9, fld m 0 9] = some (e, n))
    (ha : Src.ofBits (fld w 0 9) e = some a) (hb : Src.ofBits (fld m 18 9) e = some b)
    (hst : optSrc (bit w 18) (fld m 9 9) e = some st) (hsg : optSrc (bit w 17) (fld m 0 9) e = some sg)
    (hzero : (zeroFld w 9 5 && zeroFld m 27 5 && (bit w 17 || fld w 14 3 == 0)) = true) :
    decCopy ws w k f =
      some (f (fld w 21 5) (bit w 20) (bit w 19) a b st (sg.map fun x => (fld w 14 3, x)), n) := by
  simp only [decCopy, hm, hext, ha, hb, hst, hsg, hzero, Option.bind_eq_bind, Option.bind_some, if_true]

/-- The two words that `CPYI` and `CPYM` share (R270, R274), by their fields. -/
abbrev copyWord (op : BitVec 6) (th : BitVec 5) (x y st sg : Bool) (n : BitVec 3) (off : BitVec 9) : Word :=
  op ++ th ++ b1 x ++ b1 y ++ b1 st ++ b1 sg ++ n ++ (0 : BitVec 5) ++ off
abbrev copyRest (o st sg : BitVec 9) : Word := (0 : BitVec 5) ++ o ++ st ++ sg

/-- The stage number of a copy's first word; 0 without a stage. -/
abbrev stageBits (sg : Option (BitVec 3 × Src)) : BitVec 3 := sg.elim 0 (·.1)

theorem encCopy_eq (op : BitVec 6) (th : BitVec 5) (x y : Bool) (off o : Src) (st : Option Src)
    (sg : Option (BitVec 3 × Src)) : encCopy op th x y off o st sg =
      [copyWord op th x y st.isSome sg.isSome (stageBits sg) off.toBits,
        copyRest o.toBits (optBits st) (optBits (sg.map (·.2)))] := by
  cases sg <;> rfl

theorem opcode_copyWord (th : BitVec 5) (x y st sg : Bool) (n : BitVec 3) (off : BitVec 9) :
    fld (copyWord op th x y st sg n off) 26 6 = op := by
  simp

theorem decCopy_copyWord {th : BitVec 5} {x y : Bool} {off o : Src} {st : Option Src} {sg : Option (BitVec 3 × Src)}
    (pre : List Word) (h : Literals ((copyOpds off o st sg).filterMap id))
    (f : BitVec 5 → Bool → Bool → Src → Src → Option Src → Option (BitVec 3 × Src) → Instr) :
    let w := copyWord op th x y st.isSome sg.isSome (stageBits sg) off.toBits
    let m := copyRest o.toBits (optBits st) (optBits (sg.map (·.2)))
    let ext := extOf ((copyOpds off o st sg).filterMap id)
    decCopy (w :: m :: pre ++ ext) w (pre.length + 2) f =
      some (f th x y off o st sg, (w :: m :: pre ++ ext).length) := by
  intro w m ext
  have hext : takeExt (w :: m :: pre ++ ext) (pre.length + 2)
      [off.toBits, o.toBits, optBits st, optBits (sg.map (·.2))] =
        some (extWord ((copyOpds off o st sg).filterMap id), (w :: m :: pre ++ ext).length) :=
    takeExt_optional (w :: m :: pre) h rfl
  have hst := optSrc_optBits h (o := st) (fun a ha => by simp [ha])
  have hsg := optSrc_optBits h (o := sg.map (·.2)) (fun a ha => by simp [ha])
  rw [Option.isSome_map] at hsg
  have hstage : (sg.isSome || stageBits sg == 0) = true := by cases sg <;> rfl
  have hmap : (sg.map (·.2)).map (fun a => (stageBits sg, a)) = sg := by cases sg <;> rfl
  refine (decCopy_of f (m := m) rfl (by simpa [w, m] using hext) (by simpa [w] using h.ofBits (a := off) (by simp))
    (by simpa [m] using h.ofBits (a := o) (by simp)) (by simpa [w, m] using hst) (by simpa [w, m] using hsg)
    (by simpa [w, m] using hstage)).trans ?_
  simp [w, hmap]

/-- The operands of `CPYO` (R272). -/
abbrev outOpds (off o : Src) (st : Option Src) (sr : Option (Src × Src)) (am : Option (Scope × Src)) :
    List (Option Src) :=
  [some off, some o, st, sr.map (·.1), am.map (·.2), sr.map (·.2)]

theorem outOpds_eq (off o : Src) (st : Option Src) (sr : Option (Src × Src)) (am : Option (Scope × Src)) :
    [off, o] ++ st.toList ++ sr.toList.map (·.1) ++ am.toList.map (·.2) ++ sr.toList.map (·.2) =
      (outOpds off o st sr am).filterMap id := by
  cases st <;> cases sr <;> cases am <;> rfl

/-- A copy out of scratchpad whose parts are read is read. -/
theorem decK_of_out {ws : List Word} {w m q e : Word} {n : Nat} {a b : Src} {st : Option Src}
    {sr : Option (Src × Src)} {am : Option (Scope × Src)} (hop : fld w 26 6 = 2) (hm : ws[1]? = some m)
    (hq : ws[2]? = some q)
    (hext : takeExt ws 3 [fld w 0 9, fld m 18 9, fld m 9 9, fld m 0 9, fld q 9 9, fld q 0 9] = some (e, n))
    (ha : Src.ofBits (fld w 0 9) e = some a) (hb : Src.ofBits (fld m 18 9) e = some b)
    (hst : optSrc (bit w 18) (fld m 9 9) e = some st)
    (hseed : optSrc (bit w 20) (fld m 0 9) e = some (sr.map (·.1)))
    (hstream : optSrc (bit w 20) (fld q 0 9) e = some (sr.map (·.2)))
    (hadd : optSrc (bit w 17) (fld q 9 9) e = some (am.map (·.2)))
    (hscope : fld w 14 3 = am.elim 0 (fun x => x.1.toBits))
    (hzero : (zeroFld w 9 4 && zeroFld m 27 5 && zeroFld q 18 14) = true) :
    decK ws w = some (.cpyo (fld w 21 5) (bit w 19) (bit w 13) a b st sr am, n) := by
  rw [decK, hop]
  simp only [BitVec.reduceToNat, hm, hq, hext, ha, hb, hst, hseed, hstream, hadd, hscope, hzero, Option.bind_eq_bind,
    Option.bind_some, if_true]
  cases sr <;> cases am <;> simp

theorem decK_encode_cpyo {th : BitVec 5} {bulk tf : Bool} {off o : Src} {st : Option Src} {sr : Option (Src × Src)}
    {am : Option (Scope × Src)} (h : Literals ((outOpds off o st sr am).filterMap id)) :
    let w : Word := (0x02 : BitVec 6) ++ th ++ b1 sr.isSome ++ b1 bulk ++ b1 st.isSome ++ b1 am.isSome ++
      (am.elim 0 (fun x => x.1.toBits) : BitVec 3) ++ b1 tf ++ (0 : BitVec 4) ++ off.toBits
    let m := copyRest o.toBits (optBits st) (optBits (sr.map (·.1)))
    let q : Word := (0 : BitVec 14) ++ optBits (am.map (·.2)) ++ optBits (sr.map (·.2))
    let ext := extOf ((outOpds off o st sr am).filterMap id)
    decK (w :: m :: q :: ext) w = some (.cpyo th bulk tf off o st sr am, ext.length + 3) := by
  intro w m q ext
  have hext : takeExt (w :: m :: q :: ext) 3 [off.toBits, o.toBits, optBits st, optBits (sr.map (·.1)),
      optBits (am.map (·.2)), optBits (sr.map (·.2))] =
        some (extWord ((outOpds off o st sr am).filterMap id), ext.length + 3) :=
    takeExt_optional [w, m, q] h rfl
  have hst := optSrc_optBits h (o := st) (fun a ha => by simp [ha])
  have hseed := optSrc_optBits h (o := sr.map (·.1)) (fun a ha => by simp [ha])
  have hstream := optSrc_optBits h (o := sr.map (·.2)) (fun a ha => by simp [ha])
  have hadd := optSrc_optBits h (o := am.map (·.2)) (fun a ha => by simp [ha])
  rw [Option.isSome_map] at hseed hstream hadd
  refine (decK_of_out (m := m) (q := q) (sr := sr) (am := am) (by simp [w]) rfl rfl (by simpa [w, m, q] using hext)
    (by simpa [w] using h.ofBits (a := off) (by simp)) (by simpa [m] using h.ofBits (a := o) (by simp))
    (by simpa [w, m] using hst) (by simpa [w, m] using hseed) (by simpa [w, q] using hstream)
    (by simpa [w, q] using hadd) (by simp [w]) (by simp [w, m, q])).trans ?_
  simp [w]

/-- Beside its stage, the fields of `STGR` hold 0. -/
theorem stgr_zeros (n : BitVec 3) : ((1536#14 ++ (0#1 ++ n ++ 0#5) : BitVec 23)).extractLsb' 8 9 = 0#9 := by
  revert n
  decide

theorem decK_encode (i : Instr) (hc : i.cls = some .K) (hwf : i.wf = true) :
    decK (encode i) ((encode i).headD 0) = some (i, i.words) := by
  cases i
  case lfree => rfl
  case thdl th q =>
    show decK (((0x00 : BitVec 6) ++ th ++ (0 : BitVec 12) ++ q.toBits) :: extOf [q])
      ((0x00 : BitVec 6) ++ th ++ (0 : BitVec 12) ++ q.toBits) = some (_, (extOf [q]).length + 1)
    simp [decK, decS_last, literals_of_wf hwf (l := [q]) rfl]
  case cpyi th pl b off o st sg =>
    have hsrc : (shape (.cpyi th pl b off o st sg)).srcs.map Opd.src = (copyOpds off o st sg).filterMap id := by
      cases st <;> cases sg <;> rfl
    have hdec := decCopy_copyWord (op := 0x01) (th := th) (x := pl) (y := b) [] (literals_of_wf hwf hsrc) .cpyi
    show decK (encCopy 0x01 th pl b off o st sg ++ extOf ([off, o] ++ st.toList ++ sg.toList.map (·.2)))
      ((encCopy 0x01 th pl b off o st sg ++ extOf ([off, o] ++ st.toList ++ sg.toList.map (·.2))).headD 0) =
        some (_, (encCopy 0x01 th pl b off o st sg ++ extOf ([off, o] ++ st.toList ++ sg.toList.map (·.2))).length)
    rw [copyOpds_eq, encCopy_eq]
    show decK (copyWord 0x01 th pl b st.isSome sg.isSome (stageBits sg) off.toBits :: _ :: extOf _)
      (copyWord 0x01 th pl b st.isSome sg.isSome (stageBits sg) off.toBits) = _
    rw [decK, opcode_copyWord]
    exact hdec
  case cpym th pl qd off o st sg mask =>
    have hsrc : (shape (.cpym th pl qd off o st sg mask)).srcs.map Opd.src = (copyOpds off o st sg).filterMap id := by
      cases st <;> cases sg <;> rfl
    have hdec := decCopy_copyWord (op := 0x03) (th := th) (x := pl) (y := qd) [(0 : BitVec 24) ++ mask]
      (literals_of_wf hwf hsrc) fun th pl qd a b st sg => .cpym th pl qd a b st sg mask
    show decK (encCopy 0x03 th pl qd off o st sg ++ [(0 : BitVec 24) ++ mask] ++
        extOf ([off, o] ++ st.toList ++ sg.toList.map (·.2)))
      ((encCopy 0x03 th pl qd off o st sg ++ [(0 : BitVec 24) ++ mask] ++
        extOf ([off, o] ++ st.toList ++ sg.toList.map (·.2))).headD 0) =
        some (_, (encCopy 0x03 th pl qd off o st sg ++ [(0 : BitVec 24) ++ mask] ++
          extOf ([off, o] ++ st.toList ++ sg.toList.map (·.2))).length)
    rw [copyOpds_eq, encCopy_eq]
    show decK (copyWord 0x03 th pl qd st.isSome sg.isSome (stageBits sg) off.toBits :: _ :: _ :: extOf _)
      (copyWord 0x03 th pl qd st.isSome sg.isSome (stageBits sg) off.toBits) = _
    rw [decK, opcode_copyWord]
    simpa using hdec
  case cpyo th b tf off o st sr am =>
    have hsrc : (shape (.cpyo th b tf off o st sr am)).srcs.map Opd.src = (outOpds off o st sr am).filterMap id := by
      cases st <;> cases sr <;> cases am <;> rfl
    have hdec := decK_encode_cpyo (th := th) (bulk := b) (tf := tf) (literals_of_wf hwf hsrc)
    have henc : encode (.cpyo th b tf off o st sr am) = _ := congrArg (_ ++ extOf ·) (outOpds_eq off o st sr am)
    rw [Instr.words, henc]
    cases sr <;> cases am <;> exact hdec
  case stgpWait d n s =>
    show decK (wDS 0x04 d.toBits ((0 : BitVec 1) ++ n ++ (0 : BitVec 5)) s.toBits :: extOf [s])
      (wDS 0x04 d.toBits ((0 : BitVec 1) ++ n ++ (0 : BitVec 5)) s.toBits) = some (_, (extOf [s]).length + 1)
    simp [decK, decDS_wDS, literals_of_wf hwf (l := [s]) rfl]
  case stgpFill n s =>
    show decK (wDS 0x04 0 ((1 : BitVec 1) ++ n ++ (0 : BitVec 5)) s.toBits :: extOf [s])
      (wDS 0x04 0 ((1 : BitVec 1) ++ n ++ (0 : BitVec 5)) s.toBits) = some (_, (extOf [s]).length + 1)
    simp [decK, decS_last, literals_of_wf hwf (l := [s]) rfl]
  case stgc d n s =>
    show decK (wDS 0x05 d.toBits ((0 : BitVec 1) ++ n ++ (0 : BitVec 5)) s.toBits :: extOf [s])
      (wDS 0x05 d.toBits ((0 : BitVec 1) ++ n ++ (0 : BitVec 5)) s.toBits) = some (_, (extOf [s]).length + 1)
    simp [decK, decDS_wDS, literals_of_wf hwf (l := [s]) rfl]
  case stgr n s =>
    show decK (wDS 0x06 0 ((0 : BitVec 1) ++ n ++ (0 : BitVec 5)) s.toBits :: extOf [s])
      (wDS 0x06 0 ((0 : BitVec 1) ++ n ++ (0 : BitVec 5)) s.toBits) = some (_, (extOf [s]).length + 1)
    simpa [decK, decS_last, literals_of_wf hwf (l := [s]) rfl] using stgr_zeros n
  case lease pd p =>
    show decK (((0x07 : BitVec 6) ++ pd ++ (0 : BitVec 11) ++ p.toBits) :: extOf [p])
      ((0x07 : BitVec 6) ++ pd ++ (0 : BitVec 11) ++ p.toBits) = some (_, (extOf [p]).length + 1)
    simp [decK, decS_last, literals_of_wf hwf (l := [p]) rfl]
  case launch d a b | gdec d a b =>
    show decK (encA2 _ d a b) (wA _ d.toBits a.toBits b.toBits) = some (_, (encA2 _ d a b).length)
    rw [decK, opcode_wA]
    exact decA2_encA2 _ (literals_of_wf hwf rfl)
  case gcond a b =>
    have h := literals_of_wf hwf (l := [a, b]) rfl
    show decK (wA 0x0B 0 a.toBits b.toBits :: extOf [a, b]) (wA 0x0B 0 a.toBits b.toBits) =
      some (_, (extOf [a, b]).length + 1)
    rw [decK, opcode_wA]
    simp [h.takeExt_one, h.ofBits]
  all_goals cases hc

/-- Under each class, only a word with one of its opcodes is read (R53). -/
theorem opcode_of_decI {ws : List Word} {w : Word} {r : Instr × Nat} (h : decI ws w = some r) :
    (fld w 26 6).toNat < opcodes .I := by
  rw [decI] at h
  split at h
  case h_47 => cases h
  all_goals simp only [opcodes]; omega
theorem opcode_of_decF {ws : List Word} {w : Word} {r : Instr × Nat} (h : decF ws w = some r) :
    (fld w 26 6).toNat < opcodes .F := by
  rw [decF] at h
  split at h
  case h_33 => cases h
  all_goals simp only [opcodes]; omega
theorem opcode_of_decM {ws : List Word} {w : Word} {r : Instr × Nat} (h : decM ws w = some r) :
    (fld w 26 6).toNat < opcodes .M := by
  rw [decM] at h
  split at h
  case h_15 => cases h
  all_goals simp only [opcodes]; omega
theorem opcode_of_decC {ws : List Word} {w : Word} {r : Instr × Nat} (h : decC ws w = some r) :
    (fld w 26 6).toNat < opcodes .C := by
  rw [decC] at h
  split at h
  case h_28 => cases h
  all_goals simp only [opcodes]; omega
theorem opcode_of_decX {ws : List Word} {w : Word} {r : Instr × Nat} (h : decX ws w = some r) :
    (fld w 26 6).toNat < opcodes .X := by
  rw [decX] at h
  split at h
  case h_11 => cases h
  all_goals simp only [opcodes]; omega
theorem opcode_of_decK {ws : List Word} {w : Word} {r : Instr × Nat} (h : decK ws w = some r) :
    (fld w 26 6).toNat < opcodes .K := by
  rw [decK] at h
  split at h
  case h_13 => cases h
  all_goals simp only [opcodes]; omega
theorem opcode_of_decG {ws : List Word} {w : Word} {r : Instr × Nat} (h : decG ws w = some r) :
    (fld w 26 6).toNat < opcodes .G := by
  rw [decG] at h
  split at h
  case h_6 => cases h
  all_goals simp only [opcodes]; omega

/-- The reader of a class's words. -/
def decOf : Class → List Word → Word → Dec
  | .I => decI | .F => decF | .M => decM | .C => decC | .X => decX | .K => decK | .G => decG

theorem decode_cons (c : Class) (w : Word) (ws : List Word) :
    decode c (w :: ws) = if opcodes c ≤ (fld w 26 6).toNat then .error .illegalOpcode
      else match decOf c (w :: ws) w with
        | none => .error .illegalEncoding
        | some (i, n) => if i.wf then .ok (i, n) else .error .illegalEncoding := by
  cases c <;> rfl

theorem opcode_of_decOf {c : Class} {ws : List Word} {w : Word} {r : Instr × Nat} (h : decOf c ws w = some r) :
    (fld w 26 6).toNat < opcodes c := by
  cases c with
  | I => exact opcode_of_decI h
  | F => exact opcode_of_decF h
  | M => exact opcode_of_decM h
  | C => exact opcode_of_decC h
  | X => exact opcode_of_decX h
  | K => exact opcode_of_decK h
  | G => exact opcode_of_decG h

theorem decOf_encode {i : Instr} {c : Class} (hc : i.cls = some c) (hwf : i.wf = true) :
    decOf c (encode i) ((encode i).headD 0) = some (i, i.words) := by
  cases c with
  | I => exact decI_encode i hc hwf
  | F => exact decF_encode i hc hwf
  | M => exact decM_encode i hc hwf
  | C => exact decC_encode i hc hwf
  | X => exact decX_encode i hc hwf
  | K => exact decK_encode i hc hwf
  | G => exact decG_encode i hc hwf

/-- Only a step of the machine has no words. -/
theorem cls_of_encode_nil {i : Instr} (hnil : encode i = []) : i.cls = none := by
  cases i
  case endF succ => cases succ <;> cases hnil
  all_goals cases hnil <;> rfl

theorem encode_ne_nil {i : Instr} {c : Class} (hc : i.cls = some c) : encode i ≠ [] := fun hnil =>
  absurd (hc.symm.trans (cls_of_encode_nil hnil)) (Option.some_ne_none c)

/-- Settles O2: a class reads the words of its instructions back, and rejects no well-formed one. -/
theorem decodeOfEncode : Obligations.DecodeOfEncode := by
  intro i c hc hwf
  have hdec := decOf_encode hc hwf
  obtain ⟨w, ws, henc⟩ := List.exists_cons_of_ne_nil (encode_ne_nil hc)
  rw [henc, List.headD_cons] at hdec
  rw [henc, decode_cons, if_neg (Nat.not_le.mpr (opcode_of_decOf hdec)), hdec]
  exact if_pos hwf

end Sys2Proof
end

section
/-!
SUPPORT. What memory reads after it is written, little-endian numbers, entries of keyed lists, and the tables of the
state after the rewriting of one entry.
-/

namespace Sys2Proof.Machine

open Sys2Proof

/-! ### Memory (log 3) -/

/-- Below its first address a canonical memory reads 0. -/
theorem Mem.get_of_lt {lo a : Nat} (h : a < lo) : ∀ {m : List Host.Cell}, Mem.wfFrom lo m → Mem.get m a = 0
  | [], _ => rfl
  | (b, x) :: r, hm => by
    simp only [Mem.wfFrom, Bool.and_eq_true, decide_eq_true_eq] at hm
    rw [Mem.get, if_neg (by omega), if_pos (by omega)]

/-- In a canonical memory the first entry of an address is the only one. -/
theorem Mem.get_cons {lo c b : Nat} {x : Byte} {r : List Host.Cell} (h : Mem.wfFrom lo ((c, x) :: r)) :
    Mem.get ((c, x) :: r) b = if b = c then x else Mem.get r b := by
  simp only [Mem.wfFrom, Bool.and_eq_true, decide_eq_true_eq] at h
  have hbelow : b < c → Mem.get r b = 0 := fun hb => Mem.get_of_lt (by omega) h.2
  rw [Mem.get]
  rcases lt_trichotomy b c with hb | hb | hb
  · rw [if_neg (by omega), if_pos hb, if_neg (by omega), hbelow hb]
  · rw [if_pos hb.symm, if_pos hb]
  · rw [if_neg (by omega), if_neg (by omega), if_neg (by omega)]

theorem Mem.get_set_from {lo a : Nat} {v : Byte} (b : Nat) :
    ∀ {m : List Host.Cell}, Mem.wfFrom lo m → Mem.get (Mem.set m a v) b = if b = a then v else Mem.get m b
  | [], _ => by
    rw [Mem.set]
    by_cases hv : v = 0
    · rw [if_pos hv, hv]
      exact (ite_self 0).symm
    · rw [if_neg hv]
      exact Mem.get_cons (lo := a) (by simpa [Mem.wfFrom] using hv)
  | (c, x) :: r, hm => by
    have hset : Mem.wfFrom (min lo a) (Mem.set ((c, x) :: r) a v) :=
      Mem.set_wfFrom (by omega) (Mem.wfFrom_mono (by omega) hm)
    have hr : Mem.wfFrom (c + 1) r := (Bool.and_eq_true _ _ ▸ hm : _ ∧ _).2
    rw [Mem.get_cons hm]
    rcases lt_trichotomy a c with hac | rfl | hac
    · rw [Mem.set, if_neg (by omega), if_pos hac] at hset ⊢
      by_cases hv : v = 0
      · have hzero : Mem.get r a = 0 := Mem.get_of_lt (by omega) hr
        rw [if_pos hv, Mem.get_cons hm]
        by_cases hb : b = a <;> simp [hb, hv, hzero, hac.ne]
      · rw [if_neg hv] at hset ⊢
        rw [Mem.get_cons hset, Mem.get_cons hm]
    · rw [Mem.set, if_pos rfl] at hset ⊢
      by_cases hv : v = 0
      · have hzero : Mem.get r a = 0 := Mem.get_of_lt (by omega) hr
        rw [if_pos hv]
        by_cases hb : b = a <;> simp [hb, hv, hzero]
      · rw [if_neg hv] at hset ⊢
        rw [Mem.get_cons hset]
        split_ifs <;> rfl
    · rw [Mem.set, if_neg (by omega), if_neg (by omega)] at hset ⊢
      rw [Mem.get_cons hset, Mem.get_set_from b hr]
      by_cases hb : b = c
      · rw [if_pos hb, if_neg (by omega), if_pos hb]
      · rw [if_neg hb, if_neg hb]

/-- What an address reads after a byte is written. -/
theorem Mem.get_set {m : List Host.Cell} (h : Mem.wf m) (a b : Nat) (v : Byte) :
    Mem.get (Mem.set m a v) b = if b = a then v else Mem.get m b :=
  Mem.get_set_from b h

/-- What an address reads after bytes are written. -/
theorem Mem.get_write {m : List Host.Cell} (h : Mem.wf m) (a b : Nat) (l : List Byte) :
    Mem.get (Mem.write m a l) b = if a ≤ b ∧ b < a + l.length then l.getD (b - a) 0 else Mem.get m b := by
  induction l generalizing m a with
  | nil => rw [Mem.write, if_neg (by simp only [List.length_nil]; omega)]
  | cons v r ih =>
    rw [Mem.write, ih (Mem.set_wf a v h), Mem.get_set h, List.length_cons]
    by_cases hb : b = a
    · subst hb
      rw [if_neg (by omega), if_pos rfl, if_pos (by omega), Nat.sub_self, List.getD_cons_zero]
    · rw [if_neg hb]
      by_cases hin : a + 1 ≤ b ∧ b < a + 1 + r.length
      · rw [if_pos hin, if_pos (by omega), show b - a = b - (a + 1) + 1 by omega, List.getD_cons_succ]
      · rw [if_neg hin, if_neg (by omega)]

theorem Mem.read_length (m : List Host.Cell) (a n : Nat) : (Mem.read m a n).length = n := by
  induction n generalizing a with
  | zero => rfl
  | succ n ih => rw [Mem.read, List.length_cons, ih]

theorem Mem.read_getElem (m : List Host.Cell) (a n k : Nat) (h : k < (Mem.read m a n).length) :
    (Mem.read m a n)[k] = Mem.get m (a + k) := by
  induction n generalizing a k with
  | zero => simp [Mem.read] at h
  | succ n ih =>
    cases k with
    | zero => rfl
    | succ k => exact (ih (a + 1) k (by simpa [Mem.read] using h)).trans (congrArg _ (by omega))

/-- A range that was just written reads what was written. -/
theorem Mem.read_write_same {m : List Host.Cell} (h : Mem.wf m) (a : Nat) (l : List Byte) :
    Mem.read (Mem.write m a l) a l.length = l := by
  refine List.ext_getElem (Mem.read_length _ _ _) fun k hk hl => ?_
  rw [Mem.read_getElem, Mem.get_write h, if_pos (by omega), Nat.add_sub_cancel_left, List.getD_eq_getElem _ _ hl]

/-- A range apart from the one that was written reads what it did. -/
theorem Mem.read_write_apart {m : List Host.Cell} (h : Mem.wf m) (a b n : Nat) (l : List Byte)
    (hd : b + n ≤ a ∨ a + l.length ≤ b) : Mem.read (Mem.write m a l) b n = Mem.read m b n := by
  refine List.ext_getElem (by simp only [Mem.read_length]) fun k hk _ => ?_
  rw [Mem.read_length] at hk
  rw [Mem.read_getElem, Mem.read_getElem, Mem.get_write h, if_neg (by omega)]

/-! ### Little-endian numbers (R30) -/

@[simp] theorem leBytes_length (n x : Nat) : (leBytes n x).length = n := by
  induction n generalizing x with
  | zero => rfl
  | succ n ih => rw [leBytes, List.length_cons, ih]

@[simp] theorem leNat_leBytes (n x : Nat) : leNat (leBytes n x) = x % 2 ^ (8 * n) := by
  induction n generalizing x with
  | zero => rw [leBytes, leNat, Nat.mul_zero, Nat.pow_zero, Nat.mod_one]
  | succ n ih =>
    have hsplit : 2 ^ (8 * (n + 1)) = 256 * 2 ^ (8 * n) := by rw [Nat.mul_succ, pow_add]; omega
    rw [leBytes, leNat, ih, hsplit, Nat.mod_mul, BitVec.toNat_ofNat]

/-! ### Keyed lists -/

theorem assoc_assocSet_same {α β : Type} [DecidableEq α] (l : List (α × β)) (k : α) (v : β) :
    assoc (assocSet l k v) k = some v := by
  rw [assoc, assocSet]
  split
  · next hany =>
    induction l with
    | nil => simp at hany
    | cons p r ih =>
      by_cases hp : p.1 = k
      · simp [hp]
      · have hr : (r.any fun p => p.1 = k) = true := by simpa [hp] using hany
        simpa [hp] using ih hr
  · next hany =>
    have hnone : l.find? (fun p => decide (p.1 = k)) = none :=
      List.find?_eq_none.mpr fun p hp hk => hany (List.any_eq_true.mpr ⟨p, hp, hk⟩)
    simp [List.find?_append, hnone]

/-! ### Tables -/

/-- A core found after a rewriting that keeps numbers. -/
theorem State.updCore_coreOf (s : State) (c n : Nat) (f : Core → Core) (hf : ∀ x, (f x).cid = x.cid) :
    (s.updCore c f).coreOf n = if n = c then f (s.coreOf c) else s.coreOf n :=
  find?_keyed_update Core.cid f hf s.cores c { cid := c } rfl n { cid := n }

/-- A context found after a rewriting that keeps numbers. -/
theorem State.updCtx_ctxOf (s : State) (c n : Nat) (f : Ctx → Ctx) (hf : ∀ x, (f x).asid = x.asid) :
    (s.updCtx c f).ctxOf n = if n = c then f (s.ctxOf c) else s.ctxOf n :=
  find?_keyed_update Ctx.asid f hf s.ctxs c { asid := c } rfl n { asid := n }

/-- The team that was found, after its own rewriting. -/
theorem State.updTeam_team?_same {s : State} {tid : Nat} {t : Team} (h : s.team? tid = some t) (f : Team → Team)
    (hf : ∀ t, (f t).tid = t.tid) : (s.updTeam tid f).team? tid = some (f t) := by
  have ht : t.tid = tid := by simpa using List.find?_some h
  rw [s.updTeam_team? tid tid f hf, h, Option.map_some, if_pos ht]

/-- The group that was found, after its own rewriting. -/
theorem State.updGroup_group?_same {s : State} {gid : Nat} {g : Group} (h : s.group? gid = some g) (f : Group → Group)
    (hf : ∀ g, (f g).gid = g.gid) : (s.updGroup gid f).group? gid = some (f g) := by
  have hg : g.gid = gid := by simpa using List.find?_some h
  rw [s.updGroup_group? gid gid f hf, h, Option.map_some, if_pos hg]

/-- Another group than the rewritten one. -/
theorem State.updGroup_group?_other (s : State) {gid n : Nat} (h : n ≠ gid) (f : Group → Group)
    (hf : ∀ g, (f g).gid = g.gid) : (s.updGroup gid f).group? n = s.group? n := by
  rw [s.updGroup_group? gid n f hf]
  cases hg : s.group? n with
  | none => rfl
  | some g =>
    have hn : g.gid = n := by simpa using List.find?_some hg
    rw [Option.map_some, if_neg (by omega)]

end Sys2Proof.Machine
end

section
/-!
Channels (R47, R198 to R201): what pushing and dropping elements leave, and the statement of O17.
-/

namespace Sys2Proof.Machine

open Sys2Proof

/-- Where the element `i` places after the oldest lies. -/
def Channel.slotAt (k : Channel) (i : Nat) : Nat := k.base + (k.head + i) % k.depth * k.width

theorem Channel.elem_eq (k : Channel) (scratch : List Host.Cell) (i : Nat) :
    k.elem scratch i = BitVec.ofNat 64 (leNat (Mem.read scratch (k.slotAt i) k.width)) := rfl

/-- Elements that lie less than the depth apart lie at different places of the ring. -/
theorem Channel.slotAt_apart (k : Channel) {i j : Nat} (hij : i < j) (hj : j < k.depth) :
    k.slotAt i + k.width ≤ k.slotAt j ∨ k.slotAt j + k.width ≤ k.slotAt i := by
  have hne : (k.head + i) % k.depth ≠ (k.head + j) % k.depth := by
    intro h
    have hmod : i % k.depth = j % k.depth := Nat.ModEq.add_left_cancel' k.head h
    rw [Nat.mod_eq_of_lt (by omega), Nat.mod_eq_of_lt hj] at hmod
    omega
  have step : ∀ a b, a < b → a * k.width + k.width ≤ b * k.width := fun a b hab => by
    rw [← Nat.succ_mul]; exact Nat.mul_le_mul_right _ hab
  rw [slotAt, slotAt]
  rcases Nat.lt_or_gt_of_ne hne with h | h
  · have := step _ _ h; omega
  · have := step _ _ h; omega

/-- An owner's scratchpad with a value written at the place of an element. -/
def Channel.store (k : Channel) (scratch : List Host.Cell) (i : Nat) (v : Dword) : List Host.Cell :=
  Mem.write scratch (k.slotAt i) (leBytes k.width v.toNat)

theorem Channel.elem_store_same (k : Channel) {scratch : List Host.Cell} (h : Mem.wf scratch) (i : Nat) (v : Dword) :
    k.elem (k.store scratch i v) i = BitVec.ofNat 64 (v.toNat % 2 ^ (8 * k.width)) := by
  have hread := Mem.read_write_same h (k.slotAt i) (leBytes k.width v.toNat)
  rw [leBytes_length] at hread
  rw [elem_eq, store, hread, leNat_leBytes]

theorem Channel.elem_store_before (k : Channel) {scratch : List Host.Cell} (h : Mem.wf scratch) {i n : Nat} (v : Dword)
    (hn : n < i) (hi : i < k.depth) : k.elem (k.store scratch i v) n = k.elem scratch n := by
  rw [elem_eq, store, Mem.read_write_apart h _ _ _ _ (by rw [leBytes_length]; exact k.slotAt_apart hn hi), elem_eq]

/-- What a push leaves of its channel and of the owner's scratchpad. -/
theorem chanPush_spec {s : State} {core ch tid : Nat} {k : Channel} {t : Team}
    (hk : assoc (s.coreOf core).chans ch = some k) (ht : s.team? tid = some t) (v : Dword) :
    assoc ((chanPush s core ch tid v).coreOf core).chans ch = some { k with count := k.count + 1 } ∧
      (chanPush s core ch tid v).team? tid = some { t with scratch := k.store t.scratch k.count v } := by
  simp only [chanPush, hk]
  refine ⟨?_, State.updTeam_team?_same ht _ fun _ => rfl⟩
  rw [State.updCore_coreOf, if_pos rfl]
  · exact assoc_assocSet_same _ _ _
  · exact fun _ => rfl

/-- What a drop leaves of its channel. -/
theorem chanDrop_spec {s : State} {core ch : Nat} {k : Channel}
    (hk : assoc (s.coreOf core).chans ch = some k) (n : Nat) :
    assoc ((chanDrop s core ch n).coreOf core).chans ch =
      some { k with count := k.count - n, head := (k.head + n) % max k.depth 1 } := by
  rw [chanDrop, State.updCore_coreOf, if_pos rfl]
  · simp only [hk]
    exact assoc_assocSet_same _ _ _
  · intro c
    split <;> rfl

/-- Settles O17: the places of a channel's elements are apart, and a drop turns the ring. -/
theorem channelIsFirstInFirstOut : Obligations.ChannelIsFirstInFirstOut := by
  intro s core ch tid v k t hk ht hroom hwf
  obtain ⟨hchan, hteam⟩ := chanPush_spec hk ht v
  refine ⟨_, _, hchan, hteam, rfl, k.elem_store_same hwf k.count v, fun n hn => k.elem_store_before hwf v hn hroom,
    _, chanDrop_spec hk 1, rfl, fun n => ?_⟩
  have hturn : ((k.head + 1) % max k.depth 1 + n) % k.depth = (k.head + (n + 1)) % k.depth := by
    rw [max_eq_left (by omega), Nat.mod_add_mod, Nat.add_assoc, Nat.add_comm 1 n]
  simp only [Channel.elem, hturn]

end Sys2Proof.Machine
end

section
/-!
SUPPORT. Where the fibres of a packet stand after a word or a control transfer, and what else of the state can differ
then: the packet's scheduler, and how far its fibres have gone past their operations (R35, R52, R64).
-/

namespace Sys2Proof.Machine

open Sys2Proof

/-! ### Fibres that move -/

/-- The fibre `y` is `x` at another place: what else may differ are its status and its marks of the schedule (R61,
R67, R68). -/
def Fibre.Moved (x y : Fibre) : Prop :=
  ∃ st dem wait skip act pc rem, y = { x with
    status := st, demoted := dem, demWait := wait, skip := skip, active := act, pc := pc, rem := rem }

theorem Fibre.Moved.refl (x : Fibre) : x.Moved x := ⟨_, _, _, _, _, _, _, rfl⟩

theorem Fibre.Moved.trans {x y z : Fibre} (h : x.Moved y) (k : y.Moved z) : x.Moved z := by
  obtain ⟨_, _, _, _, _, _, _, rfl⟩ := h
  obtain ⟨_, _, _, _, _, _, _, rfl⟩ := k
  exact ⟨_, _, _, _, _, _, _, rfl⟩

/-- The group `k` is `g` with its fibres moved: lane `j` stands at `p j`, with `r j` words left of its clause. -/
def Moves (p : Nat → Fibre → Addr) (r : Nat → Fibre → BitVec 4) (g k : Group) : Prop :=
  (∃ ls, k = { g with lanes := ls }) ∧ ∀ j, j < 32 →
    (g.lane j).Moved (k.lane j) ∧ (k.lane j).pc = p j (g.lane j) ∧ (k.lane j).rem = r j (g.lane j)

section
variable {p : Nat → Fibre → Addr} {r : Nat → Fibre → BitVec 4} {g k : Group}

theorem Moves.gid (h : Moves p r g k) : k.gid = g.gid := by obtain ⟨⟨ls, rfl⟩, -⟩ := h; rfl
theorem Moves.scal (h : Moves p r g k) : k.scal = g.scal := by obtain ⟨⟨ls, rfl⟩, -⟩ := h; rfl
theorem Moves.fpctl (h : Moves p r g k) : k.fpctl = g.fpctl := by obtain ⟨⟨ls, rfl⟩, -⟩ := h; rfl
theorem Moves.cbase (h : Moves p r g k) : k.cbase = g.cbase := by obtain ⟨⟨ls, rfl⟩, -⟩ := h; rfl
theorem Moves.sq (h : Moves p r g k) : k.sq = g.sq := by obtain ⟨⟨ls, rfl⟩, -⟩ := h; rfl
theorem Moves.flag (h : Moves p r g k) (n : Nat) : k.flag n = g.flag n := by obtain ⟨⟨ls, rfl⟩, -⟩ := h; rfl

/-- A property of fibres that does not speak of their places survives their moving. -/
theorem Moves.keeps {α : Type} (h : Moves p r g k) (f : Fibre → α)
    (hf : ∀ x st dem wait skip act pc rem, f { x with
      status := st, demoted := dem, demWait := wait, skip := skip, active := act, pc := pc, rem := rem } = f x)
    {j : Nat} (hj : j < 32) : f (k.lane j) = f (g.lane j) := by
  obtain ⟨_, _, _, _, _, _, _, h⟩ := (h.2 j hj).1
  rw [h, hf]

theorem Moves.pc (h : Moves p r g k) {j : Nat} (hj : j < 32) : (k.lane j).pc = p j (g.lane j) := (h.2 j hj).2.1

theorem Moves.rem (h : Moves p r g k) {j : Nat} (hj : j < 32) : (k.lane j).rem = r j (g.lane j) := (h.2 j hj).2.2

theorem Moves.regs (h : Moves p r g k) {j : Nat} (hj : j < 32) : (k.lane j).regs = (g.lane j).regs :=
  h.keeps (·.regs) (fun _ _ _ _ _ _ _ _ => rfl) hj

theorem Moves.preds (h : Moves p r g k) {j : Nat} (hj : j < 32) : (k.lane j).preds = (g.lane j).preds :=
  h.keeps (·.preds) (fun _ _ _ _ _ _ _ _ => rfl) hj

theorem Moves.sameRegs (h : Moves p r g k) : SameRegs g k := ⟨h.scal, h.fpctl, fun _ => h.regs, fun _ => h.preds⟩

theorem Moves.sameTrap (h : Moves p r g k) {j : Nat} (hj : j < 32) : SameTrap (g.lane j) (k.lane j) := by
  obtain ⟨_, _, _, _, _, _, _, h⟩ := (h.2 j hj).1
  rw [h]
  exact ⟨rfl, rfl, rfl, rfl, rfl, rfl, rfl, rfl⟩

theorem Moves.flagsRise (h : Moves p r g k) : FlagsRise g k [] := fun n _ => by simpa using h.flag n

end

/-- The fibres of a halted group halt where their packet ends (R230). -/
def Group.packetEnds (g : Group) (lanes : BitVec 32) : Group :=
  if g.halted then
    g.updLanes lanes fun _ x => if x.status = .running then { x with status := .halted } else x
  else g

/-- The fibres of the packet go on by `n` words. -/
def Group.goesOn (g : Group) (lanes : BitVec 32) (n : Nat) : Group :=
  (g.issued lanes).updLanes lanes fun _ x =>
    { x with pc := x.pc + BitVec.ofNat 56 (4 * n), rem := x.rem - BitVec.ofNat 4 n,
             active := x.active && x.rem != BitVec.ofNat 4 n }

/-- The fibres of the packet go to their targets, or to the next clause. -/
def Group.goesTo (g : Group) (lanes : BitVec 32) (targets : List (Nat × Addr)) : Group :=
  (g.issued lanes).updLanes lanes fun i x =>
    { x with pc := (assoc targets i).getD x.clauseEnd, rem := 0, active := false }

/-- Where a word of `n` words leaves each fibre. -/
abbrev onPc (lanes : BitVec 32) (n j : Nat) (x : Fibre) : Addr :=
  x.pc + if lanes.getLsbD j then BitVec.ofNat 56 (4 * n) else 0
abbrev onRem (lanes : BitVec 32) (n j : Nat) (x : Fibre) : BitVec 4 :=
  x.rem - if lanes.getLsbD j then BitVec.ofNat 4 n else 0
/-- Where a control transfer leaves each fibre. -/
abbrev toPc (lanes : BitVec 32) (targets : List (Nat × Addr)) (j : Nat) (x : Fibre) : Addr :=
  if lanes.getLsbD j then (assoc targets j).getD x.clauseEnd else x.pc
abbrev toRem (lanes : BitVec 32) (j : Nat) (x : Fibre) : BitVec 4 := if lanes.getLsbD j then 0 else x.rem

/-- What issuing a word leaves of a lane: its place, and where its clause ends. -/
theorem Group.issued_lane (g : Group) (lanes : BitVec 32) {j : Nat} (hj : j < 32) : ∃ dem wait skip,
    (g.issued lanes).lane j = { g.lane j with demoted := dem, demWait := wait, skip := skip } := by
  rw [issued, updLanes_lane _ _ _ _ hj, if_pos ((BitVec.getLsbD_allOnes).trans (decide_eq_true hj))]
  split
  · exact ⟨false, 0, _, rfl⟩
  · exact ⟨_, _, _, rfl⟩

theorem Group.goesOn_moves (lanes : BitVec 32) (n : Nat) (g : Group) :
    Moves (onPc lanes n) (onRem lanes n) g (g.goesOn lanes n) := by
  refine ⟨⟨_, rfl⟩, fun j hj => ?_⟩
  obtain ⟨dem, wait, skip, h⟩ := g.issued_lane lanes hj
  rw [goesOn, Group.updLanes_lane (g.issued lanes) lanes _ j hj, h, onPc, onRem]
  cases lanes.getLsbD j
  · exact ⟨⟨_, dem, wait, skip, _, _, _, rfl⟩, (BitVec.add_zero _).symm, (BitVec.sub_zero _).symm⟩
  · exact ⟨⟨_, dem, wait, skip, _, _, _, rfl⟩, rfl, rfl⟩

theorem Group.goesTo_moves (lanes : BitVec 32) (targets : List (Nat × Addr)) (g : Group) :
    Moves (toPc lanes targets) (toRem lanes) g (g.goesTo lanes targets) := by
  refine ⟨⟨_, rfl⟩, fun j hj => ?_⟩
  obtain ⟨dem, wait, skip, h⟩ := g.issued_lane lanes hj
  rw [goesTo, Group.updLanes_lane (g.issued lanes) lanes _ j hj, h, toPc, toRem]
  cases lanes.getLsbD j
  · exact ⟨⟨_, dem, wait, skip, _, _, _, rfl⟩, rfl, rfl⟩
  · exact ⟨⟨_, dem, wait, skip, _, _, _, rfl⟩, rfl, rfl⟩

/-- The end of the packet changes statuses only. -/
theorem Group.packetEnds_moves (lanes : BitVec 32) (g : Group) :
    Moves (fun _ x => x.pc) (fun _ x => x.rem) g (g.packetEnds lanes) := by
  rw [packetEnds]
  split
  · refine ⟨⟨_, rfl⟩, fun j hj => ?_⟩
    rw [Group.updLanes_lane _ _ _ _ hj]
    split
    · split
      · exact ⟨⟨_, _, _, _, _, _, _, rfl⟩, rfl, rfl⟩
      · exact ⟨.refl _, rfl, rfl⟩
    · exact ⟨.refl _, rfl, rfl⟩
  · exact ⟨⟨_, rfl⟩, fun j _ => ⟨.refl _, rfl, rfl⟩⟩

theorem Moves.packetEnds {p : Nat → Fibre → Addr} {r : Nat → Fibre → BitVec 4} {g k : Group} (h : Moves p r g k)
    (lanes : BitVec 32) : Moves p r g (k.packetEnds lanes) := by
  have hend := Group.packetEnds_moves lanes k
  obtain ⟨⟨ls, hk⟩, hlanes⟩ := h
  obtain ⟨⟨ms, hl⟩, hends⟩ := hend
  refine ⟨⟨ms, by rw [hl, hk]⟩, fun j hj => ?_⟩
  obtain ⟨hmoved, hpc, hrem⟩ := hlanes j hj
  obtain ⟨hmoved', hpc', hrem'⟩ := hends j hj
  exact ⟨hmoved.trans hmoved', hpc'.trans hpc, hrem'.trans hrem⟩

/-! ### The state after a packet's word -/

/-- The operations are the same, but that their fibres may have gone on. -/
def SameOps (s t : State) : Prop :=
  t.ops.map (fun o => { o with still := 0 }) = s.ops.map fun o => { o with still := 0 }

/-- The packet's fibres have moved: its group is left as `Moves` says, its core but for a scheduler, operations but for
the fibres that wait at them; everything else is the same. -/
structure PacketMoves (c : Cur) (p : Nat → Fibre → Addr) (r : Nat → Fibre → BitVec 4) (s t : State) : Prop where
  only : ∃ gs ks os, t = { s with groups := gs, cores := ks, ops := os, cur := none }
  own : ∀ g, s.group? c.pk.gid = some g → ∃ k, t.group? c.pk.gid = some k ∧ Moves p r g k
  others : ∀ n, n ≠ c.pk.gid → t.group? n = s.group? n
  core : ∃ sc, t.coreOf c.core = { s.coreOf c.core with scheds := sc }
  cores : ∀ n, n ≠ c.core → t.coreOf n = s.coreOf n
  ops : SameOps s t

theorem State.goneOn_sameOps (s : State) (gid : Nat) (lanes : BitVec 32) : SameOps s (s.goneOn gid lanes) := by
  rw [SameOps, goneOn, List.map_map]
  refine List.map_congr_left fun o _ => ?_
  rw [Function.comp_apply]
  split <;> rfl

/-- Two rewritings of a group are one. -/
theorem State.updGroup_updGroup (s : State) (gid : Nat) (f k : Group → Group) (hf : ∀ g, (f g).gid = g.gid) :
    (s.updGroup gid f).updGroup gid k = s.updGroup gid fun g => k (f g) := by
  simp only [updGroup, List.map_map]
  congr 2
  funext g
  simp only [Function.comp_apply]
  split
  · next h => rw [if_pos ((hf g).trans h)]
  · rfl

/-- A core whose scheduler has the packet's port given back. -/
def Core.withPort (c : Cur) (q : Option Packet) (k : Core) : Core :=
  let sc := vget k.scheds c.sched {}
  let sc := if c.port2 then { sc with port2 := q } else { sc with port1 := q }
  { k with scheds := vset k.scheds c.sched { sc with phase := if !c.port2 && sc.port2.isSome then 2 else 0 } }

/-- What a port given back leaves of the cores. -/
theorem State.setPort_coreOf (s : State) (c : Cur) (q : Option Packet) (n : Nat) :
    (s.setPort c q).coreOf n = if n = c.core then (s.coreOf c.core).withPort c q else s.coreOf n :=
  State.updCore_coreOf s c.core n (Core.withPort c q) fun _ => rfl

theorem packetMoves_of_updGroup {p : Nat → Fibre → Addr} {r : Nat → Fibre → BitVec 4} (s : State) (c : Cur)
    {f : Group → Group} (hf : ∀ g, Moves p r g (f g)) (q : Option Packet) :
    PacketMoves c p r s (((s.goneOn c.pk.gid c.pk.lanes).updGroup c.pk.gid f).setPort c q) where
  only := ⟨_, _, _, rfl⟩
  own g hg := ⟨f g, State.updGroup_group?_same (s := s.goneOn c.pk.gid c.pk.lanes) hg f fun g => (hf g).gid, hf g⟩
  others _ hn := State.updGroup_group?_other (s.goneOn c.pk.gid c.pk.lanes) hn f fun g => (hf g).gid
  core := ⟨_, (State.setPort_coreOf ((s.goneOn c.pk.gid c.pk.lanes).updGroup c.pk.gid f) c q c.core).trans (if_pos rfl)⟩
  cores n hn := (State.setPort_coreOf ((s.goneOn c.pk.gid c.pk.lanes).updGroup c.pk.gid f) c q n).trans (if_neg hn)
  ops := s.goneOn_sameOps c.pk.gid c.pk.lanes

/-- The packet goes on by `n` words. -/
theorem State.advance_moves (s : State) (c : Cur) (n : Nat) :
    PacketMoves c (onPc c.pk.lanes n) (onRem c.pk.lanes n) s (s.advance c n) := by
  have hgo := Group.goesOn_moves c.pk.lanes n
  have hport := packetMoves_of_updGroup s c hgo
  have hend := packetMoves_of_updGroup s c (fun g => (hgo g).packetEnds c.pk.lanes) none
  rw [← State.updGroup_updGroup _ _ _ (fun g => g.packetEnds c.pk.lanes) fun g => (hgo g).gid] at hend
  unfold State.advance
  dsimp only
  split
  · exact hport none
  · split
    · exact hport _
    · exact hend

/-- The packet's fibres go to their targets, or to the next clause. -/
theorem State.transfer_moves (s : State) (c : Cur) (targets : List (Nat × Addr)) :
    PacketMoves c (toPc c.pk.lanes targets) (toRem c.pk.lanes) s (s.transfer c targets) := by
  have hgo := Group.goesTo_moves c.pk.lanes targets
  have hend := packetMoves_of_updGroup s c (fun g => (hgo g).packetEnds c.pk.lanes) none
  rw [← State.updGroup_updGroup _ _ _ (fun g => g.packetEnds c.pk.lanes) fun g => (hgo g).gid] at hend
  exact hend

/-- Every channel of every core is as it was. -/
theorem PacketMoves.chans {c : Cur} {p : Nat → Fibre → Addr} {r : Nat → Fibre → BitVec 4} {s t : State}
    (h : PacketMoves c p r s t) (n : Nat) : (t.coreOf n).chans = (s.coreOf n).chans := by
  by_cases hn : n = c.core
  · obtain ⟨sc, h⟩ := h.core
    rw [hn, h]
  · rw [h.cores n hn]

theorem PacketMoves.teams {c : Cur} {p : Nat → Fibre → Addr} {r : Nat → Fibre → BitVec 4} {s t : State}
    (h : PacketMoves c p r s t) : t.teams = s.teams := by obtain ⟨_, _, _, rfl⟩ := h.only; rfl

end Sys2Proof.Machine
end

section
/-!
What a class I or class F word writes (R43, R44, R47, R50, R58, R97, R119), and the statements of O14 and O15.
-/

namespace Sys2Proof.Machine

open Sys2Proof

/-! ### Lists keyed by lanes -/

theorem assoc_map {α β γ : Type} [DecidableEq α] (l : List (α × β)) (f : β → γ) (k : α) :
    assoc (l.map fun p => (p.1, f p.2)) k = (assoc l k).map f := by
  simp only [assoc, List.find?_map, Option.map_map, Function.comp_def]

theorem assoc_cons {α β : Type} [DecidableEq α] (p : α × β) (l : List (α × β)) (k : α) :
    assoc (p :: l) k = if p.1 = k then some p.2 else assoc l k := by
  by_cases h : p.1 = k <;> simp [assoc, h]

theorem assoc_eq_none {α β : Type} [DecidableEq α] {l : List (α × β)} {k : α} (h : k ∉ l.map (·.1)) :
    assoc l k = none := by
  rw [assoc, Option.map_eq_none_iff, List.find?_eq_none]
  intro p hp hk
  exact h (of_decide_eq_true hk ▸ List.mem_map_of_mem hp)

/-! ### Registers, predicates and scalars of one fibre or group -/

/-- A value written to consecutive registers: the word of each of them, and the others. -/
theorem Fibre.reg_setWide (x : Fibre) (r n v m : Nat) (h : r + n ≤ 64) :
    (x.setWide r n v).reg m = if r ≤ m ∧ m < r + n then BitVec.ofNat 32 (v / 2 ^ (32 * (m - r))) else x.reg m := by
  induction n with
  | zero => exact (if_neg (by omega)).symm
  | succ n ih =>
    have hlast : x.setWide r (n + 1) v = (x.setWide r n v).setReg (r + n) (BitVec.ofNat 32 (v / 2 ^ (32 * n))) := by
      simp only [setWide, List.range_succ, List.foldl_append, List.foldl_cons, List.foldl_nil]
    rw [hlast]
    by_cases hm : m = r + n
    · subst hm
      rw [if_pos (by omega), Nat.add_sub_cancel_left]
      exact vget_vset_same _ _ _ _ (by omega)
    · refine (vget_vset_other _ _ _ _ _ (Ne.symm hm)).trans ((ih (by omega)).trans ?_)
      simp only [show (m < r + (n + 1)) = (m < r + n) from propext (by omega)]

/-- Writing registers writes nothing else. -/
theorem Fibre.setWide_only (x : Fibre) (r n v : Nat) : ∃ rs, x.setWide r n v = { x with regs := rs } := by
  rw [setWide]
  generalize List.range n = l
  induction l generalizing x with
  | nil => exact ⟨_, rfl⟩
  | cons i l ih =>
    obtain ⟨rs, h⟩ := ih (x.setReg (r + i) (BitVec.ofNat 32 (v / 2 ^ (32 * i))))
    exact ⟨rs, h⟩

/-- Predicate `p` after one is written; p0 reads true. -/
theorem Fibre.pred_setPred (x : Fibre) (q p : Nat) (v : Bool) (hp : p < 64) :
    (x.setPred q v).pred p = (p == 0 || if q = p then v else x.pred p) := by
  by_cases hp0 : p = 0
  · simp [hp0]
  by_cases hq0 : q = 0
  · simp [setPred, hq0, Ne.symm hp0]
  · simp only [setPred, hq0, if_false, Fibre.pred, Bool.false_or, getLsbD_setBits _ _ _ _ _ hp,
      beq_eq_false_iff_ne.mpr hp0]
    by_cases hqp : q = p
    · subst hqp
      cases v <;> simp
    · rw [if_neg (by omega), if_neg hqp]

/-- Predicates after a list of them is written. -/
theorem Fibre.pred_setPreds (x : Fibre) (l : List (Nat × Bool)) (p : Nat) (hp : p < 64) :
    (x.setPreds l).pred p = predAfter (x.pred p) p l := by
  induction l using List.reverseRecOn with
  | nil => simp [setPreds, predAfter]
  | append_singleton l q ih =>
    have hlast : x.setPreds (l ++ [q]) = (x.setPreds l).setPred q.1 q.2 := by
      simp only [setPreds, List.foldl_append, List.foldl_cons, List.foldl_nil]
    rw [hlast, pred_setPred _ _ _ _ hp, ih, predAfter, predAfter, List.reverse_append, List.reverse_singleton,
      List.singleton_append]
    by_cases hq : q.1 = p
    · simp [hq]
    · simp [hq]

/-- Writing predicates writes nothing else. -/
theorem Fibre.setPreds_only (x : Fibre) (l : List (Nat × Bool)) : ∃ b, x.setPreds l = { x with preds := b } := by
  induction l generalizing x with
  | nil => exact ⟨_, rfl⟩
  | cons q l ih =>
    obtain ⟨b, h⟩ := ih (x.setPred q.1 q.2)
    refine ⟨b, h.trans ?_⟩
    rw [setPred]
    split <;> rfl

/-- A value written to consecutive scalars. -/
theorem Group.scalar_setScalar (g : Group) (r n v m : Nat) (h : r + n ≤ 32) :
    (g.setScalar r n v).scalar m =
      if r ≤ m ∧ m < r + n then BitVec.ofNat 32 (v / 2 ^ (32 * (m - r))) else g.scalar m := by
  induction n with
  | zero => exact (if_neg (by omega)).symm
  | succ n ih =>
    have hlast : g.setScalar r (n + 1) v = { g.setScalar r n v with
        scal := vset (g.setScalar r n v).scal (r + n) (BitVec.ofNat 32 (v / 2 ^ (32 * n))) } := by
      simp only [setScalar, List.range_succ, List.foldl_append, List.foldl_cons, List.foldl_nil]
    rw [hlast]
    by_cases hm : m = r + n
    · subst hm
      rw [if_pos (by omega), Nat.add_sub_cancel_left]
      exact vget_vset_same _ _ _ _ (by omega)
    · refine (vget_vset_other _ _ _ _ _ (Ne.symm hm)).trans ((ih (by omega)).trans ?_)
      simp only [show (m < r + (n + 1)) = (m < r + n) from propext (by omega)]

/-- Writing scalars writes nothing else. -/
theorem Group.setScalar_only (g : Group) (r n v : Nat) : ∃ sc, g.setScalar r n v = { g with scal := sc } := by
  rw [setScalar]
  generalize List.range n = l
  induction l generalizing g with
  | nil => exact ⟨_, rfl⟩
  | cons i l ih =>
    obtain ⟨sc, h⟩ := ih { g with scal := vset g.scal (r + i) (BitVec.ofNat 32 (v / 2 ^ (32 * i))) }
    exact ⟨sc, h⟩

/-! ### Results of several lanes -/

/-- The lanes that a list names, each rewritten with its entry. -/
def Group.eachLane {α : Type} (f : α → Fibre → Fibre) (g : Group) (l : List (Nat × α)) : Group :=
  l.foldl (fun g p => g.setLane p.1 (f p.2 (g.lane p.1))) g

theorem Group.eachLane_only {α : Type} (f : α → Fibre → Fibre) (g : Group) (l : List (Nat × α)) :
    ∃ ls, g.eachLane f l = { g with lanes := ls } := by
  induction l generalizing g with
  | nil => exact ⟨_, rfl⟩
  | cons p l ih =>
    obtain ⟨ls, h⟩ := ih (g.setLane p.1 (f p.2 (g.lane p.1)))
    exact ⟨ls, h⟩

theorem Group.eachLane_lane {α : Type} (f : α → Fibre → Fibre) (g : Group) (l : List (Nat × α))
    (hnd : (l.map (·.1)).Nodup) {j : Nat} (hj : j < 32) :
    (g.eachLane f l).lane j = (assoc l j).elim (g.lane j) fun o => f o (g.lane j) := by
  induction l generalizing g with
  | nil => rfl
  | cons p l ih =>
    obtain ⟨hp, hnd⟩ := List.nodup_cons.mp hnd
    refine (ih (g.setLane p.1 (f p.2 (g.lane p.1))) hnd).trans ?_
    rw [assoc_cons]
    by_cases hpj : p.1 = j
    · subst hpj
      rw [assoc_eq_none hp, if_pos rfl]
      exact vget_vset_same _ _ _ _ hj
    · have hsame : (g.setLane p.1 (f p.2 (g.lane p.1))).lane j = g.lane j := vget_vset_other _ _ _ _ _ hpj
      rw [if_neg hpj, hsame]

/-! ### Writing back -/

/-- The group after the results of the lanes are written: predicates, the destination, and the status flags. -/
def Group.written (g : Group) (sh : Shape) (lead : Nat) (outs : List (Nat × LaneOut)) : Group :=
  let g1 := g.eachLane (fun (o : LaneOut) x => x.setPreds o.pset) outs
  let g2 : Group := match sh.dst with
    | some (d, k) => g1.writeDst d k.regs lead (outs.map fun p => (p.1, p.2.val.toNat))
    | none => g1
  { g2 with fpctl := orFlags g2.fpctl (outs.foldl (fun f p => f ||| p.2.fl) 0) }

/-- Destinations in fibre registers are written lane by lane. -/
theorem Group.writeDst_v (g : Group) (r : BitVec 6) (n lead : Nat) (vals : List (Nat × Nat)) :
    g.writeDst (.v r) n lead vals = g.eachLane (fun v x => x.setWide r.toNat n v) vals := rfl

/-- The values that are pushed, one after the other. -/
def pushAll (s : State) (core ch tid : Nat) (vs : List Dword) : State :=
  vs.foldl (fun s v => chanPush s core ch tid v) s

theorem chanPush_groups (s : State) (core ch tid : Nat) (v : Dword) : (chanPush s core ch tid v).groups = s.groups := by
  rw [chanPush]
  split <;> rfl

theorem pushAll_groups (s : State) (core ch tid : Nat) (vs : List Dword) :
    (pushAll s core ch tid vs).groups = s.groups := by
  induction vs generalizing s with
  | nil => rfl
  | cons v vs ih => exact (ih _).trans (chanPush_groups s core ch tid v)

theorem popAll_only (s : State) (core lanes : Nat) (sh : Shape) :
    ∃ ks, popAll s core lanes sh = { s with cores := ks } := by
  rw [popAll]
  generalize sh.srcs = l
  induction l generalizing s with
  | nil => exact ⟨_, rfl⟩
  | cons o l ih =>
    rw [List.foldl_cons]
    split
    · obtain ⟨ks, h⟩ := ih (chanDrop s core _ lanes)
      exact ⟨ks, h⟩
    · exact ih s

/-- Values that are pushed where there is room stand behind the elements that the channel holds. -/
theorem pushAll_spec {core ch tid : Nat} (vs : List Dword) {s : State} {k : Channel} {t : Team}
    (hk : assoc (s.coreOf core).chans ch = some k) (ht : s.team? tid = some t) (hwf : Mem.wf t.scratch)
    (hroom : k.count + vs.length ≤ k.depth) : ∃ m,
      assoc ((pushAll s core ch tid vs).coreOf core).chans ch = some { k with count := k.count + vs.length } ∧
      (pushAll s core ch tid vs).team? tid = some { t with scratch := m } ∧
      (∀ n, n < k.count → k.elem m n = k.elem t.scratch n) ∧
      ∀ n v, vs[n]? = some v → k.elem m (k.count + n) = BitVec.ofNat 64 (v.toNat % 2 ^ (8 * k.width)) := by
  induction vs generalizing s k t with
  | nil => exact ⟨t.scratch, hk, ht, fun _ _ => rfl, fun n v h => by cases h⟩
  | cons v vs ih =>
    rw [List.length_cons] at hroom
    obtain ⟨hchan, hteam⟩ := chanPush_spec hk ht v
    obtain ⟨m, hchan', hteam', hold, hnew⟩ :=
      ih (k := { k with count := k.count + 1 }) hchan hteam (Mem.write_wf _ _ hwf)
        (by show k.count + 1 + vs.length ≤ k.depth; omega)
    refine ⟨m, hchan'.trans ?_, hteam', fun n hn => ?_, fun n w hw => ?_⟩
    · rw [List.length_cons, Nat.add_assoc, Nat.add_comm 1]
    · exact (hold n (Nat.lt_succ_of_lt hn)).trans (k.elem_store_before hwf v hn (by omega))
    · cases n with
      | zero =>
        obtain rfl : v = w := by simpa using hw
        exact (hold k.count (Nat.lt_succ_self _)).trans (k.elem_store_same hwf k.count v)
      | succ n =>
        have h := hnew n w (by simpa using hw)
        rwa [show k.count + 1 + n = k.count + (n + 1) by omega] at h

theorem Group.written_gid (g : Group) (sh : Shape) (lead : Nat) (outs : List (Nat × LaneOut)) :
    (g.written sh lead outs).gid = g.gid := by
  obtain ⟨ls, h⟩ := g.eachLane_only (fun (o : LaneOut) x => x.setPreds o.pset) outs
  simp only [written, h]
  split
  · exact Group.writeDst_gid _ _ _ _ _
  · rfl

/-- A lane whose registers are a destination. -/
theorem Group.written_lane_v (g : Group) {sh : Shape} {r : BitVec 6} {k : Kind} 
    (hd : sh.dst = some (.v r, k)) (lead : Nat)
    {outs : List (Nat × LaneOut)} (hnd : (outs.map (·.1)).Nodup) {j : Nat} (hj : j < 32) :
    (g.written sh lead outs).lane j = (assoc outs j).elim (g.lane j)
      fun o => ((g.lane j).setPreds o.pset).setWide r.toNat k.regs o.val.toNat := by
  have hlane : (g.written sh lead outs).lane j =
      ((g.eachLane (fun (o : LaneOut) x => x.setPreds o.pset) outs).writeDst (.v r) k.regs lead
        (outs.map fun p => (p.1, p.2.val.toNat))).lane j := by rw [written, hd]
  have hkeys : (outs.map fun p => (p.1, p.2.val.toNat)).map (·.1) = outs.map (·.1) := by rw [List.map_map]; rfl
  rw [hlane, writeDst_v, Group.eachLane_lane _ _ _ (hkeys ▸ hnd) hj, Group.eachLane_lane _ _ _ hnd hj,
    assoc_map outs (fun o => o.val.toNat)]
  cases assoc outs j <;> rfl

/-- A lane whose registers are no destination. -/
theorem Group.written_lane_other (g : Group) {sh : Shape} (hd : ∀ r k, sh.dst ≠ some (.v r, k)) (lead : Nat)
    {outs : List (Nat × LaneOut)} (hnd : (outs.map (·.1)).Nodup) {j : Nat} (hj : j < 32) :
    (g.written sh lead outs).lane j = (assoc outs j).elim (g.lane j) fun o => (g.lane j).setPreds o.pset := by
  refine Eq.trans ?_ (Group.eachLane_lane (fun (o : LaneOut) x => x.setPreds o.pset) g outs hnd hj)
  rw [written]
  match hs : sh.dst with
  | none => rfl
  | some (.v r, k) => exact absurd hs (hd r k)
  | some (.push _, _) => rfl
  | some (.s r, k) =>
    dsimp only [writeDst]
    split
    · obtain ⟨sc, h⟩ := (g.eachLane (fun (o : LaneOut) x => x.setPreds o.pset) outs).setScalar_only r.toNat k.regs _
      rw [h]
    · rfl

/-- Predicates of a lane after its results are written. -/
theorem Group.written_pred (g : Group) (sh : Shape) (lead : Nat) {outs : List (Nat × LaneOut)}
    (hnd : (outs.map (·.1)).Nodup) {j p : Nat} (hj : j < 32) (hp : p < 64) :
    ((g.written sh lead outs).lane j).pred p =
      (assoc outs j).elim ((g.lane j).pred p) fun o => predAfter ((g.lane j).pred p) p o.pset := by
  by_cases hd : ∃ r k, sh.dst = some (.v r, k)
  · obtain ⟨r, k, hd⟩ := hd
    rw [g.written_lane_v hd lead hnd hj]
    cases assoc outs j with
    | none => rfl
    | some o =>
      obtain ⟨rs, h⟩ := ((g.lane j).setPreds o.pset).setWide_only r.toNat k.regs o.val.toNat
      dsimp only [Option.elim]
      rw [h]
      exact Fibre.pred_setPreds _ _ _ hp
  · rw [g.written_lane_other (fun r k h => hd ⟨r, k, h⟩) lead hnd hj]
    cases assoc outs j with
    | none => rfl
    | some o => exact Fibre.pred_setPreds _ _ _ hp

/-- What writing back leaves of the groups, whatever the destination is. -/
theorem writeBack_groups (s : State) (h : Here) (sh : Shape) (outs : List (Nat × LaneOut)) :
    (writeBack s h sh outs).groups = (s.updGroup h.g.gid fun g => g.written sh h.lead outs).groups := by
  rw [writeBack]
  split
  · next ch _ hd =>
    have hfold : ∀ u : State, outs.foldl (fun s p => chanPush s h.c.core ch.toNat h.t.tid p.2.val) u =
        pushAll u h.c.core ch.toNat h.t.tid (outs.map fun p => p.2.val) := fun u => by rw [pushAll, List.foldl_map]
    dsimp only
    rw [hfold, pushAll_groups]
    rfl
  · rfl

/-- The group after a class I or class F word: its results are written, and its fibres moved on. -/
theorem vecDone_group {h : Here} {s1 : State} (hg : s1.group? h.g.gid = some h.g) (hpk : h.c.pk.gid = h.g.gid)
    (i : Instr) (ins : List LaneIn) (outs : List LaneOut) : ∃ k, (vecDone i h ins outs s1).group? h.g.gid = some k ∧
      Moves (onPc h.c.pk.lanes i.words) (onRem h.c.pk.lanes i.words)
        (h.g.written (shape i) h.lead (List.zip (ins.map (·.lane)) outs)) k := by
  have hpop : (popAll s1 h.c.core ins.length (shape i)).group? h.g.gid = some h.g := by
    obtain ⟨ks, hks⟩ := popAll_only s1 h.c.core ins.length (shape i)
    rw [hks]
    exact hg
  have hwrite := State.updGroup_group?_same hpop
    (fun g => g.written (shape i) h.lead (List.zip (ins.map (·.lane)) outs)) fun g => g.written_gid _ _ _
  rw [State.group?, ← writeBack_groups] at hwrite
  rw [← hpk] at hwrite ⊢
  exact (State.advance_moves _ h.c i.words).own _ hwrite

/-- A fibre-register destination holds the words of the value in the active fibres. -/
theorem registerResults_v (i : Instr) (h : Here) (ins : List LaneIn) (outs : List LaneOut) (s1 : State) (r : BitVec 6)
    (k : Kind) (hg : s1.group? h.g.gid = some h.g) (hpk : h.c.pk.gid = h.g.gid) (hd : (shape i).dst = some (.v r, k))
    (hr : r.toNat + k.regs ≤ 64) (_ : outs.length = ins.length) (hok : LanesOk h (List.zip (ins.map (·.lane)) outs)) :
    ∃ g, (vecDone i h ins outs s1).group? h.g.gid = some g ∧ ∀ j, j < 32 →
      (∀ n, n < 64 → (g.lane j).reg n =
        match assoc (List.zip (ins.map (·.lane)) outs) j with
        | some o => if r.toNat ≤ n ∧ n < r.toNat + k.regs then wordAt o.val (n - r.toNat) else (h.g.lane j).reg n
        | none => (h.g.lane j).reg n) ∧
      (g.lane j).pc = (h.g.lane j).pc + (if h.c.pk.lanes.getLsbD j then BitVec.ofNat 56 (4 * i.words) else 0) ∧
      (g.lane j).rem = (h.g.lane j).rem - (if h.c.pk.lanes.getLsbD j then BitVec.ofNat 4 i.words else 0) := by
  obtain ⟨g, hk, hm⟩ := vecDone_group hg hpk i ins outs
  refine ⟨g, hk, fun j hj => ?_⟩
  have hlane := h.g.written_lane_v hd h.lead hok.1 hj
  rw [hm.pc hj, hm.rem hj, hlane]
  refine ⟨fun n _ => ?_, ?_⟩
  · rw [Fibre.reg, hm.regs hj, hlane]
    cases assoc (List.zip (ins.map (·.lane)) outs) j with
    | none => rfl
    | some o =>
      refine (Fibre.reg_setWide _ _ _ _ _ hr).trans ?_
      obtain ⟨b, hb⟩ := (h.g.lane j).setPreds_only o.pset
      rw [hb]
  · cases assoc (List.zip (ins.map (·.lane)) outs) j with
    | none => exact ⟨rfl, rfl⟩
    | some o =>
      dsimp only [Option.elim]
      obtain ⟨rs, hs⟩ := ((h.g.lane j).setPreds o.pset).setWide_only r.toNat k.regs o.val.toNat
      obtain ⟨b, hb⟩ := (h.g.lane j).setPreds_only o.pset
      rw [hs, hb]
      exact ⟨rfl, rfl⟩

/-- Where no fibre register is a destination, no register of a fibre changes. -/
theorem vecDone_regs {h : Here} {i : Instr} {outs : List (Nat × LaneOut)} {g : Group}
    {p : Nat → Fibre → Addr} {r : Nat → Fibre → BitVec 4} (hd : ∀ r k, (shape i).dst ≠ some (.v r, k))
    (hok : LanesOk h outs) (hm : Moves p r (h.g.written (shape i) h.lead outs) g) {j : Nat} (hj : j < 32) :
    (g.lane j).regs = (h.g.lane j).regs := by
  rw [hm.regs hj, h.g.written_lane_other hd h.lead hok.1 hj]
  cases assoc outs j with
  | none => rfl
  | some o =>
    obtain ⟨b, hb⟩ := (h.g.lane j).setPreds_only o.pset
    dsimp only [Option.elim]
    rw [hb]

/-- A scalar destination holds the value of the lowest-numbered active fibre. -/
theorem registerResults_s (i : Instr) (h : Here) (ins : List LaneIn) (outs : List LaneOut) (s1 : State) (r : BitVec 5)
    (k : Kind) (o : LaneOut) (hg : s1.group? h.g.gid = some h.g) (hpk : h.c.pk.gid = h.g.gid)
    (hd : (shape i).dst = some (.s r, k)) (hr : r.toNat + k.regs ≤ 32) (_ : outs.length = ins.length)
    (hok : LanesOk h (List.zip (ins.map (·.lane)) outs))
    (ho : assoc (List.zip (ins.map (·.lane)) outs) h.lead = some o) :
    ∃ g, (vecDone i h ins outs s1).group? h.g.gid = some g ∧
      (∀ n, n < 32 → g.scalar n =
        if r.toNat ≤ n ∧ n < r.toNat + k.regs then wordAt o.val (n - r.toNat) else h.g.scalar n) ∧
      ∀ j n, j < 32 → n < 64 → (g.lane j).reg n = (h.g.lane j).reg n := by
  obtain ⟨g, hk, hm⟩ := vecDone_group hg hpk i ins outs
  refine ⟨g, hk, fun n _ => ?_, fun j n hj _ => ?_⟩
  · obtain ⟨ls, hls⟩ := h.g.eachLane_only (fun (o : LaneOut) x => x.setPreds o.pset) (List.zip (ins.map (·.lane)) outs)
    rw [Group.scalar, hm.scal, Group.written, hd]
    simp only [Group.writeDst, assoc_map _ (fun (o : LaneOut) => o.val.toNat), ho, Option.map_some]
    refine (Group.scalar_setScalar _ _ _ _ _ hr).trans ?_
    rw [hls]
  · rw [Fibre.reg, vecDone_regs (by simp [hd]) hok hm hj]

/-- A channel destination holds the values of the active fibres behind its elements. -/
theorem registerResults_push (i : Instr) (h : Here) (ins : List LaneIn) (outs : List LaneOut) (s1 : State)
    (ch : BitVec 5) (kd : Kind) (k : Channel) (t : Team) (hg : s1.group? h.g.gid = some h.g)
    (hpk : h.c.pk.gid = h.g.gid)
    (hd : (shape i).dst = some (.push ch, kd)) (hlen : outs.length = ins.length)
    (hok : LanesOk h (List.zip (ins.map (·.lane)) outs))
    (hk : assoc ((popAll s1 h.c.core ins.length (shape i)).coreOf h.c.core).chans ch.toNat = some k)
    (ht : s1.team? h.t.tid = some t) (hwf : Mem.wf t.scratch = true) (hroom : k.count + outs.length ≤ k.depth) :
    ∃ k1 t1 g, assoc ((vecDone i h ins outs s1).coreOf h.c.core).chans ch.toNat = some k1 ∧
      (vecDone i h ins outs s1).team? h.t.tid = some t1 ∧ (vecDone i h ins outs s1).group? h.g.gid = some g ∧
      k1.count = k.count + outs.length ∧
      (∀ n, n < k.count → k1.elem t1.scratch n = k.elem t.scratch n) ∧
      (∀ n o, outs[n]? = some o →
        k1.elem t1.scratch (k.count + n) = BitVec.ofNat 64 (o.val.toNat % 2 ^ (8 * k.width))) ∧
      g.scal = h.g.scal ∧ ∀ j n, j < 32 → n < 64 → (g.lane j).reg n = (h.g.lane j).reg n := by
  obtain ⟨g, hgroup, hm⟩ := vecDone_group hg hpk i ins outs
  obtain ⟨ks, hks⟩ := popAll_only s1 h.c.core ins.length (shape i)
  have hvals : (List.zip (ins.map (·.lane)) outs).map (fun p => p.2.val) = outs.map (·.val) := by
    refine (List.map_map (f := Prod.snd) (g := LaneOut.val)).symm.trans (congrArg _ (List.map_snd_zip ?_))
    simp [hlen]
  have hdone : vecDone i h ins outs s1 = (pushAll ((popAll s1 h.c.core ins.length (shape i)).updGroup h.g.gid
      fun g => g.written (shape i) h.lead (List.zip (ins.map (·.lane)) outs)) h.c.core ch.toNat h.t.tid
      (outs.map (·.val))).advance h.c i.words := by
    rw [vecDone, writeBack, hd, ← hvals, pushAll, List.foldl_map]
    simp only [Group.written, hd]
    rfl
  obtain ⟨m, hchan, hteam, hold, hnew⟩ := pushAll_spec (outs.map (·.val)) (s := (popAll s1 h.c.core ins.length
    (shape i)).updGroup h.g.gid fun g => g.written (shape i) h.lead (List.zip (ins.map (·.lane)) outs)) hk
    (t := t) (tid := h.t.tid) (by rw [hks]; exact ht) hwf (by rwa [List.length_map])
  have hmoves := State.advance_moves (pushAll ((popAll s1 h.c.core ins.length (shape i)).updGroup h.g.gid
    fun g => g.written (shape i) h.lead (List.zip (ins.map (·.lane)) outs)) h.c.core ch.toNat h.t.tid
    (outs.map (·.val))) h.c i.words
  rw [List.length_map] at hchan
  refine ⟨{ k with count := k.count + outs.length }, { t with scratch := m }, g, ?_, ?_, hgroup, rfl, hold,
    fun n o ho => hnew n o.val (by simp [ho]), ?_, fun j n hj _ => ?_⟩
  · rw [hdone, hmoves.chans]
    exact hchan
  · rw [hdone, State.team?, hmoves.teams]
    exact hteam
  · obtain ⟨ls, hls⟩ := h.g.eachLane_only (fun (o : LaneOut) x => x.setPreds o.pset) (List.zip (ins.map (·.lane)) outs)
    rw [hm.scal, Group.written, hd]
    simp only [Group.writeDst, hls]
  · rw [Fibre.reg, vecDone_regs (by simp [hd]) hok hm hj]

/-- Settles O14: the three kinds of destination. -/
theorem registerResults : Obligations.RegisterResults :=
  ⟨registerResults_v, registerResults_s, registerResults_push⟩

/-! ### Predicates and status flags -/

/-- The union of the status flags of several lanes. -/
theorem getLsbD_foldl_flags (outs : List (Nat × LaneOut)) (z : BitVec 6) (n : Nat) :
    (outs.foldl (fun f p => f ||| p.2.fl) z).getLsbD n = (z.getLsbD n || outs.any fun p => p.2.fl.getLsbD n) := by
  induction outs generalizing z with
  | nil => simp
  | cons p outs ih => rw [List.foldl_cons, ih, BitVec.getLsbD_or, List.any_cons, Bool.or_assoc]

/-- Status flags set in FPCTL (R119). -/
theorem getLsbD_orFlags (x : Word) (fl : BitVec 6) (n : Nat) (hn : n < 32) :
    (orFlags x fl).getLsbD n = (x.getLsbD n || (decide (8 ≤ n ∧ n < 14) && fl.getLsbD (n - 8))) := by
  rw [orFlags, BitVec.getLsbD_or, BitVec.getLsbD_shiftLeft, BitVec.getLsbD_setWidth]
  congr 1
  by_cases h8 : n < 8
  · simp [h8]
  · by_cases h14 : n < 14
    · simp [hn, h8, h14, show n - 8 < 32 by omega, show 8 ≤ n by omega]
    · simp [h14, BitVec.getLsbD_of_ge fl (n - 8) (by omega)]

/-- What the destination is does not matter to FPCTL. -/
theorem Group.writeDst_fpctl (g : Group) (d : Dst) (n lead : Nat) (vals : List (Nat × Nat)) :
    (g.writeDst d n lead vals).fpctl = g.fpctl := by
  cases d with
  | v r =>
    obtain ⟨ls, h⟩ := g.eachLane_only (fun v x => x.setWide r.toNat n v) vals
    rw [writeDst_v, h]
  | s r =>
    rw [writeDst]
    split
    · obtain ⟨sc, h⟩ := g.setScalar_only r.toNat n _
      rw [h]
    · rfl
  | push c => rfl

theorem Group.written_fpctl (g : Group) (sh : Shape) (lead : Nat) (outs : List (Nat × LaneOut)) :
    (g.written sh lead outs).fpctl = orFlags g.fpctl (outs.foldl (fun f p => f ||| p.2.fl) 0) := by
  obtain ⟨ls, h⟩ := g.eachLane_only (fun (o : LaneOut) x => x.setPreds o.pset) outs
  simp only [written, h]
  split
  · rw [Group.writeDst_fpctl]
  · rfl

/-- Settles O15: predicates lane by lane, and the union of the status flags. -/
theorem predicateAndFlagResults : Obligations.PredicateAndFlagResults := by
  intro i h ins outs s1 hg hpk hlen hok _
  obtain ⟨g, hgroup, hm⟩ := vecDone_group hg hpk i ins outs
  refine ⟨g, hgroup, fun j p hj hp => ?_, fun n hn => ?_⟩
  · rw [Fibre.pred, hm.preds hj]
    refine (h.g.written_pred _ _ hok.1 hj hp).trans ?_
    cases assoc (List.zip (ins.map (·.lane)) outs) j <;> rfl
  · have hsnd : (List.zip (ins.map (·.lane)) outs).map Prod.snd = outs := List.map_snd_zip (by simp [hlen])
    have hany : ((List.zip (ins.map (·.lane)) outs).any fun p => p.2.fl.getLsbD (n - 8)) =
        outs.any fun o => o.fl.getLsbD (n - 8) := by
      conv_rhs => rw [← hsnd, List.any_map]
      rfl
    have hzero : BitVec.getLsbD (0 : BitVec 6) (n - 8) = false := BitVec.getLsbD_zero
    rw [hm.fpctl, Group.written_fpctl, getLsbD_orFlags _ _ _ hn, getLsbD_foldl_flags, hzero, Bool.false_or, hany]

end Sys2Proof.Machine
end

section
/-!
SUPPORT. What reads through the caches that are not coherent leave as it was (R152, R197): of a fetch and of the
constant words of an instruction.
-/

namespace Sys2Proof.Machine

open Sys2Proof

variable (s : State)

/-! ### The clusters after an access at a home -/

/-- A cluster but for its count of pinned lines that found no way. -/
abbrev State.unpinned (s : State) (n : Nat) : Cluster := { s.clusterOf n with pinOvf := 0 }

@[simp] theorem State.choose_clusters (n : Nat) : (s.choose n).2.clusters = s.clusters := by
  unfold State.choose
  split <;> rfl

@[simp] theorem State.evictTo_clusters (p : L2Line → Bool) (n fuel : Nat) :
    (s.evictTo p n fuel).clusters = s.clusters := by
  induction fuel generalizing s with
  | zero => rfl
  | succ fuel ih =>
    have pick : ∀ m k : Nat, (if m = 0 then (0, s) else s.choose k).2.clusters = s.clusters := fun m k => by
      split
      · rfl
      · exact s.choose_clusters k
    simp only [State.evictTo]
    split
    · rfl
    · split
      · exact (ih _).trans (pick _ _)
      · exact pick _ _

theorem State.l2Enter_clusters (l : L2Line) : (s.l2Enter l).clusters = s.clusters := s.evictTo_clusters _ _ _

theorem State.allocate_clusters (l : L2Line) : (s.allocate l).clusters = s.clusters :=
  (State.l2Enter_clusters _ l).trans (s.evictTo_clusters _ _ _)

/-- Clusters are the same where their table and the time are. -/
theorem State.clusterOf_congr {s t : State} (hc : t.clusters = s.clusters) (hn : t.now = s.now) (n : Nat) :
    t.clusterOf n = s.clusterOf n := by
  rw [State.clusterOf, State.clusterOf, hc, hn]

theorem HomesOnly.now {s t : State} (h : HomesOnly s t) : t.now = s.now := by obtain ⟨_, _, _, _, _, rfl⟩ := h; rfl

/-- Placing a sector in the L2 changes of the clusters that count only. -/
theorem State.l2Place_unpinned (t : Trans) (w : Bool) (rank : Option Nat) (n : Nat) :
    (s.l2Place t w rank).unpinned n = s.unpinned n := by
  simp only [State.l2Place]
  split
  · rfl
  · split
    · rfl
    · split
      · split
        · rw [State.unpinned, State.updCluster_clusterOf]
          · split
            · next hn => rw [State.unpinned, hn]
            · rfl
          · exact fun _ => rfl
        · rw [State.unpinned, State.clusterOf_congr (s.l2Enter_clusters _) (s.l2Enter_only _).now]
      · split
        · rfl
        · rw [State.unpinned, State.clusterOf_congr (s.allocate_clusters _) (s.allocate_only _).now]

theorem State.touch_unpinned (t : Trans) (core : Nat) (pol : Policy) (n : Nat) :
    (s.touch t core pol).unpinned n = s.unpinned n :=
  State.l2Place_unpinned _ _ _ _ _

theorem badSector_unpinned (key n : Nat) : (badSector s key).2.unpinned n = s.unpinned n := by
  have hchoose := State.clusterOf_congr (s.choose_clusters 2) (s.choose_only 2).now n
  have hcases : (badSector s key).2.clusterOf n = s.clusterOf n := by
    unfold badSector
    split
    · split
      · next h => rw [h] at hchoose; exact hchoose
      · next h => rw [h] at hchoose; exact hchoose
    · rfl
  rw [State.unpinned, hcases]

theorem readHome_unpinned (asid : Nat) (t : Trans) (core k : Nat) (pol : Policy) (n : Nat) :
    (readHome s asid t core k pol).2.unpinned n = s.unpinned n := by
  have hbad := badSector_unpinned s t.key n
  unfold readHome
  split
  · rfl
  · split
    · next h => rw [h] at hbad; exact hbad
    · next h => rw [h] at hbad; exact (State.touch_unpinned _ _ _ _ _).trans hbad

/-! ### The rest of the state -/

theorem SameButCaches.refl (core : Nat) : SameButCaches core s s := by
  constructor <;> intros <;> rfl

theorem SameButCaches.trans {core : Nat} {s t u : State} (h : SameButCaches core s t) (k : SameButCaches core t u) :
    SameButCaches core s u where
  now := k.now.trans h.now
  serial := k.serial.trans h.serial
  inputs := k.inputs.trans h.inputs
  mem := k.mem.trans h.mem
  cur := k.cur.trans h.cur
  groups := k.groups.trans h.groups
  teams := k.teams.trans h.teams
  ctxs := k.ctxs.trans h.ctxs
  crozs := k.crozs.trans h.crozs
  ops := k.ops.trans h.ops
  reqs := k.reqs.trans h.reqs
  replies := k.replies.trans h.replies
  echoes := k.echoes.trans h.echoes
  monitors := k.monitors.trans h.monitors
  notices := k.notices.trans h.notices
  due := k.due.trans h.due
  disturbed := k.disturbed.trans h.disturbed
  told := k.told.trans h.told
  unlocked := k.unlocked.trans h.unlocked
  stlb := k.stlb.trans h.stlb
  fabric := k.fabric.trans h.fabric
  host := k.host.trans h.host
  sec := k.sec.trans h.sec
  gv := k.gv.trans h.gv
  cores n hn := (k.cores n hn).trans (h.cores n hn)
  here := k.here.trans h.here
  clusters n := (k.clusters n).trans (h.clusters n)

/-- What a read at a home does. -/
theorem HomesOnly.sameButCaches {s t : State} (h : HomesOnly s t) (hc : ∀ n, t.unpinned n = s.unpinned n) (core : Nat) :
    SameButCaches core s t := by
  obtain ⟨_, _, _, _, _, rfl⟩ := h
  exact ⟨rfl, rfl, rfl, rfl, rfl, rfl, rfl, rfl, rfl, rfl, rfl, rfl, rfl, rfl, rfl, rfl, rfl, rfl, rfl, rfl, rfl, rfl,
    rfl, rfl, fun _ _ => rfl, rfl, hc⟩

theorem State.choose_sameButCaches (n core : Nat) : SameButCaches core s (s.choose n).2 :=
  (s.choose_only n).sameButCaches (fun k => by
    rw [State.unpinned, State.clusterOf_congr (s.choose_clusters n) (s.choose_only n).now]) core

theorem readHome_sameButCaches (asid : Nat) (t : Trans) (core n : Nat) (pol : Policy) :
    SameButCaches core s (readHome s asid t core n pol).2 :=
  (readHome_only s asid t core n pol).sameButCaches (readHome_unpinned s asid t core n pol) core

/-- A rewriting of a core that touches its two caches only. -/
def FillsCaches (f : Core → Core) : Prop :=
  ∀ k, ({ f k with ccache := [], icache := [] } : Core) = { k with ccache := [], icache := [] }

theorem State.updCore_sameButCaches (core : Nat) {f : Core → Core} (hf : FillsCaches f) :
    SameButCaches core s (s.updCore core f) := by
  have hcid : ∀ k, (f k).cid = k.cid := fun k => (congrArg Core.cid (hf k) : _)
  have hcore := fun n => s.updCore_coreOf core n f hcid
  exact ⟨rfl, rfl, rfl, rfl, rfl, rfl, rfl, rfl, rfl, rfl, rfl, rfl, rfl, rfl, rfl, rfl, rfl, rfl, rfl, rfl, rfl, rfl,
    rfl, rfl, fun n hn => (hcore n).trans (if_neg hn), by rw [hcore core, if_pos rfl]; exact hf _, fun _ => rfl⟩

/-- The part of a cached read that goes to the home. -/
def readThrough (core asid : Nat) (t : Trans) (n : Nat) (fill : List Byte → Core → Core) : HomeRead × State :=
  if lineMoving s t then (HomeRead.waits, s)
  else match readHome s asid t core n with
    | (.bytes l, s1) => (HomeRead.bytes l, s1.updCore core (fill (Mem.read s1.mem (t.key / 128 * 128) 128)))
    | r => r

/-- A cached read returns what the cache holds, or goes to the home, with a choice made before it or none. -/
theorem readCached_cases (core asid : Nat) (t : Trans) (n : Nat) (hit : Option (List Byte))
    (fill : List Byte → Core → Core) : ∃ u : State, (u = s ∨ u = (s.choose 2).2) ∧
      (readCached s core asid t n hit fill = readThrough u core asid t n fill ∨
        ∃ l, hit = some l ∧ readCached s core asid t n hit fill = (.bytes l, u)) := by
  cases hit with
  | none => exact ⟨s, .inl rfl, .inl rfl⟩
  | some l =>
    simp only [readCached]
    split
    · exact ⟨s, .inl rfl, .inr ⟨l, rfl, rfl⟩⟩
    · split
      · next h => exact ⟨_, .inr rfl, .inl (by rw [h]; rfl)⟩
      · next h => exact ⟨_, .inr rfl, .inr ⟨l, rfl, by rw [h]⟩⟩

theorem readThrough_sameButCaches (core asid : Nat) (t : Trans) (n : Nat) {fill : List Byte → Core → Core}
    (hf : ∀ l, FillsCaches (fill l)) : SameButCaches core s (readThrough s core asid t n fill).2 := by
  have hread := readHome_sameButCaches s asid t core n .normal
  rw [readThrough]
  split
  · exact .refl s core
  · split
    · next h => rw [h] at hread; exact hread.trans (State.updCore_sameButCaches _ core (hf _))
    · exact hread

/-- A cached read changes caches, and what a read at a home does. -/
theorem readCached_sameButCaches (core asid : Nat) (t : Trans) (n : Nat) (hit : Option (List Byte))
    {fill : List Byte → Core → Core} (hf : ∀ l, FillsCaches (fill l)) :
    SameButCaches core s (readCached s core asid t n hit fill).2 := by
  obtain ⟨u, hu, h⟩ := readCached_cases s core asid t n hit fill
  have hsame : SameButCaches core s u := by
    rcases hu with rfl | rfl
    · exact .refl u core
    · exact s.choose_sameButCaches 2 core
  rcases h with h | ⟨l, -, h⟩
  · rw [h]
    exact hsame.trans (readThrough_sameButCaches u core asid t n hf)
  · rw [h]
    exact hsame

theorem readConst_sameButCaches (core asid off n : Nat) (t : Trans) :
    SameButCaches core s (readConst s core asid off n t).2 :=
  readCached_sameButCaches s core asid t n _ fun _ _ => rfl

theorem readCode_sameButCaches (core asid va n : Nat) (t : Trans) :
    SameButCaches core s (readCode s core asid va n t).2 :=
  readCached_sameButCaches s core asid t n _ fun _ _ => rfl

/-- Reading the constant words of an instruction. -/
theorem readConsts_sameButCaches {h : Here} {l : List Nat} {consts : List (Nat × Word)} {s1 : State}
    (hr : readConsts s h l = .ok (consts, s1)) : SameButCaches h.c.core s s1 := by
  induction l generalizing s consts s1 with
  | nil =>
    obtain ⟨-, rfl⟩ : [] = consts ∧ s = s1 := by simpa [readConsts] using hr
    exact .refl s h.c.core
  | cons n l ih =>
    simp only [readConsts] at hr
    split at hr
    · cases hr
    · cases hr
    · next va t _ =>
      have hconst := fun off => readConst_sameButCaches s h.c.core h.t.asid off 4 t
      split at hr
      · cases hr
      · cases hr
      · cases hr
      · next s2 hread =>
        have hone := hconst (wbits h.g.cbase 16 4 * 65536 + (wbits h.g.cbase 2 14 * 4 + 4 * n))
        rw [hread] at hone
        split at hr
        · next hrest =>
          cases hr
          exact hone.trans (ih s2 hrest)
        · cases hr
        · cases hr

/-- Reading the operands of an instruction. -/
theorem Reads.sameButCaches {i : Instr} {s s1 : State} {h : Here} {ins : List LaneIn} (hr : Reads i s h ins s1) :
    SameButCaches h.c.core s s1 := by
  obtain ⟨consts, hr, -⟩ := hr
  exact readConsts_sameButCaches s hr

/-- Fetching a word. -/
theorem fetchWord_sameButCaches {core asid va lane : Nat} {user : Bool} {w : Word} {t : State}
    (h : fetchWord s core asid va lane user = .ok (w, t)) : SameButCaches core s t := by
  unfold fetchWord at h
  split at h
  · cases h
  · cases h
  · next tr _ =>
    have hcode := readCode_sameButCaches s core asid va 4 tr
    split at h
    · cases h
    · cases h
    · cases h
    · next hread =>
      rw [hread] at hcode
      cases h
      exact hcode

/-- A read at the home, where nothing is in its way, brings the bytes of memory. -/
theorem readThrough_bytes {core asid : Nat} {t : Trans} {n : Nat} {fill : List Byte → Core → Core}
    (hm : lineMoving s t = false) (hb : s.bad.contains (t.key / 128) = false) (hs : stale s asid t = false) :
    ∃ u, readThrough s core asid t n fill = (.bytes (Mem.read s.mem t.key n), u) := by
  have hbad : badSector s t.key = (false, s) := by
    rw [badSector, hb]
    rfl
  simp only [readThrough, hm, Bool.false_eq_true, if_false, readHome, hs, hbad]
  exact ⟨_, rfl⟩

/-- A word fetched is the word in memory, or an older one that the instruction cache holds. -/
theorem fetchWord_spec (core asid va lane : Nat) (user : Bool) (tr : Trans)
    (ht : translate s core asid va lane .fetch user = .ok tr) (hm : lineMoving s tr = false)
    (hb : s.bad.contains (tr.key / 128) = false) (hs : stale s asid tr = false) :
    ∃ w t, fetchWord s core asid va lane user = .ok (w, t) ∧
      (w = Mem.read32 s.mem tr.key ∨
        ∃ l, cacheFind (s.coreOf core).icache asid va 4 = some l ∧ w = BitVec.ofNat 32 (leNat l)) := by
  have hread : ∃ l t, readCode s core asid va 4 tr = (.bytes l, t) ∧
      (l = Mem.read s.mem tr.key 4 ∨ cacheFind (s.coreOf core).icache asid va 4 = some l) := by
    obtain ⟨u, hu, h⟩ := readCached_cases s core asid tr 4 (cacheFind (s.coreOf core).icache asid va 4)
      fun line k => { k with icache := cacheFill k.icache 512 asid va line }
    rcases h with h | ⟨l, hl, h⟩
    · have hhome : ∃ t, readThrough u core asid tr 4 (fun line k =>
          { k with icache := cacheFill k.icache 512 asid va line }) = (.bytes (Mem.read s.mem tr.key 4), t) := by
        rcases hu with rfl | rfl
        · exact readThrough_bytes u hm hb hs
        · exact readThrough_bytes (s.choose 2).2 hm hb hs
      obtain ⟨t, ht⟩ := hhome
      exact ⟨_, t, h.trans ht, .inl rfl⟩
    · exact ⟨l, u, h, .inr hl⟩
  obtain ⟨l, t, hread, hl⟩ := hread
  refine ⟨BitVec.ofNat 32 (leNat l), t, by simp only [fetchWord, ht, hread], ?_⟩
  rcases hl with rfl | hl
  · exact .inl rfl
  · exact .inr ⟨l, hl, rfl⟩

end Sys2Proof.Machine
end

section
/-!
Steps of the machine that execute a word (R35, R56, R197), and the statement of O3.
-/

namespace Sys2Proof.Machine

open Sys2Proof

/-- The words of one instruction, fetched after those before them, are run as that instruction. -/
theorem fetchFrom_run {c : Class} {h : Here} {i : Instr} {n : Nat} (ws : List Word) {pre : List Word} {s s2 : State}
    {m : Nat} (hne : ws ≠ []) (hm : ws.length ≤ m) (hf : fetched h pre.length ws.length s = some (ws, s2))
    (hd : decode c (pre ++ ws) = .ok (i, n))
    (hshort : ∀ k, pre.length < k → k < (pre ++ ws).length → decode c ((pre ++ ws).take k) = .error .illegalEncoding) :
    fetchFrom c h m pre s = .run i s2 := by
  induction ws generalizing pre s m with
  | nil => exact absurd rfl hne
  | cons w ws ih =>
    obtain ⟨m, rfl⟩ : ∃ k, m = k + 1 := ⟨m - 1, by simp only [List.length_cons] at hm; omega⟩
    simp only [List.length_cons, fetched] at hf
    split at hf
    · next w' s1 hw =>
      obtain ⟨⟨ws', s3⟩, hrest, heq⟩ := Option.map_eq_some_iff.mp hf
      obtain ⟨⟨rfl, rfl⟩, rfl⟩ : (w' = w ∧ ws' = ws) ∧ s3 = s2 := by simpa using heq
      simp only [fetchFrom, hw]
      cases ws' with
      | nil =>
        have hs : s1 = s3 := by simpa [fetched] using hrest
        rw [hd, hs]
      | cons x xs =>
        have hsplit : pre ++ w' :: x :: xs = (pre ++ [w']) ++ x :: xs := by simp
        have htake : decode c (pre ++ [w']) = .error .illegalEncoding := by
          have h := hshort (pre.length + 1) (by omega) (by simp)
          rwa [hsplit, List.take_left' (by simp)] at h
        rw [htake]
        refine ih (pre := pre ++ [w']) (by simp) (by simp only [List.length_cons] at hm ⊢; omega) ?_ (hsplit ▸ hd)
          fun k hk hlt => ?_
        · rw [List.length_append, List.length_singleton]
          exact hrest
        · rw [← hsplit] at hlt ⊢
          exact hshort k (by rw [List.length_append, List.length_singleton] at hk; omega) hlt
    · cases hf

/-- What a step does when a scheduler's word is the next move. -/
theorem step_word {s s1 : State} {core sched : Nat} (hb : s.sec.booted = true)
    (hi : enabledIntervalBoundary s = false) (hm : nextMove s = (some (.word core sched), s1)) :
    step s = keepingAreas s (wordStep s1 core sched) := by
  simp only [step, advanceMachine, nextOutcome, hb, hi, hm, Bool.not_true, Bool.false_eq_true, if_false, perform]

/-- Where no team is saved there is no save area to bring up to date. -/
theorem syncSaved_of_none_saved {before t : State} (h : ∀ q ∈ t.teams, q.phase ≠ .saved) :
    State.syncSaved before t = t := by
  have hfold : ∀ (l : List Team) (f : State → Team → State), (∀ q ∈ l, f t q = t) → l.foldl f t = t := by
    intro l f
    induction l with
    | nil => exact fun _ => rfl
    | cons q l ih =>
      intro hq
      rw [List.foldl_cons, hq q List.mem_cons_self]
      exact ih fun r hr => hq r (List.mem_cons_of_mem _ hr)
  refine hfold t.teams _ fun q hq => ?_
  simp [h q hq]

/-- Settles O3: the fetches of one instruction's words by induction over the words. -/
theorem stepExecutesDecodedInstruction : Obligations.StepExecutesDecodedInstruction := by
  refine ⟨?_, ?_, fun s t h => congrArg Host.Outcome.next (syncSaved_of_none_saved h), fetchWord_spec,
    fun s t core asid va lane user w h => fetchWord_sameButCaches s h⟩
  · intro s s1 s2 core sched pk h c ws i hb hi hm hpk hhere hact hcls hone hlen hf
    obtain ⟨hne, ⟨n, hd⟩, hshort⟩ := hone
    have hfetch : fetchInstr { s1 with cur := some pk } h = .run i s2 := by
      rw [fetchInstr, hcls]
      exact fetchFrom_run ws (pre := []) hne hlen hf hd hshort
    rw [step_word hb hi hm, wordStep, hpk]
    simp only [hhere, hact, if_false, hfetch]
  · intro s s1 core sched pk h hb hi hm hpk hhere hact
    rw [step_word hb hi hm, wordStep, hpk]
    simp only [hhere, hact, if_true]

end Sys2Proof.Machine
end

section
/-!
SUPPORT. Lanes of a mask and masks of lanes, the packet that issues, operations put in flight, and what stays the same
beside a packet's word.
-/

namespace Sys2Proof.Machine

open Sys2Proof

/-! ### Lanes and masks -/

theorem mem_lanesOf {m : BitVec 32} {j : Nat} : j ∈ lanesOf m ↔ j < 32 ∧ m.getLsbD j = true := by
  rw [lanesOf, List.mem_filter, List.mem_range]

theorem nodup_lanesOf (m : BitVec 32) : (lanesOf m).Nodup := List.nodup_range.filter _

theorem getLsbD_maskOf (l : List Nat) {j : Nat} (hj : j < 32) : (maskOf l).getLsbD j = decide (j ∈ l) := by
  have hone : ∀ i : Nat, ((1 : BitVec 32) <<< i).getLsbD j = decide (j = i) := fun i => by
    have hbit : BitVec.getLsbD (1 : BitVec 32) (j - i) = decide (j - i = 0) := by
      rw [show (1 : BitVec 32) = 1#32 from rfl, BitVec.getLsbD_one]
      simp
    rw [BitVec.getLsbD_shiftLeft, hbit]
    by_cases h : j < i
    · simp [h, h.ne]
    · simp only [hj, h, decide_true, decide_false, Bool.not_false, Bool.true_and]
      exact decide_eq_decide.mpr (by omega)
  have hfold : ∀ m : BitVec 32, (l.foldl (fun m i => m ||| (1 : BitVec 32) <<< i) m).getLsbD j =
      (m.getLsbD j || decide (j ∈ l)) := by
    induction l with
    | nil => simp
    | cons i l ih =>
      intro m
      rw [List.foldl_cons, ih, BitVec.getLsbD_or, hone, Bool.or_assoc]
      simp [List.mem_cons]
  exact (hfold 0).trans (by simp)

/-- A list keyed by lanes, each with what a function gives for it. -/
theorem assoc_map_self {α β : Type} [DecidableEq α] (l : List α) (f : α → β) (j : α) :
    assoc (l.map fun i => (i, f i)) j = if j ∈ l then some (f j) else none := by
  induction l with
  | nil => rfl
  | cons i l ih =>
    rw [List.map_cons, assoc_cons, ih]
    by_cases h : i = j
    · subst h; simp
    · simp [h, Ne.symm h]

theorem without_zero (m : BitVec 32) : without m 0 = m := BitVec.and_allOnes

@[simp] theorem Cur.minus_zero (c : Cur) : c.minus 0 = c := by
  rw [Cur.minus, without_zero]

/-! ### Operands of the lanes -/

/-- The lanes whose operands are read are the active ones, ascending. -/
theorem laneIns_lanes (s : State) (h : Here) (consts : List (Nat × Word)) (l : List Opd) :
    (laneIns s h consts l).map (·.lane) = lanesOf h.act := by
  refine List.ext_getElem (by simp [laneIns]) fun k _ _ => ?_
  simp [laneIns]

theorem Reads.lanes {i : Instr} {s s1 : State} {h : Here} {ins : List LaneIn} (hr : Reads i s h ins s1) :
    ins.map (·.lane) = lanesOf h.act := by
  obtain ⟨consts, -, rfl⟩ := hr
  exact laneIns_lanes s1 h consts _

/-- The operand of a lane by its number. -/
theorem laneOp_of_mem {ins : List LaneIn} (hnd : (ins.map (·.lane)).Nodup) {x : LaneIn} (hx : x ∈ ins) (k : Nat) :
    laneOp ins k x.lane = x.s k := by
  induction ins with
  | nil => cases hx
  | cons y ins ih =>
    obtain ⟨hy, hnd⟩ := List.nodup_cons.mp hnd
    rcases List.mem_cons.mp hx with rfl | hx
    · simp [laneOp]
    · have hne : y.lane ≠ x.lane := fun h => hy (List.mem_map.mpr ⟨x, hx, h.symm⟩)
      rw [← ih hnd hx, laneOp, laneOp, List.find?_cons_of_neg (by simpa using hne)]

/-- What the operands of the active lanes give, as a list over these lanes. -/
theorem Reads.map_lanes {i : Instr} {s s1 : State} {h : Here} {ins : List LaneIn} (hr : Reads i s h ins s1) {α : Type}
    (f : Dword → α) (k : Nat) :
    (ins.map fun x => (x.lane, f (x.s k))) = (lanesOf h.act).map fun j => (j, f (laneOp ins k j)) := by
  have hnd : (ins.map (·.lane)).Nodup := hr.lanes ▸ nodup_lanesOf h.act
  rw [← hr.lanes, List.map_map]
  refine List.map_congr_left fun x hx => ?_
  rw [Function.comp_apply, laneOp_of_mem hnd hx]

/-- Every active lane has its operands. -/
theorem Reads.mem_of_active {i : Instr} {s s1 : State} {h : Here} {ins : List LaneIn} (hr : Reads i s h ins s1)
    {j : Nat} (hj : j ∈ lanesOf h.act) : ∃ x ∈ ins, x.lane = j := by
  rw [← hr.lanes] at hj
  exact List.mem_map.mp hj

/-! ### The packet in hand -/

theorem State.here?_some {s : State} {h : Here} (hh : s.here? = some h) :
    s.cur = some h.c ∧ s.group? h.c.pk.gid = some h.g ∧ s.team? h.g.tid = some h.t := by
  unfold State.here? at hh
  split at hh
  · cases hh
  · next c hc =>
    split at hh
    · cases hh
    · next g hg =>
      obtain ⟨t, ht, rfl⟩ := Option.map_eq_some_iff.mp hh
      exact ⟨hc, hg, ht⟩

section
variable {i : Instr} {s : State} {h : Here}

theorem Issues.gid (hi : Issues i s h) : h.c.pk.gid = h.g.gid := by
  obtain ⟨-, hg, -⟩ := State.here?_some hi.here
  exact (by simpa using List.find?_some hg : h.g.gid = h.c.pk.gid).symm

theorem Issues.group (hi : Issues i s h) : s.group? h.g.gid = some h.g := by
  obtain ⟨-, hg, -⟩ := State.here?_some hi.here
  exact hi.gid ▸ hg

theorem Issues.team (hi : Issues i s h) : s.team? h.g.tid = some h.t := (State.here?_some hi.here).2.2

theorem Issues.tid (hi : Issues i s h) : h.t.tid = h.g.tid := by simpa using List.find?_some hi.team

end

/-! ### What stays the same -/

theorem SameElse.refl (s : State) (h : Here) : SameElse s s h :=
  ⟨rfl, rfl, rfl, rfl, rfl, rfl, rfl, rfl, rfl, fun _ _ => rfl, fun _ _ => rfl⟩

theorem SameElse.trans {s t u : State} {h : Here} (p : SameElse s t h) (q : SameElse t u h) : SameElse s u h where
  mem := q.mem.trans p.mem
  teams := q.teams.trans p.teams
  ctxs := q.ctxs.trans p.ctxs
  clusters := q.clusters.trans p.clusters
  crozs := q.crozs.trans p.crozs
  host := q.host.trans p.host
  sec := q.sec.trans p.sec
  now := q.now.trans p.now
  inputs := q.inputs.trans p.inputs
  cores c hc := (q.cores c hc).trans (p.cores c hc)
  groups n hn := (q.groups n hn).trans (p.groups n hn)

/-- The packet's own group rewritten. -/
theorem State.updGroup_sameElse (s : State) (h : Here) (f : Group → Group) (hf : ∀ g, (f g).gid = g.gid) :
    SameElse s (s.updGroup h.g.gid f) h :=
  ⟨rfl, rfl, rfl, rfl, rfl, rfl, rfl, rfl, rfl, fun _ _ => rfl, fun _ hn => s.updGroup_group?_other hn f hf⟩

theorem PacketMoves.sameElse {c : Cur} {p : Nat → Fibre → Addr} {r : Nat → Fibre → BitVec 4} {s t : State} {h : Here}
    (hm : PacketMoves c p r s t) (hgid : c.pk.gid = h.g.gid) (hcore : c.core = h.c.core) : SameElse s t h := by
  have hcores := hm.cores
  have hothers := hm.others
  rw [hcore] at hcores
  rw [hgid] at hothers
  obtain ⟨gs, ks, os, rfl⟩ := hm.only
  exact ⟨rfl, rfl, rfl, rfl, rfl, rfl, rfl, rfl, rfl, hcores, hothers⟩

/-! ### Operations -/

theorem SameOps.refl (s : State) : SameOps s s := rfl

theorem SameOps.trans {s t u : State} (h : SameOps s t) (k : SameOps t u) : SameOps s u := Eq.trans k h

theorem SameOps.length {s t : State} (h : SameOps s t) : t.ops.length = s.ops.length := by
  simpa using congrArg List.length h

/-- An operation of a packet's word. -/
structure OpOf (i : Instr) (h : Here) (o : Op) : Prop where
  core : o.core = h.c.core
  gid : o.gid = h.g.gid
  tid : o.tid = h.t.tid
  asid : o.asid = h.t.asid
  user : o.user = h.user
  pc : o.pc = h.first.pc
  len : o.len = i.words

/-- An operation that is put in flight is the last of them, whatever fibres go on past operations afterwards. -/
theorem starts_of {i : Instr} {h : Here} {s u v : State} {o : Op} (ho : OpOf i h o) (hu : SameOps s u)
    (hserial : u.serial = s.serial) (hv : SameOps (u.addOp o) v) :
    ∃ p, Starts i h s v p ∧ ({ p with still := 0 } : Op) = { o with id := s.serial, still := 0 } := by
  have hops : v.ops.map (fun o => ({ o with still := 0 } : Op)) =
      s.ops.map (fun o => ({ o with still := 0 } : Op)) ++ [{ o with id := s.serial, still := 0 }] := by
    refine Eq.trans hv ?_
    simp only [SameOps] at hu
    simp only [State.addOp, List.map_append, hu, hserial]
    rfl
  have hne : v.ops ≠ [] := by
    intro hnil
    rw [hnil] at hops
    simp at hops
  obtain ⟨l, p, hl⟩ : ∃ l p, v.ops = l ++ [p] := ⟨_, _, (List.dropLast_append_getLast hne).symm⟩
  rw [hl, List.map_append, List.map_singleton] at hops
  obtain ⟨hbefore, hlast⟩ := List.append_inj' hops rfl
  obtain hlast : ({ p with still := 0 } : Op) = { o with id := s.serial, still := 0 } := by simpa using hlast
  refine ⟨p, ⟨by rw [hl, List.getLast?_concat], by rw [hl, List.dropLast_concat, hbefore], ?_, ?_,
    ?_, ?_, ?_, ?_, ?_, ?_⟩, hlast⟩
  · exact (congrArg Op.id hlast : _)
  · exact (congrArg Op.core hlast : _).trans ho.core
  · exact (congrArg Op.gid hlast : _).trans ho.gid
  · exact (congrArg Op.tid hlast : _).trans ho.tid
  · exact (congrArg Op.asid hlast : _).trans ho.asid
  · exact (congrArg Op.user hlast : _).trans ho.user
  · exact (congrArg Op.pc hlast : _).trans ho.pc
  · exact (congrArg Op.len hlast : _).trans ho.len

/-- An operation that counts against no flag changes no group. -/
theorem State.addOp_noFlags (s : State) (o : Op) (hf : o.flags = []) :
    s.addOp o = { s with ops := s.ops ++ [{ o with id := s.serial }], serial := s.serial + 1 } := by
  have hgroups : s.updGroup o.gid (fun g => o.flags.foldl Group.incFlag g) = s := by
    simp [State.updGroup, hf]
  rw [State.addOp, hgroups]

end Sys2Proof.Machine
end

section
/-!
Transfers, calls and returns (R52, R80 to R82), and the statement of O26.
-/

namespace Sys2Proof.Machine

open Sys2Proof

/-! ### Transfers -/

/-- Where each fibre stands after a transfer of the lanes of a list. -/
theorem standsAt_of_moves {h : Here} {L : List Nat} {f : Nat → Addr} {g k : Group}
    (hm : Moves (toPc h.c.pk.lanes (L.map fun j => (j, f j))) (toRem h.c.pk.lanes) g k)
    (hg : ∀ j, j < 32 → (g.lane j).pc = (h.g.lane j).pc ∧ (g.lane j).rem = (h.g.lane j).rem) :
    StandsAt h (fun j => if j ∈ L then f j else (h.g.lane j).clauseEnd) k := by
  intro j hj
  obtain ⟨hpc, hrem⟩ := hg j hj
  rw [hm.pc hj, hm.rem hj, toPc, toRem, assoc_map_self, hpc, hrem, Fibre.clauseEnd, hpc, hrem]
  refine ⟨?_, rfl⟩
  by_cases hL : j ∈ L
  · simp only [hL, if_true, Option.getD_some]
  · simp only [hL, if_false, Option.getD_none]

/-- A target that is a clause start is known to be one. -/
theorem targetWaits_of_clauseStart {s : State} {t : Team} {v : Nat} (h : clauseStart s t v = true) :
    targetWaits s t v = false := by
  have hsome : clauseStart? s t.asid v = some true := by simpa [clauseStart] using h
  simp [targetWaits, hsome]

section
variable {s : State} {h : Here} {L : List Nat} {tgt : Nat → Nat}

theorem any_targetWaits (hstart : ∀ j ∈ L, clauseStart s h.t (tgt j) = true) :
    ((L.map fun j => (j, tgt j)).any fun p => targetWaits s h.t p.2) = false := by
  rw [List.any_map, List.any_eq_false]
  intro j hj
  rw [Function.comp_apply, targetWaits_of_clauseStart (hstart j hj)]
  exact Bool.false_ne_true

theorem badTargets_nil (hstart : ∀ j ∈ L, clauseStart s h.t (tgt j) = true) :
    badTargets s h (L.map fun j => (j, tgt j)) = [] := by
  rw [badTargets, List.filterMap_map, List.filterMap_eq_nil_iff]
  intro j hj
  rw [Function.comp_apply, if_pos (hstart j hj)]

/-- With no fault a transfer is one of the whole packet. -/
theorem transferSome_noFault (s : State) (h : Here) (targets : List (Nat × Addr)) (bad : List (List (Nat × FaultRec)))
    (hbad : ∀ l ∈ bad, l = []) : transferSome s h targets bad = s.transfer h.c targets := by
  have hnone : (bad.flatMap fun l => l.map (·.1)) = [] := by
    rw [List.flatMap_eq_nil_iff]
    intro l hl
    rw [hbad l hl, List.map_nil]
  have hfold : ∀ u : State, bad.foldl (fun s l => match l with
      | [] => s
      | (_, f) :: _ => s.takeTrap h.g.gid (maskOf (l.map (·.1))) f l) u = u := by
    intro u
    clear hnone
    induction bad generalizing u with
    | nil => rfl
    | cons l bad ih =>
      rw [List.foldl_cons, hbad l List.mem_cons_self]
      exact ih (fun m hm => hbad m (List.mem_cons_of_mem _ hm)) u
  have hlanes : maskOf (bad.flatMap fun l => l.map (·.1)) = 0 := congrArg maskOf hnone
  simp only [transferSome]
  rw [hlanes, Cur.minus_zero]
  exact hfold _

/-- A jump to clause starts. -/
theorem jump_transfer (hstart : ∀ j ∈ L, clauseStart s h.t (tgt j) = true) :
    jump s h (L.map fun j => (j, tgt j)) = s.transfer h.c (L.map fun j => (j, BitVec.ofNat 56 (tgt j))) := by
  rw [jump, any_targetWaits hstart, if_neg Bool.false_ne_true, badTargets_nil hstart]
  simp only [List.any_nil, Bool.not_false, List.filter_true, List.map_map]
  exact transferSome_noFault s h _ _ fun l hl => List.mem_singleton.mp hl

end

/-- What a transfer of the packet's lanes leaves of the machine. -/
theorem transfer_spec {i : Instr} {s s1 : State} {h : Here} (hi : Issues i s h) (hs : SameButCaches h.c.core s s1)
    (L : List Nat) (f : Nat → Addr) :
    ∃ g, SameElse s1 (s1.transfer h.c (L.map fun j => (j, f j))) h ∧
      (s1.transfer h.c (L.map fun j => (j, f j))).ops.length = s.ops.length ∧
      (s1.transfer h.c (L.map fun j => (j, f j))).group? h.g.gid = some g ∧ SameRegs h.g g ∧ FlagsRise h.g g [] ∧
      StandsAt h (fun j => if j ∈ L then f j else (h.g.lane j).clauseEnd) g := by
  have hm := s1.transfer_moves h.c (L.map fun j => (j, f j))
  have hgroup : s1.group? h.c.pk.gid = some h.g := by
    rw [State.group?, hs.groups, hi.gid]
    exact hi.group
  obtain ⟨g, hg, hmoves⟩ := hm.own _ hgroup
  exact ⟨g, hm.sameElse hi.gid rfl, by rw [hm.ops.length, hs.ops], hi.gid ▸ hg, hmoves.sameRegs, hmoves.flagsRise,
    standsAt_of_moves hmoves fun _ _ => ⟨rfl, rfl⟩⟩

/-- The lanes that take a branch: active ones whose predicate holds. -/
theorem mem_taken {h : Here} {p : BitVec 6} {neg : Bool} {j : Nat} :
    j ∈ h.taken p neg ↔ j < 32 ∧ (h.act.getLsbD j && ((h.g.lane j).pred p.toNat != neg)) = true := by
  rw [Here.taken, List.mem_filter, mem_lanesOf, Bool.and_eq_true, and_assoc]

/-- A condition on lanes is one on the list of them. -/
theorem StandsAt.congr {h : Here} {f k : Nat → Addr} {g : Group} (hs : StandsAt h f g) (hf : ∀ j, j < 32 → f j = k j) :
    StandsAt h k g := fun j hj => hf j hj ▸ hs j hj

theorem nop_spec (s : State) (h : Here) (hi : Issues .nop s h) :
    ∃ t g, exec .nop s = .next t ∧ SameElse s t h ∧ t.ops.length = s.ops.length ∧ t.group? h.g.gid = some g ∧
      SameRegs h.g g ∧ StandsOn h 1 g ∧ FlagsRise h.g g [] := by
  have hexec : exec .nop s = .next (s.advance h.c 1) := by
    show execNop s = _
    exact issue_next hi _
  have hm := s.advance_moves h.c 1
  obtain ⟨g, hg, hmoves⟩ := hm.own _ (hi.gid ▸ hi.group)
  exact ⟨_, g, hexec, hm.sameElse hi.gid rfl, hm.ops.length, hi.gid ▸ hg, hmoves.sameRegs,
    fun j hj => ⟨hmoves.pc hj, hmoves.rem hj⟩, hmoves.flagsRise⟩

theorem bra_spec (p : BitVec 6) (neg : Bool) (off : BitVec 19) (s : State) (h : Here)
    (hi : Issues (.bra p neg off) s h) :
    let goes := fun j => h.act.getLsbD j && ((h.g.lane j).pred p.toNat != neg)
    ((∃ j, j < 32 ∧ goes j = true) → clauseStart s h.t (h.target off) = true) →
    ∃ t g, exec (.bra p neg off) s = .next t ∧ SameElse s t h ∧ t.ops.length = s.ops.length ∧
      t.group? h.g.gid = some g ∧ SameRegs h.g g ∧ FlagsRise h.g g [] ∧
      StandsAt h (fun j => if goes j then h.first.header + off.signExtend 56 * 4 else (h.g.lane j).clauseEnd) g := by
  intro goes hstart
  have hjump := jump_transfer (s := s) (h := h) (L := h.taken p neg) (tgt := fun _ => h.target off)
    fun j hj => hstart ⟨j, mem_taken.mp hj⟩
  obtain ⟨g, helse, hops, hg, hregs, hflags, hat⟩ := transfer_spec hi (.refl s _) (h.taken p neg)
    fun _ => BitVec.ofNat 56 (h.target off)
  have hexec : exec (.bra p neg off) s = .next (s.transfer h.c
      ((h.taken p neg).map fun j => (j, BitVec.ofNat 56 (h.target off)))) := by
    show execBra p neg off s = _
    rw [execBra, issue_next hi, hjump]
  refine ⟨_, g, hexec, helse, hops, hg, hregs, hflags, hat.congr fun j hj => ?_⟩
  have hmem : j ∈ h.taken p neg ↔ goes j = true := mem_taken.trans (and_iff_right hj)
  simp only [hmem, BitVec.ofNat_toNat, BitVec.setWidth_eq]

theorem brx_spec (a : Src) (s s1 : State) (h : Here) (ins : List LaneIn) (hi : Issues (.brx a) s h)
    (hr : Reads (.brx a) s h ins s1) (hstart : ∀ x ∈ ins, clauseStart s1 h.t (x.s 0).toNat = true) :
    ∃ t g, exec (.brx a) s = .next t ∧ SameElse s1 t h ∧ t.ops.length = s.ops.length ∧ t.group? h.g.gid = some g ∧
      SameRegs h.g g ∧ FlagsRise h.g g [] ∧
      StandsAt h (fun j => if h.act.getLsbD j then (laneOp ins 0 j).setWidth 56 else (h.g.lane j).clauseEnd) g := by
  have hnd : (ins.map (·.lane)).Nodup := hr.lanes ▸ nodup_lanesOf h.act
  have hjump := jump_transfer (s := s1) (h := h) (L := lanesOf h.act) (tgt := fun j => (laneOp ins 0 j).toNat)
    fun j hj => by
      obtain ⟨x, hx, rfl⟩ := hr.mem_of_active hj
      rw [laneOp_of_mem hnd hx]
      exact hstart x hx
  rw [← hr.map_lanes BitVec.toNat] at hjump
  obtain ⟨g, helse, hops, hg, hregs, hflags, hat⟩ := transfer_spec hi hr.sameButCaches (lanesOf h.act)
    fun j => BitVec.ofNat 56 (laneOp ins 0 j).toNat
  have hexec : exec (.brx a) s = .next (s1.transfer h.c
      ((lanesOf h.act).map fun j => (j, BitVec.ofNat 56 (laneOp ins 0 j).toNat))) := by
    show execBrx a s = _
    rw [execBrx, issue_next hi, withOperands_reads hr, hjump]
  refine ⟨_, g, hexec, helse, hops, hg, hregs, hflags, hat.congr fun j hj => ?_⟩
  have hmem : j ∈ lanesOf h.act ↔ h.act.getLsbD j = true := mem_lanesOf.trans (and_iff_right hj)
  simp only [hmem]
  rfl

/-! ### Calls -/

/-- The stores that a packet's sectors hold are those that entered. -/
theorem mem_sectorEntries (rel : Option Scope) (recs : List StoreRec) (r : StoreRec) :
    (∃ e ∈ sectorEntries rel recs, r ∈ e.stores) ↔ r ∈ recs := by
  induction recs using List.reverseRecOn with
  | nil => simp [sectorEntries]
  | append_singleton recs q ih =>
    rw [List.mem_append, List.mem_singleton, ← ih]
    have hlast : sectorEntries rel (recs ++ [q]) =
        if (sectorEntries rel recs).any fun e => e.stores.any fun x => x.sector == q.sector then
          (sectorEntries rel recs).map fun e =>
            if e.stores.any fun x => x.sector == q.sector then { e with stores := e.stores ++ [q] } else e
        else sectorEntries rel recs ++ [{ stores := [q], rel := rel }] := by
      rw [sectorEntries, List.foldl_append]
      rfl
    rw [hlast]
    generalize sectorEntries rel recs = es
    split
    · next hany =>
      obtain ⟨e, he, hmeets⟩ := List.any_eq_true.mp hany
      constructor
      · rintro ⟨k, hk, hr⟩
        obtain ⟨d, hd, rfl⟩ := List.mem_map.mp hk
        split at hr
        · rcases List.mem_append.mp hr with hr | hr
          · exact .inl ⟨d, hd, hr⟩
          · exact .inr (List.mem_singleton.mp hr)
        · exact .inl ⟨d, hd, hr⟩
      · rintro (⟨d, hd, hr⟩ | rfl)
        · refine ⟨_, List.mem_map_of_mem hd, ?_⟩
          split
          · exact List.mem_append_left _ hr
          · exact hr
        · refine ⟨_, List.mem_map_of_mem he, ?_⟩
          rw [if_pos hmeets]
          exact List.mem_append_right _ List.mem_cons_self
    · simp only [List.mem_append, List.mem_singleton, or_and_right, exists_or, exists_eq_left]

/-- A group whose lanes of a list have pushed a return address. -/
def Group.called (L : List Nat) (es : List SqEntry) (g : Group) : Group :=
  { (g.updLanes (maskOf L) fun _ x => { x with sp := x.sp - 8 }) with sq := g.sq ++ es }

theorem Group.called_lane (L : List Nat) (es : List SqEntry) (g : Group) {j : Nat} (hj : j < 32) :
    (g.called L es).lane j = { g.lane j with sp := (g.lane j).sp - if j ∈ L then 8 else 0 } := by
  refine (g.updLanes_lane (maskOf L) _ j hj).trans ?_
  rw [getLsbD_maskOf L hj]
  by_cases hL : j ∈ L
  · simp only [hL, decide_true, if_true]
  · rw [if_neg (by simpa using hL), if_neg hL]
    exact (congrArg (fun sp => ({ g.lane j with sp := sp } : Fibre)) (BitVec.sub_zero (g.lane j).sp)).symm

/-- The operation of the calls' stores. -/
def callOp (s : State) (h : Here) (i : Instr) (L : List Nat) (ts : List (Nat × Nat × Trans)) : Op :=
  { mkOp i h s (.store .normal none) (accsOf ts (fun _ => 0) fun _ => 0) with
    flags := [], lanes := maskOf L, still := 0 }

/-- The state in which the lanes of a list have pushed their return addresses. -/
def pushed (s : State) (h : Here) (i : Instr) (L : List Nat) (es : List SqEntry)
    (ts : List (Nat × Nat × Trans)) : State :=
  if L.isEmpty then s.updGroup h.g.gid (Group.called L es)
  else (s.updGroup h.g.gid (Group.called L es)).addOp (callOp s h i L ts)

theorem pushed_only (s : State) (h : Here) (i : Instr) (L : List Nat) (es : List SqEntry)
    (ts : List (Nat × Nat × Trans)) :
    ∃ os n, pushed s h i L es ts = { s.updGroup h.g.gid (Group.called L es) with ops := os, serial := n } := by
  rw [pushed]
  split
  · exact ⟨_, _, rfl⟩
  · exact ⟨_, _, State.addOp_noFlags _ _ rfl⟩

section
variable {s : State} {h : Here} {i : Instr} {L : List Nat} {tgt : Nat → Nat} {ts : List (Nat × Nat × Trans)}

/-- Calls of lanes whose targets are clause starts, and whose stacks and accesses have room. -/
theorem callTo_transfer (hstart : ∀ j ∈ L, clauseStart s h.t (tgt j) = true)
    (hsp : ∀ j ∈ L, (h.g.lane j).stackLo.toNat + 8 ≤ (h.g.lane j).sp.toNat)
    (hacc : AccessOk s h .global 8 .store true (L.map fun j => (j, ((h.g.lane j).sp - 8).toNat)) ts)
    (hot : otRoom s h.c.core (accsOf ts (fun _ => 0) fun _ => 0) = true) {es : List SqEntry}
    (hes : es = sectorEntries none (storeRecs s.serial false ts fun _ => leBytes 8 h.first.clauseEnd.toNat))
    (hsq : sqRoom h.g es = true) :
    callTo s h i (L.map fun j => (j, tgt j)) =
      (pushed s h i L es ts).transfer h.c (L.map fun j => (j, BitVec.ofNat 56 (tgt j))) := by
  subst hes
  have hlow : ((L.map fun j => (j, tgt j)).filter fun p =>
      decide ((h.g.lane p.1).sp.toNat < 8 + (h.g.lane p.1).stackLo.toNat)) = [] := by
    rw [List.filter_eq_nil_iff]
    intro p hp
    obtain ⟨j, hj, rfl⟩ := List.mem_map.mp hp
    have := hsp j hj
    simp only [decide_eq_true_eq, not_lt]
    omega
  rw [callTo, any_targetWaits hstart, if_neg Bool.false_ne_true, badTargets_nil hstart]
  simp only [List.any_nil, Bool.not_false, List.filter_true, hlow, List.map_nil, List.map_map, Function.comp_def]
  rw [withAccess_ok hacc]
  simp only [hot, hsq, Bool.not_true, Bool.or_self, Bool.false_eq_true, if_false]
  refine (transferSome_noFault _ h _ _ fun l hl => ?_).trans ?_
  · simpa using hl
  · simp only [List.map_id', List.isEmpty_map]
    rfl

end

/-- What calls leave of the machine. -/
theorem call_spec {i : Instr} {s s1 : State} {h : Here} (hi : Issues i s h) (hs : SameButCaches h.c.core s s1)
    (L : List Nat) (f : Nat → Addr) (es : List SqEntry) (ts : List (Nat × Nat × Trans)) :
    ∃ t g, t = (pushed s1 h i L es ts).transfer h.c (L.map fun j => (j, f j)) ∧ SameElse s1 t h ∧
      t.group? h.g.gid = some g ∧ SameRegs h.g g ∧ FlagsRise h.g g [] ∧
      StandsAt h (fun j => if j ∈ L then f j else (h.g.lane j).clauseEnd) g ∧
      (∀ j, j < 32 → (g.lane j).sp = (h.g.lane j).sp - (if j ∈ L then 8 else 0) ∧ (g.lane j).fp = (h.g.lane j).fp) ∧
      g.sq = h.g.sq ++ es ∧
      (L ≠ [] → ∃ o, Starts i h s t o ∧ o.kind = .store .normal none ∧ o.flags = []) := by
  have hm := (pushed s1 h i L es ts).transfer_moves h.c (L.map fun j => (j, f j))
  have hgroup : s1.group? h.g.gid = some h.g := by
    rw [State.group?, hs.groups]
    exact hi.group
  have hcalled := State.updGroup_group?_same hgroup (Group.called L es) fun _ => rfl
  obtain ⟨os, n, hpushed⟩ := pushed_only s1 h i L es ts
  have helse : SameElse s1 (pushed s1 h i L es ts) h := by
    rw [hpushed]
    obtain ⟨⟩ := s1.updGroup_sameElse h (Group.called L es) fun _ => rfl
    constructor <;> assumption
  have hown : (pushed s1 h i L es ts).group? h.c.pk.gid = some (h.g.called L es) := by
    rw [hpushed, hi.gid]
    exact hcalled
  obtain ⟨g, hg, hmoves⟩ := hm.own _ hown
  have hlane := fun j (hj : j < 32) => h.g.called_lane L es hj
  refine ⟨_, g, rfl, helse.trans (hm.sameElse hi.gid rfl), hi.gid ▸ hg, ⟨hmoves.scal, hmoves.fpctl, fun j hj => ?_,
    fun j hj => ?_⟩, fun n hn => hmoves.flagsRise n hn, standsAt_of_moves hmoves fun j hj => ?_, fun j hj => ?_,
    hmoves.sq, fun hL => ?_⟩
  · rw [hmoves.regs hj, hlane j hj]
  · rw [hmoves.preds hj, hlane j hj]
  · rw [hlane j hj]
    exact ⟨rfl, rfl⟩
  · rw [hmoves.keeps (·.sp) (fun _ _ _ _ _ _ _ _ => rfl) hj, hmoves.keeps (·.fp) (fun _ _ _ _ _ _ _ _ => rfl) hj,
      hlane j hj]
    exact ⟨rfl, rfl⟩
  · have hadd : pushed s1 h i L es ts = (s1.updGroup h.g.gid (Group.called L es)).addOp (callOp s1 h i L ts) := by
      rw [pushed, if_neg (by simpa using hL)]
    have hops : SameOps s (s1.updGroup h.g.gid (Group.called L es)) := by
      rw [SameOps, State.updGroup_ops, hs.ops]
    obtain ⟨o, ho, hsame⟩ := starts_of (i := i) (h := h) (o := callOp s1 h i L ts)
      ⟨rfl, rfl, rfl, rfl, rfl, rfl, rfl⟩ hops hs.serial
      (v := (pushed s1 h i L es ts).transfer h.c (L.map fun j => (j, f j))) (hadd ▸ hm.ops)
    exact ⟨o, ho, (congrArg Op.kind hsame : _), (congrArg Op.flags hsame : _)⟩

/-- What a call leaves of the fibres that go, to their targets, where `s1` is the state after the operands are read. -/
def CallLeaves (i : Instr) (s s1 : State) (h : Here) (goes : Nat → Bool) (target : Nat → Addr) : Prop :=
  ∀ ts, (∀ j, j < 32 → goes j = true → clauseStart s1 h.t (target j).toNat = true ∧
      (h.g.lane j).stackLo.toNat + 8 ≤ (h.g.lane j).sp.toNat) →
    AccessOk s1 h .global 8 .store true
      (((lanesOf h.act).filter goes).map fun j => (j, ((h.g.lane j).sp - 8).toNat)) ts →
    let recs := storeRecs s.serial false ts fun _ => leBytes 8 h.first.clauseEnd.toNat
    otRoom s1 h.c.core (accsOf ts (fun _ => 0) fun _ => 0) = true → sqRoom h.g (sectorEntries none recs) = true →
    ∃ t g es, exec i s = .next t ∧ SameElse s1 t h ∧ t.group? h.g.gid = some g ∧ SameRegs h.g g ∧ FlagsRise h.g g [] ∧
      StandsAt h (fun j => if goes j then target j else (h.g.lane j).clauseEnd) g ∧
      (∀ j, j < 32 → (g.lane j).sp = (h.g.lane j).sp - (if goes j then 8 else 0) ∧ (g.lane j).fp = (h.g.lane j).fp) ∧
      g.sq = h.g.sq ++ es ∧ (∀ r, (∃ e ∈ es, r ∈ e.stores) ↔ r ∈ recs) ∧
      ((∃ j, j < 32 ∧ goes j = true) → ∃ o, Starts i h s t o ∧ o.kind = .store .normal none ∧ o.flags = [])

/-- A word that does the calls of the active lanes that go. -/
theorem callLeaves_of_callTo {i : Instr} {s s1 : State} {h : Here} (hi : Issues i s h)
    (hs : SameButCaches h.c.core s s1)
    {L : List Nat} {goes : Nat → Bool} {target : Nat → Addr} {tgt : Nat → Nat}
    (hL : L = (lanesOf h.act).filter goes) (hact : ∀ j, goes j = true → h.act.getLsbD j = true)
    (htgt : ∀ j ∈ L, tgt j = (target j).toNat) (hexec : exec i s = .next (callTo s1 h i (L.map fun j => (j, tgt j)))) :
    CallLeaves i s s1 h goes target := by
  intro ts hgo hacc recs hot hsq
  have hmem : ∀ j, j < 32 → (j ∈ L ↔ goes j = true) := fun j hj => by
    rw [hL, List.mem_filter, mem_lanesOf]
    exact ⟨fun h => h.2, fun h => ⟨⟨hj, hact j h⟩, h⟩⟩
  have hlt : ∀ j ∈ L, j < 32 := fun j hj => by
    rw [hL, List.mem_filter, mem_lanesOf] at hj
    exact hj.1.1
  have hready : ∀ j ∈ L, _ := fun j hj => hgo j (hlt j hj) ((hmem j (hlt j hj)).mp hj)
  obtain ⟨t, g, ht, helse, hg, hregs, hflags, hat, hsp, hqueue, hstarts⟩ :=
    call_spec hi hs L (fun j => BitVec.ofNat 56 (tgt j)) (sectorEntries none recs) ts
  have hcall : exec i s = .next t := by
    rw [hexec, ht, callTo_transfer (fun j hj => htgt j hj ▸ (hready j hj).1) (fun j hj => (hready j hj).2)
      (hL ▸ hacc) hot
      (by rw [hs.serial]) hsq]
  refine ⟨t, g, _, hcall, helse, hg, hregs, hflags, hat.congr fun j hj => ?_, fun j hj => ?_, hqueue,
    mem_sectorEntries none recs, ?_⟩
  · by_cases hgoes : goes j = true
    · rw [if_pos ((hmem j hj).mpr hgoes), if_pos hgoes, htgt j ((hmem j hj).mpr hgoes), BitVec.ofNat_toNat,
        BitVec.setWidth_eq]
    · rw [if_neg (fun h => hgoes ((hmem j hj).mp h)), if_neg hgoes]
  · have h := hsp j hj
    simpa only [hmem j hj] using h
  · rintro ⟨j, hj, hgoes⟩
    exact hstarts (List.ne_nil_of_mem ((hmem j hj).mpr hgoes))

theorem call_leaves (p : BitVec 6) (neg : Bool) (off : BitVec 19) (s : State) (h : Here)
    (hi : Issues (.call p neg off) s h) :
    CallLeaves (.call p neg off) s s h (fun j => h.act.getLsbD j && ((h.g.lane j).pred p.toNat != neg))
      fun _ => h.first.header + off.signExtend 56 * 4 := by
  have hexec : exec (.call p neg off) s =
      .next (callTo s h (.call p neg off) ((h.taken p neg).map fun j => (j, h.target off))) := by
    show execCall p neg off s = _
    exact issue_next hi _
  refine callLeaves_of_callTo hi (.refl s _) (List.filter_congr fun j hj => ?_)
    (fun _ hj => (Bool.and_eq_true_iff.mp hj).1)
    (fun _ _ => rfl) hexec
  rw [(mem_lanesOf.mp hj).2, Bool.true_and]

theorem callx_leaves (a : Src) (s s1 : State) (h : Here) (ins : List LaneIn) (hi : Issues (.callx a) s h)
    (hr : Reads (.callx a) s h ins s1) (hin : ∀ x ∈ ins, (x.s 0).toNat < 2 ^ 56) :
    CallLeaves (.callx a) s s1 h (fun j => h.act.getLsbD j) fun j => (laneOp ins 0 j).setWidth 56 := by
  have hexec : exec (.callx a) s =
      .next (callTo s1 h (.callx a) ((lanesOf h.act).map fun j => (j, (laneOp ins 0 j).toNat))) := by
    show execCallx a s = _
    rw [execCallx, issue_next hi, withOperands_reads hr, hr.map_lanes BitVec.toNat]
  refine callLeaves_of_callTo hi hr.sameButCaches
    (List.filter_eq_self.mpr fun j hj => (mem_lanesOf.mp hj).2).symm (fun _ hj => hj) (fun j hj => ?_) hexec
  obtain ⟨x, hx, rfl⟩ := hr.mem_of_active hj
  rw [laneOp_of_mem (hr.lanes ▸ nodup_lanesOf h.act) hx, BitVec.toNat_setWidth, Nat.mod_eq_of_lt (hin x hx)]

/-! ### Returns -/

/-- The regions of a load's fibres name peers; nothing else of a group changes. -/
theorem names_only (x : Fibre) (va : Nat) : ∃ r, x.names va = { x with region := r } := by
  rw [Fibre.names]
  split
  · exact ⟨_, rfl⟩
  · exact ⟨_, rfl⟩

/-- A lane of a group after one lane was replaced. -/
theorem Group.setLane_lane (g : Group) (i j : Nat) (x : Fibre) (hj : j < 32) :
    (g.setLane i x).lane j = if i = j then x else g.lane j := by
  by_cases h : i = j
  · subst h
    rw [if_pos rfl]
    exact vget_vset_same _ _ _ _ hj
  · rw [if_neg h]
    exact vget_vset_other _ _ _ _ _ h

/-- A group whose loads named their peers. -/
def Group.named (ts : List (Nat × Nat × Trans)) (g : Group) : Group :=
  ts.foldl (fun (g : Group) p => if p.2.2.pa < 2 ^ 64 then g else g.setLane p.1 ((g.lane p.1).names p.2.1)) g

theorem Group.named_only (ts : List (Nat × Nat × Trans)) (g : Group) : (∃ ls, g.named ts = { g with lanes := ls }) ∧
    ∀ j, j < 32 → ∃ r, (g.named ts).lane j = { g.lane j with region := r } := by
  induction ts generalizing g with
  | nil => exact ⟨⟨_, rfl⟩, fun _ _ => ⟨_, rfl⟩⟩
  | cons p ts ih =>
    have hcons : g.named (p :: ts) =
        (if p.2.2.pa < 2 ^ 64 then g else g.setLane p.1 ((g.lane p.1).names p.2.1)).named ts := rfl
    rw [hcons]
    split
    · exact ih g
    · obtain ⟨⟨ls, hls⟩, hlanes⟩ := ih (g.setLane p.1 ((g.lane p.1).names p.2.1))
      refine ⟨⟨ls, hls⟩, fun j hj => ?_⟩
      obtain ⟨r, hr⟩ := hlanes j hj
      rw [hr, Group.setLane_lane _ _ _ _ hj]
      by_cases hpj : p.1 = j
      · obtain ⟨q, hq⟩ := names_only (g.lane p.1) p.2.1
        rw [if_pos hpj, hq, hpj]
        exact ⟨r, rfl⟩
      · rw [if_neg hpj]
        exact ⟨r, rfl⟩

theorem Group.issued_gid (lanes : BitVec 32) (g : Group) : (g.issued lanes).gid = g.gid := rfl

/-- The operation of a `RET`'s pops. -/
def retOp (s : State) (h : Here) (ts : List (Nat × Nat × Trans)) : Op :=
  { mkOp .ret h s .ret (accsOf ts (fun _ => 0) fun _ => 0) with flags := [], holds := true }

/-- The state in which the packet's fibres that do not return have gone on, and the others are past earlier
operations. -/
def retGone (s : State) (h : Here) : State :=
  ((s.transfer (h.c.minus h.act) []).goneOn h.g.gid h.act).updGroup h.g.gid (Group.issued · h.act)

theorem ret_spec (s : State) (h : Here) (ts : List (Nat × Nat × Trans)) (hi : Issues .ret s h)
    (hacc : AccessOk s h .global 8 .load true ((lanesOf h.act).map fun i => (i, (h.g.lane i).sp.toNat)) ts)
    (hot : otRoom s h.c.core (accsOf ts (fun _ => 0) fun _ => 0) = true) :
    ∃ t g o, exec .ret s = .next t ∧ SameElse s t h ∧ Starts .ret h s t o ∧ o.kind = .ret ∧ o.lanes = h.act ∧
      o.holds = true ∧ o.flags = [] ∧ o.accs = accsOf ts (fun _ => 0) (fun _ => 0) ∧ t.group? h.g.gid = some g ∧
      SameRegs h.g g ∧ ∀ j, j < 32 → (g.lane j).sp = (h.g.lane j).sp ∧
        (g.lane j).pc = (if h.c.pk.lanes.getLsbD j && !h.act.getLsbD j then (h.g.lane j).clauseEnd
          else (h.g.lane j).pc) := by
  have hexec : exec .ret s = .next (((retGone s h).addOp (retOp s h ts)).updGroup h.g.gid (Group.named ts)) := by
    show execRet s = _
    rw [execRet, issue_next hi, withAccess_ok hacc]
    simp only [hot, Bool.not_true, Bool.false_eq_true, if_false]
    rfl
  have hm := s.transfer_moves (h.c.minus h.act) []
  have hgid : (h.c.minus h.act).pk.gid = h.g.gid := hi.gid
  obtain ⟨k, hk, hmoves⟩ := hm.own h.g (hgid ▸ hi.group)
  have hgone : (retGone s h).group? h.g.gid = some (k.issued h.act) :=
    State.updGroup_group?_same (s := (s.transfer (h.c.minus h.act) []).goneOn h.g.gid h.act) (hgid ▸ hk)
      (Group.issued · h.act) (Group.issued_gid h.act)
  have hadd := State.addOp_noFlags (retGone s h) (retOp s h ts) rfl
  have hnamedGid : ∀ g, (Group.named ts g).gid = g.gid := fun g => by
    obtain ⟨⟨ls, hls⟩, -⟩ := g.named_only ts
    rw [hls]
  have hgroup := State.updGroup_group?_same (s := (retGone s h).addOp (retOp s h ts)) (gid := h.g.gid)
    (by rw [hadd]; exact hgone) (Group.named ts) hnamedGid
  have helse : SameElse s (((retGone s h).addOp (retOp s h ts)).updGroup h.g.gid (Group.named ts)) h := by
    have h1 : SameElse (s.transfer (h.c.minus h.act) []) (retGone s h) h :=
      ⟨rfl, rfl, rfl, rfl, rfl, rfl, rfl, rfl, rfl, fun _ _ => rfl, fun _ hn => State.updGroup_group?_other
        ((s.transfer (h.c.minus h.act) []).goneOn h.g.gid h.act) hn _ (Group.issued_gid h.act)⟩
    have h2 : SameElse (retGone s h) ((retGone s h).addOp (retOp s h ts)) h := by
      rw [hadd]
      exact ⟨rfl, rfl, rfl, rfl, rfl, rfl, rfl, rfl, rfl, fun _ _ => rfl, fun _ _ => rfl⟩
    exact (hm.sameElse hgid rfl).trans (h1.trans (h2.trans (State.updGroup_sameElse _ h _ hnamedGid)))
  have hops : SameOps s (retGone s h) := hm.ops.trans (State.goneOn_sameOps _ h.g.gid h.act)
  obtain ⟨o, ho, hsame⟩ := starts_of (i := .ret) (h := h) (o := retOp s h ts) ⟨rfl, rfl, rfl, rfl, rfl, rfl, rfl⟩ hops
    (by obtain ⟨_, _, _, hs⟩ := hm.only; exact (congrArg State.serial hs : _))
    (SameOps.refl (((retGone s h).addOp (retOp s h ts)).updGroup h.g.gid (Group.named ts)))
  obtain ⟨⟨ls, hls⟩, hlanes⟩ := (k.issued h.act).named_only ts
  have hlane : ∀ j, j < 32 → ∃ dem wait skip r, ((k.issued h.act).named ts).lane j =
      { k.lane j with demoted := dem, demWait := wait, skip := skip, region := r } := fun j hj => by
    obtain ⟨r, hr⟩ := hlanes j hj
    obtain ⟨dem, wait, skip, hd⟩ := k.issued_lane h.act hj
    exact ⟨dem, wait, skip, r, by rw [hr, hd]⟩
  refine ⟨_, _, o, hexec, helse, ho, (congrArg Op.kind hsame : _), (congrArg Op.lanes hsame : _),
    (congrArg Op.holds hsame : _), (congrArg Op.flags hsame : _), (congrArg Op.accs hsame : _), hgroup,
    ⟨by rw [hls]; exact hmoves.scal, by rw [hls]; exact hmoves.fpctl, fun j hj => ?_, fun j hj => ?_⟩, fun j hj => ?_⟩
  · obtain ⟨_, _, _, _, hl⟩ := hlane j hj
    rw [hl]
    exact hmoves.regs hj
  · obtain ⟨_, _, _, _, hl⟩ := hlane j hj
    rw [hl]
    exact hmoves.preds hj
  · obtain ⟨_, _, _, _, hl⟩ := hlane j hj
    rw [hl]
    refine ⟨hmoves.keeps (·.sp) (fun _ _ _ _ _ _ _ _ => rfl) hj, (hmoves.pc hj).trans ?_⟩
    have hlanes : (h.c.minus h.act).pk.lanes.getLsbD j = (h.c.pk.lanes.getLsbD j && !h.act.getLsbD j) := by
      rw [Cur.minus, without, BitVec.getLsbD_and, BitVec.getLsbD_not, decide_eq_true hj, Bool.true_and]
    rw [toPc, hlanes]
    rfl

/-- An operation that completes for some lanes leaves the lanes of its group as they were. -/
theorem State.finishLanes_lanes {s : State} {n : Nat} {g : Group} (hg : s.group? n = some g)
    (id : Nat) (m : BitVec 32) :
    ∃ k, (s.finishLanes id m).group? n = some k ∧ k.lanes = g.lanes := by
  have hlower : ∀ (fs : List Nat) (g : Group), (fs.foldl Group.decFlag g).gid = g.gid ∧
      (fs.foldl Group.decFlag g).lanes = g.lanes := by
    intro fs
    induction fs with
    | nil => exact fun g => ⟨rfl, rfl⟩
    | cons f fs ih => exact fun g => ih (g.decFlag f)
  unfold State.finishLanes
  split
  · exact ⟨g, hg, rfl⟩
  · next o _ =>
    split
    · refine ⟨if g.gid = o.gid then o.flags.foldl Group.decFlag g else g, (State.updGroup_group? s o.gid n
        (fun g => o.flags.foldl Group.decFlag g) fun g => (hlower o.flags g).1).trans (by rw [hg]; rfl), ?_⟩
      split
      · exact (hlower o.flags g).2
      · rfl
    · exact ⟨g, hg, rfl⟩

theorem returnTo_spec (s : State) (o : Op) (lane v : Nat) (tm : Team) (g : Group) (ht : s.team? o.tid = some tm)
    (hg : s.group? o.gid = some g) (hlane : lane < 32) (hstart : clauseStart s tm v = true) :
    ∃ k, (returnTo s o lane v).group? o.gid = some k ∧ (k.lane lane).pc = BitVec.ofNat 56 v ∧ (k.lane lane).rem = 0 ∧
      (k.lane lane).sp = (g.lane lane).sp + 8 ∧ (k.lane lane).active = false ∧ ∀ j, j ≠ lane → k.lane j = g.lane j := by
  have hback := State.updGroup_group?_same hg (fun g => g.setLane lane { g.lane lane with
    sp := (g.lane lane).sp + 8, pc := BitVec.ofNat 56 v, rem := 0, active := false }) fun _ => rfl
  obtain ⟨k, hk, hlanes⟩ := State.finishLanes_lanes hback o.id (maskOf [lane])
  have hreturn : (returnTo s o lane v).group? o.gid = some k := by
    rw [returnTo, ht]
    dsimp only
    rw [if_pos hstart]
    exact hk
  have hsame : k.lane lane = { g.lane lane with
      sp := (g.lane lane).sp + 8, pc := BitVec.ofNat 56 v, rem := 0, active := false } := by
    rw [Group.lane, hlanes]
    exact vget_vset_same _ _ _ _ hlane
  refine ⟨k, hreturn, by rw [hsame], by rw [hsame], by rw [hsame], by rw [hsame], fun j hj => ?_⟩
  rw [Group.lane, hlanes]
  exact vget_vset_other _ _ _ _ _ (Ne.symm hj)

/-- Settles O26: each word by the packet's transfer, and the return by the lane it writes. -/
theorem transfersCallsAndReturns : Obligations.TransfersCallsAndReturns :=
  ⟨⟨nop_spec, bra_spec, brx_spec⟩, call_leaves, callx_leaves, ret_spec, returnTo_spec⟩

end Sys2Proof.Machine
end

section
/-!
SUPPORT. Trap entry of a packet's word, and where fibres stand after accesses that no packet makes and what comes of
them: accessed bits, monitors that fire, lines at the homes.
-/

namespace Sys2Proof.Machine

open Sys2Proof

/-! ### Faults of a word (R226, R227) -/

/-- What trap entry leaves of a group that has a handler. -/
def Group.trapped (tvec : Dword) (lanes : BitVec 32) (f : FaultRec) (g : Group) : Group :=
  g.updLanes lanes fun _ x =>
    if g.halted && (x.take tvec f).status == .running then { x.take tvec f with status := .halted } else x.take tvec f

theorem Group.trapped_lane (tvec : Dword) (lanes : BitVec 32) (f : FaultRec) (g : Group) {j : Nat} (hj : j < 32)
    (hl : lanes.getLsbD j = true) :
    ∃ st, (g.trapped tvec lanes f).lane j = { (g.lane j).take tvec f with status := st } := by
  rw [trapped, Group.updLanes_lane _ _ _ _ hj, if_pos hl]
  generalize g.lane j = x
  split
  · exact ⟨_, rfl⟩
  · exact ⟨(x.take tvec f).status, rfl⟩

theorem Group.trapped_other (tvec : Dword) (lanes : BitVec 32) (f : FaultRec) (g : Group) {j : Nat} (hj : j < 32)
    (hl : lanes.getLsbD j = false) : (g.trapped tvec lanes f).lane j = g.lane j := by
  rw [trapped, Group.updLanes_lane _ _ _ _ hj, if_neg (by simp [hl])]

/-- Trap entry writes no register and no predicate. -/
theorem Fibre.take_regs (x : Fibre) (tvec : Dword) (f : FaultRec) :
    (x.take tvec f).regs = x.regs ∧ (x.take tvec f).preds = x.preds := by
  rw [Fibre.take]
  split
  · exact ⟨rfl, rfl⟩
  · split <;> exact ⟨rfl, rfl⟩

theorem Group.trapped_sameRegs (tvec : Dword) (lanes : BitVec 32) (f : FaultRec) (g : Group) :
    SameRegs g (g.trapped tvec lanes f) := by
  have hlane : ∀ j, j < 32 → ((g.trapped tvec lanes f).lane j).regs = (g.lane j).regs ∧
      ((g.trapped tvec lanes f).lane j).preds = (g.lane j).preds := fun j hj => by
    cases hl : lanes.getLsbD j with
    | true =>
      obtain ⟨st, h⟩ := g.trapped_lane tvec lanes f hj hl
      rw [h]
      exact (g.lane j).take_regs tvec f
    | false =>
      rw [g.trapped_other tvec lanes f hj hl]
      exact ⟨rfl, rfl⟩
  exact ⟨rfl, rfl, fun j hj => (hlane j hj).1, fun j hj => (hlane j hj).2⟩

/-- A fault of the word in hand, where every active fibre has a handler and no live record: each is at the handler with
the fault in its record, and no register has changed. -/
theorem fault_spec {i : Instr} {s : State} {h : Here} (hi : Issues i s h) (hv : h.t.tvec ≠ 0)
    (hlive : ∀ j, j < 32 → h.act.getLsbD j = true → (h.g.lane j).estatus.getLsbD 15 = false) (code : BitVec 8)
    (info : Nat) : ∃ g, (s.fault h.c h.act code info).group? h.g.gid = some g ∧ SameRegs h.g g ∧
      ∀ j, j < 32 → h.act.getLsbD j = true →
        (g.lane j).ecause = code.setWidth 32 ∧ (g.lane j).einfo = BitVec.ofNat 32 info ∧
        (g.lane j).pc = h.t.tvec.setWidth 56 := by
  have hends := h.g.packetEnds_moves (without h.c.pk.lanes h.act)
  have hgroup := State.updGroup_group?_same hi.group (Group.packetEnds · (without h.c.pk.lanes h.act))
    fun g => (g.packetEnds_moves _).gid
  obtain ⟨u, hfault, hu, hteam⟩ : ∃ u : State,
      s.fault h.c h.act code info = u.takeTrap h.g.gid h.act (plainFault code info) [] ∧
      u.group? h.g.gid = some (h.g.packetEnds (without h.c.pk.lanes h.act)) ∧ u.team? h.g.tid = some h.t := by
    rw [← hi.gid] at hgroup ⊢
    exact ⟨_, rfl, hgroup, hi.team⟩
  have hends' := hends
  obtain ⟨⟨ls, hls⟩, -⟩ := hends'
  have hteamOf : u.teamOf? h.g.gid = some h.t := by
    rw [State.teamOf?, hu, Option.bind_some, hls]
    exact hteam
  have hestatus : ∀ j, j < 32 → h.act.getLsbD j = true →
      ((h.g.packetEnds (without h.c.pk.lanes h.act)).lane j).estatus.getLsbD 15 = false := fun j hj hact => by
    rw [(hends.sameTrap hj).estatus]
    exact hlive j hj hact
  have hfatal : ((lanesOf h.act).any fun j =>
      ((h.g.packetEnds (without h.c.pk.lanes h.act)).lane j).fatal h.t.tvec) = false := by
    rw [List.any_eq_false]
    intro j hj
    obtain ⟨hj, hact⟩ := mem_lanesOf.mp hj
    rw [Fibre.fatal, hestatus j hj hact, Bool.false_or, beq_eq_false_iff_ne.mpr hv]
    exact Bool.false_ne_true
  have htrap : (u.takeTrap h.g.gid h.act (plainFault code info) []).group? h.g.gid =
      some ((h.g.packetEnds (without h.c.pk.lanes h.act)).trapped h.t.tvec h.act (plainFault code info)) := by
    simp only [State.takeTrap, hu, hteamOf, hfatal, Bool.false_eq_true, if_false]
    exact State.updGroup_group?_same hu (Group.trapped h.t.tvec h.act (plainFault code info)) fun _ => rfl
  refine ⟨_, (congrArg (State.group? · h.g.gid) hfault).trans htrap, ?_, fun j hj hact => ?_⟩
  · obtain ⟨h1, h2, h3, h4⟩ := hends.sameRegs
    obtain ⟨k1, k2, k3, k4⟩ := (h.g.packetEnds (without h.c.pk.lanes h.act)).trapped_sameRegs h.t.tvec h.act
      (plainFault code info)
    exact ⟨k1.trans h1, k2.trans h2, fun j hj => (k3 j hj).trans (h3 j hj), fun j hj => (k4 j hj).trans (h4 j hj)⟩
  · obtain ⟨st, hlane⟩ := (h.g.packetEnds (without h.c.pk.lanes h.act)).trapped_lane h.t.tvec h.act
      (plainFault code info) hj hact
    rw [hlane, Fibre.take_handler _ _ _ (hestatus j hj hact) hv]
    exact ⟨rfl, rfl, rfl⟩

/-! ### Where fibres stand -/

/-- Every group of `s` is one of `t`, its fibres where they stood; contexts are the same. -/
structure Places (s t : State) : Prop where
  own : ∀ n g, s.group? n = some g → ∃ k, t.group? n = some k ∧
    ∀ j, j < 32 → (k.lane j).pc = (g.lane j).pc ∧ (k.lane j).rem = (g.lane j).rem
  ctxs : t.ctxs = s.ctxs

/-- A relation of states that holds along a fold whose steps keep it. -/
theorem foldl_related {R : State → State → Prop} (hr : ∀ s, R s s) (ht : ∀ s t u, R s t → R t u → R s u) {α : Type}
    {f : State → α → State} (hf : ∀ s x, R s (f s x)) (l : List α) (s : State) : R s (l.foldl f s) := by
  induction l generalizing s with
  | nil => exact hr s
  | cons x l ih => exact ht _ _ _ (hf s x) (ih _)

section
variable (s : State)

theorem Places.refl : Places s s := ⟨fun _ g hg => ⟨g, hg, fun _ _ => ⟨rfl, rfl⟩⟩, rfl⟩

theorem Places.trans {s t u : State} (h : Places s t) (k : Places t u) : Places s u := by
  refine ⟨fun n g hg => ?_, k.ctxs.trans h.ctxs⟩
  obtain ⟨g1, hg1, h1⟩ := h.own n g hg
  obtain ⟨g2, hg2, h2⟩ := k.own n g1 hg1
  exact ⟨g2, hg2, fun j hj => ⟨(h2 j hj).1.trans (h1 j hj).1, (h2 j hj).2.trans (h1 j hj).2⟩⟩

theorem Places.foldl {α : Type} {f : State → α → State} (hf : ∀ s x, Places s (f s x)) (l : List α) (s : State) :
    Places s (l.foldl f s) :=
  foldl_related Places.refl (fun _ _ _ => .trans) hf l s

/-- The same groups and contexts. -/
theorem Places.of_groups {s t : State} (hg : t.groups = s.groups) (hc : t.ctxs = s.ctxs) : Places s t :=
  ⟨fun n g h => ⟨g, by rw [State.group?, hg]; exact h, fun _ _ => ⟨rfl, rfl⟩⟩, hc⟩

/-- A rewriting of one group that moves no fibre. -/
theorem State.updGroup_places (gid : Nat) (f : Group → Group) (hf : ∀ g, (f g).gid = g.gid ∧
    ∀ j, j < 32 → ((f g).lane j).pc = (g.lane j).pc ∧ ((f g).lane j).rem = (g.lane j).rem) :
    Places s (s.updGroup gid f) := by
  refine ⟨fun n g hg => ⟨_, (s.updGroup_group? gid n f fun g => (hf g).1).trans (congrArg _ hg), fun j hj => ?_⟩, rfl⟩
  dsimp only
  by_cases hgid : g.gid = gid
  · rw [if_pos hgid]
    exact (hf g).2 j hj
  · rw [if_neg hgid]
    exact ⟨rfl, rfl⟩

theorem State.updAny_places (gid : Nat) (f : Group → Group) (hf : ∀ g, (f g).gid = g.gid ∧
    ∀ j, j < 32 → ((f g).lane j).pc = (g.lane j).pc ∧ ((f g).lane j).rem = (g.lane j).rem) :
    Places s (s.updAny gid f) :=
  (s.updGroup_places gid f hf).trans (.of_groups rfl rfl)

/-- Results written to a destination move no fibre. -/
theorem Group.writeDst_lane (g : Group) (d : Dst) (n lead : Nat) (vals : List (Nat × Nat)) {j : Nat} (hj : j < 32) :
    ((g.writeDst d n lead vals).lane j).pc = (g.lane j).pc ∧
      ((g.writeDst d n lead vals).lane j).rem = (g.lane j).rem := by
  cases d with
  | v r =>
    rw [writeDst_v, eachLane]
    induction vals generalizing g with
    | nil => exact ⟨rfl, rfl⟩
    | cons p vals ih =>
      obtain ⟨hpc, hrem⟩ := ih (g.setLane p.1 ((g.lane p.1).setWide r.toNat n p.2))
      rw [Group.setLane_lane _ _ _ _ hj] at hpc hrem
      refine ⟨hpc.trans ?_, hrem.trans ?_⟩ <;>
      · by_cases hp : p.1 = j
        · obtain ⟨rs, h⟩ := (g.lane p.1).setWide_only r.toNat n p.2
          rw [if_pos hp, h, hp]
        · rw [if_neg hp]
  | s r =>
    rw [writeDst]
    split
    · obtain ⟨sc, h⟩ := g.setScalar_only r.toNat n _
      rw [h]
      exact ⟨rfl, rfl⟩
    · exact ⟨rfl, rfl⟩
  | push c => exact ⟨rfl, rfl⟩

/-- A lane replaced by one that stands at the same place. -/
theorem Group.setLane_place (g : Group) (i : Nat) (x : Fibre)
    (hx : i < 32 → x.pc = (g.lane i).pc ∧ x.rem = (g.lane i).rem) {j : Nat} (hj : j < 32) :
    ((g.setLane i x).lane j).pc = (g.lane j).pc ∧
      ((g.setLane i x).lane j).rem = (g.lane j).rem := by
  rw [Group.setLane_lane _ _ _ _ hj]
  by_cases h : i = j
  · rw [if_pos h]
    exact h ▸ hx (h ▸ hj)
  · rw [if_neg h]
    exact ⟨rfl, rfl⟩

theorem State.lowerFlags_places (gid : Nat) (fs : List Nat) : Places s (s.lowerFlags gid fs) := by
  refine (s.updGroup_places gid (fun g => fs.foldl Group.decFlag g) fun g => ?_).trans (.of_groups rfl rfl)
  induction fs generalizing g with
  | nil => exact ⟨rfl, fun _ _ => ⟨rfl, rfl⟩⟩
  | cons f fs ih => exact ih (g.decFlag f)

theorem State.finishLanes_places (id : Nat) (m : BitVec 32) : Places s (s.finishLanes id m) := by
  unfold State.finishLanes
  split
  · exact .refl s
  · split
    · exact (s.lowerFlags_places _ _).trans (.of_groups rfl rfl)
    · exact .of_groups rfl rfl

theorem State.updCore_places (c : Nat) (f : Core → Core) : Places s (s.updCore c f) := .of_groups rfl rfl

theorem State.sweepMonitors_places : Places s s.sweepMonitors := .of_groups rfl rfl

theorem acquireWide_places (gid : Nat) : Places s (acquireWide s gid) := by
  unfold acquireWide
  split
  · exact .refl s
  · exact (s.updCore_places _ _).trans (State.updGroup_places _ _ _ fun _ => ⟨rfl, fun _ _ => ⟨rfl, rfl⟩⟩)

theorem acquire_places (gid : Nat) (sc : Scope) : Places s (acquire s gid sc) := by
  unfold acquire
  split
  · exact acquireWide_places s gid
  · exact .refl s

/-- A fibre that waits no more, `out` being what p63 tells. -/
def Fibre.woken (st : FStatus) (out : Bool) (x : Fibre) : Fibre :=
  { x.setPred 63 out with
    wait := none, status := if (x.setPred 63 out).status = .parked then st else (x.setPred 63 out).status }

theorem releaseWaitc_places (o : Op) (sc : Scope) (lane : Nat) (t : Trans) (v : Nat) (out : Bool) :
    Places s (releaseWaitc s o sc lane t v out) := by
  simp only [releaseWaitc]
  refine .trans ?_ (State.sweepMonitors_places _)
  refine .trans ?_ (acquire_places _ _ _)
  refine .trans ?_ (State.finishLanes_places _ _ _)
  refine .trans (t := if (s.group? o.gid).isSome then _ else s) ?_ (State.updAny_places _ _ _ fun g => ?_)
  · split
    · exact .of_groups rfl rfl
    · exact .refl s
  · have hwoken : ∀ k : Group, ∀ j, j < 32 →
        ((k.setLane lane ((k.lane lane).woken g.released out)).lane j).pc = (k.lane j).pc ∧
        ((k.setLane lane ((k.lane lane).woken g.released out)).lane j).rem = (k.lane j).rem :=
      fun k j hj => k.setLane_place lane ((k.lane lane).woken g.released out) (fun _ => ⟨rfl, rfl⟩) hj
    split
    · next d n _ =>
      refine ⟨g.writeDst_gid _ _ _ _, fun j hj => ?_⟩
      have hset := hwoken (g.writeDst d n o.lead [(lane, v)]) j hj
      have hdst := g.writeDst_lane d n o.lead [(lane, v)] hj
      exact ⟨hset.1.trans hdst.1, hset.2.trans hdst.2⟩
    · exact ⟨rfl, hwoken g⟩

theorem fireWaitc_places (id key : Nat) : Places s (fireWaitc s id key) := by
  simp only [fireWaitc]
  split
  · exact .refl s
  · split
    · refine .foldl (fun s a => ?_) _ s
      split
      · exact releaseWaitc_places _ _ _ _ _ _ _
      · exact .refl s
    · exact .refl s

/-- A group whose fibres of some lanes are released from a grid barrier. -/
def Group.passed (m : BitVec 32) (b : BitVec 4) (ph : Bool) (g : Group) : Group :=
  { (g.updLanes m fun _ x => { x with
      status := if x.status = .barrier then g.released else x.status, wait := none
      phG := setBits x.phG b.toNat 1 (if ph then 1 else 0) }) with backoff := 0 }

theorem Group.passed_place (m : BitVec 32) (b : BitVec 4) (ph : Bool) (g : Group) {j : Nat} (hj : j < 32) :
    ((g.passed m b ph).lane j).pc = (g.lane j).pc ∧ ((g.passed m b ph).lane j).rem = (g.lane j).rem := by
  have hlane : (g.passed m b ph).lane j = if m.getLsbD j then { g.lane j with
      status := if (g.lane j).status = .barrier then g.released else (g.lane j).status, wait := none
      phG := setBits (g.lane j).phG b.toNat 1 (if ph then 1 else 0) } else g.lane j :=
    Group.updLanes_lane _ _ _ _ hj
  rw [hlane]
  cases m.getLsbD j <;> exact ⟨rfl, rfl⟩

theorem fireBarG_places (gid key : Nat) (b : BitVec 4) : Places s (fireBarG s gid key b) := by
  simp only [fireBarG]
  split
  · exact .refl s
  · next g _ =>
    split
    · exact .refl s
    · have hpass := s.updAny_places gid (Group.passed (g.lanesWhere fun x => x.wait == some (.barG b) &&
        x.phG.getLsbD b.toNat != BitVec.getLsbD (Mem.read32 s.mem (key + 12)) 0) b
        (BitVec.getLsbD (Mem.read32 s.mem (key + 12)) 0)) fun g => ⟨rfl, fun _ hj => g.passed_place _ _ _ hj⟩
      exact (hpass.trans (acquireWide_places _ gid)).trans (State.sweepMonitors_places _)

theorem fireMonitors_places (key n : Nat) : Places s (fireMonitors s key n) := by
  refine .foldl (fun s m => ?_) _ s
  split
  · split
    · exact fireBarG_places _ _ _ _
    · exact .refl s
  · split
    · exact .foldl (fun s o => fireWaitc_places s _ _) _ s
    · exact .refl s

end

/-! ### Accesses without a packet -/

/-- Fibres stand where they stood; with no monitor in the table none comes in, and registers and scalars are the
same. -/
structure Undisturbed (s t : State) : Prop extends Places s t where
  calm : s.monitors = [] → t.monitors = [] ∧ ∀ n g, s.group? n = some g → ∃ k, t.group? n = some k ∧
    k.scal = g.scal ∧ ∀ j, j < 32 → (k.lane j).regs = (g.lane j).regs

section
variable (s : State)

theorem Undisturbed.of_groups {s t : State} (hg : t.groups = s.groups) (hm : t.monitors = s.monitors)
    (hc : t.ctxs = s.ctxs) : Undisturbed s t :=
  ⟨.of_groups hg hc, fun h => ⟨hm.trans h, fun n g hn => ⟨g, by rw [State.group?, hg]; exact hn, rfl, fun _ _ => rfl⟩⟩⟩

theorem Undisturbed.refl : Undisturbed s s := .of_groups rfl rfl rfl

theorem Undisturbed.trans {s t u : State} (h : Undisturbed s t) (k : Undisturbed t u) : Undisturbed s u := by
  refine ⟨h.toPlaces.trans k.toPlaces, fun hm => ?_⟩
  obtain ⟨hm1, h1⟩ := h.calm hm
  obtain ⟨hm2, h2⟩ := k.calm hm1
  refine ⟨hm2, fun n g hg => ?_⟩
  obtain ⟨g1, hg1, hs1, hr1⟩ := h1 n g hg
  obtain ⟨g2, hg2, hs2, hr2⟩ := h2 n g1 hg1
  exact ⟨g2, hg2, hs2.trans hs1, fun j hj => (hr2 j hj).trans (hr1 j hj)⟩

theorem Undisturbed.foldl {α : Type} {f : State → α → State} (hf : ∀ s x, Undisturbed s (f s x)) (l : List α)
    (s : State) : Undisturbed s (l.foldl f s) :=
  foldl_related Undisturbed.refl (fun _ _ _ => .trans) hf l s

theorem HomesOnly.undisturbed {s t : State} (h : HomesOnly s t) : Undisturbed s t := by
  obtain ⟨_, _, _, _, _, rfl⟩ := h
  exact .of_groups rfl rfl rfl

theorem fireMonitors_undisturbed (key n : Nat) : Undisturbed s (fireMonitors s key n) := by
  refine ⟨fireMonitors_places s key n, fun hm => ?_⟩
  have hnone : fireMonitors s key n = s := by rw [fireMonitors, hm]; rfl
  rw [hnone]
  exact (Undisturbed.refl s).calm hm

theorem withMem_undisturbed (m : List Host.Cell) : Undisturbed s { s with mem := m } := .of_groups rfl rfl rfl

theorem State.setAccessed_undisturbed (l : List Nat) : Undisturbed s (s.setAccessed l) := by
  refine .foldl (fun s a => ?_) l s
  dsimp only
  split
  · exact .refl s
  · exact (withMem_undisturbed s _).trans (fireMonitors_undisturbed _ _ _)

theorem State.accessed_undisturbed (asid va : Nat) : Undisturbed s (s.accessed asid va) := by
  unfold State.accessed
  split
  · exact s.setAccessed_undisturbed _
  · exact .refl s

theorem State.l2Write_undisturbed (t : Trans) (n : Nat) (rank : Option Nat) : Undisturbed s (s.l2Write t n rank) := by
  unfold State.l2Write
  split
  · exact .refl s
  · exact .foldl (fun s _ => (s.l2Place_only _ _ _).undisturbed) _ s

theorem State.writeHome_undisturbed (t : Trans) (l : List Byte) (rank : Option Nat) :
    Undisturbed s (s.writeHome t l rank) :=
  ((s.l2Write_undisturbed t l.length rank).trans (withMem_undisturbed _ _)).trans (fireMonitors_undisturbed _ _ _)

theorem recordBad_undisturbed (asid inst : Nat) : Undisturbed s (recordBad s asid inst).2 := by
  unfold recordBad
  split
  · exact (s.accessed_undisturbed _ _).trans (badSector_only _ _).undisturbed
  · exact .refl s

theorem rangeBad_undisturbed (asid va n : Nat) : Undisturbed s (rangeBad s asid va n).2 := by
  have hfold : ∀ (l : List Nat) (p : Bool × State), Undisturbed p.2 (l.foldl (fun (p : Bool × State) k =>
      if p.1 then p else recordBad p.2 asid (va / 128 * 128 + 128 * k)) p).2 := by
    intro l
    induction l with
    | nil => exact fun p => .refl p.2
    | cons k l ih =>
      intro p
      refine Undisturbed.trans ?_ (ih _)
      cases hp : p.1 with
      | true =>
        simp only [hp, if_true]
        exact .refl p.2
      | false =>
        simp only [hp, Bool.false_eq_true, if_false]
        exact recordBad_undisturbed _ _ _
  exact hfold _ (false, s)

end

end Sys2Proof.Machine
end

section
/-!
What writes of system registers that are not held per fibre leave of groups (R231 to R233).
-/

namespace Sys2Proof.Machine

open Sys2Proof

variable (s : State)

/-! ### The core-pinned window and the queue of the matrix engine -/

theorem State.updCore_undisturbed (c : Nat) (f : Core → Core) : Undisturbed s (s.updCore c f) := .of_groups rfl rfl rfl

theorem unpin_undisturbed (core : Nat) (p : Nat × Option Nat) : Undisturbed s (unpin s core p) :=
  (s.updCore_undisturbed core fun k => { k with pins := k.pins.erase p }).trans (withMem_undisturbed _ _)

theorem pin_undisturbed (core page : Nat) : Undisturbed s (pin s core page) := by
  simp only [pin]
  split
  · exact ((withMem_undisturbed s _).trans (State.accessed_undisturbed _ _ _)).trans (State.updCore_undisturbed _ _ _)
  · exact s.updCore_undisturbed _ _

theorem setCpwin_undisturbed (core : Nat) (win winb : Dword) : Undisturbed s (setCpwin s core win winb) :=
  ((Undisturbed.foldl (fun s p => unpin_undisturbed s core p) _ s).trans
    (.foldl (fun s p => pin_undisturbed s core p) _ _)).trans (State.updCore_undisturbed _ _ _)

theorem State.addOp_undisturbed (o : Op) (hf : o.flags = []) : Undisturbed s (s.addOp o) := by
  rw [s.addOp_noFlags o hf]
  exact .of_groups rfl rfl rfl

theorem formBatch_undisturbed (core : Nat) : Undisturbed s (formBatch s core) := by
  have hunlocked : ∀ (s : State) (l : List Unlocked), Undisturbed s { s with unlocked := l } := fun _ _ =>
    .of_groups rfl rfl rfl
  simp only [formBatch]
  split
  · exact .refl s
  · exact ((s.updCore_undisturbed _ _).trans (hunlocked _ _)).trans (State.addOp_undisturbed _ _ rfl)

theorem bqOff_undisturbed (core : Nat) (v : Word) : Undisturbed s (bqOff s core v) :=
  (s.updCore_undisturbed _ _).trans (formBatch_undisturbed _ _)

theorem Undisturbed.ite {p : Prop} [Decidable p] {t u : State} (ht : Undisturbed s t) (hu : Undisturbed s u) :
    Undisturbed s (if p then t else u) :=
  iteInduction (fun _ => ht) fun _ => hu

theorem bqOnBy_undisturbed (core asid : Nat) (v : Word) : Undisturbed s (bqOnBy s core asid v) := by
  have hbad := rangeBad_undisturbed s asid ((s.coreOf core).bqplan.toNat % 2 ^ 56) 16
  have hoff := hbad.trans (bqOff_undisturbed _ core v)
  simp only [bqOnBy]
  generalize (vread _ _ _ _).map _ = plan
  cases plan with
  | none => exact hoff
  | some q => exact .ite s (hbad.trans (State.updCore_undisturbed _ _ _)) hoff

theorem setBqctl_undisturbed (core asid : Nat) (v : Word) : Undisturbed s (setBqctl s core asid v) := by
  rw [setBqctl]
  split
  · exact .refl s
  · split
    · exact bqOnBy_undisturbed s core asid v
    · exact bqOff_undisturbed s core v

/-! ### Registers of teams, contexts, cores and regions -/

/-- `t` is `s` but for its teams. -/
def OnlyTeams (t : State) : Prop := ∃ ts, t = { s with teams := ts }

theorem OnlyTeams.ite {p : Prop} [Decidable p] {t u : State} (ht : OnlyTeams s t) (hu : OnlyTeams s u) :
    OnlyTeams s (if p then t else u) :=
  iteInduction (fun _ => ht) fun _ => hu

/-- A register of a team is written in the table of teams. -/
theorem teamWrite_only (tid n : Nat) (v : Dword) : OnlyTeams s (teamWrite s tid n v) := by
  have hupd : ∀ f, OnlyTeams s (s.updTeam tid f) := fun f => ⟨_, rfl⟩
  have hfm : ∀ k w, OnlyTeams s (setFmt s tid k w) := fun k w => ⟨_, rfl⟩
  have hstage : ∀ k w, OnlyTeams s (setStage s tid k w) := fun k w => ⟨_, rfl⟩
  rw [teamWrite]
  exact .ite s (hupd _) (.ite s (hupd _) (.ite s (hupd _) (.ite s (hfm _ _) (.ite s (hstage _ _) (.ite s (hupd _)
    (.ite s (hupd _) (.ite s (hupd _) (.ite s (hupd _) ⟨_, rfl⟩))))))))

/-- `t` is `s` but for its contexts and the translations it holds. -/
def OnlyCtxs (t : State) : Prop := ∃ cs ks tl, t = { s with ctxs := cs, cores := ks, stlb := tl }

theorem OnlyCtxs.ite {p : Prop} [Decidable p] {t u : State} (ht : OnlyCtxs s t) (hu : OnlyCtxs s u) :
    OnlyCtxs s (if p then t else u) :=
  iteInduction (fun _ => ht) fun _ => hu

/-- A command of XLINV changes translations only. -/
theorem xlinvCommand_only (asid : Nat) (v : Dword) : OnlyCtxs s (xlinvCommand s asid v) := by
  rw [xlinvCommand]
  split
  · exact ⟨_, _, _, rfl⟩
  · split
    · exact ⟨_, _, _, rfl⟩
    · exact ⟨_, _, _, rfl⟩
    · exact ⟨_, _, _, rfl⟩
    · rw [invStage2]
      split <;> exact ⟨_, _, _, rfl⟩

/-- A register of a context is written in the table of contexts; a command of XLINV drops translations. -/
theorem ctxWrite_only (asid n : Nat) (v : Dword) : OnlyCtxs s (ctxWrite s asid n v) := by
  have hupd : ∀ f, OnlyCtxs s (s.updCtx asid f) := fun f => ⟨_, _, _, rfl⟩
  have hsame : OnlyCtxs s s := ⟨_, _, _, rfl⟩
  have hbump : OnlyCtxs s (bumpGen s asid) := ⟨_, _, _, rfl⟩
  rw [ctxWrite]
  exact .ite s (hupd _) (.ite s (.ite s hbump hsame) (.ite s (xlinvCommand_only s asid v) (.ite s (hupd _)
    (.ite s (hupd _) (.ite s (hupd _) (.ite s (hupd _) (.ite s (hupd _) hsame)))))))

/-- `t` is `s` but for its clusters. -/
def OnlyClusters (t : State) : Prop := ∃ cs, t = { s with clusters := cs }

theorem OnlyClusters.ite {p : Prop} [Decidable p] {t u : State} (ht : OnlyClusters s t) (hu : OnlyClusters s u) :
    OnlyClusters s (if p then t else u) :=
  iteInduction (fun _ => ht) fun _ => hu

/-- A register of a region is written in the table of clusters. -/
theorem clusterWrite_only (cl n : Nat) (w : Word) : OnlyClusters s (clusterWrite s cl n w) := by
  have hupd : ∀ f, OnlyClusters s (s.updCluster cl f) := fun f => ⟨_, rfl⟩
  rw [clusterWrite]
  exact .ite s (hupd _) (.ite s (hupd _) (.ite s (hupd _) (.ite s (hupd _) (.ite s (hupd _) (.ite s (hupd _)
    ⟨_, rfl⟩)))))

theorem coreWrite_undisturbed (core asid n : Nat) (v : Dword) : Undisturbed s (coreWrite s core asid n v) := by
  have hcluster : Undisturbed s (clusterWrite s (clusterNo core) n (v.setWidth 32)) := by
    obtain ⟨cs, h⟩ := clusterWrite_only s (clusterNo core) n (v.setWidth 32)
    rw [h]
    exact .of_groups rfl rfl rfl
  rw [coreWrite]
  exact .ite s (setCpwin_undisturbed _ _ _ _) (.ite s (setCpwin_undisturbed _ _ _ _)
    (.ite s (.of_groups rfl rfl rfl) (.ite s (setBqctl_undisturbed _ _ _ _)
    (.ite s (.ite s (s.updCore_undisturbed _ _) (.refl s)) (.ite s hcluster (.refl s))))))

/-- But for the window and the queue, a write of a register of a core changes no group. -/
theorem coreWrite_groups (core asid n : Nat) (v : Dword) (hn : n ∉ [0x107, 0x108, 0x250]) :
    (coreWrite s core asid n v).groups = s.groups := by
  simp only [List.mem_cons, List.not_mem_nil, or_false, not_or] at hn
  obtain ⟨h107, h108, h250⟩ := hn
  simp only [coreWrite, h107, h108, h250, if_false]
  split
  · rfl
  · split
    · split <;> rfl
    · split
      · obtain ⟨cs, h⟩ := clusterWrite_only s (clusterNo core) n (v.setWidth 32)
        rw [h]
      · rfl

/-- What a write of a register that is not held per fibre leaves of the packet's group: its fibres stand where they
stood, and registers and scalars are the same, but for what a monitor that fires brings. -/
theorem sysWrite_group {s : State} {h : Here} {g : Group} (hg : s.group? h.g.gid = some g) (n : Nat) (v : Dword) :
    ∃ k, (sysWrite s h n v).group? h.g.gid = some k ∧
      (∀ j, j < 32 → (k.lane j).pc = (g.lane j).pc ∧ (k.lane j).rem = (g.lane j).rem) ∧
      (n ∉ [0x107, 0x108, 0x250] ∨ s.monitors = [] →
        k.scal = g.scal ∧ ∀ j, j < 32 → (k.lane j).regs = (g.lane j).regs) := by
  simp only [sysWrite]
  split
  · exact ⟨_, State.updGroup_group?_same hg (fun g => { g with fpctl := fpctlWrite g.fpctl (v.setWidth 32) })
      fun _ => rfl, fun _ _ => ⟨rfl, rfl⟩, fun _ => ⟨rfl, fun _ _ => rfl⟩⟩
  · split
    · exact ⟨_, State.updGroup_group?_same hg (fun g => { g with cbase := BitVec.ofNat 32 (dbits v 2 18 * 4) })
        fun _ => rfl, fun _ _ => ⟨rfl, rfl⟩, fun _ => ⟨rfl, fun _ _ => rfl⟩⟩
    · split
      · exact ⟨_, State.updGroup_group?_same hg (fun g => { g with rgfail := v.setWidth 32 })
          fun _ => rfl, fun _ _ => ⟨rfl, rfl⟩, fun _ => ⟨rfl, fun _ _ => rfl⟩⟩
      · split
        · exact ⟨g, hg, fun _ _ => ⟨rfl, rfl⟩, fun _ => ⟨rfl, fun _ _ => rfl⟩⟩
        · split
          · exact ⟨g, hg, fun _ _ => ⟨rfl, rfl⟩, fun _ => ⟨rfl, fun _ _ => rfl⟩⟩
          · obtain ⟨ts, ht⟩ := teamWrite_only s h.t.tid n v
            obtain ⟨cs, ks, tl, hc⟩ := ctxWrite_only (teamWrite s h.t.tid n v) h.t.asid n v
            have hmid : (ctxWrite (teamWrite s h.t.tid n v) h.t.asid n v).group? h.g.gid = some g := by
              rw [hc, ht]
              exact hg
            have hmon : (ctxWrite (teamWrite s h.t.tid n v) h.t.asid n v).monitors = s.monitors := by rw [hc, ht]
            have hcore := coreWrite_undisturbed (ctxWrite (teamWrite s h.t.tid n v) h.t.asid n v) h.c.core h.t.asid n v
            obtain ⟨k, hk, hplace⟩ := hcore.own _ _ hmid
            refine ⟨k, hk, hplace, fun hquiet => ?_⟩
            rcases hquiet with hn | hnone
            · have hsame := coreWrite_groups (ctxWrite (teamWrite s h.t.tid n v) h.t.asid n v) h.c.core h.t.asid n v hn
              rw [State.group?, hsame] at hk
              obtain rfl : g = k := Option.some.inj (hmid.symm.trans hk)
              exact ⟨rfl, fun _ _ => rfl⟩
            · obtain ⟨k', hk', hscal, hregs⟩ := (hcore.calm (hmon.trans hnone)).2 _ _ hmid
              obtain rfl : k' = k := Option.some.inj (hk'.symm.trans hk)
              exact ⟨hscal, hregs⟩

/-! ### A write that waits for its effect -/

/-- Lanes taken out of the packets in the ports: the fibres of a halted group halt. -/
theorem State.dropLanes_group? {s : State} {gid : Nat} {g : Group} (hg : s.group? gid = some g) (lanes : BitVec 32) :
    (s.dropLanes gid lanes).group? gid = some (g.packetEnds lanes) := by
  simp only [State.dropLanes, hg]
  cases hh : g.halted with
  | true =>
    refine (State.updGroup_group?_same hg (fun g => g.updLanes lanes fun _ x =>
      if x.status = .running then { x with status := .halted } else x) fun _ => rfl).trans ?_
    rw [Group.packetEnds, hh]
    rfl
  | false =>
    rw [Group.packetEnds, hh]
    exact hg

theorem State.dropLanes_only (gid : Nat) (lanes : BitVec 32) :
    ∃ gs ks, s.dropLanes gid lanes = { s with groups := gs, cores := ks } := by
  rw [State.dropLanes]
  split
  · exact ⟨_, _, rfl⟩
  · dsimp only
    split <;> exact ⟨_, _, rfl⟩

/-- The state after a write of a register that is not held per fibre. -/
def sharedWritten (i : Instr) (h : Here) (s : State) (n : Nat) (v : Dword) : State :=
  match writeWait s h n v with
  | none => (sysWrite s h n v).advance h.c i.words
  | some j => (((sysWrite s h n v).advance h.c i.words).addOp { mkOp i h s (.stageWait j 0) [] with
      flags := [], holds := true, still := 0 }).dropLanes h.g.gid h.act

theorem sharedWritten_of_noWait {i : Instr} {h : Here} {s : State} {n : Nat} {v : Dword}
    (hw : writeWait s h n v = none) : sharedWritten i h s n v = (sysWrite s h n v).advance h.c i.words := by
  rw [sharedWritten, hw]

/-- The packet goes on after the write, whether it waits for its effect or not. -/
theorem sharedWritten_group {i : Instr} {h : Here} {s : State} {n : Nat} {v : Dword} {k : Group}
    (hgid : h.c.pk.gid = h.g.gid) (hk : (sysWrite s h n v).group? h.g.gid = some k) :
    (∃ g, (sharedWritten i h s n v).group? h.g.gid = some g ∧
      Moves (onPc h.c.pk.lanes i.words) (onRem h.c.pk.lanes i.words) k g) ∧
    (sharedWritten i h s n v).teams = (sysWrite s h n v).teams ∧
    (sharedWritten i h s n v).ctxs = (sysWrite s h n v).ctxs := by
  have hm := (sysWrite s h n v).advance_moves h.c i.words
  obtain ⟨g, hg, hmoves⟩ := hm.own k (hgid ▸ hk)
  rw [hgid] at hg
  obtain ⟨gs, ks, os, honly⟩ := hm.only
  rw [sharedWritten]
  split
  · exact ⟨⟨g, hg, hmoves⟩, by rw [honly], by rw [honly]⟩
  · next j _ =>
    have hadd := ((sysWrite s h n v).advance h.c i.words).addOp_noFlags
      { mkOp i h s (.stageWait j 0) [] with flags := [], holds := true, still := 0 } rfl
    obtain ⟨gs', ks', hdrop⟩ := State.dropLanes_only (((sysWrite s h n v).advance h.c i.words).addOp
      { mkOp i h s (.stageWait j 0) [] with flags := [], holds := true, still := 0 }) h.g.gid h.act
    refine ⟨⟨g.packetEnds h.act, State.dropLanes_group? (by rw [hadd]; exact hg) h.act,
      hmoves.packetEnds h.act⟩, ?_, ?_⟩
    · rw [hdrop, hadd, honly]
    · rw [hdrop, hadd, honly]

/-! ### Enabling a slice heap (R332) -/

/-- A walk does not read SLHEAPCFG. -/
theorem walk_slheapcfg (a : Nat) (cfg : Word) (asid va : Nat) :
    walk (s.updCtx a fun c => { c with slheapcfg := cfg }) asid va = walk s asid va := by
  have hctx : ∃ w, (s.updCtx a fun c => { c with slheapcfg := cfg }).ctxOf asid =
      { s.ctxOf asid with slheapcfg := w } := by
    rw [State.updCtx_ctxOf]
    · split
      · next h => exact ⟨cfg, by rw [h]⟩
      · exact ⟨_, rfl⟩
    · exact fun _ => rfl
  obtain ⟨w, hw⟩ := hctx
  unfold walk
  rw [hw]
  rfl

/-- What accessed bits leave of memory depends on memory alone. -/
theorem State.setAccessed_mem {s t : State} (h : t.mem = s.mem) (l : List Nat) :
    (t.setAccessed l).mem = (s.setAccessed l).mem := by
  induction l generalizing s t with
  | nil => exact h
  | cons a l ih =>
    refine ih ?_
    dsimp only
    rw [h]
    split
    · exact h
    · rw [fireMonitors_mem, fireMonitors_mem]

theorem State.accessed_mem_slheapcfg (a : Nat) (cfg : Word) (asid va : Nat) :
    ((s.updCtx a fun c => { c with slheapcfg := cfg }).accessed asid va).mem = (s.accessed asid va).mem := by
  rw [State.accessed, walk_slheapcfg, State.accessed]
  split
  · exact State.setAccessed_mem (s := s) (t := s.updCtx a fun c => { c with slheapcfg := cfg }) rfl _
  · rfl

theorem State.writeHome_mem (t : Trans) (l : List Byte) : (s.writeHome t l).mem = Mem.write s.mem t.key l :=
  fireMonitors_mem _ _ _

end Sys2Proof.Machine
end

section
/-!
Reads of system registers and of the clock (R55, R231 to R233, R236).
-/

namespace Sys2Proof.Machine

open Sys2Proof

/-! ### `CLK` (R236) -/

theorem clk_next {d : Dst} {s s1 : State} {h : Here} {ins : List LaneIn} (hi : Issues (.clk d) s h)
    (hr : Reads (.clk d) s h ins s1) : exec (.clk d) s =
      .next (vecDone (.clk d) h ins (ins.map fun _ => out64 (BitVec.ofNat 64 s.now)) s1) := by
  show execClk d s = _
  exact vecExec_next hi hr

/-! ### `RDSYS` (R55, R233) -/

/-- The packet's group after the packet has gone on. -/
theorem State.advance_group {s : State} {c : Cur} {gid : Nat} {g : Group} (hpk : c.pk.gid = gid)
    (hg : s.group? gid = some g) (n : Nat) : ∃ k, (s.advance c n).group? gid = some k ∧
      Moves (onPc c.pk.lanes n) (onRem c.pk.lanes n) g k := by
  subst hpk
  exact (s.advance_moves c n).own g hg

/-- Where the fibres stand after a word of `n` words that moved none before the packet went on. -/
theorem standsOn_of_moves {h : Here} {n : Nat} {g k : Group}
    (hm : Moves (onPc h.c.pk.lanes n) (onRem h.c.pk.lanes n) g k)
    (hg : ∀ j, j < 32 → (g.lane j).pc = (h.g.lane j).pc ∧ (g.lane j).rem = (h.g.lane j).rem) : StandsOn h n k := by
  intro j hj
  obtain ⟨hpc, hrem⟩ := hg j hj
  rw [hm.pc hj, hm.rem hj, onPc, onRem, hpc, hrem]
  exact ⟨rfl, rfl⟩

/-- The lowest active fibre is active. -/
theorem Here.lead_mem {h : Here} (ha : h.act ≠ 0) : h.lead ∈ lanesOf h.act := by
  rw [Here.lead]
  cases hl : lanesOf h.act with
  | nil =>
    refine absurd (BitVec.eq_of_getLsbD_eq fun j hj => ?_) ha
    rw [show (0 : BitVec 32) = 0#32 from rfl, BitVec.getLsbD_zero]
    have hnot : j ∉ lanesOf h.act := hl ▸ List.not_mem_nil
    cases hb : h.act.getLsbD j with
    | false => rfl
    | true => exact absurd (mem_lanesOf.mpr ⟨hj, hb⟩) hnot
  | cons i l => exact List.mem_cons_self

/-- The value of a system register in every active fibre, with its lane. -/
def sysVals (s : State) (h : Here) (n up : Nat) : List (Nat × Nat) :=
  (lanesOf h.act).map fun j => (j, (sysRead s h j n up).toNat)

theorem assoc_sysVals (s : State) (h : Here) (n up : Nat) {j : Nat} (hj : j < 32) :
    assoc (sysVals s h n up) j = if h.act.getLsbD j = true then some (sysRead s h j n up).toNat else none := by
  refine (assoc_map_self _ (fun j => (sysRead s h j n up).toNat) j).trans ?_
  simp only [mem_lanesOf, hj, true_and]

theorem nodup_sysVals (s : State) (h : Here) (n up : Nat) : ((sysVals s h n up).map (·.1)).Nodup := by
  have hkeys : (sysVals s h n up).map (·.1) = lanesOf h.act := by simp [sysVals, Function.comp_def]
  rw [hkeys]
  exact nodup_lanesOf h.act

/-- The machine counts its free values; nothing else changes with one. -/
theorem State.tick_sameElse (s : State) (h : Here) (n : Nat) : SameElse s { s with tick := n } h :=
  ⟨rfl, rfl, rfl, rfl, rfl, rfl, rfl, rfl, rfl, fun _ _ => rfl, fun _ _ => rfl⟩

/-- `RDSYS` writes what it reads to its destination and goes on. -/
theorem rdsys_next {d : Dst} {n : BitVec 12} {s : State} {h : Here} (hi : Issues (.rdsys d n) s h)
    (hn : n.toNat < 0x700) : ∃ up k, exec (.rdsys d n) s = .next
      ((({ s with tick := k } : State).updGroup h.g.gid fun g =>
        g.writeDst d (sysKind n (Dst.even d)).regs h.lead (sysVals s h n.toNat up)).advance h.c 1) := by
  have hexec : exec (.rdsys d n) s = execRdsys d n s := rfl
  rw [hexec, execRdsys, issue_next hi, if_neg (by omega)]
  by_cases hlease : n.toNat = 0x220
  · rw [if_pos hlease]
    exact ⟨(s.choose 2).1, s.tick + 1, rfl⟩
  · rw [if_neg hlease]
    exact ⟨0, s.tick, rfl⟩

/-- Only registers and scalars take results that go to a destination. -/
theorem Group.writeDst_keeps (g : Group) (d : Dst) (n lead : Nat) {vals : List (Nat × Nat)}
    (hnd : (vals.map (·.1)).Nodup) : (∀ k, (g.writeDst d n lead vals).flag k = g.flag k) ∧
      ∀ j, j < 32 → ∃ rs, (g.writeDst d n lead vals).lane j = { g.lane j with regs := rs } := by
  cases d with
  | v r =>
    obtain ⟨ls, honly⟩ := g.eachLane_only (fun v x => x.setWide r.toNat n v) vals
    refine ⟨fun k => by rw [writeDst_v, honly], fun j hj => ?_⟩
    rw [writeDst_v, g.eachLane_lane _ _ hnd hj]
    cases assoc vals j with
    | none => exact ⟨_, rfl⟩
    | some v => exact (g.lane j).setWide_only _ _ _
  | s r =>
    rw [writeDst]
    split
    · obtain ⟨sc, honly⟩ := g.setScalar_only r.toNat n _
      rw [honly]
      exact ⟨fun _ => rfl, fun _ _ => ⟨_, rfl⟩⟩
    · exact ⟨fun _ => rfl, fun _ _ => ⟨_, rfl⟩⟩
  | push c => exact ⟨fun _ => rfl, fun _ _ => ⟨_, rfl⟩⟩

/-- What a fibre-register destination holds after `RDSYS`. -/
theorem writeDst_sysVals_v (s : State) (h : Here) (n up : Nat) (r : BitVec 6) {k : Nat} (hr : r.toNat + k ≤ 64)
    {j : Nat} (hj : j < 32) (m : Nat) : ((h.g.writeDst (.v r) k h.lead (sysVals s h n up)).lane j).reg m =
      if h.act.getLsbD j ∧ r.toNat ≤ m ∧ m < r.toNat + k then wordAt (sysRead s h j n up) (m - r.toNat)
      else (h.g.lane j).reg m := by
  rw [Group.writeDst_v, Group.eachLane_lane _ _ _ (nodup_sysVals s h n up) hj, assoc_sysVals s h n up hj]
  by_cases hact : h.act.getLsbD j = true
  · simp only [hact, if_true, true_and]
    exact Fibre.reg_setWide _ _ _ _ _ hr
  · rw [if_neg hact, if_neg fun hc => hact hc.1]
    rfl

/-- What a scalar destination holds after `RDSYS`: the value of the lowest active fibre. -/
theorem writeDst_sysVals_s (s : State) {h : Here} (ha : h.act ≠ 0) (n up : Nat) (r : BitVec 5) {k : Nat}
    (hr : r.toNat + k ≤ 32) (m : Nat) : (h.g.writeDst (.s r) k h.lead (sysVals s h n up)).scalar m =
      if r.toNat ≤ m ∧ m < r.toNat + k then wordAt (sysRead s h h.lead n up) (m - r.toNat) else h.g.scalar m := by
  obtain ⟨hlt, hact⟩ := mem_lanesOf.mp (Here.lead_mem ha)
  have hlead : assoc (sysVals s h n up) h.lead = some (sysRead s h h.lead n up).toNat := by
    rw [assoc_sysVals s h n up hlt, if_pos hact]
  rw [Group.writeDst]
  simp only [hlead]
  exact Group.scalar_setScalar _ _ _ _ _ hr

theorem rdsys_spec {d : Dst} {n : BitVec 12} {s : State} {h : Here} (hi : Issues (.rdsys d n) s h)
    (hn : n.toNat < 0x700) :
    ∃ t g up, exec (.rdsys d n) s = .next t ∧ SameElse s t h ∧ t.group? h.g.gid = some g ∧ StandsOn h 1 g ∧
      FlagsRise h.g g [] ∧ (∀ j, j < 32 → (g.lane j).preds = (h.g.lane j).preds ∧ SameTrap (h.g.lane j) (g.lane j)) ∧
      (∀ r : BitVec 6, d = .v r → r.toNat + (sysKind n (Dst.even d)).regs ≤ 64 → ∀ j m, j < 32 → m < 64 →
        (g.lane j).reg m =
          if h.act.getLsbD j ∧ r.toNat ≤ m ∧ m < r.toNat + (sysKind n (Dst.even d)).regs
          then wordAt (sysRead s h j n.toNat up) (m - r.toNat) else (h.g.lane j).reg m) ∧
      ∀ r : BitVec 5, d = .s r → r.toNat + (sysKind n (Dst.even d)).regs ≤ 32 → ∀ m, m < 32 →
        g.scalar m = if r.toNat ≤ m ∧ m < r.toNat + (sysKind n (Dst.even d)).regs
          then wordAt (sysRead s h h.lead n.toNat up) (m - r.toNat) else h.g.scalar m := by
  obtain ⟨up, tick, hexec⟩ := rdsys_next hi hn
  generalize (sysKind n (Dst.even d)).regs = k at hexec ⊢
  have hgid : ∀ g : Group, (g.writeDst d k h.lead (sysVals s h n.toNat up)).gid = g.gid := fun g =>
    g.writeDst_gid _ _ _ _
  have hgroup := State.updGroup_group?_same (s := { s with tick := tick }) hi.group
    (fun g => g.writeDst d k h.lead (sysVals s h n.toNat up)) hgid
  have hm := (({ s with tick := tick } : State).updGroup h.g.gid fun g =>
    g.writeDst d k h.lead (sysVals s h n.toNat up)).advance_moves h.c 1
  obtain ⟨g, hg, hmoves⟩ := State.advance_group hi.gid hgroup 1
  obtain ⟨hflag, hlane⟩ := h.g.writeDst_keeps d k h.lead (nodup_sysVals s h n.toNat up)
  have helse := ((s.tick_sameElse h tick).trans (State.updGroup_sameElse _ h _ hgid)).trans (hm.sameElse hi.gid rfl)
  refine ⟨_, g, up, hexec, helse, hg, standsOn_of_moves hmoves fun j hj => ?_, fun f hf => ?_, fun j hj => ?_, ?_, ?_⟩
  · obtain ⟨rs, hl⟩ := hlane j hj
    rw [hl]
    exact ⟨rfl, rfl⟩
  · rw [← hflag f]
    exact hmoves.flagsRise f hf
  · obtain ⟨rs, hl⟩ := hlane j hj
    refine ⟨by rw [hmoves.preds hj, hl], ?_⟩
    have htrap := hmoves.sameTrap hj
    rw [hl] at htrap
    obtain ⟨h1, h2, h3, h4, h5, h6, h7, h8⟩ := htrap
    exact ⟨h1, h2, h3, h4, h5, h6, h7, h8⟩
  · rintro r rfl hr j m hj -
    rw [Fibre.reg, hmoves.regs hj]
    exact writeDst_sysVals_v s h n.toNat up r hr hj m
  · rintro r rfl hr m -
    rw [Group.scalar, hmoves.scal]
    exact writeDst_sysVals_s s hi.active n.toNat up r hr m

/-- The registers of a fibre, a group and a team, as a fibre reads them (R231, R347). -/
theorem sysRead_values (s : State) (h : Here) (lane up : Nat) :
    let x := h.g.lane lane
    let rd := fun n => sysRead s h lane n up
    rd 0x002 = BitVec.ofNat 64 h.t.teamNo ∧ rd 0x003 = BitVec.ofNat 64 h.t.nteams ∧ rd 0x010 = h.t.gridBar ∧
    rd 0x011 = x.stackLo ∧ rd 0x012 = x.stackHi ∧ rd 0x020 = h.g.fpctl.setWidth 64 ∧ rd 0x021 = h.g.cbase.setWidth 64 ∧
    rd 0x022 = (if x.mode then 1 else 0) ∧ rd 0x030 = h.t.tvec ∧ rd 0x031 = x.epc ∧ rd 0x032 = x.estatus.setWidth 64 ∧
    rd 0x033 = x.ecause.setWidth 64 ∧ rd 0x034 = x.eaddr ∧ rd 0x035 = x.einfo.setWidth 64 ∧
    rd 0x036 = x.eclause.setWidth 64 ∧ rd 0x038 = (vget x.esave 0 0).setWidth 64 ∧ rd 0x03F = 0 ∧ rd 0x044 = 0 ∧
    rd 0x310 = x.sp.setWidth 64 ∧ rd 0x311 = x.fp.setWidth 64 := by
  have hmode : sysRead s h lane 0x022 up = BitVec.ofNat 64 (if (h.g.lane lane).mode then 1 else 0) := rfl
  refine ⟨rfl, rfl, rfl, rfl, rfl, rfl, rfl, hmode.trans ?_, rfl, rfl, rfl, rfl, rfl, rfl, rfl, rfl, rfl, rfl, rfl, rfl⟩
  cases (h.g.lane lane).mode <;> rfl

/-- A number from 0x700 raises ILLEGAL_SYSREG. -/
theorem rdsys_illegal {d : Dst} {n : BitVec 12} {s : State} {h : Here} (hi : Issues (.rdsys d n) s h)
    (hn : 0x700 ≤ n.toNat) : exec (.rdsys d n) s = .next (s.fault h.c h.act fIllegalSysreg n.toNat) := by
  have hexec : exec (.rdsys d n) s = execRdsys d n s := rfl
  rw [hexec, execRdsys, issue_next hi, if_pos hn]

end Sys2Proof.Machine
end

section
/-!
Writes of system registers: the word, what a fibre holds, and what a group holds (R5, R55, R117, R231 to R233).
-/

namespace Sys2Proof.Machine

open Sys2Proof

/-! ### `WRSYS` of a word that does not trap or wait -/

/-- The value of the lowest active fibre, which a register that is not held per fibre takes. -/
abbrev lowestValue (ins : List LaneIn) : Dword := ((ins.head?).map fun x => x.s 0).getD 0

/-- The group after each active fibre has written its own register. -/
def Group.sysWritten (n : Nat) (ins : List LaneIn) (g : Group) : Group :=
  ins.foldl (fun (g : Group) x => g.setLane x.lane ((g.lane x.lane).sysWrite n (x.s 0))) g

theorem wrsys_next {n : BitVec 12} {a : Src} {s s1 : State} {h : Here} {ins : List LaneIn}
    (hi : Issues (.wrsys n a) s h) (hr : Reads (.wrsys n a) s h ins s1) (hn : n.toNat < 0x700)
    (hu : h.user = true → userWrites n.toNat = true)
    (hwaits : writeWaits s1 h.c.core n.toNat (lowestValue ins) = false)
    (htvec : n.toNat = 0x030 → (lowestValue ins).toNat % 4 = 0) (hheap : n.toNat ≠ 0x301)
    (hqueue : n.toNat = 0x250 → bqctlWaits s1 h.c.core h.t.asid ((lowestValue ins).setWidth 32) = false) :
    exec (.wrsys n a) s = .next (if fibreHeld n.toNat then
        (s1.updGroup h.g.gid (Group.sysWritten n.toNat ins)).advance h.c (Instr.wrsys n a).words
      else sharedWritten (.wrsys n a) h s1 n.toNat (lowestValue ins)) := by
  have hexec : exec (.wrsys n a) s = execWrsys n a s := rfl
  have huser : ¬ (h.user && !userWrites n.toNat) = true := by
    cases hm : h.user with
    | true => rw [hu hm]; exact Bool.false_ne_true
    | false => exact Bool.false_ne_true
  have hmis : ¬ (decide (n.toNat = 0x030) && (lowestValue ins).toNat % 4 != 0) = true := by
    rw [Bool.and_eq_true, decide_eq_true_eq, bne_iff_ne]
    exact fun ⟨h1, h2⟩ => h2 (htvec h1)
  have hbq : ¬ (decide (n.toNat = 0x250) &&
      bqctlWaits s1 h.c.core h.t.asid ((lowestValue ins).setWidth 32)) = true := by
    rw [Bool.and_eq_true, decide_eq_true_eq]
    exact fun ⟨h1, h2⟩ => Bool.false_ne_true ((hqueue h1).symm.trans h2)
  rw [hexec, execWrsys, issue_next hi, if_neg (by omega), if_neg huser, withOperands_reads hr]
  dsimp only
  rw [hwaits, if_neg Bool.false_ne_true, if_neg hmis, if_neg hbq, if_neg hheap]
  rfl

/-! ### Registers that are held per fibre -/

/-- A write of a fibre's system register moves no fibre and writes no general register. -/
theorem Fibre.sysWrite_keeps (x : Fibre) (n : Nat) (v : Dword) :
    (x.sysWrite n v).pc = x.pc ∧ (x.sysWrite n v).rem = x.rem ∧ (x.sysWrite n v).regs = x.regs := by
  unfold Fibre.sysWrite
  split <;> exact ⟨rfl, rfl, rfl⟩

/-- What `y` holds of a fibre's system registers once register `n` has taken `w`. -/
structure Fibre.Holds (n : BitVec 12) (w : Dword) (y : Fibre) : Prop where
  epc : n = 0x031 → y.epc = w
  estatus : n = 0x032 → y.estatus = w.setWidth 32 &&& 0xF00F
  ecause : n = 0x033 → y.ecause = w.setWidth 32 &&& 0xFFFF
  eaddr : n = 0x034 → y.eaddr = w
  einfo : n = 0x035 → y.einfo = w.setWidth 32
  eclause : n = 0x036 → y.eclause = w.setWidth 32
  esave : ∀ k, k < 4 → n.toNat = 0x038 + k → vget y.esave k 0 = w.setWidth 32
  sp : n = 0x310 → y.sp = w.setWidth 56
  fp : n = 0x311 → y.fp = w.setWidth 56

theorem Fibre.holds_sysWrite (x : Fibre) (n : BitVec 12) (w : Dword) : (x.sysWrite n.toNat w).Holds n w where
  epc := by rintro rfl; rfl
  estatus := by rintro rfl; rfl
  ecause := by rintro rfl; rfl
  eaddr := by rintro rfl; rfl
  einfo := by rintro rfl; rfl
  eclause := by rintro rfl; rfl
  esave := by
    have hsave : ∀ k, k < 4 → x.sysWrite (0x038 + k) w = { x with esave := vset x.esave k (w.setWidth 32) } := by
      intro k hk
      interval_cases k <;> rfl
    intro k hk hn
    rw [hn, hsave k hk]
    exact vget_vset_same _ _ _ _ hk
  sp := by rintro rfl; rfl
  fp := by rintro rfl; rfl

/-- A fibre that holds the same system registers. -/
theorem Fibre.Holds.congr {n : BitVec 12} {w : Dword} {x y : Fibre} (hx : x.Holds n w) (ht : SameTrap x y)
    (hsp : y.sp = x.sp) (hfp : y.fp = x.fp) : y.Holds n w where
  epc hn := ht.epc.trans (hx.epc hn)
  estatus hn := ht.estatus.trans (hx.estatus hn)
  ecause hn := ht.ecause.trans (hx.ecause hn)
  eaddr hn := ht.eaddr.trans (hx.eaddr hn)
  einfo hn := ht.einfo.trans (hx.einfo hn)
  eclause hn := ht.eclause.trans (hx.eclause hn)
  esave k hk hn := ht.esave ▸ hx.esave k hk hn
  sp hn := hsp.trans (hx.sp hn)
  fp hn := hfp.trans (hx.fp hn)

theorem Group.sysWritten_eachLane (n : Nat) (ins : List LaneIn) (g : Group) :
    g.sysWritten n ins = g.eachLane (fun w x => x.sysWrite n w) (ins.map fun x => (x.lane, x.s 0)) := by
  rw [eachLane, List.foldl_map, sysWritten]

theorem Group.sysWritten_only (n : Nat) (ins : List LaneIn) (g : Group) :
    ∃ ls, g.sysWritten n ins = { g with lanes := ls } := by
  rw [sysWritten_eachLane]
  exact g.eachLane_only _ _

/-- Every active fibre has written its own register; the others are as they were. -/
theorem Group.sysWritten_lane {i : Instr} {s s1 : State} {h : Here} {ins : List LaneIn} (hr : Reads i s h ins s1)
    (n : Nat) (g : Group) {j : Nat} (hj : j < 32) : (g.sysWritten n ins).lane j =
      if h.act.getLsbD j = true then (g.lane j).sysWrite n (laneOp ins 0 j) else g.lane j := by
  have hlist : (ins.map fun x => (x.lane, x.s 0)) = (lanesOf h.act).map fun j => (j, laneOp ins 0 j) :=
    hr.map_lanes id 0
  have hnd : ((ins.map fun x => (x.lane, x.s 0)).map (·.1)).Nodup := by
    rw [List.map_map]
    exact hr.lanes ▸ nodup_lanesOf h.act
  rw [sysWritten_eachLane, g.eachLane_lane _ _ hnd hj, hlist, assoc_map_self]
  simp only [mem_lanesOf, hj, true_and]
  split <;> rfl

/-- What a write of a register held per fibre leaves of the machine and of the packet's group. -/
theorem fibreHeld_spec {i : Instr} {s s1 : State} {h : Here} {ins : List LaneIn} (hi : Issues i s h)
    (hr : Reads i s h ins s1) (n : BitVec 12) (m : Nat) :
    ∃ g, ((s1.updGroup h.g.gid (Group.sysWritten n.toNat ins)).advance h.c m).group? h.g.gid = some g ∧
      StandsOn h m g ∧ (∀ j, j < 32 → (g.lane j).regs = (h.g.lane j).regs) ∧ g.scal = h.g.scal ∧
      SameElse s1 ((s1.updGroup h.g.gid (Group.sysWritten n.toNat ins)).advance h.c m) h ∧ g.fpctl = h.g.fpctl ∧
      ∀ j, j < 32 → if h.act.getLsbD j = true then (g.lane j).Holds n (laneOp ins 0 j)
        else SameTrap (h.g.lane j) (g.lane j) ∧ (g.lane j).sp = (h.g.lane j).sp ∧ (g.lane j).fp = (h.g.lane j).fp := by
  have hgid : ∀ g : Group, (g.sysWritten n.toNat ins).gid = g.gid := fun g => by
    obtain ⟨ls, hl⟩ := g.sysWritten_only n.toNat ins
    rw [hl]
  have hgroup : s1.group? h.g.gid = some h.g := by
    rw [State.group?, hr.sameButCaches.groups]
    exact hi.group
  have hwritten := State.updGroup_group?_same hgroup (Group.sysWritten n.toNat ins) hgid
  obtain ⟨g, hg, hmoves⟩ := State.advance_group hi.gid hwritten m
  have helse := (s1.updGroup_sameElse h (Group.sysWritten n.toNat ins) hgid).trans
    ((State.advance_moves _ h.c m).sameElse hi.gid rfl)
  have hlane : ∀ j, j < 32 → ((h.g.sysWritten n.toNat ins).lane j).pc = (h.g.lane j).pc ∧
      ((h.g.sysWritten n.toNat ins).lane j).rem = (h.g.lane j).rem ∧
      ((h.g.sysWritten n.toNat ins).lane j).regs = (h.g.lane j).regs := fun j hj => by
    rw [Group.sysWritten_lane hr n.toNat h.g hj]
    by_cases hact : h.act.getLsbD j = true
    · rw [if_pos hact]
      exact (h.g.lane j).sysWrite_keeps _ _
    · rw [if_neg hact]
      exact ⟨rfl, rfl, rfl⟩
  obtain ⟨ls, honly⟩ := h.g.sysWritten_only n.toNat ins
  refine ⟨g, hg, standsOn_of_moves hmoves fun j hj => ?_, fun j hj => ?_, ?_, helse, ?_, fun j hj => ?_⟩
  · obtain ⟨hpc, hrem, -⟩ := hlane j hj
    exact ⟨hpc, hrem⟩
  · obtain ⟨-, -, hregs⟩ := hlane j hj
    exact (hmoves.regs hj).trans hregs
  · rw [hmoves.scal, honly]
  · rw [hmoves.fpctl, honly]
  · have htrap := hmoves.sameTrap hj
    have hsp := hmoves.keeps (·.sp) (fun _ _ _ _ _ _ _ _ => rfl) hj
    have hfp := hmoves.keeps (·.fp) (fun _ _ _ _ _ _ _ _ => rfl) hj
    rw [Group.sysWritten_lane hr n.toNat h.g hj] at htrap hsp hfp
    by_cases hact : h.act.getLsbD j = true
    · rw [if_pos hact] at htrap hsp hfp ⊢
      exact ((h.g.lane j).holds_sysWrite n _).congr htrap hsp hfp
    · rw [if_neg hact] at htrap hsp hfp ⊢
      exact ⟨htrap, hsp, hfp⟩

/-! ### Registers of a group -/

/-- FPCTL after a write: the rounding mode is stored, and each 1 clears a sticky bit (R117). -/
theorem getLsbD_fpctlWrite (old : Word) (v : Dword) {k : Nat} (hk : k < 32) :
    (fpctlWrite old (v.setWidth 32)).getLsbD k =
      (decide (k < 2) && v.getLsbD k || decide (8 ≤ k ∧ k < 14) && old.getLsbD k && !v.getLsbD k) := by
  have hsticky : (0x3F00 : BitVec 32).getLsbD k = decide (8 ≤ k ∧ k < 14) := by
    revert k
    decide
  have hround : (3 : BitVec 32).getLsbD k = decide (k < 2) := by
    revert k
    decide
  simp only [fpctlWrite, BitVec.getLsbD_or, BitVec.getLsbD_and, BitVec.getLsbD_not, BitVec.getLsbD_setWidth, hk,
    hsticky, hround, decide_true, Bool.true_and]
  cases decide (k < 2) <;> cases decide (8 ≤ k ∧ k < 14) <;> cases v.getLsbD k <;> cases old.getLsbD k <;> rfl

/-- CBASE after a write: 18 bits, in words of 4 bytes. -/
theorem cbase_value (v : Dword) : BitVec.ofNat 32 (dbits v 2 18 * 4) = v.setWidth 32 &&& 0xFFFFC := by
  refine BitVec.eq_of_getLsbD_eq fun k hk => ?_
  have hmask : (0xFFFFC : BitVec 32).getLsbD k = decide (2 ≤ k ∧ k < 20) := by
    revert k
    decide
  show (BitVec.ofNat 32 (v.toNat / 2 ^ 2 % 2 ^ 18 * 2 ^ 2)).getLsbD k = _
  rw [BitVec.getLsbD_and, hmask, BitVec.getLsbD_setWidth, BitVec.getLsbD_ofNat, Nat.testBit_mul_two_pow,
    Nat.testBit_mod_two_pow, Nat.testBit_div_two_pow, BitVec.testBit_toNat]
  by_cases h2 : 2 ≤ k
  · rw [Nat.sub_add_cancel h2]
    simp only [hk, h2, decide_true, true_and, Bool.true_and, show (k - 2 < 18) = (k < 20) from propext (by omega)]
    exact Bool.and_comm _ _
  · simp [h2]

end Sys2Proof.Machine
end

section
/-!
Writes of system registers that are shared by fibres, and the statement of O32.
-/

namespace Sys2Proof.Machine

open Sys2Proof

/-! ### Registers of a group, a team, a context, a core or a region -/

theorem State.team?_congr {s t : State} (h : t.teams = s.teams) (n : Nat) : t.team? n = s.team? n := by
  rw [State.team?, h]

theorem State.ctxOf_congr {s t : State} (h : t.ctxs = s.ctxs) (n : Nat) : t.ctxOf n = s.ctxOf n := by
  rw [State.ctxOf, State.ctxOf, h]

section
variable {i : Instr} {s s1 : State} {h : Here} {ins : List LaneIn} {n : Nat} {v : Dword}

theorem Reads.group (hr : Reads i s h ins s1) (hi : Issues i s h) : s1.group? h.g.gid = some h.g := by
  rw [State.group?, hr.sameButCaches.groups]
  exact hi.group

theorem Reads.team (hr : Reads i s h ins s1) (hi : Issues i s h) : s1.team? h.t.tid = some h.t := by
  rw [State.team?_congr hr.sameButCaches.teams, hi.tid]
  exact hi.team

/-- Where the fibres stand after a write of a shared register, and that it writes no general register. -/
theorem sharedWritten_spec (hg : s1.group? h.g.gid = some h.g) (hgid : h.c.pk.gid = h.g.gid) :
    ∃ g, (sharedWritten i h s1 n v).group? h.g.gid = some g ∧ StandsOn h i.words g ∧
      (n ∉ [0x107, 0x108, 0x250] ∨ s1.monitors = [] →
        (∀ j, j < 32 → (g.lane j).regs = (h.g.lane j).regs) ∧ g.scal = h.g.scal) := by
  obtain ⟨k, hk, hplace, hquiet⟩ := sysWrite_group hg n v
  obtain ⟨⟨g, hgroup, hmoves⟩, -, -⟩ := sharedWritten_group (i := i) hgid hk
  refine ⟨g, hgroup, standsOn_of_moves hmoves hplace, fun hq => ?_⟩
  obtain ⟨hscal, hregs⟩ := hquiet hq
  exact ⟨fun j hj => (hmoves.regs hj).trans (hregs j hj), hmoves.scal.trans hscal⟩

/-- A write that rewrites the packet's group with `f`, and nothing else. -/
theorem sharedWritten_ownGroup (hg : s1.group? h.g.gid = some h.g) (hgid : h.c.pk.gid = h.g.gid)
    {f : Group → Group} (hf : ∀ g, (f g).gid = g.gid) (hw : writeWait s1 h n v = none)
    (hs : sysWrite s1 h n v = s1.updGroup h.g.gid f) {g : Group}
    (hk : (sharedWritten i h s1 n v).group? h.g.gid = some g) :
    SameElse s1 (sharedWritten i h s1 n v) h ∧
      Moves (onPc h.c.pk.lanes i.words) (onRem h.c.pk.lanes i.words) (f h.g) g := by
  rw [sharedWritten_of_noWait hw, hs] at hk ⊢
  refine ⟨(s1.updGroup_sameElse h f hf).trans ((State.advance_moves _ h.c i.words).sameElse hgid rfl), ?_⟩
  obtain ⟨k, hk', hmoves⟩ := State.advance_group hgid (State.updGroup_group?_same hg f hf) i.words
  obtain rfl : k = g := Option.some.inj (hk'.symm.trans hk)
  exact hmoves

/-- A register that may not be written, or that no number names, ignores the write. -/
theorem sharedWritten_ignored (hg : s1.group? h.g.gid = some h.g) (hgid : h.c.pk.gid = h.g.gid)
    (hn : n ∈ [0x000, 0x022, 0x03F, 0x0FF, 0x312, 0x6FF]) {g : Group}
    (hk : (sharedWritten i h s1 n v).group? h.g.gid = some g) :
    SameElse s1 (sharedWritten i h s1 n v) h ∧ SameRegs h.g g := by
  have hwrite : writeWait s1 h n v = none ∧ sysWrite s1 h n v = s1 := by
    simp only [List.mem_cons, List.not_mem_nil, or_false] at hn
    rcases hn with rfl | rfl | rfl | rfl | rfl | rfl <;> exact ⟨rfl, rfl⟩
  rw [sharedWritten_of_noWait hwrite.1, hwrite.2] at hk ⊢
  obtain ⟨k, hk', hmoves⟩ := State.advance_group hgid hg i.words
  obtain rfl : k = g := Option.some.inj (hk'.symm.trans hk)
  exact ⟨(s1.advance_moves h.c i.words).sameElse hgid rfl, hmoves.sameRegs⟩

/-- TVEC after a write of it. -/
theorem sharedWritten_tvec (hg : s1.group? h.g.gid = some h.g) (hgid : h.c.pk.gid = h.g.gid)
    (ht : s1.team? h.t.tid = some h.t) :
    ∃ tm, (sharedWritten i h s1 0x030 v).team? h.t.tid = some tm ∧ tm.tvec = v := by
  obtain ⟨k, hk, -, -⟩ := sysWrite_group hg 0x030 v
  obtain ⟨-, hteams, -⟩ := sharedWritten_group (i := i) hgid hk
  have hwrite : sysWrite s1 h 0x030 v = s1.updTeam h.t.tid fun t => { t with tvec := v } := rfl
  refine ⟨{ h.t with tvec := v }, (State.team?_congr hteams _).trans ?_, rfl⟩
  rw [hwrite]
  exact State.updTeam_team?_same ht (fun t => { t with tvec := v }) fun _ => rfl

/-- A write of XLGEN with bit 0 set starts a new generation (R160). -/
theorem sharedWritten_bump (hg : s1.group? h.g.gid = some h.g) (hgid : h.c.pk.gid = h.g.gid)
    (hv : v.getLsbD 0 = true) : ((sharedWritten i h s1 0x103 v).ctxOf h.t.asid).bump = true := by
  obtain ⟨k, hk, -, -⟩ := sysWrite_group hg 0x103 v
  obtain ⟨-, -, hctxs⟩ := sharedWritten_group (i := i) hgid hk
  have hwrite : sysWrite s1 h 0x103 v = if v.getLsbD 0 then bumpGen s1 h.t.asid else s1 := rfl
  have hbump : (bumpGen s1 h.t.asid).ctxOf h.t.asid = { s1.ctxOf h.t.asid with bump := true } :=
    (s1.updCtx_ctxOf h.t.asid h.t.asid (fun c => { c with bump := true }) fun _ => rfl).trans (if_pos rfl)
  rw [State.ctxOf_congr hctxs, hwrite, if_pos hv, hbump]

end

/-! ### Enabling a slice heap (R332) -/

/-- The header and the free slots of a heap of `count` slots, 16 bytes each. -/
abbrev emptyHeap (count : Nat) : List Byte :=
  (List.range (count + 1)).flatMap fun k => leBytes 16 ((if k = count then 0 else k + 1) * 2 ^ 112)

/-- What a write of SLHEAPCFG leaves, where the heap that it enables can be written. -/
theorem setSlheapcfg_spec (s : State) (asid : Nat) (v : Word) (tr : Trans) :
    let c := s.ctxOf asid
    let cfg := slheapcfgValue c v
    let rises := cfg.getLsbD 31 && !heapOn c
    let count := slotCount cfg
    (rises = true → xlateNow s asid (heapBase c) (.engine true) false = some (.ok tr) ∧
      ∀ k, k ≤ 16 * (count + 1) / 256 → lineMoving s { tr with pa := tr.pa + 256 * k } = false) →
    ∃ t, setSlheapcfg s asid v = .ok t ∧ (t.ctxOf asid).slheapcfg = cfg ∧
      (∀ n g, s.group? n = some g → ∃ k, t.group? n = some k ∧
        ∀ j, j < 32 → (k.lane j).pc = (g.lane j).pc ∧ (k.lane j).rem = (g.lane j).rem) ∧
      t.mem = if rises then Mem.write (s.accessed asid (heapBase c)).mem tr.key (emptyHeap count) else s.mem := by
  intro c cfg rises count hreach
  have hcfg : ((s.updCtx asid fun c => { c with slheapcfg := cfg }).ctxOf asid).slheapcfg = cfg :=
    congrArg Ctx.slheapcfg
      ((s.updCtx_ctxOf asid asid (fun c => { c with slheapcfg := cfg }) fun _ => rfl).trans (if_pos rfl))
  cases hrises : rises with
  | false =>
    refine ⟨_, ?_, hcfg, fun n g hg => ⟨g, hg, fun _ _ => ⟨rfl, rfl⟩⟩, rfl⟩
    rw [setSlheapcfg]
    exact if_neg (ne_true_of_eq_false hrises)
  | true =>
    obtain ⟨hx, hlines⟩ := hreach hrises
    have hstill : ((List.range (16 * (count + 1) / 256 + 1)).any fun k =>
        lineMoving s { tr with pa := tr.pa + 256 * k }) = false := by
      rw [List.any_eq_false]
      intro k hk
      rw [hlines k (Nat.lt_succ_iff.mp (List.mem_range.mp hk))]
      exact Bool.false_ne_true
    have hplaces := ((s.updCtx asid fun c => { c with slheapcfg := cfg }).accessed_undisturbed asid (heapBase c)).trans
      (State.writeHome_undisturbed _ tr (emptyHeap count) none)
    refine ⟨((s.updCtx asid fun c => { c with slheapcfg := cfg }).accessed asid (heapBase c)).writeHome tr
      (emptyHeap count), ?_, ?_, fun n g hg => hplaces.own n g hg, ?_⟩
    · rw [setSlheapcfg]
      refine (if_pos hrises).trans ?_
      dsimp only
      rw [hx]
      exact if_neg (ne_true_of_eq_false hstill)
    · rw [State.ctxOf_congr hplaces.ctxs]
      exact hcfg
    · rw [State.writeHome_mem, State.accessed_mem_slheapcfg]
      rfl

/-- A write of SLHEAPCFG that can be made. -/
theorem wrsys_slheapcfg {a : Src} {s s1 t : State} {h : Here} {ins : List LaneIn} (hi : Issues (.wrsys 0x301 a) s h)
    (hr : Reads (.wrsys 0x301 a) s h ins s1) (hu : h.user = false)
    (ht : setSlheapcfg s1 h.t.asid ((lowestValue ins).setWidth 32) = .ok t) :
    exec (.wrsys 0x301 a) s = .next (t.advance h.c (Instr.wrsys 0x301 a).words) := by
  have hexec : exec (.wrsys 0x301 a) s = execWrsys 0x301 a s := rfl
  have hwaits : writeWaits s1 h.c.core (BitVec.toNat (0x301 : BitVec 12)) (lowestValue ins) = false := by
    show (s1.gvPend && false || false && _ || false && _) = false
    simp
  rw [hexec, execWrsys, issue_next hi, if_neg (by decide), hu, if_neg (by decide), withOperands_reads hr]
  dsimp only
  rw [hwaits, if_neg Bool.false_ne_true, if_neg (by simp), if_neg (by simp), if_pos (by decide), ht]

/-! ### Writes that trap (R55, R231) -/

/-- A number from 0x700, and in user mode a register that user mode may not write. -/
theorem wrsys_fault {n : BitVec 12} {a : Src} {s : State} {h : Here} (hi : Issues (.wrsys n a) s h)
    (hn : 0x700 ≤ n.toNat ∨ h.user = true ∧ userWrites n.toNat = false) : ∃ info, exec (.wrsys n a) s =
      .next (s.fault h.c h.act (if 0x700 ≤ n.toNat then fIllegalSysreg else fPrivilege) info) := by
  have hexec : exec (.wrsys n a) s = execWrsys n a s := rfl
  rw [hexec, execWrsys, issue_next hi]
  by_cases hill : 0x700 ≤ n.toNat
  · rw [if_pos hill, if_pos hill]
    exact ⟨_, rfl⟩
  · obtain ⟨hu, hw⟩ := hn.resolve_left hill
    rw [if_neg hill, if_neg hill, hu, hw]
    exact ⟨_, rfl⟩

/-! ### The statement -/

/-- The shared registers that the statement names, and the numbers that it lets a write ignore, are held by no fibre. -/
theorem not_fibreHeld {n : Nat} (hn : n ∈ [0x020, 0x021, 0x030, 0x103] ++ [0x000, 0x022, 0x03F, 0x0FF, 0x312, 0x6FF]) :
    fibreHeld n = false := by
  revert n
  decide

/-- What a write of a system register leaves, clause by clause (R231 to R233). -/
theorem wrsys_spec (n : BitVec 12) (a : Src) (s s1 : State) (h : Here) (ins : List LaneIn) :
    let i : Instr := .wrsys n a
    let v := ((ins.head?).map fun x => x.s 0).getD 0
    Issues i s h → Reads i s h ins s1 → n.toNat < 0x700 → (h.user = true → userWrites n.toNat = true) →
    writeWaits s1 h.c.core n.toNat v = false → (n.toNat = 0x030 → v.toNat % 4 = 0) → n.toNat ≠ 0x301 →
    (n.toNat = 0x250 → bqctlWaits s1 h.c.core h.t.asid (v.setWidth 32) = false) →
    ∃ t g, exec i s = .next t ∧ t.group? h.g.gid = some g ∧ StandsOn h i.words g ∧
      (n.toNat ∉ [0x107, 0x108, 0x250] ∨ s1.monitors = [] →
        (∀ j, j < 32 → (g.lane j).regs = (h.g.lane j).regs) ∧ g.scal = h.g.scal) ∧
      (fibreHeld n.toNat = true → SameElse s1 t h ∧ g.fpctl = h.g.fpctl ∧ ∀ j, j < 32 →
        let x := h.g.lane j
        let y := g.lane j
        let w := laneOp ins 0 j
        if h.act.getLsbD j = true then
          (n = 0x031 → y.epc = w) ∧ (n = 0x032 → y.estatus = w.setWidth 32 &&& 0xF00F) ∧
          (n = 0x033 → y.ecause = w.setWidth 32 &&& 0xFFFF) ∧ (n = 0x034 → y.eaddr = w) ∧
          (n = 0x035 → y.einfo = w.setWidth 32) ∧ (n = 0x036 → y.eclause = w.setWidth 32) ∧
          (∀ k, k < 4 → n.toNat = 0x038 + k → vget y.esave k 0 = w.setWidth 32) ∧
          (n = 0x310 → y.sp = w.setWidth 56) ∧ (n = 0x311 → y.fp = w.setWidth 56)
        else SameTrap x y ∧ y.sp = x.sp ∧ y.fp = x.fp) ∧
      (n = 0x020 → SameElse s1 t h ∧ ∀ k, k < 32 → g.fpctl.getLsbD k =
        (decide (k < 2) && v.getLsbD k || decide (8 ≤ k ∧ k < 14) && h.g.fpctl.getLsbD k && !v.getLsbD k)) ∧
      (n = 0x021 → SameElse s1 t h ∧ g.cbase = v.setWidth 32 &&& 0xFFFFC) ∧
      (n = 0x030 → ∃ tm, t.team? h.t.tid = some tm ∧ tm.tvec = v) ∧
      (n = 0x103 → v.getLsbD 0 = true → (t.ctxOf h.t.asid).bump = true) ∧
      (n.toNat ∈ [0x000, 0x022, 0x03F, 0x0FF, 0x312, 0x6FF] → SameElse s1 t h ∧ SameRegs h.g g) := by
  intro i v hi hr hn hu hwaits htvec hheap hqueue
  have hexec := wrsys_next hi hr hn hu hwaits htvec hheap hqueue
  have hgroup := hr.group hi
  cases hheld : fibreHeld n.toNat with
  | true =>
    rw [hheld, if_pos rfl] at hexec
    obtain ⟨g, hg, hstands, hregs, hscal, helse, hfpctl, hlanes⟩ := fibreHeld_spec hi hr n i.words
    have hother : n.toNat ∉ [0x020, 0x021, 0x030, 0x103] ++ [0x000, 0x022, 0x03F, 0x0FF, 0x312, 0x6FF] := fun hmem =>
      absurd hheld (ne_true_of_eq_false (not_fibreHeld hmem))
    have hnot : ∀ m : BitVec 12, m.toNat ∈ [0x020, 0x021, 0x030, 0x103] → n ≠ m := fun m hm he =>
      hother (he ▸ List.mem_append_left _ hm)
    refine ⟨_, g, hexec, hg, hstands, fun _ => ⟨hregs, hscal⟩, fun _ => ⟨helse, hfpctl, fun j hj => ?_⟩,
      fun he => absurd he (hnot _ (by decide)), fun he => absurd he (hnot _ (by decide)),
      fun he => absurd he (hnot _ (by decide)), fun he => absurd he (hnot _ (by decide)),
      fun hmem => absurd (List.mem_append_right _ hmem) hother⟩
    · dsimp only
      have hlane := hlanes j hj
      by_cases hact : h.act.getLsbD j = true
      · rw [if_pos hact] at hlane ⊢
        obtain ⟨h1, h2, h3, h4, h5, h6, h7, h8, h9⟩ := hlane
        exact ⟨h1, h2, h3, h4, h5, h6, h7, h8, h9⟩
      · rw [if_neg hact] at hlane ⊢
        exact hlane
  | false =>
    rw [hheld, if_neg Bool.false_ne_true] at hexec
    obtain ⟨g, hg, hstands, hquiet⟩ := sharedWritten_spec (i := i) (n := n.toNat) (v := v) hgroup hi.gid
    refine ⟨_, g, hexec, hg, hstands, hquiet, fun hf => absurd hf Bool.false_ne_true, ?_, ?_, ?_, ?_, fun hmem => ?_⟩
    · rintro rfl
      obtain ⟨helse, hmoves⟩ := sharedWritten_ownGroup hgroup hi.gid
        (f := fun g => { g with fpctl := fpctlWrite g.fpctl (v.setWidth 32) }) (fun _ => rfl) rfl rfl hg
      refine ⟨helse, fun k hk => ?_⟩
      rw [hmoves.fpctl]
      exact getLsbD_fpctlWrite _ _ hk
    · rintro rfl
      obtain ⟨helse, hmoves⟩ := sharedWritten_ownGroup hgroup hi.gid
        (f := fun g => { g with cbase := BitVec.ofNat 32 (dbits v 2 18 * 4) }) (fun _ => rfl) rfl rfl hg
      exact ⟨helse, hmoves.cbase.trans (cbase_value v)⟩
    · rintro rfl
      exact sharedWritten_tvec hgroup hi.gid (hr.team hi)
    · rintro rfl hv
      exact sharedWritten_bump hgroup hi.gid hv
    · exact sharedWritten_ignored hgroup hi.gid hmem hg

theorem wrsys_slheapcfg_spec (a : Src) (s s1 : State) (h : Here) (ins : List LaneIn) (tr : Trans) :
    let i : Instr := .wrsys 0x301 a
    let c := s1.ctxOf h.t.asid
    let cfg := slheapcfgValue c ((((ins.head?).map fun (x : LaneIn) => x.s 0).getD 0).setWidth 32)
    let rises := cfg.getLsbD 31 && !heapOn c
    let count := slotCount cfg
    Issues i s h → Reads i s h ins s1 → h.user = false →
    (rises = true → xlateNow s1 h.t.asid (heapBase c) (.engine true) false = some (.ok tr) ∧
      ∀ k, k ≤ 16 * (count + 1) / 256 → lineMoving s1 { tr with pa := tr.pa + 256 * k } = false) →
    ∃ t g, exec i s = .next t ∧ t.group? h.g.gid = some g ∧ StandsOn h i.words g ∧
      (t.ctxOf h.t.asid).slheapcfg = cfg ∧
      t.mem = if rises then Mem.write (s1.accessed h.t.asid (heapBase c)).mem tr.key (emptyHeap count) else s1.mem := by
  intro i c cfg rises count hi hr hu hreach
  obtain ⟨t, hset, hcfg, hplaces, hmem⟩ := setSlheapcfg_spec s1 h.t.asid ((lowestValue ins).setWidth 32) tr hreach
  obtain ⟨k, hk, hstood⟩ := hplaces _ _ (hr.group hi)
  obtain ⟨g, hg, hmoves⟩ := State.advance_group hi.gid hk i.words
  obtain ⟨gs, ks, os, honly⟩ := (t.advance_moves h.c i.words).only
  refine ⟨_, g, wrsys_slheapcfg hi hr hu hset, hg, standsOn_of_moves hmoves hstood, ?_, ?_⟩
  · rw [State.ctxOf_congr (s := t) (by rw [honly])]
    exact hcfg
  · rw [honly]
    exact hmem

/-- Settles O32: `CLK`, `RDSYS` and `WRSYS` by what each leaves of the packet's group; a shared register's write through
`sharedWritten`, a fibre's own through `fibreHeld_spec`, and the traps through `fault_spec`. -/
theorem systemRegisters : Obligations.SystemRegisters := by
  refine ⟨⟨fun d s s1 h ins hi hr => clk_next hi hr, fun d n s h hi hn => rdsys_spec hi hn, sysRead_values,
    fun d n s h hi hn hv hlive => ?_⟩, wrsys_spec, wrsys_slheapcfg_spec, fun n a s h hi hv hlive hn => ?_⟩
  · obtain ⟨g, hg, hregs, hlanes⟩ := fault_spec hi hv hlive fIllegalSysreg n.toNat
    refine ⟨_, g, rdsys_illegal hi hn, hg, hregs, fun j hj hact => ?_⟩
    obtain ⟨hcause, hinfo, -⟩ := hlanes j hj hact
    exact ⟨hcause, hinfo.trans (BitVec.ofNat_toNat 32 n)⟩
  · obtain ⟨info, hexec⟩ := wrsys_fault hi hn
    obtain ⟨g, hg, hregs, hlanes⟩ := fault_spec hi hv hlive
      (if 0x700 ≤ n.toNat then fIllegalSysreg else fPrivilege) info
    refine ⟨_, g, hexec, hg, hregs, fun j hj hact => ?_⟩
    obtain ⟨hcause, -, hpc⟩ := hlanes j hj hact
    refine ⟨hcause.trans ?_, hpc⟩
    split <;> rfl

end Sys2Proof.Machine
end

section
/-!
Every step answers a next state (O4): the outcome of every instruction, and of every move.
-/

namespace Sys2Proof.Machine

open Sys2Proof

variable (s : State)

/-! ### Outcomes of instructions -/

/-- An outcome that is no refusal: a next state, or that the instruction is not to be taken here. -/
def Meant (o : Out) : Prop := ∀ r, o ≠ .refused r

theorem meant_next : Meant (.next s) := fun _ h => nomatch h

theorem meant_fault (f : Fault) : Meant (.fault f) := fun _ h => nomatch h

theorem withPacket_meant (k : Here → State) : Meant (withPacket s k) := by
  unfold withPacket
  split
  · exact meant_next _
  · exact meant_fault _

theorem whenEnabled_meant (b : Bool) (f : State → State) : Meant (whenEnabled b s f) := by
  unfold whenEnabled
  split
  · exact meant_next _
  · exact meant_fault _

/-- A step that waits under some condition. -/
theorem Meant.unless {p : Prop} [Decidable p] {f : Fault} {o : Out} (h : Meant o) : Meant (if p then .fault f else o) :=
  iteInduction (fun _ => meant_fault f) fun _ => h

/-- An encoded instruction acts on the packet in hand. -/
theorem exec_withPacket {i : Instr} (h : i.cls.isSome = true) : ∃ k, exec i s = withPacket s k := by
  cases i <;> cases h <;> exact ⟨_, rfl⟩

theorem exec_isNext {i : Instr} (h : i.cls.isSome = true) (hh : s.here?.isSome = true) : ∃ t, exec i s = .next t := by
  obtain ⟨k, hk⟩ := exec_withPacket s h
  obtain ⟨here, hh⟩ := Option.isSome_iff_exists.mp hh
  rw [hk, withPacket, hh]
  exact ⟨_, rfl⟩

/-- A step of the machine is taken when its conditions hold; some wait besides. -/
theorem exec_step_meant {i : Instr} (h : i.cls = none) : Meant (exec i s) := by
  cases i <;> cases h <;> unfold exec
  case cpwinWrite | bqctlEnable | slheapcfgEnable | gvctlWrite | gvorderWrite | gvposWrite | gvbndWrite
      | gvintlenWrite | marginChange | flitReceive | jobTableWrite | hostRmaPut | hostRmaGet | hostRmaAtomic
      | mgmtWrite =>
    exact .unless (whenEnabled_meant _ _ _)
  case contextRemove | contextRestore => exact .unless (.unless (whenEnabled_meant _ _ _))
  all_goals exact whenEnabled_meant _ _ _

/-- No instruction is without a meaning. -/
theorem exec_meant (i : Instr) : Meant (exec i s) := by
  cases hc : i.cls with
  | none => exact exec_step_meant s hc
  | some c =>
    obtain ⟨k, hk⟩ := exec_withPacket s (i := i) (by rw [hc]; rfl)
    exact hk ▸ withPacket_meant s k

/-! ### Words -/

/-- The decoder gives encoded instructions only. -/
theorem cls_of_decode {c : Sys2Proof.Class} {ws : List Word} {i : Instr} {n : Nat} (h : decode c ws = .ok (i, n)) :
    i.cls.isSome = true := by
  have hwf : i.wf = true := by
    unfold decode at h
    split at h
    · cases h
    · split at h
      · cases h
      · split at h
        · cases h
        · split at h
          · next hwf => cases h; exact hwf
          · cases h
  simp only [Instr.wf, encodable, Bool.and_eq_true] at hwf
  obtain ⟨⟨⟨⟨hcls, -⟩, -⟩, -⟩, -⟩ := hwf
  exact hcls

theorem SameButCaches.here? {s t : State} {core : Nat} (h : SameButCaches core s t) : t.here? = s.here? := by
  simp only [State.here?, State.group?, State.team?, h.cur, h.groups, h.teams]

/-- What a fetch finds is an encoded instruction, and the packet stays in hand. -/
theorem fetchFrom_encoded {c : Sys2Proof.Class} {h : Here} {n : Nat} {ws : List Word} {i : Instr} {t : State}
    (hf : fetchFrom c h n ws s = .run i t) : i.cls.isSome = true ∧ t.here? = s.here? := by
  induction n generalizing ws s with
  | zero => cases hf
  | succ n ih =>
    unfold fetchFrom at hf
    split at hf
    · split at hf <;> cases hf
    · split at hf <;> cases hf
    · next w s1 hw =>
      have hsame := (fetchWord_sameButCaches s hw).here?
      split at hf
      · next hd =>
        cases hf
        exact ⟨cls_of_decode hd, hsame⟩
      · cases hf
      · obtain ⟨hcls, hhere⟩ := ih s1 hf
        exact ⟨hcls, hhere.trans hsame⟩

theorem fetchInstr_encoded {h : Here} {i : Instr} {t : State} (hf : fetchInstr s h = .run i t) :
    i.cls.isSome = true ∧ t.here? = s.here? := by
  unfold fetchInstr at hf
  split at hf
  · cases hf
  · exact fetchFrom_encoded s hf

theorem wordStep_isNext (core sched : Nat) : ∃ t, wordStep s core sched = .next t := by
  unfold wordStep
  split
  · exact ⟨_, rfl⟩
  · split
    · exact ⟨_, rfl⟩
    · next hh =>
      split
      · exact ⟨_, rfl⟩
      · split
        · next hf =>
          obtain ⟨hcls, hhere⟩ := fetchInstr_encoded _ hf
          exact exec_isNext _ hcls (by rw [hhere, hh]; rfl)
        · exact ⟨_, rfl⟩

/-! ### Moves -/

/-- An event that can no longer happen leaves the time that has passed. -/
theorem perform_isNext (m : Move) : ∃ t, perform s m = .next t := by
  cases m with
  | word core sched => exact wordStep_isNext s core sched
  | event i =>
    have hmeant := exec_meant s.passTime i
    cases hexec : exec i s.passTime with
    | next t => exact ⟨t, by simp only [perform, hexec]⟩
    | fault f => exact ⟨s.passTime, by simp only [perform, hexec]⟩
    | refused r => exact absurd hexec (hmeant r)
  | engine op => exact ⟨_, rfl⟩
  | sector die asid node => exact ⟨_, rfl⟩
  | hop req => exact ⟨_, rfl⟩
  | entries => exact ⟨_, rfl⟩

theorem nextOutcome_isNext : ∃ t, nextOutcome s = .next t := by
  unfold nextOutcome
  split
  · exact ⟨_, rfl⟩
  · split
    · next h => exact ⟨_, whenEnabled_next h s doIntervalBoundary⟩
    · split
      · exact ⟨_, rfl⟩
      · exact perform_isNext _ _

/-- Settles O4: an event that cannot happen lets time pass, and a word is executed only with its packet. -/
theorem everyStepAnswersNext : Obligations.EveryStepAnswersNext := by
  intro s
  obtain ⟨t, ht⟩ := nextOutcome_isNext s
  exact ⟨_, congrArg (keepingAreas s) ht⟩

end Sys2Proof.Machine
end

section
/-!
The vote of a scheduler (R62 to R64), and the statement of O48.
-/

namespace Sys2Proof.Machine

open Sys2Proof

/-! ### The chosen group (R62) -/

/-- One group comes before another by class, then age, then slot. -/
theorem Group.before_iff (s : State) (a b : Group) : a.before s b = true ↔
    a.sclass s < b.sclass s ∨ (a.sclass s = b.sclass s ∧ (a.age < b.age ∨ (a.age = b.age ∧ a.slot < b.slot))) := by
  simp only [Group.before, Bool.or_eq_true, Bool.and_eq_true, beq_iff_eq, decide_eq_true_eq]

/-- The best of a list that begins with the best so far. -/
theorem foldl_best {s : State} (l : List (Group × Team × List Path)) (a : Group × Team × List Path) :
    ∃ b, l.foldl (fun best b => match best with
        | none => some b
        | some a => if b.1.before s a.1 then some b else best) (some a) = some b ∧
      b ∈ a :: l ∧ ∀ x ∈ a :: l, ¬ x.1.before s b.1 = true := by
  induction l generalizing a with
  | nil =>
    refine ⟨a, rfl, List.mem_cons_self, fun x hx => ?_⟩
    rw [List.mem_singleton.mp hx, Group.before_iff]
    omega
  | cons c l ih =>
    simp only [List.foldl_cons]
    by_cases hca : c.1.before s a.1 = true
    · obtain ⟨b, hb, hmem, hbest⟩ := ih c
      rw [if_pos hca]
      refine ⟨b, hb, List.mem_cons_of_mem _ hmem, fun x hx => ?_⟩
      rcases List.mem_cons.mp hx with rfl | hx
      · have hc := hbest c List.mem_cons_self
        rw [Group.before_iff] at hc hca ⊢
        omega
      · exact hbest x hx
    · obtain ⟨b, hb, hmem, hbest⟩ := ih a
      rw [if_neg hca]
      refine ⟨b, hb, ?_, fun x hx => ?_⟩
      · rcases List.mem_cons.mp hmem with rfl | hmem
        · exact List.mem_cons_self
        · exact List.mem_cons_of_mem _ (List.mem_cons_of_mem _ hmem)
      · rcases List.mem_cons.mp hx with rfl | hx
        · exact hbest _ List.mem_cons_self
        · rcases List.mem_cons.mp hx with rfl | hx
          · have ha := hbest a List.mem_cons_self
            rw [Group.before_iff] at ha hca ⊢
            omega
          · exact hbest x (List.mem_cons_of_mem _ hx)

/-- The chosen group is one of the list, and none of the list comes before it. -/
theorem chosen_spec {s : State} {l : List (Group × Team × List Path)} {b : Group × Team × List Path}
    (h : chosen s l = some b) : b ∈ l ∧ ∀ a ∈ l, ¬ a.1.before s b.1 = true := by
  cases l with
  | nil => cases h
  | cons a l =>
    obtain ⟨c, hc, hmem, hbest⟩ := foldl_best (s := s) l a
    obtain rfl : c = b := Option.some.inj (hc.symm.trans h)
    exact ⟨hmem, hbest⟩

/-! ### Paths by rising PC (R61) -/

/-- The paths of the list stand at PCs that do not fall. -/
abbrev Rising (l : List Path) : Prop := l.Pairwise fun p q => p.pc.toNat ≤ q.pc.toNat

/-- A path that is placed among others stands where it stood; so do they. -/
theorem pc_of_mem_addPath {p x : Path} {l : List Path} (h : x ∈ addPath p l) :
    x.pc = p.pc ∨ ∃ q ∈ l, x.pc = q.pc := by
  induction l with
  | nil => exact .inl (congrArg Path.pc (List.mem_singleton.mp h))
  | cons q l ih =>
    rw [addPath] at h
    split at h
    · rcases List.mem_cons.mp h with rfl | h
      · exact .inr ⟨q, List.mem_cons_self, rfl⟩
      · exact .inr ⟨x, List.mem_cons_of_mem _ h, rfl⟩
    · split at h
      · rcases List.mem_cons.mp h with rfl | h
        · exact .inl rfl
        · exact .inr ⟨x, h, rfl⟩
      · rcases List.mem_cons.mp h with rfl | h
        · exact .inr ⟨x, List.mem_cons_self, rfl⟩
        · rcases ih h with hp | ⟨r, hr, hx⟩
          · exact .inl hp
          · exact .inr ⟨r, List.mem_cons_of_mem _ hr, hx⟩

theorem Rising.addPath {l : List Path} (hl : Rising l) (p : Path) : Rising (addPath p l) := by
  induction l with
  | nil => exact List.pairwise_singleton _ _
  | cons q l ih =>
    obtain ⟨hq, hl⟩ := List.pairwise_cons.mp hl
    rw [Machine.addPath]
    split
    · exact List.pairwise_cons.mpr ⟨hq, hl⟩
    · split
      · next hlt =>
        refine List.pairwise_cons.mpr ⟨fun x hx => ?_, List.pairwise_cons.mpr ⟨hq, hl⟩⟩
        rcases List.mem_cons.mp hx with rfl | hx
        · exact hlt.le
        · exact hlt.le.trans (hq x hx)
      · next hlt =>
        refine List.pairwise_cons.mpr ⟨fun x hx => ?_, ih hl⟩
        rcases pc_of_mem_addPath hx with hp | ⟨r, hr, hx⟩
        · rw [hp]
          exact not_lt.mp hlt
        · rw [hx]
          exact hq r hr

theorem Group.paths_rising (g : Group) (m : BitVec 32) : Rising (g.paths m) := by
  have hfold : ∀ (is : List Nat) (l : List Path), Rising l →
      Rising (is.foldl (fun l i => addPath ((g.lane i).path i) l) l) := by
    intro is
    induction is with
    | nil => exact fun _ h => h
    | cons i is ih => exact fun l h => ih _ (h.addPath _)
  exact hfold _ _ List.Pairwise.nil

theorem Group.eligible_rising (g : Group) (s : State) (t : Team) (m : BitVec 32) : Rising (g.eligible s t m) := by
  have hall := (g.paths_rising m).filter fun p => p.clear s g t
  simp only [Group.eligible]
  split
  · exact hall
  · exact hall.filter _

/-- The ready paths of a group are listed by rising PC. -/
theorem Group.ready_rising (g : Group) (s : State) (t : Team) (m : BitVec 32) : Rising (g.ready s t m) := by
  refine List.Pairwise.filterMap _ (fun p q hpq p' hp q' hq => ?_) (g.eligible_rising s t m)
  have hpc : ∀ {x y : Path}, y ∈ (if x.readyLanes s g t = 0 then none
      else some { x with lanes := x.readyLanes s g t }) → y.pc = x.pc := by
    intro x y hy
    split at hy
    · cases hy
    · cases hy
      rfl
  rw [hpc hp, hpc hq]
  exact hpq

/-! ### The override (R63) -/

/-- What the override comes to after some paths: the first one of the greatest skip count that has reached P − 1. -/
structure Overrides (g : Group) (l : List Path) (o : Path) : Prop where
  mem : o ∈ l
  due : g.pcCount ≤ o.skip g + 1
  greatest : ∀ x ∈ l, x.skip g ≤ o.skip g ∧ (x.skip g = o.skip g → o.pc.toNat ≤ x.pc.toNat)

theorem Group.override_append_singleton (g : Group) (l : List Path) (p : Path) : g.override (l ++ [p]) =
    if p.skip g + 1 < g.pcCount then g.override l
    else match g.override l with
      | none => some p
      | some q => if q.skip g < p.skip g then some p else some q := by
  rw [override, List.foldl_append]
  simp only [List.foldl_cons, List.foldl_nil]
  show (if _ then g.override l else match g.override l with | none => _ | some q => if _ then _ else g.override l) = _
  cases g.override l <;> rfl

/-- With no path at P − 1 there is no override. -/
theorem Group.override_none {g : Group} {l : List Path} (h : ∀ x ∈ l, x.skip g + 1 < g.pcCount) :
    g.override l = none := by
  induction l using List.reverseRecOn with
  | nil => rfl
  | append_singleton l p ih =>
    rw [override_append_singleton, if_pos (h p (by simp))]
    exact ih fun x hx => h x (List.mem_append_left _ hx)

/-- With a path at P − 1 there is one. -/
theorem Group.override_some {g : Group} {l : List Path} (hl : Rising l) (h : ∃ x ∈ l, g.pcCount ≤ x.skip g + 1) :
    ∃ o, g.override l = some o ∧ Overrides g l o := by
  induction l using List.reverseRecOn with
  | nil =>
    obtain ⟨x, hx, -⟩ := h
    cases hx
  | append_singleton l p ih =>
    obtain ⟨hl, -, hlast⟩ := List.pairwise_append.mp hl
    have hbelow : ∀ x ∈ l, x.pc.toNat ≤ p.pc.toNat := fun x hx => hlast x hx p List.mem_cons_self
    rw [override_append_singleton]
    by_cases hdue : ∃ x ∈ l, g.pcCount ≤ x.skip g + 1
    · obtain ⟨o, ho, hmem, hodue, hgreat⟩ := ih hl hdue
      rw [ho]
      have hkeep : p.skip g ≤ o.skip g → Overrides g (l ++ [p]) o := fun hle =>
        ⟨List.mem_append_left _ hmem, hodue, fun x hx => by
          rcases List.mem_append.mp hx with hx | hx
          · exact hgreat x hx
          · rw [List.mem_singleton.mp hx]
            exact ⟨hle, fun _ => hbelow o hmem⟩⟩
      by_cases hp : p.skip g + 1 < g.pcCount
      · exact ⟨o, if_pos hp, hkeep (by omega)⟩
      · by_cases hlt : o.skip g < p.skip g
        · refine ⟨p, by simp only [hp, hlt, if_true, if_false], by simp, by omega, fun x hx => ?_⟩
          rcases List.mem_append.mp hx with hx | hx
          · have := (hgreat x hx).1
            omega
          · rw [List.mem_singleton.mp hx]
            exact ⟨le_rfl, fun _ => le_rfl⟩
        · exact ⟨o, by simp only [hp, hlt, if_false], hkeep (not_lt.mp hlt)⟩
    · have hnone : g.override l = none := override_none fun x hx => by
        by_contra hx'
        exact hdue ⟨x, hx, not_lt.mp hx'⟩
      obtain ⟨x, hx, hxdue⟩ := h
      have hpdue : g.pcCount ≤ p.skip g + 1 := by
        rcases List.mem_append.mp hx with hx | hx
        · exact absurd ⟨x, hx, hxdue⟩ hdue
        · rwa [← List.mem_singleton.mp hx]
      rw [hnone]
      refine ⟨p, by simp only [not_lt.mpr hpdue, if_false], by simp, hpdue, fun x hx => ?_⟩
      rcases List.mem_append.mp hx with hx | hx
      · have : ¬ g.pcCount ≤ x.skip g + 1 := fun hx' => hdue ⟨x, hx, hx'⟩
        omega
      · rw [List.mem_singleton.mp hx]
        exact ⟨le_rfl, fun _ => le_rfl⟩

theorem Group.mem_of_override {g : Group} {l : List Path} {o : Path} (h : g.override l = some o) : o ∈ l := by
  induction l using List.reverseRecOn generalizing o with
  | nil => cases h
  | append_singleton l p ih =>
    rw [override_append_singleton] at h
    split at h
    · exact List.mem_append_left _ (ih h)
    · split at h
      · obtain rfl := Option.some.inj h
        simp
      · next q hq =>
        split at h
        · obtain rfl := Option.some.inj h
          simp
        · obtain rfl := Option.some.inj h
          exact List.mem_append_left _ (ih hq)

/-! ### The pair of paths (R63) -/

section
variable {s : State} {g : Group} {t : Team}

/-- The pair with a second path `x` beside the path `p` of the lowest PC. -/
theorem pair_with {p x : Path} {r : List Path} (alone : Path)
    (h : pair s g t (p :: r) = if (p.cls s g t == some .M && x.cls s g t == some .M) = true
      then (some alone, none) else (some p, some x)) : pair s g t (p :: r) =
      if p.cls s g t = some .M ∧ x.cls s g t = some .M then (some alone, none) else (some p, some x) := by
  rw [h]
  simp only [Bool.and_eq_true, beq_iff_eq]

theorem pair_of_noOverride {p q : Path} {r : List Path} (h : g.override (q :: r) = none) :
    pair s g t (p :: q :: r) =
      if p.cls s g t = some .M ∧ q.cls s g t = some .M then (some p, none) else (some p, some q) := by
  refine pair_with p ?_
  rw [pair]
  simp only [h]

theorem pair_of_override {p o : Path} {r : List Path} (h : g.override r = some o) : pair s g t (p :: r) =
    if p.cls s g t = some .M ∧ o.cls s g t = some .M then (some o, none) else (some p, some o) := by
  refine pair_with o ?_
  unfold pair
  simp only [h]

/-- Two paths that go together are of the list, and not both of class M. -/
theorem pair_spec {l : List Path} {p q : Path} (h : pair s g t l = (some p, some q)) :
    p ∈ l ∧ q ∈ l ∧ ¬ (p.cls s g t = some .M ∧ q.cls s g t = some .M) := by
  have hboth : ∀ {a b c : Path}, (if a.cls s g t = some .M ∧ b.cls s g t = some .M then (some c, none)
      else (some a, some b)) = (some p, some q) →
      a = p ∧ b = q ∧ ¬ (a.cls s g t = some .M ∧ b.cls s g t = some .M) := by
    intro a b c hab
    split at hab
    · cases hab
    · next hnot =>
      obtain ⟨⟨rfl⟩, ⟨rfl⟩⟩ := Prod.mk.inj hab
      exact ⟨rfl, rfl, hnot⟩
  cases l with
  | nil => cases h
  | cons a r =>
    cases ho : g.override r with
    | some o =>
      rw [pair_of_override ho] at h
      obtain ⟨rfl, rfl, hnot⟩ := hboth h
      exact ⟨List.mem_cons_self, List.mem_cons_of_mem _ (Group.mem_of_override ho), hnot⟩
    | none =>
      cases r with
      | nil => cases h
      | cons b r =>
        rw [pair_of_noOverride ho] at h
        obtain ⟨rfl, rfl, hnot⟩ := hboth h
        exact ⟨List.mem_cons_self, List.mem_cons_of_mem _ List.mem_cons_self, hnot⟩

/-- The pair of a group's ready paths. -/
theorem ready_pair_spec {m : BitVec 32} {p q : Path} {r : List Path} (h : g.ready s t m = p :: q :: r) :
    (∀ x ∈ q :: r, p.pc.toNat ≤ x.pc.toNat) ∧ (∀ x ∈ r, q.pc.toNat ≤ x.pc.toNat) ∧
    ((∀ x ∈ q :: r, x.skip g + 1 < g.pcCount) → pair s g t (p :: q :: r) =
      if p.cls s g t = some .M ∧ q.cls s g t = some .M then (some p, none) else (some p, some q)) ∧
    ((∃ x ∈ q :: r, g.pcCount ≤ x.skip g + 1) → ∃ o ∈ q :: r, g.pcCount ≤ o.skip g + 1 ∧
      (∀ x ∈ q :: r, x.skip g ≤ o.skip g ∧ (x.skip g = o.skip g → o.pc.toNat ≤ x.pc.toNat)) ∧
      pair s g t (p :: q :: r) =
        if p.cls s g t = some .M ∧ o.cls s g t = some .M then (some o, none) else (some p, some o)) := by
  have hrising : Rising (p :: q :: r) := h ▸ g.ready_rising s t m
  obtain ⟨hp, hrising⟩ := List.pairwise_cons.mp hrising
  obtain ⟨hq, -⟩ := List.pairwise_cons.mp hrising
  refine ⟨hp, hq, fun hnone => pair_of_noOverride (Group.override_none hnone), fun hsome => ?_⟩
  obtain ⟨o, ho, hmem, hdue, hgreat⟩ := Group.override_some hrising hsome
  exact ⟨o, hmem, hdue, hgreat, pair_of_override ho⟩

end

/-! ### The packets of a vote (R63, R64) -/

/-- A core with a packet put on a port of one of its schedulers. -/
def Core.putOn (sched : Nat) (two : Bool) (pk : Option Packet) (k : Core) : Core :=
  let sc := vget k.scheds sched {}
  { k with scheds := vset k.scheds sched (if two then { sc with port2 := pk } else { sc with port1 := pk }) }

/-- A path in the middle of its clause takes its port and changes nothing else. -/
theorem putPort_midClause (s : State) (core sched : Nat) (two : Bool) (g : Group) {t : Team} {p : Path}
    (ht : t.lostNow = false) (hp : p.rem ≠ 0) : putPort s core sched two g t (some p) =
      s.updCore core (Core.putOn sched two (some { gid := g.gid, lanes := p.lanes })) := by
  simp only [putPort, startPacket, ht, Bool.false_eq_true, if_false, if_pos hp]
  rfl

/-- Fibres that run and wait for nothing stay in their packet. -/
theorem stillRunning_of_running {g : Group} {x : Path} (hx : x.lanes ≠ 0)
    (hrun : ∀ j, x.lanes.getLsbD j = true → (g.lane j).status = .running ∧ (g.lane j).wait = none) :
    stillRunning g (some x) = some x := by
  have hall : x.lanes &&& g.lanesWhere (fun x => x.status == .running && x.wait.isNone) = x.lanes := by
    refine BitVec.eq_of_getLsbD_eq fun j hj => ?_
    rw [BitVec.getLsbD_and, Group.lanesWhere, maskIf, getLsbD_maskOf _ hj]
    cases hl : x.lanes.getLsbD j with
    | false => rfl
    | true =>
      obtain ⟨hst, hw⟩ := hrun j hl
      simp [hj, hst, hw]
  simp only [stillRunning, Option.bind_some, hall, if_neg hx]

/-- Counting skips changes groups only. -/
theorem raiseSkips_only (s0 s : State) (core sched : Nat) (issued : List Nat) :
    ∃ gs, raiseSkips s0 s core sched issued = { s with groups := gs } := by
  rw [raiseSkips]
  generalize s0.schedGroups core sched = l
  induction l generalizing s with
  | nil => exact ⟨_, rfl⟩
  | cons x l ih =>
    rw [List.foldl_cons]
    split
    · exact ih s
    · obtain ⟨gs, h⟩ := ih (s.updGroup x.gid _)
      exact ⟨gs, h⟩

/-- A ballot is of a group's team. -/
theorem team_of_mem_ballots {s : State} {core sched : Nat} {g : Group} {t : Team} {l : List Path}
    (h : (g, t, l) ∈ ballots s core sched) : s.team? g.tid = some t := by
  rw [ballots, List.mem_filterMap] at h
  obtain ⟨k, -, hk⟩ := h
  split at hk
  · cases hk
  · next m hm =>
    dsimp only at hk
    split at hk
    · cases hk
    · cases hk
      exact hm

/-- A scheduler after a packet is put on a port of it. -/
theorem sched_putOn (s : State) (core : Nat) {sched : Nat} (hs : sched < 4) (two : Bool) (pk : Option Packet) :
    vget ((s.updCore core (Core.putOn sched two pk)).coreOf core).scheds sched {} =
      let sc := vget (s.coreOf core).scheds sched {}
      if two then { sc with port2 := pk } else { sc with port1 := pk } := by
  rw [State.updCore_coreOf, if_pos rfl]
  · exact vget_vset_same _ _ _ _ hs
  · exact fun _ => rfl

/-- The packets of a chosen group whose paths are in the middle of their clauses, both ports being free. -/
theorem putGroup_midClause {s : State} {core sched : Nat} {g : Group} {t : Team} {l : List Path} {p : Path}
    {q : Option Path} (hs : sched < 4) (hpair : pair s g t l = (some p, q)) (hg : s.group? g.gid = some g)
    (ht : s.team? g.tid = some t) (hlost : t.lostNow = false) (hp : p.rem ≠ 0)
    (hq : ∀ x, q = some x → x.rem ≠ 0 ∧ x.lanes ≠ 0 ∧ ∀ j, x.lanes.getLsbD j = true →
      (g.lane j).status = .running ∧ (g.lane j).wait = none)
    (hfree : (vget (s.coreOf core).scheds sched {}).port2 = none) :
    ∃ ks, putGroup s core sched false false g t l = { s with cores := ks } ∧
      vget ((putGroup s core sched false false g t l).coreOf core).scheds sched {} =
        { vget (s.coreOf core).scheds sched {} with
          port1 := some { gid := g.gid, lanes := p.lanes }
          port2 := q.map fun x => { gid := g.gid, lanes := x.lanes } } := by
  have hone := sched_putOn s core hs false (some { gid := g.gid, lanes := p.lanes })
  have hfirst := putPort_midClause s core sched false g hlost hp
  have hput : putGroup s core sched false false g t l =
      putPort (s.updCore core (Core.putOn sched false (some { gid := g.gid, lanes := p.lanes }))) core sched true g t
        (stillRunning g q) := by
    have hg1 : (s.updCore core (Core.putOn sched false (some { gid := g.gid, lanes := p.lanes }))).group? g.gid =
        some g := hg
    have ht1 : (s.updCore core (Core.putOn sched false (some { gid := g.gid, lanes := p.lanes }))).team? g.tid =
        some t := ht
    simp only [putGroup, hpair, hfirst, hg1, ht1]
  rw [hput]
  cases q with
  | none => exact ⟨_, rfl, hone.trans (congrArg (fun pk => ({ vget (s.coreOf core).scheds sched {} with
      port1 := some { gid := g.gid, lanes := p.lanes }, port2 := pk } : Sched)) hfree)⟩
  | some x =>
    obtain ⟨hrem, hlanes, hrun⟩ := hq x rfl
    rw [stillRunning_of_running hlanes hrun, putPort_midClause _ core sched true g hlost hrem]
    refine ⟨_, rfl, ?_⟩
    rw [sched_putOn _ core hs]
    simp only [hone]
    rfl

/-- A scheduler after its vote: it goes to the word on port 1. -/
theorem toWords_sched (s : State) (core : Nat) {sched : Nat} (hs : sched < 4) {sc : Sched} {pk : Packet}
    (hsc : vget (s.coreOf core).scheds sched {} = sc) (hpk : sc.port1 = some pk) :
    vget ((toWords s core sched).coreOf core).scheds sched {} = { sc with phase := 1 } := by
  rw [toWords, State.updCore_coreOf, if_pos rfl]
  · dsimp only
    rw [vget_vset_same _ _ _ _ hs, hsc, hpk]
    rfl
  · exact fun _ => rfl

/-- The state in which a scheduler's groups no longer wait for siblings that have ended (R68). -/
def State.settled (s : State) (core sched : Nat) : State :=
  { s with groups := s.groups.map fun g => if g.core = core ∧ g.sched = sched then g.settle else g }

/-- A vote with both ports free, and no debugger's step. -/
theorem doVote_portsFree {s : State} {core sched : Nat} {g : Group} {t : Team} {l : List Path}
    (hone : (vget (s.coreOf core).scheds sched {}).port1 = none)
    (htwo : (vget (s.coreOf core).scheds sched {}).port2 = none)
    (hstep : stepPacket (s.settled core sched) core sched = none) (hdroop : droopOpen (s.settled core sched) core = true)
    (hchosen : chosen (s.settled core sched) (ballots (s.settled core sched) core sched) = some (g, t, l)) :
    ∃ issued, doVote s core sched = toWords (raiseSkips (s.settled core sched)
      (putGroup (s.settled core sched) core sched false false g t l) core sched issued) core sched := by
  have hcore : (s.settled core sched).coreOf core = s.coreOf core := rfl
  unfold doVote
  rw [← State.settled]
  simp only [hcore, hone, htwo, hstep, hdroop, hchosen, if_true, Option.isSome_none, Bool.false_eq_true, and_self,
    if_false, heldM, Bool.or_self, Bool.false_and, Bool.not_false, List.filter_true]
  exact ⟨_, rfl⟩

/-- A vote whose chosen group has paths in the middle of their clauses. -/
theorem schedulerVote_spec {s : State} {core sched : Nat} {g : Group} {t : Team} {l : List Path} {p : Path}
    {q : Option Path} (hen : enabledSchedulerVote s core sched = true)
    (hone : (vget (s.coreOf core).scheds sched {}).port1 = none)
    (htwo : (vget (s.coreOf core).scheds sched {}).port2 = none)
    (hstep : stepPacket (s.settled core sched) core sched = none) (hdroop : droopOpen (s.settled core sched) core = true)
    (hchosen : chosen (s.settled core sched) (ballots (s.settled core sched) core sched) = some (g, t, l))
    (hpair : pair (s.settled core sched) g t l = (some p, q)) (hg : (s.settled core sched).group? g.gid = some g)
    (hp : p.rem ≠ 0) (hq : ∀ x, q = some x → x.rem ≠ 0 ∧ x.lanes ≠ 0 ∧ ∀ j, x.lanes.getLsbD j = true →
      (g.lane j).status = .running ∧ (g.lane j).wait = none) (hlost : t.lostNow = false) :
    ∃ u, exec (.schedulerVote core sched) s = .next u ∧ u.mem = s.mem ∧ u.teams = s.teams ∧ u.ops = s.ops ∧
      vget (u.coreOf core).scheds sched {} = { phase := 1, port1 := some { gid := g.gid, lanes := p.lanes },
                                               port2 := q.map fun x => { gid := g.gid, lanes := x.lanes } } := by
  have hsched : sched < 4 := by
    simp only [enabledSchedulerVote, Bool.and_eq_true, decide_eq_true_eq] at hen
    obtain ⟨⟨⟨⟨⟨-, h⟩, -⟩, -⟩, -⟩, -⟩ := hen
    exact h
  have hexec : exec (.schedulerVote core sched) s = .next (doVote s core sched) := by
    show execSchedulerVote core sched s = _
    exact whenEnabled_next hen s _
  obtain ⟨ks, hput, hports⟩ := putGroup_midClause (core := core) hsched hpair hg
    (team_of_mem_ballots (chosen_spec hchosen).1) hlost hp hq htwo
  obtain ⟨issued, hvote⟩ := doVote_portsFree hone htwo hstep hdroop hchosen
  obtain ⟨gs, hskips⟩ := raiseSkips_only (s.settled core sched)
    (putGroup (s.settled core sched) core sched false false g t l) core sched issued
  rw [hput] at hports hskips
  rw [hput, hskips] at hvote
  rw [hexec, hvote]
  exact ⟨_, rfl, rfl, rfl, rfl, toWords_sched _ core hsched hports rfl⟩

/-- Settles O48: the chosen group by the order of class, age and slot, the override by the order of paths, and the
packets of a vote by what putting a path on a port does. -/
theorem votesChooseByClassAgeSlot : Obligations.VotesChooseByClassAgeSlot := by
  refine ⟨fun s l b h => ?_, fun s g t l p q => pair_spec, fun s g t m p q r => ready_pair_spec,
    fun s core sched g t l p q => schedulerVote_spec⟩
  obtain ⟨hmem, hbest⟩ := chosen_spec h
  exact ⟨hmem, fun a ha hbefore => hbest a ha ((Group.before_iff s a.1 b.1).mpr hbefore)⟩

end Sys2Proof.Machine
end

section
/-!
The debug block's commands (R91, R230, R420), and the statement of O58.
-/

namespace Sys2Proof.Machine

open Sys2Proof

/-- The lanes at which a test of a group's fibres holds. -/
theorem Group.getLsbD_lanesWhere (g : Group) (p : Fibre → Bool) {j : Nat} (hj : j < 32) :
    (g.lanesWhere p).getLsbD j = p (g.lane j) := by
  rw [lanesWhere, maskIf, getLsbD_maskOf _ hj]
  simp [hj]

theorem getLsbD_without (a b : BitVec 32) {j : Nat} (hj : j < 32) :
    (without a b).getLsbD j = (a.getLsbD j && !b.getLsbD j) := by
  rw [BitVec.getLsbD_and, BitVec.getLsbD_not, decide_eq_true hj, Bool.true_and]

section
variable {s : State} {core slot : Nat} {g : Group} {t : Team}

/-- A command that reaches its group acts on it. -/
theorem onGroup_acts (hb : dbgBusy s = false) (hin : groupIn s core slot = some g) (f : State → Group → State) :
    onGroup { s with inputs := s.inputs.drop 1 } core slot f = f { s with inputs := s.inputs.drop 1 } g := by
  have hb' : dbgBusy { s with inputs := s.inputs.drop 1 } = false := hb
  have hin' : groupIn { s with inputs := s.inputs.drop 1 } core slot = some g := hin
  simp only [onGroup, hb', hin', Bool.false_eq_true, if_false]

/-- What a command leaves that rewrites its group, and the debug block's own registers, and writes no register and moves
no fibre. -/
theorem debugged {i : Instr} {f : Group → Group} {host : HostSide} (hg : s.group? g.gid = some g)
    (hexec : exec i s = .next { s.updGroup g.gid f with inputs := s.inputs.drop 1, host := host })
    (hf : ∀ k, (f k).gid = k.gid) (hregs : SameRegs g (f g)) (hpc : ∀ j, j < 32 → ((f g).lane j).pc = (g.lane j).pc)
    {p : State → Group → Prop} (hp : ∀ u : State, u.teams = s.teams → p u (f g)) :
    ∃ u k, exec i s = .next u ∧ u.inputs = s.inputs.drop 1 ∧ u.mem = s.mem ∧ u.ops = s.ops ∧ u.group? g.gid = some k ∧
      SameRegs g k ∧ (∀ n, n ≠ g.gid → u.group? n = s.group? n) ∧ (∀ j, j < 32 → (k.lane j).pc = (g.lane j).pc) ∧
      p u k :=
  ⟨_, f g, hexec, rfl, rfl, rfl, State.updGroup_group?_same hg f hf, hregs,
    fun _ hn => s.updGroup_group?_other hn f hf, hpc, hp _ rfl⟩

/-- A group some of whose fibres take other statuses, and which is halted or not. -/
def Group.restatused (m : BitVec 32) (f : Fibre → Fibre) (b : Bool) (g : Group) : Group :=
  { g.updLanes m fun _ x => f x with halted := b }

theorem Group.restatused_lane (g : Group) (m : BitVec 32) (f : Fibre → Fibre) (b : Bool) {j : Nat} (hj : j < 32) :
    (g.restatused m f b).lane j = if m.getLsbD j then f (g.lane j) else g.lane j :=
  g.updLanes_lane m (fun _ x => f x) j hj

/-- Fibres that take other statuses keep their registers and places. -/
theorem Group.restatused_keeps (g : Group) (m : BitVec 32) {f : Fibre → Fibre}
    (hf : ∀ x, ∃ st, f x = { x with status := st }) (b : Bool) : SameRegs g (g.restatused m f b) ∧
      ∀ j, j < 32 → ((g.restatused m f b).lane j).pc = (g.lane j).pc := by
  have hlane : ∀ j, j < 32 → ∃ st, (g.restatused m f b).lane j = { g.lane j with status := st } := fun j hj => by
    rw [g.restatused_lane m f b hj]
    split
    · exact hf _
    · exact ⟨_, rfl⟩
  refine ⟨⟨rfl, rfl, fun j hj => ?_, fun j hj => ?_⟩, fun j hj => ?_⟩ <;>
  · obtain ⟨st, h⟩ := hlane j hj
    rw [h]

/-- A fibre that halts at its packet boundary, and one that runs again (R230). -/
def Fibre.halts (x : Fibre) : Fibre := if x.status = .running then { x with status := .halted } else x
def Fibre.runs (x : Fibre) : Fibre := { x with status := .running }

theorem Fibre.halts_only (x : Fibre) : ∃ st, x.halts = { x with status := st } := by
  rw [halts]
  split <;> exact ⟨_, rfl⟩

theorem dbgHalt_exec (hb : dbgBusy s = false) (hin : groupIn s core slot = some g) (hg : s.group? g.gid = some g)
    (hi : s.inputs.head? = some (.dbgHalt core slot)) :
    exec (.dbgHalt core slot) s = .next { s.updGroup g.gid (Group.restatused
      (without (BitVec.allOnes 32) (portLanes s g.gid g.core g.sched)) Fibre.halts true) with
        inputs := s.inputs.drop 1 } := by
  show execDbgHalt core slot s = _
  have hg' : ({ s with inputs := s.inputs.drop 1 } : State).group? g.gid = some g := hg
  rw [execDbgHalt, fromOutside_next hi, dbgHalt, onGroup_acts hb hin, State.haltGroup, hg']
  rfl

theorem dbgResume_exec (hb : dbgBusy s = false) (hin : groupIn s core slot = some g)
    (hi : s.inputs.head? = some (.dbgResume core slot)) :
    exec (.dbgResume core slot) s = .next { s.updGroup g.gid (fun k => k.restatused
      (k.lanesWhere fun x => x.status == .halted) Fibre.runs false) with inputs := s.inputs.drop 1 } := by
  show execDbgResume core slot s = _
  rw [execDbgResume, fromOutside_next hi, dbgResume, onGroup_acts hb hin]
  rfl

/-- The packets that a step command has to issue, `l` being the ready paths (R91). -/
def stepPick (g : Group) (all : Bool) (l : List Path) : List Path :=
  if all then l else match g.override l with
    | some p => [p]
    | none => l.take 1

/-- One ready path is picked, if there is one. -/
theorem stepPick_one (g : Group) (l : List Path) :
    (stepPick g false l).length = min 1 l.length ∧ ∀ p ∈ stepPick g false l, p ∈ l := by
  rw [stepPick, if_neg Bool.false_ne_true]
  cases ho : g.override l with
  | none => exact ⟨List.length_take, fun p hp => List.mem_of_mem_take hp⟩
  | some o =>
    have hmem := Group.mem_of_override ho
    refine ⟨?_, fun p hp => List.mem_singleton.mp hp ▸ hmem⟩
    have := List.length_pos_of_mem hmem
    simp only [List.length_singleton]
    omega

/-- A group that is to issue packets for the debugger, if its group is halted. -/
def Group.stepping (halted : Bool) (l : List (BitVec 32)) (g : Group) : Group := if halted then { g with steps := l } else g

/-- A step command, of one ready path or of all. -/
theorem dbgStep_acts (all : Bool) (hb : dbgBusy s = false) (hin : groupIn s core slot = some g)
    (ht : s.team? g.tid = some t) : dbgStep { s with inputs := s.inputs.drop 1 } core slot all =
      { s.updGroup g.gid (Group.stepping g.halted
        ((stepPick g all (haltedReady { s with inputs := s.inputs.drop 1 } g t)).map (·.lanes))) with
        inputs := s.inputs.drop 1, host := { s.host with dbgst := setBits s.host.dbgst 30 1 0 } } := by
  have ht' : ({ s with inputs := s.inputs.drop 1 } : State).team? g.tid = some t := ht
  rw [dbgStep, onGroup_acts hb hin, ht']
  cases hh : g.halted with
  | false => simp [State.updGroup, Group.stepping]
  | true => simp only [Bool.not_true, Bool.false_eq_true, if_false]; rfl

theorem dbgStep_exec (hb : dbgBusy s = false) (hin : groupIn s core slot = some g) (ht : s.team? g.tid = some t)
    (hi : s.inputs.head? = some (.dbgStep core slot)) : exec (.dbgStep core slot) s =
      .next { s.updGroup g.gid (Group.stepping g.halted
        ((stepPick g false (haltedReady { s with inputs := s.inputs.drop 1 } g t)).map (·.lanes))) with
        inputs := s.inputs.drop 1, host := { s.host with dbgst := setBits s.host.dbgst 30 1 0 } } := by
  show execDbgStep core slot s = _
  rw [execDbgStep, fromOutside_next hi, dbgStep_acts false hb hin ht]

theorem dbgStepAll_exec (hb : dbgBusy s = false) (hin : groupIn s core slot = some g) (ht : s.team? g.tid = some t)
    (hi : s.inputs.head? = some (.dbgStepAll core slot)) : exec (.dbgStepAll core slot) s =
      .next { s.updGroup g.gid (Group.stepping g.halted
        ((stepPick g true (haltedReady { s with inputs := s.inputs.drop 1 } g t)).map (·.lanes))) with
        inputs := s.inputs.drop 1, host := { s.host with dbgst := setBits s.host.dbgst 30 1 0 } } := by
  show execDbgStepAll core slot s = _
  rw [execDbgStepAll, fromOutside_next hi, dbgStep_acts true hb hin ht]

theorem Group.stepping_keeps (g : Group) (b : Bool) (l : List (BitVec 32)) : SameRegs g (g.stepping b l) ∧
    ∀ j, j < 32 → ((g.stepping b l).lane j).pc = (g.lane j).pc := by
  cases b <;> exact ⟨⟨rfl, rfl, fun _ _ => rfl, fun _ _ => rfl⟩, fun _ _ => rfl⟩

theorem Group.stepping_gid (g : Group) (b : Bool) (l : List (BitVec 32)) : (g.stepping b l).gid = g.gid := by
  cases b <;> rfl

theorem Group.stepping_steps (g : Group) (l : List (BitVec 32)) :
    (g.halted = false → (g.stepping g.halted l).steps = g.steps) ∧
      (g.halted = true → (g.stepping g.halted l).steps = l) := by
  cases g.halted <;> simp [stepping]

/-! ### `ATTACH`, `DETACH` and `DISCARD` (R420) -/

/-- A team with a debugger attached, or not. -/
def Team.attached (on : Bool) (t : Team) : Team := { t with dbgctl := setBits t.dbgctl 0 1 (if on then 1 else 0) }

theorem Team.attached_dbgctl (on : Bool) (t : Team) : (t.attached on).dbgctl.getLsbD 0 = on ∧
    ∀ n, 0 < n → n < 32 → (t.attached on).dbgctl.getLsbD n = t.dbgctl.getLsbD n := by
  refine ⟨?_, fun n hpos hn => ?_⟩
  · rw [attached, getLsbD_setBits _ _ _ _ _ (by omega)]
    cases on <;> rfl
  · rw [attached, getLsbD_setBits _ _ _ _ _ hn, if_neg (by omega)]

theorem dbgAttach_acts (on : Bool) (hb : dbgBusy s = false) (hin : groupIn s core slot = some g) :
    dbgAttach { s with inputs := s.inputs.drop 1 } core slot on =
      { s.updTeam g.tid (Team.attached on) with inputs := s.inputs.drop 1 } := by
  rw [dbgAttach, onGroup_acts hb hin]
  rfl

theorem dbgAttach_exec (on : Bool) (hb : dbgBusy s = false) (hin : groupIn s core slot = some g)
    (hi : s.inputs.head? = some (if on then .dbgAttach core slot else .dbgDetach core slot)) :
    exec (if on then .dbgAttach core slot else .dbgDetach core slot) s =
      .next { s.updTeam g.tid (Team.attached on) with inputs := s.inputs.drop 1 } := by
  rw [← dbgAttach_acts on hb hin]
  cases on with
  | false =>
    show execDbgDetach core slot s = _
    exact fromOutside_next hi _
  | true =>
    show execDbgAttach core slot s = _
    exact fromOutside_next hi _

/-- Locks of operations that end change the lock tables of cores, and what was noted of their ranges. -/
theorem foldl_rltDrop_only (l : List Nat) (s : State) :
    ∃ ks d, l.foldl rltDrop s = { s with cores := ks, disturbed := d } := by
  induction l generalizing s with
  | nil => exact ⟨_, _, rfl⟩
  | cons n l ih =>
    obtain ⟨ks, d, h⟩ := ih (rltDrop s n)
    exact ⟨ks, d, h⟩

theorem State.sweepMonitors_coreOf (s : State) (c : Nat) : s.sweepMonitors.coreOf c = s.coreOf c := rfl

/-- What a core loses of a team: its groups, its operations but for batches, and its channels; memory and teams
stay. -/
theorem stripTeam_spec (s : State) (t : Team) :
    (stripTeam s t).mem = s.mem ∧ (stripTeam s t).inputs = s.inputs ∧ (stripTeam s t).teams = s.teams ∧
    (∀ k ∈ (stripTeam s t).groups, k ∈ s.groups ∧ k.tid ≠ t.tid) ∧
    (∀ o ∈ (stripTeam s t).ops, o.tid = t.tid → match o.kind with | .batch .. => True | _ => False) ∧
    ∀ c ∈ ((stripTeam s t).coreOf t.core).chans, c.2.owner ≠ t.tid := by
  unfold stripTeam
  dsimp only
  generalize hgone : List.map (fun o : Op => o.id) _ = gone
  obtain ⟨ks, d, hlocks⟩ := foldl_rltDrop_only gone s
  rw [hlocks]
  refine ⟨rfl, rfl, rfl, fun k hk => ?_, fun o ho htid => ?_, fun c hc => ?_⟩
  · obtain ⟨hk, htid⟩ := List.mem_filter.mp hk
    exact ⟨hk, of_decide_eq_true htid⟩
  · obtain ⟨ho, hstays⟩ := List.mem_filter.mp ho
    have hkept : o.id ∉ gone := by simpa using hstays
    rw [← hgone] at hkept
    split
    · trivial
    · next hkind =>
      refine hkept (List.mem_map_of_mem (List.mem_filter.mpr ⟨ho, ?_⟩))
      rw [htid, beq_self_eq_true, Bool.true_and]
      split
      · exact absurd ‹_› (hkind _ _)
      · rfl
  · rw [State.sweepMonitors_coreOf, State.updCore_coreOf, if_pos rfl] at hc
    · exact of_decide_eq_true (List.mem_filter.mp hc).2
    · exact fun _ => rfl

theorem dbgDiscard_spec (hb : dbgBusy s = false) (hin : groupIn s core slot = some g) (ht : s.team? g.tid = some t)
    (hi : s.inputs.head? = some (.dbgDiscard core slot)) (hall : (s.teamGroups t.tid).all (·.halted) = true) :
    ∃ u m, exec (.dbgDiscard core slot) s = .next u ∧ u.inputs = s.inputs.drop 1 ∧ u.mem = s.mem ∧
      u.team? t.tid = some m ∧ m.phase = .ended ∧ m.lease = none ∧ (∀ k ∈ u.groups, k ∈ s.groups ∧ k.tid ≠ t.tid) ∧
      (∀ o ∈ u.ops, o.tid = t.tid → match o.kind with | .batch .. => True | _ => False) ∧
      ∀ c ∈ (u.coreOf t.core).chans, c.2.owner ≠ t.tid := by
  obtain ⟨hmem, hinputs, hteams, hgroups, hops, hchans⟩ := stripTeam_spec { s with inputs := s.inputs.drop 1 } t
  have hteam : (stripTeam { s with inputs := s.inputs.drop 1 } t).team? t.tid = some t := by
    have htid : t.tid = g.tid := by simpa using List.find?_some ht
    rw [State.team?, hteams, htid]
    exact ht
  have ht' : ({ s with inputs := s.inputs.drop 1 } : State).team? g.tid = some t := ht
  have hall' : (({ s with inputs := s.inputs.drop 1 } : State).teamGroups t.tid).all (·.halted) = true := hall
  have hexec : exec (.dbgDiscard core slot) s = .next (dbgDiscard { s with inputs := s.inputs.drop 1 } core slot) := by
    show execDbgDiscard core slot s = _
    exact fromOutside_next hi _
  rw [hexec, dbgDiscard, onGroup_acts hb hin, ht']
  simp only [hall', Bool.not_true, Bool.false_eq_true, if_false]
  exact ⟨_, _, rfl, hinputs, hmem, State.updTeam_team?_same hteam _ fun _ => rfl, rfl, rfl, hgroups, hops, hchans⟩

end

/-- Settles O58: HALT, RESUME, STEP and ATTACH as a rewriting of the group or its team, DISCARD by what stripping a
core of a team leaves. -/
theorem debuggerCommandsGroups : Obligations.DebuggerCommandsGroups := by
  intro s core slot g t hb hin hg ht kept ready
  refine ⟨fun hi => ?_, fun hi => ?_, fun hi => ?_, fun hi => ?_, fun on hi => ?_, dbgDiscard_spec hb hin ht⟩
  · obtain ⟨hregs, hpc⟩ := g.restatused_keeps (without (BitVec.allOnes 32) (portLanes s g.gid g.core g.sched))
      Fibre.halts_only true
    refine debugged hg (dbgHalt_exec hb hin hg hi) (fun _ => rfl) hregs hpc fun u _ => ⟨rfl, fun j hj => ?_⟩
    rw [Group.restatused_lane _ _ _ _ hj, getLsbD_without _ _ hj, BitVec.getLsbD_allOnes, Fibre.halts]
    cases (portLanes s g.gid g.core g.sched).getLsbD j <;> by_cases hrun : (g.lane j).status = .running <;>
      simp [hrun, hj]
  · obtain ⟨hregs, hpc⟩ := g.restatused_keeps (g.lanesWhere fun x => x.status == .halted) (f := Fibre.runs)
      (fun _ => ⟨_, rfl⟩) false
    refine debugged hg (dbgResume_exec hb hin hi) (fun _ => rfl) hregs hpc fun u _ => ⟨rfl, fun j hj => ?_⟩
    rw [Group.restatused_lane _ _ _ _ hj, Group.getLsbD_lanesWhere _ _ hj]
    by_cases hhalt : (g.lane j).status = .halted <;> simp [hhalt, Fibre.runs]
  · obtain ⟨hregs, hpc⟩ := g.stepping_keeps g.halted ((stepPick g false ready).map (·.lanes))
    obtain ⟨hsame, hset⟩ := g.stepping_steps ((stepPick g false ready).map (·.lanes))
    obtain ⟨hlen, hmem⟩ := stepPick_one g ready
    refine debugged hg (dbgStep_exec hb hin ht hi) (fun k => k.stepping_gid _ _) hregs hpc fun u _ =>
      ⟨hsame, fun hh => ⟨?_, fun m hm => ?_⟩⟩
    · rw [hset hh, List.length_map, hlen]
    · rw [hset hh] at hm
      obtain ⟨p, hp, rfl⟩ := List.mem_map.mp hm
      exact ⟨p, hmem p hp, rfl⟩
  · obtain ⟨hregs, hpc⟩ := g.stepping_keeps g.halted ((stepPick g true ready).map (·.lanes))
    exact debugged hg (dbgStepAll_exec hb hin ht hi) (fun k => k.stepping_gid _ _) hregs hpc fun u _ =>
      g.stepping_steps ((stepPick g true ready).map (·.lanes))
  · exact ⟨_, g, dbgAttach_exec on hb hin hi, rfl, rfl, rfl, hg, ⟨rfl, rfl, fun _ _ => rfl, fun _ _ => rfl⟩,
      fun _ _ => rfl, fun _ _ => rfl, rfl, t.attached on, State.updTeam_team?_same ht _ fun _ => rfl,
      t.attached_dbgctl on⟩

end Sys2Proof.Machine
end

section
/-!
What the end of a cycle does to fibres (R71, R76, R77), and the statement of O28.
-/

namespace Sys2Proof.Machine

open Sys2Proof

/-- A step that changes groups and operations only leaves the device. -/
theorem sameDevice_groups (s : State) (gs : List Group) (os : List Op) :
    SameDevice s { s with groups := gs, ops := os } := by
  constructor <;> rfl

/-- The least number of a list that has one. -/
theorem foldl_min_spec {l : List Nat} (hl : l ≠ []) :
    l.foldl Nat.min (l.headD 0) ∈ l ∧ ∀ n ∈ l, l.foldl Nat.min (l.headD 0) ≤ n := by
  obtain ⟨x, xs, rfl⟩ := List.exists_cons_of_ne_nil hl
  have hmin : (x :: xs).foldl Nat.min ((x :: xs).headD 0) = xs.foldl min x := by
    rw [List.headD_cons, List.foldl_cons]
    exact congrArg (xs.foldl min) (Nat.min_self x)
  rw [hmin]
  exact List.min?_eq_some_iff.mp List.min?_cons'

/-! ### `RCVG_RELEASE` (R71) -/

/-- The lowest address at which a live fibre of a group waits. -/
def Group.lowestRcvg (g : Group) : Nat :=
  let at_ := (lanesOf g.liveLanes).map fun i => (g.lane i).rcvg.toNat
  at_.foldl Nat.min (at_.headD 0)

/-- A group whose fibres at an address go on. -/
def Group.pastRcvg (g : Group) : Group :=
  g.updLanes (g.lanesWhere fun x => x.status == .rcvg && x.rcvg.toNat == g.lowestRcvg) fun _ x =>
    { x with status := g.released, pc := BitVec.ofNat 56 (g.lowestRcvg + 4), rem := x.rem - 1,
             active := x.active && x.rem != 1, demoted := false, demWait := 0 }

/-- Where every live fibre waits at an `RCVG`, some fibre waits at the lowest, and none below. -/
theorem Group.lowestRcvg_spec {g : Group} (hlive : g.liveLanes ≠ 0)
    (hall : g.lanesWhere (fun x => x.status == .rcvg) = g.liveLanes) :
    (∃ j, j < 32 ∧ (g.lane j).status = .rcvg ∧ (g.lane j).rcvg.toNat = g.lowestRcvg) ∧
      ∀ j, j < 32 → (g.lane j).status = .rcvg → g.lowestRcvg ≤ (g.lane j).rcvg.toNat := by
  have hmem : ∀ j, j ∈ lanesOf g.liveLanes ↔ j < 32 ∧ (g.lane j).status = .rcvg := fun j => by
    rw [← hall, mem_lanesOf]
    refine and_congr_right fun hj => ?_
    rw [g.getLsbD_lanesWhere _ hj, beq_iff_eq]
  have hne : (lanesOf g.liveLanes).map (fun i => (g.lane i).rcvg.toNat) ≠ [] := fun hnil => hlive <|
    BitVec.eq_of_getLsbD_eq fun j hj => by
      have hout : j ∉ lanesOf g.liveLanes := by rw [List.map_eq_nil_iff.mp hnil]; exact List.not_mem_nil
      rw [mem_lanesOf] at hout
      simpa [hj] using hout
  obtain ⟨hin, hleast⟩ := foldl_min_spec hne
  obtain ⟨j, hj, hat⟩ := List.mem_map.mp hin
  exact ⟨⟨j, ((hmem j).mp hj).1, ((hmem j).mp hj).2, hat⟩, fun k hk hst =>
    hleast _ (List.mem_map_of_mem ((hmem k).mpr ⟨hk, hst⟩))⟩

theorem Group.pastRcvg_lane (g : Group) {j : Nat} (hj : j < 32) :
    if (g.lane j).status = .rcvg ∧ (g.lane j).rcvg.toNat = g.lowestRcvg then
      (g.pastRcvg.lane j).status = g.released ∧ (g.pastRcvg.lane j).pc = BitVec.ofNat 56 (g.lowestRcvg + 4) ∧
        (g.pastRcvg.lane j).regs = (g.lane j).regs
    else g.pastRcvg.lane j = g.lane j := by
  have hmask := g.getLsbD_lanesWhere (fun x => x.status == .rcvg && x.rcvg.toNat == g.lowestRcvg) hj
  rw [pastRcvg, Group.updLanes_lane _ _ _ _ hj, hmask]
  generalize g.lane j = x
  split
  · next h =>
    rw [if_pos (by simpa using h)]
    exact ⟨rfl, rfl, rfl⟩
  · next h => exact if_neg (by simpa using h)

theorem rcvgRelease_spec (s : State) (gid : Nat) (g : Group) (hg : s.group? gid = some g)
    (hen : enabledRcvgRelease s gid = true) :
    ∃ t k a, exec (.rcvgRelease gid) s = .next t ∧ SameDevice s t ∧ t.group? gid = some k ∧
      (∃ j, j < 32 ∧ (g.lane j).status = .rcvg ∧ (g.lane j).rcvg.toNat = a) ∧
      (∀ j, j < 32 → (g.lane j).status = .rcvg → a ≤ (g.lane j).rcvg.toNat) ∧
      ∀ j, j < 32 → if (g.lane j).status = .rcvg ∧ (g.lane j).rcvg.toNat = a then
        (k.lane j).status = g.released ∧ (k.lane j).pc = BitVec.ofNat 56 (a + 4) ∧ (k.lane j).regs = (g.lane j).regs
      else k.lane j = g.lane j := by
  have hexec : exec (.rcvgRelease gid) s = .next (s.updGroup gid Group.pastRcvg) := by
    show execRcvgRelease gid s = _
    exact whenEnabled_next hen s _
  have hwaits : g.liveLanes ≠ 0 ∧ g.lanesWhere (fun x => x.status == .rcvg) = g.liveLanes := by
    simp only [enabledRcvgRelease, hg, Bool.and_eq_true, bne_iff_ne, beq_iff_eq] at hen
    obtain ⟨⟨-, hlive⟩, hall⟩ := hen
    exact ⟨hlive, hall⟩
  obtain ⟨hsome, hleast⟩ := Group.lowestRcvg_spec hwaits.1 hwaits.2
  exact ⟨_, _, g.lowestRcvg, hexec, sameDevice_groups s _ s.ops,
    State.updGroup_group?_same hg Group.pastRcvg fun _ => rfl, hsome, hleast, fun j hj => g.pastRcvg_lane hj⟩

/-! ### `GROUP_RESTART` (R76) -/

theorem lowest_lane {m : BitVec 32} {l : Nat} (hl : l < 32) (hm : m.getLsbD l = true)
    (hlow : ∀ j, j < l → m.getLsbD j = false) : (lanesOf m).head? = some l := by
  rw [lanesOf, List.head?_filter, List.find?_range_eq_some]
  exact ⟨hm, List.mem_range.mpr hl, fun j hj => by rw [hlow j hj]; rfl⟩

theorem keepRegs_reg (r : Vector Word 64) (n : Nat) {m : Nat} (hm : m < 64) :
    vget (keepRegs r n) m 0 = if m < n then vget r m 0 else 0 :=
  vget_mapLanes _ _ _ _ hm

/-- A restarted group: every lane starts at the successor of the lowest lane that has one. -/
theorem Group.restart_lane {g : Group} {l : Nat} {p : Addr × BitVec 7} (mode : Bool) (hl : l < 32)
    (hst : (g.lane l).status = .endedSucc) (hlow : ∀ j, j < l → (g.lane j).status ≠ .endedSucc)
    (hp : (g.lane l).succ = some p) {j : Nat} (hj : j < 32) :
    (g.restart mode).lane j = { (g.lane j).start p.1 mode (keepRegs (g.lane j).regs
      (if (g.lane j).status = .endedSucc then (((g.lane j).succ.map fun (q : Addr × BitVec 7) => q.2).getD 0).toNat
        else 0)) with
      status := g.released } := by
  have hhead : (lanesOf (g.lanesWhere fun x => x.status == .endedSucc)).head? = some l :=
    lowest_lane hl (by rw [g.getLsbD_lanesWhere _ hl, hst]; rfl) fun j hj => by
      rw [g.getLsbD_lanesWhere _ (hj.trans hl), beq_eq_false_iff_ne]
      exact hlow j hj
  rw [restart, hhead]
  dsimp only
  rw [Group.updLanes_lane _ _ _ _ hj, if_pos (BitVec.getLsbD_allOnes.trans (decide_eq_true hj)), hp]
  rfl

theorem Group.restart_gid (g : Group) (mode : Bool) : (g.restart mode).gid = g.gid := by
  rw [restart]
  split <;> rfl

theorem groupRestart_spec (s : State) (gid : Nat) (g : Group) (l : Nat) (p : Addr × BitVec 7)
    (hg : s.group? gid = some g) (hen : enabledGroupRestart s gid = true) (hl : l < 32)
    (hst : (g.lane l).status = .endedSucc) (hlow : ∀ j, j < l → (g.lane j).status ≠ .endedSucc)
    (hp : (g.lane l).succ = some p) :
    ∃ t k, exec (.groupRestart gid) s = .next t ∧ SameDevice s t ∧ t.group? gid = some k ∧
      ∀ j, j < 32 → (k.lane j).status = g.released ∧ (k.lane j).pc = p.1 ∧ (k.lane j).rem = 0 ∧
        (k.lane j).sp = (g.lane j).stackHi.setWidth 56 ∧
        ∀ m, m < 64 → (k.lane j).reg m =
          if (g.lane j).status = .endedSucc ∧ m < (((g.lane j).succ.map fun q => q.2.toNat).getD 0)
          then (g.lane j).reg m else 0 := by
  obtain ⟨mode, hexec⟩ : ∃ mode, exec (.groupRestart gid) s = .next (s.updGroup gid (Group.restart · mode)) := by
    show ∃ mode, execGroupRestart gid s = _
    rw [execGroupRestart, whenEnabled_next hen]
    exact ⟨_, rfl⟩
  refine ⟨_, _, hexec, sameDevice_groups s _ s.ops,
    State.updGroup_group?_same hg (Group.restart · mode) fun k => k.restart_gid mode, fun j hj => ?_⟩
  rw [Group.restart_lane mode hl hst hlow hp hj]
  refine ⟨rfl, rfl, rfl, rfl, fun m hm => (keepRegs_reg _ _ hm).trans ?_⟩
  have hcount : (((g.lane j).succ.map fun (q : Addr × BitVec 7) => q.2).getD 0).toNat =
      ((g.lane j).succ.map fun q => q.2.toNat).getD 0 := by cases (g.lane j).succ <;> rfl
  by_cases hsucc : (g.lane j).status = .endedSucc
  · rw [if_pos hsucc, hcount]
    simp only [hsucc, true_and]
  · simp only [hsucc, if_false, false_and, Nat.not_lt_zero]

/-! ### `GROUP_SLOT_FREE` (R77) -/

theorem groupSlotFree_spec (s : State) (gid : Nat) (hen : enabledGroupSlotFree s gid = true) :
    ∃ t, exec (.groupSlotFree gid) s = .next t ∧ SameDevice s t ∧ t.teams = s.teams ∧ t.cores = s.cores ∧
      t.group? gid = none ∧ ∀ n, n ≠ gid → t.group? n = s.group? n := by
  have hexec : exec (.groupSlotFree gid) s = .next { s with
      groups := s.groups.filter fun g => g.gid ≠ gid
      ops := s.ops.filter fun o => !(o.gid == gid && o.kind.ofFibres) } := by
    show execGroupSlotFree gid s = _
    exact whenEnabled_next hen s _
  refine ⟨_, hexec, sameDevice_groups s _ _, rfl, rfl, ?_, fun n hn => ?_⟩
  · rw [State.group?, List.find?_filter]
    simp
  · rw [State.group?, List.find?_filter]
    congr 1
    funext g
    by_cases h : g.gid = n <;> simp [h, hn]

/-- Settles O28: the lowest `RCVG` as the least of the addresses at which fibres wait, a restart lane by lane. -/
theorem groupsAreReleasedAndRestarted : Obligations.GroupsAreReleasedAndRestarted :=
  ⟨rcvgRelease_spec, groupRestart_spec, groupSlotFree_spec⟩

end Sys2Proof.Machine
end

section
/-!
Starts and ends of fibres and groups (R71 to R74, R78, R79), and the statement of O27.
-/

namespace Sys2Proof.Machine

open Sys2Proof

/-! ### `FORK` (R72, R73) -/

section
variable (g : Group) (pd : BitVec 6) (n : Nat) (target : Addr) (mode : Bool)

theorem forkLanes_cons (i : Nat) (r : List Nat) : forkLanes g pd n target mode (i :: r) =
    forkLanes (forkLanes g pd n target mode [i]) pd n target mode r := rfl

/-- The fibre that a fork starts in lane `j` for the fibre in lane `i`. -/
def Group.child (i j : Nat) : Fibre :=
  { (g.lane j).start target mode (keepRegs (g.lane i).regs n) with status := g.released }

/-- With no free lane a fork only tells so. -/
theorem forkLanes_full {i : Nat} (hfull : ∀ k, k < 32 → (g.lane k).status.free = false) :
    forkLanes g pd n target mode [i] = g.setLane i ((g.lane i).setPred pd.toNat false) := by
  have hnone : (List.range 32).find? (fun j => (g.lane j).status.free) = none := by
    rw [List.find?_range_eq_none]
    intro k hk
    rw [hfull k hk]
    rfl
  rw [forkLanes, List.foldl_cons, hnone]
  rfl

/-- A fork takes the lowest free lane. -/
theorem forkLanes_free {i j : Nat} (hj : j < 32) (hfree : (g.lane j).status.free = true)
    (hlow : ∀ k, k < j → (g.lane k).status.free = false) : forkLanes g pd n target mode [i] =
      (g.setLane j (g.child n target mode i j)).setLane i
        (((g.setLane j (g.child n target mode i j)).lane i).setPred pd.toNat true) := by
  have hsome : (List.range 32).find? (fun j => (g.lane j).status.free) = some j := by
    rw [List.find?_range_eq_some]
    exact ⟨hfree, List.mem_range.mpr hj, fun k hk => by rw [hlow k hk]; rfl⟩
  rw [forkLanes, List.foldl_cons, hsome]
  rfl

/-- Writing a predicate writes nothing else. -/
theorem Fibre.setPred_only (x : Fibre) (p : Nat) (v : Bool) : ∃ b, x.setPred p v = { x with preds := b } := by
  rw [setPred]
  split <;> exact ⟨_, rfl⟩

theorem forkLanes_spec (i : Nat) (r : List Nat) :
    forkLanes g pd n target mode (i :: r) = forkLanes (forkLanes g pd n target mode [i]) pd n target mode r ∧
    (i < 32 → (g.lane i).status.free = false → (∀ k, k < 32 → (g.lane k).status.free = false) →
      ∀ k, k < 32 → (forkLanes g pd n target mode [i]).lane k =
        if k = i then (g.lane i).setPred pd.toNat false else g.lane k) ∧
    (∀ j, i < 32 → (g.lane i).status.free = false → j < 32 → (g.lane j).status.free = true →
      (∀ k, k < j → (g.lane k).status.free = false) →
        let k := forkLanes g pd n target mode [i]
        (k.lane j).status = g.released ∧ (k.lane j).pc = target ∧ (k.lane j).rem = 0 ∧ (k.lane j).mode = mode ∧
        (k.lane j).preds = 1 ∧ (k.lane j).sp = (g.lane j).stackHi.setWidth 56 ∧ (k.lane j).fp = (k.lane j).sp ∧
        (∀ m, m < 64 → (k.lane j).reg m = if m < n then (g.lane i).reg m else 0) ∧ (k.lane i).pred pd.toNat = true ∧
        ∀ m, m < 32 → m ≠ i → m ≠ j → k.lane m = g.lane m) := by
  refine ⟨forkLanes_cons g pd n target mode i r, fun _ _ hfull k hk => ?_, fun j hi hbusy hj hfree hlow => ?_⟩
  · rw [forkLanes_full g pd n target mode hfull, Group.setLane_lane _ _ _ _ hk]
    simp only [eq_comm]
  · have hne : i ≠ j := by
      rintro rfl
      rw [hbusy] at hfree
      cases hfree
    intro k
    have hk : ∀ m, m < 32 → k.lane m = if i = m then (g.lane i).setPred pd.toNat true
        else if j = m then g.child n target mode i j else g.lane m := fun m hm => by
      show (forkLanes g pd n target mode [i]).lane m = _
      rw [forkLanes_free g pd n target mode hj hfree hlow, Group.setLane_lane _ _ _ _ hm,
        Group.setLane_lane _ _ _ _ hm, Group.setLane_lane _ _ _ _ hi, if_neg (Ne.symm hne)]
    have hj' : k.lane j = g.child n target mode i j := by rw [hk j hj, if_neg hne, if_pos rfl]
    rw [hj', hk i hi, if_pos rfl]
    refine ⟨rfl, rfl, rfl, rfl, rfl, rfl, rfl, fun m hm => keepRegs_reg _ _ hm, ?_, fun m hm hmi hmj => ?_⟩
    · rw [Fibre.pred_setPred _ _ _ _ pd.isLt, if_pos rfl, Bool.or_true]
    · rw [hk m hm, if_neg (Ne.symm hmi), if_neg (Ne.symm hmj)]

/-- Forks change lanes only. -/
theorem forkLanes_only (l : List Nat) : ∃ ls, forkLanes g pd n target mode l = { g with lanes := ls } := by
  induction l generalizing g with
  | nil => exact ⟨_, rfl⟩
  | cons i l ih =>
    rw [forkLanes_cons]
    obtain ⟨ls, h⟩ : ∃ ls, forkLanes g pd n target mode [i] = { g with lanes := ls } := by
      rw [forkLanes, List.foldl_cons]
      split <;> exact ⟨_, rfl⟩
    obtain ⟨ms, hm⟩ := ih { g with lanes := ls }
    exact ⟨ms, by rw [h, hm]⟩

end

/-! ### The packet's group after a word -/

/-- After a word the packet's fibres have gone on, and halt where a halted group's packet ends. -/
theorem State.advance_group_cases {s : State} {c : Cur} {g : Group} (hg : s.group? c.pk.gid = some g) (n : Nat) :
    (s.advance c n).group? c.pk.gid = some (g.goesOn c.pk.lanes n) ∨
      (s.advance c n).group? c.pk.gid = some ((g.goesOn c.pk.lanes n).packetEnds c.pk.lanes) := by
  have hgo := State.updGroup_group?_same (s := s.goneOn c.pk.gid c.pk.lanes) hg (Group.goesOn · c.pk.lanes n)
    fun k => (k.goesOn_moves c.pk.lanes n).gid
  have hend := State.updGroup_group?_same hgo (Group.packetEnds · c.pk.lanes)
    fun k => (k.packetEnds_moves c.pk.lanes).gid
  unfold State.advance
  dsimp only
  split
  · exact .inl hgo
  · split
    · exact .inl hgo
    · exact .inr hend

theorem Group.goesOn_status (g : Group) (lanes : BitVec 32) (n : Nat) {j : Nat} (hj : j < 32) :
    ((g.goesOn lanes n).lane j).status = (g.lane j).status := by
  obtain ⟨dem, wait, skip, h⟩ := g.issued_lane lanes hj
  rw [goesOn, Group.updLanes_lane (g.issued lanes) lanes _ j hj, h]
  split <;> rfl

theorem Group.packetEnds_lane (g : Group) (lanes : BitVec 32) {j : Nat} (hj : j < 32) :
    (g.packetEnds lanes).lane j = if g.halted && lanes.getLsbD j then (g.lane j).halts else g.lane j := by
  rw [packetEnds]
  cases g.halted with
  | false => rfl
  | true => exact g.updLanes_lane lanes _ j hj

theorem Fibre.halts_live (x : Fibre) : x.halts.status.live = x.status.live := by
  by_cases hrun : x.status = .running <;> simp [halts, hrun]

/-- A fibre that halts at the end of its packet is as live as before. -/
theorem Group.packetEnds_live (g : Group) (lanes : BitVec 32) {j : Nat} (hj : j < 32) :
    ((g.packetEnds lanes).lane j).status.live = (g.lane j).status.live := by
  rw [packetEnds_lane _ _ hj]
  cases g.halted && lanes.getLsbD j with
  | false => rfl
  | true => exact (g.lane j).halts_live

/-- Going on after a word keeps fibres live or not live. -/
theorem State.advance_group_live {s : State} {c : Cur} {gid : Nat} {g : Group} (hpk : c.pk.gid = gid)
    (hg : s.group? gid = some g) (n : Nat) : ∃ k, (s.advance c n).group? gid = some k ∧
      Moves (onPc c.pk.lanes n) (onRem c.pk.lanes n) g k ∧
      ∀ j, j < 32 → (k.lane j).status.live = (g.lane j).status.live := by
  subst hpk
  have hgo := g.goesOn_moves c.pk.lanes n
  rcases State.advance_group_cases hg n with h | h
  · exact ⟨_, h, hgo, fun j hj => by rw [Group.goesOn_status _ _ _ hj]⟩
  · exact ⟨_, h, hgo.packetEnds c.pk.lanes, fun j hj => by
      rw [Group.packetEnds_live _ _ hj, Group.goesOn_status _ _ _ hj]⟩

theorem fork_spec (pd : BitVec 6) (n : BitVec 7) (off : BitVec 19) (s : State) (h : Here)
    (hi : Issues (.fork pd n off) s h) (hstart : clauseStart s h.t (h.target off) = true) :
    let k := forkLanes h.g pd n.toNat (BitVec.ofNat 56 (h.target off)) h.t.launch.privileged (lanesOf h.act)
    ∃ t g, exec (.fork pd n off) s = .next t ∧ SameElse s t h ∧ t.group? h.g.gid = some g ∧ FlagsRise h.g g [] ∧
      ∀ j, j < 32 → (g.lane j).regs = (k.lane j).regs ∧ (g.lane j).preds = (k.lane j).preds ∧
        (g.lane j).status.live = (k.lane j).status.live ∧
        (g.lane j).pc = (k.lane j).pc + (if h.c.pk.lanes.getLsbD j then 8 else 0) := by
  intro k
  have honly := fun g : Group => forkLanes_only g pd n.toNat (BitVec.ofNat 56 (h.target off)) h.t.launch.privileged
    (lanesOf h.act)
  have hgid : ∀ g : Group, (forkLanes g pd n.toNat (BitVec.ofNat 56 (h.target off)) h.t.launch.privileged
      (lanesOf h.act)).gid = g.gid := fun g => by
    obtain ⟨ls, hls⟩ := honly g
    rw [hls]
  have hexec : exec (.fork pd n off) s = .next ((s.updGroup h.g.gid fun g => forkLanes g pd n.toNat
      (BitVec.ofNat 56 (h.target off)) h.t.launch.privileged (lanesOf h.act)).advance h.c 2) := by
    show execFork pd n off s = _
    rw [execFork, issue_next hi, targetWaits_of_clauseStart hstart, hstart]
    rfl
  obtain ⟨g, hg, hmoves, hlive⟩ := State.advance_group_live hi.gid (State.updGroup_group?_same hi.group _ hgid) 2
  refine ⟨_, g, hexec, (s.updGroup_sameElse h _ hgid).trans ((State.advance_moves _ h.c 2).sameElse hi.gid rfl), hg,
    fun m hm => (hmoves.flagsRise m hm).trans ?_,
    fun j hj => ⟨hmoves.regs hj, hmoves.preds hj, hlive j hj, hmoves.pc hj⟩⟩
  obtain ⟨ls, hls⟩ := honly h.g
  rw [hls]

/-! ### `END` (R74, R75) -/

/-- A group whose fibres of some lanes have ended, with a successor or without. -/
def Group.ended (lanes : BitVec 32) (succ : Option (Addr × BitVec 7)) (g : Group) : Group :=
  g.updLanes lanes fun _ x =>
    { x with status := if succ.isSome then .endedSucc else .ended, succ := succ, marks := [],
             region := none, rollback := none, defer := [], demoted := false, demWait := 0 }

theorem Group.ended_lane (g : Group) (lanes : BitVec 32) (succ : Option (Addr × BitVec 7)) {j : Nat} (hj : j < 32) :
    ((g.ended lanes succ).lane j).regs = (g.lane j).regs ∧ ((g.ended lanes succ).lane j).preds = (g.lane j).preds ∧
    ((g.ended lanes succ).lane j).pc = (g.lane j).pc ∧
    (lanes.getLsbD j = true → ((g.ended lanes succ).lane j).status = (if succ.isSome then .endedSucc else .ended) ∧
      ((g.ended lanes succ).lane j).succ = succ) := by
  rw [ended, Group.updLanes_lane _ _ _ _ hj]
  cases lanes.getLsbD j with
  | false => exact ⟨rfl, rfl, rfl, fun h => nomatch h⟩
  | true => exact ⟨rfl, rfl, rfl, fun _ => ⟨rfl, rfl⟩⟩

/-- The successor that an `END` names, as an address and a number of registers. -/
abbrev Here.successor (h : Here) (succ : Option (BitVec 7 × BitVec 18)) : Option (Addr × BitVec 7) :=
  succ.map fun p => (BitVec.ofNat 56 (h.target p.2), p.1)

theorem exec_end {succ : Option (BitVec 7 × BitVec 18)} {s : State} {h : Here} (hi : Issues (.endF succ) s h)
    (hstart : ∀ p, succ = some p → clauseStart s h.t (h.target p.2) = true) : exec (.endF succ) s =
      .next ((s.transfer h.c ((lanesOf h.act).map fun i => (i, (h.g.lane i).pc))).updGroup h.g.gid
        (Group.ended h.act (h.successor succ))) := by
  show execEnd succ s = _
  rw [execEnd, issue_next hi]
  cases succ with
  | none => rfl
  | some p =>
    obtain ⟨k, off⟩ := p
    have hclause := hstart _ rfl
    simp only [targetWaits_of_clauseStart hclause, hclause, Bool.not_true, Bool.false_eq_true, if_false]
    rfl

theorem end_spec (succ : Option (BitVec 7 × BitVec 18)) (s : State) (h : Here) (hi : Issues (.endF succ) s h)
    (hstart : ∀ p, succ = some p → clauseStart s h.t (h.target p.2) = true) :
    ∃ t g, exec (.endF succ) s = .next t ∧ SameElse s t h ∧ t.group? h.g.gid = some g ∧ SameRegs h.g g ∧
      FlagsRise h.g g [] ∧ ∀ j, j < 32 →
        if h.act.getLsbD j = true then
          (g.lane j).status = (if succ.isSome then .endedSucc else .ended) ∧
          (g.lane j).succ = succ.map fun p => (BitVec.ofNat 56 (h.target p.2), p.1)
        else (g.lane j).pc = if h.c.pk.lanes.getLsbD j then (h.g.lane j).clauseEnd else (h.g.lane j).pc := by
  obtain ⟨g, helse, -, hg, hregs, hflags, hat⟩ := transfer_spec hi (.refl s _) (lanesOf h.act)
    fun i => (h.g.lane i).pc
  have hlane := fun j (hj : j < 32) => g.ended_lane h.act (h.successor succ) hj
  refine ⟨_, g.ended h.act (h.successor succ), exec_end hi hstart,
    helse.trans (State.updGroup_sameElse _ h _ fun _ => rfl), State.updGroup_group?_same hg _ fun _ => rfl,
    ⟨hregs.scal, hregs.fpctl, fun j hj => ?_, fun j hj => ?_⟩, hflags, fun j hj => ?_⟩
  · exact (hlane j hj).1.trans (hregs.regs j hj)
  · exact (hlane j hj).2.1.trans (hregs.preds j hj)
  · obtain ⟨-, -, hpc, hends⟩ := hlane j hj
    by_cases hact : h.act.getLsbD j = true
    · rw [if_pos hact, (hends hact).1, (hends hact).2, Option.isSome_map]
      exact ⟨rfl, rfl⟩
    · have hout : j ∉ lanesOf h.act := fun hmem => hact (mem_lanesOf.mp hmem).2
      rw [if_neg hact, hpc, (hat j hj).1]
      exact congrArg (fun a => if h.c.pk.lanes.getLsbD j then a else (h.g.lane j).pc) (if_neg hout)

/-! ### `RCVG` (R71) -/

/-- A group whose packet waits at an `RCVG`. -/
def Group.waitsRcvg (lanes : BitVec 32) (g : Group) : Group :=
  (g.issued lanes).updLanes lanes fun _ x => { x with status := .rcvg, rcvg := x.pc }

theorem Group.waitsRcvg_lane (g : Group) (lanes : BitVec 32) {j : Nat} (hj : j < 32) :
    ((g.waitsRcvg lanes).lane j).regs = (g.lane j).regs ∧ ((g.waitsRcvg lanes).lane j).preds = (g.lane j).preds ∧
    ((g.waitsRcvg lanes).lane j).pc = (g.lane j).pc ∧ (lanes.getLsbD j = true →
      ((g.waitsRcvg lanes).lane j).status = .rcvg ∧ ((g.waitsRcvg lanes).lane j).rcvg = (g.lane j).pc) := by
  obtain ⟨dem, wait, skip, h⟩ := g.issued_lane lanes hj
  rw [waitsRcvg, Group.updLanes_lane (g.issued lanes) lanes _ j hj, h]
  cases lanes.getLsbD j with
  | false => exact ⟨rfl, rfl, rfl, fun h => nomatch h⟩
  | true => exact ⟨rfl, rfl, rfl, fun _ => ⟨rfl, rfl⟩⟩

/-- The packet's own group rewritten, and its port given back. -/
theorem packetUpdate_sameElse (s : State) (h : Here) (lanes : BitVec 32) (q : Option Packet) {f : Group → Group}
    (hf : ∀ g, (f g).gid = g.gid) :
    SameElse s (((s.goneOn h.g.gid lanes).updGroup h.g.gid f).setPort h.c q) h :=
  ⟨rfl, rfl, rfl, rfl, rfl, rfl, rfl, rfl, rfl,
    fun c hc => (State.setPort_coreOf ((s.goneOn h.g.gid lanes).updGroup h.g.gid f) h.c q c).trans (if_neg hc),
    fun _ hn => State.updGroup_group?_other (s.goneOn h.g.gid lanes) hn f hf⟩

theorem rcvg_spec (s : State) (h : Here) (hi : Issues .rcvg s h) :
    ∃ t g, exec .rcvg s = .next t ∧ SameElse s t h ∧ t.group? h.g.gid = some g ∧ SameRegs h.g g ∧ FlagsRise h.g g [] ∧
      ∀ j, j < 32 → (g.lane j).pc = (h.g.lane j).pc ∧
        (h.c.pk.lanes.getLsbD j = true → (g.lane j).status = .rcvg ∧ (g.lane j).rcvg = (h.g.lane j).pc) := by
  have hexec : exec .rcvg s = .next (((s.goneOn h.g.gid h.c.pk.lanes).updGroup h.g.gid
      (Group.waitsRcvg h.c.pk.lanes)).setPort h.c none) := by
    show execRcvg s = _
    exact issue_next hi _
  have hlane := fun j (hj : j < 32) => h.g.waitsRcvg_lane h.c.pk.lanes hj
  refine ⟨_, h.g.waitsRcvg h.c.pk.lanes, hexec, packetUpdate_sameElse s h _ none fun _ => rfl,
    State.updGroup_group?_same (s := s.goneOn h.g.gid h.c.pk.lanes) hi.group _ fun _ => rfl,
    ⟨rfl, rfl, fun j hj => (hlane j hj).1, fun j hj => (hlane j hj).2.1⟩, fun n _ => (add_zero _).symm, fun j hj => ?_⟩
  obtain ⟨-, -, hpc, hwaits⟩ := hlane j hj
  exact ⟨hpc, hwaits⟩

/-! ### `SPAWN` (R78, R79) -/

/-- The groups of `t` are those of `s` in their order, each but for its lanes. -/
def SameSeats (s t : State) : Prop :=
  ∃ f : Group → Group, (∀ g, ∃ ls, f g = { g with lanes := ls }) ∧ t.groups = s.groups.map f

theorem SameSeats.trans {s t u : State} (h : SameSeats s t) (k : SameSeats t u) : SameSeats s u := by
  obtain ⟨f, hf, ht⟩ := h
  obtain ⟨f', hf', hu⟩ := k
  refine ⟨f' ∘ f, fun g => ?_, by rw [hu, ht, List.map_map]⟩
  obtain ⟨ls, h⟩ := hf g
  obtain ⟨ms, h'⟩ := hf' { g with lanes := ls }
  exact ⟨ms, by rw [Function.comp_apply, h, h']⟩

/-- A group's lanes rewritten. -/
theorem State.updGroup_sameSeats (s : State) (gid : Nat) {f : Group → Group}
    (hf : ∀ g, ∃ ls, f g = { g with lanes := ls }) : SameSeats s (s.updGroup gid f) := by
  refine ⟨fun g => if g.gid = gid then f g else g, fun g => ?_, rfl⟩
  by_cases hg : g.gid = gid
  · obtain ⟨ls, h⟩ := hf g
    exact ⟨ls, (if_pos hg).trans h⟩
  · exact ⟨g.lanes, if_neg hg⟩

theorem State.advance_sameSeats (s : State) (c : Cur) (n : Nat) : SameSeats s (s.advance c n) := by
  have hgo : SameSeats s ((s.goneOn c.pk.gid c.pk.lanes).updGroup c.pk.gid (Group.goesOn · c.pk.lanes n)) :=
    State.updGroup_sameSeats (s.goneOn c.pk.gid c.pk.lanes) c.pk.gid fun g => (g.goesOn_moves c.pk.lanes n).1
  have hend := hgo.trans (State.updGroup_sameSeats _ c.pk.gid fun g => (g.packetEnds_moves c.pk.lanes).1)
  unfold State.advance
  dsimp only
  split
  · exact hgo
  · split
    · exact hgo
    · exact hend

section
variable {s t : State} (h : SameSeats s t)
include h

/-- What holds of some group of one state and does not look at lanes holds of some group of the other. -/
theorem SameSeats.any {p : Group → Bool} (hp : ∀ g ls, p { g with lanes := ls } = p g) :
    t.groups.any p = s.groups.any p := by
  obtain ⟨f, hf, ht⟩ := h
  rw [ht, List.any_map]
  congr 1
  funext g
  obtain ⟨ls, hls⟩ := hf g
  rw [Function.comp_apply, hls, hp]

theorem SameSeats.childNumbers (tm : Team) : childNumbers t tm = childNumbers s tm := by
  refine List.filter_congr fun n _ => ?_
  rw [List.any_filter, List.any_filter, h.any fun _ _ => rfl]

theorem SameSeats.freeSlots (core sched : Nat) : freeSlots t core sched = freeSlots s core sched := by
  refine List.filter_congr fun n _ => ?_
  rw [List.any_filter, List.any_filter, h.any fun _ _ => rfl]

theorem SameSeats.length : t.groups.length = s.groups.length := by
  obtain ⟨f, -, ht⟩ := h
  rw [ht, List.length_map]

end

theorem headD_mem {l : List Nat} (hl : l.isEmpty = false) : l.headD 0 ∈ l := by
  cases l with
  | nil => cases hl
  | cons x l => exact List.mem_cons_self

/-- No group of the team has a number that a child may take. -/
theorem num_ne_of_mem_childNumbers {s : State} {t : Team} {n : Nat} (hn : n ∈ childNumbers s t) {m : Group}
    (hm : m ∈ s.groups) (htid : m.tid = t.tid) : m.num ≠ n := by
  obtain ⟨-, hfree⟩ := List.mem_filter.mp hn
  rw [Bool.and_eq_true, Bool.not_eq_true', List.any_filter, List.any_eq_false] at hfree
  have hnot := hfree.2 m hm
  simpa [htid] using hnot

/-- No group of the scheduler is in a free slot. -/
theorem slot_ne_of_mem_freeSlots {s : State} {core sched n : Nat} (hn : n ∈ freeSlots s core sched) {m : Group}
    (hm : m ∈ s.groups) (hcore : m.core = core) (hsched : m.sched = sched) : m.slot ≠ n := by
  obtain ⟨-, hfree⟩ := List.mem_filter.mp hn
  rw [Bool.not_eq_true', List.any_filter, List.any_eq_false] at hfree
  have hnot := hfree m hm
  simpa [hcore, hsched] using hnot

/-- Where there is room, some scheduler of the core has a free slot and some number of the team is free. -/
theorem room_of_spawnOk {s : State} {g : Group} {t : Team} (hok : spawnOk s g t = true) :
    (∃ k, k ∈ List.range 4 ∧ (freeSlots s g.core k).isEmpty = false) ∧ (childNumbers s t).isEmpty = false := by
  simp only [spawnOk, Bool.and_eq_true, Bool.not_eq_true', List.any_eq_true] at hok
  obtain ⟨⟨⟨⟨⟨hslot, -⟩, hnum⟩, -⟩, -⟩, -⟩ := hok
  exact ⟨hslot, hnum⟩

/-- The child's number is one that a child may take. -/
theorem childGroup_num_mem {s : State} {h : Here} (hok : (childNumbers s h.t).isEmpty = false) (target : Addr) :
    (childGroup s h target).num ∈ childNumbers s h.t :=
  headD_mem hok

/-- The child's slot is a free one. -/
theorem childGroup_slot_mem {s : State} {h : Here}
    (hok : ∃ k, k ∈ List.range 4 ∧ (freeSlots s h.g.core k).isEmpty = false) (target : Addr) :
    (childGroup s h target).slot ∈ freeSlots s h.g.core (childGroup s h target).sched := by
  refine headD_mem (l := freeSlots s h.g.core (childGroup s h target).sched) ?_
  show (freeSlots s h.g.core (((List.range 4).find? fun k => !(freeSlots s h.g.core k).isEmpty).getD 0)).isEmpty = false
  cases hfind : (List.range 4).find? fun k => !(freeSlots s h.g.core k).isEmpty with
  | none =>
    obtain ⟨k, hk, hfree⟩ := hok
    exact absurd (by rw [hfree]; rfl) (List.find?_eq_none.mp hfind k hk)
  | some k => exact (Bool.not_eq_true' _).mp (List.find?_some (p := fun k => !(freeSlots s h.g.core k).isEmpty) hfind)

/-- The fibre of a child group in lane `i`, whose window is that of `y`. -/
def Here.childFibre (h : Here) (num : Nat) (st : FStatus) (target : Addr) (i : Nat) (y : Fibre) : Fibre :=
  let stack := stackBounds h.t num i
  let x : Fibre := { stackLo := stack.1, stackHi := stack.2, sp := stack.2.setWidth 56, fp := stack.2.setWidth 56,
                     winBase := y.winBase }
  if h.act.getLsbD i then
    { x.start target h.t.launch.privileged (keepRegs (h.g.lane i).regs 8) with status := st }
  else x

theorem childGroup_lane_eq (s : State) (h : Here) (target : Addr) {j : Nat} (hj : j < 32) :
    ∃ y, (childGroup s h target).lane j =
      h.childFibre (childGroup s h target).num (childGroup s h target).released target j y := by
  have hall : (BitVec.allOnes 32).getLsbD j = true := by rw [BitVec.getLsbD_allOnes, decide_eq_true hj]
  exact ⟨_, (Group.updLanes_lane _ (BitVec.allOnes 32) _ j hj).trans (if_pos hall)⟩

/-- The child's fibres stand in the lanes of the active ones, at the target with 8 registers each. -/
theorem childGroup_lane (s : State) (h : Here) (target : Addr) {j : Nat} (hj : j < 32) :
    if h.act.getLsbD j = true then
      ((childGroup s h target).lane j).status = (childGroup s h target).released ∧
      ((childGroup s h target).lane j).pc = target ∧
      ((childGroup s h target).lane j).mode = h.t.launch.privileged ∧
      ∀ m, m < 64 → ((childGroup s h target).lane j).reg m = if m < 8 then (h.g.lane j).reg m else 0
    else ((childGroup s h target).lane j).status = .empty := by
  obtain ⟨y, hy⟩ := childGroup_lane_eq s h target hj
  rw [hy, Here.childFibre]
  by_cases hact : h.act.getLsbD j = true
  · rw [if_pos hact, if_pos hact]
    exact ⟨rfl, rfl, rfl, fun m hm => keepRegs_reg _ _ hm⟩
  · rw [if_neg hact, if_neg hact]

/-- A group whose fibres of some lanes are told by a predicate. -/
def Group.told (lanes : BitVec 32) (p : Nat) (v : Bool) (g : Group) : Group :=
  (lanesOf lanes).foldl (fun (g : Group) i => g.setLane i ((g.lane i).setPred p v)) g

theorem Group.told_eq (g : Group) (lanes : BitVec 32) (p : Nat) (v : Bool) : g.told lanes p v =
    g.eachLane (fun v x => x.setPred p v) ((lanesOf lanes).map fun i => (i, v)) := by
  rw [eachLane, List.foldl_map]
  rfl

theorem Group.told_only (g : Group) (lanes : BitVec 32) (p : Nat) (v : Bool) :
    ∃ ls, g.told lanes p v = { g with lanes := ls } := by
  rw [told_eq]
  exact g.eachLane_only _ _

theorem Group.told_lane (g : Group) (lanes : BitVec 32) (p : Nat) (v : Bool) {j : Nat} (hj : j < 32) :
    (g.told lanes p v).lane j = if lanes.getLsbD j = true then (g.lane j).setPred p v else g.lane j := by
  have hkeys : ((lanesOf lanes).map fun i => (i, v)).map (·.1) = lanesOf lanes := by simp [Function.comp_def]
  rw [told_eq, g.eachLane_lane _ _ (by rw [hkeys]; exact nodup_lanesOf lanes) hj, assoc_map_self _ (fun _ => v) j]
  by_cases hact : lanes.getLsbD j = true
  · rw [if_pos hact, if_pos (mem_lanesOf.mpr ⟨hj, hact⟩)]
    rfl
  · rw [if_neg hact, if_neg fun hmem => hact (mem_lanesOf.mp hmem).2]
    rfl

/-- The packet's group and its core once a `SPAWN` has told its fibres. -/
def spawnTold (pd : BitVec 6) (s : State) (h : Here) : State :=
  (s.updGroup h.g.gid (Group.told h.act pd.toNat (spawnOk s h.g h.t))).advance h.c 1

/-- A state with a further group. -/
def State.withChild (s : State) (k : Group) : State :=
  { s with groups := s.groups ++ [k], serial := s.serial + 1 }

theorem State.withChild_group?_old {s : State} {n : Nat} {g : Group} (hg : s.group? n = some g) (k : Group) :
    (s.withChild k).group? n = some g := by
  rw [State.group?, withChild, List.find?_append]
  show (s.group? n).or _ = _
  rw [hg]
  rfl

theorem State.withChild_group?_other (s : State) {n : Nat} {k : Group} (hn : n ≠ k.gid) :
    (s.withChild k).group? n = s.group? n := by
  have hnone : [k].find? (fun g => decide (g.gid = n)) = none := by
    rw [List.find?_singleton, if_neg (by simpa using Ne.symm hn)]
  rw [State.group?, withChild, List.find?_append, hnone, Option.or_none]

theorem exec_spawn {pd : BitVec 6} {off : BitVec 19} {s : State} {h : Here} (hi : Issues (.spawn pd off) s h)
    (hstart : clauseStart s h.t (h.target off) = true)
    (hpassed : spawnOk s h.g h.t = true → performedAt s h.g.gid s.serial .team = true) :
    exec (.spawn pd off) s = .next (if spawnOk s h.g h.t then
      (spawnTold pd s h).withChild (childGroup (spawnTold pd s h) h (BitVec.ofNat 56 (h.target off)))
      else spawnTold pd s h) := by
  have hgo : (spawnOk s h.g h.t && !performedAt s h.g.gid s.serial .team) = false := by
    cases hok : spawnOk s h.g h.t with
    | false => rfl
    | true => rw [hpassed hok]; rfl
  show execSpawn pd off s = _
  rw [execSpawn, issue_next hi, targetWaits_of_clauseStart hstart, hstart]
  simp only [Bool.not_true, Bool.false_eq_true, if_false, hgo]
  rfl

/-- What a `SPAWN` leaves of the state when it has told its fibres. -/
theorem spawnTold_spec {pd : BitVec 6} {off : BitVec 19} {s : State} {h : Here} (hi : Issues (.spawn pd off) s h) :
    SameElse s (spawnTold pd s h) h ∧ SameSeats s (spawnTold pd s h) ∧
    (spawnTold pd s h).ops.length = s.ops.length ∧ (spawnTold pd s h).serial = s.serial ∧
    ∃ g, (spawnTold pd s h).group? h.g.gid = some g ∧ StandsOn h 1 g ∧ FlagsRise h.g g [] ∧
      ∀ j, j < 32 → (g.lane j).regs = (h.g.lane j).regs ∧
        (h.act.getLsbD j = true → (g.lane j).pred pd.toNat = (pd == 0 || spawnOk s h.g h.t)) := by
  have honly := fun g : Group => g.told_only h.act pd.toNat (spawnOk s h.g h.t)
  have hgid : ∀ g : Group, (g.told h.act pd.toNat (spawnOk s h.g h.t)).gid = g.gid := fun g => by
    obtain ⟨ls, hls⟩ := honly g
    rw [hls]
  have hadv := (s.updGroup h.g.gid (Group.told h.act pd.toNat (spawnOk s h.g h.t))).advance_moves h.c 1
  obtain ⟨g, hg, hmoves⟩ := State.advance_group hi.gid (State.updGroup_group?_same hi.group _ hgid) 1
  have hserial : (spawnTold pd s h).serial = s.serial := by
    obtain ⟨gs, ks, os, honly⟩ := hadv.only
    rw [spawnTold, honly]
    rfl
  have htold := fun j (hj : j < 32) => h.g.told_lane h.act pd.toNat (spawnOk s h.g h.t) hj
  refine ⟨(s.updGroup_sameElse h _ hgid).trans (hadv.sameElse hi.gid rfl),
    (s.updGroup_sameSeats h.g.gid honly).trans (State.advance_sameSeats _ h.c 1), hadv.ops.length, hserial, g, hg,
    standsOn_of_moves hmoves fun j hj => ?_, fun n hn => (hmoves.flagsRise n hn).trans ?_,
    fun j hj => ⟨?_, fun hact => ?_⟩⟩
  · obtain ⟨b, hb⟩ := (h.g.lane j).setPred_only pd.toNat (spawnOk s h.g h.t)
    rw [htold j hj, hb]
    by_cases hact : h.act.getLsbD j = true
    · rw [if_pos hact]
      exact ⟨rfl, rfl⟩
    · rw [if_neg hact]
      exact ⟨rfl, rfl⟩
  · obtain ⟨ls, hls⟩ := honly h.g
    rw [hls]
  · obtain ⟨b, hb⟩ := (h.g.lane j).setPred_only pd.toNat (spawnOk s h.g h.t)
    rw [hmoves.regs hj, htold j hj, hb]
    by_cases hact : h.act.getLsbD j = true
    · rw [if_pos hact]
    · rw [if_neg hact]
  · have hpred : (g.lane j).pred pd.toNat = ((h.g.lane j).setPred pd.toNat (spawnOk s h.g h.t)).pred pd.toNat := by
      rw [Fibre.pred, Fibre.pred, hmoves.preds hj, htold j hj, if_pos hact]
    rw [hpred, Fibre.pred_setPred _ _ _ _ pd.isLt, if_pos rfl]
    congr 1
    rw [Bool.eq_iff_iff, beq_iff_eq, beq_iff_eq]
    exact BitVec.toNat_inj (y := 0#6)

theorem spawn_spec (pd : BitVec 6) (off : BitVec 19) (s : State) (h : Here) (hi : Issues (.spawn pd off) s h)
    (hstart : clauseStart s h.t (h.target off) = true)
    (hpassed : spawnOk s h.g h.t = true → performedAt s h.g.gid s.serial .team = true) :
    ∃ t g, exec (.spawn pd off) s = .next t ∧ t.mem = s.mem ∧ t.teams = s.teams ∧ t.ops.length = s.ops.length ∧
      (∀ n, n ≠ h.g.gid → n ≠ s.serial → t.group? n = s.group? n) ∧ t.group? h.g.gid = some g ∧ StandsOn h 1 g ∧
      FlagsRise h.g g [] ∧ (∀ j, j < 32 → (g.lane j).regs = (h.g.lane j).regs ∧
        (h.act.getLsbD j = true → (g.lane j).pred pd.toNat = (pd == 0 || spawnOk s h.g h.t))) ∧
      (spawnOk s h.g h.t = false → t.groups.length = s.groups.length) ∧
      (spawnOk s h.g h.t = true → ∃ k, t.groups.getLast? = some k ∧ t.groups.length = s.groups.length + 1 ∧
        k.gid = s.serial ∧ k.tid = h.t.tid ∧ k.core = h.g.core ∧ k.window = h.g.window ∧ k.scal = h.g.scal ∧
        (∀ m ∈ s.groups, m.tid = h.t.tid → m.num ≠ k.num) ∧
        (∀ m ∈ s.groups, m.core = k.core → m.sched = k.sched → m.slot ≠ k.slot) ∧
        ∀ j, j < 32 →
          if h.act.getLsbD j = true then
            (k.lane j).status = k.released ∧ (k.lane j).pc = BitVec.ofNat 56 (h.target off) ∧
            (k.lane j).mode = h.t.launch.privileged ∧
            ∀ m, m < 64 → (k.lane j).reg m = if m < 8 then (h.g.lane j).reg m else 0
          else (k.lane j).status = .empty) := by
  have hexec := exec_spawn hi hstart hpassed
  obtain ⟨helse, hseats, hops, hserial, g, hg, hstands, hflags, hlanes⟩ := spawnTold_spec hi
  cases hok : spawnOk s h.g h.t with
  | false =>
    rw [hok, if_neg Bool.false_ne_true] at hexec
    rw [hok] at hlanes
    exact ⟨_, g, hexec, helse.mem, helse.teams, hops, fun n hn _ => helse.groups n hn, hg, hstands, hflags, hlanes,
      fun _ => hseats.length, fun hno => nomatch hno⟩
  | true =>
    rw [hok, if_pos rfl] at hexec
    rw [hok] at hlanes
    obtain ⟨hslot, hnum⟩ := room_of_spawnOk hok
    simp only [← hseats.freeSlots] at hslot
    rw [← hseats.childNumbers] at hnum
    have hnumMem := childGroup_num_mem hnum (BitVec.ofNat 56 (h.target off))
    have hslotMem := childGroup_slot_mem hslot (BitVec.ofNat 56 (h.target off))
    rw [hseats.childNumbers] at hnumMem
    rw [hseats.freeSlots] at hslotMem
    refine ⟨_, g, hexec, helse.mem, helse.teams, hops, fun n hn hnew => ?_, State.withChild_group?_old hg _, hstands,
      hflags, hlanes, (fun hno => nomatch hno), fun _ => ⟨_, List.getLast?_concat .., ?_, hserial, rfl, rfl, rfl, rfl,
        fun m hm htid => num_ne_of_mem_childNumbers hnumMem hm htid,
        fun m hm hcore hsched => slot_ne_of_mem_freeSlots hslotMem hm hcore hsched,
        fun j hj => childGroup_lane _ h _ hj⟩⟩
    · have hn' : n ≠ (childGroup (spawnTold pd s h) h (BitVec.ofNat 56 (h.target off))).gid := fun he =>
        hnew (he.trans hserial)
      rw [State.withChild_group?_other _ hn', helse.groups n hn]
    · rw [State.withChild, List.length_append, hseats.length]
      rfl

/-- Settles O27: each word's execution is read off its equation, and the packet goes on as every word's does. -/
theorem fibresForkEndAndSpawn : Obligations.FibresForkEndAndSpawn :=
  ⟨⟨forkLanes_spec, fork_spec, end_spec, rcvg_spec⟩, spawn_spec⟩

end Sys2Proof.Machine
end

section
/-!
Barriers and yield points (R82, R86 to R89): a counterexample to O29.

The statement says of `YIELD` under a drain request that every core but the packet's is as it was, and says it of
every state. The lanes that stop leave the ports of their *group's* scheduler (R61, R64). In a state whose packet in
hand names another core than its group stands on, these ports belong to a core that the statement says is left alone.
No rule lets a packet's core differ from its group's, but no hypothesis of the statement says so either.
-/

namespace Sys2Proof.Machine

open Sys2Proof

/-- A group of a team under a drain request stands on core 0 and has a packet in its port there; the packet in hand, of
the same group, is on core 1. -/
def strayPacket : State :=
  { cur := some { core := 1, pk := { gid := 1, lanes := 1 } }
    groups := [{ gid := 1, tid := 1, lanes := Vector.replicate 32 { status := .running, active := true } }]
    teams := [{ tid := 1, drain := true }]
    cores := [{ scheds := (Vector.replicate 4 {}).set 0 { phase := 1, port1 := some { gid := 1, lanes := 1 } } }, {}] }

/-- The packet in hand of `strayPacket` with its group and team. -/
def strayHere : Here :=
  (strayPacket.here?).getD { c := {}, g := {}, t := {} }

theorem strayPacket_issues : Issues .yield strayPacket strayHere where
  here := by rfl
  place := by decide
  fit := by decide
  active := by decide
  ready := by decide
  packet := by decide
  chans := .inl (by decide)

/-- The first port of scheduler 0 of core 0. -/
def State.firstPort (s : State) : Option Packet := (vget (s.coreOf 0).scheds 0 {}).port1

/-- `YIELD` takes the stopped lane out of the port of core 0. -/
theorem yield_strayPacket : ∃ t, exec .yield strayPacket = .next t ∧ t.firstPort = none := ⟨_, rfl, by decide⟩

/-- Refutes O29: `YIELD` under a drain request changes the core of its packet's group, which need not be the packet's
core. -/
theorem not_barriersAndYield : ¬ Obligations.BarriersAndYield := by
  rintro ⟨-, -, -, hyield⟩
  obtain ⟨t, -, hexec, helse, -⟩ := hyield strayPacket strayHere strayPacket_issues
  obtain ⟨u, hexec', hport⟩ := yield_strayPacket
  obtain rfl : t = u := by
    rw [hexec] at hexec'
    injection hexec'
  have hcore : t.coreOf 0 = strayPacket.coreOf 0 := helse.cores 0 (by decide)
  have hbusy : strayPacket.firstPort = some { gid := 1, lanes := 1 } := by rfl
  rw [State.firstPort, hcore] at hport
  rw [State.firstPort, hport] at hbusy
  cases hbusy

end Sys2Proof.Machine
end

section
/-!
Convergence registers and the matrix instructions' issue (R84, R85, R292, R299), and the statement of O35.
-/

namespace Sys2Proof.Machine

open Sys2Proof

/-! ### Flags that rise (R38) -/

/-- Raising flags changes flags only. -/
theorem Group.incFlags_only (g : Group) (l : List Nat) : ∃ fs, l.foldl Group.incFlag g = { g with flags := fs } := by
  induction l generalizing g with
  | nil => exact ⟨_, rfl⟩
  | cons n l ih =>
    obtain ⟨fs, h⟩ := ih (g.incFlag n)
    exact ⟨fs, h⟩

theorem Group.incFlag_flag (g : Group) {i n : Nat} (hi : i < 12) :
    (g.incFlag i).flag n = g.flag n + if n = i then 1 else 0 := by
  by_cases hn : n = i
  · subst hn
    rw [if_pos rfl]
    exact vget_vset_same _ _ _ _ hi
  · rw [if_neg hn]
    exact (vget_vset_other _ _ _ _ _ (Ne.symm hn)).trans (add_zero _).symm

/-- The flags of a list without repetition rise by one each. -/
theorem Group.incFlags_flagsRise (g : Group) (l : List Nat) (hnd : l.Nodup) (hl : ∀ i ∈ l, i < 12) :
    FlagsRise g (l.foldl Group.incFlag g) l := by
  induction l generalizing g with
  | nil => exact fun n _ => (BitVec.add_zero _).symm
  | cons i l ih =>
    intro n hn
    obtain ⟨hout, hnd⟩ := List.nodup_cons.mp hnd
    rw [List.foldl_cons, ih (g.incFlag i) hnd (fun k hk => hl k (List.mem_cons_of_mem _ hk)) n hn,
      g.incFlag_flag (hl i List.mem_cons_self), List.contains_cons]
    by_cases hni : n = i
    · subst hni
      simp [hout]
    · simp [hni]

theorem setFlags_nodup (hdr : Word) : (setFlags hdr).Nodup := by
  rw [setFlags]
  split
  · split
    · next hb => simpa using Ne.symm hb.2
    · simp
  · split <;> simp

theorem lt_of_mem_setFlags {hdr : Word} {i : Nat} (hi : i ∈ setFlags hdr) : i < 12 := by
  rw [setFlags] at hi
  rcases List.mem_append.mp hi with h | h
  · split at h
    · next ha => rwa [List.mem_singleton.mp h]
    · cases h
  · split at h
    · next hb => rw [List.mem_singleton.mp h]; exact hb.1
    · cases h

/-! ### What issuing a matrix operation leaves (R299, R300, R307, R313) -/

/-- The copies that an operation raises, each with its locked ranges, put in flight. -/
def copiesRaised (i : Instr) (h : Here) (l : List (CopyReq × List Rng)) (s : State) : State :=
  l.foldl (fun s c => (rltAdd s h.c.core s.serial 0 c.2).addOp
    { mkOp i h s (.copy c.1) [] with flags := [], still := 0 }) s

/-- Raised copies are operations and hold entries of the core's range-lock table; they count against no flag. -/
theorem copiesRaised_only (i : Instr) (h : Here) (l : List (CopyReq × List Rng)) (s : State) :
    ∃ os ks n, copiesRaised i h l s = { s with ops := os, cores := ks, serial := n } := by
  induction l generalizing s with
  | nil => exact ⟨_, _, _, rfl⟩
  | cons c l ih =>
    have hadd := State.addOp_noFlags (rltAdd s h.c.core s.serial 0 c.2)
      { mkOp i h s (.copy c.1) [] with flags := [], still := 0 } rfl
    obtain ⟨os, ks, n, hrest⟩ := ih ((rltAdd s h.c.core s.serial 0 c.2).addOp
      { mkOp i h s (.copy c.1) [] with flags := [], still := 0 })
    rw [hadd] at hrest
    refine ⟨os, ks, n, Eq.trans ?_ hrest⟩
    rw [← hadd]
    rfl

/-- The operation that a request becomes at issue. -/
def matrixOpOf (i : Instr) (h : Here) (s0 : State) (q : MxReq) : Op :=
  { mkOp i h s0 (.matrix q) [] with gid := q.gid, flags := q.flags, still := 0 }

/-- The copies that a request raises, each with the ranges it locks; the first takes the number `serial`. -/
def copiesOf (h : Here) (q : MxReq) (serial : Nat) : List (CopyReq × List Rng) :=
  let p := MxShape.of q.shape
  let copies := raisedCopies h.t q (serial + (raisedCopies h.t q 0).length)
  List.zip copies (copies.map fun c => c.ranges h.t.asid h.t.tid (!p.q || c.mask.getLsbD (ownBit h.t true)))

/-- The ranges that a request locks for itself. -/
def ownRanges (h : Here) (q : MxReq) : List Rng :=
  (mxRanges (MxShape.of q.shape) q).map fun r =>
    { dest := r.dest, asid := none, tid := h.t.tid, lo := r.off, hi := r.off + r.len }

/-- A request that issues is put in flight behind the copies it raises. -/
theorem mxIssue_done {i : Instr} {s s1 s2 : State} {h : Here} {q : MxReq} (hd : mxIssue i s s1 h q = .done s2) :
    let l := copiesOf h (mxAtIssue h.t q) s1.serial
    let own := ownRanges h (mxAtIssue h.t q)
    let sc := copiesRaised i h l s1
    let s3 := (rltAdd sc h.c.core sc.serial 0 own).addOp (matrixOpOf i h s (mxAtIssue h.t q))
    s2 = if handleFed (mxAtIssue h.t q) then
      s3.updTeam h.t.tid fun t => { t with qseq := setBits t.qseq 32 16 (mxAtIssue h.t q).num.toNat } else s3 := by
  unfold mxIssue at hd
  cases hf : mxFault s h.t (mxAtIssue h.t q) h.lead with
  | some f =>
    simp only [hf] at hd
    rcases ite_eq_iff.mp hd with ⟨-, hd⟩ | ⟨-, hd⟩ <;> cases hd
  | none =>
    simp only [hf] at hd
    rcases ite_eq_iff.mp hd with ⟨-, hd⟩ | ⟨-, hd⟩
    · cases hd
    · injection hd with hd
      exact hd.symm

/-- What issuing a matrix operation does: it is the last operation, its group's flags have risen, memory is as it was,
and the team stands. -/
theorem mxIssue_spec {i : Instr} {s s1 s2 : State} {h : Here} {q : MxReq} (hd : mxIssue i s s1 h q = .done s2) :
    s2.mem = s1.mem ∧
    (∃ o, s2.ops.getLast? = some o ∧ o.kind = .matrix (mxAtIssue h.t q) ∧ o.gid = q.gid ∧ o.tid = h.t.tid ∧
      o.flags = q.flags) ∧
    (∀ g, s1.group? q.gid = some g → s2.group? q.gid = some (q.flags.foldl Group.incFlag g)) ∧
    ∀ tm, s1.team? h.t.tid = some tm → ∃ tn, s2.team? h.t.tid = some tn := by
  have hs2 := mxIssue_done hd
  dsimp only at hs2
  generalize copiesOf h (mxAtIssue h.t q) s1.serial = l at hs2
  generalize ownRanges h (mxAtIssue h.t q) = own at hs2
  obtain ⟨os, ks, n, hcopies⟩ := copiesRaised_only i h l s1
  have hgid : ∀ g : Group, (q.flags.foldl Group.incFlag g).gid = g.gid := fun g => by
    obtain ⟨fs, hfs⟩ := g.incFlags_only q.flags
    rw [hfs]
  have hgroup : ∀ g, s1.group? q.gid = some g → ((rltAdd (copiesRaised i h l s1) h.c.core
      (copiesRaised i h l s1).serial 0 own).addOp (matrixOpOf i h s (mxAtIssue h.t q))).group? q.gid =
        some (q.flags.foldl Group.incFlag g) := fun g hg => by
    refine State.updGroup_group?_same (s := rltAdd (copiesRaised i h l s1) h.c.core
      (copiesRaised i h l s1).serial 0 own) ?_ _ hgid
    rw [hcopies]
    exact hg
  have hmem : ((rltAdd (copiesRaised i h l s1) h.c.core (copiesRaised i h l s1).serial 0 own).addOp
      (matrixOpOf i h s (mxAtIssue h.t q))).mem = s1.mem := by rw [hcopies]; rfl
  have hteam : ∀ tm, s1.team? h.t.tid = some tm → ((rltAdd (copiesRaised i h l s1) h.c.core
      (copiesRaised i h l s1).serial 0 own).addOp (matrixOpOf i h s (mxAtIssue h.t q))).team? h.t.tid = some tm :=
    fun tm htm => by rw [hcopies]; exact htm
  by_cases hfed : handleFed (mxAtIssue h.t q) = true
  · rw [if_pos hfed] at hs2
    rw [hs2]
    exact ⟨hmem, ⟨_, List.getLast?_concat, rfl, rfl, rfl, rfl⟩, hgroup, fun tm htm =>
      ⟨_, State.updTeam_team?_same (hteam tm htm) _ fun _ => rfl⟩⟩
  · rw [if_neg hfed] at hs2
    rw [hs2]
    exact ⟨hmem, ⟨_, List.getLast?_concat, rfl, rfl, rfl, rfl⟩, hgroup, fun tm htm => ⟨tm, hteam tm htm⟩⟩

/-! ### Signatures (R84, R85) -/

/-- A convergence register that `a` fibres have signed, with an operation or without. -/
def Conv.signed (r : Conv) (a : Nat) (op : Option MxReq) : Conv :=
  { n := r.n, c := r.c + a, captured := op.or r.captured }

section
variable {i : Instr} {s : State} {h : Here}

/-- A team's convergence register after it has been written. -/
theorem setCv_team? {tm : Team} (ht : s.team? h.t.tid = some tm) (cv : BitVec 4) (c : Conv) :
    (setCv s h.t.tid cv c).team? h.t.tid = some { tm with cv := vset tm.cv cv.toNat c } :=
  State.updTeam_team?_same ht (fun t => { t with cv := vset t.cv cv.toNat c }) fun _ => rfl

/-- A packet that writes a convergence register and goes on. -/
theorem setCv_advance_spec (hgid : h.c.pk.gid = h.g.gid) (hg : s.group? h.g.gid = some h.g)
    (ht : s.team? h.t.tid = some h.t) (cv : BitVec 4) (c : Conv) (n : Nat) :
    ∃ g, ((setCv s h.t.tid cv c).advance h.c n).mem = s.mem ∧
      ((setCv s h.t.tid cv c).advance h.c n).ops.length = s.ops.length ∧
      ((setCv s h.t.tid cv c).advance h.c n).groups.length = s.groups.length ∧
      ((setCv s h.t.tid cv c).advance h.c n).group? h.g.gid = some g ∧ SameRegs h.g g ∧ StandsOn h n g ∧
      ((setCv s h.t.tid cv c).advance h.c n).team? h.t.tid = some { h.t with cv := vset h.t.cv cv.toNat c } := by
  have hadv := (setCv s h.t.tid cv c).advance_moves h.c n
  obtain ⟨g, hgroup, hmoves⟩ := State.advance_group (s := setCv s h.t.tid cv c) hgid hg n
  have helse := hadv.sameElse hgid rfl
  exact ⟨g, helse.mem, hadv.ops.length, (State.advance_sameSeats _ h.c n).length, hgroup, hmoves.sameRegs,
    standsOn_of_moves hmoves fun _ _ => ⟨rfl, rfl⟩, (State.team?_congr helse.teams _).trans (setCv_team? ht cv c)⟩

/-- A signature that does not complete its register's count captures its operation, if it has one. -/
theorem sign_captures {cv : BitVec 4} {op : Option MxReq}
    (hopen : (vget h.t.cv cv.toNat {}).c + (lanesOf h.act).length < (vget h.t.cv cv.toNat {}).n) :
    sign i cv op s h = (setCv s h.t.tid cv
      ((vget h.t.cv cv.toNat {}).signed (lanesOf h.act).length op)).advance h.c i.words := by
  have hsome : ¬((vget h.t.cv cv.toNat {}).n = 0 ∨
      (vget h.t.cv cv.toNat {}).n < (vget h.t.cv cv.toNat {}).c + (lanesOf h.act).length) := by omega
  rw [sign.eq_def]
  simp only [if_neg hsome, if_pos hopen]
  cases op <;> rfl

/-- A signature that completes its register's count issues the operation captured last and clears the register. -/
theorem sign_issues {cv : BitVec 4} {op : Option MxReq} {q : MxReq} {s2 : State}
    (hn : (vget h.t.cv cv.toNat {}).n ≠ 0) (hlost : h.t.lost = false)
    (hfull : (vget h.t.cv cv.toNat {}).c + (lanesOf h.act).length = (vget h.t.cv cv.toNat {}).n)
    (hop : op.or (vget h.t.cv cv.toNat {}).captured = some q)
    (hd : mxIssue i s (s.advance h.c i.words) h q = .done s2) : sign i cv op s h = setCv s2 h.t.tid cv {} := by
  have hsome : ¬((vget h.t.cv cv.toNat {}).n = 0 ∨
      (vget h.t.cv cv.toNat {}).n < (vget h.t.cv cv.toNat {}).c + (lanesOf h.act).length) := by omega
  have hfull' : ¬(vget h.t.cv cv.toNat {}).c + (lanesOf h.act).length < (vget h.t.cv cv.toNat {}).n := by omega
  rw [sign.eq_def]
  cases op with
  | some p =>
    obtain rfl : p = q := Option.some.inj hop
    simp only [if_neg hsome, if_neg hfull', hlost, Bool.false_eq_true, if_false, hd]
  | none =>
    have hcap : (vget h.t.cv cv.toNat {}).captured = some q := hop
    simp only [if_neg hsome, if_neg hfull', hcap, hlost, Bool.false_eq_true, if_false, hd]

end

theorem cvset_spec (cv : BitVec 4) (n : Src) (s s1 : State) (h : Here) (ins : List LaneIn) (x : LaneIn)
    (hi : Issues (.cvset cv n) s h) (hr : Reads (.cvset cv n) s h ins s1) (hx : ins.head? = some x)
    (hlow : 1 ≤ (x.w 0).toNat) (hhigh : (x.w 0).toNat ≤ 1024)
    (hopen : (vget h.t.cv cv.toNat {}).c = 0 ∨ (vget h.t.cv cv.toNat {}).n ≤ (vget h.t.cv cv.toNat {}).c) :
    ∃ t g tm, exec (.cvset cv n) s = .next t ∧ t.mem = s.mem ∧ t.groups.length = s.groups.length ∧
      t.group? h.g.gid = some g ∧ SameRegs h.g g ∧ StandsOn h (Instr.cvset cv n).words g ∧
      t.team? h.t.tid = some tm ∧ vget tm.cv cv.toNat {} = { n := (x.w 0).toNat, c := 0, captured := none } ∧
      ∀ k, k < 16 → k ≠ cv.toNat → vget tm.cv k {} = vget h.t.cv k {} := by
  have hexec : exec (.cvset cv n) s = .next ((setCv s1 h.t.tid cv { n := (x.w 0).toNat }).advance h.c
      (Instr.cvset cv n).words) := by
    show execCvset cv n s = _
    rw [execCvset, issue_next hi, withOperands_reads hr, hx]
    exact congrArg Host.Outcome.next (if_neg (by simp only [Option.map_some, Option.getD_some]; omega))
  obtain ⟨g, hmem, -, hlen, hg, hregs, hstands, ht⟩ := setCv_advance_spec (s := s1) hi.gid (hr.group hi) (hr.team hi)
    cv { n := (x.w 0).toNat } (Instr.cvset cv n).words
  exact ⟨_, g, _, hexec, hmem.trans hr.sameButCaches.mem, hlen.trans (by rw [hr.sameButCaches.groups]), hg, hregs,
    hstands, ht, vget_vset_same _ _ _ _ cv.isLt, fun k _ hk => vget_vset_other _ _ _ _ _ (Ne.symm hk)⟩

theorem sign_spec (cv : BitVec 4) (s : State) (h : Here) (hi : Issues (.sign cv) s h)
    (hn : (vget h.t.cv cv.toNat {}).n ≠ 0) (hlost : h.t.lost = false) :
    ((vget h.t.cv cv.toNat {}).c + (lanesOf h.act).length < (vget h.t.cv cv.toNat {}).n →
      ∃ t g tm, exec (.sign cv) s = .next t ∧ t.mem = s.mem ∧ t.ops.length = s.ops.length ∧
        t.group? h.g.gid = some g ∧ SameRegs h.g g ∧ StandsOn h 1 g ∧ t.team? h.t.tid = some tm ∧
        vget tm.cv cv.toNat {} = (vget h.t.cv cv.toNat {}).signed (lanesOf h.act).length none) ∧
    ∀ q s2, (vget h.t.cv cv.toNat {}).c + (lanesOf h.act).length = (vget h.t.cv cv.toNat {}).n →
      (vget h.t.cv cv.toNat {}).captured = some q → mxIssue (.sign cv) s (s.advance h.c 1) h q = .done s2 →
      ∃ t tm o, exec (.sign cv) s = .next t ∧ t.mem = s.mem ∧ t.ops.getLast? = some o ∧
        o.kind = .matrix (mxAtIssue h.t q) ∧ o.gid = q.gid ∧ o.flags = q.flags ∧ t.team? h.t.tid = some tm ∧
        vget tm.cv cv.toNat {} = { n := 0, c := 0, captured := none } := by
  have hteam : s.team? h.t.tid = some h.t := hi.tid ▸ hi.team
  have hexec : exec (.sign cv) s = .next (sign (.sign cv) cv none s h) := by
    show execSign cv s = _
    exact issue_next hi _
  refine ⟨fun hopen => ?_, fun q s2 hfull hcap hd => ?_⟩
  · rw [sign_captures hopen] at hexec
    obtain ⟨g, hmem, hops, -, hg, hregs, hstands, ht⟩ := setCv_advance_spec hi.gid hi.group hteam cv
      ((vget h.t.cv cv.toNat {}).signed (lanesOf h.act).length none) 1
    exact ⟨_, g, _, hexec, hmem, hops, hg, hregs, hstands, ht, vget_vset_same _ _ _ _ cv.isLt⟩
  · rw [sign_issues (op := none) hn hlost hfull hcap hd] at hexec
    have helse := (s.advance_moves h.c 1).sameElse hi.gid rfl
    obtain ⟨hmem, ⟨o, hlast, hkind, hgid, -, hflags⟩, -, ht⟩ := mxIssue_spec hd
    obtain ⟨tm, htm⟩ := ht h.t ((State.team?_congr helse.teams _).trans hteam)
    exact ⟨_, _, o, hexec, hmem.trans helse.mem, hlast, hkind, hgid, hflags, setCv_team? htm cv {},
      vget_vset_same _ _ _ _ cv.isLt⟩

/-! ### Matrix instructions (R292, R299) -/

theorem exec_matrix {i : Instr} {cv : SignCv} (hm : matrixSign i = some cv) (s : State) :
    exec i s = matrixOp i cv s := by
  unfold matrixSign at hm
  split at hm
  case h_7 => cases hm
  all_goals
    injection hm with hm
    subst hm
    rfl

section
variable {i : Instr} {s s1 : State} {h : Here} {ins : List LaneIn} {x : LaneIn}

/-- The request of the packet in hand with a fibre's operands. -/
abbrev Here.request (h : Here) (i : Instr) (x : LaneIn) : MxReq :=
  { instr := i, gid := h.g.gid, flags := setFlags h.hdr, ops := x.a }

theorem exec_matrix_unsigned (hm : matrixSign i = some none) (hi : Issues i s h) (hlost : h.t.lost = false)
    (hr : Reads i s h ins s1) (hx : ins.head? = some x) {s2 : State}
    (hd : mxIssue i s1 (s1.advance h.c i.words) h (h.request i x) = .done s2) : exec i s = .next s2 := by
  have hq : mxReqOf i none h ins = h.request i x := by
    rw [mxReqOf]
    simp only [hx]
    rfl
  rw [exec_matrix hm, matrixOp, issue_next hi, hlost]
  simp only [Bool.false_eq_true, if_false]
  rw [withOperands_reads hr, hq]
  simp only [hd]

theorem exec_matrix_signed {c : BitVec 4} (hm : matrixSign i = some (some c)) (hi : Issues i s h)
    (hlost : h.t.lost = false) (hr : Reads i s h ins s1) (hx : ins.getLast? = some x) :
    exec i s = .next (sign i c (some (h.request i x)) s1 h) := by
  have hq : mxReqOf i (some c) h ins = h.request i x := by
    rw [mxReqOf]
    simp only [hx]
    rfl
  rw [exec_matrix hm, matrixOp, issue_next hi, hlost]
  simp only [Bool.false_eq_true, if_false]
  rw [withOperands_reads hr, hq]

/-- What a matrix instruction's issue leaves: one operation more, with its flags; the packet has gone on. -/
theorem matrix_issued (hi : Issues i s h) (hr : Reads i s h ins s1) {s2 : State}
    (hd : mxIssue i s1 (s1.advance h.c i.words) h (h.request i x) = .done s2) :
    ∃ g o, s2.mem = s.mem ∧ s2.ops.getLast? = some o ∧ o.kind = .matrix (mxAtIssue h.t (h.request i x)) ∧
      o.gid = h.g.gid ∧ o.tid = h.t.tid ∧ o.flags = setFlags h.hdr ∧ s2.group? h.g.gid = some g ∧ SameRegs h.g g ∧
      StandsOn h i.words g ∧ FlagsRise h.g g (setFlags h.hdr) ∧ ∃ tm, s2.team? h.t.tid = some tm := by
  have helse := (s1.advance_moves h.c i.words).sameElse hi.gid rfl
  obtain ⟨k, hk, hmoves⟩ := State.advance_group hi.gid (hr.group hi) i.words
  obtain ⟨hmem, ⟨o, hlast, hkind, hgid, htid, hflags⟩, hgroup, hteam⟩ := mxIssue_spec hd
  have hrise := k.incFlags_flagsRise (setFlags h.hdr) (setFlags_nodup h.hdr) fun _ => lt_of_mem_setFlags
  obtain ⟨fs, hfs⟩ := k.incFlags_only (setFlags h.hdr)
  have hg := hgroup k hk
  refine ⟨_, o, hmem.trans (helse.mem.trans hr.sameButCaches.mem), hlast, hkind, hgid, htid, hflags, hg, ?_, ?_,
    fun n hn => ?_, hteam h.t ((State.team?_congr helse.teams _).trans (hr.team hi))⟩
  · show SameRegs h.g ((setFlags h.hdr).foldl Group.incFlag k)
    rw [hfs]
    exact ⟨hmoves.scal, hmoves.fpctl, fun _ => hmoves.regs, fun _ => hmoves.preds⟩
  · show StandsOn h i.words ((setFlags h.hdr).foldl Group.incFlag k)
    rw [hfs]
    exact standsOn_of_moves (k := k) hmoves fun _ _ => ⟨rfl, rfl⟩
  · exact (hrise n hn).trans (by rw [hmoves.flag n])

end

theorem matrix_spec (i : Instr) (cv : SignCv) (s s1 : State) (h : Here) (ins : List LaneIn) (x : LaneIn)
    (hm : matrixSign i = some cv) (hi : Issues i s h) (hlost : h.t.lost = false) (hr : Reads i s h ins s1) :
    let q : MxReq := { instr := i, gid := h.g.gid, flags := setFlags h.hdr, ops := x.a }
    let issued := fun (t s2 : State) (g : Group) (o : Op) => t.mem = s.mem ∧ t.ops = s2.ops ∧ t.cores = s2.cores ∧
      t.ops.getLast? = some o ∧ o.kind = .matrix (mxAtIssue h.t q) ∧ o.gid = h.g.gid ∧ o.tid = h.t.tid ∧
      o.flags = setFlags h.hdr ∧ t.group? h.g.gid = some g ∧ SameRegs h.g g ∧ StandsOn h i.words g ∧
      FlagsRise h.g g (setFlags h.hdr)
    (cv = none → ins.head? = some x → ∀ s2, mxIssue i s1 (s1.advance h.c i.words) h q = .done s2 →
      ∃ t g o, exec i s = .next t ∧ issued t s2 g o) ∧
    ∀ c, cv = some c → ins.getLast? = some x →
      let r := vget h.t.cv c.toNat {}
      let a := (lanesOf h.act).length
      r.n ≠ 0 →
      (r.c + a < r.n → ∃ t g tm, exec i s = .next t ∧ t.mem = s.mem ∧ t.ops.length = s.ops.length ∧
        t.group? h.g.gid = some g ∧ SameRegs h.g g ∧ StandsOn h i.words g ∧ t.team? h.t.tid = some tm ∧
        vget tm.cv c.toNat {} = { n := r.n, c := r.c + a, captured := some q }) ∧
      ∀ s2, r.c + a = r.n → mxIssue i s1 (s1.advance h.c i.words) h q = .done s2 →
        ∃ t g o tm, exec i s = .next t ∧ issued t s2 g o ∧ t.team? h.t.tid = some tm ∧
          vget tm.cv c.toNat {} = { n := 0, c := 0, captured := none } := by
  intro q issued
  refine ⟨?_, ?_⟩
  · rintro rfl hx s2 hd
    obtain ⟨g, o, hmem, hlast, hkind, hgid, htid, hflags, hg, hregs, hstands, hrise, -⟩ := matrix_issued hi hr hd
    exact ⟨s2, g, o, exec_matrix_unsigned hm hi hlost hr hx hd, hmem, rfl, rfl, hlast, hkind, hgid, htid, hflags, hg,
      hregs, hstands, hrise⟩
  · rintro c rfl hx r a hn
    have hexec := exec_matrix_signed hm hi hlost hr hx
    refine ⟨fun hopen => ?_, fun s2 hfull hd => ?_⟩
    · rw [sign_captures hopen] at hexec
      obtain ⟨g, hmem, hops, -, hg, hregs, hstands, ht⟩ := setCv_advance_spec (s := s1) hi.gid (hr.group hi)
        (hr.team hi) c (r.signed a (some q)) i.words
      exact ⟨_, g, _, hexec, hmem.trans hr.sameButCaches.mem, hops.trans (by rw [hr.sameButCaches.ops]), hg, hregs,
        hstands, ht, vget_vset_same _ _ _ _ c.isLt⟩
    · rw [sign_issues (q := q) hn hlost hfull rfl hd] at hexec
      obtain ⟨g, o, hmem, hlast, hkind, hgid, htid, hflags, hg, hregs, hstands, hrise, tm, htm⟩ :=
        matrix_issued hi hr hd
      exact ⟨_, g, o, _, hexec, ⟨hmem, rfl, rfl, hlast, hkind, hgid, htid, hflags, hg, hregs, hstands, hrise⟩,
        setCv_team? htm c {}, vget_vset_same _ _ _ _ c.isLt⟩

/-- Settles O35: a signature either writes its register or issues what was captured; each is read off the equations of
`sign` and `mxIssue`. -/
theorem matrixInstructionsIssueAndConverge : Obligations.MatrixInstructionsIssueAndConverge :=
  ⟨⟨cvset_spec, sign_spec⟩, matrix_spec⟩

end Sys2Proof.Machine
end

section
/-!
SUPPORT. The words that run lane by lane (R95, R132): what one completes with, and the opcode that it is encoded with.
-/

namespace Sys2Proof.Machine

open Sys2Proof

variable {i : Instr}

/-- A class I or class F word completes with what its meaning computes of the operands that were read. -/
theorem yields_of_reads {f k : Here → List LaneIn → List LaneOut} (hex : ∀ s, exec i s = vecExec i f s)
    (hfk : ∀ s h ins s1, Reads i s h ins s1 → f h ins = k h ins) : Yields i k := by
  intro s h ins s1 hi hr
  rw [hex, vecExec_next hi hr, hfk s h ins s1 hr]

/-- A result of all lanes together. -/
theorem yields_lanes {f k : List LaneIn → List LaneOut} (hex : ∀ s, exec i s = vecExec i (fun _ => f) s)
    (hfk : ∀ l, f l = k l) : Yields i fun _ => k :=
  yields_of_reads hex fun _ _ ins _ _ => hfk ins

/-- A result computed lane by lane. -/
theorem yields_each {f k : LaneIn → LaneOut} (hex : ∀ s, exec i s = vecExec i (each f) s)
    (hfk : ∀ x, f x = k x) : Yields i (each k) :=
  yields_lanes hex fun _ => List.map_congr_left fun x _ => hfk x

/-- A 32-bit result of two 32-bit sources. -/
theorem yields_bin32 {f k : Word → Word → Word} (hex : ∀ s, exec i s = vecExec i (bin32 f) s)
    (hfk : ∀ a b, f a b = k a b) : Yields i (bin32 k) :=
  yields_each hex fun x => congrArg out32 (hfk (x.w 0) (x.w 1))

/-- A 32-bit result of one 32-bit source. -/
theorem yields_un32 {f k : Word → Word} (hex : ∀ s, exec i s = vecExec i (un32 f) s)
    (hfk : ∀ a, f a = k a) : Yields i (un32 k) :=
  yields_each hex fun x => congrArg out32 (hfk (x.w 0))

/-- A 64-bit result. -/
theorem yields_out64 {f k : LaneIn → Dword} (hex : ∀ s, exec i s = vecExec i (each fun x => out64 (f x)) s)
    (hfk : ∀ x, f x = k x) : Yields i (each fun x => out64 (k x)) :=
  yields_each hex fun x => congrArg out64 (hfk x)

/-- A 32-bit result. -/
theorem yields_out32 {f k : LaneIn → Word} (hex : ∀ s, exec i s = vecExec i (each fun x => out32 (f x)) s)
    (hfk : ∀ x, f x = k x) : Yields i (each fun x => out32 (k x)) :=
  yields_each hex fun x => congrArg out32 (hfk x)

/-- A predicate in every lane. -/
theorem yields_outP {f k : LaneIn → Bool} {pd : BitVec 6}
    (hex : ∀ s, exec i s = vecExec i (each fun x => outP pd (f x)) s) (hfk : ∀ x, f x = k x) :
    Yields i (each fun x => outP pd (k x)) :=
  yields_each hex fun x => congrArg (outP pd) (hfk x)

/-- The opcode field of a word stands at its top (R49). -/
theorem opcode_toNat (w : Word) : (fld w 26 6).toNat = w.toNat / 2 ^ 26 := by
  rw [fld, BitVec.extractLsb'_toNat, Nat.shiftRight_eq_div_pow]
  exact Nat.mod_eq_of_lt (Nat.div_lt_of_lt_mul w.isLt)

/-- The opcode of a word of format A (R49, R53). -/
theorem opOf_of_wA {op : BitVec 6} {x : BitVec 8} {y z : BitVec 9} {ws : List Word}
    {n : Nat}
    (henc : encode i = wA op x y z :: ws) (hop : op.toNat = n) : opOf i = n := by
  rw [opOf, henc, List.headD_cons, ← opcode_toNat, opcode_wA, hop]

end Sys2Proof.Machine
end

section
/-!
Two-operand, one-operand and 64-bit arithmetic (R98 to R100), and the statements of O8, O9 and O10.
-/

namespace Sys2Proof.Machine

open Sys2Proof

/-! ### Results of two 32-bit sources (R98) -/

theorem sub_eq_ofInt {w : Nat} (a b : BitVec w) : a - b = BitVec.ofInt w ((a.toNat : Int) - (b.toNat : Int)) := by
  refine BitVec.eq_of_toInt_eq ?_
  rw [BitVec.toInt_sub, BitVec.toInt_ofInt, BitVec.toInt_eq_toNat_bmod, BitVec.toInt_eq_toNat_bmod, Int.sub_bmod_bmod,
    Int.bmod_sub_bmod]

theorem mul_eq_ofNat {w : Nat} (a b : BitVec w) : a * b = BitVec.ofNat w (a.toNat * b.toNat) := by
  rw [BitVec.ofNat_mul, BitVec.ofNat_toNat, BitVec.ofNat_toNat, BitVec.setWidth_eq, BitVec.setWidth_eq]

/-- The high half of an exact product. -/
theorem ofInt_high (z : Int) : BitVec.ofInt 32 (z / 2 ^ 32) = (BitVec.ofInt 64 z).extractLsb' 32 32 := by
  refine BitVec.eq_of_toNat_eq ?_
  rw [BitVec.extractLsb'_toNat, BitVec.toNat_ofInt, BitVec.toNat_ofInt, Nat.shiftRight_eq_div_pow]
  omega

theorem ofNat_high (n : Nat) : BitVec.ofNat 32 (n / 2 ^ 32) = (BitVec.ofNat 64 n).extractLsb' 32 32 := by
  refine BitVec.eq_of_toNat_eq ?_
  rw [BitVec.extractLsb'_toNat, BitVec.toNat_ofNat, BitVec.toNat_ofNat, Nat.shiftRight_eq_div_pow]
  omega

/-- Where equal keys choose between equal values, a strict comparison chooses as the other does. -/
theorem ite_lt_eq_ite_le {α β : Type} [LinearOrder α] {p q : α} {x y : β} (h : p = q → x = y) :
    (if p < q then x else y) = if p ≤ q then x else y := by
  rcases lt_trichotomy p q with hpq | hpq | hpq
  · rw [if_pos hpq, if_pos hpq.le]
  · rw [if_neg hpq.not_lt, if_pos hpq.le, h hpq]
  · rw [if_neg hpq.not_gt, if_neg hpq.not_ge]

theorem ite_slt {α : Type} (a b : Word) (x y : α) :
    (if a.slt b then x else y) = if a.toInt < b.toInt then x else y := by
  simp only [BitVec.slt, decide_eq_true_eq]

theorem ite_ult {α : Type} (a b : Word) (x y : α) :
    (if a.ult b then x else y) = if a.toNat < b.toNat then x else y := by
  simp only [BitVec.ult, decide_eq_true_eq]

theorem shlN_eq {w : Nat} (a : BitVec w) (n : Nat) :
    shlN a n = if n < w then BitVec.ofNat w (a.toNat * 2 ^ n) else 0 := by
  have hshift : a <<< n = BitVec.ofNat w (a.toNat * 2 ^ n) :=
    BitVec.eq_of_toNat_eq (by rw [BitVec.toNat_shiftLeft, BitVec.toNat_ofNat, Nat.shiftLeft_eq])
  rw [shlN, hshift]

theorem shrN_eq {w : Nat} (a : BitVec w) (n : Nat) :
    shrN a n = if n < w then BitVec.ofNat w (a.toNat / 2 ^ n) else 0 := by
  rw [← Nat.shiftRight_eq_div_pow, ← BitVec.toNat_ushiftRight, BitVec.ofNat_toNat, BitVec.setWidth_eq, shrN]

theorem sshiftRight_eq_ofInt {w : Nat} (a : BitVec w) (n : Nat) :
    a.sshiftRight n = BitVec.ofInt w (a.toInt / 2 ^ n) := by
  rw [BitVec.sshiftRight, Int.shiftRight_eq_div_pow]
  norm_cast

/-- Shifted by its whole width, a word is its sign. -/
theorem sshiftRight_width (a : Word) : a.sshiftRight 32 = if a.getLsbD 31 then 0xFFFFFFFF else 0 := by
  refine BitVec.eq_of_getLsbD_eq fun k hk => ?_
  have hsign : (a.sshiftRight 32).getLsbD k = a.getLsbD 31 := by
    rw [BitVec.getLsbD_sshiftRight, BitVec.msb_eq_getLsbD_last]
    simp [hk]
  rw [hsign]
  cases a.getLsbD 31
  · exact BitVec.getLsbD_zero.symm
  · exact (BitVec.getLsbD_allOnes.trans (decide_eq_true hk)).symm

theorem sarN_eq (a : Word) (n : Nat) : sarN a n =
    if n < 32 then BitVec.ofInt 32 (a.toInt / 2 ^ n) else if a.getLsbD 31 then 0xFFFFFFFF else 0 := by
  rw [sarN]
  by_cases h : n < 32
  · rw [if_pos h, min_eq_left (by omega), sshiftRight_eq_ofInt]
  · rw [if_neg h, min_eq_right (by omega), sshiftRight_width]

theorem rotateLeft_eq (a : Word) (n : Nat) :
    a.rotateLeft (n % 32) = (a <<< (n % 32)) ||| (a >>> (32 - n % 32)) := by
  rw [BitVec.rotateLeft, BitVec.rotateLeftAux, Nat.mod_mod]

/-- The operands of the two-operand form: two words in, one out. -/
theorem shape_of_sh2 {i : Instr} {d : Dst} {a b : Src} (h : shape i = sh2 d a b) :
    (shape i).srcs.map (·.kind) = [.w32, .w32] ∧ (shape i).dst = some (d, .w32) := by
  rw [h]
  exact ⟨rfl, rfl⟩

/-- Settles O8: the results of R98 as arithmetic on numbers are the model's operations on words. -/
theorem twoOperandArithmetic : Obligations.TwoOperandArithmetic := fun _ _ _ =>
  ⟨⟨opOf_of_wA rfl rfl, yields_bin32 (fun _ => rfl) fun x y => BitVec.add_def x y⟩,
    ⟨opOf_of_wA rfl rfl, yields_bin32 (fun _ => rfl) sub_eq_ofInt⟩,
    ⟨opOf_of_wA rfl rfl, yields_bin32 (fun _ => rfl) mul_eq_ofNat⟩,
    ⟨opOf_of_wA rfl rfl, yields_bin32 (fun _ => rfl) fun _ _ => ofInt_high _⟩,
    ⟨opOf_of_wA rfl rfl, yields_bin32 (fun _ => rfl) fun _ _ => ofNat_high _⟩,
    ⟨opOf_of_wA rfl rfl, yields_bin32 (fun _ => rfl) fun x y =>
      (ite_slt x y x y).trans (ite_lt_eq_ite_le BitVec.eq_of_toInt_eq)⟩,
    ⟨opOf_of_wA rfl rfl, yields_bin32 (fun _ => rfl) fun x y =>
      (ite_slt x y y x).trans (ite_lt_eq_ite_le fun h => (BitVec.eq_of_toInt_eq h).symm)⟩,
    ⟨opOf_of_wA rfl rfl, yields_bin32 (fun _ => rfl) fun x y =>
      (ite_ult x y x y).trans (ite_lt_eq_ite_le BitVec.eq_of_toNat_eq)⟩,
    ⟨opOf_of_wA rfl rfl, yields_bin32 (fun _ => rfl) fun x y =>
      (ite_ult x y y x).trans (ite_lt_eq_ite_le fun h => (BitVec.eq_of_toNat_eq h).symm)⟩,
    ⟨opOf_of_wA rfl rfl, yields_bin32 (fun _ => rfl) fun _ _ => rfl⟩,
    ⟨opOf_of_wA rfl rfl, yields_bin32 (fun _ => rfl) fun _ _ => rfl⟩,
    ⟨opOf_of_wA rfl rfl, yields_bin32 (fun _ => rfl) fun _ _ => rfl⟩,
    ⟨opOf_of_wA rfl rfl, yields_bin32 (fun _ => rfl) fun _ _ => rfl⟩,
    ⟨opOf_of_wA rfl rfl, yields_bin32 (fun _ => rfl) fun x y => shlN_eq x y.toNat⟩,
    ⟨opOf_of_wA rfl rfl, yields_bin32 (fun _ => rfl) fun x y => shrN_eq x y.toNat⟩,
    ⟨opOf_of_wA rfl rfl, yields_bin32 (fun _ => rfl) fun x y => sarN_eq x y.toNat⟩,
    ⟨opOf_of_wA rfl rfl, yields_bin32 (fun _ => rfl) fun x y => rotateLeft_eq x y.toNat⟩,
    List.forall_iff_forall_mem.mp ⟨shape_of_sh2 rfl, shape_of_sh2 rfl, shape_of_sh2 rfl, shape_of_sh2 rfl,
      shape_of_sh2 rfl, shape_of_sh2 rfl, shape_of_sh2 rfl, shape_of_sh2 rfl, shape_of_sh2 rfl, shape_of_sh2 rfl,
      shape_of_sh2 rfl, shape_of_sh2 rfl, shape_of_sh2 rfl, shape_of_sh2 rfl, shape_of_sh2 rfl, shape_of_sh2 rfl,
      shape_of_sh2 rfl⟩⟩

/-! ### Results of one source (R99) -/

theorem iabs_eq (a : Word) : (if a.slt 0 then -a else a) = if 0 ≤ a.toInt then a else 0 - a := by
  have hzero : (0 : Word).toInt = 0 := rfl
  rw [ite_slt, hzero, show (0 : Word) - a = -a from BitVec.zero_sub a]
  by_cases h : a.toInt < 0
  · rw [if_pos h, if_neg (by omega)]
  · rw [if_neg h, if_pos (by omega)]

theorem popCount_eq (a : Word) :
    popCount a = BitVec.ofNat 32 ((List.range 32).countP fun k => a.getLsbD k) := by
  rw [popCount, List.countP_eq_length_filter]

/-- Below the leading zeros, a word has the bit that ends them. -/
theorem leadZeros_spec (a : Word) : (leadZeros a).toNat ≤ 32 ∧ a.toNat < 2 ^ (32 - (leadZeros a).toNat) ∧
    (a ≠ 0 → 2 ^ (31 - (leadZeros a).toNat) ≤ a.toNat) := by
  by_cases ha : a = 0
  · subst ha
    exact ⟨by decide, by decide, fun h => absurd rfl h⟩
  · have hne : a.toNat ≠ 0 := fun h => ha (BitVec.eq_of_toNat_eq h)
    have hlog : Nat.log2 a.toNat < 32 := (Nat.log2_lt hne).mpr a.isLt
    have hval : (leadZeros a).toNat = 31 - Nat.log2 a.toNat := by
      rw [leadZeros, if_neg ha, BitVec.toNat_ofNat, Nat.mod_eq_of_lt (by omega)]
    rw [hval, show 32 - (31 - Nat.log2 a.toNat) = Nat.log2 a.toNat + 1 by omega,
      show 31 - (31 - Nat.log2 a.toNat) = Nat.log2 a.toNat by omega]
    exact ⟨by omega, Nat.lt_log2_self, fun _ => Nat.log2_self_le hne⟩

/-- The bits of a sum of powers of two, the greatest first. -/
theorem testBit_sum_two_pow {l : List Nat} (hl : l.Pairwise (· > ·)) (k : Nat) :
    (l.map (2 ^ ·)).sum.testBit k = decide (k ∈ l) := by
  induction l generalizing k with
  | nil => simp
  | cons i l ih =>
    obtain ⟨hi, hl⟩ := List.pairwise_cons.mp hl
    have hlt : (l.map (2 ^ ·)).sum < 2 ^ i := Nat.lt_pow_two_of_testBit _ fun j hj => by
      rw [ih hl, decide_eq_false]
      exact fun hm => Nat.not_lt.mpr hj (hi j hm)
    have hor := Nat.two_pow_add_eq_or_of_lt hlt 1
    rw [Nat.mul_one] at hor
    rw [List.map_cons, List.sum_cons, hor, Nat.testBit_or, Nat.testBit_two_pow, ih hl, ← Bool.decide_or]
    exact decide_eq_decide.mpr ((or_congr_left eq_comm).trans List.mem_cons.symm)

theorem bitRev_getLsbD (a : Word) (k : Nat) (hk : k < 32) : (bitRev a).getLsbD (31 - k) = a.getLsbD k := by
  have hdesc : (((List.range 32).filter a.getLsbD).map (31 - ·)).Pairwise (· > ·) := by
    refine List.Pairwise.map _ (fun _ _ h => h) ((List.pairwise_lt_range.filter _).imp_of_mem fun hi hj h => ?_)
    have := List.mem_range.mp (List.mem_filter.mp hj).1
    omega
  have hmem : 31 - k ∈ ((List.range 32).filter a.getLsbD).map (31 - ·) ↔ a.getLsbD k = true := by
    simp only [List.mem_map, List.mem_filter, List.mem_range]
    constructor
    · rintro ⟨i, ⟨hi, hbit⟩, h⟩
      rwa [show k = i by omega]
    · exact fun h => ⟨k, ⟨hk, h⟩, rfl⟩
  have hsum : ((List.range 32).filter a.getLsbD).foldl (fun n i => n + 2 ^ (31 - i)) 0 =
      ((((List.range 32).filter a.getLsbD).map (31 - ·)).map (2 ^ ·)).sum := by
    rw [List.sum_eq_foldl, List.foldl_map, List.foldl_map]
  rw [bitRev, hsum, BitVec.getLsbD_ofNat, testBit_sum_two_pow hdesc, decide_eq_true (by omega), Bool.true_and,
    Bool.eq_iff_iff, decide_eq_true_iff, hmem]

/-- A word of one source whose SB is not zero is not read (R99). -/
theorem decA1_of_used {w : Word} (h : fld w 0 9 ≠ 0) (ws : List Word) (f : Dst → Src → Instr) :
    decA1 ws w f = none := by
  have hz : zeroFld w 0 9 = false := beq_eq_false_iff_ne.mpr h
  simp only [decA1, hz, Bool.false_eq_true, if_false]
  cases takeExt ws 1 [fld w 9 9] with
  | none => rfl
  | some e =>
    dsimp only [Option.bind_eq_bind, Option.bind_some]
    cases Dst.ofBits (fld w 18 8) with
    | none => rfl
    | some d => cases Src.ofBits (fld w 9 9) e.1 <;> rfl

theorem decode_of_used {w : Word} (ws : List Word) (h : fld w 0 9 ≠ 0)
    (hop : w.toNat / 2 ^ 26 ∈ [0x00, 0x0B, 0x0C, 0x15, 0x16, 0x17]) :
    decode .I (w :: ws) = .error .illegalEncoding := by
  rw [← opcode_toNat] at hop
  have hnone : decOf .I (w :: ws) w = none := by
    simp only [List.mem_cons, List.not_mem_nil, or_false] at hop
    rw [decOf, decI]
    rcases hop with hop | hop | hop | hop | hop | hop
    all_goals
      rw [hop]
      exact decA1_of_used h _ _
  have hlt : ∀ n ∈ [0x00, 0x0B, 0x0C, 0x15, 0x16, 0x17], n < opcodes .I := by decide
  rw [decode_cons, if_neg (Nat.not_le.mpr (hlt _ hop)), hnone]

/-- Settles O9: the model's leading zeros and reversed bits have the properties asked for. -/
theorem oneOperandArithmetic : Obligations.OneOperandArithmetic :=
  ⟨leadZeros, bitRev, leadZeros_spec, rfl, bitRev_getLsbD, fun _ ws => decode_of_used ws, fun _ _ =>
    ⟨⟨opOf_of_wA rfl rfl, yields_un32 (fun _ => rfl) fun _ => rfl⟩,
      ⟨opOf_of_wA rfl rfl, yields_un32 (fun _ => rfl) iabs_eq⟩,
      ⟨opOf_of_wA rfl rfl, yields_un32 (fun _ => rfl) fun x => (BitVec.zero_sub x).symm⟩,
      ⟨opOf_of_wA rfl rfl, yields_un32 (fun _ => rfl) popCount_eq⟩,
      ⟨opOf_of_wA rfl rfl, yields_un32 (fun _ => rfl) fun _ => rfl⟩,
      ⟨opOf_of_wA rfl rfl, yields_un32 (fun _ => rfl) fun _ => rfl⟩⟩⟩

/-! ### 64-bit results (R100) -/

theorem imulw_eq (a b : Word) : a.signExtend 64 * b.signExtend 64 = BitVec.ofInt 64 (a.toInt * b.toInt) :=
  (BitVec.ofInt_mul a.toInt b.toInt).symm

/-- A pair with a signed word added to it. -/
theorem add_signExtend (a : Dword) (b : Word) :
    a + b.signExtend 64 = BitVec.ofInt 64 ((a.toNat : Int) + b.toInt) := by
  rw [BitVec.ofInt_add, BitVec.ofInt_natCast, BitVec.ofNat_toNat, BitVec.setWidth_eq, BitVec.signExtend]

/-- Settles O10: the results of R100 as arithmetic on numbers are the model's operations on pairs. -/
theorem wideArithmetic : Obligations.WideArithmetic := fun _ _ _ =>
  ⟨⟨opOf_of_wA rfl rfl, yields_out64 (fun _ => rfl) fun x => BitVec.add_def (x.s 0) (x.s 1)⟩,
    ⟨opOf_of_wA rfl rfl, yields_out64 (fun _ => rfl) fun x => sub_eq_ofInt (x.s 0) (x.s 1)⟩,
    ⟨opOf_of_wA rfl rfl, yields_out64 (fun _ => rfl) fun x => shlN_eq (x.s 0) (x.w 1).toNat⟩,
    ⟨opOf_of_wA rfl rfl, yields_out64 (fun _ => rfl) fun x => shrN_eq (x.s 0) (x.w 1).toNat⟩,
    ⟨opOf_of_wA rfl rfl, yields_out64 (fun _ => rfl) fun x => imulw_eq (x.w 0) (x.w 1)⟩,
    ⟨opOf_of_wA rfl rfl, yields_out64 (fun _ => rfl) fun x => add_signExtend (x.s 0) (x.w 1)⟩,
    rfl, rfl, rfl, rfl, rfl, rfl, List.forall_iff_forall_mem.mp ⟨rfl, rfl, rfl, rfl, rfl, rfl⟩⟩

end Sys2Proof.Machine
end

section
/-!
Words that the manual writes out, and the statement of O1.
-/

namespace Sys2Proof

open Sys2Proof.Machine

/-- Settles O1: each word is read by the decoder. -/
theorem decodesWordsOfTheManual : Obligations.DecodesWordsOfTheManual :=
  ⟨rfl, rfl, rfl, rfl, rfl, rfl, rfl, rfl, rfl, rfl, rfl⟩

end Sys2Proof
end

section
/-!
Three-operand forms and conversions (R101 to R105), and the statement of O11.
-/

namespace Sys2Proof.Machine

open Sys2Proof

/-- The low bits of a word are those of its number. -/
theorem setWidth_eq_ofInt {v : Nat} (w : Nat) (a : BitVec v) : a.setWidth w = BitVec.ofInt w (a.toNat : Int) := by
  rw [BitVec.ofInt_natCast, BitVec.ofNat_toNat]

/-! ### Multiply and add, addresses (R101, R102) -/

theorem mul_add_eq_ofNat {w : Nat} (a b c : BitVec w) :
    a * b + c = BitVec.ofNat w (a.toNat * b.toNat + c.toNat) := by
  rw [BitVec.ofNat_add, ← mul_eq_ofNat, BitVec.ofNat_toNat, BitVec.setWidth_eq]

theorem ofInt_shiftLeft {w : Nat} (z : Int) (n : Nat) : BitVec.ofInt w z <<< n = BitVec.ofInt w (z * 2 ^ n) := by
  have hpow : BitVec.twoPow w n = BitVec.ofInt w (2 ^ n) := by
    refine BitVec.eq_of_toNat_eq ?_
    rw [BitVec.toNat_twoPow, BitVec.toNat_ofInt]
    norm_cast
  rw [BitVec.shiftLeft_eq_mul_twoPow, BitVec.ofInt_mul, hpow]

/-- An address, whatever the index counts as. -/
theorem leaVal_eq {n : Bool} {z : Int} {index : Word} (sh : BitVec 3) (base : Dword) (offset : Word)
    (hz : (if n then index.setWidth 64 else index.signExtend 64 : Dword) = BitVec.ofInt 64 z) :
    leaVal n sh base index offset =
      BitVec.ofInt 64 ((base.toNat : Int) + z * 2 ^ sh.toNat + offset.toInt) := by
  rw [leaVal, hz, ofInt_shiftLeft, BitVec.ofInt_add, BitVec.ofInt_add, BitVec.ofInt_natCast, BitVec.ofNat_toNat,
    BitVec.setWidth_eq, BitVec.signExtend]

/-! ### Bit fields (R103) -/

/-- A field widened by its sign. -/
theorem signExtend_eq_ofNat {w : Nat} (f : BitVec w) (hw : w ≤ 32) :
    f.signExtend 32 = if f.toNat.testBit (w - 1) then BitVec.ofNat 32 (f.toNat + 2 ^ 32 - 2 ^ w)
      else BitVec.ofNat 32 f.toNat := by
  have hmsb : f.msb = f.toNat.testBit (w - 1) := BitVec.msb_eq_getLsbD_last f
  have hpow : 2 ^ w ≤ 2 ^ 32 := Nat.pow_le_pow_right (by decide) hw
  refine BitVec.eq_of_toNat_eq ?_
  rw [BitVec.toNat_signExtend, hmsb, BitVec.toNat_setWidth]
  have hlt := f.isLt
  cases f.toNat.testBit (w - 1)
  · simp
  · simp only [if_true, BitVec.toNat_ofNat]
    omega

theorem bfxVal_eq (sx : Bool) (a : Word) (pos width : Nat) : bfxVal sx a pos width =
    if 32 ≤ pos ∨ width = 0 then 0
    else if sx then (a.extractLsb' pos (min width (32 - pos))).signExtend 32
    else (a.extractLsb' pos (min width (32 - pos))).setWidth 32 := by
  have hfield := toNat_extractLsb'_eq_nbits a pos (min width (32 - pos))
  rw [bfxVal, signExtend_eq_ofNat _ (by omega), ← BitVec.ofNat_toNat, hfield]
  cases sx
  · simp only [Bool.false_and, Bool.false_eq_true, if_false]
  · simp only [Bool.true_and, if_true]

/-- The bits of a word with a field inserted. -/
theorem bfiVal_getLsbD (width : Nat) (base value : Word) (pos k : Nat) (hk : k < 32) :
    (bfiVal width base value pos).getLsbD k =
      if pos ≤ k ∧ k < pos + width then value.getLsbD (k - pos) else base.getLsbD k := by
  rw [bfiVal]
  by_cases h : 32 ≤ pos ∨ width = 0
  · rw [if_pos h, if_neg (by omega)]
  rw [if_neg h]
  have hmask : (BitVec.ofNat 32 ((2 ^ min width (32 - pos) - 1) * 2 ^ pos) : Word).getLsbD k =
      decide (pos ≤ k ∧ k < pos + width) := by
    rw [BitVec.getLsbD_ofNat, Nat.testBit_mul_two_pow, Nat.testBit_two_pow_sub_one, decide_eq_true hk, Bool.true_and,
      ← Bool.decide_and]
    exact decide_eq_decide.mpr (by omega)
  simp only [BitVec.getLsbD_or, BitVec.getLsbD_and, BitVec.getLsbD_not, BitVec.getLsbD_shiftLeft, hk, hmask,
    decide_true, Bool.true_and]
  by_cases hin : pos ≤ k ∧ k < pos + width
  · simp [hin, Nat.not_lt.mpr hin.1]
  · simp [hin]

/-! ### Conversions of integers (R105) -/

/-- A number read as a type is the value of its low bits. -/
theorem intRead_eq (t : IntTy) (v : Int) : intRead t v =
    if intSgn t then (BitVec.ofInt (intW t) v).toInt else ((BitVec.ofInt (intW t) v).toNat : Int) := by
  cases t <;> simp [intRead, intSgn, intW, BitVec.toInt_ofInt, BitVec.toNat_ofInt, Int.bmod_def] <;> omega

/-- A number in the range of a type reads as itself. -/
theorem intRead_of_mem {t : IntTy} {v : Int} (hlo : intLo t ≤ v) (hhi : v ≤ intHi t) : intRead t v = v := by
  cases t <;> simp [intRead, intSgn, intW, intLo, intHi] at hlo hhi ⊢ <;> omega

/-- The number that a source holds fits 64 bits. -/
theorem intRead_bounds (t : IntTy) (v : Int) : -2 ^ 64 ≤ intRead t v ∧ intRead t v < 2 ^ 64 := by
  cases t <;> simp [intRead, intSgn, intW] <;> omega

/-- A right shift rounds towards minus infinity, however far it goes. -/
theorem shift_eq_ediv {v : Int} (hlo : -2 ^ 64 ≤ v) (hhi : v < 2 ^ 64) (n : Nat) :
    (if 64 ≤ n then (if v < 0 then -1 else 0) else Int.fdiv v (2 ^ n)) = v / 2 ^ n := by
  by_cases h : 64 ≤ n
  · have hpow : (2 : Int) ^ 64 ≤ 2 ^ n := pow_le_pow_right₀ (by decide) h
    rw [if_pos h]
    by_cases hv : v < 0
    · rw [if_pos hv, Int.ediv_eq_neg_one_of_neg_of_le hv (by omega)]
    · rw [if_neg hv, Int.ediv_eq_zero_of_lt (by omega) (by omega)]
  · rw [if_neg h, Int.fdiv_eq_ediv_of_nonneg _ (by positivity)]

/-- What a destination holds of a number read as its type. -/
theorem intRead_extend (t : IntTy) (v : Int) :
    (if intW t = 64 then BitVec.ofInt 64 (intRead t v) else (BitVec.ofInt 32 (intRead t v)).setWidth 64 : Dword) =
      let r : BitVec (intW t) := BitVec.ofInt (intW t) v
      if intW t = 64 then r.setWidth 64
      else (if intSgn t then r.signExtend 32 else r.setWidth 32 : Word).setWidth 64 := by
  rw [intRead_eq]
  generalize BitVec.ofInt (intW t) v = r
  cases t with
  | i8 | i16 | i32 => rfl
  | i64 => exact BitVec.ofInt_toInt.trans (BitVec.setWidth_eq r).symm
  | n64 => exact (setWidth_eq_ofInt 64 r).symm
  | n8 | n16 | n32 => exact congrArg (BitVec.setWidth 64) (setWidth_eq_ofInt 32 r).symm

theorem cvtiVal_eq (sat : Bool) (tt fr : IntTy) (a : Dword) (n : Nat) : cvtiVal sat tt fr a n =
    let v : Int := if intSgn fr then (a.setWidth (intW fr)).toInt else ((a.setWidth (intW fr)).toNat : Int)
    let v := v / 2 ^ n
    let r : BitVec (intW tt) := BitVec.ofInt (intW tt) (if sat then max (intLo tt) (min v (intHi tt)) else v)
    if intW tt = 64 then r.setWidth 64
    else (if intSgn tt then r.signExtend 32 else r.setWidth 32 : Word).setWidth 64 := by
  obtain ⟨hlo, hhi⟩ := intRead_bounds fr a.toNat
  have hsrc : intRead fr a.toNat =
      if intSgn fr then (a.setWidth (intW fr)).toInt else ((a.setWidth (intW fr)).toNat : Int) := by
    rw [intRead_eq, setWidth_eq_ofInt]
  have hle : intLo tt ≤ intHi tt := by cases tt <;> decide
  simp only [cvtiVal, shift_eq_ediv hlo hhi, ← hsrc]
  rw [← intRead_extend]
  cases sat
  · rfl
  · simp only [if_true, clampI, min_comm (intHi tt)]
    rw [intRead_of_mem (le_max_left _ _) (max_le hle (min_le_right _ _))]

/-- Settles O11: exact values come down to words, bit fields to their bits, and conversions to `intRead_extend`. -/
theorem threeOperandFormsAndConversions : Obligations.ThreeOperandFormsAndConversions := by
  refine ⟨⟨bfiVal, bfiVal_getLsbD, fun d a b c => ⟨?_, ?_, ?_, fun sh => ?_, fun sh => ?_, ?_, ?_, fun width => ?_,
    fun neg p => ?_⟩⟩, fun d a b sat tt fr => ?_⟩
  · exact yields_out32 (fun _ => rfl) fun x => mul_add_eq_ofNat (x.w 0) (x.w 1) (x.w 2)
  · exact yields_out32 (fun _ => rfl) fun x => congrArg (fun v => BitVec.ofInt 32 (max (-2 ^ 31) v)) (min_comm _ _)
  · exact yields_out32 (fun _ => rfl) fun _ => rfl
  · exact yields_out64 (fun _ => rfl) fun x => leaVal_eq sh (x.s 0) (x.w 2) rfl
  · exact yields_out64 (fun _ => rfl) fun x => leaVal_eq sh (x.s 0) (x.w 2) (setWidth_eq_ofInt 64 (x.w 1))
  · exact yields_out32 (fun _ => rfl) fun x => bfxVal_eq false (x.w 0) (x.w 1).toNat (x.w 2).toNat
  · exact yields_out32 (fun _ => rfl) fun x => bfxVal_eq true (x.w 0) (x.w 1).toNat (x.w 2).toNat
  · exact yields_out32 (fun _ => rfl) fun _ => rfl
  · exact yields_out32 (fun _ => rfl) fun _ => rfl
  · exact yields_out64 (fun _ => rfl) fun x => cvtiVal_eq sat tt fr (x.s 0) (x.w 1).toNat

end Sys2Proof.Machine
end

section
/-!
Compares and predicates (R106 to R108), and the statement of O12.
-/

namespace Sys2Proof.Machine

open Sys2Proof

/-- `PRD` reads its half of the predicates, p0 as true. -/
theorem prd_getLsbD (h : Bool) (x : LaneIn) (k : Nat) (hk : k < 32) :
    ((x.preds ||| 1).extractLsb' (if h then 32 else 0) 32).getLsbD k = x.p (k + if h then 32 else 0) := by
  have hone : ∀ n, (1 : BitVec 64).getLsbD n = (n == 0) := fun n => by
    rw [show (1 : BitVec 64) = 1#64 from rfl, BitVec.getLsbD_one]
    rfl
  rw [BitVec.getLsbD_extractLsb', decide_eq_true hk, Bool.true_and, BitVec.getLsbD_or, hone, Bool.or_comm,
    Nat.add_comm]

/-- Settles O12: the conditions are those of the model, on natural numbers as on the integers that they are. -/
theorem comparesAndPredicates : Obligations.ComparesAndPredicates :=
  ⟨fun _ _ _ =>
    ⟨yields_outP (fun _ => rfl) fun _ => rfl,
      yields_outP (fun _ => rfl) fun _ => rfl,
      yields_outP (fun _ => rfl) fun _ => rfl,
      yields_outP (fun _ => rfl) fun _ => rfl,
      yields_outP (fun _ => rfl) fun _ => decide_eq_decide.mpr Nat.cast_inj,
      yields_outP (fun _ => rfl) fun _ => decide_eq_decide.mpr Nat.cast_inj.not,
      yields_outP (fun _ => rfl) fun _ => decide_eq_decide.mpr Nat.cast_lt,
      yields_outP (fun _ => rfl) fun _ => decide_eq_decide.mpr Nat.cast_le,
      yields_outP (fun _ => rfl) fun _ => rfl,
      yields_outP (fun _ => rfl) fun _ => rfl,
      yields_outP (fun _ => rfl) fun _ => rfl,
      yields_outP (fun _ => rfl) fun _ => rfl,
      fun _ _ _ _ =>
        ⟨yields_outP (fun _ => rfl) fun _ => rfl,
          yields_outP (fun _ => rfl) fun _ => rfl,
          yields_outP (fun _ => rfl) fun _ => rfl,
          yields_outP (fun _ => rfl) fun _ => rfl⟩⟩,
    fun h x => (x.preds ||| 1).extractLsb' (if h then 32 else 0) 32, prd_getLsbD,
    fun _ _ => yields_out32 (fun _ => rfl) fun _ => rfl,
    fun _ _ => yields_each (fun _ => rfl) fun _ => congrArg (fun l => ({ pset := l } : LaneOut))
      (List.map_congr_left fun _ _ => Prod.ext (Nat.add_comm _ _) rfl)⟩

end Sys2Proof.Machine
end

section
/-!
Lane instructions and random numbers (R109 to R114), and the statement of O13.
-/

namespace Sys2Proof.Machine

open Sys2Proof

/-! ### Shuffles (R110) -/

/-- The source lane of a shuffle, its segment given by a quotient. -/
theorem shflFrom_eq (m : ShflMode) (n i k : Nat) : shflFrom m n i k =
    let base := i / n * n
    match m with
    | .idx => some (base + k % n)
    | .up => if k ≤ i - base then some (i - k) else none
    | .down => if k ≤ base + n - 1 - i then some (i + k) else none
    | .xor => some (i ^^^ (k % n)) := by
  have hbase : i - i % n = i / n * n := by
    have := Nat.div_add_mod' i n
    omega
  cases m with
  | idx | xor => simp only [shflFrom, hbase]
  | up | down => simp only [shflFrom, hbase, ← Nat.not_le, ite_not]

/-- What a lane takes from its source lane, or the fallback where there is none (R110). -/
def shflTaken (l : List LaneIn) (x : LaneIn) (j : Option Nat) : Word :=
  match j.bind fun j => l.find? fun y => y.lane = j with
  | some y => y.w 0
  | none => x.w 2

theorem shflOuts_eq (m : ShflMode) (w : SegW) (l : List LaneIn) : shflOuts m w l =
    l.map fun x => out32 (shflTaken l x (shflFrom m (segLanes w) x.lane (x.w 1).toNat)) := by
  refine List.map_congr_left fun x _ => ?_
  cases shflFrom m (segLanes w) x.lane (x.w 1).toNat with
  | none => rfl
  | some j =>
    simp only [shflTaken, Option.bind_some]
    cases l.find? fun y => y.lane = j <;> rfl

/-! ### Votes (R111 to R113) -/

theorem ballotVal_getLsbD (l : List LaneIn) (k : Nat) (hk : k < 32) :
    (ballotVal l).getLsbD k = l.any fun x => x.lane == k && x.w 0 != 0 := by
  rw [ballotVal, getLsbD_maskOf _ hk, Bool.eq_iff_iff, decide_eq_true_iff, List.any_eq_true]
  simp only [List.mem_map, List.mem_filter, Bool.and_eq_true, beq_iff_eq]
  exact exists_congr fun x => by rw [and_assoc, and_comm (a := x.lane = k)]

theorem vote_none (l : List LaneIn) : voteVal 2 l = !l.any fun x => x.w 0 != 0 := by
  show (l.all fun x => x.w 0 == 0) = _
  rw [List.not_any_eq_all_not]
  simp only [bne, Bool.not_not]

/-- All values are the same when they are the first one's. -/
theorem vote_eq (l : List LaneIn) : voteVal 3 l = l.all fun x => l.all fun y => x.w 0 == y.w 0 := by
  cases l with
  | nil => rfl
  | cons z r =>
    show ((z :: r).all fun y => y.w 0 == z.w 0) = _
    rw [Bool.eq_iff_iff]
    simp only [List.all_eq_true, beq_iff_eq]
    exact ⟨fun h x hx y hy => (h x hx).trans (h y hy).symm, fun h y hy => h y hy z List.mem_cons_self⟩

/-- Lanes in ascending order. -/
abbrev Ascending (l : List LaneIn) : Prop := l.Pairwise fun x y => x.lane < y.lane

theorem Reads.ascending {i : Instr} {s s1 : State} {h : Here} {ins : List LaneIn} (hr : Reads i s h ins s1) :
    Ascending ins := by
  have hact : (lanesOf h.act).Pairwise (· < ·) := List.pairwise_lt_range.filter _
  rwa [← hr.lanes, List.pairwise_map] at hact

/-- The first of the lanes is the lowest. -/
theorem elected_lo {l : List LaneIn} (hl : Ascending l) {x : LaneIn} (hx : x ∈ l) :
    (x.lane == elected false l) = l.all fun y => x.lane ≤ y.lane := by
  cases l with
  | nil => cases hx
  | cons z r =>
    obtain ⟨hz, -⟩ := List.pairwise_cons.mp hl
    have hlow : ∀ y ∈ z :: r, z.lane ≤ y.lane := List.forall_mem_cons.mpr ⟨le_rfl, fun y hy => (hz y hy).le⟩
    rw [Bool.eq_iff_iff, List.all_eq_true, beq_iff_eq]
    simp only [decide_eq_true_iff]
    exact ⟨fun h y hy => h.trans_le (hlow y hy), fun h => le_antisymm (h z List.mem_cons_self) (hlow x hx)⟩

/-- The last of them is the highest. -/
theorem elected_hi {l : List LaneIn} (hl : Ascending l) {x : LaneIn} (hx : x ∈ l) :
    (x.lane == elected true l) = l.all fun y => y.lane ≤ x.lane := by
  induction l using List.reverseRecOn with
  | nil => cases hx
  | append_singleton r z =>
    have hhigh : ∀ y ∈ r ++ [z], y.lane ≤ z.lane := by
      obtain ⟨-, -, hrz⟩ := List.pairwise_append.mp hl
      intro y hy
      rcases List.mem_append.mp hy with hy | hy
      · exact (hrz y hy z (List.mem_singleton_self z)).le
      · rw [List.mem_singleton.mp hy]
    have hz : elected true (r ++ [z]) = z.lane := by simp [elected]
    rw [hz, Bool.eq_iff_iff, List.all_eq_true, beq_iff_eq]
    simp only [decide_eq_true_iff]
    exact ⟨fun h y hy => (hhigh y hy).trans h.ge, fun h => le_antisymm (hhigh x hx) (h z (by simp))⟩

/-! ### Random numbers (R114) -/

theorem extractLsb'_low_eq_setWidth (z : Dword) : z.extractLsb' 0 32 = z.setWidth 32 := by
  rw [BitVec.extractLsb', Nat.shiftRight_zero, BitVec.ofNat_toNat]

/-- The top bits of a pair. -/
theorem dbits_high (z : Dword) : dbits z 40 24 = z.toNat / 2 ^ 40 :=
  Nat.mod_eq_of_lt (Nat.div_lt_of_lt_mul z.isLt)

/-- A normal pattern without a sign, by its exponent field and its fraction (R116). -/
theorem unpack_normal {e r : Nat} (he : 0 < e) (he' : e < 255) (hr : r < 2 ^ 23) :
    fmt32.unpack (e * 2 ^ 23 + r) = .fin false (r + 2 ^ 23) ((e : Int) - 150) := by
  have hsign : (e * 2 ^ 23 + r).testBit (8 + 23) = false := Nat.testBit_lt_two_pow (by omega)
  have hexp : nbits (e * 2 ^ 23 + r) 23 8 = e := by simp only [nbits]; omega
  have hfrac : nbits (e * 2 ^ 23 + r) 0 23 = r := by simp only [nbits]; omega
  have hinf : e ≠ 2 ^ 8 - 1 := by omega
  simp only [Fmt.unpack, hsign, hexp, hfrac, hinf, he.ne', if_false, FVal.fin.injEq, true_and]
  norm_num
  omega

/-- A fraction of 24 bits is zero, or a normal f32 that holds it exactly. -/
theorem f32Frac24_exact (n : Nat) (hn : n < 2 ^ 24) :
    ∃ m e, fmt32.unpack (f32Frac24 n) = .fin false m e ∧ (m : ℚ) * 2 ^ e = n / 2 ^ 24 := by
  by_cases h0 : n = 0
  · subst h0
    exact ⟨0, -149, rfl, by norm_num⟩
  obtain ⟨k, hk⟩ : ∃ k, Nat.log2 n + k = 23 :=
    ⟨23 - Nat.log2 n, Nat.add_sub_cancel' (Nat.le_of_lt_succ ((Nat.log2_lt h0).mpr hn))⟩
  have hpow : 2 ^ Nat.log2 n * 2 ^ k = 2 ^ 23 := by rw [← pow_add, hk]
  have hsum : (n - 2 ^ Nat.log2 n) * 2 ^ k + 2 ^ 23 = n * 2 ^ k := by
    rw [← hpow, ← Nat.add_mul, Nat.sub_add_cancel (Nat.log2_self_le h0)]
  have hlt : (n - 2 ^ Nat.log2 n) * 2 ^ k < 2 ^ 23 := by
    have hhigh : n < 2 * 2 ^ Nat.log2 n := by rw [← pow_succ']; exact Nat.lt_log2_self
    rw [← hpow]
    exact Nat.mul_lt_mul_of_pos_right (by omega) (by positivity)
  have hval : f32Frac24 n = (103 + Nat.log2 n) * 2 ^ 23 + (n - 2 ^ Nat.log2 n) * 2 ^ k := by
    rw [f32Frac24, if_neg h0, show 23 - Nat.log2 n = k by omega]
  refine ⟨n * 2 ^ k, -24 - k, ?_, ?_⟩
  · rw [hval, unpack_normal (by omega) (by omega) hlt, hsum]
    congr 1
    omega
  · push_cast
    rw [zpow_sub₀ two_ne_zero, zpow_natCast]
    field_simp

/-- One fibre of the packet is elected (R113). -/
theorem yields_elect {pd : BitVec 6} {hi : Bool} {k : List LaneIn → LaneIn → Bool}
    (hk : ∀ l, Ascending l → ∀ x ∈ l, (x.lane == elected hi l) = k l x) :
    Yields (.elect pd hi) fun _ l => l.map fun x => outP pd (k l x) := by
  refine yields_of_reads (f := fun _ l => l.map fun x => outP pd (x.lane == elected hi l)) ?_ ?_
  · exact fun _ => rfl
  · exact fun s h ins s1 hr => List.map_congr_left fun x hx => congrArg (outP pd) (hk ins hr.ascending x hx)

/-- The one outcome of a vote stands in every lane (R111). -/
theorem yields_vote {pd : BitVec 6} {cc : BitVec 2} {a : Src} {k : List LaneIn → Bool}
    (hk : ∀ l, voteVal cc l = k l) : Yields (.vote pd cc a) fun _ l => l.map fun _ => outP pd (k l) :=
  yields_lanes (f := fun l => l.map fun _ => outP pd (voteVal cc l)) (fun _ => rfl) fun l => by rw [hk]

/-- Settles O13: source lanes, votes and the elected lane come down to the rules' own words; the rounds are the same. -/
theorem fibresShuffleVoteAndDraw : Obligations.FibresShuffleVoteAndDraw := by
  refine ⟨fun d a b c w m => ?_,
    ⟨ballotVal, fun l k hk _ => ballotVal_getLsbD l k hk, fun d a pd => ⟨?_, ?_, ?_, ?_, ?_, ?_, ?_⟩⟩,
    fun d a b c r => ⟨?_, ?_, ?_, f32Frac24_exact⟩⟩
  · exact yields_lanes (fun _ => rfl) fun l => (shflOuts_eq m w l).trans
      (List.map_congr_left fun x _ => congrArg (fun j => out32 (shflTaken l x j)) (shflFrom_eq m _ _ _))
  · exact yields_vote fun _ => rfl
  · exact yields_vote fun _ => rfl
  · exact yields_vote vote_none
  · exact yields_vote vote_eq
  · exact yields_lanes (f := fun l => l.map fun _ => out32 (ballotVal l)) (fun _ => rfl) fun _ => rfl
  · exact yields_elect fun _ hl _ => elected_lo hl
  · exact yields_elect fun _ hl _ => elected_hi hl
  · exact yields_each (fun _ => rfl) fun _ =>
      congrArg (fun w : Word => out64 (w.setWidth 64)) (extractLsb'_low_eq_setWidth _)
  · exact yields_out64 (fun _ => rfl) fun _ => rfl
  · exact yields_out64 (fun _ => rfl) fun _ => congrArg (fun n => BitVec.ofNat 64 (f32Frac24 n)) (dbits_high _)

end Sys2Proof.Machine
end

section
/-!
What a class I or class F word leaves as it was (R95, R132, R152), and the statement of O16.
-/

namespace Sys2Proof.Machine

open Sys2Proof

/-! ### Reading constant words -/

/-- A constant read fills the constant cache, and no other. -/
theorem readConst_icache (s : State) (core asid off n : Nat) (t : Trans) :
    ((readConst s core asid off n t).2.coreOf core).icache = (s.coreOf core).icache := by
  have hfill : ∀ (u : State) (l : List Byte), ((u.updCore core fun k =>
      { k with ccache := cacheFill k.ccache 128 asid off l }).coreOf core).icache = (u.coreOf core).icache :=
    fun u l => by
      rw [State.updCore_coreOf, if_pos rfl]
      exact fun _ => rfl
  obtain ⟨u, hu, h⟩ := readCached_cases s core asid t n (cacheFind (s.coreOf core).ccache asid off n)
    fun line k => { k with ccache := cacheFill k.ccache 128 asid off line }
  have hcores : u.coreOf core = s.coreOf core := by
    rcases hu with rfl | rfl
    · rfl
    · rw [State.coreOf, (s.choose_only 2).cores]; rfl
  rw [← hcores, readConst]
  rcases h with h | ⟨l, -, h⟩
  · have hread := (readHome_only u asid t core n .normal).cores
    rw [h, readThrough]
    split
    · rfl
    · split
      · next hb => rw [hfill, State.coreOf, (congrArg (·.2.cores) hb).symm.trans hread]; rfl
      · rw [State.coreOf, hread]; rfl
  · rw [h]

/-- Reading the constant words of an instruction leaves the instruction cache. -/
theorem readConsts_icache {h : Here} {l : List Nat} {s s1 : State} {consts : List (Nat × Word)}
    (hr : readConsts s h l = .ok (consts, s1)) : (s1.coreOf h.c.core).icache = (s.coreOf h.c.core).icache := by
  induction l generalizing s consts s1 with
  | nil =>
    obtain ⟨-, rfl⟩ : [] = consts ∧ s = s1 := by simpa [readConsts] using hr
    rfl
  | cons n l ih =>
    simp only [readConsts] at hr
    split at hr
    · cases hr
    · cases hr
    · next t _ =>
      split at hr
      · cases hr
      · cases hr
      · cases hr
      · next hread =>
        have hone := readConst_icache s h.c.core h.t.asid
          (wbits h.g.cbase 16 4 * 65536 + (wbits h.g.cbase 2 14 * 4 + 4 * n)) 4 t
        rw [hread] at hone
        split at hr
        · next hrest =>
          cases hr
          exact (ih hrest).trans hone
        · cases hr
        · cases hr

/-- With no constant word there is nothing to read. -/
theorem Reads.eq_of_noConsts {i : Instr} {s s1 : State} {h : Here} {ins : List LaneIn} (hr : Reads i s h ins s1)
    (hno : constWords (shape i).srcs = []) : s1 = s := by
  obtain ⟨consts, hr, -⟩ := hr
  rw [hno, readConsts] at hr
  cases hr
  rfl

theorem Reads.sameTables {i : Instr} {s s1 : State} {h : Here} {ins : List LaneIn} (hr : Reads i s h ins s1) :
    SameTables (s.coreOf h.c.core) (s1.coreOf h.c.core) := by
  have hcode : (s1.coreOf h.c.core).icache = (s.coreOf h.c.core).icache := by
    obtain ⟨consts, hr, -⟩ := hr
    exact readConsts_icache hr
  have hsame := hr.sameButCaches.here
  have hkeep : ∀ {α : Type} (f : Core → α), (∀ k, f { k with ccache := [], icache := [] } = f k) →
      f (s1.coreOf h.c.core) = f (s.coreOf h.c.core) := fun f hf => by rw [← hf, hsame, hf]
  constructor
  case icache => exact hcode
  all_goals exact hkeep _ fun _ => rfl

/-! ### Taking the elements of channels, and pushing them -/

/-- The channels of a core may differ, and the teams, whose scratchpads hold the elements; the rest is the same. -/
structure ChansOnly (core : Nat) (s t : State) : Prop where
  only : ∃ ks ts, t = { s with cores := ks, teams := ts }
  here : ∃ ch, t.coreOf core = { s.coreOf core with chans := ch }
  cores : ∀ c, c ≠ core → t.coreOf c = s.coreOf c

theorem ChansOnly.refl (core : Nat) (s : State) : ChansOnly core s s := ⟨⟨_, _, rfl⟩, ⟨_, rfl⟩, fun _ _ => rfl⟩

theorem ChansOnly.trans {core : Nat} {s t u : State} (p : ChansOnly core s t) (q : ChansOnly core t u) :
    ChansOnly core s u where
  only := by
    obtain ⟨_, _, rfl⟩ := p.only
    obtain ⟨_, _, rfl⟩ := q.only
    exact ⟨_, _, rfl⟩
  here := by
    obtain ⟨_, hp⟩ := p.here
    obtain ⟨ch, hq⟩ := q.here
    exact ⟨ch, by rw [hq, hp]⟩
  cores c hc := (q.cores c hc).trans (p.cores c hc)

theorem ChansOnly.foldl {α : Type} {core : Nat} {f : State → α → State} (hf : ∀ s x, ChansOnly core s (f s x))
    (l : List α) (s : State) : ChansOnly core s (l.foldl f s) := by
  induction l generalizing s with
  | nil => exact .refl core s
  | cons x l ih => exact (hf s x).trans (ih _)

theorem State.updCore_chansOnly {s : State} {core : Nat} {f : Core → Core} (ts : List Team)
    (hf : ∀ k, ∃ ch, f k = { k with chans := ch }) : ChansOnly core s ({ s with teams := ts }.updCore core f) := by
  have hcid : ∀ k, (f k).cid = k.cid := fun k => by
    obtain ⟨ch, h⟩ := hf k
    rw [h]
  have hcore := fun n => ({ s with teams := ts } : State).updCore_coreOf core n f hcid
  refine ⟨⟨_, _, rfl⟩, ?_, fun c hc => (hcore c).trans (if_neg hc)⟩
  rw [hcore core, if_pos rfl]
  exact hf _

theorem chanDrop_chansOnly (s : State) (core ch n : Nat) : ChansOnly core s (chanDrop s core ch n) := by
  refine State.updCore_chansOnly s.teams fun k => ?_
  split <;> exact ⟨_, rfl⟩

theorem chanPush_chansOnly (s : State) (core ch tid : Nat) (v : Dword) :
    ChansOnly core s (chanPush s core ch tid v) := by
  rw [chanPush]
  split
  · exact .refl core s
  · exact State.updCore_chansOnly _ fun k => ⟨_, rfl⟩

theorem popAll_chansOnly (s : State) (core lanes : Nat) (sh : Shape) : ChansOnly core s (popAll s core lanes sh) := by
  refine .foldl (fun s o => ?_) sh.srcs s
  split
  · exact chanDrop_chansOnly s core _ lanes
  · exact .refl core s

/-- Nothing is taken where no source is a channel. -/
theorem popAll_of_noChan {sh : Shape} (h : chanUses sh = []) (s : State) (core lanes : Nat) :
    popAll s core lanes sh = s := by
  obtain ⟨hsrc, -⟩ := List.append_eq_nil_iff.mp h
  rw [List.filterMap_eq_nil_iff] at hsrc
  rw [popAll]
  generalize sh.srcs = l at hsrc ⊢
  induction l with
  | nil => rfl
  | cons o l ih =>
    obtain ⟨ho, hl⟩ := List.forall_mem_cons.mp hsrc
    rw [List.foldl_cons]
    split
    · next hpop => simp [hpop] at ho
    · exact ih hl

/-- Nothing is pushed where the destination is no channel. -/
theorem dst_of_noChan {sh : Shape} (h : chanUses sh = []) (c : BitVec 5) (k : Kind) : sh.dst ≠ some (.push c, k) := by
  intro hd
  obtain ⟨-, hdst⟩ := List.append_eq_nil_iff.mp h
  simp [hd] at hdst

/-! ### Writing the results -/

/-- The group after results are written differs in lanes, scalars and status flags. -/
theorem Group.written_only (g : Group) (sh : Shape) (lead : Nat) (outs : List (Nat × LaneOut)) :
    ∃ ls sc fp, g.written sh lead outs = { g with lanes := ls, scal := sc, fpctl := fp } := by
  obtain ⟨ls, h⟩ := g.eachLane_only (fun (o : LaneOut) x => x.setPreds o.pset) outs
  simp only [written, h]
  match sh.dst with
  | none => exact ⟨_, _, _, rfl⟩
  | some (.push _, _) => exact ⟨_, _, _, rfl⟩
  | some (.v r, k) =>
    obtain ⟨ms, h⟩ := Group.eachLane_only (fun v x => x.setWide r.toNat k.regs v) { g with lanes := ls }
      (outs.map fun p => (p.1, p.2.val.toNat))
    simp only [writeDst_v, h]
    exact ⟨_, _, _, rfl⟩
  | some (.s r, k) =>
    simp only [writeDst]
    split
    · obtain ⟨sc, h⟩ := Group.setScalar_only { g with lanes := ls } r.toNat k.regs _
      rw [h]
      exact ⟨_, _, _, rfl⟩
    · exact ⟨_, _, _, rfl⟩

/-- A lane after results are written differs in registers and predicates. -/
theorem Group.written_lane_only (g : Group) (sh : Shape) (lead : Nat) {outs : List (Nat × LaneOut)}
    (hnd : (outs.map (·.1)).Nodup) {j : Nat} (hj : j < 32) :
    ∃ rs ps, (g.written sh lead outs).lane j = { g.lane j with regs := rs, preds := ps } := by
  by_cases hd : ∃ r k, sh.dst = some (.v r, k)
  · obtain ⟨r, k, hd⟩ := hd
    rw [g.written_lane_v hd lead hnd hj]
    cases assoc outs j with
    | none => exact ⟨_, _, rfl⟩
    | some o =>
      obtain ⟨rs, hs⟩ := ((g.lane j).setPreds o.pset).setWide_only r.toNat k.regs o.val.toNat
      obtain ⟨ps, hp⟩ := (g.lane j).setPreds_only o.pset
      exact ⟨rs, ps, by dsimp only [Option.elim]; rw [hs, hp]⟩
  · rw [g.written_lane_other (fun r k h => hd ⟨r, k, h⟩) lead hnd hj]
    cases assoc outs j with
    | none => exact ⟨_, _, rfl⟩
    | some o =>
      obtain ⟨ps, hp⟩ := (g.lane j).setPreds_only o.pset
      exact ⟨_, ps, hp⟩

/-- What only the system writes of a fibre is no register, no predicate and no place. -/
theorem sameSystem_of_moved {x y z : Fibre} (hxy : ∃ rs ps, y = { x with regs := rs, preds := ps }) (hyz : y.Moved z) :
    SameSystem x z := by
  obtain ⟨_, _, rfl⟩ := hxy
  obtain ⟨_, _, _, _, _, _, _, rfl⟩ := hyz
  constructor <;> rfl

theorem sameGroup_of_moves {g k l : Group} {p : Nat → Fibre → Addr} {r : Nat → Fibre → BitVec 4}
    (hgk : ∃ ls sc fp, k = { g with lanes := ls, scal := sc, fpctl := fp }) (hkl : Moves p r k l) : SameGroup g l := by
  obtain ⟨_, _, _, rfl⟩ := hgk
  obtain ⟨⟨_, rfl⟩, -⟩ := hkl
  constructor <;> rfl

/-- Results go to the packet's group, and to a channel where one is the destination. -/
theorem writeBack_chansOnly (s : State) (h : Here) (sh : Shape) (outs : List (Nat × LaneOut)) :
    ChansOnly h.c.core (s.updGroup h.g.gid fun g => g.written sh h.lead outs) (writeBack s h sh outs) := by
  rw [writeBack]
  split
  · exact .foldl (fun s p => chanPush_chansOnly s _ _ _ _) outs _
  · exact .refl _ _

theorem writeBack_of_noChan {sh : Shape} (hno : chanUses sh = []) (s : State) (h : Here)
    (outs : List (Nat × LaneOut)) :
    writeBack s h sh outs = s.updGroup h.g.gid fun g => g.written sh h.lead outs := by
  rw [writeBack]
  split
  · next c k hd => exact absurd hd (dst_of_noChan hno c k)
  · rfl

/-! ### The state after a word -/

section
variable (i : Instr) (h : Here) (ins : List LaneIn) (outs : List LaneOut) (s : State)

/-- The state before the packet goes on. -/
abbrev vecWritten : State :=
  writeBack (popAll s h.c.core ins.length (shape i)) h (shape i) (List.zip (ins.map (·.lane)) outs)

theorem vecDone_moves : PacketMoves h.c (onPc h.c.pk.lanes i.words) (onRem h.c.pk.lanes i.words)
    (vecWritten i h ins outs s) (vecDone i h ins outs s) := State.advance_moves _ h.c i.words

theorem vecWritten_only : ∃ gs ks ts, vecWritten i h ins outs s =
    { s with groups := gs, cores := ks, teams := ts } := by
  obtain ⟨_, hpop⟩ := popAll_only s h.c.core ins.length (shape i)
  obtain ⟨_, _, hwrite⟩ := (writeBack_chansOnly (popAll s h.c.core ins.length (shape i)) h (shape i)
    (List.zip (ins.map (·.lane)) outs)).only
  rw [vecWritten, hwrite, hpop]
  exact ⟨_, _, _, rfl⟩

theorem vecDone_only : ∃ gs ks ts os, vecDone i h ins outs s =
    { s with groups := gs, cores := ks, teams := ts, ops := os, cur := none } := by
  obtain ⟨_, _, _, hwritten⟩ := vecWritten_only i h ins outs s
  obtain ⟨_, _, _, hdone⟩ := (vecDone_moves i h ins outs s).only
  rw [hdone, hwritten]
  exact ⟨_, _, _, _, rfl⟩

theorem vecDone_sameDevice : SameDevice s (vecDone i h ins outs s) := by
  obtain ⟨_, _, _, _, hdone⟩ := vecDone_only i h ins outs s
  rw [hdone]
  constructor <;> rfl

theorem vecDone_serial : (vecDone i h ins outs s).serial = s.serial := by
  obtain ⟨_, _, _, _, hdone⟩ := vecDone_only i h ins outs s
  rw [hdone]

theorem vecDone_sameOps : SameOps s (vecDone i h ins outs s) := by
  obtain ⟨_, _, _, hwritten⟩ := vecWritten_only i h ins outs s
  refine SameOps.trans ?_ (vecDone_moves i h ins outs s).ops
  rw [hwritten]
  rfl

theorem vecDone_group?_other (hgid : h.c.pk.gid = h.g.gid) {n : Nat} (hn : n ≠ h.g.gid) :
    (vecDone i h ins outs s).group? n = s.group? n := by
  obtain ⟨_, hpop⟩ := popAll_only s h.c.core ins.length (shape i)
  rw [(vecDone_moves i h ins outs s).others n (hgid ▸ hn), State.group?, writeBack_groups]
  refine (State.updGroup_group?_other _ hn _ fun g => g.written_gid _ _ _).trans ?_
  rw [hpop]

/-- Taking and pushing elements changes the channels of the packet's core. -/
theorem vecWritten_cores :
    (∃ ch, (vecWritten i h ins outs s).coreOf h.c.core = { s.coreOf h.c.core with chans := ch }) ∧
    ∀ c, c ≠ h.c.core → (vecWritten i h ins outs s).coreOf c = s.coreOf c := by
  have hpop := popAll_chansOnly s h.c.core ins.length (shape i)
  have hwrite := writeBack_chansOnly (popAll s h.c.core ins.length (shape i)) h (shape i)
    (List.zip (ins.map (·.lane)) outs)
  obtain ⟨_, hp⟩ := hpop.here
  obtain ⟨ch, hw⟩ := hwrite.here
  refine ⟨⟨ch, hw.trans ?_⟩, fun c hc => (hwrite.cores c hc).trans (hpop.cores c hc)⟩
  show { (popAll s h.c.core ins.length (shape i)).coreOf h.c.core with chans := ch } = _
  rw [hp]

theorem vecDone_coreOf_other {c : Nat} (hc : c ≠ h.c.core) : (vecDone i h ins outs s).coreOf c = s.coreOf c :=
  ((vecDone_moves i h ins outs s).cores c hc).trans ((vecWritten_cores i h ins outs s).2 c hc)

theorem vecDone_sameTables : SameTables (s.coreOf h.c.core) ((vecDone i h ins outs s).coreOf h.c.core) := by
  obtain ⟨_, hdone⟩ := (vecDone_moves i h ins outs s).core
  obtain ⟨_, hwritten⟩ := (vecWritten_cores i h ins outs s).1
  rw [hdone, hwritten]
  constructor <;> rfl

theorem vecDone_noChan (hno : chanUses (shape i) = []) : (vecDone i h ins outs s).teams = s.teams ∧
    ((vecDone i h ins outs s).coreOf h.c.core).chans = (s.coreOf h.c.core).chans := by
  have hmoves := vecDone_moves i h ins outs s
  rw [hmoves.teams, hmoves.chans, vecWritten, writeBack_of_noChan hno, popAll_of_noChan hno]
  exact ⟨rfl, rfl⟩

theorem nodup_keys_zip {α β : Type} {l : List α} (h : l.Nodup) (m : List β) : ((List.zip l m).map (·.1)).Nodup := by
  rw [List.zip_eq_zip_take_min, List.map_fst_zip (by simp)]
  exact h.sublist (List.take_sublist _ l)

/-- The packet's group, and its fibres. -/
theorem vecDone_own (hg : s.group? h.g.gid = some h.g) (hgid : h.c.pk.gid = h.g.gid)
    (hnd : (ins.map (·.lane)).Nodup) : ∃ g, (vecDone i h ins outs s).group? h.g.gid = some g ∧ SameGroup h.g g ∧
      ∀ j, j < 32 → SameSystem (h.g.lane j) (g.lane j) := by
  obtain ⟨g, hgroup, hm⟩ := vecDone_group hg hgid i ins outs
  have hkeys : ((List.zip (ins.map (·.lane)) outs).map (·.1)).Nodup :=
    nodup_keys_zip hnd outs
  exact ⟨g, hgroup, sameGroup_of_moves (h.g.written_only _ _ _) hm, fun j hj =>
    sameSystem_of_moved (h.g.written_lane_only _ _ hkeys hj) (hm.2 j hj).1⟩

end

/-- A word of class I or class F runs lane by lane (R95, R132). -/
theorem exec_vecExec {i : Instr} (hc : i.cls = some .I ∨ i.cls = some .F) (s : State) :
    ∃ f, exec i s = vecExec i f s := by
  rcases hc with hc | hc
  all_goals
    cases i <;> cases hc
    all_goals
      unfold exec
      exact ⟨_, rfl⟩

theorem SameTables.trans {k l m : Core} (p : SameTables k l) (q : SameTables l m) : SameTables k m where
  reds := q.reds.trans p.reds
  rlt := q.rlt.trans p.rlt
  cop := q.cop.trans p.cop
  copSeq := q.copSeq.trans p.copSeq
  epoch := q.epoch.trans p.epoch
  l1 := q.l1.trans p.l1
  icache := q.icache.trans p.icache
  tlb := q.tlb.trans p.tlb
  walks := q.walks.trans p.walks
  fails := q.fails.trans p.fails
  beats := q.beats.trans p.beats
  cpwin := q.cpwin.trans p.cpwin
  cpwinb := q.cpwinb.trans p.cpwinb
  pins := q.pins.trans p.pins
  bqctl := q.bqctl.trans p.bqctl
  bqplan := q.bqplan.trans p.bqplan
  bqblock := q.bqblock.trans p.bqblock
  bqstat := q.bqstat.trans p.bqstat
  bqasid := q.bqasid.trans p.bqasid
  bqrows := q.bqrows.trans p.bqrows

/-- Settles O16: reading changes caches, and a word that runs lane by lane its group and channels. -/
theorem vectorWordFrame : Obligations.VectorWordFrame := by
  refine ⟨fun i s h ins s1 hr => ⟨hr.sameButCaches, hr.eq_of_noConsts⟩, fun i s h ins s1 hc hi hr => ?_⟩
  obtain ⟨f, hexec⟩ := exec_vecExec hc s
  have hsame := hr.sameButCaches
  have hgroup : ∀ n, s1.group? n = s.group? n := fun n => by
    rw [State.group?, State.group?, hsame.groups]
  have hchans : (s1.coreOf h.c.core).chans = (s.coreOf h.c.core).chans :=
    (congrArg Core.chans hsame.here : _)
  have hops : SameOps s s1 := congrArg (List.map _) hsame.ops
  refine ⟨_, hexec.trans (vecExec_next hi hr), vecDone_sameDevice i h ins _ s1,
    hops.trans (vecDone_sameOps i h ins _ s1), (vecDone_serial i h ins _ s1).trans hsame.serial,
    fun n hn => (vecDone_group?_other i h ins _ s1 hi.gid hn).trans (hgroup n),
    fun c hcore => (vecDone_coreOf_other i h ins _ s1 hcore).trans (hsame.cores c hcore),
    hr.sameTables.trans (vecDone_sameTables i h ins _ s1), fun hno => ?_,
    vecDone_own i h ins _ s1 ((hgroup _).trans hi.group) hi.gid (hr.lanes ▸ nodup_lanesOf h.act)⟩
  obtain ⟨hteams, hch⟩ := vecDone_noChan i h ins (f h ins) s1 hno
  exact ⟨hteams.trans hsame.teams, hch.trans hchans⟩

end Sys2Proof.Machine
end

section
/-!
Signs of f32 and tf32 words (R135, R143), and the statement of O18.
-/

namespace Sys2Proof.Machine

open Sys2Proof

/-- An f32 word without its sign. -/
def f32Abs (a : Word) : Word := a &&& 0x7FFFFFFF
/-- An f32 word with its sign inverted. -/
def f32Neg (a : Word) : Word := a ^^^ 0x80000000

theorem f32Abs_getLsbD (a : Word) (k : Nat) : (f32Abs a).getLsbD k = (a.getLsbD k && k != 31) := by
  have hmask : (0x7FFFFFFF : Word) = BitVec.ofNat 32 (2 ^ 31 - 1) := rfl
  rw [f32Abs, BitVec.getLsbD_and, hmask, BitVec.getLsbD_ofNat, Nat.testBit_two_pow_sub_one]
  by_cases hk : k < 32
  · have hne : decide (k < 31) = (k != 31) := by
      rw [Bool.eq_iff_iff, decide_eq_true_iff, bne_iff_ne]
      omega
    rw [decide_eq_true hk, Bool.true_and, hne]
  · rw [BitVec.getLsbD_of_ge a k (by omega), Bool.false_and, Bool.false_and]

theorem f32Neg_getLsbD (a : Word) (k : Nat) (hk : k < 32) : (f32Neg a).getLsbD k = xor (a.getLsbD k) (k == 31) := by
  have hmask : (0x80000000 : Word) = BitVec.ofNat 32 (2 ^ 31) := rfl
  rw [f32Neg, BitVec.getLsbD_xor, hmask, BitVec.getLsbD_ofNat, Nat.testBit_two_pow, decide_eq_true hk, Bool.true_and,
    Bool.eq_iff_iff.mpr (by rw [decide_eq_true_iff, beq_iff_eq, eq_comm] : decide (31 = k) = true ↔ (k == 31) = true)]

/-- A sign word whose SB is not zero is not read (R135, R143). -/
theorem decode_signs_of_used {w : Word} (ws : List Word) (h : fld w 0 9 ≠ 0)
    (hop : w.toNat / 2 ^ 26 ∈ [0x06, 0x07, 0x1D]) : decode .F (w :: ws) = .error .illegalEncoding := by
  rw [← opcode_toNat] at hop
  have hnone : decOf .F (w :: ws) w = none := by
    simp only [List.mem_cons, List.not_mem_nil, or_false] at hop
    rw [decOf, decF]
    rcases hop with hop | hop | hop
    all_goals
      rw [hop]
      exact decA1_of_used h _ _
  have hlt : ∀ n ∈ [0x06, 0x07, 0x1D], n < opcodes .F := by decide
  rw [decode_cons, if_neg (Nat.not_le.mpr (hlt _ hop)), hnone]

/-- SB of a word of format A without a second source is zero. -/
theorem headD_wA_zero {op : BitVec 6} {x : BitVec 8} {y : BitVec 9} {ws : List Word} {i : Instr}
    (henc : encode i = wA op x y 0 :: ws) : (encode i).headD 0 &&& 0x1FF = 0 := by
  have hsb : fld (wA op x y 0) 0 9 = 0 := by simp
  have hmod : (wA op x y 0).toNat % 2 ^ 9 = 0 := by
    have h := congrArg BitVec.toNat hsb
    rwa [fld, toNat_extractLsb'_eq_nbits, nbits, Nat.pow_zero, Nat.div_one] at h
  rw [henc, List.headD_cons]
  exact BitVec.eq_of_toNat_eq ((BitVec.toNat_and _ _).trans ((Nat.and_two_pow_sub_one_eq_mod _ 9).trans hmod))

/-- Settles O18: the masks of the model's signs, bit by bit. -/
theorem floatSigns : Obligations.FloatSigns := by
  refine ⟨f32Abs, f32Neg, f32Abs_getLsbD, f32Neg_getLsbD, by decide, by decide,
    fun _ ws => decode_signs_of_used ws, fun _ _ =>
    ⟨⟨opOf_of_wA rfl rfl, headD_wA_zero rfl, ?_⟩,
      ⟨opOf_of_wA rfl rfl, headD_wA_zero rfl, ?_⟩,
      ⟨opOf_of_wA rfl rfl, headD_wA_zero rfl, ?_⟩⟩⟩
  · exact yields_un32 (f := f32Abs) (fun _ => rfl) fun _ => rfl
  · exact yields_un32 (f := f32Neg) (fun _ => rfl) fun _ => rfl
  · exact yields_un32 (fun _ => rfl) fun x => (BitVec.zero_sub x).symm

end Sys2Proof.Machine
end

section
/-!
Rounding a significand once: what a model's significand and its sticky bit say about an exact value, and what `roundUp`
and `toQuantum` make of them (R118, R119).
-/

namespace Sys2Proof.Machine

open Sys2Proof

/-! ### Exact values and significands -/

/-- `u` is the natural `m`; or, when sticky, strictly between `m` and the next. -/
structure Within (m : Nat) (sticky : Bool) (u : ℝ) : Prop where
  eq : sticky = false → u = m
  between : sticky = true → (m : ℝ) < u ∧ u < m + 1

variable {m n r d : Nat} {e q : Int} {st s : Bool} {rm : RM} {u t a : ℝ}

theorem within_false : Within m false u ↔ u = m := ⟨fun h => h.eq rfl, fun h => ⟨fun _ => h, nofun⟩⟩

theorem within_true : Within m true u ↔ (m : ℝ) < u ∧ u < m + 1 :=
  ⟨fun h => h.between rfl, fun h => ⟨nofun, fun _ => h⟩⟩

/-- A fraction of naturals is within its quotient, and sticky when it is not whole. -/
theorem within_div (n : Nat) {p : Nat} (hp : 0 < p) : Within (n / p) (n % p != 0) ((n : ℝ) / p) := by
  have hp' : (0 : ℝ) < p := Nat.cast_pos.mpr hp
  have hn : (n : ℝ) = p * (n / p : Nat) + (n % p : Nat) := by
    rw [← Nat.cast_mul, ← Nat.cast_add, Nat.div_add_mod]
  by_cases h : n % p = 0
  · rw [h, bne_self_eq_false, within_false, hn, h, Nat.cast_zero, add_zero, mul_div_cancel_left₀ _ hp'.ne']
  · have hr : (0 : ℝ) < (n % p : Nat) := Nat.cast_pos.mpr (Nat.pos_of_ne_zero h)
    have hlt : ((n % p : Nat) : ℝ) < p := Nat.cast_lt.mpr (Nat.mod_lt n hp)
    rw [bne_iff_ne.mpr h, within_true, lt_div_iff₀ hp', div_lt_iff₀ hp']
    constructor <;> nlinarith

theorem Within.le (h : Within m st u) : (m : ℝ) ≤ u := by
  cases st
  · exact (within_false.mp h).ge
  · exact (within_true.mp h).1.le

theorem Within.lt_succ (h : Within m st u) : u < m + 1 := by
  cases st
  · rw [within_false.mp h]
    exact lt_add_one _
  · exact (within_true.mp h).2

/-- A natural is below the exact value when it is below its significand, or is it and something follows. -/
theorem Within.cast_lt_iff (h : Within m st u) (k : Nat) : (k : ℝ) < u ↔ k < m ∨ k = m ∧ st = true := by
  constructor
  · intro hk
    have hlt : (k : ℝ) < (m + 1 : Nat) := by
      push_cast
      exact hk.trans h.lt_succ
    rcases Nat.lt_succ_iff_lt_or_eq.mp (Nat.cast_lt.mp hlt) with hkm | rfl
    · exact .inl hkm
    · cases st
      · exact absurd (within_false.mp h) hk.ne'
      · exact .inr ⟨rfl, rfl⟩
  · rintro (hk | ⟨rfl, rfl⟩)
    · exact (Nat.cast_lt.mpr hk).trans_le h.le
    · exact (within_true.mp h).1

/-- The exact value is a natural when its significand is that one and nothing follows. -/
theorem Within.eq_cast_iff (h : Within m st u) (k : Nat) : u = k ↔ k = m ∧ st = false := by
  cases st
  · rw [within_false.mp h, Nat.cast_inj, eq_comm, and_iff_left rfl]
  · refine iff_of_false (fun hk => ?_) (fun hk => Bool.noConfusion hk.2)
    obtain ⟨hgt, hlt⟩ := within_true.mp h
    rw [hk] at hlt hgt
    have h1 : m < k := Nat.cast_lt.mp hgt
    have h2 : k < m + 1 := Nat.cast_lt.mp (by push_cast; exact hlt)
    omega

/-- A value within `m` lies in the binade of `m`. -/
theorem Within.binade (h : Within m st u) (hm : m ≠ 0) :
    (2 : ℝ) ^ Nat.log2 m ≤ u ∧ u < (2 : ℝ) ^ (Nat.log2 m + 1) := by
  have hlo : ((2 ^ Nat.log2 m : Nat) : ℝ) ≤ m := Nat.cast_le.mpr (Nat.log2_self_le hm)
  have hhi : ((m + 1 : Nat) : ℝ) ≤ (2 ^ (Nat.log2 m + 1) : Nat) := Nat.cast_le.mpr Nat.lt_log2_self
  push_cast at hlo hhi
  exact ⟨hlo.trans h.le, h.lt_succ.trans_le hhi⟩

/-! ### Rounding to an integer -/

/-- `n` is the real `t`, of a value of this sign, rounded to an integer: to the nearest, of two the even one; or to the
next one outward; or to the next one inward. -/
def RoundsTo (rm : RM) (s : Bool) (t : ℝ) (n : Nat) : Prop :=
  if rm = .rne then |(n : ℝ) - t| < 1 / 2 ∨ |(n : ℝ) - t| = 1 / 2 ∧ n % 2 = 0
  else if rm.outward s = true then t ≤ n ∧ (n : ℝ) - 1 < t
  else (n : ℝ) ≤ t ∧ t < n + 1

theorem roundsTo_rne : RoundsTo .rne s t n ↔ |(n : ℝ) - t| < 1 / 2 ∨ |(n : ℝ) - t| = 1 / 2 ∧ n % 2 = 0 := Iff.rfl

theorem roundsTo_outward (hrm : rm ≠ .rne) (ho : rm.outward s = true) :
    RoundsTo rm s t n ↔ t ≤ n ∧ (n : ℝ) - 1 < t := by
  rw [RoundsTo, if_neg hrm, if_pos ho]

theorem roundsTo_inward (hrm : rm ≠ .rne) (ho : rm.outward s = false) :
    RoundsTo rm s t n ↔ (n : ℝ) ≤ t ∧ t < n + 1 := by
  rw [RoundsTo, if_neg hrm, if_neg (by rw [ho]; exact Bool.false_ne_true)]

theorem RoundsTo.abs_lt_one (h : RoundsTo rm s t n) : |(n : ℝ) - t| < 1 := by
  by_cases hrm : rm = .rne
  · subst hrm
    rcases roundsTo_rne.mp h with h | h
    · linarith
    · linarith [h.1]
  · rw [abs_lt]
    cases ho : rm.outward s
    · obtain ⟨h1, h2⟩ := (roundsTo_inward hrm ho).mp h
      constructor <;> linarith
    · obtain ⟨h1, h2⟩ := (roundsTo_outward hrm ho).mp h
      constructor <;> linarith

theorem roundsTo_self (rm : RM) (s : Bool) (n : Nat) : RoundsTo rm s n n := by
  by_cases hrm : rm = .rne
  · subst hrm
    refine roundsTo_rne.mpr (.inl ?_)
    rw [sub_self, abs_zero]
    exact one_half_pos
  · cases ho : rm.outward s
    · exact (roundsTo_inward hrm ho).mpr ⟨le_rfl, lt_add_one _⟩
    · exact (roundsTo_outward hrm ho).mpr ⟨le_rfl, sub_one_lt _⟩

/-- A natural rounds to itself alone. -/
theorem RoundsTo.eq_of_cast {k : Nat} (h : RoundsTo rm s (k : ℝ) n) : n = k := by
  have hlt := abs_lt.mp h.abs_lt_one
  have h1 : (n : ℝ) < (k + 1 : Nat) := by push_cast; linarith
  have h2 : (k : ℝ) < (n + 1 : Nat) := by push_cast; linarith
  have := Nat.cast_lt.mp h1
  have := Nat.cast_lt.mp h2
  omega

/-! ### The model's rounding -/

theorem RM.roundUp_directed (hrm : rm ≠ .rne) (n r d : Nat) (st : Bool) :
    roundUp rm s n r d st = (rm.outward s && !(r == 0 && !st)) := by
  cases rm
  case rne => exact absurd rfl hrm
  all_goals cases s <;> rfl

/-- A dropped remainder rounds to nearest upward when it is above one half, or is it beside an odd number. -/
theorem roundUp_rne_iff (hd : d ≠ 0) (hu : Within r st u) :
    roundUp .rne s n r d st = true ↔ (2 : ℝ) ^ (d - 1) < u ∨ u = (2 : ℝ) ^ (d - 1) ∧ n % 2 = 1 := by
  have hhalf : ((2 ^ (d - 1) : Nat) : ℝ) = 2 ^ (d - 1) := by push_cast; rfl
  rw [← hhalf, hu.cast_lt_iff, hu.eq_cast_iff]
  simp only [roundUp, Bool.and_eq_true, bne_iff_ne, ne_eq, hd, not_false_iff, true_and, Bool.or_eq_true,
    decide_eq_true_eq, beq_iff_eq, eq_comm (a := r)]
  cases st <;> simp

/-- A remainder that was dropped is less than one. -/
theorem integer_part_of_rest (hr : r < 2 ^ d) (hu : Within r st ((t - n) * 2 ^ d)) : (n : ℝ) ≤ t ∧ t < n + 1 := by
  have hpos : (0 : ℝ) < 2 ^ d := by positivity
  have hlow : 0 ≤ (t - n) * 2 ^ d := (Nat.cast_nonneg r).trans hu.le
  have hhigh : (t - n) * 2 ^ d < 1 * 2 ^ d := by
    have h1 : ((r + 1 : Nat) : ℝ) ≤ (2 ^ d : Nat) := Nat.cast_le.mpr hr
    push_cast at h1
    linarith [hu.lt_succ]
  exact ⟨by linarith [nonneg_of_mul_nonneg_left hlow hpos], by linarith [lt_of_mul_lt_mul_right hhigh hpos.le]⟩

/-- The integer part of `t` and what `roundUp` makes of the rest are `t` rounded. -/
theorem roundsTo_roundUp (hd : d ≠ 0) (hr : r < 2 ^ d) (hu : Within r st ((t - n) * 2 ^ d)) :
    RoundsTo rm s t (if roundUp rm s n r d st then n + 1 else n) := by
  have hpos : (0 : ℝ) < 2 ^ d := by positivity
  obtain ⟨hlow, hhigh⟩ := integer_part_of_rest hr hu
  by_cases hrm : rm = .rne
  · subst hrm
    have hdouble : (2 : ℝ) ^ d = 2 ^ (d - 1) * 2 := by rw [← pow_succ, Nat.sub_one_add_one hd]
    have hpos' : (0 : ℝ) < 2 ^ (d - 1) := by positivity
    have hgt : (2 : ℝ) ^ (d - 1) < (t - n) * 2 ^ d ↔ 1 / 2 < t - n := by
      rw [hdouble]
      constructor <;> intro h <;> nlinarith
    have heq : (t - n) * 2 ^ d = (2 : ℝ) ^ (d - 1) ↔ t - n = 1 / 2 := by
      rw [hdouble]
      constructor <;> intro h <;> nlinarith
    have hup := roundUp_rne_iff (s := s) (n := n) hd hu
    rw [hgt, heq] at hup
    rw [roundsTo_rne]
    by_cases hb : roundUp .rne s n r d st = true
    · rw [if_pos hb]
      push_cast
      rw [abs_of_pos (by linarith)]
      rcases hup.mp hb with h | ⟨h, hodd⟩
      · exact .inl (by linarith)
      · exact .inr ⟨by linarith, by omega⟩
    · rw [if_neg hb, abs_of_nonpos (by linarith)]
      rw [hup] at hb
      push Not at hb
      rcases lt_or_eq_of_le hb.1 with h | h
      · exact .inl (by linarith)
      · exact .inr ⟨by linarith, by have := hb.2 h; omega⟩
  · have hzero : (r == 0 && !st) = true ↔ t = n := by
      rw [Bool.and_eq_true, beq_iff_eq, Bool.not_eq_true', eq_comm (a := r), ← hu.eq_cast_iff 0, Nat.cast_zero,
        mul_eq_zero, or_iff_left hpos.ne', sub_eq_zero]
    rw [RM.roundUp_directed hrm]
    cases ho : rm.outward s
    · rw [Bool.false_and, if_neg Bool.false_ne_true, roundsTo_inward hrm ho]
      exact ⟨hlow, hhigh⟩
    · rw [Bool.true_and, roundsTo_outward hrm ho]
      by_cases hb : (r == 0 && !st) = true
      · rw [if_neg (by rw [hb]; decide), hzero.mp hb]
        exact ⟨le_rfl, sub_one_lt _⟩
      · rw [if_pos (by rw [Bool.eq_false_of_not_eq_true hb]; rfl)]
        push_cast
        have hne : (n : ℝ) ≠ t := fun h => hb (hzero.mpr h.symm)
        exact ⟨hhigh.le, by linarith [lt_of_le_of_ne hlow hne]⟩

/-- A remainder of nothing rounds to the number itself. -/
theorem roundUp_exact (rm : RM) (s : Bool) (n : Nat) : roundUp rm s n 0 0 false = false := by
  cases rm <;> cases s <;> rfl

/-- The significand of `a` over 2^e scaled to the quantum 2^q is `a` over 2^q rounded. -/
theorem toQuantum_roundsTo (rm : RM) (s : Bool) (h : Within m st (a / 2 ^ e)) (hst : st = true → e < q) :
    RoundsTo rm s (a / 2 ^ q) (toQuantum rm s m e q st).1 ∧
      ((toQuantum rm s m e q st).2 = true ↔ ((toQuantum rm s m e q st).1 : ℝ) ≠ a / 2 ^ q) := by
  by_cases heq : e < q
  · obtain ⟨d, hd⟩ : ∃ d : Nat, q = e + d := ⟨(q - e).toNat, by omega⟩
    have hd0 : d ≠ 0 := by omega
    have hscale : a / 2 ^ e = a / 2 ^ q * 2 ^ d := by
      rw [hd, zpow_add₀ two_ne_zero, zpow_natCast]
      field_simp
    have hm : (m : ℝ) = (m / 2 ^ d : Nat) * 2 ^ d + (m % 2 ^ d : Nat) := by
      conv_lhs => rw [← Nat.div_add_mod m (2 ^ d)]
      push_cast
      ring
    have hrest : Within (m % 2 ^ d) st ((a / 2 ^ q - (m / 2 ^ d : Nat)) * 2 ^ d) := by
      rw [sub_mul, ← hscale]
      cases st
      · rw [within_false] at h ⊢
        linarith
      · rw [within_true] at h ⊢
        constructor <;> linarith [h.1, h.2]
    have hround := roundsTo_roundUp (rm := rm) (s := s) hd0 (Nat.mod_lt m (Nat.two_pow_pos d)) hrest
    have hto : (q - e).toNat = d := by omega
    have hinexact : (m % 2 ^ d != 0 || st) = true ↔ ¬(0 = m % 2 ^ d ∧ st = false) := by
      cases st
      · rw [Bool.or_false, bne_iff_ne, ne_comm, and_iff_left rfl]
      · exact iff_of_true (Bool.or_true _) fun h => Bool.noConfusion h.2
    simp only [toQuantum, if_pos heq, hto]
    refine ⟨hround, ?_⟩
    rw [hinexact, ← hrest.eq_cast_iff 0, Nat.cast_zero, mul_eq_zero,
      or_iff_left (by positivity : (2 : ℝ) ^ d ≠ 0), sub_eq_zero]
    obtain ⟨hlow, hhigh⟩ := integer_part_of_rest (Nat.mod_lt m (Nat.two_pow_pos d)) hrest
    refine not_congr ⟨fun ht => ?_, fun ht => ?_⟩
    · rw [ht] at hround ⊢
      rw [hround.eq_of_cast]
    · rw [← ht] at hlow hhigh ⊢
      have h1 := Nat.cast_le.mp hlow
      have h2 : (if roundUp rm s (m / 2 ^ d) (m % 2 ^ d) d st then m / 2 ^ d + 1 else m / 2 ^ d) < m / 2 ^ d + 1 :=
        Nat.cast_lt.mp (by push_cast; exact_mod_cast hhigh)
      rw [Nat.cast_inj]
      omega
  · have hexact : st = false := by
      cases st
      · rfl
      · exact absurd (hst rfl) heq
    subst hexact
    obtain ⟨d, hd⟩ : ∃ d : Nat, e = q + d := ⟨(e - q).toNat, by omega⟩
    have hto : (e - q).toNat = d := by omega
    have ht : a / 2 ^ q = (m * 2 ^ d : Nat) := by
      rw [within_false, hd, zpow_add₀ two_ne_zero, zpow_natCast, div_eq_iff (by positivity)] at h
      push_cast
      rw [h]
      field_simp
    simp only [toQuantum, if_neg heq, hto, roundUp_exact, Bool.false_eq_true, if_false, ht, ne_eq, not_true_eq_false,
      and_true]
    exact roundsTo_self rm s _

end Sys2Proof.Machine
end

section
/-!
Patterns of an IEEE format in the order of their magnitudes, and the one nearest to a value (R116, R118, R119).
-/

namespace Sys2Proof.Machine

open Sys2Proof

/-- What the proofs need of a format's widths: a normal number besides the infinities, an even infinity, integers of the
format's precision in its range, and nothing beyond f64. -/
structure Fmt.Ok (f : Fmt) : Prop where
  eb : 2 ≤ f.eb
  fb : 1 ≤ f.fb
  fb_le_bias : (f.fb : Int) ≤ f.bias
  bias_le : f.bias ≤ 1023
  fb_le : f.fb ≤ 52

theorem Fmt.ok_of_mem {f : Fmt} (h : f ∈ [fmt32, fmt64]) : f.Ok := by
  simp only [List.mem_cons, List.not_mem_nil, or_false] at h
  rcases h with rfl | rfl <;> exact ⟨by decide, by decide, by decide, by decide, by decide⟩

variable {f : Fmt} {rm : RM} {s : Bool} {a : ℝ} {b k n : Nat}

/-! ### Magnitudes -/

/-- The exponent of the unit in the last place of binade `k`, counted from the subnormal numbers and the least normal
ones. -/
abbrev Fmt.quantum (f : Fmt) (k : Nat) : Int := k + 1 - f.bias - f.fb

/-- A pattern as the number of its binade and a significand in units of the last place. -/
structure Fmt.Binade (f : Fmt) (k n : Nat) : Prop where
  le : n ≤ 2 ^ (f.fb + 1)
  normal : k = 0 ∨ 2 ^ f.fb ≤ n

/-- The magnitude of a pattern is its significand in units of the last place; the greatest significand of a binade
counts as the least of the next. -/
theorem Fmt.Binade.mag (h : f.Binade k n) : f.mag (k * 2 ^ f.fb + n) = n * (2 : ℚ) ^ f.quantum k := by
  obtain ⟨hle, hk⟩ := h
  have hpos : 0 < 2 ^ f.fb := Nat.two_pow_pos _
  rw [pow_succ] at hle
  rw [Fmt.mag, Fmt.quantum]
  by_cases hsub : k * 2 ^ f.fb + n < 2 ^ f.fb
  · have hk0 : k = 0 := by
      by_contra hne
      have := Nat.le_mul_of_pos_left (2 ^ f.fb) (Nat.pos_of_ne_zero hne)
      omega
    subst hk0
    rw [if_pos hsub, Nat.zero_mul, Nat.zero_add, Nat.div_eq_of_lt (by omega), Nat.max_eq_left (by omega)]
    norm_num
  · have hn : 2 ^ f.fb ≤ n := by
      rcases hk with rfl | hk
      · omega
      · exact hk
    rw [if_neg hsub]
    rcases Nat.lt_or_eq_of_le hle with hlt | heq
    · have hsplit : k * 2 ^ f.fb + n = n - 2 ^ f.fb + 2 ^ f.fb * (k + 1) := by
        rw [Nat.mul_add, Nat.mul_comm]
        omega
      rw [hsplit, Nat.add_mul_mod_self_left, Nat.mod_eq_of_lt (by omega), Nat.add_mul_div_left _ _ hpos,
        Nat.div_eq_of_lt (by omega), Nat.zero_add, Nat.sub_add_cancel hn, Nat.max_eq_right (by omega)]
      push_cast
      rfl
    · have hsplit : k * 2 ^ f.fb + n = 2 ^ f.fb * (k + 2) := by
        rw [heq]
        ring
      rw [hsplit, Nat.mul_mod_right, Nat.mul_div_cancel_left _ hpos, Nat.max_eq_right (by omega), heq]
      have hexp : ((k + 2 : Nat) : Int) - f.bias - f.fb = (k + 1 - f.bias - f.fb) + 1 := by push_cast; ring
      rw [hexp, zpow_add_one₀ two_ne_zero]
      push_cast
      ring

/-- Every pattern has a binade, in which it is not the last. -/
theorem Fmt.exists_binade (f : Fmt) (b : Nat) :
    ∃ k n, b = k * 2 ^ f.fb + n ∧ (k = 0 ∨ 2 ^ f.fb ≤ n) ∧ n < 2 ^ (f.fb + 1) := by
  have hpos : 0 < 2 ^ f.fb := Nat.two_pow_pos _
  have hmod := Nat.mod_lt b hpos
  have hdiv := Nat.div_add_mod' b (2 ^ f.fb)
  cases hq : b / 2 ^ f.fb with
  | zero =>
    rw [hq] at hdiv
    exact ⟨0, b % 2 ^ f.fb, by omega, .inl rfl, by rw [pow_succ]; omega⟩
  | succ k =>
    rw [hq, Nat.add_mul] at hdiv
    exact ⟨k, 2 ^ f.fb + b % 2 ^ f.fb, by omega, .inr (by omega), by rw [pow_succ]; omega⟩

theorem Fmt.mag_strictMono (f : Fmt) : StrictMono f.mag := by
  refine strictMono_nat_of_lt_succ fun b => ?_
  obtain ⟨k, n, rfl, hk, hn⟩ := f.exists_binade b
  rw [Nat.add_assoc, Fmt.Binade.mag ⟨hn.le, hk⟩, Fmt.Binade.mag ⟨hn, hk.imp_right Nat.le_succ_of_le⟩]
  exact mul_lt_mul_of_pos_right (Nat.cast_lt.mpr (Nat.lt_succ_self n)) (by positivity)

theorem Fmt.mag_zero (f : Fmt) : f.mag 0 = 0 := by
  have h := Fmt.Binade.mag (f := f) (k := 0) (n := 0) ⟨Nat.zero_le _, .inl rfl⟩
  rwa [Nat.zero_mul, Nat.cast_zero, zero_mul] at h

theorem Fmt.mag_lt_mag_iff (f : Fmt) (i j : Nat) : (f.mag i : ℝ) < f.mag j ↔ i < j := by
  rw [Rat.cast_lt, f.mag_strictMono.lt_iff_lt]

theorem Fmt.mag_le_mag_iff (f : Fmt) (i j : Nat) : (f.mag i : ℝ) ≤ f.mag j ↔ i ≤ j := by
  rw [Rat.cast_le, f.mag_strictMono.le_iff_le]

theorem Fmt.Binade.magR (h : f.Binade k n) : (f.mag (k * 2 ^ f.fb + n) : ℝ) = n * (2 : ℝ) ^ f.quantum k := by
  rw [h.mag]
  push_cast
  rfl

/-! ### The nearest pattern, with no greatest one -/

/-- `NearestMag` among all patterns: those from infinity's on count as the powers of two and numbers above. -/
def Fmt.NearestPat (f : Fmt) (rm : RM) (s : Bool) (a : ℝ) (b : Nat) : Prop :=
  if rm = .rne then ∀ j, j ≠ b →
    |(f.mag b : ℝ) - a| < |(f.mag j : ℝ) - a| ∨ |(f.mag b : ℝ) - a| = |(f.mag j : ℝ) - a| ∧ b % 2 = 0
  else if rm.outward s = true then a ≤ f.mag b ∧ ∀ j, j < b → (f.mag j : ℝ) < a
  else (f.mag b : ℝ) ≤ a ∧ ∀ j, b < j → a < f.mag j

theorem Fmt.nearestPat_outward (hrm : rm ≠ .rne) (ho : rm.outward s = true) :
    f.NearestPat rm s a b ↔ a ≤ f.mag b ∧ ∀ j, j < b → (f.mag j : ℝ) < a := by
  rw [NearestPat, if_neg hrm, if_pos ho]

theorem Fmt.nearestPat_inward (hrm : rm ≠ .rne) (ho : rm.outward s = false) :
    f.NearestPat rm s a b ↔ (f.mag b : ℝ) ≤ a ∧ ∀ j, b < j → a < f.mag j := by
  rw [NearestPat, if_neg hrm, if_neg (by rw [ho]; exact Bool.false_ne_true)]

/-- Above a pattern lies nothing within a unit of its last place. -/
theorem Fmt.Binade.le_mag_above (hb : f.Binade k n) {j : Nat} (hj : k * 2 ^ f.fb + n < j) :
    ((n : ℝ) + 1) * 2 ^ f.quantum k ≤ f.mag j := by
  refine le_trans ?_ ((f.mag_le_mag_iff _ _).mpr (Nat.succ_le_of_lt hj))
  rcases Nat.lt_or_eq_of_le hb.le with hlt | heq
  · have hnext := Fmt.Binade.magR (f := f) (k := k) (n := n + 1) ⟨hlt, hb.normal.imp_right Nat.le_succ_of_le⟩
    rw [Nat.succ_eq_add_one, Nat.add_assoc, hnext]
    push_cast
    exact le_rfl
  · have hnext := Fmt.Binade.magR (f := f) (k := k + 1) (n := 2 ^ f.fb + 1)
      ⟨by rw [pow_succ]; have := Nat.two_pow_pos f.fb; omega, .inr (Nat.le_succ _)⟩
    have hq : f.quantum (k + 1) = f.quantum k + 1 := by simp only [Fmt.quantum]; push_cast; ring
    have hsum : k * 2 ^ f.fb + n + 1 = (k + 1) * 2 ^ f.fb + (2 ^ f.fb + 1) := by rw [heq]; ring
    have hpos : (0 : ℝ) < 2 ^ f.quantum k := by positivity
    rw [Nat.succ_eq_add_one, hsum, hnext, hq, zpow_add_one₀ two_ne_zero, heq]
    push_cast
    rw [pow_succ (2 : ℝ)]
    linarith

/-- Below a pattern lies nothing within a unit of its last place, but where a binade begins. -/
theorem Fmt.Binade.mag_below_le (hb : f.Binade k n) (hstart : k = 0 ∨ 2 ^ f.fb < n) {j : Nat}
    (hj : j < k * 2 ^ f.fb + n) : (f.mag j : ℝ) ≤ ((n : ℝ) - 1) * 2 ^ f.quantum k := by
  have hn : n ≠ 0 := by
    rcases hstart with h0 | hstart
    · rw [h0] at hj
      omega
    · exact Nat.ne_zero_of_lt hstart
  have hprev := Fmt.Binade.magR (f := f) (k := k) (n := n - 1)
    ⟨(Nat.sub_le _ _).trans hb.le, hstart.imp_right Nat.le_sub_one_of_lt⟩
  rw [Nat.cast_pred (Nat.pos_of_ne_zero hn)] at hprev
  rw [← hprev]
  exact (f.mag_le_mag_iff _ _).mpr (by omega)

section
variable (hb : f.Binade k n) (hlow : k = 0 ∨ (2 : ℝ) ^ f.fb ≤ a / 2 ^ f.quantum k)
include hb hlow

/-- Below a pattern lies nothing within a unit of its last place, unless the value is at or above the pattern. -/
theorem Fmt.Binade.mag_below {j : Nat} (hj : j < k * 2 ^ f.fb + n) :
    (f.mag j : ℝ) ≤ ((n : ℝ) - 1) * 2 ^ f.quantum k ∨ (f.mag (k * 2 ^ f.fb + n) : ℝ) ≤ a := by
  by_cases hstart : k = 0 ∨ 2 ^ f.fb < n
  · exact .inl (hb.mag_below_le hstart hj)
  · right
    push Not at hstart
    have hn : n = 2 ^ f.fb := le_antisymm hstart.2 (hb.normal.resolve_left hstart.1)
    have hle := hlow.resolve_left hstart.1
    rw [le_div_iff₀ (by positivity)] at hle
    rw [hb.magR, hn]
    push_cast
    exact hle

/-- Within half a unit of a pattern, the others are at least half a unit away, or farther than it. -/
theorem Fmt.Binade.far_of_half (h : |(n : ℝ) - a / 2 ^ f.quantum k| ≤ 1 / 2) {j : Nat} (hj : j ≠ k * 2 ^ f.fb + n) :
    |(f.mag (k * 2 ^ f.fb + n) : ℝ) - a| < |(f.mag j : ℝ) - a| ∨ 1 / 2 * 2 ^ f.quantum k ≤ |(f.mag j : ℝ) - a| := by
  have hpos : (0 : ℝ) < 2 ^ f.quantum k := by positivity
  obtain ⟨h1, h2⟩ := abs_le.mp h
  have hlo : a ≤ (n + 1 / 2) * 2 ^ f.quantum k := (div_le_iff₀ hpos).mp (by linarith)
  have hhi : (n - 1 / 2) * 2 ^ f.quantum k ≤ a := (le_div_iff₀ hpos).mp (by linarith)
  rcases Nat.lt_or_gt_of_ne hj with hlt | hgt
  · rcases hb.mag_below hlow hlt with hle | hle
    · right
      rw [abs_of_nonpos (by linarith)]
      linarith
    · left
      have hj' := (f.mag_lt_mag_iff _ _).mpr hlt
      rw [abs_of_nonpos (by linarith), abs_of_neg (by linarith)]
      linarith
  · right
    have habove := hb.le_mag_above hgt
    rw [abs_of_nonneg (by linarith)]
    linarith

/-- A significand that is the value in units of the last place, rounded, is that of the nearest pattern. -/
theorem Fmt.nearestPat_of_roundsTo (hf : f.Ok) (h : RoundsTo rm s (a / 2 ^ f.quantum k) n) :
    f.NearestPat rm s a (k * 2 ^ f.fb + n) := by
  have hpos : (0 : ℝ) < 2 ^ f.quantum k := by positivity
  have hmag := hb.magR
  by_cases hrm : rm = .rne
  · subst hrm
    have hparity : (k * 2 ^ f.fb + n) % 2 = n % 2 := by
      obtain ⟨j, hj⟩ := Nat.exists_eq_add_of_le hf.fb
      rw [hj, Nat.add_comm 1 j, pow_succ, ← Nat.mul_assoc]
      omega
    have hdist : |(f.mag (k * 2 ^ f.fb + n) : ℝ) - a| = |(n : ℝ) - a / 2 ^ f.quantum k| * 2 ^ f.quantum k := by
      rw [← abs_of_pos hpos, ← abs_mul, abs_of_pos hpos, sub_mul, div_mul_cancel₀ _ hpos.ne', hmag]
    intro j hj
    rcases roundsTo_rne.mp h with hlt | ⟨heq, heven⟩
    · rcases hb.far_of_half hlow hlt.le hj with hfar | hfar
      · exact .inl hfar
      · left
        rw [hdist]
        exact (mul_lt_mul_of_pos_right hlt hpos).trans_le hfar
    · rcases hb.far_of_half hlow heq.le hj with hfar | hfar
      · exact .inl hfar
      · rw [hdist, heq, hparity]
        exact hfar.lt_or_eq.imp_right fun hfar => ⟨hfar, heven⟩
  · cases ho : rm.outward s
    · obtain ⟨h1, h2⟩ := (roundsTo_inward hrm ho).mp h
      rw [le_div_iff₀ hpos, ← hmag] at h1
      rw [div_lt_iff₀ hpos] at h2
      exact (Fmt.nearestPat_inward hrm ho).mpr ⟨h1, fun j hj => h2.trans_le (hb.le_mag_above hj)⟩
    · obtain ⟨h1, h2⟩ := (roundsTo_outward hrm ho).mp h
      rw [div_le_iff₀ hpos, ← hmag] at h1
      rw [lt_div_iff₀ hpos] at h2
      refine (Fmt.nearestPat_outward hrm ho).mpr ⟨h1, fun j hj => ?_⟩
      rcases hb.mag_below hlow hj with hle | hle
      · exact hle.trans_lt h2
      · exact ((f.mag_lt_mag_iff _ _).mpr hj).trans_le hle

end

/-! ### Overflow -/

theorem Fmt.Ok.normal_le (hf : f.Ok) : 2 ^ f.fb ≤ f.inf - 1 := by
  have h4 : 2 ^ 2 ≤ 2 ^ f.eb := Nat.pow_le_pow_right (by decide) hf.eb
  have h2 : 2 ^ 1 ≤ 2 ^ f.fb := Nat.pow_le_pow_right (by decide) hf.fb
  have h3 : 3 * 2 ^ f.fb ≤ (2 ^ f.eb - 1) * 2 ^ f.fb := Nat.mul_le_mul_right _ (by omega)
  rw [Fmt.inf]
  omega

theorem Fmt.Ok.inf_pos (hf : f.Ok) : 0 < f.inf := by
  have := hf.normal_le
  have := Nat.two_pow_pos f.fb
  omega

/-- Below infinity, the nearest of all patterns is the nearest. -/
theorem Fmt.NearestPat.nearestMag (h : f.NearestPat rm s a b) (hb : b < f.inf) : f.NearestMag rm s a b := by
  by_cases hrm : rm = .rne
  · subst hrm
    exact ⟨hb.le, fun j _ hj => h j hj⟩
  · cases ho : rm.outward s
    · obtain ⟨h1, h2⟩ := (Fmt.nearestPat_inward hrm ho).mp h
      rw [NearestMag, if_neg hrm, if_neg (by rw [ho]; exact Bool.false_ne_true)]
      exact ⟨hb, h1, fun j hj _ => h2 j hj⟩
    · obtain ⟨h1, h2⟩ := (Fmt.nearestPat_outward hrm ho).mp h
      rw [NearestMag, if_neg hrm, if_pos ho]
      exact ⟨hb.le, .inl h1, h2⟩

/-- What is nearest to one pattern is below every greater one, and above every lesser one. -/
theorem Fmt.NearestPat.lt_mag (h : f.NearestPat rm s a b) {j : Nat} (hj : b < j) : a < f.mag j := by
  have hmag := (f.mag_lt_mag_iff b j).mpr hj
  by_cases hrm : rm = .rne
  · subst hrm
    by_contra hle
    rw [not_lt] at hle
    have hnear := h j hj.ne'
    rw [abs_of_nonpos (by linarith), abs_of_nonpos (by linarith)] at hnear
    rcases hnear with hnear | hnear <;> linarith [hnear]
  · cases ho : rm.outward s
    · exact ((Fmt.nearestPat_inward hrm ho).mp h).2 j hj
    · exact ((Fmt.nearestPat_outward hrm ho).mp h).1.trans_lt hmag

theorem Fmt.NearestPat.mag_lt (h : f.NearestPat rm s a b) {j : Nat} (hj : j < b) : (f.mag j : ℝ) < a := by
  have hmag := (f.mag_lt_mag_iff j b).mpr hj
  by_cases hrm : rm = .rne
  · subst hrm
    by_contra hle
    rw [not_lt] at hle
    have hnear := h j hj.ne
    rw [abs_of_nonneg (by linarith), abs_of_nonneg (by linarith)] at hnear
    rcases hnear with hnear | hnear <;> linarith [hnear]
  · cases ho : rm.outward s
    · exact hmag.trans_le ((Fmt.nearestPat_inward hrm ho).mp h).1
    · exact ((Fmt.nearestPat_outward hrm ho).mp h).2 j hj

/-- The magnitude that an overflow gives: infinity, or the greatest finite number where the direction is inward. -/
def Fmt.overflowMag (f : Fmt) (rm : RM) (s : Bool) : Nat := if rm = .rne ∨ rm.outward s = true then f.inf else f.inf - 1

theorem Fmt.overflow_eq (f : Fmt) (rm : RM) (s : Bool) : f.overflow rm s = f.neg s + f.overflowMag rm s := by
  cases rm <;> cases s <;> rfl

/-- Where the nearest of all patterns is infinity's or above, the nearest is what an overflow gives. -/
theorem Fmt.NearestPat.nearestMag_overflow (hf : f.Ok) (h : f.NearestPat rm s a b) (hb : f.inf ≤ b) :
    f.NearestMag rm s a (f.overflowMag rm s) := by
  have hpos := hf.inf_pos
  by_cases hrm : rm = .rne
  · subst hrm
    rw [Fmt.overflowMag, if_pos (.inl rfl)]
    refine ⟨le_rfl, fun j hj hne => ?_⟩
    rcases Nat.lt_or_eq_of_le hb with hlt | rfl
    · left
      have hj' := (f.mag_lt_mag_iff _ _).mpr (lt_of_le_of_ne hj hne)
      have hinf := h.mag_lt hlt
      rw [abs_of_neg (by linarith), abs_of_neg (by linarith)]
      linarith
    · exact h j hne
  · cases ho : rm.outward s
    · obtain ⟨h1, -⟩ := (Fmt.nearestPat_inward hrm ho).mp h
      have hnot : rm.outward s ≠ true := by rw [ho]; exact Bool.false_ne_true
      rw [Fmt.overflowMag, if_neg (not_or.mpr ⟨hrm, hnot⟩), Fmt.NearestMag, if_neg hrm, if_neg hnot]
      refine ⟨by omega, ((f.mag_le_mag_iff _ _).mpr (by omega)).trans h1, fun j hj hj' => by omega⟩
    · rw [Fmt.overflowMag, if_pos (.inr ho), Fmt.NearestMag, if_neg hrm, if_pos ho]
      exact ⟨le_rfl, .inr rfl, fun j hj => h.mag_lt (hj.trans_le hb)⟩

/-- What an overflow gives is infinity, or the value is infinity's power of two or above; it is not the value. -/
theorem Fmt.NearestPat.overflow_large (h : f.NearestPat rm s a b) (hb : f.inf ≤ b) :
    f.overflowMag rm s = f.inf ∨ (f.mag f.inf : ℝ) ≤ a := by
  by_cases hrm : rm = .rne ∨ rm.outward s = true
  · rw [Fmt.overflowMag, if_pos hrm]
    exact .inl rfl
  · obtain ⟨hrm, ho⟩ := not_or.mp hrm
    exact .inr (((f.mag_le_mag_iff _ _).mpr hb).trans
      ((Fmt.nearestPat_inward hrm (Bool.eq_false_of_not_eq_true ho)).mp h).1)

/-! ### Underflow -/

/-- The least normal number is a power of two. -/
theorem Fmt.mag_normal (f : Fmt) : (f.mag (2 ^ f.fb) : ℝ) = 2 ^ (1 - f.bias) := by
  have h := Fmt.Binade.magR (f := f) (k := 0) (n := 2 ^ f.fb)
    ⟨Nat.pow_le_pow_right (by decide) (Nat.le_succ _), .inl rfl⟩
  rw [Nat.zero_mul, Nat.zero_add] at h
  rw [h, Fmt.quantum]
  push_cast
  rw [← zpow_natCast, ← zpow_add₀ two_ne_zero]
  congr 1
  ring

theorem Fmt.not_tiny_of_normal (h : (f.mag (2 ^ f.fb) : ℝ) ≤ a) : ¬f.Tiny rm s a := by
  have hpos : (0 : ℝ) < f.mag (2 ^ f.fb) := by
    rw [Fmt.mag_normal]
    positivity
  have hstep : 0 < (f.mag (2 ^ f.fb) : ℝ) / 2 ^ (f.fb + 1) := by positivity
  simp only [Fmt.Tiny]
  split_ifs <;> linarith

/-- Below half of the least normal number a value is tiny. -/
theorem Fmt.tiny_of_half (hf : f.Ok) (h : a < (f.mag (2 ^ f.fb) : ℝ) / 2) : f.Tiny rm s a := by
  have hpos : (0 : ℝ) < f.mag (2 ^ f.fb) := by
    rw [Fmt.mag_normal]
    positivity
  have hstep : (f.mag (2 ^ f.fb) : ℝ) / 2 ^ (f.fb + 1) ≤ f.mag (2 ^ f.fb) / 4 := by
    have h4 : (2 : ℝ) ^ 2 ≤ 2 ^ (f.fb + 1) := pow_le_pow_right₀ one_le_two (Nat.succ_le_succ hf.fb)
    exact div_le_div_of_nonneg_left hpos.le (by norm_num) (by linarith)
  have hstep' : 0 < (f.mag (2 ^ f.fb) : ℝ) / 2 ^ (f.fb + 1) := by positivity
  simp only [Fmt.Tiny]
  split_ifs <;> linarith

/-- Right below the least normal number a value is tiny when it does not round to it at the format's precision. -/
theorem Fmt.tiny_iff_of_roundsTo (h : a < f.mag (2 ^ f.fb))
    (hn : RoundsTo rm s (a / (f.mag (2 ^ f.fb) / 2 ^ (f.fb + 1))) n) : f.Tiny rm s a ↔ n ≠ 2 ^ (f.fb + 1) := by
  set least : ℝ := (f.mag (2 ^ f.fb) : ℝ) with hleast
  set step : ℝ := least / 2 ^ (f.fb + 1) with hstep
  have hpos : 0 < step := by
    rw [hstep, hleast, Fmt.mag_normal]
    positivity
  set t := a / step with ht
  have ha : a = t * step := by rw [ht, div_mul_cancel₀ _ hpos.ne']
  have hl : least = ((2 ^ (f.fb + 1) : Nat) : ℝ) * step := by
    rw [hstep]
    push_cast
    field_simp
  generalize hN : 2 ^ (f.fb + 1) = N at hl ⊢
  have heven : N % 2 = 0 := by
    rw [← hN, pow_succ]
    omega
  have htN : t < N := lt_of_mul_lt_mul_right (by rw [← ha, ← hl]; exact h) hpos.le
  have hscale : ∀ c : ℝ, a < least - step * c ↔ t < N - c := fun c => by
    rw [ha, hl, mul_comm step, ← sub_mul]
    exact mul_lt_mul_iff_left₀ hpos
  have hscale' : ∀ c : ℝ, a ≤ least - step * c ↔ t ≤ N - c := fun c => by
    rw [ha, hl, mul_comm step, ← sub_mul]
    exact mul_le_mul_iff_left₀ hpos
  have hltN : (n : ℝ) ≤ N - 1 ↔ n ≠ N := by
    have hcast : (n : ℝ) ≤ N - 1 ↔ n + 1 ≤ N := by
      rw [le_sub_iff_add_le]
      norm_cast
    have hle : n < N + 1 := by
      have := (abs_lt.mp hn.abs_lt_one).2
      exact_mod_cast (by linarith : (n : ℝ) < N + 1)
    rw [hcast]
    omega
  rw [← hltN]
  simp only [Fmt.Tiny]
  rw [← hleast, ← hstep]
  by_cases hrm : rm = .rne
  · subst hrm
    rw [if_pos rfl, div_eq_mul_one_div, hscale]
    refine ⟨fun hlt => hltN.mpr ?_, fun hle => ?_⟩
    · rintro rfl
      rcases roundsTo_rne.mp hn with h1 | ⟨h1, -⟩ <;> rw [abs_of_pos (by linarith)] at h1 <;> linarith
    · rcases roundsTo_rne.mp hn with h1 | ⟨h1, hn2⟩
      · linarith [(abs_lt.mp h1).1]
      · refine lt_of_le_of_ne (by linarith [(abs_le.mp h1.le).1]) fun heq => ?_
        have hnN : n + 1 = N := by
          have hge : (N : ℝ) - 1 ≤ n := by linarith [(abs_le.mp h1.le).1]
          have hcast : (n : ℝ) + 1 = N := by linarith
          exact_mod_cast hcast
        omega
  · rw [if_neg hrm]
    cases ho : rm.outward s
    · obtain ⟨h1, h2⟩ := (roundsTo_inward hrm ho).mp hn
      rw [if_neg Bool.false_ne_true]
      refine iff_of_true h (hltN.mpr fun hnN => ?_)
      rw [hnN] at h1
      linarith
    · obtain ⟨h1, h2⟩ := (roundsTo_outward hrm ho).mp hn
      rw [if_pos rfl, ← mul_one step, hscale']
      refine ⟨fun hle => ?_, fun hle => h1.trans hle⟩
      rw [hltN]
      rintro rfl
      linarith

end Sys2Proof.Machine
end

section
/-!
The model's rounding of an exact value is its rounding as R118 and R119 define it.
-/

namespace Sys2Proof.Machine

open Sys2Proof

variable {f : Fmt} {rm : RM} {s st : Bool} {m n : Nat} {e : Int} {v a : ℝ}

/-- The binade in which a significand over 2^e is rounded, counted from the subnormal numbers. -/
def Fmt.place (f : Fmt) (m : Nat) (e : Int) : Nat := (Nat.log2 m + e - (1 - f.bias)).toNat

/-- The model's test for underflow: below the least normal number, and not rounded to it at the format's precision. -/
def Fmt.tinyTest (f : Fmt) (rm : RM) (s : Bool) (m : Nat) (e : Int) (st : Bool) : Bool :=
  decide ((Nat.log2 m + e : Int) < 1 - f.bias) && !(decide ((Nat.log2 m + e : Int) = 1 - f.bias - 1) &&
    decide ((toQuantum rm s m e (Nat.log2 m + e - f.fb) st).1 = 2 ^ (f.fb + 1)))

/-- Inexact, and underflow when the value is tiny as well. -/
def roundFlags (inexact tiny : Bool) : BitVec 6 :=
  (if inexact then flNX else 0) ||| (if tiny && inexact then flUF else 0)

theorem roundFlags_bits (i t : Bool) : (roundFlags i t).getLsbD 4 = i ∧ (roundFlags i t).getLsbD 3 = (t && i) ∧
    (roundFlags i t).getLsbD 2 = false ∧ (roundFlags i t).getLsbD 0 = false ∧ (roundFlags i t).getLsbD 1 = false ∧
    (roundFlags i t).getLsbD 5 = false := by
  revert i t
  decide

theorem overflowFlags_bits : (flOF ||| flNX).getLsbD 4 = true ∧ (flOF ||| flNX).getLsbD 3 = false ∧
    (flOF ||| flNX).getLsbD 2 = true ∧ (flOF ||| flNX).getLsbD 0 = false ∧ (flOF ||| flNX).getLsbD 1 = false ∧
    (flOF ||| flNX).getLsbD 5 = false := by
  decide

/-- The quantum in which the model rounds. -/
theorem Fmt.quantum_place (f : Fmt) (m : Nat) (e : Int) :
    f.quantum (f.place m e) = max (Nat.log2 m + e) (1 - f.bias) - f.fb := by
  rw [Fmt.quantum, Fmt.place, Int.toNat_eq_max]
  omega

theorem Fmt.round_zero (f : Fmt) (rm : RM) (s : Bool) (e : Int) : f.round rm s 0 e = (f.neg s, 0) := rfl

/-- The model's rounding: a pattern by its binade and significand, or an overflow. -/
theorem Fmt.round_eq (hm : m ≠ 0) : f.round rm s m e st =
    if f.inf ≤ f.place m e * 2 ^ f.fb + (toQuantum rm s m e (f.quantum (f.place m e)) st).1
    then (f.overflow rm s, flOF ||| flNX)
    else (f.neg s + (f.place m e * 2 ^ f.fb + (toQuantum rm s m e (f.quantum (f.place m e)) st).1),
      roundFlags (toQuantum rm s m e (f.quantum (f.place m e)) st).2 (f.tinyTest rm s m e st)) := by
  have hfirst : (decide (m = 0) && !st) = false := by rw [decide_eq_false hm, Bool.false_and]
  have hplace : (if (Nat.log2 m + e : Int) < 1 - f.bias then (toQuantum rm s m e (f.quantum (f.place m e)) st).1
      else (Nat.log2 m + e - (1 - f.bias)).toNat * 2 ^ f.fb + (toQuantum rm s m e (f.quantum (f.place m e)) st).1) =
      f.place m e * 2 ^ f.fb + (toQuantum rm s m e (f.quantum (f.place m e)) st).1 := by
    rw [Fmt.place]
    split
    · rw [Int.toNat_of_nonpos (by omega), Nat.zero_mul, Nat.zero_add]
    · rfl
  rw [← hplace, Fmt.quantum_place]
  simp only [Fmt.round, hfirst, Bool.false_eq_true, if_false]
  rfl

/-- A value over 2^e within a significand, in the binade of its leading bit. -/
theorem Within.zpow_binade (h : Within m st (a / 2 ^ e)) (hm : m ≠ 0) :
    (2 : ℝ) ^ ((Nat.log2 m : Int) + e) ≤ a ∧ a < (2 : ℝ) ^ ((Nat.log2 m : Int) + e + 1) := by
  obtain ⟨h1, h2⟩ := h.binade hm
  have hpos : (0 : ℝ) < 2 ^ e := by positivity
  rw [le_div_iff₀ hpos] at h1
  rw [div_lt_iff₀ hpos] at h2
  have hexp : (Nat.log2 m : Int) + e + 1 = ((Nat.log2 m + 1 : Nat) : Int) + e := by push_cast; ring
  rw [hexp, zpow_add₀ two_ne_zero, zpow_add₀ two_ne_zero, zpow_natCast, zpow_natCast]
  exact ⟨h1, h2⟩

/-- A value in the binade of a place rounds to a significand of that place. -/
theorem Fmt.binade_of_roundsTo {k : Nat} {top : Int} (hk : (k : Int) = max 0 (top - (1 - f.bias)))
    (hlo : (2 : ℝ) ^ top ≤ a) (hhi : a < (2 : ℝ) ^ (top + 1)) (h : RoundsTo rm s (a / 2 ^ f.quantum k) n) :
    f.Binade k n ∧ (k = 0 ∨ (2 : ℝ) ^ f.fb ≤ a / 2 ^ f.quantum k) := by
  have hpos : (0 : ℝ) < 2 ^ f.quantum k := by positivity
  have hnear := abs_lt.mp h.abs_lt_one
  have hlt : a / 2 ^ f.quantum k < 2 ^ (f.fb + 1) := by
    rw [div_lt_iff₀ hpos, ← zpow_natCast, ← zpow_add₀ two_ne_zero]
    refine hhi.trans_le (zpow_le_zpow_right₀ one_le_two ?_)
    simp only [Fmt.quantum]
    push_cast
    omega
  have hge : k = 0 ∨ (2 : ℝ) ^ f.fb ≤ a / 2 ^ f.quantum k := by
    by_cases h0 : k = 0
    · exact .inl h0
    · right
      rw [le_div_iff₀ hpos, ← zpow_natCast, ← zpow_add₀ two_ne_zero]
      refine le_trans (zpow_le_zpow_right₀ one_le_two ?_) hlo
      simp only [Fmt.quantum]
      omega
  refine ⟨⟨?_, hge.imp_right fun hge => ?_⟩, hge⟩
  · have hcast : (n : ℝ) < (2 ^ (f.fb + 1) + 1 : Nat) := by push_cast; linarith
    exact Nat.lt_succ_iff.mp (Nat.cast_lt.mp hcast)
  · have hcast : ((2 ^ f.fb : Nat) : ℝ) < (n + 1 : Nat) := by push_cast; linarith
    exact Nat.lt_succ_iff.mp (Nat.cast_lt.mp hcast)

/-- The model's test for underflow is that the value is tiny. -/
theorem Fmt.tinyTest_iff (hf : f.Ok) (hm : m ≠ 0) (h : Within m st (a / 2 ^ e)) (hst : st = true → f.fb < Nat.log2 m) :
    f.tinyTest rm s m e st = true ↔ f.Tiny rm s a := by
  obtain ⟨hlo, hhi⟩ := h.zpow_binade hm
  set top : Int := Nat.log2 m + e with htop
  simp only [Fmt.tinyTest, ← htop, Bool.and_eq_true, Bool.not_eq_true', Bool.and_eq_false_iff, decide_eq_true_eq,
    decide_eq_false_iff_not]
  rcases lt_trichotomy top (1 - f.bias - 1) with hbelow | hbelow | hbelow
  · refine iff_of_true ⟨by omega, .inl hbelow.ne⟩ (Fmt.tiny_of_half hf (hhi.trans_le ?_))
    rw [Fmt.mag_normal, div_eq_mul_inv, ← zpow_sub_one₀ two_ne_zero]
    exact zpow_le_zpow_right₀ one_le_two (by omega)
  · have hleast : a < f.mag (2 ^ f.fb) := by
      rw [Fmt.mag_normal]
      rwa [hbelow, sub_add_cancel] at hhi
    have hunit : (f.mag (2 ^ f.fb) : ℝ) / 2 ^ (f.fb + 1) = 2 ^ (top - f.fb) := by
      rw [Fmt.mag_normal, hbelow, ← zpow_natCast, ← zpow_sub₀ two_ne_zero]
      congr 1
      push_cast
      ring
    have hround := (toQuantum_roundsTo (q := top - f.fb) rm s h fun h => by have := hst h; omega).1
    rw [← hunit] at hround
    rw [Fmt.tiny_iff_of_roundsTo hleast hround]
    exact ⟨fun h => h.2.resolve_left (not_not.mpr hbelow), fun h => ⟨by omega, .inr h⟩⟩
  · refine iff_of_false (fun h => absurd h.1 (by omega)) (Fmt.not_tiny_of_normal ?_)
    rw [Fmt.mag_normal]
    exact le_trans (zpow_le_zpow_right₀ one_le_two (by omega)) hlo

/-- The pattern and the flags that the model gives an exact value are those of the value rounded once. -/
theorem Fmt.round_rounds (hf : f.Ok) (rm : RM) (hv : v ≠ 0) (hs : s = true ↔ v < 0) (h : Within m st (|v| / 2 ^ e))
    (hst : st = true → f.fb < Nat.log2 m) : f.Rounds rm v (f.round rm s m e st) := by
  have hm : m ≠ 0 := by
    rintro rfl
    cases st
    · rw [within_false, Nat.cast_zero, div_eq_zero_iff, abs_eq_zero] at h
      exact h.elim hv (by positivity)
    · exact absurd (hst rfl) (Nat.not_lt_zero _)
  obtain ⟨hlo, hhi⟩ := h.zpow_binade hm
  obtain ⟨hround, hinx⟩ := toQuantum_roundsTo (q := f.quantum (f.place m e)) rm s h fun h => by
    have := hst h
    rw [Fmt.quantum_place]
    omega
  obtain ⟨hbin, hlow⟩ := Fmt.binade_of_roundsTo (f := f) (k := f.place m e) (by rw [Fmt.place]; omega) hlo hhi hround
  have hnear := Fmt.nearestPat_of_roundsTo hbin hlow hf hround
  have htiny := Fmt.tinyTest_iff (rm := rm) (s := s) hf hm h hst
  have hmag := hbin.magR
  rw [Fmt.round_eq hm]
  set r := toQuantum rm s m e (f.quantum (f.place m e)) st
  set b := f.place m e * 2 ^ f.fb + r.1
  have hexact : r.2 = true ↔ (f.mag b : ℝ) ≠ |v| := by
    rw [hinx, hmag, ne_eq, eq_div_iff (by positivity)]
  by_cases hb : f.inf ≤ b
  · rw [if_pos hb]
    have hbig : (f.mag (f.inf - 1) : ℝ) < |v| := hnear.mag_lt (by have := hf.inf_pos; omega)
    have hlarge := hnear.overflow_large hb
    obtain ⟨h4, h3, h2, h0, h1, h5⟩ := overflowFlags_bits
    refine ⟨s, f.overflowMag rm s, hs, f.overflow_eq rm s, hnear.nearestMag_overflow hf hb,
      iff_of_true h4 ?_, iff_of_false (Bool.eq_false_iff.mp h3) fun h => ?_, iff_of_true h2 hlarge, h0, h1, h5⟩
    · refine or_iff_not_imp_left.mpr fun hne => ?_
      rw [Fmt.overflowMag] at hne ⊢
      split_ifs at hne ⊢ with ho
      · exact absurd rfl hne
      · exact hbig.ne
    · exact Fmt.not_tiny_of_normal (((f.mag_le_mag_iff _ _).mpr hf.normal_le).trans hbig.le) h.2
  · rw [if_neg hb]
    have hb' := Nat.lt_of_not_le hb
    obtain ⟨h4, h3, h2, h0, h1, h5⟩ := roundFlags_bits r.2 (f.tinyTest rm s m e st)
    have hinexact : r.2 = true ↔ b = f.inf ∨ (f.mag b : ℝ) ≠ |v| := by
      rw [hexact, or_iff_right hb'.ne]
    refine ⟨s, b, hs, rfl, hnear.nearestMag hb', ?_, ?_, ?_, h0, h1, h5⟩
    · rw [h4]
      exact hinexact
    · rw [h3, Bool.and_eq_true, and_comm, hinexact, htiny]
    · rw [h2]
      exact iff_of_false Bool.false_ne_true fun h => h.elim hb'.ne (not_le.mpr (hnear.lt_mag hb'))

end Sys2Proof.Machine
end

section
/-!
What a pattern of an IEEE format unpacks to (R116), and the propagation of NaNs (R120).
-/

namespace Sys2Proof.Machine

open Sys2Proof

variable {f : Fmt} {b d : Nat}

/-! ### Significand and exponent -/

/-- A pattern without its sign. -/
abbrev Fmt.magOf (f : Fmt) (b : Nat) : Nat := b % 2 ^ (f.eb + f.fb)

/-- The significand of a pattern, with its leading bit. -/
def Fmt.sig (f : Fmt) (b : Nat) : Nat :=
  if f.magOf b < 2 ^ f.fb then f.magOf b else f.magOf b % 2 ^ f.fb + 2 ^ f.fb

/-- The power of two of a pattern's significand. -/
def Fmt.exp (f : Fmt) (b : Nat) : Int := (max 1 (f.magOf b / 2 ^ f.fb) : Nat) - f.bias - f.fb

theorem Fmt.sig_lt (f : Fmt) (b : Nat) : f.sig b < 2 ^ (f.fb + 1) := by
  have := Nat.mod_lt (f.magOf b) (Nat.two_pow_pos f.fb)
  rw [Fmt.sig, pow_succ]
  split <;> omega

theorem Fmt.le_exp (f : Fmt) (b : Nat) : 1 - f.bias - f.fb ≤ f.exp b := by
  rw [Fmt.exp]
  have : 1 ≤ max 1 (f.magOf b / 2 ^ f.fb) := Nat.le_max_left _ _
  omega

theorem Fmt.mag_magOf (f : Fmt) (b : Nat) : f.mag (f.magOf b) = f.sig b * (2 : ℚ) ^ f.exp b := by
  rw [Fmt.mag, Fmt.sig, Fmt.exp]
  split <;> rfl

theorem cast_sgn (s : Bool) (m : Nat) : ((sgn s m : Int) : ℚ) = (if s then -1 else 1) * m := by
  cases s <;> simp [sgn]

/-- The value of a pattern is its signed significand times its power of two. -/
theorem Fmt.value_eq (f : Fmt) (b : Nat) : f.value b = (sgn (f.sign b) (f.sig b) : Int) * (2 : ℚ) ^ f.exp b := by
  rw [Fmt.value, f.mag_magOf, cast_sgn, mul_assoc]

theorem Fmt.valueR_eq (f : Fmt) (b : Nat) :
    (f.value b : ℝ) = (sgn (f.sign b) (f.sig b) : Int) * (2 : ℝ) ^ f.exp b := by
  rw [f.value_eq, Rat.cast_mul, Rat.cast_intCast, Rat.cast_zpow, Rat.cast_ofNat]

theorem Fmt.value_eq_zero_iff (f : Fmt) (b : Nat) : f.value b = 0 ↔ f.sig b = 0 := by
  rw [f.value_eq, mul_eq_zero, or_iff_left (by positivity), Int.cast_eq_zero]
  cases f.sign b <;> simp [sgn]

/-! ### Unpacking -/

/-- The model's fields of a pattern are the quotient and the remainder of its magnitude. -/
theorem Fmt.unpack_eq (f : Fmt) (b : Nat) : f.unpack b =
    if f.magOf b / 2 ^ f.fb = 2 ^ f.eb - 1 then
      if f.magOf b % 2 ^ f.fb = 0 then .inf (f.sign b) else .nan (!Nat.testBit b (f.fb - 1))
    else .fin (f.sign b) (f.sig b) (f.exp b) := by
  have he : nbits b f.fb f.eb = f.magOf b / 2 ^ f.fb := by
    rw [nbits, Fmt.magOf, Nat.add_comm, pow_add, Nat.mod_mul_right_div_self]
  have hm : nbits b 0 f.fb = f.magOf b % 2 ^ f.fb := by
    rw [nbits, Nat.pow_zero, Nat.div_one, Fmt.magOf, Nat.mod_mod_of_dvd _ (pow_dvd_pow 2 (Nat.le_add_left _ _))]
  have hpos := Nat.two_pow_pos f.fb
  simp only [Fmt.unpack, he, hm]
  split_ifs with h1 h2 h3
  · rfl
  · rfl
  · have hlt : f.magOf b < 2 ^ f.fb := by rwa [Nat.div_eq_zero_iff_lt hpos] at h3
    rw [Fmt.sig, if_pos hlt, Nat.mod_eq_of_lt hlt, Fmt.exp, h3]
    rfl
  · have hge : ¬f.magOf b < 2 ^ f.fb := fun h => h3 (Nat.div_eq_of_lt h)
    rw [Fmt.sig, if_neg hge, Fmt.exp, Nat.max_eq_right (Nat.one_le_iff_ne_zero.mpr h3)]
    rfl

theorem Fmt.unpack_finite (h : f.Finite b) : f.unpack b = .fin (f.sign b) (f.sig b) (f.exp b) := by
  rw [f.unpack_eq, if_neg]
  exact ((Nat.div_lt_iff_lt_mul (Nat.two_pow_pos f.fb)).mpr h.2).ne

theorem Fmt.magOf_lt (f : Fmt) (b : Nat) : f.magOf b < 2 ^ f.eb * 2 ^ f.fb := by
  rw [← pow_add]
  exact Nat.mod_lt b (Nat.two_pow_pos _)

theorem Fmt.unpack_nan (h : f.Nan b) : f.unpack b = .nan (!Nat.testBit b (f.fb - 1)) := by
  have hpos := Nat.two_pow_pos f.fb
  have hq : f.magOf b / 2 ^ f.fb = 2 ^ f.eb - 1 := by
    have h1 : 2 ^ f.eb - 1 ≤ f.magOf b / 2 ^ f.fb := (Nat.le_div_iff_mul_le hpos).mpr h.2.le
    have h2 : f.magOf b / 2 ^ f.fb < 2 ^ f.eb := (Nat.div_lt_iff_lt_mul hpos).mpr (f.magOf_lt b)
    omega
  rw [f.unpack_eq, if_pos hq, if_neg]
  intro hr
  have hdiv := Nat.div_add_mod' (f.magOf b) (2 ^ f.fb)
  rw [hq, hr] at hdiv
  exact h.2.ne hdiv

/-- The three kinds of pattern. -/
theorem Fmt.finite_or_nan_or_inf (hb : b < 2 ^ f.width) : f.Finite b ∨ f.Nan b ∨ f.magOf b = f.inf := by
  rcases Nat.lt_trichotomy (f.magOf b) f.inf with h | h | h
  · exact .inl ⟨hb, h⟩
  · exact .inr (.inr h)
  · exact .inr (.inl ⟨hb, h⟩)

theorem Fmt.unpack_of_magOf_inf (h : f.magOf b = f.inf) : f.unpack b = .inf (f.sign b) := by
  have hpos := Nat.two_pow_pos f.fb
  rw [f.unpack_eq, h, Fmt.inf, Nat.mul_div_cancel _ hpos, Nat.mul_mod_left, if_pos rfl, if_pos rfl]

theorem Fmt.unpack_ne_nan (hb : b < 2 ^ f.width) (h : ¬f.Nan b) (sig : Bool) : f.unpack b ≠ .nan sig := by
  rcases f.finite_or_nan_or_inf hb with hfin | hnan | hinf
  · rw [f.unpack_finite hfin]
    exact FVal.noConfusion
  · exact absurd hnan h
  · rw [f.unpack_of_magOf_inf hinf]
    exact FVal.noConfusion

theorem Fmt.Finite.ne_nan (h : f.Finite b) (sig : Bool) : f.unpack b ≠ .nan sig := by
  rw [f.unpack_finite h]
  exact FVal.noConfusion

/-! ### A sign and a magnitude as a pattern -/

theorem Fmt.magOf_neg_add (s : Bool) {n : Nat} (hn : n < 2 ^ (f.eb + f.fb)) : f.magOf (f.neg s + n) = n := by
  cases s
  · rw [Fmt.neg, if_neg Bool.false_ne_true, Nat.zero_add, Fmt.magOf, Nat.mod_eq_of_lt hn]
  · rw [Fmt.neg, if_pos rfl, Fmt.magOf, Nat.add_mod_left, Nat.mod_eq_of_lt hn]

theorem Fmt.sign_neg_add (s : Bool) {n : Nat} (hn : n < 2 ^ (f.eb + f.fb)) : f.sign (f.neg s + n) = s := by
  cases s
  · rw [Fmt.neg, if_neg Bool.false_ne_true, Nat.zero_add, Fmt.sign, Nat.testBit_lt_two_pow hn]
  · rw [Fmt.neg, if_pos rfl, Fmt.sign, Nat.testBit_two_pow_add_eq, Nat.testBit_lt_two_pow hn]
    rfl

theorem Fmt.inf_lt (f : Fmt) : f.inf < 2 ^ (f.eb + f.fb) := by
  rw [pow_add]
  exact Nat.mul_lt_mul_of_pos_right (Nat.sub_lt (Nat.two_pow_pos _) Nat.one_pos) (Nat.two_pow_pos _)

theorem Fmt.value_neg_add (s : Bool) {n : Nat} (hn : n < f.inf) :
    f.value (f.neg s + n) = (if s then -1 else 1) * f.mag n := by
  have hlt := hn.trans f.inf_lt
  have hmod : (f.neg s + n) % 2 ^ (f.eb + f.fb) = n := f.magOf_neg_add s hlt
  rw [Fmt.value, hmod, f.sign_neg_add s hlt]

theorem Fmt.unpack_inf (f : Fmt) (s : Bool) : f.unpack (f.neg s + f.inf) = .inf s := by
  rw [f.unpack_of_magOf_inf (f.magOf_neg_add s f.inf_lt), f.sign_neg_add s f.inf_lt]

/-! ### Propagation of NaNs (R120) -/

theorem Fmt.withNan_of_none {l : List Nat} (h : ∀ b ∈ l, ∀ sig, f.unpack b ≠ .nan sig) (k : Nat × BitVec 6) :
    f.withNan l k = k := by
  have hnone : f.firstNan l = none := by
    refine List.find?_eq_none.mpr fun b hb => ?_
    have hne := h b hb
    cases hu : f.unpack b with
    | nan sig => exact absurd hu (hne sig)
    | _ => exact Bool.false_ne_true
  rw [Fmt.withNan, hnone]

/-- The one NaN among some sources is the result, quiet. -/
theorem Fmt.withNan_of_nan {l : List Nat} (hd : f.Nan d) (hmem : d ∈ l)
    (hrest : ∀ b ∈ l, b = d ∨ ∀ sig, f.unpack b ≠ .nan sig) (k : Nat × BitVec 6) :
    f.withNan l k = (d ||| 2 ^ (f.fb - 1), if Nat.testBit d (f.fb - 1) then 0 else flNV) := by
  have hu := f.unpack_nan hd
  have hfirst : f.firstNan l = some d := by
    obtain ⟨b, hb⟩ : ∃ b, f.firstNan l = some b :=
      Option.isSome_iff_exists.mp (List.find?_isSome.mpr ⟨d, hmem, by rw [hu]⟩)
    have hp := List.find?_some hb
    rcases hrest b (List.mem_of_find?_eq_some hb) with rfl | hne
    · exact hb
    · cases hub : f.unpack b with
      | nan sig => exact absurd hub (hne sig)
      | _ =>
        rw [hub] at hp
        exact absurd hp Bool.false_ne_true
  have hany : (l.any fun b => f.unpack b == .nan true) = !Nat.testBit d (f.fb - 1) := by
    rw [Bool.eq_iff_iff, List.any_eq_true]
    constructor
    · rintro ⟨b, hb, heq⟩
      rw [beq_iff_eq] at heq
      rcases hrest b hb with rfl | hne
      · rw [hu] at heq
        exact FVal.nan.inj heq
      · exact absurd heq (hne true)
    · intro h
      exact ⟨d, hmem, by rw [hu, h, beq_self_eq_true]⟩
  rw [Fmt.withNan, hfirst]
  simp only [Fmt.sigNV, hany]
  cases Nat.testBit d (f.fb - 1) <;> rfl

end Sys2Proof.Machine
end

section
/-!
Exact results of finite operands, rounded once: sums, products, reciprocals and roots (R133, R137).
-/

namespace Sys2Proof.Machine

open Sys2Proof

variable {f : Fmt} {rm : RM} {s t : Bool} {m n k : Nat} {e g q : Int} {v x : ℝ}

/-! ### Signed values -/

theorem castR_sgn (s : Bool) (m : Nat) : ((sgn s m : Int) : ℝ) = (if s then -1 else 1) * m := by
  cases s <;> simp [sgn]

theorem sgn_not (s : Bool) (m : Nat) : sgn (!s) m = -sgn s m := by
  cases s <;> simp [sgn]

theorem sgn_bne_mul (s t : Bool) (m n : Nat) : sgn (s != t) (m * n) = sgn s m * sgn t n := by
  cases s <;> cases t <;> simp [sgn]

theorem sgn_mul_natCast (s : Bool) (m n : Nat) : sgn s (m * n) = sgn s m * n := by
  cases s <;> simp [sgn]

theorem sgn_natAbs (z : Int) : sgn (decide (z < 0)) z.natAbs = z := by
  by_cases h : z < 0
  · simp only [sgn, decide_eq_true h, if_true]
    omega
  · simp only [sgn, decide_eq_false h, Bool.false_eq_true, if_false]
    omega

theorem sgn_eq_zero_iff : sgn s m = 0 ↔ m = 0 := by
  cases s <;> simp [sgn]

theorem abs_sgn_mul (s : Bool) (m : Nat) (hx : 0 ≤ x) : |((sgn s m : Int) : ℝ) * x| = m * x := by
  rw [castR_sgn, abs_mul, abs_mul, abs_of_nonneg hx, Nat.abs_cast]
  cases s <;> simp

theorem sgn_mul_neg_iff (hm : m ≠ 0) (hx : 0 < x) : ((sgn s m : Int) : ℝ) * x < 0 ↔ s = true := by
  have hpos : (0 : ℝ) < m * x := mul_pos (Nat.cast_pos.mpr (Nat.pos_of_ne_zero hm)) hx
  rw [castR_sgn, mul_assoc]
  cases s
  · simpa using hpos.le
  · simpa using hpos

/-- A signed natural over a power of two is scaled to a lesser power as a natural. -/
theorem sgn_scale (s : Bool) (m : Nat) (h : q ≤ e) :
    ((sgn s (m * 2 ^ (e - q).toNat) : Int) : ℝ) * 2 ^ q = (sgn s m : Int) * 2 ^ e := by
  obtain ⟨d, rfl⟩ : ∃ d : Nat, e = q + d := ⟨(e - q).toNat, by omega⟩
  rw [sgn_mul_natCast, show (q + d - q).toNat = d by omega, zpow_add₀ two_ne_zero, zpow_natCast]
  push_cast
  ring

/-! ### Values that a significand holds exactly -/

theorem Fmt.round_exact (hf : f.Ok) (rm : RM) (hv : v = (sgn s m : Int) * 2 ^ e) (h0 : v ≠ 0) :
    f.Rounds rm v (f.round rm s m e) := by
  have hpos : (0 : ℝ) < 2 ^ e := by positivity
  have hm : m ≠ 0 := by
    rintro rfl
    refine h0 (hv.trans ?_)
    rw [sgn_eq_zero_iff.mpr rfl, Int.cast_zero, zero_mul]
  refine Fmt.round_rounds hf rm h0 ?_ ?_ fun h => Bool.noConfusion h
  · rw [hv, sgn_mul_neg_iff hm hpos]
  · rw [hv, abs_sgn_mul s m hpos.le, mul_div_cancel_right₀ _ hpos.ne', within_false]

theorem Fmt.round_int (hf : f.Ok) (rm : RM) (z : Int) (hv : v = z * 2 ^ e) (h0 : v ≠ 0) :
    f.Rounds rm v (f.round rm (decide (z < 0)) z.natAbs e) :=
  Fmt.round_exact hf rm (by rw [hv, sgn_natAbs]) h0

/-- A sum of two finite values: rounded once, or a zero with the sign of R133. -/
theorem Fmt.sumFin_spec (hf : f.Ok) (rm : RM) (hv : v = (sgn s m : Int) * 2 ^ e + (sgn t n : Int) * 2 ^ g) :
    (v ≠ 0 → f.Rounds rm v (f.sumFin rm s m e t n g)) ∧
      (v = 0 → f.sumFin rm s m e t n g = (f.neg (zeroSign rm s t), 0)) := by
  set z : Int := sgn s (m * 2 ^ (e - min e g).toNat) + sgn t (n * 2 ^ (g - min e g).toNat) with hz
  have hvz : v = z * 2 ^ min e g := by
    rw [hv, hz, Int.cast_add, add_mul, sgn_scale s m (min_le_left _ _), sgn_scale t n (min_le_right _ _)]
  have hzero : v = 0 ↔ z = 0 := by
    rw [hvz, mul_eq_zero, or_iff_left (by positivity), Int.cast_eq_zero]
  have hsum : f.sumFin rm s m e t n g =
      if z = 0 then (f.neg (zeroSign rm s t), 0) else f.round rm (decide (z < 0)) z.natAbs (min e g) := rfl
  rw [hsum]
  constructor
  · intro h0
    rw [if_neg (hzero.not.mp h0)]
    exact Fmt.round_int hf rm z hvz h0
  · intro h0
    rw [if_pos (hzero.mp h0)]

/-! ### Reciprocals and roots -/

/-- The model's integer square root, bit by bit: once bit `k` and those above it are known, the rest is below 2^k. -/
theorem isqrt_bits (n k : Nat) : ∀ r, r * r ≤ n → n < (r + 2 ^ k) * (r + 2 ^ k) →
    let r' := (List.range k).reverse.foldl (fun r i => if (r + 2 ^ i) * (r + 2 ^ i) ≤ n then r + 2 ^ i else r) r
    r' * r' ≤ n ∧ n < (r' + 1) * (r' + 1) := by
  induction k with
  | zero => exact fun r h1 h2 => ⟨h1, h2⟩
  | succ k ih =>
    intro r h1 h2
    have hlist : (List.range (k + 1)).reverse = k :: (List.range k).reverse := by
      rw [List.range_succ, List.reverse_append, List.reverse_singleton, List.singleton_append]
    rw [hlist, List.foldl_cons]
    by_cases hk : (r + 2 ^ k) * (r + 2 ^ k) ≤ n
    · rw [if_pos hk]
      refine ih _ hk ?_
      rwa [Nat.add_assoc, ← Nat.two_mul, ← Nat.pow_succ']
    · rw [if_neg hk]
      exact ih _ h1 (Nat.lt_of_not_le hk)

theorem isqrt_spec (n : Nat) : isqrt n * isqrt n ≤ n ∧ n < (isqrt n + 1) * (isqrt n + 1) := by
  have hstart : n < (0 + 2 ^ (Nat.log2 n / 2 + 1)) * (0 + 2 ^ (Nat.log2 n / 2 + 1)) := by
    rw [Nat.zero_add, ← pow_add]
    exact Nat.lt_log2_self.trans_le (Nat.pow_le_pow_right (by decide) (by omega))
  exact isqrt_bits n _ 0 (Nat.zero_le _) hstart

/-- The root of a fraction is within its integer root, and sticky when that is not it. -/
theorem within_sqrt {r c n : Nat} (hc : 0 < c) (h1 : r * r * c ≤ n) (h2 : n < (r + 1) * (r + 1) * c) :
    Within r (r * r * c != n) √((n : ℝ) / c) := by
  have hc' : (0 : ℝ) < c := Nat.cast_pos.mpr hc
  have hle : (r : ℝ) ≤ √((n : ℝ) / c) := by
    refine Real.le_sqrt_of_sq_le ?_
    rw [le_div_iff₀ hc', sq]
    exact_mod_cast h1
  have hlt : √((n : ℝ) / c) < r + 1 := by
    rw [Real.sqrt_lt' (by positivity), div_lt_iff₀ hc', sq]
    exact_mod_cast h2
  have hsq : √((n : ℝ) / c) = r ↔ r * r * c = n := by
    rw [Real.sqrt_eq_iff_mul_self_eq (by positivity) (Nat.cast_nonneg r), eq_comm, eq_div_iff hc'.ne']
    norm_cast
  by_cases heq : r * r * c = n
  · rw [heq, bne_self_eq_false, within_false, hsq, heq]
  · rw [bne_iff_ne.mpr heq, within_true]
    exact ⟨lt_of_le_of_ne hle fun hr => heq (hsq.mp hr.symm), hlt⟩

theorem recipExact_within (hm : m ≠ 0) (hx : x = m * 2 ^ e) :
    Within (recipExact m e k).1 (recipExact m e k).2.2 (x⁻¹ / 2 ^ (recipExact m e k).2.1) := by
  have hm' : (m : ℝ) ≠ 0 := Nat.cast_ne_zero.mpr hm
  have hscale : x⁻¹ / (2 : ℝ) ^ (-((Nat.log2 m + k : Nat) : Int) - e) = ((2 ^ (Nat.log2 m + k) : Nat) : ℝ) / m := by
    rw [hx, zpow_sub₀ two_ne_zero, zpow_neg, zpow_natCast]
    push_cast
    field_simp
  have h := within_div (2 ^ (Nat.log2 m + k)) (Nat.pos_of_ne_zero hm)
  rw [← hscale] at h
  exact h

theorem recipExact_log2 (hm : m ≠ 0) (e : Int) (k : Nat) : k ≤ Nat.log2 (recipExact m e (k + 1)).1 := by
  have hle : 2 ^ k ≤ 2 ^ (Nat.log2 m + (k + 1)) / m := by
    rw [Nat.le_div_iff_mul_le (Nat.pos_of_ne_zero hm), ← Nat.add_assoc, Nat.add_right_comm, Nat.add_comm, pow_add]
    exact Nat.mul_le_mul_left _ Nat.lt_log2_self.le
  exact (Nat.le_log2 (Nat.pos_iff_ne_zero.mp (lt_of_lt_of_le (Nat.two_pow_pos k) hle))).mpr hle

theorem sqrtExact_within (hx : x = m * 2 ^ e) :
    Within (sqrtExact m e k).1 (sqrtExact m e k).2.2 (√x / 2 ^ (sqrtExact m e k).2.1) := by
  set d : Nat := 2 * k + (e % 2).toNat with hd
  set c : Int := (e - d) / 2 with hc
  have hev : e = 2 * c + d := by omega
  have hroot : √x / (2 : ℝ) ^ c = √(((m * 2 ^ d : Nat) : ℝ) / (1 : Nat)) := by
    have hpos : (0 : ℝ) < 2 ^ c := by positivity
    have hsq : x = ((m * 2 ^ d : Nat) : ℝ) * (2 ^ c * 2 ^ c) := by
      rw [hx, ← zpow_add₀ two_ne_zero, ← two_mul]
      conv_lhs => rw [hev, zpow_add₀ two_ne_zero, zpow_natCast]
      push_cast
      ring
    rw [hsq, Real.sqrt_mul (Nat.cast_nonneg _), Real.sqrt_mul_self hpos.le, mul_div_cancel_right₀ _ hpos.ne',
      Nat.cast_one, div_one]
  obtain ⟨h1, h2⟩ := isqrt_spec (m * 2 ^ d)
  have h := within_sqrt Nat.one_pos ((Nat.mul_one _).trans_le h1) (h2.trans_eq (Nat.mul_one _).symm)
  rw [← hroot, Nat.mul_one] at h
  exact h

/-- A natural whose square's successor reaches a power of four has that many bits. -/
theorem le_log2_of_sq {r k : Nat} (h : 2 ^ (2 * k) < (r + 1) * (r + 1)) : k ≤ Nat.log2 r := by
  have hle : 2 ^ k ≤ r := by
    by_contra hlt
    have hsucc : r + 1 ≤ 2 ^ k := Nat.lt_of_not_le hlt
    have := Nat.mul_le_mul hsucc hsucc
    rw [← pow_add, ← Nat.two_mul] at this
    omega
  exact (Nat.le_log2 (Nat.pos_iff_ne_zero.mp (lt_of_lt_of_le (Nat.two_pow_pos k) hle))).mpr hle

theorem sqrtExact_log2 (hm : m ≠ 0) (e : Int) (k : Nat) : k ≤ Nat.log2 (sqrtExact m e k).1 := by
  refine le_log2_of_sq (lt_of_le_of_lt ?_ (isqrt_spec (m * 2 ^ (2 * k + (e % 2).toNat))).2)
  exact (Nat.pow_le_pow_right (by decide) (Nat.le_add_right _ _)).trans
    (Nat.le_mul_of_pos_left _ (Nat.pos_of_ne_zero hm))

/-- The reciprocal root of `p` over 4^c with `d` bits. -/
def rsqrtScaled (p : Nat) (c : Int) (d : Nat) : Nat × Int × Bool :=
  let r := isqrt (2 ^ (2 * d) / p)
  (r, -(d : Int) - c, r * r * p != 2 ^ (2 * d))

/-- The model scales the operand of a reciprocal root to an even power of two. -/
theorem rsqrtExact_scaled (m : Nat) (e : Int) : ∃ (p : Nat) (c : Int), (m : ℝ) * 2 ^ e = p * (2 ^ c * 2 ^ c) ∧
    (m ≠ 0 → p ≠ 0) ∧ ∀ k, rsqrtExact m e k = rsqrtScaled p c (Nat.log2 p + k) := by
  by_cases he : e % 2 = 0
  · refine ⟨m, e / 2, ?_, id, fun k => ?_⟩
    · rw [← zpow_add₀ two_ne_zero, ← two_mul, Int.mul_ediv_cancel' (Int.dvd_of_emod_eq_zero he)]
    · simp only [rsqrtExact, rsqrtScaled, he, if_true]
      congr 2
      omega
  · refine ⟨2 * m, (e - 1) / 2, ?_, fun h => Nat.mul_ne_zero two_ne_zero h, fun k => ?_⟩
    · rw [← zpow_add₀ two_ne_zero, ← two_mul, Int.mul_ediv_cancel' (by omega), zpow_sub_one₀ two_ne_zero]
      push_cast
      field_simp
    · simp only [rsqrtExact, rsqrtScaled, he, if_false]
      congr 2
      omega

theorem rsqrtExact_within (hm : m ≠ 0) (hx : x = m * 2 ^ e) :
    Within (rsqrtExact m e k).1 (rsqrtExact m e k).2.2 (1 / √x / 2 ^ (rsqrtExact m e k).2.1) := by
  obtain ⟨p, c, hp, hp0, h⟩ := rsqrtExact_scaled m e
  have hppos := Nat.pos_of_ne_zero (hp0 hm)
  rw [h k]
  generalize Nat.log2 p + k = d
  have hroot : 1 / √x / (2 : ℝ) ^ (-(d : Int) - c) = √(((2 ^ (2 * d) : Nat) : ℝ) / p) := by
    have hpos : (0 : ℝ) < 2 ^ c := by positivity
    have hcast : ((2 ^ (2 * d) : Nat) : ℝ) = 2 ^ d * 2 ^ d := by
      push_cast
      ring
    rw [hx, hp, Real.sqrt_mul (Nat.cast_nonneg _), Real.sqrt_mul_self hpos.le, zpow_sub₀ two_ne_zero, zpow_neg,
      zpow_natCast, hcast, Real.sqrt_div (by positivity), Real.sqrt_mul_self (by positivity)]
    field_simp
  obtain ⟨h1, h2⟩ := isqrt_spec (2 ^ (2 * d) / p)
  have hw := within_sqrt hppos ((Nat.le_div_iff_mul_le hppos).mp h1) ((Nat.div_lt_iff_lt_mul hppos).mp h2)
  rw [← hroot] at hw
  exact hw

theorem rsqrtExact_log2 (hm : m ≠ 0) (e : Int) (k : Nat) : k ≤ Nat.log2 (rsqrtExact m e (k + 1)).1 := by
  obtain ⟨p, c, -, hp0, h⟩ := rsqrtExact_scaled m e
  rw [h]
  refine le_log2_of_sq (lt_of_le_of_lt ?_ (isqrt_spec _).2)
  rw [Nat.le_div_iff_mul_le (Nat.pos_of_ne_zero (hp0 hm))]
  calc 2 ^ (2 * k) * p ≤ 2 ^ (2 * k) * 2 ^ (Nat.log2 p + 1) := Nat.mul_le_mul_left _ Nat.lt_log2_self.le
    _ ≤ 2 ^ (2 * (Nat.log2 p + (k + 1))) := by
      rw [← pow_add]
      exact Nat.pow_le_pow_right (by decide) (by omega)

end Sys2Proof.Machine
end

section
/-!
Values that a format holds, which round to themselves; values beyond its range on either side; and integers (R128, R139,
R140).
-/

namespace Sys2Proof.Machine

open Sys2Proof

variable {f : Fmt} {rm : RM} {s : Bool} {m n b : Nat} {e : Int} {v : ℝ} {r : Nat × BitVec 6}

/-! ### Exact results -/

/-- A magnitude rounds to itself alone. -/
theorem Fmt.NearestMag.eq_of_exact (hn : n < f.inf) (h : f.NearestMag rm s (f.mag n) b) : b = n := by
  rw [Fmt.NearestMag] at h
  split_ifs at h with hrm ho
  · by_contra hne
    have hdist : |(f.mag n : ℝ) - f.mag n| = 0 := by rw [sub_self, abs_zero]
    rcases h.2 n hn.le (Ne.symm hne) with hlt | ⟨heq, -⟩
    · rw [hdist] at hlt
      exact absurd hlt (not_lt.mpr (abs_nonneg _))
    · rw [hdist, abs_eq_zero, sub_eq_zero, Rat.cast_inj] at heq
      exact hne (f.mag_strictMono.injective heq)
  · obtain ⟨-, h1, h2⟩ := h
    refine le_antisymm (Nat.le_of_not_lt fun hlt => lt_irrefl _ (h2 n hlt)) ?_
    exact h1.elim (f.mag_le_mag_iff _ _).mp fun h => h ▸ hn.le
  · obtain ⟨-, h1, h2⟩ := h
    exact le_antisymm ((f.mag_le_mag_iff _ _).mp h1) (Nat.le_of_not_lt fun hlt => lt_irrefl _ (h2 n hlt hn))

/-- Of an exact result no flag is set. -/
theorem Fmt.Rounds.exact (h : f.Rounds rm v r) (hn : n < f.inf) (hv : |v| = f.mag n) (hs : s = true ↔ v < 0) :
    r = (f.neg s + n, 0) := by
  obtain ⟨s', n', hs', hr, hnear, h4, h3, h2, h0, h1, h5⟩ := h
  rw [hv] at hnear h4 h3 h2
  have hn' := hnear.eq_of_exact hn
  subst hn'
  have hsign : s' = s := Bool.eq_iff_iff.mpr (hs'.trans hs.symm)
  have hexact : ¬(n' = f.inf ∨ (f.mag n' : ℝ) ≠ f.mag n') := not_or.mpr ⟨hn.ne, not_not.mpr rfl⟩
  have hbits : r.2 = 0 := by
    refine BitVec.eq_of_getLsbD_eq fun k hk => ?_
    rw [show (0 : BitVec 6).getLsbD k = false from BitVec.getLsbD_zero]
    interval_cases k
    · exact h0
    · exact h1
    · refine Bool.eq_false_iff.mpr fun h => (h2.mp h).elim hn.ne fun hle => ?_
      exact absurd ((f.mag_le_mag_iff _ _).mp hle) (Nat.not_le.mpr hn)
    · exact Bool.eq_false_iff.mpr fun h => hexact (h3.mp h).1
    · exact Bool.eq_false_iff.mpr fun h => hexact (h4.mp h)
    · exact h5
  exact Prod.ext (hr.trans (by rw [hsign])) hbits

theorem Fmt.Ok.two_pow_eb (hf : f.Ok) : ((2 ^ f.eb : Nat) : Int) = 2 * (f.bias + 1) := by
  obtain ⟨j, hj⟩ := Nat.exists_eq_add_of_le hf.eb
  simp only [Fmt.bias, hj, show 2 + j - 1 = j + 1 by omega]
  push_cast
  ring

/-- Infinity's pattern counts as the power of two above every number. -/
theorem Fmt.Ok.mag_inf (hf : f.Ok) : (f.mag f.inf : ℝ) = 2 ^ (f.bias + 1) := by
  have hpow := hf.two_pow_eb
  have h4 : 2 ^ 2 ≤ 2 ^ f.eb := Nat.pow_le_pow_right (by decide) hf.eb
  have h := Fmt.Binade.magR (f := f) (k := 2 ^ f.eb - 2) (n := 2 ^ f.fb)
    ⟨Nat.pow_le_pow_right (by decide) (Nat.le_succ _), .inr le_rfl⟩
  have hsum : (2 ^ f.eb - 2) * 2 ^ f.fb + 2 ^ f.fb = f.inf := by
    rw [← Nat.succ_mul, Fmt.inf]
    congr 1
    omega
  rw [hsum] at h
  rw [h]
  push_cast
  rw [← zpow_natCast, ← zpow_add₀ two_ne_zero]
  congr 1
  rw [Fmt.quantum]
  omega

/-- A significand of the format's precision over a power of two in its range is the magnitude of a pattern. -/
theorem Fmt.exists_pattern (hm : m < 2 ^ (f.fb + 1)) (he : f.quantum 0 ≤ e) (hmax : (m : ℝ) * 2 ^ e < f.mag f.inf) :
    ∃ n, n < f.inf ∧ (f.mag n : ℝ) = m * 2 ^ e := by
  obtain ⟨n, hn⟩ : ∃ n, (f.mag n : ℝ) = m * 2 ^ e := by
    by_cases hm0 : m = 0
    · exact ⟨0, by rw [f.mag_zero, hm0]; simp⟩
    have hlog : Nat.log2 m ≤ f.fb := Nat.lt_succ_iff.mp ((Nat.log2_lt hm0).mpr hm)
    obtain ⟨d, hd⟩ : ∃ d, d = min (f.fb - Nat.log2 m) (e - f.quantum 0).toNat := ⟨_, rfl⟩
    have hbin : f.Binade (e - f.quantum 0 - d).toNat (m * 2 ^ d) := by
      constructor
      · calc m * 2 ^ d ≤ 2 ^ (Nat.log2 m + 1) * 2 ^ d := Nat.mul_le_mul_right _ Nat.lt_log2_self.le
          _ ≤ 2 ^ (f.fb + 1) := by
            rw [← pow_add]
            exact Nat.pow_le_pow_right (by decide) (by omega)
      · by_cases hk : (e - f.quantum 0 - d).toNat = 0
        · exact .inl hk
        · right
          calc 2 ^ f.fb = 2 ^ Nat.log2 m * 2 ^ d := by
                rw [← pow_add]
                congr 1
                omega
            _ ≤ m * 2 ^ d := Nat.mul_le_mul_right _ (Nat.log2_self_le hm0)
    refine ⟨_, hbin.magR.trans ?_⟩
    have hq : e = d + f.quantum (e - f.quantum 0 - d).toNat := by
      simp only [Fmt.quantum] at he hd ⊢
      push_cast
      omega
    conv_rhs => rw [hq, zpow_add₀ two_ne_zero, zpow_natCast]
    push_cast
    ring
  refine ⟨n, (f.mag_lt_mag_iff _ _).mp (hn ▸ hmax), hn⟩

/-! ### Beyond the range -/

/-- Far above the range every value overflows alike. -/
theorem Fmt.round_high (hm : m ≠ 0) (h : (2 ^ f.eb : Nat) ≤ Nat.log2 m + e - (1 - f.bias)) (rm : RM) (s : Bool) :
    f.round rm s m e = (f.overflow rm s, flOF ||| flNX) := by
  rw [Fmt.round_eq hm, if_pos]
  refine le_trans (Nat.mul_le_mul_right _ ?_) (Nat.le_add_right _ _)
  rw [Fmt.place]
  omega

/-- Far below the range every value rounds to zero, or outward to the least number. -/
theorem Fmt.round_low (hf : f.Ok) (hm : m ≠ 0) (h : Nat.log2 m + e + 1 < f.quantum 0) (rm : RM) (s : Bool) :
    f.round rm s m e = (f.neg s + (if rm ≠ .rne ∧ rm.outward s = true then 1 else 0), flNX ||| flUF) := by
  have hpos := Nat.two_pow_pos f.fb
  have hinf := hf.normal_le
  have hplace : f.place m e = 0 := by
    rw [Fmt.place]
    rw [Fmt.quantum] at h
    omega
  have hsmall : m < 2 ^ ((f.quantum 0 - e).toNat - 1) :=
    Nat.lt_log2_self.trans_le (Nat.pow_le_pow_right (by decide) (by omega))
  have hsmall' : m < 2 ^ (f.quantum 0 - e).toNat :=
    hsmall.trans_le (Nat.pow_le_pow_right (by decide) (Nat.sub_le _ _))
  have hup : roundUp rm s 0 m (f.quantum 0 - e).toNat false = decide (rm ≠ .rne ∧ rm.outward s = true) := by
    have hne : (m == 0) = false := beq_eq_false_iff_ne.mpr hm
    by_cases hrm : rm = .rne
    · subst hrm
      have hlt : decide (2 ^ ((f.quantum 0 - e).toNat - 1) < m) = false := decide_eq_false (by omega)
      simp [roundUp, hlt]
    · rw [RM.roundUp_directed hrm, hne]
      simp [hrm]
  have hq : toQuantum rm s m e (f.quantum 0) false = (if rm ≠ .rne ∧ rm.outward s = true then 1 else 0, true) := by
    simp only [toQuantum, if_pos (by omega : e < f.quantum 0), Nat.div_eq_of_lt hsmall', Nat.mod_eq_of_lt hsmall', hup,
      decide_eq_true_eq, Nat.zero_add, Bool.or_false, bne_iff_ne.mpr hm]
  have htiny : f.tinyTest rm s m e false = true := by
    rw [Fmt.quantum] at h
    rw [Fmt.tinyTest, decide_eq_true (by omega), decide_eq_false (by omega)]
    rfl
  rw [Fmt.round_eq hm, hplace, hq, Nat.zero_mul, Nat.zero_add, if_neg, htiny]
  · rfl
  · split <;> omega

/-! ### Integers -/

theorem floor_of_roundsTo {y : ℚ} (hrm : rm ≠ .rne) (ho : rm.outward s = false) (h : RoundsTo rm s (y : ℝ) n) :
    ⌊y⌋ = n := by
  obtain ⟨h1, h2⟩ := (roundsTo_inward hrm ho).mp h
  exact Int.floor_eq_iff.mpr ⟨by exact_mod_cast h1, by exact_mod_cast h2⟩

theorem ceil_of_roundsTo {y : ℚ} (hrm : rm ≠ .rne) (ho : rm.outward s = true) (h : RoundsTo rm s (y : ℝ) n) :
    ⌈y⌉ = n := by
  obtain ⟨h1, h2⟩ := (roundsTo_outward hrm ho).mp h
  exact Int.ceil_eq_iff.mpr ⟨by exact_mod_cast h2, by exact_mod_cast h1⟩

/-- A magnitude rounded to an integer, under its sign, is the value rounded to an integer. -/
theorem integerOf_of_roundsTo {y : ℚ} (hy : 0 ≤ y) (h : RoundsTo rm s (y : ℝ) n) :
    IntegerOf rm ((if s then -1 else 1) * y) (sgn s n) := by
  cases rm
  case rne =>
    have hdist : |(if s then -1 else 1) * y - (sgn s n : Int)| = |(n : ℚ) - y| := by
      rw [cast_sgn, ← mul_sub, abs_mul, abs_sub_comm]
      cases s <;> simp
    have heven : sgn s n % 2 = 0 ↔ n % 2 = 0 := by
      cases s <;> simp only [sgn, if_true, Bool.false_eq_true, if_false] <;> omega
    have hhalf : ((1 / 2 : ℚ) : ℝ) = 1 / 2 := by norm_num
    rw [roundsTo_rne, ← hhalf] at h
    simp only [IntegerOf, hdist, heven]
    exact_mod_cast h
  case rtz =>
    have hfloor := floor_of_roundsTo (by decide) (by cases s <;> rfl) h
    cases s
    · simp only [IntegerOf, sgn, Bool.false_eq_true, if_false, one_mul, if_neg (not_lt.mpr hy), hfloor]
    · rcases hy.eq_or_lt with rfl | hpos
      · rw [Int.floor_zero] at hfloor
        simp [IntegerOf, sgn, ← hfloor]
      · simp only [IntegerOf, sgn, if_true, neg_one_mul, if_pos (neg_lt_zero.mpr hpos), Int.ceil_neg, hfloor]
  case rdn =>
    cases s
    · have hfloor := floor_of_roundsTo (by decide) rfl h
      simp only [IntegerOf, sgn, Bool.false_eq_true, if_false, one_mul, hfloor]
    · have hceil := ceil_of_roundsTo (by decide) rfl h
      simp only [IntegerOf, sgn, if_true, neg_one_mul, Int.floor_neg, hceil]
  case rup =>
    cases s
    · have hceil := ceil_of_roundsTo (by decide) rfl h
      simp only [IntegerOf, sgn, Bool.false_eq_true, if_false, one_mul, hceil]
    · have hfloor := floor_of_roundsTo (by decide) rfl h
      simp only [IntegerOf, sgn, if_true, neg_one_mul, Int.ceil_neg, hfloor]

end Sys2Proof.Machine
end

section
/-!
The operations of IEEE formats on finite operands (R133, R137, R128, R129, R130, R139, R140).
-/

namespace Sys2Proof.Machine

open Sys2Proof

variable {f : Fmt} {a b c : Nat} (rm : RM)

/-! ### Values of finite patterns -/

theorem Fmt.abs_value (f : Fmt) (b : Nat) : |(f.value b : ℝ)| = f.sig b * 2 ^ f.exp b := by
  rw [f.valueR_eq, abs_sgn_mul _ _ (by positivity)]

theorem Fmt.value_neg_iff (h : f.value b ≠ 0) : (f.value b : ℝ) < 0 ↔ f.sign b = true := by
  rw [f.valueR_eq]
  exact sgn_mul_neg_iff (mt (f.value_eq_zero_iff b).mpr h) (by positivity)

theorem Fmt.value_pos (h : 0 < f.value b) : f.sign b = false ∧ (f.value b : ℝ) = f.sig b * 2 ^ f.exp b := by
  have hpos : (0 : ℝ) < f.value b := Rat.cast_pos.mpr h
  refine ⟨?_, by rw [← f.abs_value, abs_of_pos hpos]⟩
  cases hs : f.sign b
  · rfl
  · exact absurd ((Fmt.value_neg_iff h.ne').mpr hs) hpos.not_gt

theorem Fmt.value_eq_abs (f : Fmt) (b : Nat) : f.value b = (if f.sign b then -1 else 1) * f.mag (f.magOf b) := rfl

theorem Fmt.Finite.exp_le (hf : f.Ok) (h : f.Finite b) : f.exp b ≤ f.bias - f.fb := by
  have hpow := hf.two_pow_eb
  have hlt : f.magOf b / 2 ^ f.fb < 2 ^ f.eb - 1 := (Nat.div_lt_iff_lt_mul (Nat.two_pow_pos f.fb)).mpr h.2
  have hfb := hf.fb_le_bias
  have hfb1 := hf.fb
  rw [Fmt.exp]
  omega

theorem Fmt.Finite.lt_inf (h : f.Finite b) : (f.sig b : ℝ) * 2 ^ f.exp b < f.mag f.inf := by
  have hmag : (f.mag (f.magOf b) : ℝ) = f.sig b * 2 ^ f.exp b := by
    rw [f.mag_magOf, Rat.cast_mul, Rat.cast_natCast, Rat.cast_zpow, Rat.cast_ofNat]
  rw [← hmag]
  exact (f.mag_lt_mag_iff _ _).mpr h.2

/-- Finite sources propagate no NaN. -/
theorem Fmt.withNan_of_finite {l : List Nat} (h : ∀ b ∈ l, f.Finite b) (k : Nat × BitVec 6) : f.withNan l k = k :=
  Fmt.withNan_of_none (fun b hb => (h b hb).ne_nan) k

/-! ### Sums and products (R133) -/

theorem Fmt.add_finite (ha : f.Finite a) (hb : f.Finite b) (sub : Bool) : f.add rm sub a b =
    f.sumFin rm (f.sign a) (f.sig a) (f.exp a) (f.sign b != sub) (f.sig b) (f.exp b) := by
  rw [Fmt.add, Fmt.withNan_of_finite (by simp only [List.forall_mem_cons]; exact ⟨ha, hb, nofun⟩), Fmt.unpack_finite ha,
    Fmt.unpack_finite hb]

theorem Fmt.add_spec (hf : f.Ok) (ha : f.Finite a) (hb : f.Finite b) :
    (f.value a + f.value b ≠ 0 → f.Rounds rm (f.value a + f.value b : ℚ) (f.add rm false a b)) ∧
    (f.value a + f.value b = 0 → f.add rm false a b = (f.neg (zeroSign rm (f.sign a) (f.sign b)), 0)) := by
  have h := Fmt.sumFin_spec (v := ((f.value a + f.value b : ℚ) : ℝ)) hf rm
    (by rw [Rat.cast_add, f.valueR_eq, f.valueR_eq])
  rw [Fmt.add_finite rm ha hb, Bool.bne_false]
  rwa [Ne, Rat.cast_eq_zero] at h

theorem Fmt.sub_spec (hf : f.Ok) (ha : f.Finite a) (hb : f.Finite b) :
    (f.value a - f.value b ≠ 0 → f.Rounds rm (f.value a - f.value b : ℚ) (f.add rm true a b)) ∧
    (f.value a - f.value b = 0 → f.add rm true a b = (f.neg (zeroSign rm (f.sign a) (!f.sign b)), 0)) := by
  have h := Fmt.sumFin_spec (v := ((f.value a - f.value b : ℚ) : ℝ)) (s := f.sign a) (m := f.sig a) (e := f.exp a)
    (t := !f.sign b) (n := f.sig b) (g := f.exp b) hf rm
    (by rw [Rat.cast_sub, f.valueR_eq, f.valueR_eq, sgn_not, Int.cast_neg, neg_mul, sub_eq_add_neg])
  rw [Fmt.add_finite rm ha hb, Bool.bne_true]
  rwa [Ne, Rat.cast_eq_zero] at h

/-- The exact product of two values. -/
theorem Fmt.value_mul (f : Fmt) (a b : Nat) : ((f.value a * f.value b : ℚ) : ℝ) =
    (sgn (f.sign a != f.sign b) (f.sig a * f.sig b) : Int) * 2 ^ (f.exp a + f.exp b) := by
  rw [Rat.cast_mul, f.valueR_eq, f.valueR_eq, sgn_bne_mul, zpow_add₀ two_ne_zero]
  push_cast
  ring

theorem Fmt.mul_finite (ha : f.Finite a) (hb : f.Finite b) :
    f.mul rm a b = f.round rm (f.sign a != f.sign b) (f.sig a * f.sig b) (f.exp a + f.exp b) := by
  rw [Fmt.mul, Fmt.withNan_of_finite (by simp only [List.forall_mem_cons]; exact ⟨ha, hb, nofun⟩), Fmt.unpack_finite ha,
    Fmt.unpack_finite hb]

theorem Fmt.mul_spec (hf : f.Ok) (ha : f.Finite a) (hb : f.Finite b) :
    (f.value a * f.value b ≠ 0 → f.Rounds rm (f.value a * f.value b : ℚ) (f.mul rm a b)) ∧
    (f.value a * f.value b = 0 → f.mul rm a b = (f.neg (f.sign a != f.sign b), 0)) := by
  rw [Fmt.mul_finite rm ha hb]
  refine ⟨fun h => Fmt.round_exact hf rm (f.value_mul a b) (Rat.cast_ne_zero.mpr h), fun h => ?_⟩
  rw [mul_eq_zero, f.value_eq_zero_iff, f.value_eq_zero_iff, ← Nat.mul_eq_zero] at h
  rw [h, Fmt.round_zero]

theorem Fmt.fma_finite (ha : f.Finite a) (hb : f.Finite b) (hc : f.Finite c) : f.fma rm a b c =
    f.sumFin rm (f.sign a != f.sign b) (f.sig a * f.sig b) (f.exp a + f.exp b) (f.sign c) (f.sig c) (f.exp c) := by
  rw [Fmt.fma, Fmt.withNan_of_finite (by simp only [List.forall_mem_cons]; exact ⟨ha, hb, hc, nofun⟩),
    Fmt.unpack_finite ha, Fmt.unpack_finite hb, Fmt.unpack_finite hc]
  rfl

theorem Fmt.fma_spec (hf : f.Ok) (ha : f.Finite a) (hb : f.Finite b) (hc : f.Finite c) :
    (f.value a * f.value b + f.value c ≠ 0 →
      f.Rounds rm (f.value a * f.value b + f.value c : ℚ) (f.fma rm a b c)) ∧
    (f.value a * f.value b + f.value c = 0 →
      f.fma rm a b c = (f.neg (zeroSign rm (f.sign a != f.sign b) (f.sign c)), 0)) := by
  have h := Fmt.sumFin_spec (v := ((f.value a * f.value b + f.value c : ℚ) : ℝ)) hf rm
    (by rw [Rat.cast_add, f.value_mul, f.valueR_eq])
  rw [Fmt.fma_finite rm ha hb hc]
  rwa [Ne, Rat.cast_eq_zero] at h

/-! ### Reciprocals and roots (R137) -/

theorem Fmt.withNan_one (ha : f.Finite a) (k : Nat × BitVec 6) : f.withNan [a] k = k :=
  Fmt.withNan_of_finite (by simp only [List.forall_mem_cons]; exact ⟨ha, nofun⟩) k

theorem Fmt.rcp_spec (hf : f.Ok) (ha : f.Finite a) (h0 : f.value a ≠ 0) :
    f.Rounds rm ((f.value a)⁻¹ : ℚ) (f.rcp rm a) := by
  have hm := mt (f.value_eq_zero_iff a).mpr h0
  have hr : f.rcp rm a = f.round rm (f.sign a) (recipExact (f.sig a) (f.exp a) (2 * f.fb + 8)).1
      (recipExact (f.sig a) (f.exp a) (2 * f.fb + 8)).2.1 (recipExact (f.sig a) (f.exp a) (2 * f.fb + 8)).2.2 := by
    rw [Fmt.rcp, Fmt.withNan_one ha, Fmt.unpack_finite ha]
    exact if_neg hm
  rw [hr]
  refine Fmt.round_rounds hf rm (Rat.cast_ne_zero.mpr (inv_ne_zero h0)) ?_ ?_ fun _ => ?_
  · rw [Rat.cast_inv, inv_lt_zero, Fmt.value_neg_iff h0]
  · rw [Rat.cast_inv, abs_inv]
    exact recipExact_within hm (f.abs_value a)
  · exact lt_of_lt_of_le (by omega) (recipExact_log2 hm (f.exp a) (2 * f.fb + 7))

theorem Fmt.sqrt_spec (hf : f.Ok) (ha : f.Finite a) (h0 : 0 < f.value a) :
    f.Rounds rm (√(f.value a : ℝ)) (f.sqrt rm a) := by
  have hm := mt (f.value_eq_zero_iff a).mpr h0.ne'
  obtain ⟨hs, hv⟩ := Fmt.value_pos h0
  have hpos : 0 < √(f.value a : ℝ) := Real.sqrt_pos.mpr (Rat.cast_pos.mpr h0)
  have hr : f.sqrt rm a = f.round rm false (sqrtExact (f.sig a) (f.exp a) (f.fb + 8)).1
      (sqrtExact (f.sig a) (f.exp a) (f.fb + 8)).2.1 (sqrtExact (f.sig a) (f.exp a) (f.fb + 8)).2.2 := by
    rw [Fmt.sqrt, Fmt.withNan_one ha, Fmt.unpack_finite ha, hs]
    exact if_neg hm
  rw [hr]
  refine Fmt.round_rounds hf rm hpos.ne' (iff_of_false Bool.false_ne_true hpos.not_gt) ?_ fun _ => ?_
  · rw [abs_of_pos hpos]
    exact sqrtExact_within hv
  · exact lt_of_lt_of_le (by omega) (sqrtExact_log2 hm (f.exp a) (f.fb + 8))

theorem Fmt.rsq_spec (hf : f.Ok) (ha : f.Finite a) (h0 : 0 < f.value a) :
    f.Rounds rm (1 / √(f.value a : ℝ)) (f.rsq rm a) := by
  have hm := mt (f.value_eq_zero_iff a).mpr h0.ne'
  obtain ⟨hs, hv⟩ := Fmt.value_pos h0
  have hpos : 0 < 1 / √(f.value a : ℝ) := one_div_pos.mpr (Real.sqrt_pos.mpr (Rat.cast_pos.mpr h0))
  have hr : f.rsq rm a = f.round rm false (rsqrtExact (f.sig a) (f.exp a) (2 * f.fb + 8)).1
      (rsqrtExact (f.sig a) (f.exp a) (2 * f.fb + 8)).2.1 (rsqrtExact (f.sig a) (f.exp a) (2 * f.fb + 8)).2.2 := by
    rw [Fmt.rsq, Fmt.withNan_one ha, Fmt.unpack_finite ha, hs]
    exact if_neg hm
  rw [hr]
  refine Fmt.round_rounds hf rm hpos.ne' (iff_of_false Bool.false_ne_true hpos.not_gt) ?_ fun _ => ?_
  · rw [abs_of_pos hpos]
    exact rsqrtExact_within hm hv
  · exact lt_of_lt_of_le (by omega) (rsqrtExact_log2 hm (f.exp a) (2 * f.fb + 7))

/-! ### Scaled values (R140) -/

/-- Beyond ±5000 the exponent no longer changes the rounded result. -/
theorem Fmt.round_clamped (hf : f.Ok) (ha : f.Finite a) (hm : f.sig a ≠ 0) (s : Bool) (n : Int) :
    f.round rm s (f.sig a) (f.exp a + max (-5000) (min 5000 n)) = f.round rm s (f.sig a) (f.exp a + n) := by
  have hpow := hf.two_pow_eb
  have hlo := f.le_exp a
  have hhi := ha.exp_le hf
  have hlog : Nat.log2 (f.sig a) ≤ f.fb := Nat.lt_succ_iff.mp ((Nat.log2_lt hm).mpr (f.sig_lt a))
  have hb := hf.bias_le
  have hfb := hf.fb_le
  have hfb' := hf.fb_le_bias
  rcases le_or_gt n (-5000) with hn | hn
  · rw [max_eq_left ((min_le_right _ _).trans hn)]
    have hlow : ∀ k : Int, k ≤ -5000 → Nat.log2 (f.sig a) + (f.exp a + k) + 1 < f.quantum 0 := fun k hk => by
      simp only [Fmt.quantum]
      push_cast
      omega
    rw [Fmt.round_low hf hm (hlow _ le_rfl), Fmt.round_low hf hm (hlow _ hn)]
  · rcases le_or_gt n 5000 with hn' | hn'
    · rw [min_eq_right hn', max_eq_right hn.le]
    · rw [min_eq_left hn'.le, max_eq_right (by decide)]
      have hhigh : ∀ k : Int, 5000 ≤ k → (2 ^ f.eb : Nat) ≤ Nat.log2 (f.sig a) + (f.exp a + k) - (1 - f.bias) :=
        fun k hk => by omega
      rw [Fmt.round_high hm (hhigh _ le_rfl), Fmt.round_high hm (hhigh _ hn'.le)]

theorem Fmt.scale_spec (hf : f.Ok) (ha : f.Finite a) (h0 : f.value a ≠ 0) (n : Int) :
    f.Rounds rm (f.value a * 2 ^ n : ℚ) (f.scale rm a n) := by
  have hm := mt (f.value_eq_zero_iff a).mpr h0
  have hr : f.scale rm a n = f.round rm (f.sign a) (f.sig a) (f.exp a + n) := by
    rw [Fmt.scale, Fmt.withNan_one ha, Fmt.unpack_finite ha, ← Fmt.round_clamped rm hf ha hm]
    exact if_neg hm
  rw [hr]
  refine Fmt.round_exact hf rm ?_ (Rat.cast_ne_zero.mpr (mul_ne_zero h0 (by positivity)))
  rw [Rat.cast_mul, f.valueR_eq, Rat.cast_zpow, Rat.cast_ofNat, zpow_add₀ two_ne_zero, mul_assoc]

/-! ### Conversions (R128 to R130) and integral values (R139) -/

theorem Fmt.convert_spec {z : Fmt} (hz : z.Ok) (ha : f.Finite a) (h0 : f.value a ≠ 0) :
    z.Rounds rm (f.value a) (f.convert z rm a) := by
  have hr : f.convert z rm a = z.round rm (f.sign a) (f.sig a) (f.exp a) := by
    rw [Fmt.convert, Fmt.unpack_finite ha]
  rw [hr]
  exact Fmt.round_exact hz rm (f.valueR_eq a) (Rat.cast_ne_zero.mpr h0)

/-- What lies in f64's range and precision is converted to f64 exactly. -/
theorem Fmt.convert_fmt64 (hf : f.Ok) (ha : f.Finite a) (h0 : f.value a ≠ 0) :
    (f.convert fmt64 rm a).2 = 0 ∧ fmt64.value (f.convert fmt64 rm a).1 = f.value a := by
  have h64 : fmt64.Ok := Fmt.ok_of_mem (by simp)
  have hlo := f.le_exp a
  have hb := hf.bias_le
  have hfb := hf.fb_le
  have hmax : (f.sig a : ℝ) * 2 ^ f.exp a < fmt64.mag fmt64.inf := by
    refine ha.lt_inf.trans_le ?_
    rw [hf.mag_inf, h64.mag_inf]
    refine zpow_le_zpow_right₀ one_le_two ?_
    have h1023 : fmt64.bias = 1023 := rfl
    omega
  obtain ⟨n, hn, hmag⟩ := Fmt.exists_pattern (f := fmt64)
    ((f.sig_lt a).trans_le (Nat.pow_le_pow_right (by decide) (Nat.succ_le_succ hfb)))
    (by
      have h0 : fmt64.quantum 0 = -1074 := rfl
      omega) hmax
  have hexact := (Fmt.convert_spec rm h64 ha h0).exact hn (by rw [f.abs_value, hmag])
    (Fmt.value_neg_iff h0).symm
  rw [hexact]
  refine ⟨rfl, Rat.cast_injective (α := ℝ) ?_⟩
  rw [Fmt.value_neg_add _ hn, Rat.cast_mul, hmag, f.valueR_eq, castR_sgn, mul_assoc]
  cases f.sign a <;> simp

/-- A finite operand rounded to an integer is the integer of the direction, and inexact when it is another number. -/
theorem Fmt.toQuantum_zero (f : Fmt) (a : Nat) :
    RoundsTo rm (f.sign a) (f.mag (f.magOf a) : ℝ) (toQuantum rm (f.sign a) (f.sig a) (f.exp a) 0 false).1 ∧
    ((toQuantum rm (f.sign a) (f.sig a) (f.exp a) 0 false).2 = true ↔
      ((toQuantum rm (f.sign a) (f.sig a) (f.exp a) 0 false).1 : ℚ) ≠ f.mag (f.magOf a)) := by
  have hpos : (0 : ℝ) < 2 ^ f.exp a := by positivity
  have hw : Within (f.sig a) false ((f.mag (f.magOf a) : ℝ) / 2 ^ f.exp a) := by
    rw [within_false, div_eq_iff hpos.ne', f.mag_magOf, Rat.cast_mul, Rat.cast_natCast, Rat.cast_zpow, Rat.cast_ofNat]
  have h := toQuantum_roundsTo (q := 0) rm (f.sign a) hw fun h => Bool.noConfusion h
  rw [zpow_zero, div_one] at h
  refine ⟨h.1, h.2.trans (not_congr ?_)⟩
  norm_cast

/-- A finite operand as an integer, in a direction. -/
def Fmt.intOf (f : Fmt) (rm : RM) (a : Nat) : Int :=
  sgn (f.sign a) (toQuantum rm (f.sign a) (f.sig a) (f.exp a) 0 false).1

theorem Fmt.mag_nonneg (f : Fmt) (n : Nat) : 0 ≤ f.mag n := by
  rw [← f.mag_zero]
  exact f.mag_strictMono.monotone (Nat.zero_le n)

theorem Fmt.integerOf_intOf (f : Fmt) (a : Nat) : IntegerOf rm (f.value a) (f.intOf rm a) :=
  integerOf_of_roundsTo (f.mag_nonneg _) (f.toQuantum_zero rm a).1

theorem Fmt.toInt_spec (hf : f.Ok) (ha : f.Finite a) {lo hi : Int} (hlo : lo ≤ 0) (hhi : 0 < hi) :
    f.toInt rm lo hi a = (max lo (min hi (f.intOf rm a)), if f.intOf rm a < lo ∨ hi < f.intOf rm a then flNV
      else if (f.intOf rm a : ℚ) = f.value a then 0 else flNX) := by
  have hexp : max (f.exp a) (-1100) = f.exp a := by
    have := f.le_exp a
    have := hf.bias_le
    have := hf.fb_le
    omega
  have hinx : (toQuantum rm (f.sign a) (f.sig a) (f.exp a) 0 false).2 = true ↔ ¬(f.intOf rm a : ℚ) = f.value a := by
    rw [(f.toQuantum_zero rm a).2, Fmt.intOf, f.value_eq_abs, cast_sgn]
    cases f.sign a <;> simp
  have hr : f.toInt rm lo hi a = if f.intOf rm a < lo then (lo, flNV) else if hi < f.intOf rm a then (hi, flNV)
      else (f.intOf rm a, if (toQuantum rm (f.sign a) (f.sig a) (f.exp a) 0 false).2 then flNX else 0) := by
    simp only [Fmt.toInt, Fmt.unpack_finite ha, roundInt, hexp, Fmt.intOf] <;> rfl
  rw [hr]
  by_cases h1 : f.intOf rm a < lo
  · rw [if_pos h1, if_pos (.inl h1), min_eq_right (by omega), max_eq_left h1.le]
  · by_cases h2 : hi < f.intOf rm a
    · rw [if_neg h1, if_pos h2, if_pos (.inr h2), min_eq_left h2.le, max_eq_right (by omega)]
    · rw [if_neg h1, if_neg h2, if_neg (not_or.mpr ⟨h1, h2⟩), min_eq_right (by omega), max_eq_right (by omega)]
      by_cases h3 : (f.intOf rm a : ℚ) = f.value a
      · rw [if_neg (fun h => hinx.mp h h3), if_pos h3]
      · rw [if_pos (hinx.mpr h3), if_neg h3]

/-- An operand with a fraction rounds to no more than its precision holds. -/
theorem Fmt.toQuantum_zero_le (f : Fmt) (h : f.exp a < 0) :
    (toQuantum rm (f.sign a) (f.sig a) (f.exp a) 0 false).1 ≤ 2 ^ f.fb := by
  have hle : (f.mag (f.magOf a) : ℝ) < (2 ^ f.fb : Nat) := by
    rw [f.mag_magOf, Rat.cast_mul, Rat.cast_natCast, Rat.cast_zpow, Rat.cast_ofNat]
    have hsig : (f.sig a : ℝ) < (2 ^ (f.fb + 1) : Nat) := Nat.cast_lt.mpr (f.sig_lt a)
    have hexp : (2 : ℝ) ^ f.exp a ≤ 2 ^ (-1 : Int) := zpow_le_zpow_right₀ one_le_two (by omega)
    have hpos : (0 : ℝ) < 2 ^ f.exp a := by positivity
    rw [zpow_neg_one] at hexp
    push_cast at hsig ⊢
    rw [pow_succ] at hsig
    nlinarith [Nat.cast_nonneg (α := ℝ) (f.sig a)]
  have hnear := (abs_lt.mp (f.toQuantum_zero rm a).1.abs_lt_one).2
  refine Nat.lt_succ_iff.mp (Nat.cast_lt (α := ℝ).mp ?_)
  rw [Nat.cast_succ]
  linarith

/-- An integer of the format's precision rounds to a pattern, exactly. -/
theorem Fmt.round_small (hf : f.Ok) (s : Bool) {n : Nat} (h0 : n ≠ 0) (hn : n ≤ 2 ^ f.fb) :
    ∃ p, p < f.inf ∧ f.mag p = n ∧ f.round rm s n 0 = (f.neg s + p, 0) := by
  have hbias := hf.fb_le_bias
  have hfb := hf.fb
  have hmax : (n : ℝ) * 2 ^ (0 : Int) < f.mag f.inf := by
    rw [hf.mag_inf, zpow_zero, mul_one]
    calc (n : ℝ) ≤ (2 ^ f.fb : Nat) := Nat.cast_le.mpr hn
      _ < 2 ^ (f.bias + 1) := by
        push_cast
        rw [← zpow_natCast]
        exact zpow_lt_zpow_right₀ one_lt_two (by omega)
  obtain ⟨p, hp, hmag⟩ := Fmt.exists_pattern (hn.trans_lt (Nat.pow_lt_pow_right (by decide) (Nat.lt_succ_self _)))
    (by simp only [Fmt.quantum]; omega) hmax
  have hv0 : ((sgn s n : Int) : ℝ) * 2 ^ (0 : Int) ≠ 0 := by
    rw [zpow_zero, mul_one, Int.cast_ne_zero]
    exact mt sgn_eq_zero_iff.mp h0
  have hexact := (Fmt.round_exact hf rm rfl hv0).exact hp (by rw [abs_sgn_mul _ _ (by positivity), hmag])
    (sgn_mul_neg_iff h0 (by positivity)).symm
  rw [zpow_zero, mul_one] at hmag
  exact ⟨p, hp, by exact_mod_cast hmag, hexact⟩

theorem Fmt.integral_spec (hf : f.Ok) (ha : f.Finite a) : f.value (f.integral rm a).1 = f.intOf rm a ∧
    f.sign (f.integral rm a).1 = f.sign a ∧ (f.integral rm a).2 = 0 := by
  set n := (toQuantum rm (f.sign a) (f.sig a) (f.exp a) 0 false).1 with hn
  have hr : f.integral rm a = if 0 ≤ f.exp a then (a, 0) else if n = 0 then (f.neg (f.sign a), 0)
      else ((f.round .rne (f.sign a) n 0).1, 0) := by
    rw [Fmt.integral, Fmt.withNan_one ha, Fmt.unpack_finite ha]
  have hint : (f.intOf rm a : ℚ) = (if f.sign a then -1 else 1) * n := by rw [Fmt.intOf, cast_sgn]
  rw [hr]
  by_cases he : 0 ≤ f.exp a
  · rw [if_pos he]
    refine ⟨?_, rfl, rfl⟩
    have hexact : (toQuantum rm (f.sign a) (f.sig a) (f.exp a) 0 false).2 = false := by
      rw [toQuantum, if_neg (not_lt.mpr he)]
    have hmag : (n : ℚ) = f.mag (f.magOf a) := by
      by_contra hne
      exact Bool.false_ne_true (hexact.symm.trans ((f.toQuantum_zero rm a).2.mpr hne))
    rw [hint, hmag, f.value_eq_abs]
  · rw [if_neg he]
    obtain ⟨p, hp, hmag, hres⟩ : ∃ p, p < f.inf ∧ f.mag p = n ∧
        (if n = 0 then (f.neg (f.sign a), (0 : BitVec 6)) else ((f.round .rne (f.sign a) n 0).1, 0)) =
          (f.neg (f.sign a) + p, 0) := by
      by_cases h0 : n = 0
      · exact ⟨0, hf.inf_pos, by rw [f.mag_zero, h0, Nat.cast_zero], by rw [if_pos h0, Nat.add_zero]⟩
      · obtain ⟨p, hp, hmag, hround⟩ :=
          Fmt.round_small .rne hf (f.sign a) h0 (f.toQuantum_zero_le rm (not_le.mp he))
        exact ⟨p, hp, hmag, by rw [if_neg h0, hround]⟩
    rw [hres, hint, Fmt.value_neg_add _ hp, hmag]
    exact ⟨rfl, f.sign_neg_add _ (hp.trans f.inf_lt), rfl⟩

theorem Fmt.ofInt_spec (hf : f.Ok) {n : Int} (h0 : n ≠ 0) : f.Rounds rm n (f.ofInt rm n) :=
  Fmt.round_int hf rm n (by rw [zpow_zero, mul_one]) (Int.cast_ne_zero.mpr h0)

end Sys2Proof.Machine
end

section
/-!
NaNs, infinities and the special operands of R137, and the statement of O20.
-/

namespace Sys2Proof.Machine

open Sys2Proof

variable {f : Fmt} {a b c d e : Nat} (rm : RM)

/-! ### NaNs (R120) -/

/-- A NaN made quiet, and NV of a signalling one. -/
def Fmt.quieted (f : Fmt) (d : Nat) : Nat × BitVec 6 :=
  (d ||| 2 ^ (f.fb - 1), if Nat.testBit d (f.fb - 1) then 0 else flNV)

theorem Fmt.rcp_nan (hd : f.Nan d) : f.rcp rm d = f.quieted d :=
  Fmt.withNan_of_nan hd (.head _) (by simp) _

theorem Fmt.rsq_nan (hd : f.Nan d) : f.rsq rm d = f.quieted d :=
  Fmt.withNan_of_nan hd (.head _) (by simp) _

theorem Fmt.sqrt_nan (hd : f.Nan d) : f.sqrt rm d = f.quieted d :=
  Fmt.withNan_of_nan hd (.head _) (by simp) _

section
variable (hd : f.Nan d) (he : ∀ sig, f.unpack e ≠ .nan sig)
include hd he

theorem Fmt.add_nan_left (sub : Bool) : f.add rm sub d e = f.quieted d :=
  Fmt.withNan_of_nan hd (.head _) (by simp [he]) _

theorem Fmt.add_nan_right (sub : Bool) : f.add rm sub e d = f.quieted d :=
  Fmt.withNan_of_nan hd (.tail _ (.head _)) (by simp [he]) _

theorem Fmt.mul_nan_left : f.mul rm d e = f.quieted d :=
  Fmt.withNan_of_nan hd (.head _) (by simp [he]) _

theorem Fmt.mul_nan_right : f.mul rm e d = f.quieted d :=
  Fmt.withNan_of_nan hd (.tail _ (.head _)) (by simp [he]) _

theorem Fmt.fma_nan_mid (ha : f.Finite a) : f.fma rm a d e = f.quieted d := by
  rw [Fmt.fma, Fmt.withNan_of_nan hd (.tail _ (.head _)) (by simp [he, ha.ne_nan]), Fmt.unpack_finite ha,
    Fmt.unpack_nan hd]
  rfl

theorem Fmt.fma_nan_first (ha : f.Finite a) : f.fma rm d a e = f.quieted d := by
  rw [Fmt.fma, Fmt.withNan_of_nan hd (.head _) (by simp [he, ha.ne_nan]), Fmt.unpack_finite ha, Fmt.unpack_nan hd]
  rfl

end

/-! ### Infinities (R133) -/

theorem Fmt.inf_ne_nan (f : Fmt) (s sig : Bool) : f.unpack (f.neg s + f.inf) ≠ .nan sig := by
  rw [f.unpack_inf]
  exact FVal.noConfusion

theorem Fmt.add_inf_inf (sub s t : Bool) : f.add rm sub (f.neg s + f.inf) (f.neg t + f.inf) =
    if s = (t != sub) then (f.neg s + f.inf, 0) else (f.dnan, flNV) := by
  rw [Fmt.add, Fmt.withNan_of_none (by simp [f.inf_ne_nan]), f.unpack_inf, f.unpack_inf]

theorem Fmt.add_inf_finite (ha : f.Finite a) (sub s : Bool) :
    f.add rm sub (f.neg s + f.inf) a = (f.neg s + f.inf, 0) := by
  rw [Fmt.add, Fmt.withNan_of_none (by simp [f.inf_ne_nan, ha.ne_nan]), f.unpack_inf, f.unpack_finite ha]

theorem Fmt.add_finite_inf (ha : f.Finite a) (sub s : Bool) :
    f.add rm sub a (f.neg s + f.inf) = (f.neg (s != sub) + f.inf, 0) := by
  rw [Fmt.add, Fmt.withNan_of_none (by simp [f.inf_ne_nan, ha.ne_nan]), f.unpack_inf, f.unpack_finite ha]

theorem Fmt.mul_inf_finite (ha : f.Finite a) (s : Bool) : f.mul rm (f.neg s + f.inf) a =
    if f.sig a = 0 then (f.dnan, flNV) else (f.neg (s != f.sign a) + f.inf, 0) := by
  rw [Fmt.mul, Fmt.withNan_of_none (by simp [f.inf_ne_nan, ha.ne_nan]), f.unpack_inf, f.unpack_finite ha]

theorem Fmt.mul_finite_inf (ha : f.Finite a) (s : Bool) : f.mul rm a (f.neg s + f.inf) =
    if f.sig a = 0 then (f.dnan, flNV) else (f.neg (s != f.sign a) + f.inf, 0) := by
  rw [Fmt.mul, Fmt.withNan_of_none (by simp [f.inf_ne_nan, ha.ne_nan]), f.unpack_inf, f.unpack_finite ha,
    bne_comm (a := s)]

/-! ### The instructions -/

variable {i : Instr}

/-- A word whose meaning is the one asked for. -/
theorem yields_of_exec {k : Here → List LaneIn → List LaneOut} (hex : ∀ s, exec i s = vecExec i k s) : Yields i k :=
  yields_of_reads hex fun _ _ _ _ _ => rfl

/-- Settles O20: the instructions run the model's operations, and each operation is the exact result rounded once. -/
theorem floatArithmetic : Obligations.FloatArithmetic := by
  refine ⟨fun d a b c nb nc r conv => ?_, fun rm => ?_, fun f hmem rm a b c ha hb hc => ?_⟩
  · exact ⟨yields_of_exec fun _ => rfl, yields_of_exec fun _ => rfl, yields_of_exec fun _ => rfl,
      yields_of_exec fun _ => rfl, yields_of_exec fun _ => rfl, yields_of_exec fun _ => rfl,
      yields_of_exec fun _ => rfl, yields_of_exec fun _ => rfl, yields_of_exec fun _ => rfl,
      yields_of_exec fun _ => rfl, yields_of_exec fun _ => rfl, yields_of_exec fun _ => rfl,
      fun _ => yields_of_exec fun _ => rfl, yields_of_exec fun _ => rfl, yields_of_exec fun _ => rfl,
      yields_of_exec fun _ => rfl⟩
  · exact ⟨rfl, rfl, rfl, rfl, rfl, rfl, rfl, rfl, rfl, rfl, rfl, rfl, rfl, rfl⟩
  · have hf := Fmt.ok_of_mem hmem
    refine ⟨(Fmt.add_spec rm hf ha hb).1, (Fmt.add_spec rm hf ha hb).2, (Fmt.sub_spec rm hf ha hb).1,
      (Fmt.sub_spec rm hf ha hb).2, (Fmt.mul_spec rm hf ha hb).1, (Fmt.mul_spec rm hf ha hb).2,
      (Fmt.fma_spec rm hf ha hb hc).1, (Fmt.fma_spec rm hf ha hb hc).2, fun h0 => ?_, fun h0 => ?_, ?_,
      fun n h0 => Fmt.ofInt_spec rm hf h0, fun d e hd he hne => ?_, fun s => ?_⟩
    · exact ⟨Fmt.rcp_spec rm hf ha h0, Fmt.scale_spec rm hf ha h0,
        Fmt.convert_spec rm (Fmt.ok_of_mem (by simp)) ha h0, Fmt.convert_fmt64 rm hf ha h0⟩
    · exact ⟨Fmt.sqrt_spec rm hf ha h0, Fmt.rsq_spec rm hf ha h0⟩
    · obtain ⟨hvalue, hsign, hflags⟩ := Fmt.integral_spec rm hf ha
      exact ⟨f.intOf rm a, f.integerOf_intOf rm a, hvalue, hsign, hflags,
        fun lo hi hlo hhi => Fmt.toInt_spec rm hf ha hlo hhi⟩
    · have hne := Fmt.unpack_ne_nan he hne
      exact ⟨Fmt.add_nan_left rm hd hne false, Fmt.add_nan_right rm hd hne false, Fmt.add_nan_left rm hd hne true,
        Fmt.add_nan_right rm hd hne true, Fmt.mul_nan_left rm hd hne, Fmt.mul_nan_right rm hd hne, Fmt.rcp_nan rm hd,
        Fmt.rsq_nan rm hd, Fmt.sqrt_nan rm hd, fun e' he' hne' =>
          have hne' := Fmt.unpack_ne_nan he' hne'
          ⟨Fmt.fma_nan_mid rm hd hne' ha, Fmt.fma_nan_first rm hd hne' ha⟩⟩
    · refine ⟨?_, ?_, Fmt.add_inf_finite rm ha false s, ?_, fun h0 => ?_, fun h0 => ?_⟩
      · rw [Fmt.add_inf_inf, if_neg (by cases s <;> decide)]
      · rw [Fmt.add_inf_inf, if_neg (by cases s <;> decide)]
      · rw [Fmt.add_finite_inf rm ha, Bool.bne_false]
      · have hsig := (f.value_eq_zero_iff a).mp h0
        rw [Fmt.mul_inf_finite rm ha, Fmt.mul_finite_inf rm ha, if_pos hsig]
        exact ⟨rfl, rfl⟩
      · have hsig := mt (f.value_eq_zero_iff a).mpr h0
        rw [Fmt.mul_inf_finite rm ha, Fmt.mul_finite_inf rm ha, if_neg hsig]
        exact ⟨rfl, rfl⟩

end Sys2Proof.Machine
end

section
/-!
The order of the values of an IEEE format, and its comparisons, minima and maxima (R134, R136).
-/

namespace Sys2Proof.Machine

open Sys2Proof

variable {f : Fmt} {a b : Nat}

/-! ### The order of patterns -/

/-- A pattern as a number in the order of the values: the magnitude bits under the sign. -/
def Fmt.order (f : Fmt) (b : Nat) : Int := sgn (f.sign b) (f.magOf b)

/-- The value at a place of that order. -/
def Fmt.valueAt (f : Fmt) (z : Int) : ℚ := (if z < 0 then -1 else 1) * f.mag z.natAbs

theorem Fmt.value_eq_valueAt (f : Fmt) (b : Nat) : f.value b = f.valueAt (f.order b) := by
  have hval : ∀ (s : Bool) (n : Nat), (if s then -1 else 1) * f.mag n = f.valueAt (sgn s n) := fun s n => by
    cases s
    · simp [Fmt.valueAt, sgn]
    · rcases Nat.eq_zero_or_pos n with rfl | hn
      · simp [Fmt.valueAt, sgn, f.mag_zero]
      · simp [Fmt.valueAt, sgn, hn]
  exact hval _ _

theorem Fmt.valueAt_strictMono (f : Fmt) : StrictMono f.valueAt := by
  intro y z h
  have hmono := f.mag_strictMono
  have hy := f.mag_nonneg y.natAbs
  have hz := f.mag_nonneg z.natAbs
  rw [Fmt.valueAt, Fmt.valueAt]
  by_cases hy0 : y < 0
  · rw [if_pos hy0]
    by_cases hz0 : z < 0
    · rw [if_pos hz0]
      linarith [hmono (by omega : z.natAbs < y.natAbs)]
    · rw [if_neg hz0]
      have hpos := hmono (by omega : 0 < y.natAbs)
      rw [f.mag_zero] at hpos
      linarith
  · rw [if_neg hy0, if_neg (by omega)]
    linarith [hmono (by omega : y.natAbs < z.natAbs)]

theorem Fmt.value_lt_iff (f : Fmt) (a b : Nat) : f.value a < f.value b ↔ f.order a < f.order b := by
  rw [f.value_eq_valueAt, f.value_eq_valueAt, f.valueAt_strictMono.lt_iff_lt]

theorem Fmt.value_le_iff (f : Fmt) (a b : Nat) : f.value a ≤ f.value b ↔ f.order a ≤ f.order b := by
  rw [f.value_eq_valueAt, f.value_eq_valueAt, f.valueAt_strictMono.le_iff_le]

theorem Fmt.value_eq_iff (f : Fmt) (a b : Nat) : f.value a = f.value b ↔ f.order a = f.order b := by
  rw [f.value_eq_valueAt, f.value_eq_valueAt, f.valueAt_strictMono.injective.eq_iff]

theorem Fmt.order_of_inf (h : f.magOf b = f.inf) : f.order b = sgn (f.sign b) f.inf := by
  rw [Fmt.order, h]

/-- Finite operands compare as their values scaled to one power of two. -/
theorem Fmt.finite_lt (f : Fmt) (a b : Nat) : (FVal.fin (f.sign a) (f.sig a) (f.exp a)).lt
    (.fin (f.sign b) (f.sig b) (f.exp b)) = decide (f.value a < f.value b) := by
  rw [FVal.lt]
  refine decide_eq_decide.mpr ?_
  rw [← Rat.cast_lt (K := ℝ), f.valueR_eq, f.valueR_eq, ← sgn_scale (f.sign a) (f.sig a) (min_le_left _ (f.exp b)),
    ← sgn_scale (f.sign b) (f.sig b) (min_le_right (f.exp a) _), mul_lt_mul_iff_left₀ (by positivity), Int.cast_lt]

/-- Against a greater magnitude its sign alone decides. -/
theorem sgn_lt_greater {p q : Nat} (h : p < q) (s t : Bool) : decide (sgn s p < sgn t q) = !t := by
  cases s <;> cases t <;> simp only [sgn, if_true, Bool.false_eq_true, if_false] <;> simp <;> omega

theorem greater_lt_sgn {p q : Nat} (h : p < q) (s t : Bool) : decide (sgn t q < sgn s p) = t := by
  cases s <;> cases t <;> simp [sgn] <;> omega

theorem sgn_lt_sgn_same {q : Nat} (h : 0 < q) (s t : Bool) : decide (sgn s q < sgn t q) = (s && !t) := by
  cases s <;> cases t <;> simp [sgn] <;> omega

/-- The model's comparison of two patterns that are no NaN is that of their places in the order. -/
theorem Fmt.unpack_lt (hf : f.Ok) (ha : f.Finite a ∨ f.magOf a = f.inf) (hb : f.Finite b ∨ f.magOf b = f.inf) :
    (f.unpack a).lt (f.unpack b) = decide (f.order a < f.order b) := by
  rcases ha with ha | ha <;> rcases hb with hb | hb
  · rw [f.unpack_finite ha, f.unpack_finite hb, f.finite_lt]
    exact decide_eq_decide.mpr (f.value_lt_iff a b)
  · rw [f.unpack_finite ha, f.unpack_of_magOf_inf hb, Fmt.order_of_inf hb, Fmt.order, sgn_lt_greater ha.2]
    rfl
  · rw [f.unpack_of_magOf_inf ha, f.unpack_finite hb, Fmt.order_of_inf ha, Fmt.order, greater_lt_sgn hb.2]
    rfl
  · rw [f.unpack_of_magOf_inf ha, f.unpack_of_magOf_inf hb, Fmt.order_of_inf ha, Fmt.order_of_inf hb,
      sgn_lt_sgn_same hf.inf_pos]
    rfl

theorem Fmt.finite_or_inf (hb : b < 2 ^ f.width) (h : ¬f.Nan b) : f.Finite b ∨ f.magOf b = f.inf :=
  (f.finite_or_nan_or_inf hb).imp_right fun h' => h'.resolve_left h

/-! ### Comparisons (R136) -/

/-- NV of a signalling NaN among two sources. -/
theorem Fmt.sigNV_pair (ha : a < 2 ^ f.width) (hb : b < 2 ^ f.width) : f.sigNV [a, b] =
    if f.Nan a ∧ Nat.testBit a (f.fb - 1) = false ∨ f.Nan b ∧ Nat.testBit b (f.fb - 1) = false then flNV else 0 := by
  have hsig : ∀ c, c < 2 ^ f.width → (f.unpack c = .nan true ↔ f.Nan c ∧ Nat.testBit c (f.fb - 1) = false) := by
    intro c hc
    by_cases hn : f.Nan c
    · rw [f.unpack_nan hn, FVal.nan.injEq, Bool.not_eq_true', and_iff_right hn]
    · exact iff_of_false (f.unpack_ne_nan hc hn true) fun h => hn h.1
  rw [Fmt.sigNV]
  refine if_congr ?_ rfl rfl
  rw [← hsig a ha, ← hsig b hb]
  simp

theorem Fmt.firstNan_pair (ha : a < 2 ^ f.width) (hb : b < 2 ^ f.width) :
    (f.firstNan [a, b]).isSome = true ↔ f.Nan a ∨ f.Nan b := by
  have hnan : ∀ c, c < 2 ^ f.width →
      ((match f.unpack c with | .nan _ => true | _ => false) = true ↔ f.Nan c) := by
    intro c hc
    by_cases hn : f.Nan c
    · rw [f.unpack_nan hn]
      exact iff_of_true rfl hn
    · refine iff_of_false (fun h => ?_) hn
      have hne := f.unpack_ne_nan hc hn
      cases hu : f.unpack c with
      | nan sig => exact hne sig hu
      | _ =>
        rw [hu] at h
        exact Bool.false_ne_true h
  rw [Fmt.firstNan, List.find?_isSome]
  simp only [List.mem_cons, List.not_mem_nil, or_false, exists_eq_or_imp, exists_eq_left]
  exact or_congr (hnan a ha) (hnan b hb)

theorem Fmt.cmp_nan (ha : a < 2 ^ f.width) (hb : b < 2 ^ f.width) (h : f.Nan a ∨ f.Nan b) (cc : Nat) :
    f.cmp cc a b = (cc == 3, if cc = 1 ∨ cc = 2 then flNV else f.sigNV [a, b]) := by
  obtain ⟨c, hc⟩ := Option.isSome_iff_exists.mp ((Fmt.firstNan_pair ha hb).mpr h)
  rw [Fmt.cmp, hc]

theorem Fmt.cmp_num (hf : f.Ok) (ha : a < 2 ^ f.width) (hb : b < 2 ^ f.width) (hna : ¬f.Nan a) (hnb : ¬f.Nan b) :
    f.cmp 0 a b = (decide (f.order a = f.order b), 0) ∧ f.cmp 1 a b = (decide (f.order a < f.order b), 0) ∧
    f.cmp 2 a b = (decide (f.order a ≤ f.order b), 0) ∧ f.cmp 3 a b = (false, 0) := by
  have hnone : f.firstNan [a, b] = none := by
    rw [← Option.not_isSome_iff_eq_none, Fmt.firstNan_pair ha hb]
    exact not_or.mpr ⟨hna, hnb⟩
  have hlt := Fmt.unpack_lt hf (Fmt.finite_or_inf ha hna) (Fmt.finite_or_inf hb hnb)
  have hgt := Fmt.unpack_lt hf (Fmt.finite_or_inf hb hnb) (Fmt.finite_or_inf ha hna)
  have heq : (!decide (f.order a < f.order b) && !decide (f.order b < f.order a)) =
      decide (f.order a = f.order b) := by
    rw [← decide_not, ← decide_not, ← Bool.decide_and]
    exact decide_eq_decide.mpr (by omega)
  have hle : (!decide (f.order b < f.order a)) = decide (f.order a ≤ f.order b) := by
    rw [← decide_not]
    exact decide_eq_decide.mpr (by omega)
  refine ⟨?_, ?_, ?_, ?_⟩
  · rw [Fmt.cmp, hnone, hlt, hgt, ← heq]
    rfl
  · rw [Fmt.cmp, hnone, hlt]
    rfl
  · rw [Fmt.cmp, hnone, hgt, ← hle]
    rfl
  · rw [Fmt.cmp, hnone]
    rfl

/-! ### Minima and maxima (R134) -/

theorem Fmt.minMax_num (hf : f.Ok) (ha : a < 2 ^ f.width) (hb : b < 2 ^ f.width) (hna : ¬f.Nan a) (hnb : ¬f.Nan b)
    (isMax : Bool) : f.minMax isMax a b =
      (if (decide (f.order a < f.order b) || (!decide (f.order b < f.order a) && f.sign a && !f.sign b)) != isMax
        then a else b, 0) := by
  have hlt := Fmt.unpack_lt hf (Fmt.finite_or_inf ha hna) (Fmt.finite_or_inf hb hnb)
  have hgt := Fmt.unpack_lt hf (Fmt.finite_or_inf hb hnb) (Fmt.finite_or_inf ha hna)
  have hnv : f.sigNV [a, b] = 0 := by
    rw [Fmt.sigNV_pair ha hb, if_neg]
    exact not_or.mpr ⟨fun h => hna h.1, fun h => hnb h.1⟩
  have hnea := f.unpack_ne_nan ha hna
  have hneb := f.unpack_ne_nan hb hnb
  rw [← hlt, ← hgt, ← hnv]
  cases hua : f.unpack a with
  | nan sig => exact absurd hua (hnea sig)
  | _ =>
    cases hub : f.unpack b with
    | nan sig => exact absurd hub (hneb sig)
    | _ =>
      rw [Fmt.minMax, hua, hub]
      rfl

theorem Fmt.minMax_nan (ha : a < 2 ^ f.width) (hb : b < 2 ^ f.width) (h : f.Nan a ∨ f.Nan b) (isMax : Bool) :
    f.minMax isMax a b = (if ¬f.Nan a then a else if ¬f.Nan b then b else f.dnan, f.sigNV [a, b]) := by
  by_cases hna : f.Nan a
  · by_cases hnb : f.Nan b
    · rw [Fmt.minMax, f.unpack_nan hna, f.unpack_nan hnb, if_neg (not_not.mpr hna), if_neg (not_not.mpr hnb)]
    · have hneb := f.unpack_ne_nan hb hnb
      rw [Fmt.minMax, f.unpack_nan hna, if_neg (not_not.mpr hna), if_pos hnb]
      cases hub : f.unpack b with
      | nan sig => exact absurd hub (hneb sig)
      | _ => rfl
  · have hnb := h.resolve_left hna
    have hnea := f.unpack_ne_nan ha hna
    rw [Fmt.minMax, f.unpack_nan hnb, if_pos hna]
    cases hua : f.unpack a with
    | nan sig => exact absurd hua (hnea sig)
    | _ => rfl

end Sys2Proof.Machine
end

section
/-!
f32 words as patterns of their format, with their minima, comparisons, classes and keys (R134, R136, R141, R146), `TCMP`
(R145), and the statement of O19.
-/

namespace Sys2Proof.Machine

open Sys2Proof

variable {x y v w : Word}

/-! ### f32 words -/

theorem fmt32_ok : fmt32.Ok := Fmt.ok_of_mem (by simp)

theorem fmt64_ok : fmt64.Ok := Fmt.ok_of_mem (by simp)

theorem fmt32_sign (w : Word) : fmt32.sign w.toNat = w.getLsbD 31 := rfl

theorem fmt32_order (w : Word) : fmt32.order w.toNat = f32Order w := rfl

theorem fmt32_nan_iff (w : Word) : fmt32.Nan w.toNat ↔ f32IsNan w = true := by
  have hlt := w.isLt
  have hnan : fmt32.Nan w.toNat ↔ 255 * 2 ^ 23 < w.toNat % 2 ^ 31 := and_iff_right hlt
  rw [hnan, f32IsNan, Bool.and_eq_true, beq_iff_eq, bne_iff_ne, ne_eq, ← BitVec.toNat_inj, ← BitVec.toNat_inj,
    toNat_extractLsb'_eq_nbits, toNat_extractLsb'_eq_nbits, show (255 : BitVec 8).toNat = 255 from rfl,
    show (0 : BitVec 23).toNat = 0 from rfl]
  simp only [nbits]
  omega

theorem fmt32_signalling_iff (w : Word) :
    fmt32.Nan w.toNat ∧ Nat.testBit w.toNat (fmt32.fb - 1) = false ↔ f32IsSignalling w = true := by
  rw [fmt32_nan_iff, f32IsSignalling, Bool.and_eq_true, Bool.not_eq_true']
  rfl

theorem fmt32_sigNV (x y : Word) : fmt32.sigNV [x.toNat, y.toNat] =
    if f32IsSignalling x || f32IsSignalling y then 1 else 0 := by
  rw [Fmt.sigNV_pair x.isLt y.isLt]
  refine if_congr ?_ rfl rfl
  rw [fmt32_signalling_iff, fmt32_signalling_iff, Bool.or_eq_true]

/-- Words of one sign and one place in the order are the same. -/
theorem eq_of_f32Order_eq (h : f32Order x = f32Order y) (hs : x.getLsbD 31 = y.getLsbD 31) : x = y := by
  have hx := x.isLt
  have hy := y.isLt
  have hbit : ∀ w : Word, w.getLsbD 31 = decide (2 ^ 31 ≤ w.toNat) := fun w => by
    rw [← BitVec.msb_eq_getLsbD_last, BitVec.msb_eq_decide]
  refine BitVec.eq_of_toNat_eq ?_
  rw [f32Order, f32Order, hs] at h
  rw [hbit, hbit, decide_eq_decide] at hs
  cases hy31 : y.getLsbD 31
  · rw [hy31] at h
    simp only [Bool.false_eq_true, if_false] at h
    omega
  · rw [hy31] at h
    simp only [if_true] at h
    omega

/-- The lesser of two f32 words that are no NaN, −0 below +0 (R134). -/
abbrev f32Less (x y : Word) : Prop := f32Order x < f32Order y ∨ f32Order x = f32Order y ∧ x.getLsbD 31 = true

/-- `FMIN` and `FMAX` as words and flags. -/
def f32MinMax (isMax : Bool) (x y : Word) : Word × BitVec 6 :=
  (BitVec.ofNat 32 (fmt32.minMax isMax x.toNat y.toNat).1, (fmt32.minMax isMax x.toNat y.toNat).2)

theorem ofNat_ite_toNat (p : Prop) [Decidable p] (x y : Word) :
    BitVec.ofNat 32 (if p then x.toNat else y.toNat) = if p then x else y := by
  split <;> rw [BitVec.ofNat_toNat, BitVec.setWidth_eq]

/-- The model's test for the lesser word chooses as the rule's does. -/
theorem ite_less (x y : Word) (isMax : Bool) : (if (decide (f32Order x < f32Order y) ||
    (!decide (f32Order y < f32Order x) && x.getLsbD 31 && !y.getLsbD 31)) != isMax then x else y) =
    if decide (f32Less x y) != isMax then x else y := by
  by_cases hsame : f32Order x = f32Order y ∧ x.getLsbD 31 = y.getLsbD 31
  · rw [eq_of_f32Order_eq hsame.1 hsame.2, ite_self, ite_self]
  · have hless : (decide (f32Order x < f32Order y) ||
        (!decide (f32Order y < f32Order x) && x.getLsbD 31 && !y.getLsbD 31)) = decide (f32Less x y) := by
      rcases lt_trichotomy (f32Order x) (f32Order y) with h | h | h
      · rw [decide_eq_true h, decide_eq_true (show f32Less x y from .inl h), Bool.true_or]
      · have hne := fun hs => hsame ⟨h, hs⟩
        simp only [f32Less, h, lt_irrefl, decide_false, Bool.false_or, Bool.not_false, Bool.true_and, false_or,
          true_and]
        cases hx : x.getLsbD 31
        · rfl
        · cases hy : y.getLsbD 31
          · rfl
          · exact absurd (hx.trans hy.symm) hne
      · have hnot : ¬f32Less x y := not_or.mpr ⟨h.not_gt, fun he => h.ne' he.1⟩
        rw [decide_eq_false h.not_gt, decide_eq_true h, decide_eq_false hnot]
        rfl
    rw [hless]

theorem fmt32_not_nan (h : f32IsNan w = false) : ¬fmt32.Nan w.toNat := by
  rw [fmt32_nan_iff, h]
  exact Bool.false_ne_true

theorem f32MinMax_num (hx : f32IsNan x = false) (hy : f32IsNan y = false) (isMax : Bool) :
    f32MinMax isMax x y = (if decide (f32Less x y) != isMax then x else y, 0) := by
  have hnum := Fmt.minMax_num fmt32_ok x.isLt y.isLt (fmt32_not_nan hx) (fmt32_not_nan hy) isMax
  rw [fmt32_order, fmt32_order, fmt32_sign, fmt32_sign] at hnum
  rw [f32MinMax, hnum, ofNat_ite_toNat, ite_less]

theorem f32MinMax_min (hx : f32IsNan x = false) (hy : f32IsNan y = false) :
    f32MinMax false x y = (if f32Less x y then x else y, 0) := by
  rw [f32MinMax_num hx hy, Bool.bne_false]
  simp only [decide_eq_true_eq]

theorem f32MinMax_max (hx : f32IsNan x = false) (hy : f32IsNan y = false) :
    f32MinMax true x y = (if f32Less x y then y else x, 0) := by
  rw [f32MinMax_num hx hy, Bool.bne_true, ← decide_not]
  simp only [decide_eq_true_eq, ite_not]

theorem f32MinMax_nan (h : f32IsNan x = true ∨ f32IsNan y = true) (isMax : Bool) : f32MinMax isMax x y =
    (if f32IsNan x = false then x else if f32IsNan y = false then y else 0x7FC00000,
      if f32IsSignalling x || f32IsSignalling y then 1 else 0) := by
  rw [← fmt32_nan_iff, ← fmt32_nan_iff] at h
  rw [f32MinMax, Fmt.minMax_nan x.isLt y.isLt h, fmt32_sigNV]
  simp only [fmt32_nan_iff, Bool.not_eq_true]
  rw [Prod.mk.injEq, and_iff_left rfl]
  split
  · rw [BitVec.ofNat_toNat, BitVec.setWidth_eq]
  · split
    · rw [BitVec.ofNat_toNat, BitVec.setWidth_eq]
    · rfl

/-- A minimum or a maximum is one of 32 bits. -/
theorem minMax_lt (x y : Word) (isMax : Bool) : (fmt32.minMax isMax x.toNat y.toNat).1 < 2 ^ 32 := by
  have hx := x.isLt
  have hy := y.isLt
  have hd : fmt32.dnan < 2 ^ 32 := by decide
  by_cases h : fmt32.Nan x.toNat ∨ fmt32.Nan y.toNat
  · rw [Fmt.minMax_nan hx hy h]
    split
    · exact hx
    · split
      · exact hy
      · exact hd
  · obtain ⟨hnx, hny⟩ := not_or.mp h
    rw [Fmt.minMax_num fmt32_ok hx hy hnx hny]
    split
    · exact hx
    · exact hy

theorem outF_minMax (x y : Word) (isMax : Bool) : outF (fmt32.minMax isMax x.toNat y.toNat) =
    { val := (f32MinMax isMax x y).1.setWidth 64, fl := (f32MinMax isMax x y).2 } := by
  have hlt := minMax_lt x y isMax
  have hval : BitVec.ofNat 64 (fmt32.minMax isMax x.toNat y.toNat).1 = (f32MinMax isMax x y).1.setWidth 64 := by
    refine BitVec.eq_of_toNat_eq ?_
    rw [f32MinMax, BitVec.toNat_setWidth, BitVec.toNat_ofNat, BitVec.toNat_ofNat, Nat.mod_eq_of_lt hlt]
  rw [outF, hval]
  rfl

/-- `FCMP` as words. -/
def f32Cmp (cc : BitVec 2) (x y : Word) : Bool × BitVec 6 := fmt32.cmp cc.toNat x.toNat y.toNat

theorem f32Cmp_num (hx : f32IsNan x = false) (hy : f32IsNan y = false) :
    f32Cmp 0 x y = (decide (f32Order x = f32Order y), 0) ∧ f32Cmp 1 x y = (decide (f32Order x < f32Order y), 0) ∧
    f32Cmp 2 x y = (decide (f32Order x ≤ f32Order y), 0) ∧ f32Cmp 3 x y = (false, 0) :=
  Fmt.cmp_num fmt32_ok x.isLt y.isLt (fmt32_not_nan hx) (fmt32_not_nan hy)

theorem f32Cmp_nan (h : f32IsNan x = true ∨ f32IsNan y = true) :
    let nv : BitVec 6 := if f32IsSignalling x || f32IsSignalling y then 1 else 0
    f32Cmp 0 x y = (false, nv) ∧ f32Cmp 1 x y = (false, 1) ∧ f32Cmp 2 x y = (false, 1) ∧ f32Cmp 3 x y = (true, nv) := by
  rw [← fmt32_nan_iff, ← fmt32_nan_iff] at h
  have hcmp := fun cc => Fmt.cmp_nan x.isLt y.isLt h cc
  rw [fmt32_sigNV] at hcmp
  exact ⟨hcmp 0, hcmp 1, hcmp 2, hcmp 3⟩

/-! ### Classes and keys (R141, R146) -/

theorem classF32_eq (w : Word) :
    let s := w.getLsbD 31
    let e := (w.extractLsb' 23 8).toNat
    let m := (w.extractLsb' 0 23).toNat
    classF32 w.toNat = BitVec.ofNat 32 (2 ^ (
      if e = 255 then (if m = 0 then (if s then 0 else 7) else if w.getLsbD 22 then 9 else 8)
      else if e = 0 then (if m = 0 then (if s then 3 else 4) else (if s then 2 else 5))
      else if s then 1 else 6)) := by
  intro s e m
  have hs : Nat.testBit w.toNat (8 + 23) = s := rfl
  have hq : Nat.testBit w.toNat (23 - 1) = w.getLsbD 22 := rfl
  have he : nbits w.toNat 23 8 = e := (toNat_extractLsb'_eq_nbits w 23 8).symm
  have hm : nbits w.toNat 0 23 = m := (toNat_extractLsb'_eq_nbits w 0 23).symm
  have hmlt : m < 2 ^ 23 := (w.extractLsb' 0 23).isLt
  have hunpack : fmt32.unpack w.toNat = if e = 255 then if m = 0 then .inf s else .nan (!w.getLsbD 22)
      else if e = 0 then .fin s m (1 - fmt32.bias - 23) else .fin s (m + 2 ^ 23) (e - fmt32.bias - 23) := by
    simp only [Fmt.unpack, hs, hq, he, hm] <;> rfl
  rw [classF32, hunpack]
  by_cases he255 : e = 255
  · rw [if_pos he255, if_pos he255]
    by_cases hm0 : m = 0
    · rw [if_pos hm0, if_pos hm0]
      cases s <;> rfl
    · rw [if_neg hm0, if_neg hm0]
      cases w.getLsbD 22 <;> rfl
  · rw [if_neg he255, if_neg he255]
    by_cases he0 : e = 0
    · rw [if_pos he0, if_pos he0]
      dsimp only
      by_cases hm0 : m = 0
      · rw [if_pos hm0, if_pos hm0]
        cases s <;> rfl
      · rw [if_neg hm0, if_neg hm0, if_pos hmlt]
        cases s <;> rfl
    · rw [if_neg he0, if_neg he0]
      dsimp only
      rw [if_neg (by omega), if_neg (by omega)]
      cases s <;> rfl

theorem keyF32_nan (h : f32IsNan w = true) : keyF32 w = 0 := by
  rw [keyF32, Fmt.unpack_nan ((fmt32_nan_iff w).mpr h)]

/-- The key of a word that is no NaN: its place in the order, the words below +0 one lower. -/
theorem keyF32_toNat (h : f32IsNan w = false) :
    ((keyF32 w).toNat : Int) = 2 ^ 31 + f32Order w - (if w.getLsbD 31 then 1 else 0) := by
  have hlt := w.isLt
  have hne := fmt32.unpack_ne_nan w.isLt (fmt32_not_nan h)
  have hkey : keyF32 w = if w.getLsbD 31 then ~~~w else w ||| 0x80000000 := by
    rw [keyF32]
    cases hu : fmt32.unpack w.toNat with
    | nan sig => exact absurd hu (hne sig)
    | _ => rfl
  have hbit : w.getLsbD 31 = decide (2 ^ 31 ≤ w.toNat) := by
    rw [← BitVec.msb_eq_getLsbD_last, BitVec.msb_eq_decide]
  rw [hkey, f32Order]
  cases hs : w.getLsbD 31
  · rw [hs, eq_comm, decide_eq_false_iff_not] at hbit
    have hor : (w ||| 0x80000000).toNat = 2 ^ 31 + w.toNat := by
      rw [BitVec.toNat_or, Nat.or_comm]
      exact (Nat.two_pow_add_eq_or_of_lt (by omega : w.toNat < 2 ^ 31) 1).symm.trans (by rw [Nat.mul_one])
    simp only [Bool.false_eq_true, if_false]
    rw [hor]
    omega
  · rw [hs, eq_comm, decide_eq_true_iff] at hbit
    simp only [if_true]
    rw [BitVec.toNat_not]
    omega

/-- Words with a sign stand at or below zero, the others at or above. -/
theorem f32Order_sign (w : Word) : if w.getLsbD 31 then f32Order w ≤ 0 else 0 ≤ f32Order w := by
  rw [f32Order]
  split <;> omega

theorem keyF32_lt_iff (hv : f32IsNan v = false) (hw : f32IsNan w = false) : (keyF32 v).toNat < (keyF32 w).toNat ↔
    f32Order v < f32Order w ∨ (f32Order v = f32Order w ∧ v.getLsbD 31 = true ∧ w.getLsbD 31 = false) := by
  have hkv := keyF32_toNat hv
  have hkw := keyF32_toNat hw
  have hov := f32Order_sign v
  have how := f32Order_sign w
  cases hsv : v.getLsbD 31 <;> cases hsw : w.getLsbD 31 <;>
    simp only [hsv, hsw, if_true, Bool.false_eq_true, if_false, and_false, and_self, and_true, or_false,
      reduceCtorEq] at hkv hkw hov how ⊢ <;> omega

theorem keyF32_pos (h : f32IsNan w = false) : 0 < (keyF32 w).toNat := by
  have hk := keyF32_toNat h
  have hmag := (Fmt.finite_or_inf w.isLt (fmt32_not_nan h))
  have hle : w.toNat % 2 ^ 31 ≤ 255 * 2 ^ 23 := hmag.elim (fun h => h.2.le) fun h => h.le
  rw [f32Order] at hk
  cases hs : w.getLsbD 31
  · simp only [hs, Bool.false_eq_true, if_false] at hk
    omega
  · simp only [hs, if_true] at hk
    omega

/-! ### The statement -/

/-! `TCMP` compares words as signed numbers, and tells NaR (R145). -/

theorem tcmpVal_eq (x y : Word) : tcmpVal 0 x y = decide (x.toInt = y.toInt) :=
  decide_eq_decide.mpr BitVec.toInt_inj.symm

theorem tcmpVal_lt (x y : Word) : tcmpVal 1 x y = decide (x.toInt < y.toInt) := rfl

theorem tcmpVal_le (x y : Word) : tcmpVal 2 x y = decide (x.toInt ≤ y.toInt) := by
  have hle : tcmpVal 2 x y = !decide (y.toInt < x.toInt) := rfl
  rw [hle, ← decide_not]
  exact decide_eq_decide.mpr not_lt

theorem tcmpVal_nar (x y : Word) : tcmpVal 3 x y = decide (x = 0x80000000) := rfl

/-- Settles O19: the order of the patterns is that of the values, and the model compares in it. -/
theorem floatComparesClassesAndKeys : Obligations.FloatComparesClassesAndKeys := by
  refine ⟨⟨f32MinMax false, f32MinMax true, f32Cmp, fun x y hx hy => ?_, fun x y h => ?_, fun d a b pd => ?_⟩,
    fun x y hx hy => ⟨fun hnx hny => ?_, fun h => ?_⟩, fun w => classF32 w.toNat, keyF32, classF32_eq,
    fun w => keyF32_nan, fun v w => keyF32_lt_iff, fun w => keyF32_pos, fun d a =>
      ⟨yields_of_exec fun _ => rfl, yields_of_exec fun _ => rfl⟩⟩
  · obtain ⟨h0, h1, h2, h3⟩ := f32Cmp_num hx hy
    exact ⟨f32MinMax_min hx hy, f32MinMax_max hx hy, h0, h1, h2, h3⟩
  · obtain ⟨h0, h1, h2, h3⟩ := f32Cmp_nan h
    have hmin := f32MinMax_nan h false
    have hmax := f32MinMax_nan h true
    exact ⟨congrArg Prod.snd hmin, congrArg Prod.snd hmax, congrArg Prod.fst hmin, congrArg Prod.fst hmax, h0, h1, h2,
      h3⟩
  · exact ⟨yields_each (fun _ => rfl) fun _ => outF_minMax _ _ false,
      yields_each (fun _ => rfl) fun _ => outF_minMax _ _ true, fun _ => yields_of_exec fun _ => rfl,
      fun _ => yields_of_exec fun _ => rfl, yields_outP (fun _ => rfl) fun _ => tcmpVal_eq _ _,
      yields_outP (fun _ => rfl) fun _ => tcmpVal_lt _ _, yields_outP (fun _ => rfl) fun _ => tcmpVal_le _ _,
      yields_outP (fun _ => rfl) fun _ => tcmpVal_nar _ _⟩
  · obtain ⟨h0, h1, h2, h3⟩ := Fmt.cmp_num fmt64_ok hx hy hnx hny
    exact ⟨h0.trans (Prod.ext (decide_eq_decide.mpr (fmt64.value_eq_iff x y).symm) rfl),
      h1.trans (Prod.ext (decide_eq_decide.mpr (fmt64.value_lt_iff x y).symm) rfl),
      h2.trans (Prod.ext (decide_eq_decide.mpr (fmt64.value_le_iff x y).symm) rfl), h3⟩
  · have hcmp := fun cc => Fmt.cmp_nan hx hy h cc
    rw [Fmt.sigNV_pair hx hy] at hcmp
    exact ⟨hcmp 0, hcmp 1, hcmp 2, hcmp 3⟩

end Sys2Proof.Machine
end

section
/-!
Tapered words in the order of their values (R122, R123): the place of a word among all words, and its value, are both
functions of its regime and of the fraction after it, each linear from one regime, or one power of two, to the next.
-/

namespace Sys2Proof.Machine

open Sys2Proof

/-! ### Linear interpolation -/

/-- What takes the value `c k` at each integer and is linear in between. -/
noncomputable def interp (c : Int → ℝ) (z : ℝ) : ℝ := c ⌊z⌋ + Int.fract z * (c (⌊z⌋ + 1) - c ⌊z⌋)

theorem interp_add (c : Int → ℝ) (k : Int) {y : ℝ} (h0 : 0 ≤ y) (h1 : y < 1) :
    interp c (k + y) = c k + y * (c (k + 1) - c k) := by
  have hfloor : ⌊(k : ℝ) + y⌋ = k := Int.floor_eq_iff.mpr ⟨by linarith, by linarith⟩
  rw [interp, Int.fract, hfloor, add_sub_cancel_left]

theorem interp_intCast (c : Int → ℝ) (k : Int) : interp c k = c k := by
  have h := interp_add c k le_rfl one_pos
  rwa [add_zero, zero_mul, add_zero] at h

theorem interp_strictMono {c : Int → ℝ} (hc : StrictMono c) : StrictMono (interp c) := by
  intro y z h
  have hy := Int.fract_lt_one y
  have hz := Int.fract_nonneg z
  have hslope : ∀ k, 0 < c (k + 1) - c k := fun k => sub_pos.mpr (hc (Int.lt_succ k))
  rcases (Int.floor_le_floor h.le).eq_or_lt with heq | hlt
  · have hfract : Int.fract y < Int.fract z := by
      rw [Int.fract, Int.fract, heq]
      linarith
    rw [interp, interp, heq]
    linarith [mul_lt_mul_of_pos_right hfract (hslope ⌊z⌋)]
  · have h1 : interp c y < c (⌊y⌋ + 1) := by
      rw [interp]
      linarith [mul_lt_mul_of_pos_right hy (hslope ⌊y⌋)]
    have h2 : c (⌊y⌋ + 1) ≤ c ⌊z⌋ := hc.monotone hlt
    have h3 : c ⌊z⌋ ≤ interp c z := by
      rw [interp]
      linarith [mul_nonneg hz (hslope ⌊z⌋).le]
    linarith

/-! ### Powers of two and regimes -/

/-- The powers of two with linear steps in between: 2^t × (1 + g) at t + g. -/
noncomputable def linExp : ℝ → ℝ := interp fun k => (2 : ℝ) ^ k

theorem linExp_strictMono : StrictMono linExp := interp_strictMono (zpow_right_strictMono₀ one_lt_two)

theorem linExp_add (k : Int) {y : ℝ} (h0 : 0 ≤ y) (h1 : y < 1) : linExp (k + y) = 2 ^ k * (1 + y) := by
  rw [linExp, interp_add _ k h0 h1, zpow_add_one₀ two_ne_zero]
  ring

/-- The bits of a regime and their number (R123). -/
def regime (k : Int) : Nat × Nat := if 0 ≤ k then (2 ^ (k.toNat + 2) - 2, k.toNat + 2) else (1, (-k).toNat + 1)

/-- Where the words of a regime begin among all words. -/
noncomputable def regimeStart (k : Int) : ℝ := (regime k).1 / 2 ^ (regime k).2

theorem regimeStart_of_nonneg (k : Nat) : regimeStart k = 1 - 1 / 2 ^ (k + 1) := by
  have hge : 2 ≤ 2 ^ (k + 2) := by
    rw [pow_succ]
    have := Nat.two_pow_pos (k + 1)
    omega
  rw [regimeStart, regime, if_pos (Int.natCast_nonneg k), Int.toNat_natCast, Nat.cast_sub hge]
  push_cast
  rw [pow_succ (2 : ℝ) (k + 1)]
  field_simp

theorem regimeStart_of_neg (k : Nat) : regimeStart (-(k + 1 : Nat)) = 1 / 2 ^ (k + 2) := by
  rw [regimeStart, regime, if_neg (by omega), neg_neg, Int.toNat_natCast, Nat.cast_one]

/-- A regime's words fill the place up to the next regime. -/
theorem regimeStart_succ (k : Int) : regimeStart (k + 1) = regimeStart k + 1 / 2 ^ (regime k).2 := by
  rcases le_or_gt 0 k with hk | hk
  · obtain ⟨n, rfl⟩ := Int.eq_ofNat_of_zero_le hk
    have hlen : (regime n).2 = n + 2 := by rw [regime, if_pos hk]; rfl
    rw [hlen, ← Nat.cast_succ, regimeStart_of_nonneg, regimeStart_of_nonneg, Nat.succ_eq_add_one,
      pow_succ (2 : ℝ) (n + 1)]
    field_simp
    ring
  · obtain ⟨n, rfl⟩ : ∃ n : Nat, k = -(n + 1 : Nat) := ⟨(-k - 1).toNat, by omega⟩
    have hlen : (regime (-(n + 1 : Nat))).2 = n + 2 := by
      rw [regime, if_neg (by omega), neg_neg, Int.toNat_natCast]
    rw [hlen, regimeStart_of_neg]
    cases n with
    | zero =>
      have h0 : (-((0 + 1 : Nat) : Int) + 1) = ((0 : Nat) : Int) := rfl
      rw [h0, regimeStart_of_nonneg]
      norm_num
    | succ n =>
      have hsucc : (-((n + 1 + 1 : Nat) : Int) + 1) = -((n + 1 : Nat) : Int) := by push_cast; ring
      rw [hsucc, regimeStart_of_neg, pow_succ (2 : ℝ) (n + 2)]
      field_simp
      ring

theorem regimeStart_strictMono : StrictMono regimeStart :=
  strictMono_int_of_lt_succ fun k => by
    rw [regimeStart_succ]
    linarith [(by positivity : (0 : ℝ) < 1 / 2 ^ (regime k).2)]

/-- Where a regime and the fraction after it stand among all words. -/
noncomputable def tapPlace : ℝ → ℝ := interp regimeStart

theorem tapPlace_strictMono : StrictMono tapPlace := interp_strictMono regimeStart_strictMono

theorem tapPlace_add (k : Int) {y : ℝ} (h0 : 0 ≤ y) (h1 : y < 1) :
    tapPlace (k + y) = ((regime k).1 + y) / 2 ^ (regime k).2 := by
  rw [tapPlace, interp_add _ k h0 h1, regimeStart_succ, regimeStart]
  ring

/-! ### The run of equal bits -/

theorem runLen_le (b : Nat) (r : Bool) (n : Nat) : runLen b r n ≤ n := by
  induction n with
  | zero => exact le_rfl
  | succ n ih =>
    rw [runLen]
    split <;> omega

/-- The run ends at the opposite bit, if there is one. -/
theorem testBit_after_run (b : Nat) (r : Bool) (n : Nat) (h : runLen b r n < n) :
    Nat.testBit b (n - runLen b r n - 1) = !r := by
  induction n with
  | zero => exact absurd h (Nat.not_lt_zero _)
  | succ n ih =>
    rw [runLen] at h ⊢
    split at h
    · rename_i hbit
      rw [if_pos hbit, show n + 1 - (runLen b r n + 1) - 1 = n - runLen b r n - 1 by omega]
      exact ih (by omega)
    · rename_i hbit
      rw [if_neg hbit, show n + 1 - 0 - 1 = n by omega]
      cases r <;> simpa using hbit

/-- A run of ones is the highest word of its length; a run of zeros is nothing. -/
theorem mod_run (b : Nat) (r : Bool) (n : Nat) : b % 2 ^ n =
    (if r then 2 ^ n - 2 ^ (n - runLen b r n) else 0) + b % 2 ^ (n - runLen b r n) := by
  induction n with
  | zero => cases r <;> simp [runLen]
  | succ n ih =>
    by_cases hbit : Nat.testBit b n = r
    · have hle : 2 ^ (n - runLen b r n) ≤ 2 ^ n := Nat.pow_le_pow_right (by decide) (Nat.sub_le _ _)
      rw [runLen, if_pos hbit, Nat.mod_pow_succ, ← Nat.toNat_testBit, hbit, ih, Nat.add_sub_add_right, pow_succ]
      cases r
      · simp
      · simp only [if_true, Bool.toNat_true]
        omega
    · rw [runLen, if_neg hbit, Nat.sub_zero, Nat.sub_self, ite_self, Nat.zero_add]

/-- The model's run is the manual's leading bits. -/
theorem takeWhile_length_eq_runLen (b : Nat) (r : Bool) (n : Nat) :
    ((List.range n).takeWhile fun i => Nat.testBit b (n - 1 - i) = r).length = runLen b r n := by
  induction n with
  | zero => rfl
  | succ n ih =>
    rw [List.range_succ_eq_map, List.takeWhile_cons, runLen]
    have hfirst : n + 1 - 1 - 0 = n := by omega
    have hshift : ((fun i => decide (Nat.testBit b (n + 1 - 1 - i) = r)) ∘ Nat.succ) =
        fun i => decide (Nat.testBit b (n - 1 - i) = r) := by
      funext i
      rw [Function.comp_apply, show n + 1 - 1 - i.succ = n - 1 - i by omega]
    rw [hfirst]
    by_cases hbit : Nat.testBit b n = r
    · rw [if_pos (decide_eq_true hbit), if_pos hbit, List.length_cons, List.takeWhile_map, List.length_map, hshift, ih]
    · rw [if_neg (by simpa using hbit), if_neg hbit, List.length_nil]

end Sys2Proof.Machine
end

section
/-!
The value of a tapered word by its place among all words (R122): its exponent and fraction bits as one fraction.
-/

namespace Sys2Proof.Machine

open Sys2Proof

variable {n b es p l : Nat}

/-! ### Bits after the regime -/

/-- Bit `i` of the binary fraction `p` / 2^l. -/
def fracBit (p l i : Nat) : Nat := (Nat.testBit (p * 2 ^ (i + 1)) l).toNat

/-- The first bits of a fraction are its quotient by their unit. -/
theorem fracBits_sum (hp : p < 2 ^ l) (k : Nat) : ((List.range k).map fun i => (fracBit p l i : ℚ) / 2 ^ (i + 1)).sum =
    (p * 2 ^ k / 2 ^ l : Nat) / 2 ^ k := by
  induction k with
  | zero => simp [Nat.div_eq_of_lt hp]
  | succ k ih =>
    have hhalf : p * 2 ^ (k + 1) / 2 ^ l / 2 = p * 2 ^ k / 2 ^ l := by
      rw [Nat.div_div_eq_div_mul, pow_succ, ← Nat.mul_assoc, Nat.mul_div_mul_right _ _ two_pos]
    have hbit : p * 2 ^ (k + 1) / 2 ^ l = 2 * (p * 2 ^ k / 2 ^ l) + fracBit p l k := by
      rw [fracBit, Nat.toNat_testBit, ← hhalf, Nat.div_add_mod]
    rw [List.range_succ, List.map_append, List.sum_append, ih, List.map_singleton, List.sum_singleton, hbit]
    push_cast
    rw [pow_succ]
    field_simp

/-- All bits of a fraction together are it. -/
theorem fracBits_sum_all (hp : p < 2 ^ l) {k : Nat} (h : l ≤ k) :
    ((List.range k).map fun i => (fracBit p l i : ℚ) / 2 ^ (i + 1)).sum = p / 2 ^ l := by
  obtain ⟨j, rfl⟩ := Nat.exists_eq_add_of_le h
  rw [fracBits_sum hp, pow_add, Nat.mul_comm (2 ^ l), ← Nat.mul_assoc, Nat.mul_div_cancel _ (Nat.two_pow_pos l)]
  push_cast
  rw [pow_add]
  field_simp

/-- The first bits as a whole number. -/
theorem fracBits_exponent (hp : p < 2 ^ l) (es : Nat) :
    ((List.range es).map fun i => fracBit p l i * 2 ^ (es - 1 - i)).sum = p * 2 ^ es / 2 ^ l := by
  have hscale : ∀ i ∈ List.range es, ((fracBit p l i * 2 ^ (es - 1 - i) : Nat) : ℚ) =
      2 ^ es * ((fracBit p l i : ℚ) / 2 ^ (i + 1)) := fun i hi => by
    have hsum : es = es - 1 - i + (i + 1) := by
      have := List.mem_range.mp hi
      omega
    conv_rhs => rw [hsum, pow_add]
    push_cast
    field_simp
  have hcast : ((((List.range es).map fun i => fracBit p l i * 2 ^ (es - 1 - i)).sum : Nat) : ℚ) =
      (p * 2 ^ es / 2 ^ l : Nat) := by
    rw [Nat.cast_list_sum, List.map_map, Function.comp_def, List.map_congr_left hscale, List.sum_map_mul_left,
      fracBits_sum hp, mul_div_cancel₀ _ (by positivity)]
  exact_mod_cast hcast

/-- The bits after the first ones as a fraction. -/
theorem fracBits_fraction (hp : p < 2 ^ l) (h : l ≤ es + n) :
    ((List.range n).map fun i => (fracBit p l (es + i) : ℚ) / 2 ^ (i + 1)).sum =
      2 ^ es * (p / 2 ^ l) - (p * 2 ^ es / 2 ^ l : Nat) := by
  have hall := fracBits_sum_all hp h
  have hscale : ∀ i ∈ List.range n, (fracBit p l (es + i) : ℚ) / 2 ^ (es + i + 1) =
      (1 / 2 ^ es) * ((fracBit p l (es + i) : ℚ) / 2 ^ (i + 1)) := fun i _ => by
    rw [Nat.add_assoc, pow_add]
    field_simp
  rw [List.range_add, List.map_append, List.sum_append, fracBits_sum hp, List.map_map, Function.comp_def,
    List.map_congr_left hscale, List.sum_map_mul_left] at hall
  rw [← hall]
  field_simp
  ring

/-! ### The place of a word -/

/-- The run of equal bits of a word, its regime, and the number of bits after it and the bit that ends it. -/
abbrev tapRun (n b : Nat) : Nat := runLen b (Nat.testBit b (n - 1)) n
abbrev tapRegime (n b : Nat) : Int := if Nat.testBit b (n - 1) then (tapRun n b : Int) - 1 else -(tapRun n b : Int)
abbrev tapTail (n b : Nat) : Nat := n - (tapRun n b + 1)

/-- The regime of a word and the fraction that its other bits are. -/
noncomputable def tapScale (n b : Nat) : ℝ := tapRegime n b + ((b % 2 ^ tapTail n b : Nat) : ℝ) / 2 ^ tapTail n b

theorem tail_fraction (l b : Nat) :
    (0 : ℝ) ≤ ((b % 2 ^ l : Nat) : ℝ) / 2 ^ l ∧ ((b % 2 ^ l : Nat) : ℝ) / 2 ^ l < 1 := by
  have hlt : ((b % 2 ^ l : Nat) : ℝ) < (2 ^ l : Nat) := Nat.cast_lt.mpr (Nat.mod_lt _ (Nat.two_pow_pos l))
  push_cast at hlt
  exact ⟨by positivity, (div_lt_one (by positivity)).mpr hlt⟩

theorem tapRun_pos (hb : 0 < b) (hn : b < 2 ^ n) : 0 < tapRun n b := by
  cases n with
  | zero => rw [pow_zero] at hn; omega
  | succ n =>
    rw [tapRun, Nat.add_sub_cancel, runLen, if_pos rfl]
    exact Nat.succ_pos _

/-- A word after its run of ones, or of zeros. -/
theorem word_of_run (hb : 0 < b) (hn : b < 2 ^ n) :
    (regime (tapRegime n b)).2 + tapTail n b = n + (if tapRun n b = n then 1 else 0) ∧
    b * (if tapRun n b = n then 2 else 1) = (regime (tapRegime n b)).1 * 2 ^ tapTail n b + b % 2 ^ tapTail n b := by
  have hpos := tapRun_pos hb hn
  have hle : tapRun n b ≤ n := runLen_le b _ n
  have hend : tapRun n b < n → Nat.testBit b (n - tapRun n b - 1) = !Nat.testBit b (n - 1) := testBit_after_run b _ n
  have hmod : b % 2 ^ n = (if Nat.testBit b (n - 1) then 2 ^ n - 2 ^ (n - tapRun n b) else 0) +
    b % 2 ^ (n - tapRun n b) := mod_run b _ n
  rw [Nat.mod_eq_of_lt hn] at hmod
  rw [tapRegime, tapTail]
  generalize tapRun n b = m at *
  cases hr : Nat.testBit b (n - 1)
  · rw [hr] at hend hmod
    rw [if_neg Bool.false_ne_true, Nat.zero_add] at hmod
    rw [if_neg Bool.false_ne_true]
    have hlt : m < n := by
      refine lt_of_le_of_ne hle fun h => ?_
      rw [h, Nat.sub_self, pow_zero, Nat.mod_one] at hmod
      omega
    obtain ⟨l, rfl⟩ : ∃ l, n = m + 1 + l := ⟨n - (m + 1), by omega⟩
    have hreg : regime (-(m : Int)) = (1, m + 1) := by rw [regime, if_neg (by omega), neg_neg, Int.toNat_natCast]
    have hbit := hend hlt
    rw [show m + 1 + l - m - 1 = l by omega] at hbit
    rw [show m + 1 + l - m = l + 1 by omega, Nat.mod_pow_succ, ← Nat.toNat_testBit, hbit] at hmod
    rw [hreg, Nat.add_sub_cancel_left, if_neg hlt.ne, if_neg hlt.ne]
    refine ⟨rfl, ?_⟩
    simp only [Bool.not_false, Bool.toNat_true, Nat.mul_one, Nat.one_mul] at hmod ⊢
    omega
  · rw [hr] at hend hmod
    rw [if_pos rfl] at hmod
    rw [if_pos rfl]
    have hreg : regime ((m : Int) - 1) = (2 ^ (m + 1) - 2, m + 1) := by
      rw [regime, if_pos (by omega), show ((m : Int) - 1).toNat + 2 = m + 1 by omega]
    rw [hreg]
    rcases hle.lt_or_eq with hlt | rfl
    · obtain ⟨l, rfl⟩ : ∃ l, n = m + 1 + l := ⟨n - (m + 1), by omega⟩
      have hbit := hend hlt
      rw [show m + 1 + l - m - 1 = l by omega] at hbit
      rw [show m + 1 + l - m = l + 1 by omega, Nat.mod_pow_succ, ← Nat.toNat_testBit, hbit] at hmod
      rw [Nat.add_sub_cancel_left, if_neg hlt.ne, if_neg hlt.ne]
      refine ⟨rfl, ?_⟩
      simp only [Bool.not_true, Bool.toNat_false, Nat.mul_zero, Nat.mul_one, Nat.add_zero] at hmod ⊢
      rw [Nat.sub_mul, ← pow_add, ← pow_succ', ← hmod]
    · rw [Nat.sub_self, pow_zero, Nat.mod_one] at hmod
      rw [show m - (m + 1) = 0 by omega, if_pos rfl, if_pos rfl, pow_zero, Nat.mod_one, pow_succ]
      refine ⟨rfl, ?_⟩
      omega

/-- The place of a word's scale among all words is the word over all words. -/
theorem tapPlace_tapScale (hb : 0 < b) (hn : b < 2 ^ n) : tapPlace (tapScale n b) = b / 2 ^ n := by
  obtain ⟨h0, h1⟩ := tail_fraction (tapTail n b) b
  obtain ⟨hlen, hword⟩ := word_of_run hb hn
  have hword' : (b : ℝ) * (if tapRun n b = n then 2 else 1) =
      (regime (tapRegime n b)).1 * 2 ^ tapTail n b + (b % 2 ^ tapTail n b : Nat) := by
    exact_mod_cast congrArg (Nat.cast (R := ℝ)) hword
  have hpow : (2 : ℝ) ^ (regime (tapRegime n b)).2 * 2 ^ tapTail n b = 2 ^ n * (if tapRun n b = n then 2 else 1) := by
    rw [← pow_add, hlen]
    split
    · rw [pow_succ]
    · rw [Nat.add_zero, mul_one]
  have hsum : ((regime (tapRegime n b)).1 : ℝ) + (b % 2 ^ tapTail n b : Nat) / 2 ^ tapTail n b =
      b * (if tapRun n b = n then 2 else 1) / 2 ^ tapTail n b := by
    rw [hword']
    field_simp
  rw [tapScale, tapPlace_add _ h0 h1, hsum, div_div, mul_comm (2 ^ tapTail n b), hpow]
  split <;> field_simp

/-- The value of a word is the power of its scale. -/
theorem tapMag_eq (es n b : Nat) : (tapMag es n b : ℝ) = linExp (2 ^ es * tapScale n b) := by
  have hbits : ∀ i, (if i + tapRun n b + 1 < n ∧ Nat.testBit b (n - 2 - tapRun n b - i) then 1 else 0) =
      fracBit (b % 2 ^ tapTail n b) (tapTail n b) i := by
    intro i
    rw [fracBit, Nat.testBit_mul_two_pow, Nat.testBit_mod_two_pow]
    have htail : tapTail n b = n - (tapRun n b + 1) := rfl
    by_cases hi : i + tapRun n b + 1 < n
    · rw [decide_eq_true (by omega), decide_eq_true (by omega), Bool.true_and, Bool.true_and,
        show tapTail n b - (i + 1) = n - 2 - tapRun n b - i by omega]
      cases Nat.testBit b (n - 2 - tapRun n b - i) <;> simp [hi]
    · rw [if_neg (fun h => hi h.1), decide_eq_false (by omega), Bool.false_and]
      rfl
  have hle : tapTail n b ≤ es + n := (Nat.sub_le _ _).trans (Nat.le_add_left _ _)
  set l := tapTail n b
  set p := b % 2 ^ l
  have hp : p < 2 ^ l := Nat.mod_lt _ (Nat.two_pow_pos l)
  have hval : tapMag es n b = (2 : ℚ) ^ (tapRegime n b * 2 ^ es + (p * 2 ^ es / 2 ^ l : Nat)) *
      (1 + (2 ^ es * (p / 2 ^ l) - (p * 2 ^ es / 2 ^ l : Nat))) := by
    rw [← fracBits_fraction hp hle, ← fracBits_exponent hp es]
    simp only [tapMag, takeWhile_length_eq_runLen, ← hbits]
  have hfloor := within_div (p * 2 ^ es) (Nat.two_pow_pos l)
  have hy : ((p * 2 ^ es : Nat) : ℝ) / (2 ^ l : Nat) = 2 ^ es * (p / 2 ^ l) := by
    push_cast
    ring
  have hlo := hfloor.le
  have hhi := hfloor.lt_succ
  rw [hy] at hlo hhi
  generalize p * 2 ^ es / 2 ^ l = e at *
  have hscale : (2 : ℝ) ^ es * tapScale n b =
      ((tapRegime n b * 2 ^ es + e : Int) : ℝ) + (2 ^ es * (p / 2 ^ l) - e) := by
    rw [tapScale]
    push_cast
    ring
  rw [hscale, linExp_add _ (by linarith) (by linarith), hval]
  push_cast
  rfl

end Sys2Proof.Machine
end

section
/-!
The model's decoding of a tapered word is its value (R122), and a word's boundaries stand half a word from it (R123).
-/

namespace Sys2Proof.Machine

open Sys2Proof

variable {t : Tap} {x m n k : Nat} {e : Int} {s st : Bool} {v z p : ℝ}

/-! ### Decoding (R122) -/

/-- The significand and the power of two that the model decodes from the `n` bits of a positive word. -/
def tapSig (es n b : Nat) : Nat × Int :=
  let l := tapTail n b
  let rest := b % 2 ^ l
  let fl := l - es
  (2 ^ fl + rest % 2 ^ fl,
    tapRegime n b * 2 ^ es + (if es ≤ l then rest / 2 ^ (l - es) else rest * 2 ^ (es - l) : Nat) - fl)

theorem tapSig_value (es n b : Nat) : ((tapSig es n b).1 : ℝ) * 2 ^ (tapSig es n b).2 = tapMag es n b := by
  rw [tapMag_eq]
  set l := tapTail n b with hl
  set rest := b % 2 ^ l with hrest
  set fl := l - es with hfl
  set d : Nat := if es ≤ l then rest / 2 ^ (l - es) else rest * 2 ^ (es - l) with hd
  obtain ⟨h0, h1⟩ := tail_fraction fl rest
  have hsplit : (2 : ℝ) ^ es * (rest / 2 ^ l) = d + ((rest % 2 ^ fl : Nat) : ℝ) / 2 ^ fl := by
    by_cases h : es ≤ l
    · have hdiv : (rest : ℝ) = d * 2 ^ fl + (rest % 2 ^ fl : Nat) := by
        rw [hd, if_pos h]
        exact_mod_cast (Nat.div_add_mod' rest (2 ^ fl)).symm
      have hpow : (2 : ℝ) ^ l = 2 ^ es * 2 ^ fl := by rw [← pow_add, hfl, Nat.add_sub_cancel' h]
      rw [hpow]
      field_simp
      linarith
    · have hfl0 : fl = 0 := by omega
      have hpow : (2 : ℝ) ^ es = 2 ^ l * 2 ^ (es - l) := by rw [← pow_add, Nat.add_sub_cancel' (by omega)]
      rw [hfl0, pow_zero, Nat.mod_one, hd, if_neg h, hpow]
      push_cast
      field_simp
      ring
  have hscale : (2 : ℝ) ^ es * tapScale n b =
      ((tapRegime n b * 2 ^ es + d : Int) : ℝ) + ((rest % 2 ^ fl : Nat) : ℝ) / 2 ^ fl := by
    rw [tapScale, mul_add, hsplit]
    push_cast
    ring
  have hsig : tapSig es n b = (2 ^ fl + rest % 2 ^ fl, tapRegime n b * 2 ^ es + d - fl) := rfl
  rw [hscale, linExp_add _ h0 h1, hsig, zpow_sub₀ two_ne_zero, zpow_natCast]
  push_cast
  field_simp

/-- The magnitude bits of a word. -/
def Tap.magBits (t : Tap) (x : Nat) : Nat := if x < t.nar then x else 2 ^ t.w - x

theorem Tap.two_pow_w (hw : 1 ≤ t.w) : 2 ^ t.w = 2 * t.nar := by
  rw [Tap.nar, ← pow_succ', Nat.sub_add_cancel hw]

theorem Tap.magBits_bounds (hw : 1 ≤ t.w) (hx : t.Real x) (h0 : x ≠ 0) : 0 < t.magBits x ∧ t.magBits x < t.nar := by
  obtain ⟨hlt, hne⟩ := hx
  rw [Tap.two_pow_w hw] at hlt
  rw [Tap.magBits, Tap.two_pow_w hw]
  split <;> omega

theorem Tap.decode_ne_zero (hw : 1 ≤ t.w) (hx : t.Real x) (h0 : x ≠ 0) : t.decode x =
    some (decide (t.nar ≤ x), (tapSig t.es (t.w - 1) (t.magBits x)).1, (tapSig t.es (t.w - 1) (t.magBits x)).2) := by
  have hbit : Nat.testBit x (t.w - 1) = decide (t.nar ≤ x) := by
    by_cases h : t.nar ≤ x
    · rw [decide_eq_true h]
      exact Nat.testBit_of_two_pow_le_and_two_pow_add_one_gt h (by rw [Nat.sub_add_cancel hw]; exact hx.1)
    · rw [decide_eq_false h]
      exact Nat.testBit_lt_two_pow (Nat.lt_of_not_le h)
  have hbits : (if decide (t.nar ≤ x) then 2 ^ t.w - x else x) % 2 ^ (t.w - 1) = t.magBits x := by
    have hif : (if decide (t.nar ≤ x) then 2 ^ t.w - x else x) = t.magBits x := by
      rw [Tap.magBits]
      by_cases h : t.nar ≤ x
      · rw [if_pos (decide_eq_true h), if_neg (Nat.not_lt.mpr h)]
      · rw [if_neg (by simpa using h), if_pos (Nat.lt_of_not_le h)]
    rw [hif]
    exact Nat.mod_eq_of_lt (Tap.magBits_bounds hw hx h0).2
  have htail : ∀ a c : Nat, a - min a c = a - c := fun a c => by omega
  simp only [Tap.decode, if_neg h0, if_neg hx.2, hbit, hbits, htail]
  rfl

theorem Tap.value_ne_zero (h0 : x ≠ 0) :
    t.value x = (if decide (t.nar ≤ x) then -1 else 1) * tapMag t.es (t.w - 1) (t.magBits x) := by
  rw [Tap.value, if_neg h0, Tap.magBits]
  by_cases h : x < t.nar
  · rw [if_pos h, if_pos h, if_neg (by simpa using h), one_mul]
  · rw [if_neg h, if_neg h, if_pos (by simpa using h), neg_one_mul]

/-- A real word decodes to its value. -/
theorem Tap.decode_value (hw : 1 ≤ t.w) (hx : t.Real x) :
    ∃ s m e, t.decode x = some (s, m, e) ∧ (t.value x : ℝ) = (sgn s m : Int) * 2 ^ e := by
  by_cases h0 : x = 0
  · subst h0
    exact ⟨false, 0, 0, by rw [Tap.decode, if_pos rfl], by simp [Tap.value, sgn]⟩
  · refine ⟨_, _, _, Tap.decode_ne_zero hw hx h0, ?_⟩
    rw [castR_sgn, mul_assoc, tapSig_value, Tap.value_ne_zero h0]
    push_cast
    split <;> simp

/-! ### Boundaries -/

/-- The boundary above a word stands half a word above it among all words. -/
theorem Tap.boundary_cmp (hw : 1 ≤ t.w) (hk : k < t.nar) (z : ℝ) :
    (t.boundary k < linExp (2 ^ t.es * z) ↔ (k : ℝ) + 1 / 2 < tapPlace z * t.nar) ∧
    (t.boundary k = linExp (2 ^ t.es * z) ↔ (k : ℝ) + 1 / 2 = tapPlace z * t.nar) ∧
    (linExp (2 ^ t.es * z) < t.boundary k ↔ tapPlace z * t.nar < (k : ℝ) + 1 / 2) := by
  have hpow := Tap.two_pow_w hw
  have hlt : 2 * k + 1 < 2 ^ t.w := by omega
  have hnar : (0 : ℝ) < t.nar := Nat.cast_pos.mpr (Nat.two_pow_pos _)
  have hb : t.boundary k = linExp (2 ^ t.es * tapScale t.w (2 * k + 1)) := tapMag_eq _ _ _
  have hplace : (k : ℝ) + 1 / 2 = tapPlace (tapScale t.w (2 * k + 1)) * t.nar := by
    rw [tapPlace_tapScale (Nat.succ_pos _) hlt]
    have hcast : (2 : ℝ) ^ t.w = 2 * t.nar := by exact_mod_cast hpow
    rw [hcast]
    push_cast
    field_simp
  have hes : (0 : ℝ) < 2 ^ t.es := by positivity
  rw [hb, hplace]
  refine ⟨?_, ?_, ?_⟩
  · rw [linExp_strictMono.lt_iff_lt, mul_lt_mul_iff_right₀ hes, mul_lt_mul_iff_left₀ hnar,
      tapPlace_strictMono.lt_iff_lt]
  · rw [linExp_strictMono.injective.eq_iff, mul_right_inj' hes.ne', mul_left_inj' hnar.ne',
      tapPlace_strictMono.injective.eq_iff]
  · rw [linExp_strictMono.lt_iff_lt, mul_lt_mul_iff_right₀ hes, mul_lt_mul_iff_left₀ hnar,
      tapPlace_strictMono.lt_iff_lt]

/-- A positive word as the code of a value of this sign. -/
def Tap.signed (t : Tap) (s : Bool) (c : Nat) : Nat := if s then (2 ^ t.w - c) % 2 ^ t.w else c

/-- A word that is a value's place rounded to nearest, or the end of the words on its side, is the value rounded. -/
theorem Tap.rounds_of_place (hw : 1 ≤ t.w) (hv : |v| = linExp (2 ^ t.es * z)) (hs : s = true ↔ v < 0) (h0 : 0 < k)
    (hk : k < t.nar)
    (hlow : k = 1 ∨ (k : ℝ) - 1 / 2 < tapPlace z * t.nar ∨ (k : ℝ) - 1 / 2 = tapPlace z * t.nar ∧ k % 2 = 0)
    (hhigh : k = t.nar - 1 ∨ tapPlace z * t.nar < (k : ℝ) + 1 / 2 ∨ tapPlace z * t.nar = (k : ℝ) + 1 / 2 ∧ k % 2 = 0) :
    t.Rounds v (t.signed s k) := by
  have hpow := Tap.two_pow_w hw
  obtain ⟨hlt, heq, -⟩ := Tap.boundary_cmp hw (k := k - 1) (by omega) z
  obtain ⟨-, heq', hgt⟩ := Tap.boundary_cmp hw hk z
  have hpred : ((k - 1 : Nat) : ℝ) + 1 / 2 = k - 1 / 2 := by
    rw [Nat.cast_pred h0]
    ring
  rw [hpred] at hlt heq
  rw [← hv] at hlt heq heq' hgt
  refine ⟨k, h0, hk, fun hpos => ?_, fun hneg => ?_, ?_, ?_⟩
  · rw [Tap.signed, if_neg (fun h => hpos.not_gt (hs.mp h))]
  · rw [Tap.signed, if_pos (hs.mpr hneg), Nat.mod_eq_of_lt (by omega)]
  · rw [hlt, heq]
    exact hlow
  · rw [hgt, eq_comm (a := |v|), heq', eq_comm (a := (k : ℝ) + 1 / 2)]
    exact hhigh

end Sys2Proof.Machine
end

section
/-!
The model's rounding of a value to a tapered word is the manual's (R123).
-/

namespace Sys2Proof.Machine

open Sys2Proof

variable {t : Tap} {m n c : Nat} {e : Int} {s st : Bool} {v a g p : ℝ}

/-- The unbounded encoding of a significand whose leading bit is worth 2^top: its bits and their number (R123). -/
def Tap.encoding (t : Tap) (m : Nat) (top : Int) : Nat × Nat :=
  let k := top / 2 ^ t.es
  (((regime k).1 * 2 ^ t.es + (top - k * 2 ^ t.es).toNat) * 2 ^ Nat.log2 m + (m - 2 ^ Nat.log2 m),
    (regime k).2 + t.es + Nat.log2 m)

/-- The positive word of a value. -/
def Tap.code (t : Tap) (m : Nat) (e : Int) (st : Bool) : Nat :=
  if (t.limit : Int) ≤ Nat.log2 m + e then t.nar - 1
  else if Nat.log2 m + e < -(t.limit : Int) ∨ Nat.log2 m + e = -(t.limit : Int) ∧ m = 2 ^ Nat.log2 m ∧ !st then 1
  else (toQuantum .rne false (t.encoding m (Nat.log2 m + e)).1 (-((t.encoding m (Nat.log2 m + e)).2 : Int))
    (-((t.w - 1 : Nat) : Int)) st).1

/-- Rounded to `n` of its `len` bits, or filled up to them. -/
theorem toQuantum_neg (b len n : Nat) (st : Bool) : (toQuantum .rne false b (-(len : Int)) (-(n : Int)) st).1 =
    if n < len then
      if roundUp .rne false (b / 2 ^ (len - n)) (b % 2 ^ (len - n)) (len - n) st then b / 2 ^ (len - n) + 1
      else b / 2 ^ (len - n)
    else b * 2 ^ (n - len) := by
  by_cases h : n < len
  · have hto : (-(n : Int) - -(len : Int)).toNat = len - n := by omega
    rw [if_pos h, toQuantum, if_pos (by omega)]
    simp only [hto]
  · have hto : (-(len : Int) - -(n : Int)).toNat = n - len := by omega
    rw [if_neg h, toQuantum, if_neg (by omega)]
    simp only [hto]
    rfl

theorem Tap.round_eq_signed (t : Tap) (s : Bool) (m : Nat) (e : Int) (st : Bool) :
    t.round s m e st = t.signed s (t.code m e st) := by
  rw [Tap.code, toQuantum_neg]
  rfl

/-- A value over 2^e within a significand is that power of two and a fraction of it. -/
theorem Within.exists_fraction (h : Within m st (a / 2 ^ e)) (hm : m ≠ 0) :
    ∃ g : ℝ, 0 ≤ g ∧ g < 1 ∧ a = 2 ^ ((Nat.log2 m : Int) + e) * (1 + g) ∧
      Within (m - 2 ^ Nat.log2 m) st (g * 2 ^ Nat.log2 m) := by
  obtain ⟨hlo, hhi⟩ := h.zpow_binade hm
  have hpos : (0 : ℝ) < 2 ^ ((Nat.log2 m : Int) + e) := by positivity
  rw [zpow_add_one₀ two_ne_zero] at hhi
  have hle : 2 ^ Nat.log2 m ≤ m := Nat.log2_self_le hm
  refine ⟨a / 2 ^ ((Nat.log2 m : Int) + e) - 1, ?_, ?_, ?_, ?_⟩
  · rw [sub_nonneg, one_le_div hpos]
    exact hlo
  · rw [sub_lt_iff_lt_add, div_lt_iff₀ hpos]
    linarith
  · field_simp
    ring
  · have hscale : (a / 2 ^ ((Nat.log2 m : Int) + e) - 1) * 2 ^ Nat.log2 m = a / 2 ^ e - (2 ^ Nat.log2 m : Nat) := by
      rw [zpow_add₀ two_ne_zero, zpow_natCast]
      push_cast
      field_simp
    rw [hscale]
    cases st
    · rw [within_false] at h ⊢
      rw [h, Nat.cast_sub hle]
    · rw [within_true] at h ⊢
      rw [Nat.cast_sub hle]
      constructor <;> linarith [h.1, h.2]

/-- The place of a value among all words is its encoding. -/
theorem Tap.encoding_within (t : Tap) (m : Nat) (top : Int) (h0 : 0 ≤ g) (h1 : g < 1)
    (h : Within (m - 2 ^ Nat.log2 m) st (g * 2 ^ Nat.log2 m)) :
    Within (t.encoding m top).1 st (tapPlace ((top + g) / 2 ^ t.es) / 2 ^ (-((t.encoding m top).2 : Int))) := by
  set k := top / 2 ^ t.es with hk
  set x := (top - k * 2 ^ t.es).toNat with hx
  have hpos : (0 : Int) < 2 ^ t.es := by positivity
  have hmod : top = k * 2 ^ t.es + x := by
    have hle : k * 2 ^ t.es ≤ top := Int.ediv_mul_le top hpos.ne'
    omega
  have hxlt : x < 2 ^ t.es := by
    have h2 := Int.lt_ediv_add_one_mul_self top hpos
    rw [← hk, add_mul, one_mul, hmod] at h2
    exact_mod_cast (add_lt_add_iff_left _).mp h2
  have hplace : ((top : ℝ) + g) / 2 ^ t.es = k + (x + g) / 2 ^ t.es := by
    rw [hmod]
    push_cast
    field_simp
    ring
  have hy : ((x : ℝ) + g) / 2 ^ t.es < 1 := by
    rw [div_lt_one (by positivity)]
    have hcast : ((x + 1 : Nat) : ℝ) ≤ (2 ^ t.es : Nat) := Nat.cast_le.mpr hxlt
    push_cast at hcast
    linarith
  have henc : t.encoding m top = (((regime k).1 * 2 ^ t.es + x) * 2 ^ Nat.log2 m + (m - 2 ^ Nat.log2 m),
      (regime k).2 + t.es + Nat.log2 m) := rfl
  have hscale : tapPlace ((top + g) / 2 ^ t.es) / 2 ^ (-(((regime k).2 + t.es + Nat.log2 m : Nat) : Int)) =
      (((regime k).1 * 2 ^ t.es + x) * 2 ^ Nat.log2 m : Nat) + g * 2 ^ Nat.log2 m := by
    rw [hplace, tapPlace_add k (by positivity) hy, zpow_neg, zpow_natCast, pow_add, pow_add]
    push_cast
    field_simp
    ring
  rw [henc, hscale]
  cases st
  · rw [within_false] at h ⊢
    rw [Nat.cast_add, h]
  · rw [within_true] at h ⊢
    rw [Nat.cast_add]
    constructor <;> linarith [h.1, h.2]

/-! ### The ends of the words -/

theorem Tap.nar_eq (hw : 3 ≤ t.w) : (t.nar : ℝ) = 2 ^ (t.w - 2 + 1) := by
  rw [show t.w - 2 + 1 = t.w - 1 by omega]
  push_cast
  rfl

/-- At 2^limit stands the last word. -/
theorem Tap.place_last (hw : 3 ≤ t.w) : tapPlace (t.w - 2 : Nat) * t.nar = (t.nar : ℝ) - 1 := by
  have hint := interp_intCast regimeStart ((t.w - 2 : Nat) : Int)
  rw [Int.cast_natCast, regimeStart_of_nonneg] at hint
  rw [tapPlace, hint, Tap.nar_eq hw]
  field_simp

/-- At 2^-limit stands the first word. -/
theorem Tap.place_first (hw : 3 ≤ t.w) : tapPlace (-((t.w - 2 : Nat) : ℝ)) * t.nar = 1 := by
  have hint := interp_intCast regimeStart (-((t.w - 3 + 1 : Nat) : Int))
  rw [regimeStart_of_neg, show t.w - 3 + 1 = t.w - 2 by omega, show t.w - 3 + 2 = t.w - 2 + 1 by omega, Int.cast_neg,
    Int.cast_natCast] at hint
  rw [tapPlace, hint, Tap.nar_eq hw]
  field_simp

/-! ### The rounding -/

section
variable {z : ℝ} (hw : 3 ≤ t.w) (hv : |v| = linExp (2 ^ t.es * z)) (hs : s = true ↔ v < 0)
include hw

theorem Tap.four_le_nar : 4 ≤ t.nar := Nat.pow_le_pow_right (n := 2) (i := 2) (by decide) (by omega)

include hv hs

/-- From 2^limit up a value rounds to the last word. -/
theorem Tap.rounds_last (hz : ((t.w - 2 : Nat) : ℝ) ≤ z) : t.Rounds v (t.signed s (t.nar - 1)) := by
  have hnar := Tap.four_le_nar hw
  have hp := mul_le_mul_of_nonneg_right (tapPlace_strictMono.monotone hz) (Nat.cast_nonneg t.nar)
  rw [Tap.place_last hw] at hp
  refine Tap.rounds_of_place (by omega) hv hs (by omega) (by omega) (.inr (.inl ?_)) (.inl rfl)
  rw [Nat.cast_pred (by omega)]
  linarith

/-- From 2^-limit down a value rounds to the first word. -/
theorem Tap.rounds_first (hz : z ≤ -((t.w - 2 : Nat) : ℝ)) : t.Rounds v (t.signed s 1) := by
  have hnar := Tap.four_le_nar hw
  have hp := mul_le_mul_of_nonneg_right (tapPlace_strictMono.monotone hz) (Nat.cast_nonneg t.nar)
  rw [Tap.place_first hw] at hp
  refine Tap.rounds_of_place (by omega) hv hs one_pos (by omega) (.inl rfl) (.inr (.inl ?_))
  rw [Nat.cast_one]
  linarith

/-- Between them a value rounds to its place, rounded to nearest. -/
theorem Tap.rounds_of_roundsTo (hlow : -((t.w - 2 : Nat) : ℝ) ≤ z) (hhigh : z < (t.w - 2 : Nat))
    (h : RoundsTo .rne false (tapPlace z * t.nar) c) : t.Rounds v (t.signed s c) := by
  have hnar : (0 : ℝ) < t.nar := Nat.cast_pos.mpr (Nat.two_pow_pos _)
  have hp1 := mul_le_mul_of_nonneg_right (tapPlace_strictMono.monotone hlow) hnar.le
  have hp2 := mul_lt_mul_of_pos_right (tapPlace_strictMono hhigh) hnar
  rw [Tap.place_first hw] at hp1
  rw [Tap.place_last hw] at hp2
  obtain ⟨hn1, hn2⟩ := abs_lt.mp h.abs_lt_one
  have hc0 : 0 < c := Nat.cast_pos.mp (by linarith : (0 : ℝ) < c)
  have hcn : c < t.nar := Nat.cast_lt.mp (by linarith : (c : ℝ) < t.nar)
  refine Tap.rounds_of_place (by omega) hv hs hc0 hcn (.inr ?_) (.inr ?_)
  · rcases roundsTo_rne.mp h with hlt | ⟨heq, heven⟩
    · exact .inl (by linarith [(abs_lt.mp hlt).2])
    · rcases (abs_le.mp heq.le).2.lt_or_eq with h | h
      · exact .inl (by linarith)
      · exact .inr ⟨by linarith, heven⟩
  · rcases roundsTo_rne.mp h with hlt | ⟨heq, heven⟩
    · exact .inl (by linarith [(abs_lt.mp hlt).1])
    · rcases (abs_le.mp heq.le).1.lt_or_eq with h | h
      · exact .inl (by linarith)
      · exact .inr ⟨by linarith, heven⟩

end

/-- The word that the model gives an exact value is the value rounded on its encoding. -/
theorem Tap.round_rounds (hw : 3 ≤ t.w) (hv : v ≠ 0) (hs : s = true ↔ v < 0) (h : Within m st (|v| / 2 ^ e))
    (hst : st = true → t.w ≤ Nat.log2 m) : t.Rounds v (t.round s m e st) := by
  have hm : m ≠ 0 := by
    rintro rfl
    cases st
    · rw [within_false, Nat.cast_zero, div_eq_zero_iff, abs_eq_zero] at h
      exact h.elim hv (by positivity)
    · have := hst rfl
      rw [Nat.log2_zero] at this
      omega
  obtain ⟨g, h0, h1, hvg, hfrac⟩ := h.exists_fraction hm
  rw [Tap.round_eq_signed, Tap.code]
  generalize (Nat.log2 m : Int) + e = top at *
  have hpos : (0 : ℝ) < 2 ^ t.es := by positivity
  have hlimit : ((t.limit : Int) : ℝ) = 2 ^ t.es * (t.w - 2 : Nat) := by
    push_cast
    rfl
  have hvz : |v| = linExp (2 ^ t.es * ((top + g) / 2 ^ t.es)) := by
    rw [mul_div_cancel₀ _ hpos.ne', linExp_add top h0 h1, hvg]
  have hcast : ∀ i j : Int, i ≤ j → (i : ℝ) ≤ j := fun _ _ => Int.cast_le.mpr
  split_ifs with hlast hfirst
  · refine Tap.rounds_last hw hvz hs ?_
    rw [le_div_iff₀ hpos, mul_comm, ← hlimit]
    linarith [hcast _ _ hlast]
  · refine Tap.rounds_first hw hvz hs ?_
    rw [div_le_iff₀ hpos, neg_mul, mul_comm, ← hlimit]
    rcases hfirst with hlt | ⟨heq, hm2, hst0⟩
    · have := hcast (top + 1) (-(t.limit : Int)) hlt
      push_cast at this ⊢
      linarith
    · have hg : g = 0 := by
        rw [Bool.not_eq_true'] at hst0
        rw [hst0, within_false, Nat.sub_eq_zero_of_le hm2.le, Nat.cast_zero, mul_eq_zero] at hfrac
        exact hfrac.resolve_right (by positivity)
      rw [hg, heq]
      push_cast
      linarith
  · have hround := (toQuantum_roundsTo (q := -((t.w - 1 : Nat) : Int)) .rne false
      (Tap.encoding_within t m top h0 h1 hfrac) fun h => by
        have := hst h
        have : (t.encoding m top).2 = (regime (top / 2 ^ t.es)).2 + t.es + Nat.log2 m := rfl
        omega).1
    rw [zpow_neg, zpow_natCast, div_inv_eq_mul, show ((2 : ℝ) ^ (t.w - 1)) = t.nar by push_cast; rfl] at hround
    refine Tap.rounds_of_roundsTo hw hvz hs ?_ ?_ hround
    · rw [le_div_iff₀ hpos, neg_mul, mul_comm, ← hlimit]
      have := hcast (-(t.limit : Int)) top (not_lt.mp fun h => hfirst (.inl h))
      push_cast at this ⊢
      linarith
    · rw [div_lt_iff₀ hpos, mul_comm, ← hlimit]
      have := hcast (top + 1) t.limit (not_le.mp hlast)
      push_cast at this ⊢
      linarith

end Sys2Proof.Machine
end

section
/-!
The operations of tapered formats (R124, R126, R127, R144), and the statement of O21.
-/

namespace Sys2Proof.Machine

open Sys2Proof

variable {t : Tap} {f : Fmt} {a b c m : Nat} {e : Int} {s st : Bool} {v : ℝ} {r : Nat × BitVec 6}

/-- A result that is an exact value rounded on its encoding; 0 of an exact zero; with no flag (R124). -/
def Tap.Is (t : Tap) (v : ℝ) (r : Nat × BitVec 6) : Prop := r.2 = 0 ∧ (v = 0 → r.1 = 0) ∧ (v ≠ 0 → t.Rounds v r.1)

/-- A value that a significand holds exactly. -/
theorem Tap.ofExact_is (hw : 3 ≤ t.w) (hv : v = (sgn s m : Int) * 2 ^ e) : t.Is v (t.ofExact s m e, 0) := by
  have hpos : (0 : ℝ) < 2 ^ e := by positivity
  have hzero : v = 0 ↔ m = 0 := by
    rw [hv, mul_eq_zero, or_iff_left hpos.ne', Int.cast_eq_zero, sgn_eq_zero_iff]
  refine ⟨rfl, fun h0 => if_pos (hzero.mp h0), fun h0 => ?_⟩
  have hm := mt hzero.mpr h0
  have hr : t.ofExact s m e = t.round s m e := if_neg hm
  rw [hr]
  refine Tap.round_rounds hw h0 ?_ ?_ fun h => Bool.noConfusion h
  · rw [hv, sgn_mul_neg_iff hm hpos]
  · rw [hv, abs_sgn_mul s m hpos.le, mul_div_cancel_right₀ _ hpos.ne', within_false]

/-- A value between a significand and the next. -/
theorem Tap.ofExact_sticky (hw : 3 ≤ t.w) (h0 : v ≠ 0) (hs : s = true ↔ v < 0) (h : Within m st (|v| / 2 ^ e))
    (hm : t.w ≤ Nat.log2 m) : t.Is v (t.ofExact s m e st, 0) := by
  have hm0 : m ≠ 0 := by
    rintro rfl
    rw [Nat.log2_zero] at hm
    omega
  have hr : t.ofExact s m e st = t.round s m e st := if_neg hm0
  rw [hr]
  exact ⟨rfl, fun h => absurd h h0, fun _ => Tap.round_rounds hw h0 hs h fun _ => hm⟩

/-- The exact a × b + c of decoded values. -/
theorem Tap.exactFma_is (hw : 3 ≤ t.w) {x y z : Bool × Nat × Int}
    (hv : v = (sgn x.1 x.2.1 : Int) * 2 ^ x.2.2 * ((sgn y.1 y.2.1 : Int) * 2 ^ y.2.2) +
      (sgn z.1 z.2.1 : Int) * 2 ^ z.2.2) :
    t.Is v (t.ofExact (exactFma x y z).1 (exactFma x y z).2.1 (exactFma x y z).2.2.1 (exactFma x y z).2.2.2, 0) := by
  set q := min (x.2.2 + y.2.2) z.2.2 with hq
  set w : Int := sgn (x.1 != y.1) (x.2.1 * y.2.1 * 2 ^ (x.2.2 + y.2.2 - q).toNat) +
    sgn z.1 (z.2.1 * 2 ^ (z.2.2 - q).toNat) with hw'
  refine Tap.ofExact_is (s := decide (w < 0)) (m := w.natAbs) (e := q) hw ?_
  rw [sgn_natAbs, hv, hw', Int.cast_add, add_mul, sgn_scale _ _ (min_le_left _ _), sgn_scale _ _ (min_le_right _ _),
    sgn_bne_mul, zpow_add₀ two_ne_zero]
  push_cast
  ring

/-! ### Sources (R124) -/

theorem Tap.rule_some {l : List Nat} {vs : List (Bool × Nat × Int)}
    {k : List (Bool × Nat × Int) → Option (Bool × Nat × Int × Bool)} {x : Bool × Nat × Int × Bool}
    (hl : l.mapM t.decode = some vs) (hk : k vs = some x) : t.rule l k = (t.ofExact x.1 x.2.1 x.2.2.1 x.2.2.2, 0) := by
  rw [Tap.rule, hl]
  dsimp only
  rw [hk]

theorem Tap.rule_none {l : List Nat} {vs : List (Bool × Nat × Int)}
    {k : List (Bool × Nat × Int) → Option (Bool × Nat × Int × Bool)} (hl : l.mapM t.decode = some vs)
    (hk : k vs = none) : t.rule l k = (t.nar, flTN) := by
  rw [Tap.rule, hl]
  dsimp only
  rw [hk]

theorem Tap.rule_nar {l : List Nat} (k : List (Bool × Nat × Int) → Option (Bool × Nat × Int × Bool))
    (hl : l.mapM t.decode = none) : t.rule l k = (t.nar, 0) := by
  rw [Tap.rule, hl]

section
variable {x y z : Bool × Nat × Int} (hx : t.decode a = some x) (hy : t.decode b = some y) (hz : t.decode c = some z)
include hx

theorem Tap.mapM_decode_one : [a].mapM t.decode = some [x] := by
  simp [hx]

include hy

theorem Tap.mapM_decode_two : [a, b].mapM t.decode = some [x, y] := by
  simp [hx, hy]

include hz

theorem Tap.mapM_decode_three : [a, b, c].mapM t.decode = some [x, y, z] := by
  simp [hx, hy, hz]

end

theorem Tap.decode_nar (t : Tap) : t.decode t.nar = none := by
  rw [Tap.decode, if_neg (Nat.two_pow_pos _).ne', if_pos rfl]

theorem Tap.rule_nar_left (t : Tap) (b : Nat) (k : List (Bool × Nat × Int) → Option (Bool × Nat × Int × Bool)) :
    t.rule [t.nar, b] k = (t.nar, 0) :=
  Tap.rule_nar k (by simp [t.decode_nar])

theorem Tap.rule_nar_right (t : Tap) (a : Nat) (k : List (Bool × Nat × Int) → Option (Bool × Nat × Int × Bool)) :
    t.rule [a, t.nar] k = (t.nar, 0) := by
  refine Tap.rule_nar k ?_
  cases h : t.decode a <;> simp [t.decode_nar, h]

/-! ### Exact results -/

section
variable (hw : 3 ≤ t.w) (ha : t.Real a)
include hw ha

theorem Tap.add_is (hb : t.Real b) : t.Is (t.value a + t.value b : ℚ) (t.add a b) := by
  obtain ⟨s, m, e, hda, hva⟩ := Tap.decode_value (by omega) ha
  obtain ⟨s', m', e', hdb, hvb⟩ := Tap.decode_value (by omega) hb
  rw [Tap.add, Tap.rule_some (Tap.mapM_decode_two hda hdb) rfl]
  refine Tap.exactFma_is hw ?_
  rw [Rat.cast_add, hva, hvb]
  simp [sgn]

theorem Tap.mul_is (hb : t.Real b) : t.Is (t.value a * t.value b : ℚ) (t.mul a b) := by
  obtain ⟨s, m, e, hda, hva⟩ := Tap.decode_value (by omega) ha
  obtain ⟨s', m', e', hdb, hvb⟩ := Tap.decode_value (by omega) hb
  rw [Tap.mul, Tap.rule_some (Tap.mapM_decode_two hda hdb) rfl]
  refine Tap.ofExact_is hw ?_
  rw [Rat.cast_mul, hva, hvb, sgn_bne_mul, zpow_add₀ two_ne_zero]
  push_cast
  ring

theorem Tap.fma_is (hb : t.Real b) (hc : t.Real c) : t.Is (t.value a * t.value b + t.value c : ℚ) (t.fma a b c) := by
  obtain ⟨s, m, e, hda, hva⟩ := Tap.decode_value (by omega) ha
  obtain ⟨s', m', e', hdb, hvb⟩ := Tap.decode_value (by omega) hb
  obtain ⟨s'', m'', e'', hdc, hvc⟩ := Tap.decode_value (by omega) hc
  rw [Tap.fma, Tap.rule_some (Tap.mapM_decode_three hda hdb hdc) rfl]
  refine Tap.exactFma_is hw ?_
  rw [Rat.cast_add, Rat.cast_mul, hva, hvb, hvc]

/-- What a real word that is not zero decodes to. -/
theorem Tap.decode_signed (h0 : t.value a ≠ 0) : ∃ s m e, t.decode a = some (s, m, e) ∧ m ≠ 0 ∧
    |(t.value a : ℝ)| = m * 2 ^ e ∧ (s = true ↔ (t.value a : ℝ) < 0) := by
  obtain ⟨s, m, e, hd, hv⟩ := Tap.decode_value (by omega) ha
  have hpos : (0 : ℝ) < 2 ^ e := by positivity
  have hm : m ≠ 0 := by
    rintro rfl
    rw [sgn_eq_zero_iff.mpr rfl, Int.cast_zero, zero_mul, Rat.cast_eq_zero] at hv
    exact h0 hv
  exact ⟨s, m, e, hd, hm, by rw [hv, abs_sgn_mul s m hpos.le], by rw [hv, sgn_mul_neg_iff hm hpos]⟩

theorem Tap.rcp_is (hw80 : t.w ≤ 79) (h0 : t.value a ≠ 0) : t.Is ((t.value a)⁻¹ : ℚ) (t.rcp a) := by
  obtain ⟨s, m, e, hd, hm, habs, hs⟩ := Tap.decode_signed hw ha h0
  have hr : t.rcp a = (t.ofExact s (recipExact m e 80).1 (recipExact m e 80).2.1 (recipExact m e 80).2.2, 0) := by
    simp only [Tap.rcp, Tap.rule, Tap.mapM_decode_one hd, if_neg hm]
  rw [hr]
  refine Tap.ofExact_sticky hw (Rat.cast_ne_zero.mpr (inv_ne_zero h0)) ?_ ?_ (hw80.trans (recipExact_log2 hm e 79))
  · rw [Rat.cast_inv, inv_lt_zero]
    exact hs
  · rw [Rat.cast_inv, abs_inv]
    exact recipExact_within hm habs

theorem Tap.rsq_is (hw80 : t.w ≤ 79) (h0 : 0 < t.value a) : t.Is (1 / √(t.value a : ℝ)) (t.rsq a) := by
  obtain ⟨s, m, e, hd, hm, habs, hs⟩ := Tap.decode_signed hw ha h0.ne'
  have hva : (0 : ℝ) < t.value a := Rat.cast_pos.mpr h0
  have hpos : 0 < 1 / √(t.value a : ℝ) := one_div_pos.mpr (Real.sqrt_pos.mpr hva)
  have hs' : s = false := Bool.eq_false_iff.mpr fun h => hva.not_gt (hs.mp h)
  have hcond : ¬(decide (m = 0) || s) = true := by
    rw [hs', Bool.or_false, decide_eq_true_iff]
    exact hm
  have hr : t.rsq a = (t.ofExact false (rsqrtExact m e 80).1 (rsqrtExact m e 80).2.1 (rsqrtExact m e 80).2.2, 0) := by
    simp only [Tap.rsq, Tap.rule, Tap.mapM_decode_one hd, if_neg hcond]
  rw [hr]
  refine Tap.ofExact_sticky hw hpos.ne' (iff_of_false Bool.false_ne_true hpos.not_gt) ?_
    (hw80.trans (rsqrtExact_log2 hm e 79))
  rw [abs_of_pos hpos]
  exact rsqrtExact_within hm (habs ▸ (abs_of_pos hva).symm)

theorem Tap.rsq_neg (h0 : t.value a < 0) : t.rsq a = (t.nar, flTN) := by
  obtain ⟨s, m, e, hd, hm, habs, hs⟩ := Tap.decode_signed hw ha h0.ne
  have hs' : s = true := hs.mpr (by exact_mod_cast h0)
  refine Tap.rule_none (Tap.mapM_decode_one hd) (if_pos ?_)
  rw [hs', Bool.or_true]

/-! ### Conversions (R126, R127) -/

theorem Tap.toIeee_zero (rm : RM) (h0 : t.value a = 0) : t.toIeee f rm a = (0, 0) := by
  obtain ⟨s, m, e, hd, hv⟩ := Tap.decode_value (by omega) ha
  have hm : m = 0 := by
    rw [h0, Rat.cast_zero, eq_comm, mul_eq_zero, or_iff_left (by positivity), Int.cast_eq_zero, sgn_eq_zero_iff] at hv
    exact hv
  rw [Tap.toIeee, hd]
  exact if_pos hm

theorem Tap.toIeee_rounds (hf : f.Ok) (rm : RM) (h0 : t.value a ≠ 0) : f.Rounds rm (t.value a) (t.toIeee f rm a) := by
  obtain ⟨s, m, e, hd, hv⟩ := Tap.decode_value (by omega) ha
  have hv0 : (t.value a : ℝ) ≠ 0 := Rat.cast_ne_zero.mpr h0
  have hm : m ≠ 0 := by
    rintro rfl
    rw [sgn_eq_zero_iff.mpr rfl, Int.cast_zero, zero_mul] at hv
    exact hv0 hv
  have hr : t.toIeee f rm a = f.round rm s m e := by
    rw [Tap.toIeee, hd]
    exact if_neg hm
  rw [hr]
  exact Fmt.round_exact hf rm hv hv0

/-- Negation of a real word is that of its value. -/
theorem Tap.value_neg : t.value (t.neg a) = -t.value a := by
  have hpow := Tap.two_pow_w (t := t) (by omega)
  obtain ⟨hlt, hne⟩ := ha
  have hnar : 0 < t.nar := Nat.two_pow_pos _
  rcases Nat.eq_zero_or_pos a with rfl | hpos
  · rw [Tap.neg, Nat.sub_zero, Nat.mod_self, Tap.value, if_pos rfl, neg_zero]
  · have hneg : t.neg a = 2 ^ t.w - a := Nat.mod_eq_of_lt (by omega)
    rw [hneg, Tap.value, Tap.value, if_neg (by omega), if_neg hpos.ne']
    by_cases h : a < t.nar
    · rw [if_neg (by omega), if_pos h, Nat.sub_sub_self hlt.le]
    · rw [if_pos (by omega), if_neg h, neg_neg]

end

theorem Tap.ofIeee_finite (hw : 3 ≤ t.w) (hb : f.Finite b) : t.Is (f.value b) (t.ofIeee f b) := by
  have hr : t.ofIeee f b = (t.ofExact (f.sign b) (f.sig b) (f.exp b), 0) := by
    rw [Tap.ofIeee, f.unpack_finite hb]
  rw [hr]
  exact Tap.ofExact_is hw (f.valueR_eq b)

theorem Tap.ofIeee_not_finite (t : Tap) (hb : b < 2 ^ f.width) (h : ¬f.Finite b) : t.ofIeee f b =
    (t.nar, if f.Nan b ∧ Nat.testBit b (f.fb - 1) = false then flTN ||| flNV else flTN) := by
  rcases f.finite_or_nan_or_inf hb with hfin | hnan | hinf
  · exact absurd hfin h
  · rw [Tap.ofIeee, f.unpack_nan hnan]
    cases Nat.testBit b (f.fb - 1)
    · rw [if_pos ⟨hnan, rfl⟩]
      rfl
    · rw [if_neg fun h => Bool.noConfusion h.2]
      rfl
  · have hnot : ¬f.Nan b := fun hn => hn.2.ne' hinf
    rw [Tap.ofIeee, f.unpack_of_magOf_inf hinf, if_neg fun h => hnot h.1]

/-! ### The statement -/

/-- Settles O21: each operation decodes its sources to their values and rounds the exact result on its encoding. -/
theorem taperedArithmetic : Obligations.TaperedArithmetic := by
  refine ⟨fun d a b c nb nc => ?_, fun w _ => ?_, rfl, rfl, rfl, rfl, rfl, rfl, rfl, rfl, rfl, rfl, rfl, rfl, rfl, rfl,
    rfl, fun a b c ha hb hc => ?_, fun f hf => ⟨fun rm => rfl, fun b hb => ⟨fun hfin => ?_, ?_⟩⟩⟩
  · exact ⟨yields_of_exec fun _ => rfl, yields_of_exec fun _ => rfl, yields_of_exec fun _ => rfl,
      yields_of_exec fun _ => rfl, yields_of_exec fun _ => rfl, yields_of_exec fun _ => rfl⟩
  · exact ⟨congrArg Prod.fst (tap32.rule_nar_left w _), congrArg Prod.fst (tap32.rule_nar_right w _),
      congrArg Prod.fst (tap32.rule_nar_left w _), congrArg Prod.fst (tap32.rule_nar_right w _)⟩
  · have hw : 3 ≤ tap32.w := by decide
    have hw80 : tap32.w ≤ 79 := by decide
    exact ⟨Tap.add_is hw ha hb, Tap.value_neg hw hb, Tap.mul_is hw ha hb, Tap.fma_is hw ha hb hc,
      Tap.rcp_is hw ha hw80, Tap.rsq_is hw ha hw80, Tap.rsq_neg hw ha, fun f hf rm =>
        ⟨Tap.toIeee_zero hw ha rm, Tap.toIeee_rounds hw ha (Fmt.ok_of_mem hf) rm⟩⟩
  · obtain ⟨hflags, hzero, hrounds⟩ := Tap.ofIeee_finite (t := tap32) (by decide) hfin
    exact ⟨hflags, fun h => hzero (Rat.cast_eq_zero.mpr h), fun h => hrounds (Rat.cast_ne_zero.mpr h)⟩
  · exact tap32.ofIeee_not_finite hb

end Sys2Proof.Machine
end

section
/-!
SUPPORT. What monitors that fire and accessed bits leave of cores and of operations that wait for no condition, and that
they read nothing of a core but its epoch and nothing of the dies' TLBs (R156, R193, R210).
-/

namespace Sys2Proof.Machine

open Sys2Proof

variable (s : State)

/-! ### Operations found -/

/-- An operation found after a rewriting that keeps numbers. -/
theorem State.updOp_op? (id n : Nat) (f : Op → Op) (hf : ∀ o, (f o).id = o.id) :
    (s.updOp id f).op? n = (s.op? n).map fun o => if o.id = id then f o else o := by
  simp only [State.op?, State.updOp, List.find?_map]
  congr 2
  funext o
  simp only [Function.comp_apply]
  split <;> simp [hf]

/-- The operation that was found, after its own rewriting. -/
theorem State.updOp_op?_same {s : State} {id : Nat} {o : Op} (h : s.op? id = some o) (f : Op → Op)
    (hf : ∀ o, (f o).id = o.id) : (s.updOp id f).op? id = some (f o) := by
  have hid : o.id = id := by simpa using List.find?_some h
  rw [s.updOp_op? id id f hf, h, Option.map_some, if_pos hid]

/-- Another operation than the rewritten one. -/
theorem State.updOp_op?_other {id n : Nat} (h : n ≠ id) (f : Op → Op) (hf : ∀ o, (f o).id = o.id) :
    (s.updOp id f).op? n = s.op? n := by
  rw [s.updOp_op? id n f hf]
  cases ho : s.op? n with
  | none => rfl
  | some o =>
    have hn : o.id = n := by simpa using List.find?_some ho
    rw [Option.map_some, if_neg (by omega)]

/-- Lanes that complete leave every other operation. -/
theorem State.finishLanes_op?_other {id n : Nat} (h : n ≠ id) (m : BitVec 32) :
    (s.finishLanes id m).op? n = s.op? n := by
  unfold State.finishLanes
  split
  · rfl
  · split
    · simp only [State.op?, List.find?_filter]
      congr 1
      funext o
      by_cases hn : o.id = n <;> simp [hn, h]
    · exact s.updOp_op?_other h _ fun _ => rfl

/-- Lanes that complete touch groups, what is kept of saved ones, and operations. -/
theorem State.finishLanes_only (id : Nat) (m : BitVec 32) :
    ∃ gs ts os, s.finishLanes id m = { s with groups := gs, teams := ts, ops := os } := by
  unfold State.finishLanes
  split
  · exact ⟨_, _, _, rfl⟩
  · split <;> exact ⟨_, _, _, rfl⟩

/-! ### What monitors that fire leave -/

/-- Every core is the same but for its epoch and its L1, and so is every operation but the one of number `id`. -/
structure FiresAt (id : Nat) (s t : State) : Prop where
  cores : ∀ c, ∃ e l, t.coreOf c = { s.coreOf c with epoch := e, l1 := l }
  ops : ∀ n, n ≠ id → t.op? n = s.op? n

theorem FiresAt.refl (id : Nat) : FiresAt id s s := ⟨fun _ => ⟨_, _, rfl⟩, fun _ _ => rfl⟩

theorem FiresAt.trans {id : Nat} {s t u : State} (h : FiresAt id s t) (k : FiresAt id t u) : FiresAt id s u := by
  refine ⟨fun c => ?_, fun n hn => (k.ops n hn).trans (h.ops n hn)⟩
  obtain ⟨_, _, h1⟩ := h.cores c
  obtain ⟨e, l, h2⟩ := k.cores c
  exact ⟨e, l, by rw [h2, h1]⟩

/-- The same cores and operations. -/
theorem FiresAt.of_eq {s t : State} (id : Nat) (hc : t.cores = s.cores) (ho : t.ops = s.ops) : FiresAt id s t :=
  ⟨fun c => ⟨_, _, by rw [State.coreOf, hc]; rfl⟩, fun n _ => by rw [State.op?, ho]⟩

/-- A rewriting of a core's epoch and L1. -/
theorem State.updCore_firesAt (id c : Nat) (f : Core → Core) (hf : ∀ k, ∃ e l, f k = { k with epoch := e, l1 := l }) :
    FiresAt id s (s.updCore c f) := by
  refine ⟨fun n => ?_, fun _ _ => rfl⟩
  have hcid : ∀ k, (f k).cid = k.cid := fun k => by
    obtain ⟨_, _, h⟩ := hf k
    rw [h]
  rw [s.updCore_coreOf c n f hcid]
  split
  · next hn => rw [hn]; exact hf _
  · exact ⟨_, _, rfl⟩

theorem State.updGroup_firesAt (id gid : Nat) (f : Group → Group) : FiresAt id s (s.updGroup gid f) := .of_eq id rfl rfl
theorem State.updAny_firesAt (id gid : Nat) (f : Group → Group) : FiresAt id s (s.updAny gid f) := .of_eq id rfl rfl
theorem State.sweepMonitors_firesAt (id : Nat) : FiresAt id s s.sweepMonitors := .of_eq id rfl rfl

theorem acquireWide_firesAt (id gid : Nat) : FiresAt id s (acquireWide s gid) := by
  unfold acquireWide
  split
  · exact .refl s id
  · exact (s.updCore_firesAt id _ _ fun _ => ⟨_, _, rfl⟩).trans (State.updGroup_firesAt _ id gid _)

theorem acquire_firesAt (id gid : Nat) (sc : Scope) : FiresAt id s (acquire s gid sc) := by
  unfold acquire
  split
  · exact acquireWide_firesAt s id gid
  · exact .refl s id

/-- Filling a sector changes the L1 of its core. -/
theorem State.fillL1_firesAt (id core : Nat) (t : Trans) (va : Nat) (a : Bool) :
    FiresAt id s (s.fillL1 core t va a) := by
  refine s.updCore_firesAt id core _ fun k => ?_
  dsimp only
  split
  · exact ⟨_, _, rfl⟩
  · split <;> exact ⟨_, _, rfl⟩

theorem releaseWaitc_firesAt (o : Op) (sc : Scope) (lane : Nat) (t : Trans) (v : Nat) (out : Bool) :
    FiresAt o.id s (releaseWaitc s o sc lane t v out) := by
  have hfinish : ∀ u : State, FiresAt o.id u (u.finishLanes o.id (maskOf [lane])) := fun u => by
    obtain ⟨_, _, _, h⟩ := u.finishLanes_only o.id (maskOf [lane])
    exact ⟨fun c => ⟨(u.coreOf c).epoch, (u.coreOf c).l1, by rw [h]; rfl⟩, fun n hn => u.finishLanes_op?_other hn _⟩
  simp only [releaseWaitc]
  refine .trans ?_ (State.sweepMonitors_firesAt _ o.id)
  refine .trans ?_ (acquire_firesAt _ o.id _ _)
  refine .trans ?_ (hfinish _)
  refine .trans (t := if (s.group? o.gid).isSome then _ else s) ?_ (State.updAny_firesAt _ o.id _ _)
  split
  · exact s.fillL1_firesAt _ _ _ _ _
  · exact .refl s _

/-- A write or a walk's mark, and the monitors that fire at it, leave every core but for its epoch and its L1, and every
operation that is not a `WAITC`. -/
structure FireKeeps (s t : State) : Prop where
  cores : ∀ c, ∃ e l, t.coreOf c = { s.coreOf c with epoch := e, l1 := l }
  ops : ∀ n o, s.op? n = some o → (∀ cc sc w, o.kind ≠ .waitc cc sc w) → t.op? n = some o

theorem FireKeeps.refl : FireKeeps s s := ⟨fun _ => ⟨_, _, rfl⟩, fun _ _ h _ => h⟩

theorem FireKeeps.trans {s t u : State} (h : FireKeeps s t) (k : FireKeeps t u) : FireKeeps s u := by
  refine ⟨fun c => ?_, fun n o ho hw => k.ops n o (h.ops n o ho hw) hw⟩
  obtain ⟨_, _, h1⟩ := h.cores c
  obtain ⟨e, l, h2⟩ := k.cores c
  exact ⟨e, l, by rw [h2, h1]⟩

theorem FireKeeps.foldl {α : Type} {f : State → α → State} (hf : ∀ s x, FireKeeps s (f s x)) (l : List α) (s : State) :
    FireKeeps s (l.foldl f s) :=
  foldl_related FireKeeps.refl (fun _ _ _ => .trans) hf l s

theorem FireKeeps.of_eq {s t : State} (hc : t.cores = s.cores) (ho : t.ops = s.ops) : FireKeeps s t :=
  ⟨fun c => ⟨_, _, by rw [State.coreOf, hc]; rfl⟩, fun n o h _ => by rw [State.op?, ho]; exact h⟩

theorem State.updAny_fireKeeps (gid : Nat) (f : Group → Group) : FireKeeps s (s.updAny gid f) := .of_eq rfl rfl
theorem State.sweepMonitors_fireKeeps : FireKeeps s s.sweepMonitors := .of_eq rfl rfl
theorem withMem_fireKeeps (m : List Host.Cell) : FireKeeps s { s with mem := m } := .of_eq rfl rfl

/-- What changes no operation but a `WAITC`. -/
theorem FiresAt.keeps {s t : State} {id : Nat} (h : FiresAt id s t)
    (hid : ∀ o, s.op? id = some o → ∃ cc sc w, o.kind = .waitc cc sc w) : FireKeeps s t := by
  refine ⟨h.cores, fun n o ho hw => ?_⟩
  by_cases hn : n = id
  · obtain ⟨cc, sc, w, hk⟩ := hid o (hn ▸ ho)
    exact absurd hk (hw cc sc w)
  · rw [h.ops n hn]
    exact ho

theorem fireWaitc_fireKeeps (id key : Nat) : FireKeeps s (fireWaitc s id key) := by
  simp only [fireWaitc]
  split
  · exact .refl s
  · next o ho =>
    have hid : o.id = id := by simpa using List.find?_some ho
    split
    · next cc sc w64 hk =>
      refine FiresAt.keeps (id := o.id) (foldl_related (FiresAt.refl · o.id) (fun _ _ _ => .trans) (fun s a => ?_) _ s)
        fun p hp => ?_
      · split
        · exact releaseWaitc_firesAt _ _ _ _ _ _ _
        · exact .refl s _
      · rw [hid, ho, Option.some.injEq] at hp
        exact ⟨cc, sc, w64, hp ▸ hk⟩
    · exact .refl s

/-- Fibres that pass a grid barrier start and end no operation. -/
theorem fireBarG_fireKeeps (gid key : Nat) (b : BitVec 4) : FireKeeps s (fireBarG s gid key b) := by
  have hwide : ∀ u : State, FireKeeps u (acquireWide u gid) := fun u =>
    ⟨(acquireWide_firesAt u 0 gid).cores, fun n o ho _ => by rw [(acquireWide_firesAt u (n + 1) gid).ops n (by omega), ho]⟩
  simp only [fireBarG]
  split
  · exact .refl s
  · split
    · exact .refl s
    · exact .trans (.trans (State.updAny_fireKeeps _ gid _) (hwide _)) (State.sweepMonitors_fireKeeps _)

theorem fireMonitors_fireKeeps (key n : Nat) : FireKeeps s (fireMonitors s key n) := by
  refine .foldl (fun s m => ?_) _ s
  split
  · split
    · exact fireBarG_fireKeeps _ _ _ _
    · exact .refl s
  · split
    · exact .foldl (fun s o => fireWaitc_fireKeeps s _ _) _ s
    · exact .refl s

theorem State.setAccessed_fireKeeps (l : List Nat) : FireKeeps s (s.setAccessed l) := by
  refine .foldl (fun s a => ?_) l s
  dsimp only
  split
  · exact .refl s
  · exact (withMem_fireKeeps s _).trans (fireMonitors_fireKeeps _ _ _)

/-! ### What monitors that fire read -/

/-- The states differ in cores, but not in their epochs, and in the dies' TLBs. -/
def SameButTables (s t : State) : Prop :=
  ∃ ks tl, t = { s with cores := ks, stlb := tl } ∧ ∀ c, (t.coreOf c).epoch = (s.coreOf c).epoch

theorem SameButTables.mem {s t : State} (h : SameButTables s t) : t.mem = s.mem := by obtain ⟨_, _, rfl, -⟩ := h; rfl
theorem SameButTables.groups {s t : State} (h : SameButTables s t) : t.groups = s.groups := by
  obtain ⟨_, _, rfl, -⟩ := h; rfl

theorem SameButTables.trans {s t u : State} (h : SameButTables s t) (k : SameButTables t u) : SameButTables s u := by
  obtain ⟨_, _, rfl, h⟩ := h
  obtain ⟨_, _, rfl, k⟩ := k
  exact ⟨_, _, rfl, fun c => (k c).trans (h c)⟩

theorem SameButTables.symm {s t : State} (h : SameButTables s t) : SameButTables t s := by
  obtain ⟨_, _, rfl, h⟩ := h
  exact ⟨s.cores, s.stlb, rfl, fun c => (h c).symm⟩

/-- A fold whose steps take states that differ so to such states. -/
theorem SameButTables.foldl {α : Type} {f : State → α → State}
    (hf : ∀ {s t} x, SameButTables s t → SameButTables (f s x) (f t x)) (l : List α) :
    ∀ {s t}, SameButTables s t → SameButTables (l.foldl f s) (l.foldl f t) := by
  induction l with
  | nil => exact id
  | cons x l ih => exact fun h => ih (hf x h)

/-- A rewriting of a core that leaves its epoch. -/
theorem State.updCore_sameButTables (c : Nat) (f : Core → Core) (hf : ∀ k, (f k).cid = k.cid ∧ (f k).epoch = k.epoch) :
    SameButTables s (s.updCore c f) := by
  refine ⟨_, s.stlb, rfl, fun n => ?_⟩
  rw [s.updCore_coreOf c n f fun k => (hf k).1]
  split
  · next hn => rw [hn]; exact (hf _).2
  · rfl

theorem State.fillL1_sameButTables (core : Nat) (t : Trans) (va : Nat) (a : Bool) :
    SameButTables s (s.fillL1 core t va a) := by
  refine s.updCore_sameButTables core _ fun k => ?_
  dsimp only
  split
  · exact ⟨rfl, rfl⟩
  · split <;> exact ⟨rfl, rfl⟩

theorem State.storeL1_sameButTables (core : Nat) (t : Trans) (l : List Byte) (drop : Bool) :
    SameButTables s (s.storeL1 core t l drop) := by
  refine s.updCore_sameButTables core _ fun k => ?_
  split <;> exact ⟨rfl, rfl⟩

section
variable {s} {t : State} (h : SameButTables s t)
include h

/-- What reads and changes neither cores nor the dies' TLBs. -/
theorem SameButTables.of_blind {f : State → State}
    (hf : ∀ (s : State) ks tl, f { s with cores := ks, stlb := tl } = { f s with cores := ks, stlb := tl } ∧
      (f s).cores = s.cores) : SameButTables (f s) (f t) := by
  obtain ⟨ks, tl, rfl, h⟩ := h
  refine ⟨ks, tl, (hf s ks tl).1, fun c => ?_⟩
  rw [(hf s ks tl).1, State.coreOf, State.coreOf, (hf s ks tl).2]
  exact h c

theorem SameButTables.updAny (gid : Nat) (f : Group → Group) : SameButTables (s.updAny gid f) (t.updAny gid f) :=
  h.of_blind (f := fun s => s.updAny gid f) fun _ _ _ => ⟨rfl, rfl⟩

theorem SameButTables.sweepMonitors : SameButTables s.sweepMonitors t.sweepMonitors :=
  h.of_blind fun _ _ _ => ⟨rfl, rfl⟩

theorem SameButTables.withMem (m : List Host.Cell) :
    SameButTables { s with mem := m } { t with mem := m } :=
  h.of_blind (f := fun s => { s with mem := m }) fun _ _ _ => ⟨rfl, rfl⟩

theorem SameButTables.finishLanes (id : Nat) (m : BitVec 32) :
    SameButTables (s.finishLanes id m) (t.finishLanes id m) := by
  refine h.of_blind (f := fun s => s.finishLanes id m) fun s ks tl => ?_
  unfold State.finishLanes
  cases s.op? id with
  | none => exact ⟨rfl, rfl⟩
  | some o =>
    dsimp only
    split <;> exact ⟨rfl, rfl⟩

/-- An acquire takes every core's epoch on alike. -/
theorem SameButTables.acquireWide (gid : Nat) : SameButTables (acquireWide s gid) (acquireWide t gid) := by
  obtain ⟨ks, tl, rfl, h⟩ := h
  unfold Machine.acquireWide
  cases s.group? gid with
  | none => exact ⟨ks, tl, rfl, h⟩
  | some g =>
    dsimp only
    rw [h g.core]
    refine ⟨_, tl, rfl, fun c => ?_⟩
    have hcore := fun u : State => u.updCore_coreOf g.core c (fun k => { k with
      epoch := (s.coreOf g.core).epoch + 1, l1 := if (s.coreOf g.core).epoch + 1 = 0 then [] else k.l1 }) fun _ => rfl
    refine (congrArg Core.epoch (hcore { s with cores := ks, stlb := tl })).trans
      (.trans ?_ (congrArg Core.epoch (hcore s)).symm)
    split
    · rfl
    · exact h c

theorem SameButTables.acquire (gid : Nat) (sc : Scope) : SameButTables (acquire s gid sc) (acquire t gid sc) := by
  unfold Machine.acquire
  split
  · exact h.acquireWide gid
  · exact h

theorem SameButTables.fillL1 (core : Nat) (tr : Trans) (va : Nat) (a : Bool) :
    SameButTables (s.fillL1 core tr va a) (t.fillL1 core tr va a) :=
  (s.fillL1_sameButTables core tr va a).symm.trans (h.trans (t.fillL1_sameButTables core tr va a))

theorem SameButTables.releaseWaitc (o : Op) (sc : Scope) (lane : Nat) (tr : Trans) (v : Nat) (out : Bool) :
    SameButTables (releaseWaitc s o sc lane tr v out) (releaseWaitc t o sc lane tr v out) := by
  simp only [Machine.releaseWaitc]
  refine SameButTables.sweepMonitors (.acquire (.finishLanes (.updAny ?_ _ _) _ _) _ _)
  rw [State.group?, State.group?, h.groups]
  split
  · exact h.fillL1 _ _ _ _
  · exact h

theorem SameButTables.fireWaitc (id key : Nat) : SameButTables (fireWaitc s id key) (fireWaitc t id key) := by
  have hop : t.op? id = s.op? id := by obtain ⟨_, _, rfl, -⟩ := h; rfl
  have hword : ∀ w, t.wordAt key w = s.wordAt key w := fun w => by rw [State.wordAt, h.mem]
  simp only [Machine.fireWaitc, hop, hword]
  split
  · exact h
  · split
    · refine SameButTables.foldl (fun a h => ?_) _ h
      split
      · exact h.releaseWaitc _ _ _ _ _ _
      · exact h
    · exact h

theorem SameButTables.fireBarG (gid key : Nat) (b : BitVec 4) :
    SameButTables (fireBarG s gid key b) (fireBarG t gid key b) := by
  have hgroup : t.anyGroup? gid = s.anyGroup? gid := by obtain ⟨_, _, rfl, -⟩ := h; rfl
  simp only [Machine.fireBarG, hgroup, h.mem]
  split
  · exact h
  · split
    · exact h
    · exact ((h.updAny gid _).acquireWide gid).sweepMonitors

theorem SameButTables.fireMonitors (key n : Nat) : SameButTables (fireMonitors s key n) (fireMonitors t key n) := by
  have hmonitors : t.monitors = s.monitors := by obtain ⟨_, _, rfl, -⟩ := h; rfl
  simp only [Machine.fireMonitors, hmonitors]
  refine SameButTables.foldl (fun {s t} m h => ?_) _ h
  have hops : t.ops = s.ops := by obtain ⟨_, _, rfl, -⟩ := h; rfl
  split
  · split
    · exact h.fireBarG _ _ _
    · exact h
  · rw [hops]
    split
    · exact SameButTables.foldl (f := fun s (o : Op) => Machine.fireWaitc s o.id m.pa) (fun o h => h.fireWaitc o.id m.pa) _ h
    · exact h

/-- Accessed bits are set alike. -/
theorem SameButTables.setAccessed (l : List Nat) : SameButTables (s.setAccessed l) (t.setAccessed l) := by
  refine SameButTables.foldl (fun {s t} a h => ?_) l h
  dsimp only
  rw [h.mem]
  split
  · exact h
  · exact (h.withMem _).fireMonitors a 1

end

end Sys2Proof.Machine
end

section
/-!
Deferred faults (R159, R227): trap entry of fibres that have faults of their own, and what it leaves of their group.
-/

namespace Sys2Proof.Machine

open Sys2Proof

/-! ### Trap entry of fibres with faults of their own -/

/-- What trap entry leaves of a group that has a handler, each fibre with its own fault. -/
def Group.trappedEach (tvec : Dword) (lanes : BitVec 32) (base : FaultRec) (own : List (Nat × FaultRec)) (g : Group) :
    Group :=
  let k := g.updLanes lanes fun i x =>
    let y := x.take tvec (laneFault base own i)
    if g.halted && y.status == .running then { y with status := .halted } else y
  match base.xl with
  | some (va, info) => { k with xlVa := va, xlInfo := info }
  | none => k

theorem Group.trappedEach_only (tvec : Dword) (lanes : BitVec 32) (base : FaultRec) (own : List (Nat × FaultRec))
    (g : Group) : ∃ ls va info, g.trappedEach tvec lanes base own = { g with lanes := ls, xlVa := va, xlInfo := info } := by
  simp only [trappedEach]
  split <;> exact ⟨_, _, _, rfl⟩

theorem Group.trappedEach_lane (tvec : Dword) (lanes : BitVec 32) (base : FaultRec) (own : List (Nat × FaultRec))
    (g : Group) {j : Nat} (hj : j < 32) :
    ∃ st, (g.trappedEach tvec lanes base own).lane j =
      if lanes.getLsbD j then { (g.lane j).take tvec (laneFault base own j) with status := st } else g.lane j := by
  have hlanes : (g.trappedEach tvec lanes base own).lanes = (g.updLanes lanes fun i x =>
      if g.halted && (x.take tvec (laneFault base own i)).status == .running then
        { x.take tvec (laneFault base own i) with status := .halted } else x.take tvec (laneFault base own i)).lanes := by
    simp only [trappedEach]
    split <;> rfl
  rw [Group.lane, hlanes, ← Group.lane, Group.updLanes_lane _ _ _ _ hj]
  generalize g.lane j = x
  split
  · split
    · exact ⟨_, rfl⟩
    · exact ⟨(x.take tvec (laneFault base own j)).status, rfl⟩
  · exact ⟨.running, rfl⟩

/-- Trap entry that is fatal for no fibre, as it leaves the group. -/
theorem State.takeTrap_group? {s : State} {gid : Nat} {lanes : BitVec 32} {base : FaultRec}
    {own : List (Nat × FaultRec)} {g : Group} {t : Team} (hg : s.group? gid = some g) (ht : s.teamOf? gid = some t)
    (hf : ((lanesOf lanes).any fun i => (g.lane i).fatal t.tvec) = false) :
    (s.takeTrap gid lanes base own).group? gid = some (g.trappedEach t.tvec lanes base own) := by
  simp only [State.takeTrap, hg, ht, hf, Bool.false_eq_true, if_false]
  refine State.updGroup_group?_same hg (Group.trappedEach t.tvec lanes base own) fun g => ?_
  obtain ⟨_, _, _, h⟩ := g.trappedEach_only t.tvec lanes base own
  rw [h]

/-- The record of a trap says that it is live, and in which mode the fibre was. -/
theorem Fibre.record_estatus (x : Fibre) (f : FaultRec) :
    (x.record f).estatus.getLsbD 15 = true ∧ (x.record f).estatus.getLsbD 14 = x.mode := by
  have hrem : ∀ (r : BitVec 4) n, 4 ≤ n → (r.setWidth 32).getLsbD n = false := fun r n hn => by
    rw [BitVec.getLsbD_setWidth, BitVec.getLsbD_of_ge r n hn, Bool.and_false]
  have hst : (x.record f).estatus = 0x8000 ||| (if x.mode then 0x4000 else 0) |||
      (if (f.resume.getD (x.pc, x.rem, x.clause)).2.1 = 0 then 0 else 0x2000) |||
      (if x.demoted then 0x1000 else 0) ||| (f.resume.getD (x.pc, x.rem, x.clause)).2.1.setWidth 32 := rfl
  rw [hst]
  generalize (f.resume.getD (x.pc, x.rem, x.clause)).2.1 = r
  have hinside : ∀ n, 14 ≤ n → (if r = 0 then (0 : Word) else 0x2000).getLsbD n = false := fun n hn => by
    split
    · exact BitVec.getLsbD_zero
    · exact Nat.testBit_lt_two_pow (Nat.lt_of_lt_of_le (by decide) (Nat.pow_le_pow_right (by decide) hn))
  have hdemoted : ∀ n, 14 ≤ n → (if x.demoted then (0x1000 : Word) else 0).getLsbD n = false := fun n hn => by
    split
    · exact Nat.testBit_lt_two_pow (Nat.lt_of_lt_of_le (by decide) (Nat.pow_le_pow_right (by decide) hn))
    · exact BitVec.getLsbD_zero
  simp only [BitVec.getLsbD_or, hrem r 15 (by omega), hrem r 14 (by omega), hinside 15 (by omega),
    hinside 14 (by omega), hdemoted 15 (by omega), hdemoted 14 (by omega), Bool.or_false]
  cases x.mode <;> exact ⟨rfl, rfl⟩

/-! ### Deferred faults -/

/-- A fibre's oldest fault of an earlier instruction. -/
def Fibre.oldest (x : Fibre) : FaultRec := (x.defer.head?).getD {}

/-- The lanes that take their oldest fault together with one of this code. -/
def deferredTogether (s : State) (g : Group) (f : FaultRec) : BitVec 32 :=
  deferLanes s g &&& g.lanesWhere fun x => (x.defer.head?).map (·.cause) == some f.cause

/-- The group after fibres have taken their oldest fault out of those that wait. -/
def Group.undeferred (m : BitVec 32) (g : Group) : Group := g.updLanes m fun _ x => { x with defer := x.defer.drop 1 }

theorem Group.undeferred_lane (g : Group) (m : BitVec 32) {j : Nat} (hj : j < 32) : (g.undeferred m).lane j =
    { g.lane j with defer := if m.getLsbD j then (g.lane j).defer.drop 1 else (g.lane j).defer } := by
  rw [undeferred, Group.updLanes_lane _ _ _ _ hj]
  generalize g.lane j = x
  cases m.getLsbD j <;> rfl

/-- A fibre's record keeps EINFO as its own fault was found, where that fault is the one recorded. -/
def Fibre.einfoOf (f : FaultRec) (x : Fibre) : Fibre :=
  if x.ecause.setWidth 8 = f.cause then { x with einfo := f.info } else x

theorem Fibre.einfoOf_only (f : FaultRec) (x : Fibre) : ∃ w, x.einfoOf f = { x with einfo := w } := by
  rw [einfoOf]
  split <;> exact ⟨_, rfl⟩

theorem Group.setLane_self (g : Group) (i : Nat) : g.setLane i (g.lane i) = g := by
  by_cases h : i < 32 <;> simp [Group.setLane, Group.lane, vset, vget, h]

/-- The fold that puts each fibre's own EINFO into its record. -/
theorem foldl_einfo (l : List (Nat × FaultRec)) (g : Group) :
    l.foldl (fun (g : Group) p =>
      if (g.lane p.1).ecause.setWidth 8 = p.2.cause then g.setLane p.1 { g.lane p.1 with einfo := p.2.info } else g) g =
    g.eachLane Fibre.einfoOf l := by
  rw [Group.eachLane]
  congr 1
  funext g p
  rw [Fibre.einfoOf]
  split
  · rfl
  · exact (g.setLane_self p.1).symm

/-- What a deferred fault leaves of its group. -/
def Group.deferredTaken (tvec : Dword) (m : BitVec 32) (f : FaultRec) (own : List (Nat × FaultRec)) (g : Group) : Group :=
  ((g.undeferred m).trappedEach tvec m f own).eachLane Fibre.einfoOf own

/-- The fibres that take their oldest fault together, each with it. -/
abbrev ownFaults (m : BitVec 32) (g : Group) : List (Nat × FaultRec) :=
  (lanesOf m).map fun i => (i, (g.lane i).oldest)

theorem ownFaults_nodup (m : BitVec 32) (g : Group) : ((ownFaults m g).map (·.1)).Nodup := by
  rw [ownFaults, List.map_map]
  exact (List.map_id _).symm ▸ nodup_lanesOf m

/-- Each of the fibres that take a fault together has one. -/
theorem ownFaults_eq (s : State) (g : Group) (f : FaultRec) :
    ((lanesOf (deferredTogether s g f)).filterMap fun i => (g.lane i).defer.head?.map fun f => (i, f)) =
      ownFaults (deferredTogether s g f) g := by
  rw [ownFaults, ← List.filterMap_eq_map]
  refine List.filterMap_congr fun i hi => ?_
  obtain ⟨hi, hm⟩ := mem_lanesOf.mp hi
  rw [deferredTogether, BitVec.getLsbD_and, Group.getLsbD_lanesWhere _ _ hi, Bool.and_eq_true] at hm
  cases hd : (g.lane i).defer.head? with
  | none => rw [hd] at hm; simp at hm
  | some f => simp [Fibre.oldest, hd]

section
variable {s : State} {gid lane : Nat} {g : Group} {tm : Team} {f : FaultRec} {rest : List FaultRec}

/-- Trap entry of the fibres that take their oldest fault together is fatal for none of them, where the team has a
handler and no fibre a live record. -/
theorem undeferred_not_fatal (hv : tm.tvec ≠ 0) (hlive : ∀ j, j < 32 → (g.lane j).estatus.getLsbD 15 = false)
    (m : BitVec 32) : ((lanesOf m).any fun i => ((g.undeferred m).lane i).fatal tm.tvec) = false := by
  refine List.any_eq_false.mpr fun i hi => ?_
  have hi := (mem_lanesOf.mp hi).1
  rw [Fibre.fatal, g.undeferred_lane m hi, hlive i hi, Bool.false_or, beq_eq_false_iff_ne.mpr hv]
  exact Bool.false_ne_true

/-- A deferred fault is a trap entry of the fibres that take theirs together, each with its own EINFO. -/
theorem doDeferredFault_eq (hg : s.group? gid = some g) (ht : s.team? g.tid = some tm)
    (hd : (g.lane lane).defer = f :: rest) (hlive : ∀ j, j < 32 → (g.lane j).estatus.getLsbD 15 = false)
    {m : BitVec 32} (hm : deferredTogether s g f = m) :
    doDeferredFault s gid lane = ((s.updGroup gid (Group.undeferred m)).takeTrap gid m f (ownFaults m g)).updGroup gid
      (Group.eachLane Fibre.einfoOf · (ownFaults m g)) := by
  have hown := hm ▸ ownFaults_eq s g f
  have hfresh : (ownFaults m g).filter (fun p => !(g.lane p.1).estatus.getLsbD 15) = ownFaults m g := by
    refine List.filter_eq_self.mpr fun p hp => ?_
    obtain ⟨i, hi, rfl⟩ := List.mem_map.mp hp
    rw [hlive i (mem_lanesOf.mp hi).1, Bool.not_false]
  have hteam : (s.updGroup gid (Group.undeferred m)).teamOf? gid = some tm := by
    rw [State.teamOf?, State.updGroup_group?_same hg (Group.undeferred m) fun _ => rfl]
    exact ht
  rw [deferredTogether] at hm
  simp only [doDeferredFault, hg, hd, hm, hown, hfresh, foldl_einfo]
  split
  · next hnone => exact absurd (hnone.symm.trans hteam) (by simp)
  · rfl

/-- What a deferred fault does where the team has a handler and no fibre a live record. -/
theorem doDeferredFault_spec (hg : s.group? gid = some g) (ht : s.team? g.tid = some tm)
    (hd : (g.lane lane).defer = f :: rest) (hv : tm.tvec ≠ 0)
    (hlive : ∀ j, j < 32 → (g.lane j).estatus.getLsbD 15 = false)
    {m : BitVec 32} (hm : deferredTogether s g f = m) :
    (doDeferredFault s gid lane).mem = s.mem ∧ (doDeferredFault s gid lane).ops = s.ops ∧
      (doDeferredFault s gid lane).group? gid = some (g.deferredTaken tm.tvec m f (ownFaults m g)) := by
  have hg1 := State.updGroup_group?_same hg (Group.undeferred m) fun _ => rfl
  have ht1 : (s.updGroup gid (Group.undeferred m)).teamOf? gid = some tm := by rw [State.teamOf?, hg1]; exact ht
  have hfatal := undeferred_not_fatal hv hlive m
  obtain ⟨gs, htrap⟩ := State.takeTrap_only _ (base := f) (own := ownFaults m g) hg1 ht1 hfatal
  rw [doDeferredFault_eq hg ht hd hlive hm]
  refine ⟨by rw [htrap]; rfl, by rw [htrap]; rfl, State.updGroup_group?_same (State.takeTrap_group? hg1 ht1 hfatal)
    (Group.eachLane Fibre.einfoOf · (ownFaults m g)) fun k => ?_⟩
  obtain ⟨ls, hls⟩ := k.eachLane_only Fibre.einfoOf (ownFaults m g)
  rw [hls]

/-- Taking a deferred fault writes no register and no predicate. -/
theorem Group.deferredTaken_sameRegs (tvec : Dword) (m : BitVec 32) (f : FaultRec) (g : Group) :
    SameRegs g (g.deferredTaken tvec m f (ownFaults m g)) := by
  obtain ⟨ls, hls⟩ := ((g.undeferred m).trappedEach tvec m f (ownFaults m g)).eachLane_only Fibre.einfoOf (ownFaults m g)
  obtain ⟨ls', va, info, htrap⟩ := (g.undeferred m).trappedEach_only tvec m f (ownFaults m g)
  have hlane : ∀ j, j < 32 → ((g.deferredTaken tvec m f (ownFaults m g)).lane j).regs = (g.lane j).regs ∧
      ((g.deferredTaken tvec m f (ownFaults m g)).lane j).preds = (g.lane j).preds := fun j hj => by
    obtain ⟨st, hst⟩ := (g.undeferred m).trappedEach_lane tvec m f (ownFaults m g) hj
    have htaken : (((g.undeferred m).trappedEach tvec m f (ownFaults m g)).lane j).regs = (g.lane j).regs ∧
        (((g.undeferred m).trappedEach tvec m f (ownFaults m g)).lane j).preds = (g.lane j).preds := by
      rw [hst, g.undeferred_lane m hj]
      split
      · exact Fibre.take_regs _ tvec _
      · exact ⟨rfl, rfl⟩
    rw [Group.deferredTaken, Group.eachLane_lane _ _ _ (ownFaults_nodup m g) hj]
    cases assoc (ownFaults m g) j with
    | none => exact htaken
    | some f' =>
      obtain ⟨w, hw⟩ := Fibre.einfoOf_only f' (((g.undeferred m).trappedEach tvec m f (ownFaults m g)).lane j)
      rw [Option.elim_some, hw]
      exact htaken
  refine ⟨?_, ?_, fun j hj => (hlane j hj).1, fun j hj => (hlane j hj).2⟩
  · rw [Group.deferredTaken, hls, htrap]
    rfl
  · rw [Group.deferredTaken, hls, htrap]
    rfl

/-- A fibre that takes its oldest fault with the others is at the handler, with that fault in its record. -/
theorem Group.deferredTaken_lane {tvec : Dword} (hv : tvec ≠ 0) {m : BitVec 32} (hlane : lane < 32)
    (hm : m.getLsbD lane = true) (hd : (g.lane lane).defer = f :: rest)
    (hlive : (g.lane lane).estatus.getLsbD 15 = false) :
    ∃ st, (g.deferredTaken tvec m f (ownFaults m g)).lane lane = { (g.lane lane).record f with
      defer := rest, mode := true, demoted := false, demWait := 0, pc := tvec.setWidth 56, rem := 0, active := false,
      status := st } := by
  have hown : assoc (ownFaults m g) lane = some f := by
    rw [ownFaults, assoc_map_self, if_pos (mem_lanesOf.mpr ⟨hlane, hm⟩), Fibre.oldest, hd]
    rfl
  have hfault : laneFault f (ownFaults m g) lane = { f with info := f.info ||| 0x80000000 } := by
    rw [laneFault, hown]
    simp
  have hundeferred : (g.undeferred m).lane lane = { g.lane lane with defer := rest } := by
    rw [g.undeferred_lane m hlane, if_pos hm, hd, List.drop_one, List.tail_cons]
  obtain ⟨st, hst⟩ := (g.undeferred m).trappedEach_lane tvec m f (ownFaults m g) hlane
  rw [if_pos hm, hfault, hundeferred, Fibre.take_handler _ _ _ (by exact hlive) hv] at hst
  refine ⟨st, ?_⟩
  rw [Group.deferredTaken, Group.eachLane_lane _ _ _ (ownFaults_nodup m g) hlane, hown, Option.elim_some, hst,
    Fibre.einfoOf]
  have hcause : (f.cause.setWidth 32).setWidth 8 = f.cause := by
    rw [BitVec.setWidth_setWidth_of_le _ (by omega), BitVec.setWidth_eq]
  exact if_pos hcause

end

/-- A fibre that may take a deferred fault now takes it with the others of its code. -/
theorem deferredTogether_lane {s : State} {gid lane : Nat} {g : Group} {f : FaultRec} {rest : List FaultRec}
    (hg : s.group? gid = some g) (hlane : lane < 32) (he : enabledDeferredFault s gid lane = true)
    (hd : (g.lane lane).defer = f :: rest) : (deferredTogether s g f).getLsbD lane = true := by
  rw [enabledDeferredFault, hg] at he
  have hmem : lane ∈ lanesOf (deferLanes s g) := List.mem_of_mem_head? (by simpa using he)
  rw [deferredTogether, BitVec.getLsbD_and, (mem_lanesOf.mp hmem).2, Group.getLsbD_lanesWhere _ _ hlane, hd]
  simp

/-- A fibre takes its oldest deferred fault at its packet boundary. -/
theorem deferredFault_spec (s : State) (gid lane : Nat) (g : Group) (tm : Team) (f : FaultRec) (rest : List FaultRec)
    (hg : s.group? gid = some g) (ht : s.team? g.tid = some tm) (hlane : lane < 32)
    (he : enabledDeferredFault s gid lane = true) (hd : (g.lane lane).defer = f :: rest) (hv : tm.tvec ≠ 0)
    (hlive : ∀ j, j < 32 → (g.lane j).estatus.getLsbD 15 = false) :
    ∃ t k, exec (.deferredFault gid lane) s = .next t ∧ t.mem = s.mem ∧ t.ops = s.ops ∧ t.group? gid = some k ∧
      SameRegs g k ∧
      let x := g.lane lane
      let y := k.lane lane
      let r := f.resume.getD (x.pc, x.rem, x.clause)
      y.defer = rest ∧ y.ecause = f.cause.setWidth 32 ∧ y.eaddr = f.addr ∧ y.einfo = f.info ∧ y.epc = r.1.setWidth 64 ∧
      y.eclause = r.2.2 ∧ y.estatus.getLsbD 15 = true ∧ y.estatus.getLsbD 14 = x.mode ∧ y.mode = true ∧
      y.pc = tm.tvec.setWidth 56 ∧ y.rem = 0 := by
  have hexec : exec (.deferredFault gid lane) s = .next (doDeferredFault s gid lane) := by
    show execDeferredFault gid lane s = _
    exact whenEnabled_next he s _
  obtain ⟨hmem, hops, hgroup⟩ := doDeferredFault_spec hg ht hd hv hlive rfl
  obtain ⟨st, hst⟩ := Group.deferredTaken_lane hv hlane (deferredTogether_lane hg hlane he hd) hd (hlive lane hlane)
  obtain ⟨h15, h14⟩ := (g.lane lane).record_estatus f
  refine ⟨_, _, hexec, hmem, hops, hgroup, Group.deferredTaken_sameRegs tm.tvec _ f g, ?_⟩
  dsimp only
  rw [hst]
  exact ⟨rfl, rfl, rfl, rfl, rfl, rfl, h15, h14, rfl, rfl, rfl⟩

end Sys2Proof.Machine
end

section
/-!
Generation retries (R159): a load of one access, and the statement of O47.
-/

namespace Sys2Proof.Machine

open Sys2Proof

/-! ### Translations without a packet -/

/-- A walk reads no core and no TLB. -/
theorem walk_congr {s t : State} (h : SameButTables s t) (asid va : Nat) : walk t asid va = walk s asid va := by
  obtain ⟨_, _, rfl, -⟩ := h
  rfl

/-- The windows of all cores are the same. -/
def SameWindows (s t : State) : Prop :=
  ∀ c, (t.coreOf c).cpwin = (s.coreOf c).cpwin ∧ (t.coreOf c).cpwinb = (s.coreOf c).cpwinb

/-- A translation made without a packet reads of the cores their windows alone. -/
theorem xlateNow_congr {s t : State} (h : SameButTables s t) (hw : SameWindows s t) (asid va : Nat) (k : AccKind)
    (user : Bool) (lane : Nat) (retry : Bool) : xlateNow t asid va k user lane retry = xlateNow s asid va k user lane retry := by
  have hpinned : ∀ core va, pinnedHere t core va = pinnedHere s core va := fun core va => by
    rw [pinnedHere, (hw core).1, (hw core).2, pinnedHere]
  have hfault : ∀ tr, permFault t asid va lane k tr user retry = permFault s asid va lane k tr user retry := fun tr => by
    rw [permFault, walk_congr h, permFault]
  simp only [xlateNow, walk_congr h, hpinned, hfault]

/-- Dropping the TLB entries of older generations changes no other table of a core. -/
theorem State.dropStale_coreOf (s : State) (core asid c : Nat) :
    ∃ tl, (s.dropStale core asid).coreOf c = { s.coreOf c with tlb := tl } := by
  have h : (s.dropStale core asid).coreOf c = if c = core then _ else _ := s.updCore_coreOf core c
    (fun k => { k with tlb := k.tlb.filter fun e => e.asid ≠ asid || e.tr.gen == (s.ctxOf asid).gen }) fun _ => rfl
  rw [h]
  split
  · next hc => exact ⟨_, by rw [hc]⟩
  · exact ⟨(s.coreOf c).tlb, rfl⟩

theorem State.dropStale_sameButTables (s : State) (core asid : Nat) : SameButTables s (s.dropStale core asid) := by
  refine ⟨_, _, rfl, fun c => ?_⟩
  obtain ⟨_, h⟩ := s.dropStale_coreOf core asid c
  rw [h]

theorem State.dropStale_sameWindows (s : State) (core asid : Nat) : SameWindows s (s.dropStale core asid) := fun c => by
  obtain ⟨_, h⟩ := s.dropStale_coreOf core asid c
  rw [h]
  exact ⟨rfl, rfl⟩

/-! ### The retry of a load -/

section
variable {s : State} {core id : Nat} {o : Op} {a : Access}

/-- The accesses of an operation that has one, a load, where no store and no request is rejected. -/
theorem rejectedOf_load (ho : s.op? id = some o) (hva : o.vaOf a = a.va.toNat) (ha : o.accs = [a])
    (hr : a.rejected = true) (hcop : ∀ c ∈ (s.coreOf core).cop, c.rejected = false)
    (hreqs : ∀ r ∈ s.reqs, r.rejected = false) :
    rejectedOf s core id = if o.lanes.getLsbD a.lane then [(a.lane, a.va.toNat, .load)] else [] := by
  have hstores : (s.coreOf core).cop.filter (fun c => c.rejected && c.rec_.op = id) = [] :=
    List.filter_eq_nil_iff.mpr fun c hc => by simp [hcop c hc]
  have hatoms : s.reqs.filter (fun r => r.rejected && r.tree.ops.contains id) = [] :=
    List.filter_eq_nil_iff.mpr fun r hq => by simp [hreqs r hq]
  rw [rejectedOf, hstores, hatoms, ho]
  cases hl : o.lanes.getLsbD a.lane <;> simp [ha, hr, hl, hva]

/-- The new translation in the accesses of a lane's address. -/
def Op.renewed (lane va : Nat) (tr : Trans) (o : Op) : Op :=
  { o with accs := o.accs.map fun b => if b.lane = lane ∧ o.vaOf b = va then { b with rejected := false, tr := tr } else b }

/-- A retried access takes its translation in its operation, in the core's tables and among the requests. -/
theorem retranslate_only (s : State) (core id lane va : Nat) (tr : Trans) : ∃ ks rs,
    retranslate s core id lane va tr = { s.updOp id (Op.renewed lane va tr) with cores := ks, reqs := rs } := by
  rw [retranslate]
  split <;> exact ⟨_, _, rfl⟩

theorem retranslate_spec (ho : s.op? id = some o) (lane va : Nat) (tr : Trans) :
    (retranslate s core id lane va tr).mem = s.mem ∧ (retranslate s core id lane va tr).groups = s.groups ∧
      (retranslate s core id lane va tr).op? id = some (o.renewed lane va tr) := by
  obtain ⟨_, _, h⟩ := retranslate_only s core id lane va tr
  rw [h]
  exact ⟨rfl, rfl, State.updOp_op?_same ho (Op.renewed lane va tr) fun _ => rfl⟩

/-- An operation that is not a store is not ended by the end of its stores. -/
theorem storeDone_of_load (ho : s.op? id = some o) {size : Size} {sx : Bool} {pol : Policy} {acq : Option Scope}
    {poll : Option Bool} (hk : o.kind = .load size sx pol acq poll) : storeDone s id = s := by
  rw [storeDone, ho]
  dsimp only
  rw [hk]

/-- A retry of the one access of a load whose walk ends. -/
theorem doGenerationRetry_load {size : Size} {sx : Bool} {pol : Policy} {acq : Option Scope} {poll : Option Bool}
    {tr : Trans} (ho : s.op? id = some o) (hk : o.kind = .load size sx pol acq poll) (ha : o.accs = [a])
    (hr : a.rejected = true) (hcop : ∀ c ∈ (s.coreOf core).cop, c.rejected = false)
    (hreqs : ∀ r ∈ s.reqs, r.rejected = false) (hlane : o.lanes.getLsbD a.lane = true)
    (hx : xlateNow s o.asid a.va.toNat .load (o.users.getLsbD a.lane) a.lane true = some (.ok tr)) :
    doGenerationRetry s core id = storeDone (retranslate ((s.dropStale core o.asid).accessed o.asid a.va.toNat) core id
      a.lane a.va.toNat tr) id := by
  have hva : o.vaOf a = a.va.toNat := by rw [Op.vaOf, hk]
  have hrej := rejectedOf_load ho hva ha hr hcop hreqs
  have hcop' : ∀ c ∈ ((s.dropStale core o.asid).coreOf core).cop, c.rejected = false := by
    obtain ⟨_, h⟩ := s.dropStale_coreOf core o.asid core
    rw [h]
    exact hcop
  have hrej' := rejectedOf_load (s := s.dropStale core o.asid) ho hva ha hr hcop' hreqs
  rw [if_pos hlane] at hrej hrej'
  have hx' := (xlateNow_congr (s.dropStale_sameButTables core o.asid) (s.dropStale_sameWindows core o.asid) o.asid
    a.va.toNat .load (o.users.getLsbD a.lane) a.lane true).trans hx
  rw [doGenerationRetry, ho]
  simp only [hrej, List.foldl_cons, List.foldl_nil, hrej', List.contains_cons, BEq.rfl, Bool.true_or, Bool.not_true,
    Bool.false_eq_true, if_false, stage2Fails, hx']

/-- A load that was returned for its generation takes its new translation. -/
theorem generationRetry_spec (s : State) (core id : Nat) (o : Op) (a : Access) (w : WalkRes) (tr : Trans) (size : Size)
    (sx : Bool) (pol : Policy) (acq : Option Scope) (poll : Option Bool) (ho : s.op? id = some o)
    (hk : o.kind = .load size sx pol acq poll) (ha : o.accs = [a]) (hr : a.rejected = true)
    (hcop : ∀ c ∈ (s.coreOf core).cop, c.rejected = false) (hreqs : ∀ r ∈ s.reqs, r.rejected = false)
    (he : enabledGenerationRetry s core id = true) (hw : walk s o.asid a.va.toNat = .ok w)
    (hx : xlateNow s o.asid a.va.toNat .load (o.users.getLsbD a.lane) a.lane true = some (.ok tr)) :
    ∃ t q, exec (.generationRetry core id) s = .next t ∧ t.mem = (s.setAccessed w.leaves).mem ∧
      t.groups = (s.setAccessed w.leaves).groups ∧ t.op? id = some q ∧
      q.accs = [{ a with rejected := false, tr := tr }] ∧ q.kind = o.kind ∧ q.lanes = o.lanes := by
  have hva : o.vaOf a = a.va.toNat := by rw [Op.vaOf, hk]
  have hlane : o.lanes.getLsbD a.lane = true := by
    by_contra hnot
    have hnone := rejectedOf_load ho hva ha hr hcop hreqs
    rw [if_neg hnot] at hnone
    rw [enabledGenerationRetry, ho] at he
    simp [hnone] at he
  have hsame := s.dropStale_sameButTables core o.asid
  have haccessed : (s.dropStale core o.asid).accessed o.asid a.va.toNat =
      (s.dropStale core o.asid).setAccessed w.leaves := by rw [State.accessed, walk_congr hsame, hw]
  have hmarked := hsame.setAccessed w.leaves
  have hop := ((s.dropStale core o.asid).setAccessed_fireKeeps w.leaves).ops id o ho fun cc sc w hwait => by
    rw [hk] at hwait
    cases hwait
  obtain ⟨hmem, hgroups, hq⟩ := retranslate_spec (core := core) hop a.lane a.va.toNat tr
  have hexec : exec (.generationRetry core id) s = .next (retranslate ((s.dropStale core o.asid).setAccessed w.leaves)
      core id a.lane a.va.toNat tr) := by
    show execGenerationRetry core id s = _
    rw [execGenerationRetry, whenEnabled_next he, doGenerationRetry_load ho hk ha hr hcop hreqs hlane hx, haccessed,
      storeDone_of_load hq hk]
  refine ⟨_, _, hexec, hmem.trans hmarked.mem, hgroups.trans hmarked.groups, hq, ?_, rfl, rfl⟩
  rw [Op.renewed, ha, List.map_singleton, if_pos ⟨rfl, hva⟩]

end

/-- Settles O47: the fault by the trap entry of the fibres that take theirs together, the retry by the access renewed. -/
theorem deferredFaultsAndRetries : Obligations.DeferredFaultsAndRetries :=
  ⟨deferredFault_spec, generationRetry_spec⟩

end Sys2Proof.Machine
end

section
/-!
SUPPORT. What memory reads after a range of it is copied or moved, where the entries lie that a walk uses, and what
lines that leave the L2 leave of the counters of touches.
-/

namespace Sys2Proof.Machine

open Sys2Proof

/-! ### Ranges copied and moved (R163) -/

theorem Mem.get_filter {lo : Nat} (p : Nat → Bool) (a : Nat) : ∀ {m : List Host.Cell}, Mem.wfFrom lo m →
    Mem.get (m.filter fun c => p c.1) a = if p a then Mem.get m a else 0
  | [], _ => by rw [List.filter_nil, Mem.get, ite_self]
  | (c, v) :: r, hm => by
    have hr : Mem.wfFrom (c + 1) r := (Bool.and_eq_true _ _ ▸ hm : _ ∧ _).2
    have ih := Mem.get_filter p a hr
    rw [Mem.get_cons hm]
    by_cases hc : p c = true
    · have hf := Mem.filter_wfFrom (fun c => p c.1) hm
      rw [List.filter_cons_of_pos (p := fun c : Host.Cell => p c.1) hc] at hf ⊢
      rw [Mem.get_cons hf, ih]
      by_cases ha : a = c
      · rw [if_pos ha, if_pos ha, ha, if_pos hc]
      · rw [if_neg ha, if_neg ha]
    · rw [List.filter_cons_of_neg (p := fun c : Host.Cell => p c.1) hc, ih]
      by_cases ha : a = c
      · rw [ha, if_neg hc, if_neg hc]
      · rw [if_neg ha]

theorem Mem.get_clear {m : List Host.Cell} (h : Mem.wf m) (a n x : Nat) :
    Mem.get (Mem.clear m a n) x = if a ≤ x ∧ x < a + n then 0 else Mem.get m x := by
  rw [Mem.clear, Mem.get_filter (fun b => !(decide (a ≤ b) && decide (b < a + n))) x h]
  by_cases hx : a ≤ x ∧ x < a + n <;> simp [hx]

/-- Cells written over a memory, as far from `dst` as they lay from `src`. -/
def Mem.shiftOnto (m : List Host.Cell) (src dst : Nat) (cells : List Host.Cell) : List Host.Cell :=
  cells.foldl (fun m c => Mem.set m (c.1 - src + dst) c.2) m

theorem Mem.get_shiftOnto (src dst x : Nat) (cells : List Host.Cell) : ∀ {lo : Nat} {m : List Host.Cell},
    Mem.wf m → Mem.wfFrom lo cells → (∀ c ∈ cells, src ≤ c.1) →
    Mem.get (Mem.shiftOnto m src dst cells) (dst + x) =
      if Mem.get cells (src + x) = 0 then Mem.get m (dst + x) else Mem.get cells (src + x) := by
  induction cells with
  | nil => exact fun _ _ _ => (if_pos rfl).symm
  | cons c r ih =>
    obtain ⟨a, v⟩ := c
    intro lo m hm hc hsrc
    have hparts := hc
    simp only [Mem.wfFrom, Bool.and_eq_true, decide_eq_true_eq, bne_iff_ne] at hparts
    obtain ⟨⟨-, hv⟩, hr⟩ := hparts
    have ha : src ≤ a := hsrc _ List.mem_cons_self
    have hstep : Mem.shiftOnto m src dst ((a, v) :: r) = Mem.shiftOnto (Mem.set m (a - src + dst) v) src dst r := rfl
    rw [hstep, ih (Mem.set_wf _ _ hm) hr fun c hc => hsrc c (List.mem_cons_of_mem _ hc), Mem.get_cons hc,
      Mem.get_set hm]
    by_cases hx : src + x = a
    · rw [if_pos hx, Mem.get_of_lt (by omega) hr, if_pos rfl, if_pos (by omega), if_neg hv]
    · rw [if_neg hx, if_neg (show ¬ dst + x = a - src + dst by omega)]

/-- The cells of a range read as memory does there. -/
theorem Mem.get_range {m : List Host.Cell} (h : Mem.wf m) {src n x : Nat} (hx : x < n) :
    Mem.get (m.filter fun c => decide (src ≤ c.1) && decide (c.1 < src + n)) (src + x) = Mem.get m (src + x) := by
  rw [Mem.get_filter (fun b => decide (src ≤ b) && decide (b < src + n)) (src + x) h]
  exact if_pos (by simpa using hx)

/-- What a range written over a cleared one reads. -/
theorem Mem.get_shiftOnto_range {m z : List Host.Cell} (h : Mem.wf m) (hz : Mem.wf z) (src dst : Nat) {n x : Nat}
    (hx : x < n) (hzero : Mem.get z (dst + x) = 0) :
    Mem.get (Mem.shiftOnto z src dst (m.filter fun c => decide (src ≤ c.1) && decide (c.1 < src + n))) (dst + x) =
      Mem.get m (src + x) := by
  rw [Mem.get_shiftOnto src dst x _ hz (Mem.filter_wfFrom _ h), hzero, Mem.get_range h hx]
  · split
    · next h0 => exact h0.symm
    · rfl
  · intro c hc
    obtain ⟨-, hin⟩ := List.mem_filter.mp hc
    exact of_decide_eq_true (Bool.and_eq_true _ _ ▸ hin : _ ∧ _).1

/-- A range that was moved reads at its new place as it did at the old one. -/
theorem Mem.get_moveTo {m : List Host.Cell} (h : Mem.wf m) (src dst : Nat) {n x : Nat} (hx : x < n) :
    Mem.get (Mem.moveTo m src dst n) (dst + x) = Mem.get m (src + x) :=
  Mem.get_shiftOnto_range h (Mem.clear_wf _ _ (Mem.clear_wf _ _ h)) src dst hx
    ((Mem.get_clear (Mem.clear_wf _ _ h) dst n _).trans (if_pos (by omega)))

/-- A range that was copied reads at its new place as it did at the old one. -/
theorem Mem.get_copyTo {m : List Host.Cell} (h : Mem.wf m) (src dst : Nat) {n x : Nat} (hx : x < n) :
    Mem.get (Mem.copyTo m src dst n) (dst + x) = Mem.get m (src + x) :=
  Mem.get_shiftOnto_range h (Mem.clear_wf _ _ h) src dst hx
    ((Mem.get_clear h dst n _).trans (if_pos (by omega)))

/-! ### Where the entries of a walk lie (R156, R158) -/

/-- Each level of a walk indexes a table that its predecessor's entry can name: 2^13 entries, or 2^9 after level 2. -/
def LevelsFit : List (Nat × Nat × Nat) → Prop
  | [] => True
  | (lv, _, _) :: rest => (∀ q ∈ rest.head?, q.2.2 ≤ if lv = 2 then 9 else 13) ∧ LevelsFit rest

theorem walkLevels_fit : LevelsFit walkLevels := by
  simp [walkLevels, LevelsFit]

/-- A node whose table ends within the physical addresses. -/
abbrev NodeFits (node : Nat) (levels : List (Nat × Nat × Nat)) : Prop :=
  ∀ q ∈ levels.head?, node + 8 * 2 ^ q.2.2 ≤ 2 ^ 52

/-- What turns a node's address into the one it is read at stays within the physical addresses. -/
def NodesWithin (node2 : Nat → Except WalkErr (Nat × List Nat)) : Prop :=
  ∀ a p, a < 2 ^ 52 → node2 a = .ok p → p.1 < 2 ^ 52 ∧ ∀ x ∈ p.2, x < 2 ^ 52

/-- The node that a table's entry names. -/
theorem nodeFits_of_tableOk {lv : Nat} {e : Dword} {rest : List (Nat × Nat × Nat)} (h : tableOk lv e = true)
    (hfit : ∀ q ∈ rest.head?, q.2.2 ≤ if lv = 2 then 9 else 13) : NodeFits (dbits e 12 40 * 4096) rest := by
  intro q hq
  have hw := hfit q hq
  simp only [tableOk, Bool.and_eq_true, Bool.or_eq_true, beq_iff_eq] at h
  have hlow := h.2
  by_cases hlv : lv = 2
  · rw [if_pos hlv] at hw
    have hpow : 2 ^ q.2.2 ≤ 2 ^ 9 := Nat.pow_le_pow_right (by decide) hw
    have hbound : dbits e 12 40 < 2 ^ 40 := Nat.mod_lt _ (by decide)
    omega
  · rw [if_neg hlv] at hw
    have hpow : 2 ^ q.2.2 ≤ 2 ^ 13 := Nat.pow_le_pow_right (by decide) hw
    have halign := hlow.resolve_left hlv
    simp only [dbits, nbits] at halign ⊢
    omega

/-- The leaf of one stage and the entries of the other that it used lie within the physical addresses. -/
theorem walkStage_within {mem : List Host.Cell} {bad : Nat → Bool} {s2 : Bool}
    {node2 : Nat → Except WalkErr (Nat × List Nat)} {va gpa : Nat} (hn : NodesWithin node2)
    (levels : List (Nat × Nat × Nat)) : ∀ {node : Nat} {r : Dword × Nat × Nat × List Nat}, LevelsFit levels →
    NodeFits node levels → walkStage mem bad s2 node2 va gpa levels node = .ok r →
    r.2.1 < 2 ^ 52 ∧ ∀ x ∈ r.2.2.2, x < 2 ^ 52 := by
  induction levels with
  | nil => exact fun _ _ h => by cases h
  | cons l rest ih =>
    obtain ⟨lv, sh, n⟩ := l
    intro node r hfit hnode h
    obtain ⟨hnext, hrest⟩ := hfit
    have hentry : node + 8 * nbits va sh n < 2 ^ 52 := by
      have hsize : node + 8 * 2 ^ n ≤ 2 ^ 52 := hnode (lv, sh, n) rfl
      have hindex : nbits va sh n < 2 ^ n := Nat.mod_lt _ (Nat.two_pow_pos n)
      omega
    rw [walkStage] at h
    split at h
    · cases h
    · next a used hread =>
      obtain ⟨ha, hused⟩ := hn _ _ hentry hread
      dsimp only at h
      split_ifs at h with _ _ _ _ _ htable
      · obtain rfl := Except.ok.inj h
        exact ⟨ha, hused⟩
      · have hok : tableOk lv (Mem.read64 mem a) = true := by
          simp only [Bool.or_eq_true, not_or, Bool.not_eq_true', Bool.not_eq_false] at htable
          exact htable.2
        cases hsub : walkStage mem bad s2 node2 va gpa rest (dbits (Mem.read64 mem a) 12 40 * 4096) with
        | error e => rw [hsub] at h; cases h
        | ok p =>
          rw [hsub] at h
          obtain rfl := Except.ok.inj h
          obtain ⟨hleaf, hlater⟩ := ih hrest (nodeFits_of_tableOk hok hnext) hsub
          refine ⟨hleaf, fun x hx => ?_⟩
          rcases List.mem_append.mp hx with hx | hx
          · exact hused x hx
          · exact hlater x hx

/-- A table of 2^5 entries at a root that a register names. -/
theorem root_fits (x : Dword) : NodeFits (dbits x 8 44 * 256) walkLevels := by
  intro q hq
  obtain rfl : (0, 51, 5) = q := Option.some.inj hq
  have hbound : dbits x 8 44 < 2 ^ 44 := Nat.mod_lt _ (by decide)
  dsimp only
  omega

theorem leafPa_lt (e : Dword) (lv va : Nat) : leafPa e lv va < 2 ^ 52 := by
  have h27 : dbits e 25 27 < 2 ^ 27 := Nat.mod_lt _ (by decide)
  have h36 : dbits e 16 36 < 2 ^ 36 := Nat.mod_lt _ (by decide)
  rw [leafPa]
  split <;> omega

/-- Stage 2 gives an address within the physical ones, by a leaf that lies within them. -/
theorem walk2_within {s : State} {c : Ctx} {gpa : Nat} {p : Nat × Dword × Nat × Nat} (h : walk2 s c gpa = .ok p) :
    p.1 < 2 ^ 52 ∧ p.2.2.1 < 2 ^ 52 := by
  rw [walk2] at h
  split at h
  · cases h
  · next e a lv used hstage =>
    obtain rfl := Except.ok.inj h
    have hsame : NodesWithin fun a => .ok (a, []) := fun a p ha hp => by
      obtain rfl := Except.ok.inj hp
      exact ⟨ha, fun x hx => by cases hx⟩
    exact ⟨leafPa_lt e lv gpa, (walkStage_within hsame walkLevels walkLevels_fit (root_fits _) hstage).1⟩

/-- Every entry that a walk uses lies within the physical addresses. -/
theorem walk_leaves_lt {s : State} {asid va : Nat} {r : WalkRes} (h : walk s asid va = .ok r) :
    ∀ l ∈ r.leaves, l < 2 ^ 52 := by
  have hnodes : NodesWithin fun a => if isGuest s.host.mgmt asid = true
      then (walk2 s (s.ctxOf asid) a).map fun p => (p.1, [p.2.2.1]) else .ok (a, []) := by
    intro a p ha hp
    dsimp only at hp
    split at hp
    · cases hw : walk2 s (s.ctxOf asid) a with
      | error e => rw [hw] at hp; cases hp
      | ok q =>
        rw [hw] at hp
        obtain rfl := Except.ok.inj hp
        obtain ⟨hpa, hleaf⟩ := walk2_within hw
        exact ⟨hpa, fun x hx => (List.mem_singleton.mp hx) ▸ hleaf⟩
    · obtain rfl := Except.ok.inj hp
      exact ⟨ha, fun x hx => by cases hx⟩
  rw [walk] at h
  split at h
  · cases h
  · dsimp only at h
    split at h
    · cases h
    · next e a lv used hstage =>
      obtain ⟨hleaf, hused⟩ := walkStage_within hnodes walkLevels walkLevels_fit (root_fits _) hstage
      split at h
      · split at h
        · cases h
        · next hsecond =>
          obtain rfl := Except.ok.inj h
          have hleaf2 := (walk2_within hsecond).2
          intro l hl
          rcases List.mem_cons.mp hl with rfl | hl
          · exact hleaf
          · rcases List.mem_cons.mp hl with rfl | hl
            · exact hleaf2
            · exact hused l hl
      · obtain rfl := Except.ok.inj h
        exact fun l hl => (List.mem_singleton.mp hl) ▸ hleaf

/-- A walk's translation is of the context's present generation. -/
theorem walk_gen {s : State} {asid va : Nat} {r : WalkRes} (h : walk s asid va = .ok r) :
    r.tr.gen = (s.ctxOf asid).gen := by
  rw [walk] at h
  split at h
  · cases h
  · dsimp only at h
    split at h
    · cases h
    · split at h
      · split at h
        · cases h
        · obtain rfl := Except.ok.inj h; rfl
      · obtain rfl := Except.ok.inj h; rfl

/-- Accessed bits change memory at the leaves alone. -/
theorem State.get_setAccessed (x : Nat) (l : List Nat) : ∀ s : State, Mem.wf s.mem → (∀ a ∈ l, a ≠ x) →
    Mem.get (s.setAccessed l).mem x = Mem.get s.mem x := by
  induction l with
  | nil => exact fun _ _ _ => rfl
  | cons a l ih =>
    intro s hm hx
    have hax : x ≠ a := (hx a List.mem_cons_self).symm
    have step : s.setAccessed (a :: l) = (if (Mem.get s.mem a).getLsbD 4 then s
        else fireMonitors { s with mem := Mem.set s.mem a (Mem.get s.mem a ||| 0x10) } a 1).setAccessed l := rfl
    have hrest : ∀ b ∈ l, b ≠ x := fun b hb => hx b (List.mem_cons_of_mem _ hb)
    rw [step]
    split
    · exact ih s hm hrest
    · rw [ih _ (by rw [fireMonitors_mem]; exact Mem.set_wf _ _ hm) hrest, fireMonitors_mem, Mem.get_set hm, if_neg hax]

/-- The marks of a walk change nothing above the physical addresses. -/
theorem State.get_accessed_above (s : State) (hm : Mem.wf s.mem) (asid va : Nat) {x : Nat} (hx : 2 ^ 52 ≤ x) :
    Mem.get (s.accessed asid va).mem x = Mem.get s.mem x := by
  rw [State.accessed]
  split
  · next r hr =>
    refine State.get_setAccessed x r.leaves s hm fun a ha => ?_
    have := walk_leaves_lt hr a ha
    omega
  · rfl

/-! ### Lines that leave the L2 (R153, R155) -/

/-- The counters of touches are among those before, and of those whose line is at its home none has gone. -/
structure TouchesStay (s t : State) : Prop where
  old : ∀ l ∈ t.touches, l ∈ s.touches
  home : ∀ l ∈ s.touches, l.holder = sliceHash (256 * l.line) → l ∈ t.touches

theorem TouchesStay.trans {s t u : State} (h : TouchesStay s t) (k : TouchesStay t u) : TouchesStay s u :=
  ⟨fun l hl => h.old l (k.old l hl), fun l hl hhome => k.home l (h.home l hl hhome) hhome⟩

theorem TouchesStay.of_eq {s t : State} (h : t.touches = s.touches) : TouchesStay s t :=
  ⟨fun _ hl => h ▸ hl, fun _ hl _ => h ▸ hl⟩

theorem State.choose_touchesStay (s : State) (n : Nat) : TouchesStay s (s.choose n).2 := by
  unfold State.choose
  split <;> exact .of_eq rfl

theorem State.evict_touchesStay (s : State) (x : L2Line) : TouchesStay s (s.evict x) := by
  refine ⟨fun _ hl => List.mem_of_mem_filter hl, fun l hl hhome => List.mem_filter.mpr ⟨hl, ?_⟩⟩
  by_cases hline : l.line = x.line
  · simp [hhome, hline]
  · simp [hline]

theorem State.evictTo_touchesStay (p : L2Line → Bool) (n fuel : Nat) : ∀ s : State,
    TouchesStay s (s.evictTo p n fuel) := by
  induction fuel with
  | zero => exact fun _ => .of_eq rfl
  | succ fuel ih =>
    intro s
    have pick (m k : Nat) : TouchesStay s (if m = 0 then (0, s) else s.choose k).2 := by
      split
      · exact .of_eq rfl
      · exact s.choose_touchesStay k
    simp only [State.evictTo]
    split
    · exact .of_eq rfl
    · split
      · exact ((pick _ _).trans (State.evict_touchesStay _ _)).trans (ih _)
      · exact pick _ _

theorem State.l2Enter_touchesStay (s : State) (x : L2Line) : TouchesStay s (s.l2Enter x) :=
  (State.evictTo_touchesStay _ _ _ s).trans (.of_eq rfl)

/-- A line that enters the L2 is in it. -/
theorem State.mem_l2Enter (s : State) (x : L2Line) : x ∈ (s.l2Enter x).l2 := List.mem_cons_self

end Sys2Proof.Machine
end

section
/-!
Walks that end, generations and invalidations (R153, R156 to R161, R164).
-/

namespace Sys2Proof.Machine

open Sys2Proof

variable (s : State)

/-! ### Cores rewritten -/

/-- A core found after its own rewriting. -/
theorem State.updCore_coreOf_same (c : Nat) (f : Core → Core) (hf : ∀ k, (f k).cid = k.cid) :
    (s.updCore c f).coreOf c = f (s.coreOf c) := by
  rw [s.updCore_coreOf c c f hf, if_pos rfl]

/-- A core found after all were rewritten by a function that leaves a fresh one. -/
theorem coreOf_map {s t : State} {f : Core → Core} (ht : t.cores = s.cores.map f) (hf : ∀ k, (f k).cid = k.cid)
    (c : Nat) (hfresh : f { cid := c } = { cid := c }) : t.coreOf c = f (s.coreOf c) := by
  simp only [State.coreOf, ht, List.find?_map, Function.comp_def, hf]
  cases s.cores.find? fun k => decide (k.cid = c) with
  | none => exact hfresh.symm
  | some k => rfl

/-! ### Walks (R156, R157) -/

/-- The walk of a core that was found has its number. -/
theorem Core.walk?_id {k : Core} {id : Nat} {w : Walk} (h : k.walk? id = some w) : w.id = id := by
  simpa using List.find?_some h

/-- The state in which a walk has ended, but for what comes of it. -/
abbrev walkGone (s : State) (core id : Nat) : State :=
  s.updCore core fun k => { k with walks := k.walks.filter fun q => q.id ≠ id }

theorem walkGone_coreOf (core id : Nat) : (walkGone s core id).coreOf core =
    { s.coreOf core with walks := (s.coreOf core).walks.filter fun q => q.id ≠ id } :=
  s.updCore_coreOf_same core (fun k => { k with walks := k.walks.filter fun q => q.id ≠ id }) fun _ => rfl

theorem walkGone_sameButTables (core id : Nat) : SameButTables s (walkGone s core id) :=
  s.updCore_sameButTables core (fun k => { k with walks := k.walks.filter fun q => q.id ≠ id }) fun _ => ⟨rfl, rfl⟩

/-- The TLB entry that a walk's result makes. -/
def WalkRes.entry (asid : Nat) (r : WalkRes) : TlbEntry :=
  { asid := asid, page := r.page, big := r.big,
    tr := { r.tr with pa := if r.big then r.tr.pa / 2 ^ 25 * 2 ^ 25 else r.tr.pa / 2 ^ 16 * 2 ^ 16 } }

theorem State.installTlb_coreOf (core : Nat) (e : TlbEntry) :
    (s.installTlb core e).coreOf core = { s.coreOf core with tlb := (e :: (s.coreOf core).tlb).take 512 } :=
  s.updCore_coreOf_same core (fun k => { k with tlb := (e :: k.tlb).take 512 }) fun _ => rfl

section
variable {s} {core id : Nat} {w : Walk}

theorem exec_walkComplete_ok (hw : (s.coreOf core).walk? id = some w) (hs : w.stale = false)
    (he : enabledWalkComplete s core id = true) {r : WalkRes} (hr : walk s w.asid w.va = .ok r) :
    exec (.walkComplete core id) s =
      .next (((walkGone s core id).setAccessed r.leaves).installTlb core (r.entry w.asid)) := by
  show execWalkComplete core id s = _
  rw [execWalkComplete, whenEnabled_next he, doWalkComplete, hw]
  simp only [hs, hr, Bool.false_eq_true, if_false]
  rfl

/-- A walk that ends well installs its translation and marks its leaves. -/
theorem walkComplete_installs (hw : (s.coreOf core).walk? id = some w) (hs : w.stale = false)
    (he : enabledWalkComplete s core id = true) (r : WalkRes) (hr : walk s w.asid w.va = .ok r) :
    ∃ t e, exec (.walkComplete core id) s = .next t ∧
      t.mem = (s.setAccessed r.leaves).mem ∧ t.groups = (s.setAccessed r.leaves).groups ∧
      (t.coreOf core).walk? id = none ∧ e ∈ (t.coreOf core).tlb ∧ (t.coreOf core).tlb.length ≤ 512 ∧
      (∀ x ∈ (t.coreOf core).tlb, x = e ∨ x ∈ (s.coreOf core).tlb) ∧
      ((s.coreOf core).tlb.length < 512 → ∀ x ∈ (s.coreOf core).tlb, x ∈ (t.coreOf core).tlb) ∧ e.asid = w.asid ∧
      e.page = r.page ∧ e.big = r.big ∧ e.tr.gen = (s.ctxOf w.asid).gen ∧ e.tr.home = r.tr.home ∧
      (e.tr.r, e.tr.w, e.tr.x, e.tr.u) = (r.tr.r, r.tr.w, r.tr.x, r.tr.u) := by
  have hmarked := (walkGone_sameButTables s core id).setAccessed r.leaves
  obtain ⟨ep, l1, hcore⟩ := ((walkGone s core id).setAccessed_fireKeeps r.leaves).cores core
  rw [walkGone_coreOf] at hcore
  have hinstalled := ((walkGone s core id).setAccessed r.leaves).installTlb_coreOf core (r.entry w.asid)
  rw [hcore] at hinstalled
  refine ⟨_, r.entry w.asid, exec_walkComplete_ok hw hs he hr, hmarked.mem, hmarked.groups, ?_⟩
  rw [hinstalled]
  refine ⟨List.find?_eq_none.mpr fun q hq => ?_, List.mem_cons_self, List.length_take_le _ _, fun x hx => ?_,
    fun hlen x hx => ?_, rfl, rfl, rfl, walk_gen hr, rfl, rfl⟩
  · simpa using (List.mem_filter.mp hq).2
  · exact List.mem_cons.mp (List.mem_of_mem_take hx)
  · show x ∈ List.take 512 _
    rw [List.take_of_length_le (by rw [List.length_cons]; exact hlen)]
    exact List.mem_cons_of_mem _ hx

/-- A walk that fails keeps its failure. -/
theorem walkComplete_fails (hw : (s.coreOf core).walk? id = some w) (hs : w.stale = false)
    (he : enabledWalkComplete s core id = true) (lv : Nat) (s2 : Bool) (cause gpa : Nat)
    (hr : walk s w.asid w.va = .error (.bad lv s2 cause gpa)) :
    ∃ t, exec (.walkComplete core id) s = .next t ∧ t.mem = s.mem ∧ t.groups = s.groups ∧
      (t.coreOf core).tlb = (s.coreOf core).tlb ∧ (t.coreOf core).fails = (s.coreOf core).fails ++
        [{ asid := w.asid, page := w.va / 2 ^ 16, level := lv, s2 := s2, cause := cause, gpa := gpa }] := by
  have hexec : exec (.walkComplete core id) s = .next ((walkGone s core id).updCore core fun k => { k with
      fails := k.fails ++
        [{ asid := w.asid, page := w.va / 2 ^ 16, level := lv, s2 := s2, cause := cause, gpa := gpa }] }) := by
    show execWalkComplete core id s = _
    rw [execWalkComplete, whenEnabled_next he, doWalkComplete, hw]
    simp only [hs, hr, Bool.false_eq_true, if_false]
  refine ⟨_, hexec, rfl, rfl, ?_⟩
  rw [State.updCore_coreOf_same _ core (fun k => { k with fails := k.fails ++
    [{ asid := w.asid, page := w.va / 2 ^ 16, level := lv, s2 := s2, cause := cause, gpa := gpa }] }) fun _ => rfl,
    walkGone_coreOf]
  exact ⟨rfl, rfl⟩

/-- A walk that reads a migrating leaf again: 1 µs later, while it migrates. -/
def Walk.rereads (s : State) (id : Nat) (w : Walk) : Walk :=
  if w.id = id then { w with reread := if migrates s w then some (s.now + 1000) else none } else w

theorem Walk.rereads_id (s : State) (id : Nat) (w : Walk) : (w.rereads s id).id = w.id := by
  rw [rereads]
  split <;> rfl

theorem walkMigrateReread_spec (hw : (s.coreOf core).walk? id = some w)
    (he : enabledWalkMigrateReread s core id = true) :
    ∃ t v, exec (.walkMigrateReread core id) s = .next t ∧ t.mem = s.mem ∧ (t.coreOf core).walk? id = some v ∧
      v.reread = if migrates s w then some (s.now + 1000) else none := by
  have hexec : exec (.walkMigrateReread core id) s =
      .next (s.updCore core fun k => { k with walks := k.walks.map (Walk.rereads s id) }) := by
    show execWalkMigrateReread core id s = _
    exact whenEnabled_next he s _
  have hcore := s.updCore_coreOf_same core (fun k => { k with walks := k.walks.map (Walk.rereads s id) }) fun _ => rfl
  refine ⟨_, w.rereads s id, hexec, rfl, ?_, ?_⟩
  · rw [hcore]
    simp only [Core.walk?, List.find?_map, Function.comp_def, Walk.rereads_id]
    exact congrArg (Option.map _) hw
  · rw [Walk.rereads, if_pos (Core.walk?_id hw)]

end

/-! ### Generations (R160) -/

/-- Writes that become complete leave memory, cores, contexts and the dies' TLBs. -/
theorem settleWrites_only (i : Instr) :
    ∃ gs ts os, settleWrites s i = { s with groups := gs, teams := ts, ops := os } := by
  rw [settleWrites]
  generalize s.ops.filter _ = l
  induction l generalizing s with
  | nil => exact ⟨_, _, _, rfl⟩
  | cons o l ih =>
    obtain ⟨_, _, _, h⟩ := s.finishLanes_only o.id (BitVec.allOnes 32)
    rw [List.foldl_cons, State.finishOp, h]
    exact ih _

/-- A core's TLB after entries that meet a test were dropped everywhere. -/
theorem dropTlb_coreOf (p : TlbEntry → Bool) (c : Nat) :
    (dropTlb s p).coreOf c = { s.coreOf c with tlb := (s.coreOf c).tlb.filter fun e => !p e } :=
  coreOf_map (f := fun k => { k with tlb := k.tlb.filter fun e => !p e }) rfl (fun _ => rfl) c rfl

theorem bumpGen_ctxOf (asid n : Nat) :
    (bumpGen s asid).ctxOf n = if n = asid then { s.ctxOf asid with bump := true } else s.ctxOf n :=
  s.updCtx_ctxOf asid n (fun c => { c with bump := true }) fun _ => rfl

/-- A generation bump begins. -/
theorem xlgenBump_spec (asid : Nat) (h : s.inputs.head? = some (.xlgenBump asid)) :
    ∃ t, exec (.xlgenBump asid) s = .next t ∧ t.inputs = s.inputs.drop 1 ∧ (t.ctxOf asid).bump = true ∧
      (t.ctxOf asid).gen = (s.ctxOf asid).gen ∧ ∀ b, b ≠ asid → t.ctxOf b = s.ctxOf b := by
  have hexec : exec (.xlgenBump asid) s = .next (bumpGen { s with inputs := s.inputs.drop 1 } asid) := by
    show execXlgenBump asid s = _
    exact fromOutside_next h _
  have hctx := bumpGen_ctxOf { s with inputs := s.inputs.drop 1 } asid
  refine ⟨_, hexec, rfl, ?_, ?_, fun b hb => ?_⟩
  · rw [hctx, if_pos rfl]
  · rw [hctx, if_pos rfl]
    rfl
  · rw [hctx, if_neg hb]
    rfl

/-- The state in which a context's next generation is current, and the fibres that wait test again. -/
def nextGen (s : State) (asid : Nat) : State :=
  retestWaits (s.updCtx asid fun c => { c with gen := c.gen + 1, bump := false }) asid

theorem nextGen_ctxOf (asid n : Nat) : (nextGen s asid).ctxOf n =
    if n = asid then { s.ctxOf asid with gen := (s.ctxOf asid).gen + 1, bump := false } else s.ctxOf n :=
  s.updCtx_ctxOf asid n (fun c => { c with gen := c.gen + 1, bump := false }) fun _ => rfl

/-- A context whose generation has wrapped to 0 loses its TLB entries. -/
def wrapDropped (s : State) (asid : Nat) : State :=
  if (s.ctxOf asid).gen = 0 then dropTlb s fun e => e.asid == asid else s

theorem wrapDropped_mem (asid : Nat) : (wrapDropped s asid).mem = s.mem := by
  rw [wrapDropped]
  split <;> rfl

theorem wrapDropped_ctxOf (asid n : Nat) : (wrapDropped s asid).ctxOf n = s.ctxOf n := by
  rw [wrapDropped]
  split <;> rfl

theorem wrapDropped_tlb {asid : Nat} (h : (s.ctxOf asid).gen = 0) (c : Nat) :
    ∀ e ∈ ((wrapDropped s asid).coreOf c).tlb, e.asid ≠ asid := by
  intro e he
  rw [wrapDropped, if_pos h, dropTlb_coreOf] at he
  simpa using (List.mem_filter.mp he).2

/-- A bump becomes current everywhere. -/
theorem xlgenBumpDone_spec (asid : Nat) (h : (s.ctxOf asid).bump = true) :
    ∃ t, exec (.xlgenBumpDone asid) s = .next t ∧ t.mem = s.mem ∧
      (t.ctxOf asid).gen = (s.ctxOf asid).gen + 1 ∧ (t.ctxOf asid).bump = false ∧ (∀ b, b ≠ asid → t.ctxOf b = s.ctxOf b) ∧
      ((s.ctxOf asid).gen = 0xFFFF → ∀ c, ∀ e ∈ (t.coreOf c).tlb, e.asid ≠ asid) := by
  have hexec : exec (.xlgenBumpDone asid) s =
      .next (settleWrites (wrapDropped (nextGen s asid) asid) (.xlgenBump asid)) := by
    show execXlgenBumpDone asid s = _
    exact whenEnabled_next h s _
  have hctx := fun n => (wrapDropped_ctxOf (nextGen s asid) asid n).trans (nextGen_ctxOf s asid n)
  have hown := (hctx asid).trans (if_pos rfl)
  obtain ⟨_, _, _, hsettled⟩ := settleWrites_only (wrapDropped (nextGen s asid) asid) (.xlgenBump asid)
  rw [hsettled] at hexec
  refine ⟨_, hexec, wrapDropped_mem (nextGen s asid) asid, (congrArg Ctx.gen hown : _), (congrArg Ctx.bump hown : _),
    fun b hb => (hctx b).trans (if_neg hb), fun hwrap => wrapDropped_tlb (nextGen s asid) ?_⟩
  rw [nextGen_ctxOf, if_pos rfl, hwrap]
  rfl

/-! ### Invalidations (R161, R164) -/

theorem withInv_ctxOf (s : State) (asid n : Nat) (b : Bool) :
    (s.updCtx asid fun c => { c with inv := b }).ctxOf n =
      if n = asid then { s.ctxOf asid with inv := b } else s.ctxOf n :=
  s.updCtx_ctxOf asid n (fun c => { c with inv := b }) fun _ => rfl

/-- An invalidation of stage 2 ends once no walk of before is under way. -/
theorem xlinvStage2Done_spec (asid : Nat) (hi : (s.ctxOf asid).inv = true) (hs : staleWalks s asid = false) :
    ∃ t, exec (.xlinvStage2Done asid) s = .next t ∧ t.mem = s.mem ∧ (t.ctxOf asid).inv = false := by
  have hexec : exec (.xlinvStage2Done asid) s =
      .next (settleWrites (s.updCtx asid fun c => { c with inv := false }) (.xlinvStage2 asid)) := by
    show execXlinvStage2Done asid s = _
    exact whenEnabled_next (by rw [hi, hs]; rfl) s _
  obtain ⟨_, _, _, h⟩ := settleWrites_only (s.updCtx asid fun c => { c with inv := false }) (.xlinvStage2 asid)
  refine ⟨_, hexec, by rw [h]; rfl, ?_⟩
  rw [h]
  exact congrArg Ctx.inv ((withInv_ctxOf s asid asid false).trans (if_pos rfl))

/-- The walks of a context that began before the invalidation. -/
def Core.staled (asid : Nat) (k : Core) : Core :=
  { k with walks := k.walks.map fun w => if w.asid = asid then { w with stale := true } else w }

theorem Core.staled_walks (asid : Nat) (k : Core) :
    ∀ w ∈ (k.staled asid).walks, w.asid = asid → w.stale = true := by
  intro w hw ha
  obtain ⟨v, -, rfl⟩ := List.mem_map.mp hw
  by_cases hv : v.asid = asid
  · rw [if_pos hv]
  · rw [if_neg hv] at ha
    exact absurd ha hv

/-- The state in which stage 2 of a context is being invalidated. -/
def stage2Dropped (s : State) (asid : Nat) : State :=
  { (invAsid s asid).updCtx asid (fun c => { c with inv := true }) with
    cores := (invAsid s asid).cores.map (Core.staled asid) }

theorem stage2Dropped_coreOf (asid c : Nat) : (stage2Dropped s asid).coreOf c =
    ({ s.coreOf c with tlb := (s.coreOf c).tlb.filter fun e => !(e.asid == asid) } : Core).staled asid := by
  rw [coreOf_map (s := invAsid s asid) (f := Core.staled asid) rfl (fun _ => rfl) c rfl]
  exact congrArg _ (dropTlb_coreOf s (fun e => e.asid == asid) c)

/-- An invalidation of stage 2 drops the context's entries and lets no walk of before be installed. -/
theorem xlinvStage2_spec (asid : Nat) (h : s.inputs.head? = some (.xlinvStage2 asid)) (hi : (s.ctxOf asid).inv = false) :
    ∃ t, exec (.xlinvStage2 asid) s = .next t ∧ t.mem = s.mem ∧ (t.ctxOf asid).inv = true ∧
      (∀ c, (∀ e ∈ (t.coreOf c).tlb, e.asid ≠ asid) ∧ ∀ w ∈ (t.coreOf c).walks, w.asid = asid → w.stale = true) ∧
      ∀ p ∈ t.stlb, p.2.asid ≠ asid := by
  have hexec : exec (.xlinvStage2 asid) s = .next (stage2Dropped { s with inputs := s.inputs.drop 1 } asid) := by
    show execXlinvStage2 asid s = _
    rw [execXlinvStage2, fromOutside_next h, invStage2]
    exact congrArg _ (if_neg (Bool.eq_false_iff.mp hi))
  refine ⟨_, hexec, rfl, ?_, fun c => ?_, fun p hp => ?_⟩
  · exact congrArg Ctx.inv ((withInv_ctxOf (invAsid _ asid) asid asid true).trans (if_pos rfl))
  · rw [stage2Dropped_coreOf]
    exact ⟨fun e he => by simpa using (List.mem_filter.mp he).2, Core.staled_walks asid _⟩
  · simpa using (List.mem_filter.mp hp).2

/-- The entries that an invalidation drops are those that meet its test. -/
theorem dropTlb_drops {i : Instr} {p : TlbEntry → Bool} {gone : TlbEntry → Prop}
    (hexec : exec i s = .next (dropTlb { s with inputs := s.inputs.drop 1 } p)) (hgone : ∀ e, gone e ↔ p e = true) :
    ∃ t, exec i s = .next t ∧ t.inputs = s.inputs.drop 1 ∧ t.mem = s.mem ∧ t.ctxs = s.ctxs ∧ t.groups = s.groups ∧
      ∀ c e, (e ∈ (t.coreOf c).tlb ↔ e ∈ (s.coreOf c).tlb ∧ ¬ gone e) ∧
        ∀ d, ((d, e) ∈ t.stlb ↔ (d, e) ∈ s.stlb ∧ ¬ gone e) := by
  refine ⟨_, hexec, rfl, rfl, rfl, rfl, fun c e => ⟨?_, fun d => ?_⟩⟩
  · rw [dropTlb_coreOf]
    exact List.mem_filter.trans (and_congr_right fun _ => by rw [hgone]; simp)
  · exact List.mem_filter.trans (and_congr_right fun _ => by rw [hgone]; simp)

/-- An invalidation drops the entries of a page, of a context, or all. -/
theorem xlinv_spec (i : Instr) (gone : TlbEntry → Prop) (h : s.inputs.head? = some i)
    (hi : (∃ asid page, i = .xlinvPage asid page ∧ ∀ e, gone e ↔ e.hit asid (page * 65536) = true) ∨
      (∃ asid, i = .xlinvAsid asid ∧ ∀ e, gone e ↔ e.asid = asid) ∨ (i = .xlinvAll ∧ ∀ e, gone e ↔ True)) :
    ∃ t, exec i s = .next t ∧ t.inputs = s.inputs.drop 1 ∧ t.mem = s.mem ∧ t.ctxs = s.ctxs ∧ t.groups = s.groups ∧
      ∀ c e, (e ∈ (t.coreOf c).tlb ↔ e ∈ (s.coreOf c).tlb ∧ ¬ gone e) ∧
        ∀ d, ((d, e) ∈ t.stlb ↔ (d, e) ∈ s.stlb ∧ ¬ gone e) := by
  rcases hi with ⟨asid, page, rfl, hgone⟩ | ⟨asid, rfl, hgone⟩ | ⟨rfl, hgone⟩
  · refine dropTlb_drops s (p := fun e => e.hit asid (page * 65536)) ?_ hgone
    show execXlinvPage asid page s = _
    exact fromOutside_next h _
  · refine dropTlb_drops s (p := fun e => e.asid == asid) ?_ fun e => (hgone e).trans beq_iff_eq.symm
    show execXlinvAsid asid s = _
    exact fromOutside_next h _
  · refine dropTlb_drops s (p := fun _ => true) ?_ fun e => (hgone e).trans (iff_of_true trivial rfl)
    show execXlinvAll s = _
    exact fromOutside_next h _

end Sys2Proof.Machine
end

section
/-!
The core-pinned window (R154, R163) and line moves (R155), and the statement of O49.
-/

namespace Sys2Proof.Machine

open Sys2Proof

/-! ### The window's registers -/

/-- The fields of a register made of a page and a count of pages. -/
theorem window_fields (a b : Nat) :
    (BitVec.ofNat 64 (a * 65536 + min 2 b)).extractLsb' 16 40 = BitVec.ofNat 40 a ∧
      (BitVec.ofNat 64 (a * 65536 + min 2 b)).extractLsb' 0 2 = BitVec.ofNat 2 (min 2 b) := by
  refine ⟨BitVec.eq_of_toNat_eq ?_, BitVec.eq_of_toNat_eq ?_⟩
  · rw [toNat_extractLsb'_eq_nbits, BitVec.toNat_ofNat, BitVec.toNat_ofNat, nbits]
    omega
  · rw [toNat_extractLsb'_eq_nbits, BitVec.toNat_ofNat, BitVec.toNat_ofNat, nbits, Nat.pow_zero, Nat.div_one]
    omega

/-- Bits of a pair, as the model and as the statements write them. -/
theorem ofNat_dbits (w : Dword) (lo len : Nat) : BitVec.ofNat len (dbits w lo len) = w.extractLsb' lo len := by
  rw [dbits, ← toNat_extractLsb'_eq_nbits, BitVec.ofNat_toNat, BitVec.setWidth_eq]

/-- CPWIN keeps the page and the number of pages, at most 2. -/
theorem cpwinValue_fields (w : Dword) : (cpwinValue w).extractLsb' 16 40 = w.extractLsb' 16 40 ∧
    ((cpwinValue w).extractLsb' 0 2).toNat = min 2 (w.extractLsb' 0 2).toNat := by
  obtain ⟨hpage, hcount⟩ := window_fields (dbits w 16 40) (dbits w 0 2)
  refine ⟨hpage.trans (ofNat_dbits w 16 40), (congrArg BitVec.toNat hcount).trans ?_⟩
  rw [BitVec.toNat_ofNat, Nat.mod_eq_of_lt (by omega), toNat_extractLsb'_eq_nbits]

theorem cpwinbValue_page (w : Dword) : (cpwinbValue w).extractLsb' 16 40 = w.extractLsb' 16 40 := by
  have hpage := (window_fields (dbits w 16 40) 0).1
  rw [Nat.min_zero, Nat.add_zero] at hpage
  exact hpage.trans (ofNat_dbits w 16 40)

/-- The pages that a written window has. -/
theorem winPages_written (win winb : Dword) :
    (win.extractLsb' 0 2 = 0 → winPages (cpwinValue win) (cpwinbValue winb) = []) ∧
    (win.extractLsb' 0 2 = 1 → winPages (cpwinValue win) (cpwinbValue winb) = [(win.extractLsb' 16 40).toNat]) := by
  obtain ⟨hpage, hcount⟩ := cpwinValue_fields win
  rw [toNat_extractLsb'_eq_nbits] at hcount
  refine ⟨fun h => ?_, fun h => ?_⟩
  · rw [h] at hcount
    rw [winPages, dbits, hcount]
    rfl
  · rw [h] at hcount
    rw [winPages, dbits, hcount, ← hpage, toNat_extractLsb'_eq_nbits]
    rfl

/-! ### The window changes (R163) -/

section
variable {s : State} {core : Nat} {win winb : Dword}

theorem setCpwin_coreOf : ((setCpwin s core win winb).coreOf core).cpwin = cpwinValue win ∧
    ((setCpwin s core win winb).coreOf core).cpwinb = cpwinbValue winb := by
  rw [setCpwin]
  rw [State.updCore_coreOf_same _ core
    (fun k => { k with cpwin := cpwinValue win, cpwinb := cpwinbValue winb }) fun _ => rfl]
  exact ⟨rfl, rfl⟩

/-- A window that has no page and gets none moves no byte. -/
theorem setCpwin_mem_empty (hw : win.extractLsb' 0 2 = 0) (hp : (s.coreOf core).pins = []) :
    (setCpwin s core win winb).mem = s.mem := by
  rw [setCpwin, (winPages_written win winb).1 hw, hp]
  rfl

/-- A window that loses its one page writes it back. -/
theorem setCpwin_mem_unpins (hw : win.extractLsb' 0 2 = 0) {p f : Nat} (hp : (s.coreOf core).pins = [(p, some f)]) :
    (setCpwin s core win winb).mem = Mem.moveTo s.mem (2 ^ 52 * (1 + core) + f) f 65536 := by
  rw [setCpwin, (winPages_written win winb).1 hw, hp]
  rfl

/-- A window that gets one page loads it from its frame. -/
theorem setCpwin_mem_pins (hw : win.extractLsb' 0 2 = 1) (hp : (s.coreOf core).pins = []) {asid f : Nat}
    (hf : pinFrame s core (win.extractLsb' 16 40).toNat = some (asid, f)) :
    (setCpwin s core win winb).mem =
      (State.accessed { s with mem := Mem.copyTo s.mem f (2 ^ 52 * (1 + core) + f) 65536 } asid
        ((win.extractLsb' 16 40).toNat * 65536)).mem := by
  rw [setCpwin, (winPages_written win winb).2 hw, hp]
  simp only [List.filter_nil, List.foldl_nil, List.any_nil, Bool.not_false, List.filter_true, List.foldl_cons]
  rw [State.updCore_mem, pin, hf]
  rfl

theorem unpin_keeps (s : State) (core : Nat) (p : Nat × Option Nat) : AccessKeeps s (unpin s core p) :=
  ⟨rfl, rfl, rfl, rfl⟩

theorem pin_keeps (s : State) (core page : Nat) : AccessKeeps s (pin s core page) := by
  simp only [pin]
  split
  · exact ((withMem_keeps s _).trans (State.accessed_keeps _ _ _)).trans (State.updCore_keeps _ _ _)
  · exact s.updCore_keeps _ _

theorem setCpwin_keeps (s : State) (core : Nat) (win winb : Dword) : AccessKeeps s (setCpwin s core win winb) :=
  ((AccessKeeps.foldl (fun s p => unpin_keeps s core p) _ s).trans
    (.foldl (fun s p => pin_keeps s core p) _ _)).trans (State.updCore_keeps _ _ _)

/-- The bytes of a page that leaves the window, and of one that enters it. -/
theorem setCpwin_get (s : State) (core : Nat) (win winb : Dword) (hm : Mem.wf s.mem = true) (x : Nat) (hx : x < 65536) :
    (∀ p f, win.extractLsb' 0 2 = 0 → (s.coreOf core).pins = [(p, some f)] →
      Mem.get (setCpwin s core win winb).mem (f + x) = Mem.get s.mem (2 ^ 52 * (1 + core) + f + x)) ∧
    ∀ asid f, win.extractLsb' 0 2 = 1 → (s.coreOf core).pins = [] →
      pinFrame s core (win.extractLsb' 16 40).toNat = some (asid, f) →
      Mem.get (setCpwin s core win winb).mem (2 ^ 52 * (1 + core) + f + x) = Mem.get s.mem (f + x) := by
  refine ⟨fun p f hw hp => ?_, fun asid f hw hp hf => ?_⟩
  · rw [setCpwin_mem_unpins hw hp]
    exact Mem.get_moveTo hm (2 ^ 52 * (1 + core) + f) f hx
  · rw [setCpwin_mem_pins hw hp hf, State.get_accessed_above _ (Mem.copyTo_wf _ _ _ hm) _ _ (by omega)]
    exact Mem.get_copyTo hm f (2 ^ 52 * (1 + core) + f) hx

/-- A write of the window's registers. -/
theorem cpwinWrite_spec (s : State) (core : Nat) (win winb : Dword)
    (h : s.inputs.head? = some (.cpwinWrite core win winb)) (hwait : cpwinWaits s core win winb = false) :
    ∃ t, exec (.cpwinWrite core win winb) s = .next t ∧ t.inputs = s.inputs.drop 1 ∧
      (t.coreOf core).cpwin.extractLsb' 16 40 = win.extractLsb' 16 40 ∧
      ((t.coreOf core).cpwin.extractLsb' 0 2).toNat = min 2 (win.extractLsb' 0 2).toNat ∧
      (t.coreOf core).cpwinb.extractLsb' 16 40 = winb.extractLsb' 16 40 ∧
      (win.extractLsb' 0 2 = 0 → (s.coreOf core).pins = [] → t.mem = s.mem) ∧
      (∀ p f, Mem.wf s.mem = true → win.extractLsb' 0 2 = 0 → (s.coreOf core).pins = [(p, some f)] → f + 65536 ≤ 2 ^ 52 →
        ∀ x, x < 65536 → Mem.get t.mem (f + x) = Mem.get s.mem (2 ^ 52 * (1 + core) + f + x)) ∧
      ∀ asid f, Mem.wf s.mem = true → win.extractLsb' 0 2 = 1 → (s.coreOf core).pins = [] →
        pinFrame s core (win.extractLsb' 16 40).toNat = some (asid, f) → f + 65536 ≤ 2 ^ 52 →
        (∀ r, walk s asid ((win.extractLsb' 16 40).toNat * 65536) = .ok r → ∀ l ∈ r.leaves, l < 2 ^ 52) →
        ∀ x, x < 65536 → Mem.get t.mem (2 ^ 52 * (1 + core) + f + x) = Mem.get s.mem (f + x) := by
  generalize hu : ({ s with inputs := s.inputs.drop 1 } : State) = u
  have hexec : exec (.cpwinWrite core win winb) s = .next (setCpwin u core win winb) := by
    show execCpwinWrite core win winb s = _
    rw [execCpwinWrite, hwait, if_neg Bool.false_ne_true, fromOutside_next h, hu]
  have hmem : u.mem = s.mem := by rw [← hu]
  have hcore : u.coreOf core = s.coreOf core := by rw [← hu]; rfl
  have hframe : ∀ page, pinFrame u core page = pinFrame s core page := fun page => by rw [← hu]; rfl
  obtain ⟨hwin, hwinb⟩ := setCpwin_coreOf (s := u) (core := core) (win := win) (winb := winb)
  obtain ⟨hpage, hcount⟩ := cpwinValue_fields win
  have hget := setCpwin_get u core win winb
  rw [← hmem, ← hcore, ← hframe]
  exact ⟨_, hexec, (setCpwin_keeps u core win winb).inputs.trans (by rw [← hu]), by rw [hwin, hpage],
    by rw [hwin, hcount], by rw [hwinb, cpwinbValue_page], setCpwin_mem_empty,
    fun p f hm hw hp _ x hx => (hget hm x hx).1 p f hw hp,
    fun asid f hm hw hp hf _ _ x hx => (hget hm x hx).2 asid f hw hp hf⟩

end

/-! ### Line moves (R155) -/

/-- The state in which a line has left its old slice, but for its entry into the new one. -/
def lineGone (s : State) (m : Touch) : State :=
  { s with
    l2 := s.l2.filter fun x => !(x.line == m.line && x.slice == m.holder)
    touches := s.touches.filterMap fun x =>
      if x.line ≠ m.line then some x
      else if m.cluster = sliceHash (256 * m.line) then none
      else some { x with moving := false, holder := m.cluster, count := 0 } }

/-- A counter of another line stays as it is. -/
theorem mem_lineGone_other {s : State} {m l : Touch} (h : l.line ≠ m.line) :
    l ∈ (lineGone s m).touches ↔ l ∈ s.touches := by
  refine List.mem_filterMap.trans ⟨fun ⟨x, hx, hl⟩ => ?_, fun hl => ⟨l, hl, if_pos h⟩⟩
  split_ifs at hl with hx1 hx2
  · exact Option.some.inj hl ▸ hx
  · obtain rfl := Option.some.inj hl
    exact absurd (not_not.mp hx1) h

/-- The counter of the line names its new slice, which is not its home. -/
theorem mem_lineGone_own {s : State} {m l : Touch} (hl : l ∈ (lineGone s m).touches) (h : l.line = m.line) :
    l.moving = false ∧ l.count = 0 ∧ l.holder = m.cluster ∧ m.cluster ≠ sliceHash (256 * m.line) := by
  obtain ⟨x, -, hx⟩ := List.mem_filterMap.mp hl
  split_ifs at hx with hx1 hx2
  · exact absurd (Option.some.inj hx ▸ h) hx1
  · obtain rfl := Option.some.inj hx
    exact ⟨rfl, rfl, rfl, hx2⟩

/-- A line arrives: nothing but the homes changes, counters of touches but its own stay, and it is in its new slice. -/
theorem lineArrives_spec (s : State) (m : Touch) : HomesOnly s (lineArrives s m) ∧
    TouchesStay (lineGone s m) (lineArrives s m) ∧
    ∀ x, s.l2.find? (fun x => x.line = m.line && x.slice = m.holder) = some x →
      { x with slice := m.cluster } ∈ (lineArrives s m).l2 := by
  have hgone : HomesOnly s (lineGone s m) := ⟨_, _, _, _, _, rfl⟩
  cases hheld : s.l2.find? fun x => x.line = m.line && x.slice = m.holder with
  | none =>
    have harrives : lineArrives s m = lineGone s m := by
      rw [lineArrives, hheld]
      rfl
    rw [harrives]
    exact ⟨hgone, .of_eq rfl, fun x hx => by cases hx⟩
  | some y =>
    have harrives : lineArrives s m = (lineGone s m).l2Enter { y with slice := m.cluster } := by
      rw [lineArrives, hheld]
      rfl
    rw [harrives]
    refine ⟨hgone.trans (State.l2Enter_only _ _), State.l2Enter_touchesStay _ _, fun x hx => ?_⟩
    obtain rfl := Option.some.inj hx
    exact State.mem_l2Enter _ _

/-- A line that moved is held by the cluster that touched it. -/
theorem lineMigrateDone_spec (s : State) (line : Nat) (m : Touch) (he : enabledLineMigrateDone s line = true)
    (hm : s.touches.find? (fun l => l.line = line && l.moving) = some m) :
    ∃ t, exec (.lineMigrateDone line) s = .next t ∧ t.mem = s.mem ∧ t.groups = s.groups ∧
      (∀ l ∈ t.touches, l.line = line → l.moving = false ∧ l.count = 0 ∧ l.holder = m.cluster ∧
        m.cluster ≠ sliceHash (256 * line)) ∧
      (∀ l, l.line ≠ line → (l ∈ t.touches → l ∈ s.touches) ∧
        (l ∈ s.touches → l.holder = sliceHash (256 * l.line) → l ∈ t.touches)) ∧
      ∀ x, s.l2.find? (fun x => x.line = line && x.slice = m.holder) = some x → { x with slice := m.cluster } ∈ t.l2 := by
  obtain rfl : m.line = line := by
    have := List.find?_some hm
    simp only [Bool.and_eq_true, decide_eq_true_eq] at this
    exact this.1
  have hexec : exec (.lineMigrateDone m.line) s = .next (lineArrives s m) := by
    show execLineMigrateDone m.line s = _
    rw [execLineMigrateDone, whenEnabled_next he, hm]
  obtain ⟨hhomes, hstay, hheld⟩ := lineArrives_spec s m
  exact ⟨_, hexec, hhomes.mem, hhomes.groups, fun l hl hline => mem_lineGone_own (hstay.old l hl) hline,
    fun l hline => ⟨fun hl => (mem_lineGone_other hline).mp (hstay.old l hl),
      fun hl hhome => hstay.home l ((mem_lineGone_other hline).mpr hl) hhome⟩, hheld⟩

/-! ### The statement -/

/-- Settles O49: each event by what it leaves of the core's walks, the TLBs, the contexts, memory and the lines. -/
theorem translationsChange : Obligations.TranslationsChange :=
  ⟨fun _ _ _ _ hw hs => ⟨fun he => ⟨walkComplete_installs hw hs he, walkComplete_fails hw hs he⟩,
      walkMigrateReread_spec hw⟩,
    fun s asid => ⟨xlgenBump_spec s asid, xlgenBumpDone_spec s asid, xlinvStage2Done_spec s asid,
      xlinvStage2_spec s asid⟩,
    xlinv_spec, cpwinWrite_spec, lineMigrateDone_spec⟩

end Sys2Proof.Machine
end
